-- ==== Sys2Proof/Word.lean ====
section
/-! DEFINITION. The word types of the Yarrin Y8 and the sparse tables the state is made of. -/

namespace Sys2Proof

/-- A byte, a halfword, a word and a doubleword (R5). -/
abbrev Byte := BitVec 8
abbrev W16 := BitVec 16
abbrev W32 := BitVec 32
abbrev W64 := BitVec 64
/-- A 56-bit virtual address (R15). -/
abbrev VA := BitVec 56
/-- A 96-bit instruction word (R54). -/
abbrev W96 := BitVec 96

/-- A sparse table keyed by a number: strictly rising keys. -/
abbrev Tbl (α : Type) := List (Nat × α)

/-- A memory: cells in strictly rising addresses, none of them zero, since an unlisted byte reads
zero (R29 for local space, R391 step 3 for HBM). -/
abbrev Mem := List (Nat × BitVec 8)

end Sys2Proof
end

