-- ==== Sys2Proof/Syntax.lean ====
section
/-! DEFINITION. The instructions and events of the Yarrin Y8: one constructor of `Instr` per row of the
opcode table. A Dolmin instruction carries the decoded fields of its word (`Form`, R54); an event
carries the objects it happens to. -/

namespace Sys2Proof

/-- An operand descriptor, by the classes of R56. -/
inductive Opnd where
  | v (n : BitVec 8)
  | s (n : BitVec 7)
  | sp (n : BitVec 9)
  | p (n : BitVec 3)
  | m (n : BitVec 4)
  | q (n : BitVec 4) (nb : Bool) (pr : BitVec 3)
  | imm (k : BitVec 9)
  | nul
  deriving DecidableEq, Repr, Inhabited

/-- The C field: a 32-bit immediate, or a descriptor with the opcode's extra modifier bits C[31:12] (R54). -/
inductive COp where
  | imm (c : W32)
  | reg (o : Opnd) (ext : BitVec 20)
  deriving DecidableEq, Repr, Inhabited

/-- The fields of an instruction word other than its opcode (R54). -/
structure Form where
  guard : BitVec 4
  d : Opnd
  a : Opnd
  b : Opnd
  c : COp
  mod : BitVec 9
  fset : BitVec 2
  pace : BitVec 3
  defer : Bool
  deriving DecidableEq, Repr, Inhabited

/-- The fields of a clause header (R68). -/
structure Header where
  wait : BitVec 12
  flagA : BitVec 4
  flagB : BitVec 4
  len : BitVec 3
  deriving DecidableEq, Repr, Inhabited

/-- How an access from or to a peer package failed at its home (R348, R361). -/
inductive PeerFault where
  | absent
  | fatal (code : Nat)
  | poisoned
  deriving DecidableEq, Repr

/-- What a read between packages asks for (R363): bytes of memory; a sibling cell with its context record (R305); the bytes of a
write notice that the asked package has sent (R362); or chunk j of what a member die contributes to a collective, for the member
of a rank (R373, R376). -/
inductive PeerReadKind where
  | memory
  | sibling
  | notice (cmd elem : Nat)
  | chunk (die slot : Nat) (seq : W32) (rank j : Nat)
  /-- of nothing: the news that the member of a rank is suspended, or goes on (R378) -/
  | halt (die slot : Nat) (seq : W32) (rank : Nat) (on : Bool)
  deriving DecidableEq, Repr, Inhabited

/-- A read request that arrives from another package (R362). -/
structure PeerRead where
  pkg : Nat
  tag : Nat
  asid : Nat
  va : VA
  len : Nat
  /-- for a sibling cell `len` is the size of its values (R305) -/
  kind : PeerReadKind
  /-- the class of the command that reads (R365) -/
  cls : Nat
  deriving DecidableEq, Repr, Inhabited

/-- What a write notice asks the home to do with the bytes it reads from the requester (R362). -/
inductive PeerWriteKind where
  | plain
  /-- a reduction in a format; for a 4-bit format a plain write of the low (0) or high (1) half of the byte (R33) -/
  | reduce (fmt op : Nat)
  | cas (fmt : Nat) (cmp : List Byte)
  | sibling (cmdKey pkg die : Nat) (ctx : List Byte)
  deriving DecidableEq, Repr, Inhabited

/-- A write notice that arrives from another package, whose bytes the home then reads from the requester (R362). -/
structure PeerWrite where
  pkg : Nat
  tag : Nat
  asid : Nat
  va : VA
  len : Nat
  kind : PeerWriteKind
  /-- the class of the command that writes (R365) -/
  cls : Nat
  deriving DecidableEq, Repr, Inhabited

/-- A collective digest (R370). -/
structure Digest where
  seq : W32
  op : Nat
  redop : Nat
  srcFmt : Nat
  dstFmt : Nat
  count : Nat
  root : Nat
  repl : Nat
  chunk : Nat
  nmemb : Nat
  rank : Nat
  valid : Bool
  deriving DecidableEq, Repr

/-- A host datagram that arrives (R385, R386): the fields of its header, whether its tag authenticates, the bytes of the UDP payload
that carries it, its UDP destination port, and whether its packet has IPv6 extension headers. -/
structure Dgram where
  session : Nat
  seq : Nat
  authentic : Bool
  ver : Nat := 1
  len : Nat := 9088
  frame : Nat := len + 32
  port : Nat := 24810
  ext : Bool := false
  deriving DecidableEq, Repr

/-- A HELLO: its datagram and the host's nonce (R386). -/
structure Hello extends Dgram where
  nonce : List Byte
  deriving DecidableEq, Repr

/-- What a REGISTER installs (R387). -/
inductive RegItem where
  | rcb (addr : Nat) (dws : List W64)
  | root (ctx asid addr : Nat)
  | comm (ctx slot asid : Nat) (va : VA)
  | sibtab (ctx idx : Nat) (dws : List W64)
  | key (ctx slot : Nat)
  deriving DecidableEq, Repr

/-- A master that can be frozen (R353). -/
inductive Master where
  | team (launch ordinal : Nat)
  | sequencer (port : Nat)
  | session (id : Nat)
  deriving DecidableEq, Repr

/-- Where an uncorrectable error arises (R192). -/
inductive ErrLoc where
  | hbm (line : Nat)
  | loan (die line : Nat)
  | window (core asid line : Nat)
  | scratch (team line : Nat)
  | folio (core line : Nat)
  | acc (core tile index : Nat)
  | vreg (core slot lane reg : Nat)
  | sreg (core slot reg : Nat)
  deriving DecidableEq, Repr

/-- Every row of the opcode table. -/
inductive Instr where
  /-- CLAUSE (R16). -/
  | clause (h : Header)
  /-- NOP (R103). -/
  | nop (f : Form)
  /-- BRA (R98). -/
  | bra (f : Form)
  /-- BRX (R98). -/
  | brx (f : Form)
  /-- CALL (R100). -/
  | call (f : Form)
  /-- CALLX (R100). -/
  | callx (f : Form)
  /-- RET (R100). -/
  | ret (f : Form)
  /-- EXIT (R101). -/
  | exit (f : Form)
  /-- TRAP (R102). -/
  | trap (f : Form)
  /-- BRK (R102). -/
  | brk (f : Form)
  /-- YIELD (R103). -/
  | yield (f : Form)
  /-- SLEEP (R103). -/
  | sleep (f : Form)
  /-- ASSERT (R102). -/
  | assert (f : Form)
  /-- SVC (R332). -/
  | svc (f : Form)
  /-- ERET (R333). -/
  | eret (f : Form)
  /-- UDF (R71). -/
  | udf (f : Form)
  /-- IADD (R84). -/
  | iadd (f : Form)
  /-- ISUB (R84). -/
  | isub (f : Form)
  /-- IMUL (R84). -/
  | imul (f : Form)
  /-- IMULH (R84). -/
  | imulh (f : Form)
  /-- IMAD (R84). -/
  | imad (f : Form)
  /-- IMADW (R84). -/
  | imadw (f : Form)
  /-- IDIV (R85). -/
  | idiv (f : Form)
  /-- IREM (R85). -/
  | irem (f : Form)
  /-- IMIN (R84). -/
  | imin (f : Form)
  /-- IMAX (R84). -/
  | imax (f : Form)
  /-- IABS (R84). -/
  | iabs (f : Form)
  /-- INEG (R84). -/
  | ineg (f : Form)
  /-- IADDC (R86). -/
  | iaddc (f : Form)
  /-- ISUBB (R86). -/
  | isubb (f : Form)
  /-- ISAD (R84). -/
  | isad (f : Form)
  /-- IDOT4 (R84). -/
  | idot4 (f : Form)
  /-- LADD (R87). -/
  | ladd (f : Form)
  /-- LSUB (R87). -/
  | lsub (f : Form)
  /-- LMUL (R87). -/
  | lmul (f : Form)
  /-- LMAD (R87). -/
  | lmad (f : Form)
  /-- LSHL (R87). -/
  | lshl (f : Form)
  /-- LSHR (R87). -/
  | lshr (f : Form)
  /-- LSAR (R87). -/
  | lsar (f : Form)
  /-- LMIN (R87). -/
  | lmin (f : Form)
  /-- LMAX (R87). -/
  | lmax (f : Form)
  /-- LAND (R87). -/
  | land (f : Form)
  /-- LOR (R87). -/
  | lor (f : Form)
  /-- LXOR (R87). -/
  | lxor (f : Form)
  /-- LEA (R87). -/
  | lea (f : Form)
  /-- LNEG (R87). -/
  | lneg (f : Form)
  /-- LDIV (R85). -/
  | ldiv (f : Form)
  /-- LREM (R85). -/
  | lrem (f : Form)
  /-- AND (R88). -/
  | and (f : Form)
  /-- OR (R88). -/
  | or (f : Form)
  /-- XOR (R88). -/
  | xor (f : Form)
  /-- NOT (R88). -/
  | not (f : Form)
  /-- ANDN (R88). -/
  | andn (f : Form)
  /-- LOP3 (R89). -/
  | lop3 (f : Form)
  /-- SHL (R88). -/
  | shl (f : Form)
  /-- SHR (R88). -/
  | shr (f : Form)
  /-- SAR (R88). -/
  | sar (f : Form)
  /-- ROTL (R88). -/
  | rotl (f : Form)
  /-- FUNSH (R88). -/
  | funsh (f : Form)
  /-- POPC (R88). -/
  | popc (f : Form)
  /-- CLZ (R88). -/
  | clz (f : Form)
  /-- BREV (R88). -/
  | brev (f : Form)
  /-- BFE (R90). -/
  | bfe (f : Form)
  /-- BFI (R90). -/
  | bfi (f : Form)
  /-- ISETP (R91). -/
  | isetp (f : Form)
  /-- LSETP (R91). -/
  | lsetp (f : Form)
  /-- FSETP (R91). -/
  | fsetp (f : Form)
  /-- PSETP (R89). -/
  | psetp (f : Form)
  /-- SEL (R93). -/
  | sel (f : Form)
  /-- MOV (R93). -/
  | mov (f : Form)
  /-- MOVI (R93). -/
  | movi (f : Form)
  /-- MOVS (R93). -/
  | movs (f : Form)
  /-- RDLANE (R95). -/
  | rdlane (f : Form)
  /-- BCAST (R95). -/
  | bcast (f : Form)
  /-- PTOV (R94). -/
  | ptov (f : Form)
  /-- VTOP (R94). -/
  | vtop (f : Form)
  /-- CLAMP (R93). -/
  | clamp (f : Form)
  /-- CLOCK (R96). -/
  | clock (f : Form)
  /-- PRMT (R93). -/
  | prmt (f : Form)
  /-- MOVHI (R93). -/
  | movhi (f : Form)
  /-- SHFL (R147). -/
  | shfl (f : Form)
  /-- SHFLX (R147). -/
  | shflx (f : Form)
  /-- SHFLU (R147). -/
  | shflu (f : Form)
  /-- SHFLD (R147). -/
  | shfld (f : Form)
  /-- VOTEANY (R148). -/
  | voteany (f : Form)
  /-- VOTEALL (R148). -/
  | voteall (f : Form)
  /-- BALLOT (R148). -/
  | ballot (f : Form)
  /-- MATCH (R149). -/
  | matchEq (f : Form)
  /-- REDUX (R150). -/
  | redux (f : Form)
  /-- JOIN (R152). -/
  | join (f : Form)
  /-- LEAVE (R152). -/
  | leave (f : Form)
  /-- JWAIT (R152). -/
  | jwait (f : Form)
  /-- JWAIT_COMPLETE (R133). -/
  | jwaitComplete (core slot mask : Nat)
  /-- JSET (R152). -/
  | jset (f : Form)
  /-- JGET (R152). -/
  | jget (f : Form)
  /-- REFORM (R137). -/
  | reform (f : Form)
  /-- REFORM_WAIT_FILE (R137). -/
  | reformWaitFile (core : Nat)
  /-- BIN_DRAW_AGE (R137). -/
  | binDrawAge (core bin : Nat)
  /-- REJOIN (R140). -/
  | rejoin (f : Form)
  /-- BARA (R155). -/
  | bara (f : Form)
  /-- BARW (R155). -/
  | barw (f : Form)
  /-- BARAW (R155). -/
  | baraw (f : Form)
  /-- BARD (R155). -/
  | bard (f : Form)
  /-- BART (R155). -/
  | bart (f : Form)
  /-- BART_TIMEOUT (R155). -/
  | bartTimeout (core slot lane : Nat)
  /-- BARINIT (R155). -/
  | barinit (f : Form)
  /-- FENCE (R203). -/
  | fence (f : Form)
  /-- PREFW (R201). -/
  | prefw (f : Form)
  /-- WBW (R202). -/
  | wbw (f : Form)
  /-- INVW (R202). -/
  | invw (f : Form)
  /-- DISW (R202). -/
  | disw (f : Form)
  /-- WINMAP (R200). -/
  | winmap (f : Form)
  /-- LMON (R204). -/
  | lmon (f : Form)
  /-- LMWAIT (R205). -/
  | lmwait (f : Form)
  /-- LMWAIT_WAKE (R205). -/
  | lmwaitWake (core slot lane : Nat)
  /-- LMWAIT_TIMEOUT (R205). -/
  | lmwaitTimeout (core slot lane : Nat)
  /-- ELECT (R151). -/
  | elect (f : Form)
  /-- ACTIVE (R151). -/
  | active (f : Form)
  /-- LDL8 (R195). -/
  | ldl8 (f : Form)
  /-- LDL16 (R195). -/
  | ldl16 (f : Form)
  /-- LDL32 (R195). -/
  | ldl32 (f : Form)
  /-- LDL64 (R195). -/
  | ldl64 (f : Form)
  /-- LDL128 (R195). -/
  | ldl128 (f : Form)
  /-- STL8 (R195). -/
  | stl8 (f : Form)
  /-- STL16 (R195). -/
  | stl16 (f : Form)
  /-- STL32 (R195). -/
  | stl32 (f : Form)
  /-- STL64 (R195). -/
  | stl64 (f : Form)
  /-- STL128 (R195). -/
  | stl128 (f : Form)
  /-- LDLS (R196). -/
  | ldls (f : Form)
  /-- STLS (R196). -/
  | stls (f : Form)
  /-- LDLM (R197). -/
  | ldlm (f : Form)
  /-- STLM (R197). -/
  | stlm (f : Form)
  /-- LDF (R198). -/
  | ldf (f : Form)
  /-- STF (R198). -/
  | stf (f : Form)
  /-- ATLADD (R199). -/
  | atladd (f : Form)
  /-- ATLMIN (R199). -/
  | atlmin (f : Form)
  /-- ATLMAX (R199). -/
  | atlmax (f : Form)
  /-- ATLAND (R199). -/
  | atland (f : Form)
  /-- ATLOR (R199). -/
  | atlor (f : Form)
  /-- ATLXOR (R199). -/
  | atlxor (f : Form)
  /-- ATLXCH (R199). -/
  | atlxch (f : Form)
  /-- ATLCAS (R199). -/
  | atlcas (f : Form)
  /-- ATLFADD (R199). -/
  | atlfadd (f : Form)
  /-- ATLINC (R199). -/
  | atlinc (f : Form)
  /-- ATLDEC (R199). -/
  | atldec (f : Form)
  /-- ATLLADD (R199). -/
  | atlladd (f : Form)
  /-- ATLLCAS (R199). -/
  | atllcas (f : Form)
  /-- ATLLXCH (R199). -/
  | atllxch (f : Form)
  /-- ATLFMIN (R199). -/
  | atlfmin (f : Form)
  /-- ATLFMAX (R199). -/
  | atlfmax (f : Form)
  /-- FADD (R108). -/
  | fadd (f : Form)
  /-- FSUB (R108). -/
  | fsub (f : Form)
  /-- FMUL (R108). -/
  | fmul (f : Form)
  /-- FFMA (R108). -/
  | ffma (f : Form)
  /-- FMIN (R108). -/
  | fmin (f : Form)
  /-- FMAX (R108). -/
  | fmax (f : Form)
  /-- FRCP (R110). -/
  | frcp (f : Form)
  /-- FRSQ (R110). -/
  | frsq (f : Form)
  /-- FSQRT (R108). -/
  | fsqrt (f : Form)
  /-- FDIV (R108). -/
  | fdiv (f : Form)
  /-- FSIN (R110). -/
  | fsin (f : Form)
  /-- FCOS (R110). -/
  | fcos (f : Form)
  /-- FEXP2 (R110). -/
  | fexp2 (f : Form)
  /-- FLOG2 (R110). -/
  | flog2 (f : Form)
  /-- FTANH (R110). -/
  | ftanh (f : Form)
  /-- FCLASS (R115). -/
  | fclass (f : Form)
  /-- HADD2 (R111). -/
  | hadd2 (f : Form)
  /-- HSUB2 (R111). -/
  | hsub2 (f : Form)
  /-- HMUL2 (R111). -/
  | hmul2 (f : Form)
  /-- HFMA2 (R111). -/
  | hfma2 (f : Form)
  /-- HMIN2 (R111). -/
  | hmin2 (f : Form)
  /-- HMAX2 (R111). -/
  | hmax2 (f : Form)
  /-- FDOT2 (R112). -/
  | fdot2 (f : Form)
  /-- FDOT4 (R112). -/
  | fdot4 (f : Form)
  /-- CVTF (R117). -/
  | cvtf (f : Form)
  /-- CVTFI (R118). -/
  | cvtfi (f : Form)
  /-- CVTIF (R118). -/
  | cvtif (f : Form)
  /-- CVTPK (R120). -/
  | cvtpk (f : Form)
  /-- CVTUPK (R121). -/
  | cvtupk (f : Form)
  /-- FSCALE (R108). -/
  | fscale (f : Form)
  /-- FROUND (R119). -/
  | fround (f : Form)
  /-- FCOPYSIGN (R109). -/
  | fcopysign (f : Form)
  /-- CPOST (R257). -/
  | cpost (f : Form)
  /-- CPOST_APPEND (R257). -/
  | cpostAppend (core cls : Nat)
  /-- CFENCE (R261). -/
  | cfence (f : Form)
  /-- CSTAT (R262). -/
  | cstat (f : Form)
  /-- CCANCEL (R263). -/
  | ccancel (f : Form)
  /-- SWAITANY (R264). -/
  | swaitany (f : Form)
  /-- SWAITALL (R264). -/
  | swaitall (f : Form)
  /-- SLIP_WAIT_RETURN (R264). -/
  | slipWaitReturn (core slot bid : Nat)
  /-- SFIND (R264). -/
  | sfind (f : Form)
  /-- STRY (R264). -/
  | stry (f : Form)
  /-- STRY_TIMEOUT (R264). -/
  | stryTimeout (core slot bid : Nat)
  /-- SCLR (R264). -/
  | sclr (f : Form)
  /-- SREAD (R264). -/
  | sread (f : Form)
  /-- RINGWAIT (R267). -/
  | ringwait (f : Form)
  /-- RINGWAIT_TIMEOUT (R267). -/
  | ringwaitTimeout (core slot bid : Nat)
  /-- RINGACK (R267). -/
  | ringack (f : Form)
  /-- RINGACK_INIT (R267). -/
  | ringackInit (f : Form)
  /-- QPUSH (R269). -/
  | qpush (f : Form)
  /-- QPOP (R269). -/
  | qpop (f : Form)
  /-- QPEEK (R269). -/
  | qpeek (f : Form)
  /-- QSTAT (R269). -/
  | qstat (f : Form)
  /-- QUEUE_ACCESS_RESUME (R269). -/
  | queueAccessResume (core slot bid : Nat)
  /-- FCLAIM (R271). -/
  | fclaim (f : Form)
  /-- FREL (R271). -/
  | frel (f : Form)
  /-- ACLAIM (R271). -/
  | aclaim (f : Form)
  /-- AREL (R271). -/
  | arel (f : Form)
  /-- RESOURCE_ZERO (R272). -/
  | resourceZero (core : Nat) (tile : Bool) (idx : Nat)
  /-- MLATCH (R284). -/
  | mlatch (f : Form)
  /-- MSTREAM (R284). -/
  | mstream (f : Form)
  /-- MDRAIN (R284). -/
  | mdrain (f : Form)
  /-- MZERO (R284). -/
  | mzero (f : Form)
  /-- MSTAT (R288). -/
  | mstat (f : Form)
  /-- MFENCE (R289). -/
  | mfence (f : Form)
  /-- SCALERD (R287). -/
  | scalerd (f : Form)
  /-- AMAXP (R287). -/
  | amaxp (f : Form)
  /-- ACCRD (R286). -/
  | accrd (f : Form)
  /-- ACCWR (R286). -/
  | accwr (f : Form)
  /-- FZERO (R290). -/
  | fzero (f : Form)
  /-- MCMD (R284). -/
  | mcmd (f : Form)
  /-- MATRIX_APPEND (R278). -/
  | matrixAppend (core slot bid : Nat)
  /-- LATCH (R280). -/
  | latch (core op : Nat)
  /-- STREAM (R281). -/
  | stream (core op : Nat)
  /-- DRAIN (R282). -/
  | drain (core op : Nat)
  /-- ZERO (R283). -/
  | zero (core op : Nat)
  /-- PLANE_RELOAD (R273). -/
  | planeReload (core team : Nat)
  /-- VVCMP (R311). -/
  | vvcmp (f : Form)
  /-- VVMAX (R311). -/
  | vvmax (f : Form)
  /-- VVINC (R311). -/
  | vvinc (f : Form)
  /-- SRRD (R332). -/
  | srrd (f : Form)
  /-- SRWR (R332). -/
  | srwr (f : Form)
  /-- CRESUME_DOCK (R343). -/
  | cresumeDock (f : Form)
  /-- CRESUME_REC (R344). -/
  | cresumeRec (f : Form)
  /-- CSAVE (R343). -/
  | csave (f : Form)
  /-- ACCSAVE (R347). -/
  | accsave (f : Form)
  /-- ACCLOAD (R347). -/
  | accload (f : Form)
  /-- TEAMKILL (R355). -/
  | teamkill (f : Form)
  /-- DOCKPOP (R343). -/
  | dockpop (f : Form)
  /-- DOCKPOP_WAKE (R343). -/
  | dockpopWake (core slot bid : Nat)
  /-- LEASEQ (R351). -/
  | leaseq (f : Form)
  /-- LEASEQ_WAIT_END (R351). -/
  | leaseqWaitEnd (core slot bid : Nat)
  /-- PERFRD (R356). -/
  | perfrd (f : Form)
  /-- PERFCTL (R356). -/
  | perfctl (f : Form)
  /-- SEED (R123). -/
  | seed (f : Form)
  /-- RAND (R123). -/
  | rand (f : Form)
  /-- EPOPEN (R317). -/
  | epopen (f : Form)
  /-- EPCLOSE (R318). -/
  | epclose (f : Form)
  /-- EPSTAT (R319). -/
  | epstat (f : Form)
  /-- POLSET (R327). -/
  | polset (f : Form)
  /-- MBXBIND (R322). -/
  | mbxbind (f : Form)
  /-- MBXREL (R322). -/
  | mbxrel (f : Form)
  /-- GRPRD (R379). -/
  | grprd (f : Form)
  /-- HOMEOF (R206). -/
  | homeof (f : Form)
  /-- IADD3 (R84). -/
  | iadd3 (f : Form)
  /-- ISCADD (R84). -/
  | iscadd (f : Form)
  /-- BMSK (R90). -/
  | bmsk (f : Form)
  /-- BFIND (R90). -/
  | bfind (f : Form)
  /-- FLERP (R108). -/
  | flerp (f : Form)
  /-- FSAT (R108). -/
  | fsat (f : Form)
  /-- FEXP (R110). -/
  | fexp (f : Form)
  /-- FRACT (R109). -/
  | fract (f : Form)
  /-- DADD (R113). -/
  | dadd (f : Form)
  /-- DSUB (R113). -/
  | dsub (f : Form)
  /-- DMUL (R113). -/
  | dmul (f : Form)
  /-- DFMA (R113). -/
  | dfma (f : Form)
  /-- DMIN (R113). -/
  | dmin (f : Form)
  /-- DMAX (R113). -/
  | dmax (f : Form)
  /-- DDIV (R113). -/
  | ddiv (f : Form)
  /-- DSQRT (R113). -/
  | dsqrt (f : Form)
  /-- DRCP (R113). -/
  | drcp (f : Form)
  /-- DSETP (R114). -/
  | dsetp (f : Form)
  /-- CVTD (R122). -/
  | cvtd (f : Form)
  /-- CVTDI (R122). -/
  | cvtdi (f : Form)
  /-- CVTID (R122). -/
  | cvtid (f : Form)
  /-- DROUND (R119). -/
  | dround (f : Form)
  /-- DCLASS (R115). -/
  | dclass (f : Form)
  /-- DSCALE (R113). -/
  | dscale (f : Form)
  /-- LONG_LATENCY_COMPLETE (R20). -/
  | longLatencyComplete (core id : Nat) (sample : Bool)
  /-- MONITOR_ENTRY (R329). -/
  | monitorEntry (core slot bid : Nat)
  /-- SLEEP_END (R103). -/
  | sleepEnd (core slot lane : Nat)
  /-- WAVE_RETIRE (R144). -/
  | waveRetire (core slot : Nat)
  /-- TEAM_RETIRE (R144). -/
  | teamRetire (team : Nat)
  /-- TEAM_ADMIT (R163). -/
  | teamAdmit (die : Nat)
  /-- TEAM_QUEUE_START (R163). -/
  | teamQueueStart (core : Nat)
  /-- STEAL_REQUEST (R164). -/
  | stealRequest (core : Nat)
  /-- STEAL_ANSWER (R164). -/
  | stealAnswer (core : Nat)
  /-- STEAL_BACKOFF_END (R164). -/
  | stealBackoffEnd (core : Nat)
  /-- COMMAND_DISPATCH (R167). -/
  | commandDispatch (die : Nat)
  /-- POOL_GROW (R182). -/
  | poolGrow (die : Nat)
  /-- CARVE_COMPLETE (R182). -/
  | carveComplete (core : Nat)
  /-- WAY_RETURN (R183). -/
  | wayReturn (core way : Nat)
  /-- WINDOW_FILL_COMPLETE (R173). -/
  | windowFillComplete (core mse : Nat)
  /-- PARKED_REPLAY (R179). -/
  | parkedReplay (core slot bid : Nat)
  /-- WRITEBACK_RETRY (R180). -/
  | writebackRetry (core line : Nat)
  /-- CLAIM_WAIT_END (R194). -/
  | claimWaitEnd (core slot bid : Nat)
  /-- TCOPY (R235). -/
  | tcopy (cmd elem : Nat)
  /-- GATHER (R239). -/
  | gather (cmd elem : Nat)
  /-- SCATTER (R240). -/
  | scatter (cmd elem : Nat)
  /-- CONV (R241). -/
  | conv (cmd elem : Nat)
  /-- FILL (R242). -/
  | fill (cmd elem : Nat)
  /-- ATOM (R243). -/
  | atom (cmd elem : Nat)
  /-- WATCH (R244). -/
  | watch (cmd : Nat)
  /-- WATCH_SATISFIED (R219). -/
  | watchSatisfied (cmd : Nat)
  /-- WATCH_TIMEOUT (R244). -/
  | watchTimeout (cmd : Nat)
  /-- RECON (R307). -/
  | recon (cmd elem : Nat)
  /-- RECON_EPOCH_ADVANCE (R310). -/
  | reconEpochAdvance (cmd : Nat)
  /-- CACHE (R246). -/
  | cache (cmd elem : Nat)
  /-- COLL (R247). -/
  | coll (cmd : Nat)
  /-- FENCE_COMMAND (R217). -/
  | fenceCommand (cmd : Nat)
  /-- LAUNCH_COMMAND (R166). -/
  | launchCommand (cmd : Nat)
  /-- TSWAP (R383). -/
  | tswap (cmd : Nat)
  /-- MALFORMED_COMPLETE (R231). -/
  | malformedComplete (cmd : Nat)
  /-- HELD_FAULT_WRITE (R342). -/
  | heldFaultWrite (ctx : Nat)
  /-- FOLLOW_ON_HANDOVER (R251). -/
  | followOnHandover (cmd : Nat)
  /-- COMMAND_COMPLETE (R252). -/
  | commandComplete (cmd : Nat)
  /-- RING_RECORD_RESUME (R266). -/
  | ringRecordResume (cmd : Nat)
  /-- PREEMPT_TEAM (R345). -/
  | preemptTeam (team : Nat)
  /-- TEAM_RESTORE (R345). -/
  | teamRestore (team : Nat)
  /-- PAGE_WALK (R349). -/
  | pageWalk (die : Nat)
  /-- MBX_PUSH (R324). -/
  | mbxPush (rs1 : BitVec 5)
  /-- MBX_POP (R324). -/
  | mbxPop (rd rs1 rs2 : BitVec 5)
  /-- MBX_PEEK (R324). -/
  | mbxPeek (rd rs1 : BitVec 5)
  /-- STEP_DONE (R324). -/
  | stepDone (rs1 : BitVec 5)
  /-- ARENA_SYNC (R324). -/
  | arenaSync (rs1 : BitVec 5)
  /-- CARREL_WAIT_RESUME (R324). -/
  | carrelWaitResume (die carrel : Nat)
  /-- CARREL_EXCEPTION (R315). -/
  | carrelException (die carrel : Nat)
  /-- CARREL_PAGE_FAULT (R313). -/
  | carrelPageFault (die carrel : Nat)
  /-- DEADLINE_TIMEOUT (R326). -/
  | deadlineTimeout (die carrel : Nat)
  /-- BUDGET_TIMEOUT (R326). -/
  | budgetTimeout (die carrel : Nat)
  /-- HELD_OBSERVATION_POST (R326). -/
  | heldObservationPost (die carrel : Nat)
  /-- PEER_READ_REQUEST (R362). -/
  | peerReadRequest (r : PeerRead)
  /-- PEER_WRITE_NOTICE (R362). -/
  | peerWriteNotice (r : PeerWrite)
  /-- PEER_ACK (R362). -/
  | peerAck (cmd elem : Nat) (data : List Byte) (fault : Option PeerFault)
  /-- FLIT_REPLAY (R363). -/
  | flitReplay (port : Nat)
  /-- DIGEST_RECEIVE (R370). -/
  | digestReceive (die slot : Nat) (dg : Digest)
  /-- COLL_TIMEOUT (R371). -/
  | collTimeout (cmd : Nat)
  /-- CHUNK_SELECT (R376). -/
  | chunkSelect (port : Nat)
  /-- HELLO (R386). -/
  | hello (m : Hello)
  /-- KEYX (R386). -/
  | keyx (h : Dgram) (key : List Byte)
  /-- HANDSHAKE_TIMEOUT (R386). -/
  | handshakeTimeout (session : Nat)
  /-- SESSION_IDLE_TIMEOUT (R386). -/
  | sessionIdleTimeout (session : Nat)
  /-- PROTOCOL_ILLEGAL (R386). -/
  | protocolIllegal (h : Dgram)
  /-- HOST_WRITE (R387). -/
  | hostWrite (h : Dgram) (asid : Nat) (va : VA) (data : List Byte)
  /-- HOST_READ (R387). -/
  | hostRead (h : Dgram) (asid : Nat) (va : VA) (len : Nat)
  /-- HOST_LAUNCH (R387). -/
  | hostLaunch (h : Dgram) (packet : List W64)
  /-- REGISTER (R387). -/
  | register (h : Dgram) (r : RegItem)
  /-- CONTROL_PREEMPT (R345). -/
  | controlPreempt (h : Dgram) (ctx : Nat)
  /-- CONTROL_RESUME (R345). -/
  | controlResume (h : Dgram) (ctx : Nat)
  /-- CONTROL_UNFREEZE (R353). -/
  | controlUnfreeze (h : Dgram) (m : Master)
  /-- CONTROL_EPOCH_ADVANCE (R310). -/
  | controlEpochAdvance (h : Dgram) (ctx idx : Nat)
  /-- CONTROL_CLEAR_OVF (R387). -/
  | controlClearOvf (h : Dgram) (ctx : Nat)
  /-- CONTROL_RESET (R391). -/
  | controlReset (h : Dgram)
  /-- CLOSE (R386). -/
  | close (h : Dgram)
  /-- POWER_ON (R391). -/
  | powerOn
  /-- RESET_INPUT (R391). -/
  | resetInput
  /-- POWER_LIMIT (R392). -/
  | powerLimit
  /-- THERMAL_STOP (R392). -/
  | thermalStop (die : Nat)
  /-- RISCV_LOADS_AND_STORES (R221). -/
  | riscvLoadsAndStores (w : W32) (compressed : Bool)
  /-- UNCORRECTABLE_ERROR (R192). -/
  | uncorrectableError (loc : ErrLoc)
  /-- POWER_FALLS_BELOW_LIMIT (R392). -/
  | powerFallsBelowLimit
  /-- PEER_READ_RESPONSE (R362). -/
  | peerReadResponse (cmd elem : Nat) (data : List Byte) (fault : Option PeerFault)
  /-- SEQUENCE_CLOSING (R371). -/
  | sequenceClosing (die slot : Nat) (seq : W32)
  /-- COLLECTIVE_ABORT (R378). -/
  | collectiveAbort (die slot : Nat) (seq : W32)
  /-- FLIT_BOUNDARY (R366). -/
  | flitBoundary (port : Nat)
  deriving DecidableEq, Repr

end Sys2Proof
end

