-- ==== Sys2Proof/WellFormed.lean ====
section
/-! DEFINITION. What a well-formed instruction is: for each opcode the operand slots, the C field and the MOD values
its entry accepts (R56 to R65), with the checks that need only the word. The checks that need the thread (declared
counts, position in the clause, header flags, mode) are `Machine.checkWord`. -/

namespace Sys2Proof

/-- The roles of an operand slot (R57, R61, R195 to R197, R268, R311). -/
inductive Slot where
  /-- unused: must hold nul (R58) -/
  | none
  | src
  | src64
  | dst
  | dst64
  | psrc
  | pdst
  | mask
  /-- a vector register and nothing else -/
  | vreg
  /-- a scalar register, a short immediate or nul (the b of BCAST, R95) -/
  | uni
  /-- a queue register, blocking or not (R269) -/
  | queue
  /-- a queue register with NB = 0 (R269, R316) -/
  | queueB
  /-- the register of a local address: vector, scalar or nul (R76) -/
  | addr
  /-- the register of a compare-and-swap's address: vector or scalar (R199) -/
  | addrReg
  /-- a uniform address register: scalar or nul (R196) -/
  | addrS
  /-- a vector quad (R195) -/
  | quad
  /-- a vector octet (R311) -/
  | octet
  /-- `n` vector registers from the one named (R197, R286) -/
  | vgroup (n : Nat)
  /-- `n` scalar registers from a multiple of `n` (R196) -/
  | sgroup (n : Nat)
  deriving DecidableEq, Repr, Inhabited

/-- What the entry makes of C (R58, R59, R76). -/
inductive CSlot where
  /-- no c operand and no immediate: C holds nul -/
  | none
  /-- no c operand: an immediate replaces b (R59) -/
  | forB
  /-- a value operand or an immediate -/
  | src
  | src64
  /-- a descriptor only: value source (R199), predicate source, predicate destination -/
  | srcReg
  | src64Reg
  | psrc
  | pdst
  /-- an immediate only (R93, R98, R102, R332) -/
  | imm
  /-- the offset of a local address (R76) -/
  | offset
  /-- nul with extra modifier bits, each value of which must satisfy the opcode's check (R116, R121) -/
  | ext
  /-- a 32-bit value source with extra modifier bits (R120) -/
  | srcExt
  deriving DecidableEq, Repr, Inhabited

/-- The static description of an opcode under a MOD value. -/
structure OpSpec where
  d : Slot := .none
  a : Slot := .none
  b : Slot := .none
  c : CSlot := .none
  /-- the MOD value is defined (R64) -/
  modOk : Bool := true
  /-- the extra modifier bits C[31:12] are defined -/
  extOk : BitVec 20 → Bool := fun x => x == 0
  /-- listed in R19 -/
  long : Bool := false
  /-- must stand last in its clause (R17, R135) -/
  last : Bool := false
  /-- monitor-only (R332) -/
  monitor : Bool := false

namespace MOD

/-- The ROUND, SAT and TYPE fields of the common layout (R64). -/
def round (m : BitVec 9) : Nat := (m.extractLsb' 0 3).toNat
def sat (m : BitVec 9) : Bool := m.getLsbD 3
def type (m : BitVec 9) : Nat := (m.extractLsb' 4 5).toNat

/-- The common layout with the rounding modes, saturation and types an entry accepts; type 0 is the default (R82, R104). -/
def typed (allRound sats : Bool) (types : List Nat) (m : BitVec 9) : Bool :=
  (if allRound then round m ≤ 4 else round m == 0) && (sats || !sat m) && (type m == 0 || types.contains (type m))

/-- MOD bits above the lowest `n` are zero. -/
def below (n : Nat) (m : BitVec 9) : Bool := m.toNat < 2 ^ n

end MOD

open MOD

/-- CVTF types (R117), CVTPK and CVTUPK types with their element widths (R120). -/
def cvtfTypes : List Nat := [11, 12, 15, 16, 17, 18, 19]
def pkTypes : List Nat := [1, 2, 3, 4, 12, 15, 16, 17, 18, 19]

/-- Element width in bits of a CVTPK or CVTUPK type code (R120). -/
def pkWidth (t : Nat) : Nat :=
  if t == 17 then 4 else if t == 1 || t == 2 || t == 15 || t == 16 || t == 18 || t == 19 then 8 else 16

/-- A conversion into .e8m0 or .dpw8 takes no rounding mode (R117). -/
def cvtRoundOk (m : BitVec 9) : Bool := round m == 0 || !(type m == 18 || type m == 19)

/-- The matrix format codes that an instruction form may name (R277, R284). -/
def mxOk (f : Nat) (mx : Bool) : Bool := if f == 3 then mx else !mx || f == 1 || f == 2

/-- FMT_MAX formats of SCALERD (R47, R287). -/
def fmtMaxCodes : List Nat := [1, 2, 3, 4, 5, 6, 7, 8]

/-- The number of registers that a `.xN` count field names (R196, R197). -/
def cntOf (m : BitVec 9) : Nat := 2 ^ (m.extractLsb' 0 2).toNat

/-- The static description of every opcode (R70). `ext` is C[31:12] where C holds a descriptor. DESIGN CHOICE: b of MDRAIN, a register
or a short immediate by R284, takes every source that a source slot takes (log 132). -/
def opSpec (opc : Nat) (m : BitVec 9) : OpSpec :=
  let three (ok : Bool) : OpSpec := { d := .dst, a := .src, b := .src, c := .src, modOk := ok }
  let two (ok : Bool) : OpSpec := { d := .dst, a := .src, b := .src, c := .forB, modOk := ok }
  let one (ok : Bool) : OpSpec := { d := .dst, a := .src, modOk := ok }
  let two64 (ok : Bool) : OpSpec := { d := .dst64, a := .src64, b := .src64, c := .forB, modOk := ok }
  let z : Bool := m == 0
  match opc / 16 with
  | 0 => match opc % 16 with
    | 1 => { modOk := z }
    | 2 | 4 => { c := .imm, modOk := z, last := true }
    | 3 | 5 => { a := .src, modOk := z, last := true }
    | 6 | 7 => { modOk := z, last := true }
    | 8 | 9 | 13 => { c := .imm, modOk := z, last := true }
    | 10 => { modOk := z }
    | 11 => { a := .src, modOk := z }
    | 12 => { a := .psrc, c := .imm, modOk := z }
    | 14 => { modOk := z, last := true, monitor := true }
    | _ => { modOk := false }
  | 1 => match opc % 16 with
    | 0 | 1 | 2 => two (typed false true [6] m)
    | 3 | 8 | 9 => two (typed false false [6] m)
    | 4 => three (typed false true [6] m)
    | 5 => { d := .dst64, a := .src, b := .src, c := .src64, modOk := typed false true [6] m }
    | 6 => { two (typed false true [6] m) with long := true }
    | 7 => { two (typed false false [6] m) with long := true }
    | 10 | 11 => one (typed false true [] m)
    | 12 | 13 => { d := .dst, a := .src, b := .src, c := .psrc, modOk := below 4 m && (m.getLsbD 3 || m == 0) }
    | 14 => three (typed false false [6] m)
    | _ => three (typed false true [2] m)
  | 2 => match opc % 16 with
    | 0 | 1 | 2 => two64 (typed false true [8] m)
    | 3 => { d := .dst64, a := .src64, b := .src64, c := .src64, modOk := typed false true [8] m }
    | 4 | 5 | 6 => { d := .dst64, a := .src64, b := .src, c := .forB, modOk := below 1 m }
    | 7 | 8 => two64 (typed false false [8] m)
    | 9 | 10 | 11 => two64 z
    | 12 => { d := .dst64, a := .src64, b := .src, c := .src, modOk := typed false false [6] m }
    | 13 => { d := .dst64, a := .src64, modOk := typed false true [] m }
    | 14 => { two64 (typed false true [8] m) with long := true }
    | _ => { two64 (typed false false [8] m) with long := true }
  | 3 => match opc % 16 with
    | 0 | 1 | 2 | 4 | 9 => two z
    | 3 | 11 | 12 | 13 => one z
    | 5 => three (below 8 m)
    | 6 | 7 | 8 => two (below 1 m)
    | 10 => three (below 1 m)
    | 14 => two (typed false false [5] m)
    | _ => three z
  | 4 => match opc % 16 with
    | 0 | 1 =>
      let bop := (m.extractLsb' 3 2).toNat
      let s : Slot := if opc % 16 == 0 then .src else .src64
      { d := .pdst, a := s, b := s, c := if bop == 0 then .forB else .psrc, modOk := below 6 m && (m.extractLsb' 0 3).toNat ≤ 5 }
    | 2 =>
      { d := .pdst, a := .src, b := .src, c := if (m.extractLsb' 4 2).toNat == 0 then .forB else .psrc,
        modOk := below 6 m && (m.extractLsb' 0 4).toNat ≤ 13 }
    | 3 => { d := .pdst, a := .psrc, b := .psrc, c := .psrc, modOk := below 8 m }
    | 4 =>
      let w := type m == 10
      { d := if w then .dst64 else .dst, a := if w then .src64 else .src, b := if w then .src64 else .src, c := .psrc,
        modOk := typed false false [10] m }
    | 5 =>
      let w := type m == 10
      { d := if w then .dst64 else .dst, a := if w then .src64 else .src, modOk := typed false false [10] m }
    | 6 => { d := if type m == 0 then .dst else .dst64, c := .imm, modOk := typed false false [8, 10] m }
    | 7 => one (typed false false [2, 3, 4] m)
    | 8 => { d := .dst, a := .vreg, b := .src, c := .forB, modOk := z, long := true }
    | 9 => { d := .dst, a := .vreg, b := .uni, modOk := z }
    | 10 => { d := .dst, modOk := z }
    | 11 => { a := .src, b := .src, c := .forB, modOk := z }
    | 12 => three (typed false false [6, 13] m)
    | 13 => { d := .dst64, modOk := z }
    | 14 => three z
    | _ => { d := .dst64, a := .src, c := .src, modOk := z }
  | 5 => match opc % 16 with
    | 0 | 1 | 2 | 3 =>
      let w := m.getLsbD 3
      { d := if w then .dst64 else .dst, a := if w then .src64 else .src, b := .src, c := .pdst,
        modOk := below 4 m && (m.extractLsb' 0 3).toNat ≤ 4 }
    | 4 | 5 => { d := .pdst, a := .psrc, modOk := z }
    | 6 => { d := .dst, a := .psrc, modOk := z }
    | 7 => { d := .dst, a := if type m == 10 then .src64 else .src, c := .pdst, modOk := typed false false [10] m }
    | 8 =>
      let op := (m.extractLsb' 0 3).toNat
      { d := .dst, a := .src,
        modOk := op ≤ 5 && (type m == 0 || ((type m == 6 || type m == 13) && op ≤ 2)) &&
          (!sat m || (op == 0 && type m != 13)) }
    | 9 | 10 | 11 => { a := .mask, modOk := z }
    | 12 => { d := .mask, a := .psrc, modOk := z }
    | 13 => { d := .dst, a := .mask, modOk := z }
    | _ => { modOk := z, last := true }
  | 6 => match opc % 16 with
    | 0 | 2 | 3 => { d := .dst, modOk := below 4 m }
    | 1 | 5 => { a := .src, modOk := below 4 m }
    | 4 => { d := .pdst, a := .src, modOk := below 4 m }
    | 6 => { modOk := below 6 m && (m.extractLsb' 0 4).toNat ≤ 8 }
    | 7 => { a := .addr, c := .offset, modOk := z }
    | 8 | 9 | 10 => { a := .addr, b := .src, c := .offset, modOk := z }
    | 11 => { a := .src64, b := .src, c := .forB, modOk := below 4 m }
    | 12 => { d := .pdst, a := .addr, b := .src, c := .offset, modOk := below 3 m && m.toNat ≤ 5 }
    | 13 => { d := .pdst, a := .src, modOk := z }
    | 14 => { d := .pdst, modOk := z }
    | _ => { d := .dst, modOk := z }
  | 7 => match opc % 16 with
    | 0 => { d := .dst, a := .addr, c := .offset, modOk := typed false false [1] m, long := true }
    | 1 => { d := .dst, a := .addr, c := .offset, modOk := typed false false [3] m, long := true }
    | 2 => { d := .dst, a := .addr, c := .offset, modOk := z, long := true }
    | 3 => { d := .dst64, a := .addr, c := .offset, modOk := z, long := true }
    | 4 => { d := .quad, a := .addr, c := .offset, modOk := z, long := true }
    | 5 | 6 | 7 => { a := .addr, b := .src, c := .offset, modOk := z }
    | 8 => { a := .addr, b := .src64, c := .offset, modOk := z }
    | 9 => { a := .addr, b := .quad, c := .offset, modOk := z }
    | 10 => { d := .sgroup (cntOf m), a := .addrS, c := .offset, modOk := below 2 m, long := true }
    | 11 => { a := .addrS, b := .sgroup (cntOf m), c := .offset, modOk := below 2 m }
    | 12 => { d := .vgroup (cntOf m), a := .addrS, b := .src, c := .offset, modOk := below 3 m, long := true }
    | 13 => { d := .vgroup (cntOf m), a := .addrS, b := .src, c := .offset, modOk := below 3 m }
    | 14 => { d := if m == 1 then .dst64 else if m == 2 then .quad else .dst, a := .addr, c := .offset,
              modOk := m.toNat ≤ 2, long := true }
    | _ => { a := .addr, b := if m == 1 then .src64 else if m == 2 then .quad else .src, c := .offset, modOk := m.toNat ≤ 2 }
  | 8 => match opc % 16 with
    | 0 | 1 | 2 => { d := .dst, a := .addr, b := .src, c := .offset, modOk := typed false false [6] m, long := true }
    | 7 => { d := .dst, a := .addrReg, b := .src, c := .srcReg, modOk := z, long := true }
    | 11 => { d := .dst64, a := .addr, b := .src64, c := .offset, modOk := typed false false [8] m, long := true }
    | 12 => { d := .dst64, a := .addrReg, b := .src64, c := .src64Reg, modOk := z, long := true }
    | 13 => { d := .dst64, a := .addr, b := .src64, c := .offset, modOk := z, long := true }
    | _ => { d := .dst, a := .addr, b := .src, c := .offset, modOk := z, long := true }
  | 9 => match opc % 16 with
    | 0 | 1 | 2 => two (typed true true [] m)
    | 3 => three (typed true true [] m)
    | 4 | 5 => two z
    | 6 | 7 | 10 | 11 | 12 | 13 | 14 => { one z with long := true }
    | 8 => { one (typed true false [] m) with long := true }
    | 9 => { two (typed true true [] m) with long := true }
    | _ => one z
  | 10 => match opc % 16 with
    | 0 | 1 | 2 => two (typed true true [12] m)
    | 3 | 6 => three (typed true true [12] m)
    | 4 | 5 => two (typed false false [12] m)
    | 7 => three (typed true true [16] m)
    | 8 => { d := .dst, a := .src, c := .ext, modOk := typed true true cvtfTypes m && cvtRoundOk m,
             extOk := fun x => x.toNat < 32 && (x == 0 || cvtfTypes.contains x.toNat) }
    | 9 => { d := .dst, a := .src, c := .ext, modOk := typed true true [6, 3, 4, 1, 2] m,
             extOk := fun x => x == 0 || x == 11 || x == 12 }
    | 10 => { d := .dst, a := .src, c := .ext, modOk := typed true true [11, 12] m,
              extOk := fun x => x == 0 || [6, 3, 4, 1, 2].contains x.toNat }
    | 11 => { d := .dst, a := .src, b := .src, c := .srcExt, modOk := typed true true pkTypes m && cvtRoundOk m,
              extOk := fun x => decide (x.toNat < 16 / pkWidth (type m)) }
    | 12 => { d := .dst, a := .src, c := .ext, modOk := typed false false pkTypes m,
              extOk := fun x => decide (x.toNat < 32 / pkWidth (type m)) }
    | 13 => two (typed true true [] m)
    | 14 => one (typed true false [] m)
    | _ =>
      if type m == 14 then two64 (typed false false [14] m)
      else two (typed false false [11, 12] m)
  | 11 => match opc % 16 with
    | 0 => { d := .dst, a := .addr, b := .src, c := .offset, modOk := below 2 m }
    | 1 => { a := .src, modOk := below 6 m && (m.extractLsb' 0 4).toNat ≤ 8 }
    | 2 => { d := .dst, a := .src, modOk := z }
    | 3 => { d := .pdst, a := .src, modOk := z }
    | 4 | 6 => { d := .dst, a := .src64, modOk := below 1 m }
    | 5 | 7 => { d := .pdst, a := .src64, modOk := below 1 m }
    | 8 => { a := .src64, modOk := z }
    | 9 => { d := .dst, modOk := below 2 m }
    | 10 => { d := .dst, a := .src, modOk := below 3 m }
    | 11 => if m.getLsbD 3 then { a := .src, b := .src, c := .forB, modOk := below 4 m } else { a := .src, modOk := below 3 m }
    | 12 => { d := .queue, a := .vreg, modOk := z }
    | 13 => { d := .vreg, a := .queue, modOk := z, long := true }
    | 14 => { d := .vreg, a := .queue, modOk := z }
    | _ => { d := .dst, a := .queueB, modOk := z }
  | 12 => match opc % 16 with
    | 0 => { d := .dst64, a := .src, c := .pdst, modOk := z }
    | 1 => { a := .src64, modOk := z }
    | 2 => { d := .dst, a := .src, c := .pdst, modOk := z }
    | 3 => { a := .src, modOk := z }
    | 4 => { b := .src, c := .forB,
             modOk := below 6 m && [1, 2, 3, 4, 7, 8].contains (m.extractLsb' 0 4).toNat &&
               mxOk (m.extractLsb' 0 4).toNat (m.getLsbD 4) }
    | 5 => { a := .src64, b := .src, c := .forB,
             modOk := below 7 m && [1, 2, 3, 7, 8].contains (m.extractLsb' 0 4).toNat &&
               mxOk (m.extractLsb' 0 4).toNat (m.getLsbD 4) }
    | 6 => { a := .src64, b := .src, c := .src,
             modOk := [1, 2, 4, 5, 6, 7, 8, 9, 11].contains (m.extractLsb' 0 4).toNat && (m.extractLsb' 5 2) != 3 &&
               ((m.extractLsb' 5 2) == 0 || (m.extractLsb' 0 4).toNat != 4) }
    | 7 => { a := .src64, modOk := z }
    | 8 => { d := .dst, modOk := z }
    | 9 => { modOk := z }
    | 10 => { d := .dst, a := .src,
              modOk := below 5 m && (if m.getLsbD 4 then m == 16 else fmtMaxCodes.contains (m.extractLsb' 0 4).toNat) }
    | 11 => { a := .src, b := .src, c := .forB, modOk := z }
    | 12 => { d := .vgroup (cntOf m), a := .src, modOk := m.toNat ≤ 2, long := true }
    | 13 => { d := .vgroup (cntOf m), a := .src, modOk := m.toNat ≤ 2 }
    | 14 => { a := .src, modOk := z }
    | _ => { a := .addr, c := .offset, modOk := z }
  | 13 => match opc % 16 with
    | 0 => { d := .dst, a := .octet, b := .octet, modOk := z }
    | 1 => { d := .octet, a := .octet, b := .octet, modOk := z }
    | 2 => { d := .octet, a := .octet, b := .src, modOk := z }
    | 3 => { d := .dst, a := .src, modOk := z, monitor := true }
    | 4 => { a := .src, b := .src, c := .forB, modOk := z, monitor := true }
    | 5 => if m.getLsbD 0 then { d := .pdst, a := .addr, c := .offset, modOk := below 3 m, monitor := true }
           else { d := .pdst, a := .src, modOk := below 1 m, monitor := true }
    | 6 => { d := .pdst, a := .addr, b := .src, c := .offset, modOk := z, monitor := true }
    | 7 | 8 => { a := .src, b := .src64, c := .forB, modOk := z, monitor := true }
    | 9 => { d := .pdst, a := .src, b := .src, c := .forB, modOk := z, monitor := true }
    | 10 => { d := .pdst, a := .addr, c := .offset, modOk := below 1 m, monitor := true }
    | 11 => { d := .dst64, modOk := below 1 m, monitor := true }
    | 12 => { d := .dst64, a := .src, modOk := z }
    | 13 => { a := .src, b := .src, c := .forB, modOk := z, monitor := true }
    | 14 => { a := .src, modOk := z }
    | _ => { d := .dst, modOk := typed false false [13] m }
  | 14 => match opc % 16 with
    | 0 => { d := .dst, a := .addr, c := .offset, modOk := z }
    | 1 => { d := .pdst, a := .src, modOk := z }
    | 2 => { d := .dst64, a := .src, modOk := z }
    | 3 => { d := .dst, a := if m.getLsbD 0 then .none else .src, modOk := below 1 m }
    | 4 => { d := .pdst, a := .queueB, b := .src, c := .forB, modOk := below 1 m }
    | 5 => { a := .queueB, modOk := z }
    | 6 => { d := .dst, a := .src, modOk := below 3 m && m.toNat ≤ 6 }
    | 7 => { d := .dst, a := .src64, modOk := z }
    | 8 | 9 => three (typed false false [6] m && (opc % 16 == 8 || opc % 16 == 9))
    | 10 => two z
    | 11 => one (typed false false [5] m)
    | 12 => three (typed true true [] m)
    | 13 => one (typed false false [11, 12] m)
    | 14 => { one z with long := true }
    | _ => one z
  | _ => match opc % 16 with
    | 0 | 1 | 2 => two64 (typed true true [] m)
    | 3 => { d := .dst64, a := .src64, b := .src64, c := .src64, modOk := typed true true [] m }
    | 4 | 5 => two64 z
    | 6 => { two64 (typed true true [] m) with long := true }
    | 7 => { d := .dst64, a := .src64, modOk := typed true false [] m, long := true }
    | 8 => { d := .dst64, a := .src64, modOk := z, long := true }
    | 9 =>
      { d := .pdst, a := .src64, b := .src64, c := if (m.extractLsb' 4 2).toNat == 0 then .forB else .psrc,
        modOk := below 6 m && (m.extractLsb' 0 4).toNat ≤ 13 }
    | 10 => { d := if type m == 0 then .dst64 else .dst, a := if type m == 0 then .src else .src64,
              modOk := typed true true [13, 11, 12] m }
    | 11 => { d := if type m == 5 || type m == 6 then .dst else .dst64, a := .src64, modOk := typed true true [8, 5, 6] m }
    | 12 => { d := .dst64, a := if type m == 5 || type m == 6 then .src else .src64, modOk := typed true true [8, 5, 6] m }
    | 13 => { d := .dst64, a := .src64, modOk := typed true false [] m }
    | 14 => { d := .dst, a := .src64, modOk := z }
    | _ => { d := .dst64, a := .src64, b := .src, c := .forB, modOk := typed true true [] m }

/-- A descriptor that exists: a special below 40, a mask below 12, a blocking queue access with bits [7:5] zero (R56, R63). -/
def Opnd.exists_ : Opnd → Bool
  | .sp n => n.toNat < 40
  | .m n => n.toNat < 12
  | .q _ nb pr => nb || pr == 0
  | _ => true

/-- The classes a slot accepts, with the checks of a register group that need no declared count (R57, R61, R195, R196, R311). -/
def Slot.accepts : Slot → Opnd → Bool
  | .none, .nul => true
  | .src, .v _ | .src, .s _ | .src, .sp _ | .src, .q .. | .src, .imm _ | .src, .nul => true
  | .src64, .v n => n.toNat % 2 == 0
  | .src64, .s n => n.toNat % 2 == 0
  | .src64, .imm _ | .src64, .nul => true
  | .dst, .v _ | .dst, .s _ | .dst, .nul => true
  | .dst64, .v n => n.toNat % 2 == 0
  | .dst64, .s n => n.toNat % 2 == 0
  | .dst64, .nul => true
  | .psrc, .p _ | .psrc, .nul | .pdst, .p _ | .pdst, .nul => true
  | .mask, .m _ => true
  | .vreg, .v _ => true
  | .uni, .s _ | .uni, .imm _ | .uni, .nul => true
  | .queue, .q .. => true
  | .queueB, .q _ nb _ => !nb
  | .addr, .v _ | .addr, .s _ | .addr, .nul => true
  | .addrReg, .v _ | .addrReg, .s _ => true
  | .addrS, .s _ | .addrS, .nul => true
  | .quad, .v n => n.toNat % 4 == 0
  | .octet, .v n => n.toNat % 8 == 0
  | .vgroup _, .v _ => true
  | .sgroup n, .s k => k.toNat % n == 0
  | _, _ => false

/-- The C field fits the entry (R58, R59, R76); `b` is the b descriptor, which must hold nul when an immediate replaces it. -/
def CSlot.accepts (cs : CSlot) (extOk : BitVec 20 → Bool) (b : Opnd) : COp → Bool
  | .imm _ => match cs with
    | .forB => b == .nul
    | .src | .src64 | .imm | .offset => true
    | _ => false
  | .reg o x => match cs with
    | .none | .forB => o == .nul && x == 0
    | .src | .srcReg => Slot.src.accepts o && x == 0
    | .src64 | .src64Reg => Slot.src64.accepts o && x == 0
    | .psrc => Slot.psrc.accepts o && x == 0
    | .pdst => Slot.pdst.accepts o && x == 0
    | .ext => o == .nul && extOk x
    | .srcExt => Slot.src.accepts o && extOk x
    | _ => false

/-- The operand is a queue register. -/
def Opnd.isQueue : Opnd → Bool
  | .q .. => true
  | _ => false

def COp.opnd : COp → Opnd
  | .reg o _ => o
  | .imm _ => .nul

/-- How many queue descriptors the word names (R268). -/
def Form.queues (f : Form) : Nat :=
  f.d.isQueue.toNat + f.a.isQueue.toNat + f.b.isQueue.toNat + f.c.opnd.isQueue.toNat

/-- A queue register used as a value source makes the word long-latency (R19, R270). -/
def Form.popsSource (sp : OpSpec) (f : Form) : Bool :=
  (sp.a == .src && f.a.isQueue) || (sp.b == .src && f.b.isQueue) || f.c.opnd.isQueue

/-- The word's instruction is long-latency (R19). -/
def Form.isLong (opc : Nat) (f : Form) : Bool :=
  (opSpec opc f.mod).long || f.popsSource (opSpec opc f.mod)

/-- The static checks of a word (R72): MOD, descriptors, slots, C, FSET and the count of queue descriptors.
UDF is a word whatever its fields hold (R71). -/
def Form.ok (opc : Nat) (f : Form) : Bool :=
  let sp := opSpec opc f.mod
  sp.modOk && f.d.exists_ && f.a.exists_ && f.b.exists_ && f.c.opnd.exists_ &&
  sp.d.accepts f.d && sp.a.accepts f.a && sp.b.accepts f.b && sp.c.accepts sp.extOk f.b f.c &&
  (f.fset == 0 || (f.fset != 3 && f.isLong opc)) && decide (f.queues ≤ 1)

/-- A clause header's flag fields name a flag or none (R21, R68). -/
def Header.ok (h : Header) : Bool :=
  let good (x : BitVec 4) : Bool := x.toNat ≤ 11 || x == 15
  good h.flagA && good h.flagB

end Sys2Proof
end

