-- ==== Sys2Proof/Decode.lean ====
section
/-! DEFINITION. The decoder of Dolmin words (R54, R56, R68, R70, R72), of clause headers and of the carrel extension
(R323), and the encoder written from the same tables. -/

namespace Sys2Proof

/-- Why a word is no instruction (R72). -/
inductive DecodeErr where
  /-- opcode 0x00 in an instruction position (R69) -/
  | clauseInClause
  /-- a reserved descriptor bit or an index out of range (R56, R63) -/
  | descriptor
  /-- a MOD value, operand class, unused field or FSET the entry does not accept (R57, R58, R59, R64, R21) -/
  | form
  /-- a word in a header position whose opcode is not 0x00 (R16) -/
  | notHeader
  /-- a nonzero reserved bit of a header, or a flag field of 12 to 14 (R68, R21) -/
  | headerField
  /-- an illegal use of the carrel extension (R323) -/
  | carrel
  /-- not an encoding at all -/
  | length
  deriving DecidableEq, Repr

/-! ## Descriptors -/

/-- A descriptor's operand (R56); none where a reserved bit is set or the index lies outside the class. -/
def decodeOpnd (x : BitVec 12) : Option Opnd :=
  let r (o : Opnd) (ok : Bool) : Option Opnd := if ok && o.exists_ then some o else none
  match (x.extractLsb' 9 3).toNat with
  | 0 => r (.v (x.extractLsb' 0 8)) (!x.getLsbD 8)
  | 1 => r (.s (x.extractLsb' 0 7)) (x.extractLsb' 7 2 == 0)
  | 2 => r (.sp (x.extractLsb' 0 9)) true
  | 3 => r (.p (x.extractLsb' 0 3)) (x.extractLsb' 3 6 == 0)
  | 4 => r (.m (x.extractLsb' 0 4)) (x.extractLsb' 4 5 == 0)
  | 5 => r (.q (x.extractLsb' 0 4) (x.getLsbD 4) (x.extractLsb' 5 3)) (!x.getLsbD 8)
  | 6 => some (.imm (x.extractLsb' 0 9))
  | _ => r .nul (x.extractLsb' 0 9 == 0)

/-- The descriptor of an operand (R56). -/
def encodeOpnd : Opnd → BitVec 12
  | .v n => (0 : BitVec 4) ++ n
  | .s n => (4 : BitVec 5) ++ n
  | .sp n => (2 : BitVec 3) ++ n
  | .p n => ((3 : BitVec 3) ++ (0 : BitVec 6)) ++ n
  | .m n => ((4 : BitVec 3) ++ (0 : BitVec 5)) ++ n
  | .q n nb pr => (((5 : BitVec 3) ++ (0 : BitVec 1)) ++ pr) ++ BitVec.ofBool nb ++ n
  | .imm k => (6 : BitVec 3) ++ k
  | .nul => 0xE00

/-! ## Words -/

/-- The field of `n` bits at bit `i` of a word (R54). -/
def field (w : W96) (i n : Nat) : BitVec n := w.extractLsb' i n

/-- The fields of a word other than its opcode (R54); none where a descriptor names no operand. -/
def decodeForm (w : W96) : Option Form := do
  let d ← decodeOpnd (field w 12 12)
  let a ← decodeOpnd (field w 24 12)
  let b ← decodeOpnd (field w 36 12)
  let c ← if w.getLsbD 80 then some (COp.imm (field w 48 32)) else do
    let o ← decodeOpnd (field w 48 12)
    some (COp.reg o (field w 60 20))
  some { guard := field w 8 4, d := d, a := a, b := b, c := c, mod := field w 81 9, fset := field w 90 2,
         pace := field w 92 3, defer := w.getLsbD 95 }

/-- The fields of a UDF word, which is one whatever they hold (R71): its immediate and its guard. -/
def udfForm (w : W96) : Form :=
  { guard := field w 8 4, d := .nul, a := .nul, b := .nul, c := .imm (field w 48 32), mod := 0, fset := 0, pace := 0,
    defer := false }

/-- The C field's bits and IMMC (R54). -/
def encodeC : COp → BitVec 33
  | .imm c => (1 : BitVec 1) ++ c
  | .reg o x => (0 : BitVec 1) ++ (x ++ encodeOpnd o)

/-- The word of an opcode and its fields (R54). -/
def encodeForm (opc : BitVec 8) (f : Form) : W96 :=
  BitVec.ofBool f.defer ++ f.pace ++ f.fset ++ f.mod ++ encodeC f.c ++ encodeOpnd f.b ++ encodeOpnd f.a ++ encodeOpnd f.d ++
    f.guard ++ opc

/-- The opcode map (R70), row by row. Position 0x00 is CLAUSE, which is no instruction of a clause, and is never read. -/
noncomputable def ctorRows : List (List (Form → Instr)) := [
  [.udf, .nop, .bra, .brx, .call, .callx, .ret, .exit, .trap, .brk, .yield, .sleep, .assert, .svc, .eret, .udf],
  [.iadd, .isub, .imul, .imulh, .imad, .imadw, .idiv, .irem, .imin, .imax, .iabs, .ineg, .iaddc, .isubb, .isad, .idot4],
  [.ladd, .lsub, .lmul, .lmad, .lshl, .lshr, .lsar, .lmin, .lmax, .land, .lor, .lxor, .lea, .lneg, .ldiv, .lrem],
  [.and, .or, .xor, .not, .andn, .lop3, .shl, .shr, .sar, .rotl, .funsh, .popc, .clz, .brev, .bfe, .bfi],
  [.isetp, .lsetp, .fsetp, .psetp, .sel, .mov, .movi, .movs, .rdlane, .bcast, .ptov, .vtop, .clamp, .clock, .prmt, .movhi],
  [.shfl, .shflx, .shflu, .shfld, .voteany, .voteall, .ballot, .matchEq, .redux, .join, .leave, .jwait, .jset, .jget, .reform, .rejoin],
  [.bara, .barw, .baraw, .bard, .bart, .barinit, .fence, .prefw, .wbw, .invw, .disw, .winmap, .lmon, .lmwait, .elect, .active],
  [.ldl8, .ldl16, .ldl32, .ldl64, .ldl128, .stl8, .stl16, .stl32, .stl64, .stl128, .ldls, .stls, .ldlm, .stlm, .ldf, .stf],
  [.atladd, .atlmin, .atlmax, .atland, .atlor, .atlxor, .atlxch, .atlcas, .atlfadd, .atlinc, .atldec, .atlladd, .atllcas, .atllxch, .atlfmin, .atlfmax],
  [.fadd, .fsub, .fmul, .ffma, .fmin, .fmax, .frcp, .frsq, .fsqrt, .fdiv, .fsin, .fcos, .fexp2, .flog2, .ftanh, .fclass],
  [.hadd2, .hsub2, .hmul2, .hfma2, .hmin2, .hmax2, .fdot2, .fdot4, .cvtf, .cvtfi, .cvtif, .cvtpk, .cvtupk, .fscale, .fround, .fcopysign],
  [.cpost, .cfence, .cstat, .ccancel, .swaitany, .swaitall, .sfind, .stry, .sclr, .sread, .ringwait, .ringack, .qpush, .qpop, .qpeek, .qstat],
  [.fclaim, .frel, .aclaim, .arel, .mlatch, .mstream, .mdrain, .mzero, .mstat, .mfence, .scalerd, .amaxp, .accrd, .accwr, .fzero, .mcmd],
  [.vvcmp, .vvmax, .vvinc, .srrd, .srwr, .cresumeDock, .csave, .accsave, .accload, .teamkill, .dockpop, .leaseq, .perfrd, .perfctl, .seed, .rand],
  [.epopen, .epclose, .epstat, .polset, .mbxbind, .mbxrel, .grprd, .homeof, .iadd3, .iscadd, .bmsk, .bfind, .flerp, .fsat, .fexp, .fract],
  [.dadd, .dsub, .dmul, .dfma, .dmin, .dmax, .ddiv, .dsqrt, .drcp, .dsetp, .cvtd, .cvtdi, .cvtid, .dround, .dclass, .dscale]]

/-- The instruction of an opcode: RINGACK and CRESUME have two forms, told apart by MOD (R267, R343). -/
noncomputable def instrOf (opc : Nat) (f : Form) : Instr :=
  if opc == 0xBB && f.mod.getLsbD 3 then .ringackInit f
  else if opc == 0xD5 && f.mod.getLsbD 0 then .cresumeRec f
  else ((ctorRows.getD (opc / 16) []).getD (opc % 16) .udf) f

/-- The opcode and fields of a Dolmin instruction; none for a header, a carrel instruction or an event. -/
def Instr.word? : Instr → Option (BitVec 8 × Form)
  | .clause _ => none
  | .nop f => some (0x01, f)
  | .bra f => some (0x02, f)
  | .brx f => some (0x03, f)
  | .call f => some (0x04, f)
  | .callx f => some (0x05, f)
  | .ret f => some (0x06, f)
  | .exit f => some (0x07, f)
  | .trap f => some (0x08, f)
  | .brk f => some (0x09, f)
  | .yield f => some (0x0A, f)
  | .sleep f => some (0x0B, f)
  | .assert f => some (0x0C, f)
  | .svc f => some (0x0D, f)
  | .eret f => some (0x0E, f)
  | .udf f => some (0x0F, f)
  | .iadd f => some (0x10, f)
  | .isub f => some (0x11, f)
  | .imul f => some (0x12, f)
  | .imulh f => some (0x13, f)
  | .imad f => some (0x14, f)
  | .imadw f => some (0x15, f)
  | .idiv f => some (0x16, f)
  | .irem f => some (0x17, f)
  | .imin f => some (0x18, f)
  | .imax f => some (0x19, f)
  | .iabs f => some (0x1A, f)
  | .ineg f => some (0x1B, f)
  | .iaddc f => some (0x1C, f)
  | .isubb f => some (0x1D, f)
  | .isad f => some (0x1E, f)
  | .idot4 f => some (0x1F, f)
  | .ladd f => some (0x20, f)
  | .lsub f => some (0x21, f)
  | .lmul f => some (0x22, f)
  | .lmad f => some (0x23, f)
  | .lshl f => some (0x24, f)
  | .lshr f => some (0x25, f)
  | .lsar f => some (0x26, f)
  | .lmin f => some (0x27, f)
  | .lmax f => some (0x28, f)
  | .land f => some (0x29, f)
  | .lor f => some (0x2A, f)
  | .lxor f => some (0x2B, f)
  | .lea f => some (0x2C, f)
  | .lneg f => some (0x2D, f)
  | .ldiv f => some (0x2E, f)
  | .lrem f => some (0x2F, f)
  | .and f => some (0x30, f)
  | .or f => some (0x31, f)
  | .xor f => some (0x32, f)
  | .not f => some (0x33, f)
  | .andn f => some (0x34, f)
  | .lop3 f => some (0x35, f)
  | .shl f => some (0x36, f)
  | .shr f => some (0x37, f)
  | .sar f => some (0x38, f)
  | .rotl f => some (0x39, f)
  | .funsh f => some (0x3A, f)
  | .popc f => some (0x3B, f)
  | .clz f => some (0x3C, f)
  | .brev f => some (0x3D, f)
  | .bfe f => some (0x3E, f)
  | .bfi f => some (0x3F, f)
  | .isetp f => some (0x40, f)
  | .lsetp f => some (0x41, f)
  | .fsetp f => some (0x42, f)
  | .psetp f => some (0x43, f)
  | .sel f => some (0x44, f)
  | .mov f => some (0x45, f)
  | .movi f => some (0x46, f)
  | .movs f => some (0x47, f)
  | .rdlane f => some (0x48, f)
  | .bcast f => some (0x49, f)
  | .ptov f => some (0x4A, f)
  | .vtop f => some (0x4B, f)
  | .clamp f => some (0x4C, f)
  | .clock f => some (0x4D, f)
  | .prmt f => some (0x4E, f)
  | .movhi f => some (0x4F, f)
  | .shfl f => some (0x50, f)
  | .shflx f => some (0x51, f)
  | .shflu f => some (0x52, f)
  | .shfld f => some (0x53, f)
  | .voteany f => some (0x54, f)
  | .voteall f => some (0x55, f)
  | .ballot f => some (0x56, f)
  | .matchEq f => some (0x57, f)
  | .redux f => some (0x58, f)
  | .join f => some (0x59, f)
  | .leave f => some (0x5A, f)
  | .jwait f => some (0x5B, f)
  | .jwaitComplete _ _ _ => none
  | .jset f => some (0x5C, f)
  | .jget f => some (0x5D, f)
  | .reform f => some (0x5E, f)
  | .reformWaitFile _ => none
  | .binDrawAge _ _ => none
  | .rejoin f => some (0x5F, f)
  | .bara f => some (0x60, f)
  | .barw f => some (0x61, f)
  | .baraw f => some (0x62, f)
  | .bard f => some (0x63, f)
  | .bart f => some (0x64, f)
  | .bartTimeout _ _ _ => none
  | .barinit f => some (0x65, f)
  | .fence f => some (0x66, f)
  | .prefw f => some (0x67, f)
  | .wbw f => some (0x68, f)
  | .invw f => some (0x69, f)
  | .disw f => some (0x6A, f)
  | .winmap f => some (0x6B, f)
  | .lmon f => some (0x6C, f)
  | .lmwait f => some (0x6D, f)
  | .lmwaitWake _ _ _ => none
  | .lmwaitTimeout _ _ _ => none
  | .elect f => some (0x6E, f)
  | .active f => some (0x6F, f)
  | .ldl8 f => some (0x70, f)
  | .ldl16 f => some (0x71, f)
  | .ldl32 f => some (0x72, f)
  | .ldl64 f => some (0x73, f)
  | .ldl128 f => some (0x74, f)
  | .stl8 f => some (0x75, f)
  | .stl16 f => some (0x76, f)
  | .stl32 f => some (0x77, f)
  | .stl64 f => some (0x78, f)
  | .stl128 f => some (0x79, f)
  | .ldls f => some (0x7A, f)
  | .stls f => some (0x7B, f)
  | .ldlm f => some (0x7C, f)
  | .stlm f => some (0x7D, f)
  | .ldf f => some (0x7E, f)
  | .stf f => some (0x7F, f)
  | .atladd f => some (0x80, f)
  | .atlmin f => some (0x81, f)
  | .atlmax f => some (0x82, f)
  | .atland f => some (0x83, f)
  | .atlor f => some (0x84, f)
  | .atlxor f => some (0x85, f)
  | .atlxch f => some (0x86, f)
  | .atlcas f => some (0x87, f)
  | .atlfadd f => some (0x88, f)
  | .atlinc f => some (0x89, f)
  | .atldec f => some (0x8A, f)
  | .atlladd f => some (0x8B, f)
  | .atllcas f => some (0x8C, f)
  | .atllxch f => some (0x8D, f)
  | .atlfmin f => some (0x8E, f)
  | .atlfmax f => some (0x8F, f)
  | .fadd f => some (0x90, f)
  | .fsub f => some (0x91, f)
  | .fmul f => some (0x92, f)
  | .ffma f => some (0x93, f)
  | .fmin f => some (0x94, f)
  | .fmax f => some (0x95, f)
  | .frcp f => some (0x96, f)
  | .frsq f => some (0x97, f)
  | .fsqrt f => some (0x98, f)
  | .fdiv f => some (0x99, f)
  | .fsin f => some (0x9A, f)
  | .fcos f => some (0x9B, f)
  | .fexp2 f => some (0x9C, f)
  | .flog2 f => some (0x9D, f)
  | .ftanh f => some (0x9E, f)
  | .fclass f => some (0x9F, f)
  | .hadd2 f => some (0xA0, f)
  | .hsub2 f => some (0xA1, f)
  | .hmul2 f => some (0xA2, f)
  | .hfma2 f => some (0xA3, f)
  | .hmin2 f => some (0xA4, f)
  | .hmax2 f => some (0xA5, f)
  | .fdot2 f => some (0xA6, f)
  | .fdot4 f => some (0xA7, f)
  | .cvtf f => some (0xA8, f)
  | .cvtfi f => some (0xA9, f)
  | .cvtif f => some (0xAA, f)
  | .cvtpk f => some (0xAB, f)
  | .cvtupk f => some (0xAC, f)
  | .fscale f => some (0xAD, f)
  | .fround f => some (0xAE, f)
  | .fcopysign f => some (0xAF, f)
  | .cpost f => some (0xB0, f)
  | .cpostAppend _ _ => none
  | .cfence f => some (0xB1, f)
  | .cstat f => some (0xB2, f)
  | .ccancel f => some (0xB3, f)
  | .swaitany f => some (0xB4, f)
  | .swaitall f => some (0xB5, f)
  | .slipWaitReturn _ _ _ => none
  | .sfind f => some (0xB6, f)
  | .stry f => some (0xB7, f)
  | .stryTimeout _ _ _ => none
  | .sclr f => some (0xB8, f)
  | .sread f => some (0xB9, f)
  | .ringwait f => some (0xBA, f)
  | .ringwaitTimeout _ _ _ => none
  | .ringack f => some (0xBB, f)
  | .ringackInit f => some (0xBB, f)
  | .qpush f => some (0xBC, f)
  | .qpop f => some (0xBD, f)
  | .qpeek f => some (0xBE, f)
  | .qstat f => some (0xBF, f)
  | .queueAccessResume _ _ _ => none
  | .fclaim f => some (0xC0, f)
  | .frel f => some (0xC1, f)
  | .aclaim f => some (0xC2, f)
  | .arel f => some (0xC3, f)
  | .resourceZero _ _ _ => none
  | .mlatch f => some (0xC4, f)
  | .mstream f => some (0xC5, f)
  | .mdrain f => some (0xC6, f)
  | .mzero f => some (0xC7, f)
  | .mstat f => some (0xC8, f)
  | .mfence f => some (0xC9, f)
  | .scalerd f => some (0xCA, f)
  | .amaxp f => some (0xCB, f)
  | .accrd f => some (0xCC, f)
  | .accwr f => some (0xCD, f)
  | .fzero f => some (0xCE, f)
  | .mcmd f => some (0xCF, f)
  | .matrixAppend _ _ _ => none
  | .latch _ _ => none
  | .stream _ _ => none
  | .drain _ _ => none
  | .zero _ _ => none
  | .planeReload _ _ => none
  | .vvcmp f => some (0xD0, f)
  | .vvmax f => some (0xD1, f)
  | .vvinc f => some (0xD2, f)
  | .srrd f => some (0xD3, f)
  | .srwr f => some (0xD4, f)
  | .cresumeDock f => some (0xD5, f)
  | .cresumeRec f => some (0xD5, f)
  | .csave f => some (0xD6, f)
  | .accsave f => some (0xD7, f)
  | .accload f => some (0xD8, f)
  | .teamkill f => some (0xD9, f)
  | .dockpop f => some (0xDA, f)
  | .dockpopWake _ _ _ => none
  | .leaseq f => some (0xDB, f)
  | .leaseqWaitEnd _ _ _ => none
  | .perfrd f => some (0xDC, f)
  | .perfctl f => some (0xDD, f)
  | .seed f => some (0xDE, f)
  | .rand f => some (0xDF, f)
  | .epopen f => some (0xE0, f)
  | .epclose f => some (0xE1, f)
  | .epstat f => some (0xE2, f)
  | .polset f => some (0xE3, f)
  | .mbxbind f => some (0xE4, f)
  | .mbxrel f => some (0xE5, f)
  | .grprd f => some (0xE6, f)
  | .homeof f => some (0xE7, f)
  | .iadd3 f => some (0xE8, f)
  | .iscadd f => some (0xE9, f)
  | .bmsk f => some (0xEA, f)
  | .bfind f => some (0xEB, f)
  | .flerp f => some (0xEC, f)
  | .fsat f => some (0xED, f)
  | .fexp f => some (0xEE, f)
  | .fract f => some (0xEF, f)
  | .dadd f => some (0xF0, f)
  | .dsub f => some (0xF1, f)
  | .dmul f => some (0xF2, f)
  | .dfma f => some (0xF3, f)
  | .dmin f => some (0xF4, f)
  | .dmax f => some (0xF5, f)
  | .ddiv f => some (0xF6, f)
  | .dsqrt f => some (0xF7, f)
  | .drcp f => some (0xF8, f)
  | .dsetp f => some (0xF9, f)
  | .cvtd f => some (0xFA, f)
  | .cvtdi f => some (0xFB, f)
  | .cvtid f => some (0xFC, f)
  | .dround f => some (0xFD, f)
  | .dclass f => some (0xFE, f)
  | .dscale f => some (0xFF, f)
  | .longLatencyComplete _ _ _ => none
  | .monitorEntry _ _ _ => none
  | .sleepEnd _ _ _ => none
  | .waveRetire _ _ => none
  | .teamRetire _ => none
  | .teamAdmit _ => none
  | .teamQueueStart _ => none
  | .stealRequest _ => none
  | .stealAnswer _ => none
  | .stealBackoffEnd _ => none
  | .commandDispatch _ => none
  | .poolGrow _ => none
  | .carveComplete _ => none
  | .wayReturn _ _ => none
  | .windowFillComplete _ _ => none
  | .parkedReplay _ _ _ => none
  | .writebackRetry _ _ => none
  | .claimWaitEnd _ _ _ => none
  | .tcopy _ _ => none
  | .gather _ _ => none
  | .scatter _ _ => none
  | .conv _ _ => none
  | .fill _ _ => none
  | .atom _ _ => none
  | .watch _ => none
  | .watchSatisfied _ => none
  | .watchTimeout _ => none
  | .recon _ _ => none
  | .reconEpochAdvance _ => none
  | .cache _ _ => none
  | .coll _ => none
  | .fenceCommand _ => none
  | .launchCommand _ => none
  | .tswap _ => none
  | .malformedComplete _ => none
  | .heldFaultWrite _ => none
  | .followOnHandover _ => none
  | .commandComplete _ => none
  | .ringRecordResume _ => none
  | .preemptTeam _ => none
  | .teamRestore _ => none
  | .pageWalk _ => none
  | .mbxPush _ => none
  | .mbxPop _ _ _ => none
  | .mbxPeek _ _ => none
  | .stepDone _ => none
  | .arenaSync _ => none
  | .carrelWaitResume _ _ => none
  | .carrelException _ _ => none
  | .carrelPageFault _ _ => none
  | .deadlineTimeout _ _ => none
  | .budgetTimeout _ _ => none
  | .heldObservationPost _ _ => none
  | .peerReadRequest _ => none
  | .peerWriteNotice _ => none
  | .peerAck _ _ _ _ => none
  | .flitReplay _ => none
  | .digestReceive _ _ _ => none
  | .collTimeout _ => none
  | .chunkSelect _ => none
  | .hello _ => none
  | .keyx _ _ => none
  | .handshakeTimeout _ => none
  | .sessionIdleTimeout _ => none
  | .protocolIllegal _ => none
  | .hostWrite _ _ _ _ => none
  | .hostRead _ _ _ _ => none
  | .hostLaunch _ _ => none
  | .register _ _ => none
  | .controlPreempt _ _ => none
  | .controlResume _ _ => none
  | .controlUnfreeze _ _ => none
  | .controlEpochAdvance _ _ _ => none
  | .controlClearOvf _ _ => none
  | .controlReset _ => none
  | .close _ => none
  | .powerOn => none
  | .resetInput => none
  | .powerLimit => none
  | .thermalStop _ => none
  | .riscvLoadsAndStores _ _ => none
  | .uncorrectableError _ => none
  | .powerFallsBelowLimit => none
  | .peerReadResponse _ _ _ _ => none
  | .sequenceClosing _ _ _ => none
  | .collectiveAbort _ _ _ => none
  | .flitBoundary _ => none

/-- The instruction of a word in an instruction position, or why it is none (R72). -/
noncomputable def decodeWord (w : W96) : Except DecodeErr Instr :=
  let opc := (field w 0 8).toNat
  if opc == 0 then .error .clauseInClause
  else if opc == 0x0F then .ok (.udf (udfForm w))
  else match decodeForm w with
    | none => .error .descriptor
    | some f => if f.ok opc then .ok (instrOf opc f) else .error .form

/-- The clause header of a word in a header position, or why it is none (R16, R68). -/
def decodeHeader (w : W96) : Except DecodeErr Header :=
  if field w 0 8 != 0 then .error .notHeader
  else
    let h : Header := { wait := field w 12 12, flagA := field w 24 4, flagB := field w 28 4, len := field w 32 3 }
    if field w 8 4 == 0 && field w 35 61 == 0 && h.ok then .ok h else .error .headerField

/-- The word of a header (R68). -/
def encodeHeader (h : Header) : W96 :=
  (0 : BitVec 61) ++ h.len ++ h.flagB ++ h.flagA ++ h.wait ++ (0 : BitVec 12)

/-- A word that is an instruction of a carrel: of the base architecture, or of the extension with the fields that R323 fixes. -/
def carrelOk (w : W32) : Bool :=
  let rd := w.extractLsb' 7 5
  let rs2 := w.extractLsb' 20 5
  let f7 := (w.extractLsb' 25 7).toNat
  w.extractLsb' 0 7 != 0x0B ||
    (w.extractLsb' 12 3 == 0 &&
      (f7 == 1 || (f7 == 2 && rs2 == 0) || ((f7 == 0 || f7 == 3 || f7 == 4) && rd == 0 && rs2 == 0)))

/-- The carrel extension's instruction words (R323); a word of another major opcode belongs to the base architecture. -/
noncomputable def decodeCarrel (w : W32) : Except DecodeErr Instr :=
  let rd := w.extractLsb' 7 5
  let rs1 := w.extractLsb' 15 5
  let rs2 := w.extractLsb' 20 5
  if w.extractLsb' 0 7 != 0x0B then .ok (.riscvLoadsAndStores w (w.extractLsb' 0 2 != 3))
  else if w.extractLsb' 12 3 != 0 then .error .carrel
  else match (w.extractLsb' 25 7).toNat with
    | 0 => if rd == 0 && rs2 == 0 then .ok (.mbxPush rs1) else .error .carrel
    | 1 => .ok (.mbxPop rd rs1 rs2)
    | 2 => if rs2 == 0 then .ok (.mbxPeek rd rs1) else .error .carrel
    | 3 => if rd == 0 && rs2 == 0 then .ok (.stepDone rs1) else .error .carrel
    | 4 => if rd == 0 && rs2 == 0 then .ok (.arenaSync rs1) else .error .carrel
    | _ => .error .carrel

/-- An R-type word of the carrel extension (R323). -/
def encodeCustom (funct7 : BitVec 7) (rs2 rs1 rd : BitVec 5) : W32 :=
  funct7 ++ rs2 ++ rs1 ++ (0 : BitVec 3) ++ rd ++ (0x0B : BitVec 7)

/-- The word of an instruction, zero-extended to 96 bits; none for an event. -/
def encode : Instr → Option W96
  | .clause h => some (encodeHeader h)
  | .mbxPush rs1 => some ((encodeCustom 0 0 rs1 0).setWidth 96)
  | .mbxPop rd rs1 rs2 => some ((encodeCustom 1 rs2 rs1 rd).setWidth 96)
  | .mbxPeek rd rs1 => some ((encodeCustom 2 0 rs1 rd).setWidth 96)
  | .stepDone rs1 => some ((encodeCustom 3 0 rs1 0).setWidth 96)
  | .arenaSync rs1 => some ((encodeCustom 4 0 rs1 0).setWidth 96)
  | .riscvLoadsAndStores w _ => some (w.setWidth 96)
  | i => i.word?.map fun x => encodeForm x.1 x.2

/-- The instruction is well formed: every static check of its word holds. An event carries no word and is well formed. -/
noncomputable def Instr.wellFormed (i : Instr) : Bool :=
  match i with
  | .clause h => h.ok
  | .udf f => f == { udfForm 0 with guard := f.guard, c := .imm (match f.c with | .imm c => c | .reg .. => 0) }
  | .riscvLoadsAndStores w c => w.extractLsb' 0 7 != 0x0B && c == (w.extractLsb' 0 2 != 3)
  | _ => match i.word? with
    | some (opc, f) => f.ok opc.toNat && (instrOf opc.toNat f == i)
    | none => true

/-- The instruction the decoder reads from a word of the opcode table: rows of 32 bits are the carrel extension's, rows of
96 bits are Dolmin words. Both are stored lowest byte first (R5), so the table's bit numbers are the word's. -/
noncomputable def decodeTableWord (nbits w : Nat) : Option Instr :=
  if nbits ≤ 32 then (decodeCarrel (BitVec.ofNat 32 w)).toOption
  else if (BitVec.ofNat 8 w) == 0 then (decodeHeader (BitVec.ofNat 96 w)).toOption.map .clause
  else (decodeWord (BitVec.ofNat 96 w)).toOption

end Sys2Proof
end

