-- ==== Sys2Proof/Config.lean ====
section
/-! DEFINITION. What the manual leaves open: constants without a body, so that nothing in Lean can evaluate one.
Each is named in notes/assumptions. -/

namespace Sys2Proof.Config

/-- The fresh free value of the model: applied to the counter `State.tick` and a salt that names the choice. -/
opaque free : Nat → Nat → Nat

/-- R110, R113: which of the values within the published bound an approximate function returns, for the opcode
and the input: fixed per input on every run. -/
opaque approx : Nat → Nat → Nat

/-- Bytes that only the root of trust or the firmware knows (ephemeral keys, measurements, the serial number), by kind and position
(R389, R390). -/
opaque secret : Nat → Nat → BitVec 8

/-- The public half of a signing key of the root of trust (R390): kind 0 ECDSA, 1 LMS; number 0 the identity key, b + 1 the alias key
of boot b. -/
opaque publicKey : Nat → Nat → List (BitVec 8)

/-- A signature by such a key, at an LMS leaf index, of a message (R390). -/
opaque sign : Nat → Nat → Nat → List (BitVec 8) → List (BitVec 8)

/-- The image of a type (0 package, 1 carrels, 2 sequencers) that a boot finds (R389): its version, and whether each of its two
signatures verifies. -/
opaque imageVersion : Nat → Nat → Nat
opaque imageVerifies : Nat → Nat → Nat → Bool

/-- The fused anti-rollback counter of an image type (R389). -/
opaque antiRollback : Nat → Nat

/-- A directional key of a session (R386): of the boot, the report that carried the ephemeral key, the host's public key, the
session, and the direction (0 from the device). -/
opaque sessionKey : Nat → Nat → List (BitVec 8) → Nat → Nat → List (BitVec 8)

/-- AES-256-GCM (R385): of a key, a nonce, associated data and a payload, the ciphertext followed by the tag. -/
opaque gcm : List (BitVec 8) → List (BitVec 8) → List (BitVec 8) → List (BitVec 8) → List (BitVec 8)

/-- A measured quantity of the module at a time: 0 module power in W, 1 + d the junction temperature of die d
in units of 0.125 degree (R393). -/
opaque sensor : Nat → Nat → BitVec 64

end Sys2Proof.Config
end

