-- ==== Sys2Proof/Machine/Num.lean ====
section
/-! DEFINITION. Number formats, rounding, conversion and exact sums (R30 to R47, R51, R53, R105, R106). Finite values are
exact: a sign, a natural magnitude and a power of two. -/

namespace Sys2Proof.Machine

/-! ## Formats and values -/

/-- A value of a float format: NaN, an infinity, or (-1)^neg × m × 2^e. -/
inductive Val where
  | nan
  | inf (neg : Bool)
  | fin (neg : Bool) (m : Nat) (e : Int)
  deriving DecidableEq, Repr, Inhabited

/-- A float format (R30). `style`: 0 IEEE 754 infinities and NaNs, 1 E4M3, 2 E2M1. -/
structure Fmt where
  eb : Nat
  fb : Nat
  bias : Nat
  style : Nat
  deriving DecidableEq, Repr, Inhabited

def fp64 : Fmt := ⟨11, 52, 1023, 0⟩
def fp32 : Fmt := ⟨8, 23, 127, 0⟩
def fp16 : Fmt := ⟨5, 10, 15, 0⟩
def bf16 : Fmt := ⟨8, 7, 127, 0⟩
def e4m3 : Fmt := ⟨4, 3, 7, 1⟩
def e5m2 : Fmt := ⟨5, 2, 15, 0⟩
def e2m1 : Fmt := ⟨2, 1, 1, 2⟩

/-- The canonical NaN (R34); E2M1 has none and R44 gives it +0. -/
def Fmt.nan (F : Fmt) : Nat :=
  if F.style == 1 then 0x7F else if F.style == 2 then 0
  else ((2 ^ F.eb - 1) <<< F.fb) + 2 ^ (F.fb - 1)

/-- The largest finite magnitude as m × 2^e (R30). -/
def Fmt.max (F : Fmt) : Nat × Int :=
  if F.style == 1 then (14, 5) else if F.style == 2 then (3, 1)
  else (2 ^ (F.fb + 1) - 1, (2 ^ F.eb - 2 : Int) - F.bias - F.fb)

/-- The code of the largest finite value without its sign. -/
def Fmt.maxCode (F : Fmt) : Nat :=
  if F.style == 1 then 0x7E else if F.style == 2 then 7 else ((2 ^ F.eb - 1) <<< F.fb) - 1

def Fmt.signBit (F : Fmt) (neg : Bool) : Nat := if neg then 2 ^ (F.eb + F.fb) else 0

/-- The value of a code (R30). -/
def Fmt.decode (F : Fmt) (code : Nat) : Val :=
  let neg := (code >>> (F.eb + F.fb)) % 2 == 1
  let ex := (code >>> F.fb) % 2 ^ F.eb
  let fr := code % 2 ^ F.fb
  if F.style == 0 && ex == 2 ^ F.eb - 1 then (if fr == 0 then .inf neg else .nan)
  else if F.style == 1 && ex == 15 && fr == 7 then .nan
  else if ex == 0 then .fin neg fr (1 - F.bias - F.fb : Int)
  else .fin neg (2 ^ F.fb + fr) (ex - F.bias - F.fb : Int)

/-! ## Exact arithmetic -/

def Val.isNeg : Val → Bool
  | .nan => false
  | .inf n => n
  | .fin n _ _ => n

def Val.isNan : Val → Bool
  | .nan => true
  | _ => false

def Val.isInf : Val → Bool
  | .inf _ => true
  | _ => false

def Val.isZero : Val → Bool
  | .fin _ 0 _ => true
  | _ => false

def Val.neg : Val → Val
  | .nan => .nan
  | .inf n => .inf (!n)
  | .fin n m e => .fin (!n) m e

def Val.abs : Val → Val
  | .nan => .nan
  | .inf _ => .inf false
  | .fin _ m e => .fin false m e

/-- The finite value as an integer multiple of 2^e, for an e at or below its exponent. -/
def scaled (neg : Bool) (m : Nat) (e0 e : Int) : Int :=
  let k : Int := (m * 2 ^ (e0 - e).toNat : Nat)
  if neg then -k else k

/-- The exact product (R106). -/
def Val.mul : Val → Val → Val
  | .nan, _ | _, .nan => .nan
  | .inf a, .inf b => .inf (a != b)
  | .inf a, .fin b m _ | .fin b m _, .inf a => if m == 0 then .nan else .inf (a != b)
  | .fin a m e, .fin b k f => .fin (a != b) (m * k) (e + f)

/-- An integer as a value. -/
def Val.ofInt (x : Int) : Val := .fin (x < 0) x.natAbs 0

/-- The exact sum of terms (R106): NaN and opposite infinities give NaN; an exact zero takes the terms' common sign, and
otherwise is +0, or -0 under RD. -/
def sumExact (rd : Bool) (ts : List Val) : Val :=
  if ts.any Val.isNan then .nan
  else if ts.any (fun t => t.isInf && !t.isNeg) && ts.any (fun t => t.isInf && t.isNeg) then .nan
  else if ts.any Val.isInf then .inf (ts.any fun t => t.isInf && t.isNeg)
  else
    let e := ts.foldl (fun (a : Int) t => match t with | .fin _ m e => if m == 0 then a else min a e | _ => a) 10000
    let s := ts.foldl (fun (a : Int) t => match t with | .fin n m e0 => if m == 0 then a else a + scaled n m e0 e | _ => a) 0
    if s == 0 then
      .fin (if ts.all Val.isZero && ts.all Val.isNeg then true
            else if ts.all Val.isZero && ts.all (fun t => !t.isNeg) then false else rd) 0 0
    else .fin (s < 0) s.natAbs e

/-- The order of two values that are not NaN; zeros are equal. -/
def Val.lt (a b : Val) : Bool :=
  match a, b with
  | .nan, _ | _, .nan => false
  | .inf n, .inf k => n && !k
  | .inf n, .fin .. => n
  | .fin .., .inf n => !n
  | .fin n m e, .fin k l f => let c := min e f; scaled n m e c < scaled k l f c

def Val.eq (a b : Val) : Bool :=
  match a, b with
  | .nan, _ | _, .nan => false
  | .inf n, .inf k => n == k
  | .fin n m e, .fin k l f => let c := min e f; scaled n m e c == scaled k l f c
  | _, _ => false

/-- minimumNumber and maximumNumber with -0 below +0 (R53). -/
def Val.minNum (a b : Val) : Val :=
  if a.isNan then b else if b.isNan then a
  else if a.lt b then a else if b.lt a then b
  else if a.isNeg then a else b

def Val.maxNum (a b : Val) : Val :=
  if a.isNan then b else if b.isNan then a
  else if a.lt b then b else if b.lt a then a
  else if a.isNeg then b else a

/-- floor(log2 x) of a positive finite magnitude. -/
def log2Val (m : Nat) (e : Int) : Int := (Nat.log2 m : Int) + e

/-- The exact quotient, with enough bits and a sticky bit that every rounding of it is the rounding of a / b (R106). -/
def Val.div : Val → Val → Val
  | .nan, _ | _, .nan => .nan
  | .inf _, .inf _ => .nan
  | .inf a, .fin b _ _ => .inf (a != b)
  | .fin a _ _, .inf b => .fin (a != b) 0 0
  | .fin a m e, .fin b k f =>
    if k == 0 then (if m == 0 then .nan else .inf (a != b))
    else if m == 0 then .fin (a != b) 0 0
    else
      let sh := 120 + Nat.log2 k
      let n := m <<< sh
      .fin (a != b) (2 * (n / k) + (if n % k == 0 then 0 else 1)) (e - f - sh - 1)

/-- floor of the square root, by bits from the top. -/
def isqrtGo (n : Nat) : Nat → Nat → Nat
  | 0, r => r
  | i + 1, r => let r' := r + 2 ^ i; isqrtGo n i (if r' * r' ≤ n then r' else r)

def isqrt (n : Nat) : Nat := isqrtGo n (Nat.log2 n / 2 + 1) 0

/-- The square root, exact where it is representable and otherwise with a sticky bit (R106). -/
def Val.sqrt : Val → Val
  | .nan => .nan
  | .inf n => if n then .nan else .inf false
  | .fin n m e =>
    if m == 0 then .fin n 0 0
    else if n then .nan
    else
      let e' : Int := if e % 2 == 0 then e - 240 else e - 241
      let m' := m <<< (e - e').toNat
      let r := isqrt m'
      .fin false (2 * r + (if r * r == m' then 0 else 1)) (e' / 2 - 1)

/-! ## Rounding -/

/-- Rounding modes by their codes (R38): 0 RNE, 1 RZ, 2 RU, 3 RD, 4 RS. -/
abbrev RMode := Nat

/-- One step of the generator G (R40). -/
def stepG (g : W32) : W32 :=
  let g := if g == 0 then 0x6A09E667 else g
  let g := g ^^^ (g <<< 13)
  let g := g ^^^ (g >>> 17)
  g ^^^ (g <<< 5)

/-- The state of G at launch (R40). -/
def seedG (tid : Nat) : W32 := 0x6A09E667 + BitVec.ofNat 32 tid

/-- n steps of G. -/
def stepsG (g : W32) : Nat → W32
  | 0 => g
  | n + 1 => stepG (stepsG g n)

/-- Does the magnitude lo + rem / 2^sh round up under the mode (R38, R40)? -/
def roundsUp (m : RMode) (g : W32) (neg : Bool) (lo rem sh : Nat) : Bool :=
  match m with
  | 0 => let h := 2 ^ sh; 2 * rem > h || (2 * rem == h && lo % 2 == 1)
  | 1 => false
  | 2 => !neg && rem != 0
  | 3 => neg && rem != 0
  | _ => (rem <<< 24) >>> sh > (g >>> 8).toNat

/-- The integer k nearest to m × 2^(e - q) under the mode. -/
def roundInt (m : RMode) (g : W32) (neg : Bool) (mant : Nat) (e q : Int) : Nat :=
  if q ≤ e then mant <<< (e - q).toNat
  else
    let sh := (q - e).toNat
    let lo := mant >>> sh
    lo + (if roundsUp m g neg lo (mant % 2 ^ sh) sh then 1 else 0)

/-- A rounded magnitude k × 2^q, and whether it overflowed (R39). -/
def roundGrid (F : Fmt) (m : RMode) (g : W32) (neg : Bool) (mant : Nat) (e : Int) : Nat × Int × Bool :=
  let q : Int := max (log2Val mant e - F.fb) (1 - F.bias - F.fb)
  let k := roundInt m g neg mant e q
  let (mx, me) := F.max
  let ovf := Val.lt (.fin false mx me) (.fin false k q)
  let toward := m == 1 || (m == 2 && neg) || (m == 3 && !neg)
  if ovf && toward then (mx, me, false) else (k, q, ovf)

/-- The code of a magnitude on the format's grid. -/
def Fmt.encode (F : Fmt) (neg : Bool) (k : Nat) (q : Int) : Nat :=
  let (k, q) := if k ≥ 2 ^ (F.fb + 1) then (k / 2, q + 1) else (k, q)
  F.signBit neg +
    (if k < 2 ^ F.fb then k else (((q + F.fb + F.bias).toNat) <<< F.fb) + (k - 2 ^ F.fb))

/-- The code of an infinity, where the format has one. -/
def Fmt.inf (F : Fmt) (neg : Bool) : Nat := F.signBit neg + ((2 ^ F.eb - 1) <<< F.fb)

/-- fres (R105): the code of an exact result, with G as the element's step left it. -/
def fres (F : Fmt) (m : RMode) (sat : Bool) (g : W32) : Val → Nat
  | .nan => F.nan
  | .inf n => F.inf n
  | .fin n mant e =>
    if mant == 0 then F.signBit n
    else
      let (k, q, ovf) := roundGrid F m g n mant e
      if ovf then (if sat then F.signBit n + F.maxCode else F.inf n) else F.encode n k q

/-- Rounding of a value to a value of the format under RNE, overflow to infinity. -/
def roundRne (F : Fmt) (x : Val) : Nat := fres F 0 false 0 x

/-! ## Conversion -/

/-- A result format of a conversion: a float format, an integer of w bits, DPW8 or E8M0. -/
inductive NF where
  | fp (F : Fmt)
  | int (w : Nat) (signed : Bool)
  | dpw8
  | e8m0
  deriving DecidableEq, Repr, Inhabited

/-- The value of a DPW8 code in units of 2^-6 (R35). -/
def dpw8Units (c : Nat) : Int :=
  let t (x : Nat) : Int :=
    let k : Int := if x % 8 == 7 then 0 else (2 ^ (6 - x % 8) : Nat)
    if x / 8 % 2 == 1 then -k else k
  t (c / 16) + t (c % 16)

def dpw8Val (c : Nat) : Val := let u := dpw8Units c; .fin (u < 0) u.natAbs (-6)

/-- The canonical DPW8 codes (R36). -/
def dpw8Canon (c : Nat) : Bool :=
  let s1 := c / 128
  let c1 := c / 16 % 8
  let s2 := c / 8 % 2
  let c2 := c % 8
  let u := (dpw8Units c).natAbs
  let single := u == 0 || [1, 2, 4, 8, 16, 32, 64].contains u
  c1 ≤ c2 && (c1 != 7 || s1 == 0) && (c2 != 7 || s2 == 0) && (c2 == 7 || !single) && !(s1 != s2 && c2 != 7 && c2 == c1 + 2)

def dpw8Codes : List Nat := (List.range 256).filter dpw8Canon

/-- Distance of x from a DPW8 value, as an exact magnitude. -/
def dpw8Dist (x : Val) (c : Nat) : Val := (sumExact false [x, (dpw8Val c).neg]).abs

/-- The conversion into DPW8 (R37). -/
def toDpw8 (x : Val) : Nat :=
  match x with
  | .nan => 0x77
  | .inf n => if n then 0x88 else 0x00
  | _ =>
    let term1 (c : Nat) : Nat := if c / 16 % 8 == 7 then 0 else 2 ^ (6 - c / 16 % 8)
    dpw8Codes.foldl (fun best c =>
      let db := dpw8Dist x best
      let dc := dpw8Dist x c
      if dc.lt db then c
      else if db.lt dc then best
      else if term1 c > term1 best then c
      else if term1 c == term1 best && c % 8 < best % 8 then c
      else best) 0x77

/-- The conversion into E8M0 (R45). -/
def toE8m0 : Val → Nat
  | .nan | .inf _ => 0xFF
  | .fin _ m e => if m == 0 then 0 else (min (max (log2Val m e + 127) 0) 254).toNat

def e8m0Val (c : Nat) : Val := if c == 0xFF then .nan else .fin false 1 ((c : Int) - 127)

def minInt (w : Nat) (signed : Bool) : Int := if signed then -(2 ^ (w - 1) : Nat) else 0
def maxInt (w : Nat) (signed : Bool) : Int := if signed then (2 ^ (w - 1) : Nat) - 1 else (2 ^ w : Nat) - 1

/-- A value rounded to an integral value (R42, R119). -/
def roundIntegral (m : RMode) (g : W32) (neg : Bool) (mant : Nat) (e : Int) : Int :=
  let k : Int := roundInt m g neg mant e 0
  if neg then -k else k

/-- The conversion into an integer type (R42), as w bits. -/
def toInt (w : Nat) (signed : Bool) (m : RMode) (sat : Bool) (g : W32) : Val → Nat
  | .nan => 0
  | .inf n => ((if n then minInt w signed else maxInt w signed) % (2 ^ w : Nat)).toNat
  | .fin n mant e =>
    let k := roundIntegral m g n mant e
    let k := if sat then min (max k (minInt w signed)) (maxInt w signed) else k
    (k % (2 ^ w : Nat)).toNat

/-- convert (R43, R44), with G as the element's step left it. -/
def convert (F : NF) (m : RMode) (sat : Bool) (g : W32) (y : Val) : Nat :=
  match F with
  | .int w s => toInt w s m sat g y
  | .dpw8 => toDpw8 y
  | .e8m0 => toE8m0 y
  | .fp F =>
    match y with
    | .nan => F.nan
    | .inf n =>
      if F.style == 2 then F.signBit n + F.maxCode
      else if F.style == 1 then (if sat then F.signBit n + F.maxCode else F.nan)
      else F.inf n
    | .fin n mant e =>
      if mant == 0 then F.signBit n
      else
        let (k, q, ovf) := roundGrid F m g n mant e
        if ovf then
          (if sat || F.style == 2 then F.signBit n + F.maxCode
           else if F.style == 1 then F.nan else F.inf n)
        else F.encode n k q

/-- The width in bits of a result format. -/
def NF.width : NF → Nat
  | .fp F => 1 + F.eb + F.fb
  | .int w _ => w
  | .dpw8 => 8
  | .e8m0 => 8

/-- The value of a code of a format, DPW8 read with X = 1 (R35, R43). -/
def NF.decode : NF → Nat → Val
  | .fp F, c => F.decode (c % 2 ^ (1 + F.eb + F.fb))
  | .int w s, c =>
    let c := c % 2 ^ w
    .ofInt (if s && c ≥ 2 ^ (w - 1) then (c : Int) - (2 ^ w : Nat) else c)
  | .dpw8, c => dpw8Val (c % 256)
  | .e8m0, c => e8m0Val (c % 256)

/-- The format of a TYPE code (R64). -/
def nfOfType : Nat → NF
  | 1 => .int 8 true
  | 2 => .int 8 false
  | 3 => .int 16 true
  | 4 => .int 16 false
  | 5 => .int 32 true
  | 6 => .int 32 false
  | 7 => .int 64 true
  | 8 => .int 64 false
  | 11 => .fp fp16
  | 12 => .fp bf16
  | 14 => .fp fp64
  | 15 => .fp e4m3
  | 16 => .fp e5m2
  | 17 => .fp e2m1
  | 18 => .e8m0
  | 19 => .dpw8
  | _ => .fp fp32

/-- The format of a copy-command format code (R226); the b formats read as plain integers. -/
def nfOfCcr : Nat → NF
  | 0 => .int 8 false
  | 1 => .fp e4m3
  | 2 => .fp e5m2
  | 3 => .fp e2m1
  | 4 => .dpw8
  | 5 => .int 8 true
  | 6 => .int 8 false
  | 7 => .fp fp16
  | 8 => .fp bf16
  | 9 => .int 32 true
  | 10 => .int 32 false
  | 11 => .fp fp32
  | 12 => .int 16 false
  | 13 => .int 32 false
  | 14 => .int 64 false
  | _ => .fp fp64

/-! ## Operations in a format -/

def f32 (x : W32) : Val := fp32.decode x.toNat

/-- One addition rounded RNE in a format (R50, R51). -/
def addRne (F : Fmt) (a b : Nat) : Nat := roundRne F (sumExact false [F.decode a, F.decode b])

/-- The fixed tree of a float REDUX (R51): one level pairs neighbours, an inactive side passing the other up. -/
def treeLevel (op : Nat → Nat → Nat) : List (Option Nat) → List (Option Nat)
  | a :: b :: r =>
    (match a, b with
      | some x, some y => some (op x y)
      | some x, none => some x
      | none, y => y) :: treeLevel op r
  | l => l

/-- A NaN code as the canonical NaN of its format (R34). -/
def canonical (F : Fmt) (x : Nat) : Nat := if (F.decode x).isNan then F.nan else x

def treeSum (F : Fmt) (xs : List (Option Nat)) : Nat :=
  let op := addRne F
  let l := treeLevel op (treeLevel op (treeLevel op (treeLevel op (treeLevel op xs))))
  match l with
  | some x :: _ => canonical F x
  | _ => 0

/-- minimumNumber or maximumNumber of two codes, as a code; two NaNs give the canonical NaN (R53, R108). -/
def minMaxCode (F : Fmt) (isMax : Bool) (a b : Nat) : Nat :=
  let x := F.decode a
  let y := F.decode b
  roundRne F (if isMax then x.maxNum y else x.minNum y)

/-- Whether a code of the result format is what an FP32 maximum records: exact, or rounded toward +∞ (R47). -/
def recordMax (x : Val) : W32 :=
  match x with
  | .nan | .inf _ => 0x7F800000
  | .fin _ m e =>
    if m == 0 then 0
    else
      let (k, q, ovf) := roundGrid fp32 2 0 false m e
      if ovf then 0x7F800000 else BitVec.ofNat 32 (fp32.encode false k q)

/-- FMT_MAX by format code (R47). -/
def fmtMax : Nat → Option Val
  | 1 => some (.fin false 448 0)
  | 2 => some (.fin false 57344 0)
  | 3 => some (.fin false 6 0)
  | 4 => some (.fin false 2 0)
  | 5 => some (.fin false 127 0)
  | 6 => some (.fin false 255 0)
  | 7 => some (.fin false 65504 0)
  | 8 => some (.fin false 255 120)
  | _ => none

/-- floor(log2 (a / b)) of positive finite values. -/
def floorLog2Quot (a b : Val) : Int :=
  match a.div b with
  | .fin _ m e => log2Val m e
  | _ => 0

/-- The derived scale exponent of a maximum M for a format (R47); M = 0 or no entry gives scale 1. -/
def derivedScale (fmt : Nat) (M : W32) : W32 :=
  match fmtMax fmt with
  | none => 0x3F800000
  | some mx =>
    match f32 M with
    | .inf _ | .nan => BitVec.ofNat 32 (roundRne fp32 (.fin false 1 (-127)))
    | .fin _ 0 _ => 0x3F800000
    | v => BitVec.ofNat 32 (roundRne fp32 (.fin false 1 (min (max (floorLog2Quot mx v) (-127)) 127)))

end Sys2Proof.Machine
end

