-- ==== Sys2Proof/Machine/State.lean ====
section
/-! DEFINITION. The state of one Yarrin Y8 package as plain data: the package, its dies, cores, teams, waves and
threads, the caches and memories, the copy engines, matrix arrays, carrels, communicators and host sessions.
Widths and reset values are those of INVENTORY.md. -/

namespace Sys2Proof.Machine

/-! ## Threads -/

/-- The clause a thread stands inside: its header's address, how many of its words are still to issue, and the
header's flag fields (R16, R20). -/
structure ClauseCtx where
  hdr : VA
  left : Nat
  flagA : BitVec 4
  flagB : BitVec 4
  deriving DecidableEq, Repr, Inhabited

/-- Why a thread is blocked (R128). -/
inductive Block where
  /-- not blocked -/
  | none
  /-- its header's WAIT flags (R22) -/
  | flags (mask : BitVec 12)
  /-- a flag it would mark counts 63 (R20) -/
  | flagFull (flag : Nat)
  /-- at a JWAIT that names the mask (R132) -/
  | jwait (mask : Nat)
  /-- at a barrier wait with its token (R155) -/
  | barrier (bar : Nat) (token : W16)
  /-- at a BART, with its predicate destination and the time it issued (R155) -/
  | bart (bar : Nat) (token : W16) (d : Opnd) (since : Nat)
  /-- waits for a reform bin (R137) -/
  | reform
  /-- filed in a bin or member of a reformed group (R137) -/
  | filed
  /-- at a REJOIN (R140) -/
  | rejoin
  /-- sleeps until the time (R103) -/
  | sleep (til : Nat)
  /-- at an LMWAIT, with its destination and limit, 0 for none (R205) -/
  | lmwait (d : Opnd) (since limit : Nat)
  /-- its word waits: a record of `Core.waits` (posts, slips, queues, rings, claims, fences, matrix, traps) -/
  | word (bid : Nat)
  /-- its RET waits for a fill of the private line (R179) -/
  | fill (mse : Nat)
  deriving DecidableEq, Repr, Inhabited

/-- The local monitor of a thread: not armed, armed on a 128-byte scratchpad line, or fired (R204). -/
inductive LMon where
  | off
  | armed (line : Nat)
  | fired
  deriving DecidableEq, Repr, Inhabited

/-- The monitor registers of a thread (R331). -/
structure MonRegs where
  origin : Bool
  cause : W32
  mepc : W32
  mhdr : W32
  mtag : W32
  word : W96
  mcd : W32
  group : W32
  scr : Tbl W32
  deriving DecidableEq, Repr, Inhabited

/-- A thread (R10, R127). Registers that nothing has written read 0. -/
structure Lane where
  pc : VA
  clause : Option ClauseCtx
  v : Tbl W32
  /-- p0 to p6 in bits 0 to 6; p7 reads true whatever bit 7 holds -/
  p : BitVec 8
  /-- how many outstanding instructions mark each flag (R20) -/
  flags : Tbl Nat
  /-- the rounding generator G (R40) -/
  g : W32
  /-- the call depth CD (R99) -/
  cd : Nat
  exited : Bool
  block : Block
  /-- clauses issued by the wave since this lane last issued (R129) -/
  age : Nat
  /-- the same of the reformed group that the thread is a member of (R129, R138) -/
  groupAge : Nat
  /-- it has issued no word yet: it stands at its kernel's entry (R29, R160) -/
  atEntry : Bool
  /-- 1 in monitor mode (R329) -/
  mon : Bool
  mregs : MonRegs
  lmon : LMon
  /-- the thread is in its team's reform region (R136) -/
  inRegion : Bool
  /-- the scalar registers as they stood when the thread entered the region (R139) -/
  regionS : Tbl W32
  /-- vector registers that hold poison (R192) -/
  poison : List Nat
  deriving DecidableEq, Repr, Inhabited

/-- A lane of a wave slot. -/
structure LaneRef where
  slot : Nat
  lane : Nat
  deriving DecidableEq, Repr, Inhabited

/-- The episode mailbox a queue register is bound to (R268). -/
structure QBind where
  die : Nat
  carrel : Nat
  gen : Nat
  push : Bool
  deriving DecidableEq, Repr, Inhabited

/-- A wave in its slot (R125 to R127). -/
structure Wave where
  team : Nat
  number : Nat
  lanes : Tbl Lane
  s : Tbl W32
  sPoison : List Nat
  masks : Tbl W32
  q : Tbl QBind
  /-- the lanes of the current issue group; empty at a group boundary (R129) -/
  group : List Nat
  /-- the wave's rejection count (R178) -/
  rejects : Nat
  credit : Nat
  idle : Nat
  /-- one more than the ac cycle in which a YIELD takes it out of the choice, 0 for none (R103) -/
  yielded : Nat
  /-- base of the wave's private area (R175) -/
  privBase : VA
  /-- the wave was restored, so its private lines count as written back (R176) -/
  restored : Bool
  /-- private lines written back since admission (R176) -/
  privSaved : List Nat
  deriving DecidableEq, Repr, Inhabited

/-! ## Long-latency results and waiting words -/

/-- A destination of a long-latency instruction with the value it will write (R19, R26). -/
inductive Dest where
  | v (r : LaneRef) (reg : Nat) (x : W32)
  | s (slot reg : Nat) (x : W32)
  | p (r : LaneRef) (i : Nat) (b : Bool)
  deriving DecidableEq, Repr, Inhabited

/-- The shape in which the bytes of a load reach its registers. -/
inductive LoadShape where
  /-- little-endian words to consecutive vector registers -/
  | words (reg : Nat)
  /-- one byte or halfword, extended -/
  | ext (reg : Opnd) (bits : Nat) (signed : Bool)
  /-- words to a value destination or pair -/
  | opnd (d : Opnd)
  /-- words to consecutive scalar registers -/
  | scalars (reg : Nat)
  deriving DecidableEq, Repr, Inhabited

/-- A load whose bytes are still arriving from fills: each byte with its global address, its value once known
(R173), and the contributing lanes' scalar writer rule left to `writer` (R131). -/
structure LoadWait where
  r : LaneRef
  shape : LoadShape
  bytes : List (Nat × Option Byte)
  /-- this lane's value goes to a scalar destination -/
  writer : Bool
  /-- the address space of the lines -/
  asid : Nat
  poison : Bool
  deriving DecidableEq, Repr, Inhabited

/-- An RDLANE whose source has still to be sampled (R95). -/
structure RdSample where
  r : LaneRef
  d : Opnd
  src : LaneRef
  reg : Nat
  writer : Bool
  deriving DecidableEq, Repr, Inhabited

/-- An outstanding long-latency instruction of a core (R19, R20). -/
structure Pend where
  id : Nat
  /-- the lanes that issued it -/
  lanes : List LaneRef
  dests : List Dest
  /-- the flags it marks -/
  marks : List (LaneRef × Nat)
  loads : List LoadWait
  samples : List RdSample
  /-- local accesses of this instruction that are still waiting -/
  held : Nat
  deriving DecidableEq, Repr, Inhabited

/-- One local access of one lane, with its original address and data (R179, R193, R194). -/
structure Access where
  r : LaneRef
  /-- 0 load, 1 store, 2 atomic, 3 LMON -/
  kind : Nat
  /-- 0 scratchpad, 1 window or private, 2 folio -/
  space : Nat
  addr : Nat
  /-- the global addresses of the bytes, for space 1, formed at issue -/
  glob : List Nat
  size : Nat
  data : List Byte
  shape : LoadShape
  writer : Bool
  /-- the pending instruction it belongs to, 0 for none -/
  pend : Nat
  /-- the atomic's opcode, or the LMON condition -/
  op : Nat
  /-- the atomic's second operand -/
  cmp : List Byte
  d : Opnd
  deriving DecidableEq, Repr, Inhabited

/-- A matrix operation (R276) with its place in the queue. -/
structure MatOp where
  id : Nat
  team : Nat
  dw0 : W64
  dw1 : W64
  /-- 1 to 4 by R276; 5 ACCSAVE, 6 ACCLOAD (R347) -/
  op : Nat
  slip : Option Nat
  /-- the command whose follow-on it is -/
  cmd : Option Nat
  gen : W32
  started : Bool
  /-- global address of ACCSAVE and ACCLOAD -/
  addr : Nat
  /-- its claims hold from here in the core order: its append, or for a follow-on the post (R279, R285) -/
  stamp : Nat
  deriving DecidableEq, Repr, Inhabited

/-- What a lane records when it enters the monitor (R329, R331). -/
structure TrapEntry where
  r : LaneRef
  origin : Bool
  tag : W32
  mepc : W32
  mhdr : W32
  deriving DecidableEq, Repr, Inhabited

/-- What a blocked word waits for. -/
inductive WaitKind where
  /-- a CPOST whose record has been read: its checks are made, it waits for room (R257) -/
  | post (cmd : Nat) (cls : Nat)
  /-- a CPOST, MCMD or EPOPEN whose record lies under a destination claim (R194) -/
  | record (addr len : Nat)
  /-- SWAITANY, SWAITALL, STRY (R264): the mask, all or any, clear on return, bounded -/
  | slips (mask : W64) (all clr bounded : Bool)
  /-- a QPUSH on a full mailbox, with its entry (R269) -/
  | queuePush (die carrel : Nat) (entry : List Byte)
  /-- a QPOP or QPEEK of an empty mailbox, with its destination register (R269) -/
  | queuePop (die carrel reg : Nat) (peek : Bool)
  /-- a queue operand of another instruction, whose mailbox is empty (R270) -/
  | queueSrc (die carrel : Nat)
  /-- the entry that such an operand has taken: its lanes issue the word again with it (R270, R318) -/
  | granted (entry : List Byte)
  /-- RINGWAIT (R267) -/
  | ring (n limit : Nat)
  /-- lanes whose accesses wait on a landing claim (R194) -/
  | claim (accs : List Access)
  /-- lanes parked on an absent page (R179), with the docket entry -/
  | parked (accs : List Access) (asid line : Nat) (dock : Option Nat)
  /-- a FENCE, WBW, INVW or DISW whose write-backs a fault holds (R202, R203) -/
  | fence (lines : List Nat) (scope : Nat) (acq : Bool)
  /-- a release of folios or tiles (R272) -/
  | release (folios : List Nat) (tiles : List Nat)
  /-- a matrix operation that waits for queue room (R278), and whether its lanes wait for its completion too (R347) -/
  | matrix (op : MatOp) (stay : Bool)
  /-- an ACCSAVE or ACCLOAD in the queue, until it completes (R347) -/
  | matDone (op : Nat)
  /-- an MFENCE (R289) -/
  | mfence (ops : List Nat)
  /-- the element accesses of an ACCRD or ACCWR at its place of the queue order, behind these operations (R286); its
  lanes are not blocked -/
  | accum (ops : List Nat) (accs : List Access)
  /-- a DOCKPOP.wait (R343) -/
  | dock (addr : Nat)
  /-- a LEASEQ.wait (R351) -/
  | lease (til : W64)
  /-- an EPCLOSE whose scrub is in progress (R318) -/
  | close (die carrel : Nat)
  /-- a trap that waits for outstanding long-latency instructions (R27, R329) -/
  | trap (cause : Nat) (word : W96) (group : W32) (entries : List TrapEntry)
  deriving DecidableEq, Repr, Inhabited

/-- A blocked word of a core: its lanes, its destination and its time of issue. -/
structure Wait where
  bid : Nat
  kind : WaitKind
  d : Opnd
  pc : Opnd
  lanes : List LaneRef
  since : Nat
  deriving DecidableEq, Repr, Inhabited

/-- A reformed group (R138). -/
structure RGroup where
  id : Nat
  team : Nat
  members : List LaneRef
  /-- members that have refiled, reached REJOIN or exited -/
  left : List LaneRef
  quad : Nat
  group : List LaneRef
  credit : Nat
  idle : Nat
  /-- one more than the ac cycle in which a YIELD takes it out of the choice, 0 for none (R103, R165) -/
  yielded : Nat
  deriving DecidableEq, Repr, Inhabited

/-! ## Teams and launches -/

/-- A window of a team (R171). -/
structure Window where
  base : Nat
  len : Nat
  wr : Bool
  deriving DecidableEq, Repr, Inhabited

/-- A slip (R255). -/
inductive Slip where
  | clear
  | pending
  | set
  deriving DecidableEq, Repr, Inhabited

/-- A barrier object (R142, R154). -/
structure Barrier where
  expect : Nat
  arrived : Nat
  phase : W16
  arrivedBits : List Nat
  departed : List Nat
  gone : List Nat
  deriving DecidableEq, Repr, Inhabited

/-- The events that have reached a barrier object in the current cycle (R156): BARINIT values with the quadrant and wave
slot of their words, arrivals and departures by thread number. Waits need no entry. -/
structure BarBatch where
  inits : List (Nat × Nat × Nat)
  arrivals : List Nat
  departs : List Nat
  deriving DecidableEq, Repr, Inhabited

/-- A delayed-scaling ring (R47): its FP32 entries, write position and count. -/
structure ScaleRing where
  entries : Tbl W32
  pos : Nat
  count : Nat
  deriving DecidableEq, Repr, Inhabited

/-- A completion ring (R265), with the SCOPE of each unconsumed entry (R267). -/
structure CRing where
  base : Nat
  size : Nat
  head : W32
  tail : W32
  scopes : List Nat
  deriving DecidableEq, Repr, Inhabited

/-- A weight plane (R273, R280): the format code, MX, the folios it was latched from (none for NONE quarters),
and the column data: key 4096 * column + k holds the element's code, the block scales and column scales beside. -/
structure Plane where
  fmt : Nat
  mx : Bool
  folios : List (Option Nat)
  elems : Tbl Nat
  blks : Tbl Byte
  cols : Tbl Byte
  deriving DecidableEq, Repr, Inhabited

/-- An event counter (R356). -/
structure Counter where
  value : W64
  event : Nat
  en : Bool
  user : Bool
  deriving DecidableEq, Repr, Inhabited

/-- The declarations and placement fields of a launch packet (R159). -/
structure Packet where
  codeBase : Nat
  codeLen : Nat
  entry : Nat
  argBase : Nat
  argLen : Nat
  dataBase : Nat
  tx : Nat
  ty : Nat
  tz : Nat
  gx : Nat
  gy : Nat
  gz : Nat
  regs : Nat
  sregs : Nat
  scratch : Nat
  windows : Nat
  priv : Nat
  slips : Nat
  folios : Nat
  accums : Nat
  rcb : Nat
  dieset : BitVec 8
  dist : Nat
  pin : Nat
  steal : Nat
  asid : Nat
  deriving DecidableEq, Repr, Inhabited

/-- An accepted launch (R161): its identifier, packet and argument snapshot, and each die's admission cursor. -/
structure Launch where
  id : Nat
  pkt : Packet
  args : List W32
  /-- the words of the argument block that were read poisoned (R192) -/
  argPoison : List Nat
  /-- the next ordinal each die has still to admit or deal, by die -/
  next : Tbl Nat
  /-- how many teams each die has dealt to queues (R163) -/
  dealt : Tbl Nat
  /-- admits no further team (R334) -/
  closed : Bool
  /-- teams retired or terminated so far -/
  done : Nat
  ended : Bool
  /-- the session or command that offered it: 0 a session, 1 a command -/
  session : Option Nat
  deriving DecidableEq, Repr, Inhabited

/-- Where a team is in its life. -/
inductive TeamStatus where
  | resident
  | frozen
  | saved
  | terminated
  | retired
  deriving DecidableEq, Repr, Inhabited

/-- A team (R124, R127). -/
structure Team where
  launch : Nat
  ordinal : Nat
  core : Nat
  tslot : Nat
  status : TeamStatus
  /-- wave slots in wave order while resident -/
  slots : List Nat
  nwaves : Nat
  /-- waves retired -/
  retiredWaves : List Nat
  scratch : Mem
  scratchPoison : List Nat
  blocks : List Nat
  windows : Tbl Window
  /-- windows set in the current cycle, for the accesses of later ones (R200) -/
  newWindows : Tbl Window
  slips : Tbl Slip
  /-- the SCOPE with which each SET slip was set (R213) -/
  slipScope : Tbl Nat
  barriers : Tbl Barrier
  /-- the batches of the current cycle, by barrier object, and the threads that exit in it (R156) -/
  batch : Tbl BarBatch
  exits : List Nat
  srings : Tbl ScaleRing
  crings : Tbl CRing
  folios : List Nat
  tiles : List Nat
  front : Plane
  back : Plane
  counters : Tbl Counter
  /-- a reform region is open (R136) -/
  region : Bool
  /-- admission order on the die, for the choice of a pre-emption victim (R345) -/
  admitSeq : Nat
  /-- waves of a saved team, by wave number -/
  savedWaves : Tbl Wave
  /-- where its part of the save area begins, from SAVEBASE, and its length (R345) -/
  saveAt : Nat
  saveSize : Nat
  /-- blocked words of a saved team, its outstanding words that wait for parked lanes, and its reformed groups -/
  savedWaits : List Wait
  savedPends : List Pend
  savedGroups : List RGroup
  /-- its matrix operations that had not started, in queue order, and where the save area holds the tiles spilled (R345, R346) -/
  savedOps : List MatOp
  savedTiles : Tbl Nat
  /-- poison that its saved state carries: (0, folio line), (1, accumulator line), (2, private line) (R192, R345) -/
  savedPoison : List (Nat × Nat)
  /-- a termination report that waits for docket space holds the resources (R342) -/
  reportHeld : Bool
  /-- the docket ID of its FREEZE entry while it is frozen (R353) -/
  freeze : Option Nat
  /-- it is being pre-empted: its waves begin no clause (R345) -/
  stopping : Bool
  deriving DecidableEq, Repr, Inhabited

/-! ## Caches -/

/-- A line of a window cache (key: address space and line number) or of a die's L2 as a loan line: the bytes it
holds by offset, which of them are dirty, the teams that dirtied it, and its state (R172, R173, R188, R180). -/
structure CLine where
  asid : Nat
  line : Nat
  way : Nat
  bytes : Mem
  valid : List Nat
  dirty : List Nat
  writers : List Nat
  lastWriter : Nat
  priv : Bool
  /-- its write-back is held by a fault, with the docket entry (R180) -/
  held : Option Nat
  poison : Bool
  deriving DecidableEq, Repr, Inhabited

/-- A miss-status entry (R177). -/
structure Mse where
  id : Nat
  asid : Nat
  line : Nat
  slot : Nat
  /-- loads that wait for the fill -/
  waiters : List Access
  /-- started by PREFW: a fault is not reported (R201) -/
  prefetch : Bool
  deriving DecidableEq, Repr, Inhabited

/-- A landing claim of a core (R194, R260): a run of units, for a command (or a matrix operation). -/
structure Claim where
  owner : Nat
  matrix : Bool
  team : Nat
  dest : Bool
  folio : Bool
  /-- the units claimed, each with the bytes (by address) still to land or to be read; none left means landed or read -/
  first : Nat
  last : Nat
  /-- units not yet landed or read -/
  waiting : List Nat
  /-- a latch claim (R274) -/
  latch : Bool
  /-- the place of the core order from which a claim of the matrix array holds (R279, R285) -/
  stamp : Nat
  deriving DecidableEq, Repr, Inhabited

/-! ## Cores -/

/-- A reform bin in use (R137). -/
structure Bin where
  team : Nat
  key : VA
  members : List LaneRef
  opened : Nat
  deriving DecidableEq, Repr, Inhabited

/-- What is free on a core for a team: team slots, wave slots, bytes of the vector file, slips, folios, tiles and scratchpad blocks
(R163, R164). -/
structure Footprint where
  teams : Nat
  waves : Nat
  vec : Nat
  slips : Nat
  folios : Nat
  accums : Nat
  blocks : Nat
  deriving DecidableEq, Repr, Inhabited

/-- A steal request that waits for its answer: its victim, its STEAL, and the thief's free footprint (R164). -/
structure StealReq where
  victim : Nat
  mode : Nat
  free : Footprint
  deriving DecidableEq, Repr, Inhabited

/-- A core (R163, R167, R170, R177, R181, R271, R278). -/
structure Core where
  tslots : Tbl Nat
  waves : Tbl Wave
  pends : List Pend
  waits : List Wait
  nextId : Nat
  /-- scratchpad-pool ways and blocks taken (R170, R181) -/
  poolWays : List Nat
  blocks : List Nat
  /-- ways leaving the window cache, and the team they are for (R182) -/
  carve : Option (List Nat)
  lines : List CLine
  mses : List Mse
  resq : List Nat
  /-- an MSE kept for a wave of the reservation queue (R178) -/
  mseKept : List Nat
  bins : Tbl Bin
  /-- threads waiting for a bin, with the cycle in which they began to wait -/
  reformWait : List (Nat × LaneRef)
  groups : List RGroup
  folio : Mem
  folioPoison : List Nat
  folioZero : List Nat
  tiles : Tbl (Tbl W32)
  tilePoison : List Nat
  tileZero : List Nat
  /-- tiles left in place under a pre-empted team's tag (R346) -/
  tileTag : Tbl Nat
  /-- the team whose planes are loaded (R273) -/
  planeTeam : Option Nat
  mat : List MatOp
  queues : Tbl (List Nat)
  seq : Tbl Nat
  claims : List Claim
  teamQueue : List (Nat × Nat)
  lfsr : W16
  stealSent : Option StealReq
  stealUntil : Nat
  ptr : Tbl Nat
  /-- the cycle after the one in which each quadrant last issued a word (R165) -/
  issued : Tbl Nat
  deriving DecidableEq, Repr, Inhabited

/-! ## Copy commands -/

/-- A leased translation (R350). -/
structure Lease where
  die : Nat
  asid : Nat
  vpage : Nat
  leaf : W64
  level : Nat
  at_ : Nat
  deriving DecidableEq, Repr, Inhabited

/-- Where a command stands (R262). -/
inductive CmdState where
  | blocked
  | queued
  | running
  | suspended
  | armed
  | following
  | recording
  | malformed
  | completed
  | gone
  deriving DecidableEq, Repr, Inhabited

/-- A copy command, a CFENCE or a malformed record (R225 to R257). -/
structure Cmd where
  kind : Nat
  /-- the 32 doublewords of the record -/
  dws : List W64
  ccrAddr : Nat
  team : Nat
  core : Nat
  cls : Nat
  seq : Nat
  tslot : Nat
  slip : Option Nat
  state : CmdState
  /-- its context: 8 times the engine's number, and the context's on it (R167) -/
  engine : Option Nat
  /-- elements performed in order, those performed beyond, and the final count (R233) -/
  els : Nat
  ahead : List Nat
  limit : Option Nat
  bytes : Nat
  padded : Nat
  sibfail : Nat
  status : Nat
  fault : Nat
  started : Nat
  scale : W32
  gen : W32
  /-- the generator state taken at the post, which the follow-on keeps (R41, R282) -/
  postGen : W32
  maxAbs : W32
  /-- table base, generation and the descriptor's physical address (R382) -/
  table : Option (Nat × Nat × Nat)
  value : W64
  /-- docket entry of its fault -/
  dock : Option Nat
  /-- writes to peers not yet acknowledged, by element -/
  unacked : List Nat
  /-- peer element data that has arrived -/
  peerData : Tbl (List Byte)
  /-- source codes of elements that are read and not yet written (R208) -/
  taken : Tbl Nat
  /-- vectors its stored sibling writes produced, by cell (R302) -/
  sibVecs : Tbl (List W16)
  sibStatus : Nat
  /-- the number of the matrix operation that it handed over (R285) -/
  follow : Option Nat
  /-- the monitor posted it (R310) -/
  mon : Bool
  /-- collective sequence number taken, and whether its digests matched -/
  collSeq : Option W32
  collGo : Bool
  /-- CYCLES at an earlier save (R344) -/
  cycles0 : Nat
  /-- when an armed WATCH armed (R244), or a malformed record was posted (R231) -/
  armedAt : Nat
  /-- the home die whose slice holds an armed WATCH (R244) -/
  watchDie : Nat
  /-- the ranks of the other members of its collective that are suspended (R378) -/
  halts : List Nat
  /-- translations that elements below a performed one have passed (R336) -/
  passed : List Lease
  /-- scale bytes of the MX blocks begun, by block (R46, R237) -/
  blkScale : Tbl Nat
  /-- the version block read at start (R382) -/
  block : List W64
  /-- a member's chunks that the members of the subgroup have read, by reader and chunk, and reads of other packages that wait for it
  to go on (R373, R375, R378) -/
  given : List Nat
  /-- the bytes read so far of the chunks that it is giving, by reader and chunk -/
  reading : Tbl (List Byte)
  chunkReads : List PeerRead
  /-- the first accession entry that its start appended (R215) -/
  accFirst : Option Nat
  /-- the ec cycle after that in which its next element was last found waiting, in which it takes no share of its engine (R167) -/
  stall : Nat
  /-- its claims on a cluster peer are taken (R249, R260) -/
  peerClaimed : Bool
  /-- its start is complete: its version block is read (R382) -/
  ready : Bool
  deriving DecidableEq, Repr, Inhabited

/-! ## Carrels -/

/-- The life of an episode (R315). -/
inductive EpState where
  | free
  | running
  | ended
  deriving DecidableEq, Repr, Inhabited

/-- A carrel: its hart and the episode it holds (R312 to R328). -/
structure Carrel where
  gen : BitVec 15
  state : EpState
  cause : Nat
  launch : Nat
  /-- the opening team's RCB and core die, with the record of R314 -/
  arena : Nat
  arenaLen : Nat
  keyslot : Nat
  image : Nat
  imageLen : Nat
  entry : Nat
  deadline : Nat
  budget : Nat
  arg : W64
  stateless : Bool
  asid : Nat
  rcb : Nat
  startVer : W16
  /-- ACTIVE n, or IDLE -/
  active : Option W32
  /-- POLICY of the action taken last -/
  activePol : W16
  lastStep : W32
  lastPol : W16
  actions : List (List Byte)
  nextAction : W32
  obs : List (List Byte)
  heldObs : Option (List Byte)
  openedAt : Nat
  /-- step timer: elapsed ec cycles, and the time from which it runs -/
  timer : Nat
  timerFrom : Option Nat
  /-- hart state -/
  pc : W64
  x : Tbl W64
  fr : Tbl W64
  fcsr : BitVec 8
  vr : Tbl (BitVec 256)
  vl : Nat
  vtype : W64
  vstart : Nat
  vcsr : BitVec 3
  instret : W64
  /-- the bytes that LR reserved: their address and what it read, and where they lie in HBM -/
  reservation : Option (Nat × List Byte)
  resPa : Option Nat
  sram : Mem
  /-- cached arena lines of the carrel core are not kept: R221 confines them to the die's loan lines -/
  waiting : Bool
  susp : Option Nat
  scrub : Option Nat
  deriving DecidableEq, Repr, Inhabited

/-! ## Dies, contexts and the fabric -/

/-- An annex record of a cell (R304), keyed by the cell's physical address: siblings in sibling order, each with
its value, vector and writer. -/
structure Sib where
  value : List Byte
  vec : List W16
  writer : Option Nat
  deriving DecidableEq, Repr, Inhabited

structure Annex where
  pa : Nat
  /-- address of its table record -/
  table : Nat
  sibs : List Sib
  deriving DecidableEq, Repr, Inhabited

/-- What a member die keeps of a communicator slot (R368, R371, R379). -/
structure CommDie where
  nextSeq : W32
  closed : W32
  anyClosed : Bool
  pendingClose : Bool
  last : Nat
  digests : List (Nat × Digest)
  deriving DecidableEq, Repr, Inhabited

/-- A page walk (R349): the team whose counters count it, if any, its requester (a command, a core's window cache, or a carrel
thread: 0, 1 or 2, and its number), and the page of an address space. -/
structure Walk where
  team : Option Nat
  who : Nat × Nat
  asid : Nat
  page : Nat
  deriving DecidableEq, Repr, Inhabited

/-- A compute die. -/
structure Die where
  loans : List CLine
  /-- the ac cycle after that of the die's last admission, which admits at most one team a cycle (R163) -/
  lastAdmit : Nat
  rr : Tbl Nat
  /-- by engine and class: the context that the engine served last, and the bytes of its turn (R167) -/
  shares : Tbl (Nat × Nat)
  annex : List Annex
  comms : Tbl CommDie
  carrels : Tbl Carrel
  /-- walks that wait, oldest first, and walks in flight (R349) -/
  walkq : List Walk
  walking : List Walk
  deriving DecidableEq, Repr, Inhabited

/-- A communicator registered in a slot (R367). -/
structure Comm where
  ctx : Nat
  asid : Nat
  va : Nat
  desc : List W64
  members : List (Nat × Nat)
  deriving DecidableEq, Repr, Inhabited

/-- A context, keyed by the address of its level-1 RCB. -/
structure Ctx where
  session : Option Nat
  accHead : Nat
  rel : Tbl Nat
  acq : Tbl Nat
  /-- dies that received window write-backs of the context since they last returned every loan line for one (R215) -/
  wbSince : List Nat
  /-- dies that received window write-backs since their last .pkg release, confined or not, which an entry tells (R215, R221) -/
  wbNew : List Nat
  preempted : Bool
  /-- faults that found the docket full, each with the team it is of, 0 for none (R342) -/
  held : List (Nat × List Byte)
  deriving DecidableEq, Repr, Inhabited

/-- The contract buckets of an RCB on a die (R352), in bytes and commands scaled by 2100 (ec cycles per microsecond). -/
structure Bucket where
  bytes : Nat
  cmds : Nat
  at_ : Nat
  deriving DecidableEq, Repr, Inhabited

/-- A read of a peer or a write notice that awaits its answer, and requests answered (R362). -/
structure PeerOut where
  pkg : Nat
  port : Nat
  cmd : Nat
  elem : Nat
  /-- the command's class (R365) -/
  cls : Nat
  asid : Nat
  va : Nat
  len : Nat
  kind : PeerReadKind
  /-- the bytes of a write, which the peer reads once it has the notice -/
  data : List Byte
  /-- what a write notice asks of the home; none for a read -/
  write : Option PeerWriteKind
  deriving DecidableEq, Repr, Inhabited

/-- What the package sends to other packages and hosts: plain data that the outside reads. -/
inductive Out where
  /-- a read request, or a write notice without its bytes (R362) -/
  | peer (r : PeerOut)
  /-- the read of a notice's bytes from the engine that sent it, with the number that the answer carries (R362) -/
  | pull (pkg tag id : Nat)
  | peerData (pkg tag : Nat) (data : List Byte)
  | peerAck (pkg tag : Nat) (data : List Byte)
  | peerFault (pkg tag : Nat) (f : PeerFault)
  | digest (pkg die slot : Nat) (dg : Digest)
  | closing (pkg die slot : Nat) (seq : W32)
  | abort (pkg die slot : Nat) (seq : W32)
  /-- a datagram to a host: its session, SEQ, type and payload (R385, R387) -/
  | host (session seq ty : Nat) (payload : List Byte)
  deriving DecidableEq, Repr, Inhabited

/-- A link port and its sequencer (R363, R366, R376). -/
structure Port where
  /-- what waits to be sent, by virtual channel (R365) -/
  vcs : Tbl (List Out)
  /-- flits of the first message of each channel that have left (R366) -/
  flits : Tbl Nat
  /-- the chunk that the sequencer has begun and not finished: its command and number (R376) -/
  moving : Option (Nat × Nat)
  /-- the virtual channel served last of 1 and 4 to 15 (R366) -/
  lastVc : Nat
  /-- the communicator slot served last (R376) -/
  lastSlot : Nat
  frozen : Bool
  replays : Nat
  deriving DecidableEq, Repr, Inhabited

/-- An operation of a host session (R387). -/
inductive HostOp where
  | write (asid : Nat) (va : VA) (data : List Byte)
  | read (asid : Nat) (va : VA) (len : Nat)
  | launch (packet : List W64)
  | register (r : RegItem)
  | preempt (ctx : Nat)
  | resume (ctx : Nat)
  | unfreeze (m : Master)
  | epoch (ctx idx : Nat)
  | clearOvf (ctx : Nat)
  | reset
  | close
  /-- a protocol-illegal datagram (R386) -/
  | illegal
  deriving DecidableEq, Repr, Inhabited

/-- An operation of a session that waits for other packages: the lines on TARGET 1 pages that are still to be answered, the bytes
read so far, by line, and whether an answer was a fault (R361, R387). -/
structure HostWait where
  seq : Nat
  write : Bool
  asid : Nat
  va : Nat
  len : Nat
  left : List Nat
  got : Tbl (List Byte)
  bad : Bool
  deriving DecidableEq, Repr, Inhabited

/-- A host session (R386). -/
structure Session where
  opened : Bool
  startedAt : Nat
  lastAt : Nat
  /-- the highest SEQ executed -/
  highest : Nat
  frozen : Bool
  /-- early datagrams, by SEQ (R386) -/
  held : List (Nat × HostOp)
  /-- the operation in progress, while it waits for other packages -/
  pending : Option HostWait
  /-- ENDs of launches that wait for the WRITE in progress (R387) -/
  late : List (List Byte)
  /-- the last SEQ that had arrived in order when the session was frozen: its WRITEs up to there are performed, its READs are
  discarded (R353) -/
  accepted : Nat
  txSeq : Nat
  /-- the report that carried its ephemeral key, and the host's public key (R386) -/
  report : Nat
  hostKey : List Byte
  deriving DecidableEq, Repr, Inhabited

/-- The life of the package (R391, R392). -/
inductive Power where
  | off
  | up
  /-- stopped by temperature, with the die -/
  | stopped (die : Nat)
  deriving DecidableEq, Repr, Inhabited

/-! ## The whole -/

/-- What acts next. -/
inductive Act where
  /-- quadrant `q` of the core offers one word (R165) -/
  | quad (core q : Nat)
  /-- the carrel's hart executes one instruction -/
  | carrel (die c : Nat)
  /-- a host stores bytes to its memory (R207) -/
  | hostStore (addr : Nat) (bytes : List Byte)
  /-- an event of the table -/
  | event (i : Instr)
  deriving DecidableEq, Repr, Inhabited

/-- An entry of the agenda: ec cycles that pass, then what acts. -/
structure Sched where
  dt : Nat
  act : Act
  deriving DecidableEq, Repr, Inhabited

/-- Who issues: the lanes of the issue group with their slot numbers (R129, R138, R146), and the wave slot of an
ordinary group or the id of a reformed group. -/
structure Cur where
  core : Nat
  slot : Nat
  reformed : Option Nat
  lanes : List (Nat × LaneRef)
  /-- the word being issued, as fetched (R331) -/
  word : W96
  deriving DecidableEq, Repr, Inhabited

structure State where
  power : Power
  /-- ec cycles since the release of package reset: the package cycle counter is half of it (R14) -/
  now : Nat
  /-- the model's own counter of free choices -/
  tick : Nat
  /-- the model's own record of what acts next: inputs and arbitration the manual leaves open -/
  agenda : List Sched
  /-- the model's own record of the order of events within a cycle: by kind, the cycle, the highest rank and the step of the last
  (R317, R341) -/
  order : Tbl (Nat × Nat × Nat)
  /-- an event of the current step came out of that order -/
  misordered : Bool
  cur : Option Cur
  /-- the carrel that executes, while one does -/
  curCarrel : Option (Nat × Nat)
  pkgNum : Nat
  linksUp : Bool
  /-- the carrel and the sequencer firmware were refused at boot, so their cores are held in reset (R389) -/
  carrelsHeld : Bool
  sequencersHeld : Bool
  hbm : Mem
  hbmPoison : List Nat
  /-- bytes of HBM beneath bytes that home slices hold dirty (R246) -/
  l2Dirty : Tbl Byte
  host : Mem
  cores : Tbl Core
  dies : Tbl Die
  launches : Tbl Launch
  nextLaunch : Nat
  teams : Tbl Team
  nextTeam : Nat
  admitSeq : Nat
  cmds : Tbl Cmd
  nextCmd : Nat
  /-- generations that commands saved by CSAVE still hold: team, ticket, descriptor, generation (R382) -/
  savedHolds : List (Nat × Nat × Nat × Nat)
  /-- started collectives whose command CSAVE has saved, by the number that the command had (R344, R378) -/
  savedColls : Tbl Cmd
  leases : List Lease
  /-- page-table roots by ASID: root physical address and owning context (R348, R387) -/
  roots : Tbl (Nat × Nat)
  ctxs : Tbl Ctx
  buckets : Tbl Bucket
  /-- key slots installed: the session that installed them (R388), and slots used once this boot -/
  keys : Tbl Nat
  keysUsed : List Nat
  /-- the key slot of a frame of HBM, and the context that it has it from (R388) -/
  frameKeys : Tbl (Nat × Nat)
  /-- RCBs that sessions have installed, by address: the session (R387) -/
  nodes : Tbl Nat
  comms : Tbl Comm
  ports : Tbl Port
  peerOut : List PeerOut
  /-- write notices whose bytes are being read, by the number of that read (R362) -/
  notices : Tbl PeerWrite
  /-- vectors that stored sibling writes of other packages' commands produced: package, command, cell (R302) -/
  peerVecs : List (Nat × Nat × Nat × List W16)
  out : List Out
  sessions : Tbl Session
  bootCount : Nat
  reports : Nat
  eccCorrected : Nat
  eccUncorrectable : Nat
  skipped : Nat
  skipping : Bool
  deriving DecidableEq, Repr

/-- Why a step stops. -/
inductive Fault where
  /-- exec of a Dolmin instruction where no issue group has been selected: raised by every Dolmin meaning when it is
  called outside a step. The hardware never does this. Safe: nothing is claimed of it. -/
  | noIssueGroup
  /-- exec of a carrel instruction where no carrel executes. The hardware never does this. Safe. -/
  | noCarrel
  /-- a code fetch whose page does not translate: R15 and R348 say that code is pinned and its walk never faults, so
  no such machine exists. Safe. -/
  | codeNotPinned
  deriving DecidableEq, Repr

/-- Why an instruction has no meaning here. -/
inductive Refusal where
  /-- an arm of the dispatch that is not written yet. Safe. -/
  | notModelled (mnemonic : String)
  deriving DecidableEq, Repr

/-- The LFSR seed of a core, by package core number (R164). -/
def lfsrSeed (core : Nat) : W16 := BitVec.ofNat 16 (core + 1)

/-- A core at package reset: ways 0 to 7 in the pool (R181), the LFSR seeded (R164). -/
def Core.reset (core : Nat) : Core :=
  { (default : Core) with nextId := 1, poolWays := [0, 1, 2, 3, 4, 5, 6, 7], lfsr := lfsrSeed core }

/-- The package once boot has ended (R391): nothing resident, no session, every byte of HBM zero, the clocks at 0. -/
def State.reset : State where
  power := .up
  now := 0
  tick := 0
  agenda := []
  order := []
  misordered := false
  cur := none
  curCarrel := none
  pkgNum := 0
  linksUp := false
  carrelsHeld := false
  sequencersHeld := false
  hbm := []
  hbmPoison := []
  l2Dirty := []
  host := []
  cores := []
  dies := []
  launches := []
  nextLaunch := 1
  teams := []
  nextTeam := 1
  admitSeq := 0
  cmds := []
  nextCmd := 1
  savedHolds := []
  savedColls := []
  leases := []
  roots := []
  ctxs := []
  buckets := []
  keys := []
  keysUsed := []
  frameKeys := []
  nodes := []
  comms := []
  ports := []
  peerOut := []
  notices := []
  peerVecs := []
  out := []
  sessions := []
  bootCount := 0
  reports := 0
  eccCorrected := 0
  eccUncorrectable := 0
  skipped := 0
  skipping := false

end Sys2Proof.Machine

namespace Sys2Proof.Config

/-- Which agent or input acts next, and when, where nothing stands in the agenda: the manual leaves open how agents and
the outside world interleave (R23). No value of it is known. -/
opaque arbiter : Nat → Machine.Sched

end Sys2Proof.Config
end

