-- ==== Sys2Proof/Machine/Table.lean ====
section
/-! DEFINITION. Sparse tables, byte memories and the parts of the state by name. -/

namespace Sys2Proof.Machine

/-! ## Tables -/

def tget {α : Type} : Tbl α → Nat → Option α
  | [], _ => none
  | (i, x) :: t, k => if i == k then some x else tget t k

def tgetD {α : Type} (t : Tbl α) (k : Nat) (d : α) : α := (tget t k).getD d

/-- Set one entry, keeping the keys strictly rising. -/
def tset {α : Type} : Tbl α → Nat → α → Tbl α
  | [], k, x => [(k, x)]
  | (i, y) :: t, k, x =>
    if k < i then (k, x) :: (i, y) :: t
    else if i == k then (k, x) :: t
    else (i, y) :: tset t k x

def tdel {α : Type} (t : Tbl α) (k : Nat) : Tbl α := t.filter fun e => e.1 != k

/-- Change an entry that is present. -/
def tmod {α : Type} (t : Tbl α) (k : Nat) (f : α → α) : Tbl α :=
  match tget t k with
  | some x => tset t k (f x)
  | none => t

/-! ## Memory -/

/-- The canonical form: strictly rising addresses from a bound, no zero byte listed. -/
def memWfFrom : Nat → Mem → Bool
  | _, [] => true
  | n, (a, b) :: m => decide (n ≤ a) && b != 0 && memWfFrom (a + 1) m

def Memory.wf (m : Mem) : Bool := memWfFrom 0 m

/-- The byte at an address; an unlisted byte reads zero. -/
def memRead : Mem → Nat → Byte
  | [], _ => 0
  | (a, b) :: m, k => if a == k then b else if k < a then 0 else memRead m k

/-- A cell in front of a memory, unless it holds zero. -/
def memCons (a : Nat) (b : Byte) (m : Mem) : Mem := if b == 0 then m else (a, b) :: m

/-- One byte written, in canonical form. -/
def memWrite : Mem → Nat → Byte → Mem
  | [], k, x => memCons k x []
  | (a, b) :: m, k, x =>
    if k < a then memCons k x ((a, b) :: m)
    else if a == k then memCons k x m
    else (a, b) :: memWrite m k x

def memReads (m : Mem) (a n : Nat) : List Byte := (List.range n).map fun i => memRead m (a + i)

def memWrites : Mem → Nat → List Byte → Mem
  | m, _, [] => m
  | m, a, b :: bs => memWrites (memWrite m a b) (a + 1) bs

/-- Bytes as a number, lowest first (R5). -/
def leNat : List Byte → Nat
  | [] => 0
  | b :: bs => b.toNat + 256 * leNat bs

/-- The `n` low bytes of a number, lowest first (R5). -/
def leBytes : Nat → Nat → List Byte
  | 0, _ => []
  | n + 1, x => BitVec.ofNat 8 x :: leBytes n (x / 256)

def w32s : List Byte → List W32
  | a :: b :: c :: d :: r => BitVec.ofNat 32 (leNat [a, b, c, d]) :: w32s r
  | [] => []
  | l => [BitVec.ofNat 32 (leNat l)]

/-- Eight bytes of a memory as a doubleword. -/
def memDw (m : Mem) (a : Nat) : W64 := BitVec.ofNat 64 (leNat (memReads m a 8))

def bits (x : W64) (lo n : Nat) : Nat := (x.toNat >>> lo) % 2 ^ n

/-! ## Parts of the state -/

def State.core (s : State) (c : Nat) : Core := (tget s.cores c).getD (Core.reset c)
def State.setCore (s : State) (c : Nat) (x : Core) : State := { s with cores := tset s.cores c x }
def State.onCore (s : State) (c : Nat) (f : Core → Core) : State := s.setCore c (f (s.core c))

def State.die (s : State) (d : Nat) : Die := tgetD s.dies d default
def State.onDie (s : State) (d : Nat) (f : Die → Die) : State := { s with dies := tset s.dies d (f (s.die d)) }

def State.team (s : State) (t : Nat) : Team := tgetD s.teams t default
def State.onTeam (s : State) (t : Nat) (f : Team → Team) : State := { s with teams := tset s.teams t (f (s.team t)) }

/-- The team is on its core: resident, or frozen there (R353). -/
def State.live (s : State) (t : Nat) : Bool := (s.team t).status == .resident || (s.team t).status == .frozen

def State.launch (s : State) (l : Nat) : Launch := tgetD s.launches l default
def State.onLaunch (s : State) (l : Nat) (f : Launch → Launch) : State :=
  { s with launches := tset s.launches l (f (s.launch l)) }

def State.cmd (s : State) (k : Nat) : Cmd := tgetD s.cmds k default
def State.onCmd (s : State) (k : Nat) (f : Cmd → Cmd) : State := { s with cmds := tset s.cmds k (f (s.cmd k)) }

def Core.wave (c : Core) (slot : Nat) : Wave := tgetD c.waves slot default
def Core.onWave (c : Core) (slot : Nat) (f : Wave → Wave) : Core := { c with waves := tset c.waves slot (f (c.wave slot)) }

def Wave.lane (w : Wave) (l : Nat) : Lane := tgetD w.lanes l default
def Wave.onLane (w : Wave) (l : Nat) (f : Lane → Lane) : Wave := { w with lanes := tset w.lanes l (f (w.lane l)) }

def State.wave (s : State) (c slot : Nat) : Wave := (s.core c).wave slot
def State.onWave (s : State) (c slot : Nat) (f : Wave → Wave) : State := s.onCore c fun k => k.onWave slot f

def State.lane (s : State) (c : Nat) (r : LaneRef) : Lane := (s.wave c r.slot).lane r.lane
def State.onLane (s : State) (c : Nat) (r : LaneRef) (f : Lane → Lane) : State :=
  s.onWave c r.slot fun w => w.onLane r.lane f

/-- The carrel of a die. -/
def State.carrel (s : State) (d c : Nat) : Carrel := tgetD (s.die d).carrels c default
def State.onCarrel (s : State) (d c : Nat) (f : Carrel → Carrel) : State :=
  s.onDie d fun x => { x with carrels := tset x.carrels c (f (tgetD x.carrels c default)) }

def State.ctx (s : State) (k : Nat) : Ctx := tgetD s.ctxs k default
def State.onCtx (s : State) (k : Nat) (f : Ctx → Ctx) : State := { s with ctxs := tset s.ctxs k (f (s.ctx k)) }

/-- Communicator state of a member die before anything has run (R368). -/
def CommDie.fresh : CommDie :=
  { (default : CommDie) with closed := 0xFFFFFFFF, last := 0xFFFF }

def State.commDie (s : State) (d slot : Nat) : CommDie := tgetD (s.die d).comms slot CommDie.fresh
def State.onCommDie (s : State) (d slot : Nat) (f : CommDie → CommDie) : State :=
  s.onDie d fun x => { x with comms := tset x.comms slot (f (tgetD x.comms slot CommDie.fresh)) }

/-! ## What the package sends -/

def State.session (s : State) (n : Nat) : Session := tgetD s.sessions n default
def State.onSession (s : State) (n : Nat) (f : Session → Session) : State :=
  { s with sessions := tset s.sessions n (f (s.session n)) }

/-- A datagram to a session's host under the next SEQ of that direction (R385, R386). -/
def State.tell (s : State) (n ty : Nat) (payload : List Byte) : State :=
  let s := s.onSession n fun x => { x with txSeq := x.txSeq + 1 }
  { s with out := s.out ++ [.host n (s.session n).txSeq ty payload] }

/-- The END of a launch to a session's host: it takes its place after a WRITE of the session that is in progress (R387). -/
def State.event (s : State) (n : Nat) (payload : List Byte) : State :=
  if ((s.session n).pending.map (·.write)) == some true then s.onSession n fun x => { x with late := x.late ++ [payload] }
  else s.tell n 0x21 payload

def State.port (s : State) (p : Nat) : Port := tgetD s.ports p default
def State.onPort (s : State) (p : Nat) (f : Port → Port) : State := { s with ports := tset s.ports p (f (s.port p)) }

/-- A message waits on a virtual channel of a port for a flit boundary (R363, R365, R366). -/
def State.send (s : State) (p vc : Nat) (m : Out) : State :=
  s.onPort p fun x => { x with vcs := tset x.vcs vc (tgetD x.vcs vc [] ++ [m]) }

/-! ## Event counters -/

/-- An enabled counter adds the count of its event (R356). -/
def countEv (s : State) (t ev n : Nat) : State :=
  if (s.team t).counters.any fun c => c.2.en && c.2.event == ev then
    s.onTeam t fun x => { x with counters := x.counters.map fun c =>
      if c.2.en && c.2.event == ev then (c.1, { c.2 with value := c.2.value + BitVec.ofNat 64 n }) else c }
  else s

/-- The package cycle counter (R14). -/
def State.cycles (s : State) : W64 := BitVec.ofNat 64 (s.now / 2)

/-- A free choice below `n`, told apart by a salt (the manual leaves it to the device). -/
def State.pick (s : State) (salt n : Nat) : Nat := if n == 0 then 0 else Config.free s.tick salt % n
def State.flip (s : State) (salt : Nat) : Bool := s.pick salt 2 == 1

/-- A fresh identifier of a core. -/
def State.freshId (s : State) (c : Nat) : Nat × State :=
  ((s.core c).nextId, s.onCore c fun k => { k with nextId := k.nextId + 1 })

/-- The die of a package core number (R164). -/
def dieOf (core : Nat) : Nat := core / 80

/-- Positions of an element list, counted from 0. -/
def withIndex {α : Type} (n : Nat) : List α → List (Nat × α)
  | [] => []
  | x :: xs => (n, x) :: withIndex (n + 1) xs

/-- The 128-byte lines of a run of bytes, and those of them that it covers whole. -/
def linesOf (a n : Nat) : List Nat := if n == 0 then [] else (List.range ((a + n - 1) / 128 + 1 - a / 128)).map (a / 128 + ·)
def wholeLines (a n : Nat) : List Nat := (linesOf a n).filter fun k => decide (a ≤ 128 * k) && decide (128 * k + 128 ≤ a + n)

/-- The poisoned lines that are left once a run of bytes has been written (R192). -/
def unpoison (ps : List Nat) (a n : Nat) : List Nat := ps.filter fun k => !(wholeLines a n).contains k

/-- Left fold over a list that threads the state. -/
def forEach {α : Type} (l : List α) (s : State) (f : State → α → State) : State := l.foldl f s

/-! ## The order of one cycle -/

/-- The first half of an ac cycle: words issue and the scheduler starts teams (R163, R256). -/
def State.firstHalf (s : State) : Bool := s.now % 2 == 0

/-- The second half, in which completions stand (R256). -/
def State.lateHalf (s : State) : Bool := s.now % 2 == 1

/-- An event of a kind that the manual orders within one cycle, by rank: one that comes behind a higher rank of the cycle, of an
earlier step, is out of order, and `step` does not make it in this cycle. -/
def State.inOrder (s : State) (kind rank : Nat) : State :=
  match tget s.order kind with
  | some (cycle, r, at_) =>
    if cycle != s.now / 2 then { s with order := tset s.order kind (s.now / 2, rank, s.tick) }
    else if rank < r && at_ != s.tick then { s with misordered := true }
    else { s with order := tset s.order kind (cycle, max r rank, s.tick) }
  | none => { s with order := tset s.order kind (s.now / 2, rank, s.tick) }

/-! The kinds of events that one cycle orders, as numbers for `inOrder`. -/

/-- EPOPEN words, by package core number (R317). -/
def episodeOrder : Nat := 0
/-- Faults of a context, by die and core, carrels and sequencers behind all cores (R341). -/
def faultOrder (ctx : Nat) : Nat := 2 * ctx + 1
/-- What reaches a delayed-scaling ring of a team: pushes by AMAXP words, drains and copies, and then reads (R48, R287). -/
def ringOrder (t ring : Nat) : Nat := 2 * (64 * t + ring) + 2 ^ 60
def wordPush : Nat := 0
def drainPush : Nat := 1
def copyPush (engine : Nat) : Nat := 2 + engine
def ringRead : Nat := 100
/-- What reaches the matrix queue of a core: words by quadrant, and then follow-ons by engine (R278). -/
def matrixOrder (core : Nat) : Nat := 2 * core + 2 ^ 59

end Sys2Proof.Machine
end

