-- ==== Sys2Proof/Machine/Memory.lean ====
section
/-! DEFINITION. Behind local space: the catalogue's fields in HBM (R157, R158, R339), translation and its leases (R348 to
R350), homes (R186, R187), the L2 with its loan lines (R188, R189), the window cache (R172 to R176, R394) and the
release and acquire actions (R214, R215). -/

namespace Sys2Proof.Machine

/-! ## The catalogue -/

/-- Doubleword `k` of the RCB at a physical address. -/
def rcbDw (s : State) (addr k : Nat) : W64 := memDw s.hbm (addr + 8 * k)

def rcbId (s : State) (a : Nat) : Nat := bits (rcbDw s a 0) 0 16
def rcbLevel (s : State) (a : Nat) : Nat := bits (rcbDw s a 0) 16 3
def rcbOvr (s : State) (a : Nat) : Nat := bits (rcbDw s a 0) 32 16
def rcbParent (s : State) (a : Nat) : Nat := bits (rcbDw s a 1) 0 56

/-- The RCBs from a node up to the root; levels rise strictly, so at most seven (R157). -/
def rcbPathGo (s : State) : Nat → Nat → List Nat
  | 0, _ => []
  | n + 1, a => a :: (if rcbLevel s a == 0 then [] else rcbPathGo s n (rcbParent s a))

def rcbPath (s : State) (a : Nat) : List Nat := rcbPathGo s 7 a

/-- The nearest node of the path that sets a field group itself; the root sets every group (R158). -/
def groupNode (s : State) (g a : Nat) : Nat :=
  ((rcbPath s a).find? fun n => (rcbOvr s n) / 2 ^ g % 2 == 1 || rcbLevel s n == 0).getD a

/-- The effective value of a field of group `g`: bits `[lo + n - 1 : lo]` of doubleword `k` (R158). -/
def effective (s : State) (g k lo n a : Nat) : Nat := bits (rcbDw s (groupNode s g a) k) lo n

def effPrio (s : State) (a : Nat) : Nat := effective s 5 4 0 4 a
def effFdom (s : State) (a : Nat) : Nat := effective s 6 4 4 2 a
def effKeyslot (s : State) (a : Nat) : Nat := effective s 7 4 6 8 a
def effPolver (s : State) (a : Nat) : Nat := effective s 8 4 16 16 a
def effStale (s : State) (a : Nat) : Nat := effective s 8 4 32 16 a
def effCont (s : State) (a : Nat) : Bool := effective s 8 4 48 1 a == 1
def effTrapEntry (s : State) (a : Nat) : Nat := effective s 9 5 0 56 a
def effMonLen (s : State) (a : Nat) : Nat := effective s 9 6 0 32 a

/-- The context and the job of an RCB: the level-1 and level-2 nodes of its path (R157). -/
def ctxOf (s : State) (a : Nat) : Nat := ((rcbPath s a).find? fun n => rcbLevel s n == 1).getD 0
def jobOf (s : State) (a : Nat) : Nat := ((rcbPath s a).find? fun n => rcbLevel s n == 2).getD 0

def teamRcb (s : State) (t : Nat) : Nat := (s.launch (s.team t).launch).pkt.rcb
def teamPkt (s : State) (t : Nat) : Packet := (s.launch (s.team t).launch).pkt
def teamAsid (s : State) (t : Nat) : Nat := (teamPkt s t).asid
def teamCtx (s : State) (t : Nat) : Nat := ctxOf s (teamRcb s t)

/-! ## Translation -/

/-- Where a translated access goes, or why it cannot (R348, R336). -/
inductive Trans where
  | hbm (pa : Nat) (pte : W64)
  | peer (pkg : Nat)
  | host (pa : Nat) (pte : W64)
  | absent
  | bad (code : Nat)
  deriving DecidableEq, Repr, Inhabited

def pteTarget (e : W64) : Nat := bits e 5 2
def pteSibling (e : W64) : Bool := bits e 61 1 == 1
def pteSibIdx (e : W64) : Nat := bits e 48 8
def pteTso (e : W64) : Bool := bits e 60 1 == 1
/-- Bits of an address inside a page of the level: 30, 21 and 16 for levels 1, 2 and 3 (R348). -/
def pageBits (level : Nat) : Nat := if level == 1 then 30 else if level == 2 then 21 else 16

/-- An entry with P = 1 that R348 calls malformed. -/
def pteMalformed (level : Nat) (e : W64) : Bool :=
  let leaf := bits e 1 1 == 1
  (leaf && level == 0) || (!leaf && level == 3) || bits e 62 2 != 0 || pteTarget e == 3 ||
  (leaf && pteTarget e != 1 && bits e 8 40 * 256 % 2 ^ pageBits level != 0) ||
  (pteTso e && pteTarget e != 2) || (pteSibling e && pteTarget e != 0)

/-- The walk from a table of a level: the leaf and its level, none for an absent page, or malformed (R348). DESIGN CHOICE: the
address of a table counts modulo 2^40, the size of HBM's physical addresses (R186; log 113). -/
def walkGo (s : State) (va : Nat) : Nat → Nat → Nat → Option (Option (W64 × Nat))
  | 0, _, _ => none
  | n + 1, level, tbl =>
    let idx := if level == 0 then va >>> 39 % 2 ^ 17 else if level == 1 then va >>> 30 % 512
      else if level == 2 then va >>> 21 % 512 else va >>> 16 % 32
    let e := memDw s.hbm (tbl + 8 * idx)
    if bits e 0 1 == 0 then some none
    else if pteMalformed level e then none
    else if bits e 1 1 == 1 then some (some (e, level))
    else walkGo s va n (level + 1) (bits e 8 40 * 256 % 2 ^ 40)

/-- The leaf of an address: `none` malformed, `some none` absent. An address space without a root is malformed (R348). -/
def walk (s : State) (asid va : Nat) : Option (Option (W64 × Nat)) :=
  match tget s.roots asid with
  | none => none
  | some (root, _) => walkGo s va 4 0 root

/-- A context owns the key slots that its creating session installed (R388). A context whose effective KEYSLOT is 0 is held under
firmware's slot, which no other context reaches (log 65). -/
def ownsSlot (s : State) (ctx slot : Nat) : Bool :=
  if slot == 0 then effKeyslot s ctx == 0 else (tget s.keys slot).isSome && tget s.keys slot == (s.ctx ctx).session

/-- The key slot of a frame agrees with the address space's context (R388); an untagged frame takes the mapping's. -/
def keyOk (s : State) (asid pa : Nat) : Bool :=
  match tget s.frameKeys (pa >>> 16), tget s.roots asid with
  | some (k, _), some (_, ctx) => ownsSlot s ctx k
  | _, _ => true

/-- A walk tags an untagged frame with the effective KEYSLOT of the context that owns the address space (R388). -/
def tagFrame (s : State) (asid : Nat) (e : W64) (level va : Nat) : State :=
  let frame := (bits e 8 40 * 256 + va % 2 ^ pageBits level) % 2 ^ 40 / 65536
  let ctx := ((tget s.roots asid).map (·.2)).getD 0
  if pteTarget e != 0 || (tget s.frameKeys frame).isSome then s
  else { s with frameKeys := tset s.frameKeys frame (effKeyslot s ctx, ctx) }

/-- The physical address that a leaf of this package's HBM gives. DESIGN CHOICE: a frame address counts modulo 2^40, the size of
its physical addresses (R186; log 113). -/
def leafPa (e : W64) (level va : Nat) : Nat := (bits e 8 40 * 256 + va % 2 ^ pageBits level) % 2 ^ 40

/-- What a leaf makes of an address, with the access checked against its permissions (R348, R388). -/
def leafTrans (s : State) (asid va : Nat) (write : Bool) (e : W64) (level : Nat) : Trans :=
  let off := va % 2 ^ pageBits level
  if write && bits e 3 1 == 0 then .bad 0x0201
  else if !write && bits e 2 1 == 0 then .bad 0x0202
  else match pteTarget e with
    | 1 => .peer (bits e 8 8)
    | 2 => .host (bits e 8 40 * 256 + off) e
    | _ =>
      let pa := leafPa e level va
      if keyOk s asid pa then .hbm pa e else .bad (if write then 0x0201 else 0x0202)

/-- 40 µs in ec cycles (R350). -/
def leaseTime : Nat := 84000

/-- A leased translation of a page that may still be used on the die (R350). -/
def leaseOf (s : State) (die asid va : Nat) : Option Lease :=
  s.leases.find? fun l => l.die == die && l.asid == asid && l.vpage == va >>> 16 && s.now ≤ l.at_ + leaseTime

/-- The leaf of an address as a die finds it, in a lease or by a walk (R350): `none` malformed, `some none` absent. -/
def leafFor (s : State) (die asid va : Nat) : Option (Option (W64 × Nat)) :=
  match leaseOf s die asid va with
  | some l => if s.flip (1000 + va >>> 16) then some (some (l.leaf, l.level)) else walk s asid va
  | none => walk s asid va

/-- What a leaf makes of a code fetch: its X permits it, whatever RD says (R348). -/
def fetchTrans (s : State) (asid va : Nat) (e : W64) (level : Nat) : Trans :=
  if bits e 4 1 == 0 then .bad 0x0202 else leafTrans s asid va false (e ||| 4) level

/-- The pages of a run carry a key slot (R388): those that map frames which the address space may use. -/
def tagPages (s : State) (asid slot va n : Nat) : State :=
  if n == 0 then s
  else forEach (List.range ((va + n - 1) / 65536 + 1 - va / 65536)) s fun s i =>
    let p := (va / 65536 + i) * 65536
    match walk s asid p with
    | some (some (e, level)) =>
      let pa := leafPa e level p
      let ctx := ((tget s.roots asid).map (·.2)).getD 0
      if pteTarget e == 0 && keyOk s asid pa then { s with frameKeys := tset s.frameKeys (pa >>> 16) (slot, ctx) } else s
    | _ => s

/-- A translation made on a die for a use of its leaf: a leased one may be used instead of a walk (R350). -/
def translateWith (s : State) (die asid va : Nat) (use : State → W64 → Nat → Trans) : Trans × State :=
  let fresh : Trans × State :=
    match walk s asid va with
    | none => (.bad 0x0203, s)
    | some none => (.absent, s)
    | some (some (e, level)) =>
      let l : Lease := { die := die, asid := asid, vpage := va >>> 16, leaf := e, level := level, at_ := s.now }
      let s := tagFrame s asid e level va
      (use s e level,
       { s with leases := l :: s.leases.filter fun x => !(x.die == die && x.asid == asid && x.vpage == l.vpage) })
  match leaseOf s die asid va with
  | some l => if s.flip (1000 + va >>> 16) then (use s l.leaf l.level, s) else fresh
  | none => fresh

/-- A translation made on a die for an access. -/
def translate (s : State) (die asid va : Nat) (write : Bool) : Trans × State :=
  translateWith s die asid va fun s e level => leafTrans s asid va write e level

/-- A translation made for a team, whose counters count its walk (R349, R356). -/
def translateFor (s : State) (t die asid va : Nat) (write : Bool) : Trans × State :=
  let walked := match leaseOf s die asid va with
    | some _ => !s.flip (1000 + va >>> 16)
    | none => true
  let (x, s) := translate s die asid va write
  (x, if walked then countEv s t 7 1 else s)

/-- Home die (R186) and home slice (R187) of a physical address. -/
def homeDie (e : W64) (pa : Nat) : Nat :=
  if bits e 7 1 == 1 then (pa >>> 12 % 8) ^^^ (pa >>> 15 % 8) ^^^ (pa >>> 18 % 8) else bits e 56 3

def homeSlice (pa : Nat) : Nat := (pa >>> 7 % 32) ^^^ (pa >>> 12 % 32) ^^^ (pa >>> 17 % 32) ^^^ (pa >>> 22 % 32)

/-! ## Home writes and WATCH -/

/-- The condition of a WATCH (R244) on a word of w bits. -/
def watchCond (op w : Nat) (x aux : W64) : Bool :=
  let x := x.toNat % 2 ^ w
  let a := aux.toNat % 2 ^ w
  let sg (v : Nat) : Int := if v ≥ 2 ^ (w - 1) then (v : Int) - (2 ^ w : Nat) else v
  match op with
  | 0 => x == a
  | 1 => x != a
  | 2 => sg x < sg a
  | 3 => sg x ≥ sg a
  | 4 => x < a
  | 5 => x ≥ a
  | 6 => x &&& a != 0
  | _ => x &&& a == 0

/-- The width of a WATCH: b32 or b64 (R244). -/
def watchWidth (c : Cmd) : Nat := if bits (c.dws.getD 0 0) 20 4 == 14 then 64 else 32

/-- An armed WATCH tests each write that reaches its word's home (R219): `value` takes the word, `limit` marks that the
condition held. `peerData` at key 0 holds the word's physical address in its length field. -/
def testWatch (hbm : Mem) (lo hi : Nat) (c : Cmd) : Cmd :=
  if c.kind == 7 && c.state == .armed && c.limit == none then
    let pa := c.bytes
    let w := watchWidth c
    if pa < hi && lo < pa + w / 8 then
      let x := BitVec.ofNat 64 (leNat (memReads hbm pa (w / 8)))
      let ok := watchCond (bits (c.dws.getD 0 0) 44 4) w x (c.dws.getD 3 0)
      { c with value := x, limit := if ok then some 1 else none }
    else c
  else c

/-- Bytes become dirty in their home slice: what HBM holds beneath is kept (R246). -/
def dirtyHome (hbm : Mem) (d : Tbl Byte) (pa n : Nat) : Tbl Byte :=
  (List.range n).foldl (fun d i => if (tget d (pa + i)).isSome then d else tset d (pa + i) (memRead hbm (pa + i))) d

/-- A slice of an L2 holds 5 MiB, in lines of 128 bytes (R1, R168). -/
def sliceLines : Nat := 40960

/-- The lines of a slice that hold dirty bytes of their own HBM. -/
def dirtyOf (d : Tbl Byte) (slice : Nat) : List Nat :=
  ((d.map fun e => e.1 / 128).eraseDups).filter fun n => homeSlice (n * 128) == slice

/-- A line whose dirty bytes reach HBM is dirty no longer. -/
def dropDirty (d : Tbl Byte) (line : Nat) : Tbl Byte := d.filter fun e => e.1 / 128 != line

/-- A slice that would hold more dirty lines than it has room for writes one back, which the device chooses (R1, R168). -/
def capHome (s : State) (d : Tbl Byte) (line : Nat) : Tbl Byte :=
  let ls := dirtyOf d (homeSlice (line * 128))
  if ls.length ≤ sliceLines then d else dropDirty d (ls.getD (s.pick (2200 + line) ls.length) line)

/-- A store to bytes that a hart has reserved ends the reservation, whatever it writes (R312). -/
def Carrel.unreserve (pa n : Nat) (k : Carrel) : Carrel :=
  match k.resPa with
  | some p => if p < pa + n && pa < p + 8 then { k with reservation := none, resPa := none } else k
  | none => k

def unreserve (dies : Tbl Die) (pa n : Nat) : Tbl Die :=
  dies.map fun d => (d.1, { d.2 with carrels := d.2.carrels.map fun c => (c.1, c.2.unreserve pa n) })

/-- Bytes written at their home in this package's HBM: the armed WATCHes on them are tested (R211, R219), and a line
wholly written loses its poison (R192). -/
def homeWrite (s : State) (pa : Nat) (bs : List Byte) : State :=
  let hbm := memWrites s.hbm pa bs
  { s with
    hbm := hbm
    l2Dirty := capHome s (dirtyHome s.hbm s.l2Dirty pa bs.length) (pa / 128)
    hbmPoison := unpoison s.hbmPoison pa bs.length
    dies := unreserve s.dies pa bs.length
    cmds := s.cmds.map fun e => (e.1, testWatch hbm pa (pa + bs.length) e.2) }

/-- Bytes of one line, by offset, that reach its home together, as the dirty bytes of a write-back or a loan return do:
an armed WATCH sees each word once, with all of its bytes (R208, R219), and a line wholly written loses its poison (R192). -/
def homePut (s : State) (line : Nat) (es : List (Nat × Byte)) : State :=
  if es.isEmpty then s
  else
    let hbm := es.foldl (fun m e => memWrite m (line * 128 + e.1) e.2) s.hbm
    { s with
      hbm := hbm
      l2Dirty := capHome s (es.foldl (fun d e => dirtyHome s.hbm d (line * 128 + e.1) 1) s.l2Dirty) line
      hbmPoison := if es.length ≥ 128 then s.hbmPoison.filter (· != line) else s.hbmPoison
      dies := es.foldl (fun d e => unreserve d (line * 128 + e.1) 1) s.dies
      cmds := s.cmds.map fun e => (e.1, if es.any (fun b => decide (e.2.bytes ≤ line * 128 + b.1) &&
        decide (line * 128 + b.1 < e.2.bytes + watchWidth e.2 / 8)) then testWatch hbm (line * 128) (line * 128 + 128) e.2 else e.2) }

/-! ## Lines -/

/-- The bytes of a line that a write places, by offset, and whether they are dirty. A write of the whole line clears its
poison (R192). -/
def CLine.put (l : CLine) (off : Nat) (bs : List Byte) : CLine :=
  let offs := (List.range bs.length).map (off + ·)
  { l with
    bytes := memWrites l.bytes off bs
    valid := l.valid ++ offs.filter fun o => !l.valid.contains o
    dirty := l.dirty ++ offs.filter fun o => !l.dirty.contains o
    poison := l.poison && bs.length < 128 }

/-- A fill merges under the dirty bytes (R173). -/
def CLine.fill (l : CLine) (bs : List Byte) (poison : Bool) : CLine :=
  let offs := List.range 128
  { l with
    bytes := offs.foldl (fun m o => if l.dirty.contains o then m else memWrite m o (bs.getD o 0)) l.bytes
    valid := offs
    poison := l.poison || poison }

def CLine.full (l : CLine) : Bool := l.valid.length == 128

/-- Runs of dirty bytes as single writes (only the dirty bytes are written, R173, R188). -/
def CLine.dirtyBytes (l : CLine) : List (Nat × Byte) := l.dirty.map fun o => (o, memRead l.bytes o)

/-! ## The L2 and its loan lines -/

def findLoan (s : State) (die line : Nat) : Option CLine := (s.die die).loans.find? fun l => l.line == line

def setLoan (s : State) (die : Nat) (l : CLine) : State :=
  s.onDie die fun d => { d with loans := l :: d.loans.filter fun x => x.line != l.line }

/-- Only the dirty bytes return, with the line's poison, and the line is clean (R188, R192). -/
def returnLoan (s : State) (die : Nat) (l : CLine) : State :=
  let s := homePut s l.line l.dirtyBytes
  let s := if l.poison && !l.dirty.isEmpty then { s with hbmPoison := l.line :: s.hbmPoison } else s
  setLoan s die { l with dirty := [] }

def dropLoan (s : State) (die line : Nat) : State :=
  s.onDie die fun d => { d with loans := d.loans.filter fun x => x.line != line }

/-- An operation of a command at a line's home comes behind what its die's L2 holds of the line, which goes home first and is
kept no longer (R211, R212, R360). -/
def homeFirst (s : State) (die line : Nat) : State :=
  match findLoan s die line with
  | some l => dropLoan (returnLoan s die l) die line
  | none => s

/-- A slice that is full replaces a loan line, or writes back a dirty line of its own HBM, as the device chooses, before it takes
another loan line (R1, R168, R188). Clean lines of its own HBM are not told apart from the HBM, and give way. -/
def makeRoom (s : State) (die line : Nat) : State :=
  let ls := (s.die die).loans.filter fun l => homeSlice (l.line * 128) == homeSlice (line * 128)
  let hs := dirtyOf s.l2Dirty (homeSlice (line * 128))
  if (findLoan s die line).isSome || ls.length + hs.length < sliceLines then s
  else
    let k := s.pick (2100 + line) (ls.length + hs.length)
    match ls[k]? with
    | some l => dropLoan (returnLoan s die l) die l.line
    | none => { s with l2Dirty := dropDirty s.l2Dirty (hs.getD (k - ls.length) line) }

/-- A loan line may be replaced at any fill (R188): the device chooses which. -/
def replaceLoans (s : State) (die : Nat) (keep : Nat) : State :=
  forEach (s.die die).loans s fun s l =>
    if l.line != keep && s.flip (2000 + l.line) then dropLoan (returnLoan s die l) die l.line else s

/-- The 128 bytes of a physical line as the die's L2 reads them, and whether they are poisoned (R188, R189, R192). -/
def l2Line (s : State) (die home line : Nat) : List Byte × Bool :=
  let base := memReads s.hbm (line * 128) 128
  let bad := s.hbmPoison.contains line
  if home == die then (base, bad)
  else match findLoan s die line with
    | some l => ((List.range 128).map fun o => if l.valid.contains o then memRead l.bytes o else base.getD o 0,
                 l.poison || (bad && !l.full))
    | none => (base, bad)

/-- A read of a line through the die's L2: a line homed elsewhere becomes a loan line (R188, R189). -/
def l2Read (s : State) (die home line : Nat) : List Byte × Bool × State :=
  let (bs, bad) := l2Line s die home line
  if home == die then (bs, bad, s)
  else
    let l := (findLoan s die line).getD { (default : CLine) with line := line }
    (bs, bad, setLoan (makeRoom (replaceLoans s die line) die line) die (l.fill bs bad))

/-- The 128 bytes that a fill reads through the die's L2, and whether they are poisoned. A line of a sibling page is read at its
home, and no L2 holds it (R297, R306). -/
def readLine (s : State) (die : Nat) (e : W64) (pa : Nat) : List Byte × Bool × State :=
  if pteSibling e then (memReads s.hbm (pa / 128 * 128) 128, s.hbmPoison.contains (pa / 128), s)
  else l2Read s die (homeDie e pa) (pa / 128)

/-- Bytes written into the die's L2: the home slice, or a loan line of the die (R211). -/
def l2Write (s : State) (die home pa : Nat) (bs : List Byte) : State :=
  if home == die then homeWrite s pa bs
  else
    let line := pa / 128
    let l := (findLoan s die line).getD { (default : CLine) with line := line }
    let s := setLoan (makeRoom s die line) die (l.put (pa % 128) bs)
    s.onDie die fun d => { d with carrels := d.carrels.map fun c => (c.1, c.2.unreserve pa bs.length) }

/-- Bytes of one line, by offset, that reach the die's L2 together, with the poison they carry (R173, R192, R211). -/
def l2Put (s : State) (die home line : Nat) (es : List (Nat × Byte)) (poison : Bool) : State :=
  if home == die then
    let s := homePut s line es
    if poison then { s with hbmPoison := line :: s.hbmPoison } else s
  else
    let l := (findLoan s die line).getD { (default : CLine) with line := line }
    let l' := es.foldl (fun l e => l.put e.1 [e.2]) l
    let s := setLoan (makeRoom s die line) die { l' with poison := poison || (l.poison && es.length < 128) }
    s.onDie die fun d => { d with carrels := d.carrels.map fun c =>
      (c.1, es.foldl (fun k e => k.unreserve (line * 128 + e.1) 1) c.2) }

/-! ## The fault docket -/

/-- Bytes of a docket entry (R340). -/
structure DockEntry where
  kind : Nat
  source : Nat
  fault : Nat
  addr : Nat
  write : Bool
  asid : Nat
  die : Nat
  core : Nat
  tslot : Nat
  cls : Nat
  status : Nat
  who : Nat
  elements : Nat
  launch : Nat
  rcb : Nat
  domain : Nat
  extra : List Byte
  deriving DecidableEq, Repr, Inhabited

def DockEntry.bytes (e : DockEntry) (id : Nat) (time : Nat) : List Byte :=
  [BitVec.ofNat 8 e.kind, BitVec.ofNat 8 e.source] ++ leBytes 2 e.fault ++ leBytes 4 id ++
  leBytes 8 (e.addr % 2 ^ 56 + (if e.write then 2 ^ 56 else 0)) ++ leBytes 2 e.asid ++
  leBytes 1 e.die ++ leBytes 1 e.core ++ leBytes 1 e.tslot ++ leBytes 1 e.cls ++
  leBytes 2 e.status ++ leBytes 4 e.who ++ leBytes 4 e.elements ++ leBytes 4 e.launch ++ leBytes 2 e.rcb ++
  leBytes 1 e.domain ++ [0] ++ leBytes 8 time ++ (e.extra ++ List.replicate 12 0).take 12 ++ leBytes 4 0

def dockSize (s : State) (ctx : Nat) : Nat := bits (rcbDw s ctx 8) 0 17
def dockHead (s : State) (ctx : Nat) : Nat := bits (rcbDw s ctx 15) 0 32
def dockTail (s : State) (ctx : Nat) : Nat := bits (rcbDw s ctx 15) 32 32
/-- DOCKBASE (R339). DESIGN CHOICE: a physical address (log 54), modulo 2^40 (R186; log 113). -/
def dockBase (s : State) (ctx : Nat) : Nat := bits (rcbDw s ctx 7) 0 40
def dockCount (s : State) (ctx : Nat) : Nat := (dockHead s ctx + 2 ^ 32 - dockTail s ctx) % 2 ^ 32

/-- Write entry DOCKHEAD and raise it (R339, R341). -/
def dockPut (s : State) (ctx : Nat) (bs : List Byte) : State :=
  let k := dockHead s ctx
  let size := dockSize s ctx
  let s := if size == 0 then s else homeWrite s (dockBase s ctx + 64 * (k % size)) bs
  homeWrite s (ctx + 120) (leBytes 4 ((k + 1) % 2 ^ 32))

/-- A fault of a context, for a team or none (0): written when the docket has room and counted for the team (R356), else held,
with OVF set and the owner told (R340 to R342). Faults of one cycle come by die and core, those of no core behind (R341). The answer's first part is the entry's ID when it was written or will be: held entries take the IDs in order. -/
def dockFault (s : State) (ctx t : Nat) (e : DockEntry) : Nat × State :=
  let s := s.inOrder (faultOrder ctx) (if e.core == 0xFF then 2 ^ 16 + e.die else 256 * e.die + e.core)
  let held := (s.ctx ctx).held
  let id := (dockHead s ctx + held.length) % 2 ^ 32
  let bs := e.bytes id (s.now / 2)
  if dockCount s ctx < dockSize s ctx && held.isEmpty then (id, countEv (dockPut s ctx bs) t 9 1)
  else
    let dw8 := rcbDw s ctx 8
    let s := homeWrite s (ctx + 64) (leBytes 8 (dw8 ||| (1 <<< 17)).toNat)
    let s := s.onCtx ctx fun c => { c with held := c.held ++ [(t, bs)] }
    (id, match (s.ctx ctx).session with
      | some n => s.tell n 0x21 (leBytes 1 2 ++ leBytes 8 ctx)
      | none => s)

/-- Where a team stands, for a docket entry. -/
def teamEntry (s : State) (t : Nat) : DockEntry :=
  let x := s.team t
  { (default : DockEntry) with
    asid := teamAsid s t, die := dieOf x.core, core := x.core % 80, tslot := x.tslot, cls := 0xFF, launch := x.launch,
    rcb := rcbId s (teamRcb s t) }

/-! ## The window cache -/

def findLine (c : Core) (asid line : Nat) : Option CLine := c.lines.find? fun l => l.asid == asid && l.line == line
def setLine (c : Core) (l : CLine) : Core :=
  { c with lines := l :: c.lines.filter fun x => !(x.asid == l.asid && x.line == l.line) }
def delLine (c : Core) (asid line : Nat) : Core :=
  { c with lines := c.lines.filter fun x => !(x.asid == asid && x.line == line) }

/-- The ways of the window cache: those not in the pool and not departing (R181, R394). -/
def windowWays (c : Core) : List Nat :=
  (List.range 16).filter fun w => !c.poolWays.contains w && !((c.carve.getD []).contains w)

/-- What a write-back of a line came to. -/
inductive WbResult where
  | done
  | held
  | fatal (code : Nat) (sibling : Bool)
  deriving DecidableEq, Repr, Inhabited

/-- Bytes of a line that one waiting load takes, of those that `sel` selects by global address (R173). -/
def feedBytes (asid line : Nat) (bs : List Byte) (bad : Bool) (sel : Nat → Bool) (w : LoadWait) : LoadWait :=
  let mine (b : Nat × Option Byte) : Bool := b.1 / 128 == line && b.2.isNone && sel b.1
  if w.asid == asid && w.bytes.any mine then
    { w with
      bytes := w.bytes.map fun b => if mine b then (b.1, some (bs.getD (b.1 % 128) 0)) else b
      poison := w.poison || bad }
  else w

/-- A load waits for a byte of a line. -/
def LoadWait.wants (w : LoadWait) (asid line : Nat) : Bool := w.asid == asid && w.bytes.any fun b => b.1 / 128 == line && b.2.isNone

/-- Loads of a core that wait for a line take their bytes from the L2 before a write-back of the line changes them there: every
one of them precedes the stores that the write-back carries (R26, R172, R210). -/
def feedEarlier (s : State) (core asid line : Nat) (e : W64) (pa : Nat) : State :=
  if (s.core core).pends.any fun p => p.loads.any fun w => w.wants asid line then
    let (bs, bad, s) := readLine s (dieOf core) e pa
    s.onCore core fun c => { c with pends := c.pends.map fun p => { p with loads := p.loads.map (feedBytes asid line bs bad fun _ => true) } }
  else s

/-- Write back the dirty bytes of a window line (R173, R180): it translates, writes the dirty bytes into the die's L2, and
leaves the line clean; an absent page holds it dirty. A write to a sibling page is refused at its home (R306). -/
def writeBack (s : State) (core : Nat) (l : CLine) : WbResult × State :=
  if l.dirty.isEmpty then (.done, s)
  else
    let die := dieOf core
    let (t, s) := translateFor s l.lastWriter die l.asid (l.line * 128) true
    match t with
    | .hbm pa e =>
      if pteSibling e then (.fatal 0x0206 true, s)
      else
        let s := feedEarlier s core l.asid l.line e pa
        let s := l2Put s die (homeDie e pa) (pa / 128) l.dirtyBytes l.poison
        let s := s.onCore core fun c => setLine c { l with dirty := [], writers := [], held := none }
        let s := if l.priv then
            s.onCore core fun c => { c with waves := c.waves.map fun (k, w) =>
              (k, if w.privBase.toNat / 2 ^ 21 == l.line / 2 ^ 14 && teamAsid s w.team == l.asid then { w with privSaved := l.line :: w.privSaved } else w) }
          else s
        let ctx := ((tget s.roots l.asid).getD (0, 0)).2
        let mark (ds : List Nat) : List Nat := if ds.contains die then ds else die :: ds
        (.done, s.onCtx ctx fun x => { x with wbSince := mark x.wbSince, wbNew := mark x.wbNew })
    | .absent =>
      if l.held.isSome then (.held, s)
      else
        let ctx := ((tget s.roots l.asid).getD (0, 0)).2
        let (id, s) := dockFault s ctx l.lastWriter { teamEntry s l.lastWriter with
          kind := 1, source := 2, addr := l.line * 128, write := true }
        (.held, s.onCore core fun c => setLine c { l with held := some id })
    | .peer _ | .host _ _ => (.fatal 0x0204 false, s)
    | .bad code => (.fatal code false, s)

/-! ## Accession rings, release and acquire -/

/-- ACCBASE (R215, R339). DESIGN CHOICE: a physical address (log 54), modulo 2^40 (R186; log 113). -/
def accBase (s : State) (ctx : Nat) : Nat := bits (rcbDw s ctx 9) 0 40
def accSize (s : State) (ctx : Nat) : Nat := bits (rcbDw s ctx 10) 0 17

/-- Append an entry to the context's accession ring (R215). -/
def accAppend (s : State) (ctx start len die core cls src : Nat) : State :=
  let size := accSize s ctx
  if size == 0 then s
  else
    let k := (s.ctx ctx).accHead
    let dw0 := start % 2 ^ 56 + die * 2 ^ 56 + (k / size % 2) * 2 ^ 63
    let dw1 := len % 2 ^ 32 + (core % 80) * 2 ^ 32 + cls * 2 ^ 39 + src * 2 ^ 41
    let s := homeWrite s (accBase s ctx + 16 * (k % size)) (leBytes 8 dw0 ++ leBytes 8 dw1)
    s.onCtx ctx fun c => { c with accHead := k + 1 }

/-- A range is appended as consecutive entries of at most 2^32 − 1 bytes (R215). -/
def accAppendRange (s : State) (ctx die core cls : Nat) : Nat → Nat → Nat → State
  | 0, _, _ => s
  | n + 1, start, len =>
    if len == 0 then s
    else
      let k := min len (2 ^ 32 - 1)
      accAppendRange (accAppend s ctx start k die core cls 0) ctx die core cls n (start + k) (len - k)

/-- Entries k from `lo` up to the head, as (start, length, die) (R215). -/
def accEntries (s : State) (ctx lo : Nat) : List (Nat × Nat × Nat) :=
  let size := accSize s ctx
  let h := (s.ctx ctx).accHead
  (List.range (h - lo)).map fun i =>
    let a := accBase s ctx + 16 * ((lo + i) % size)
    let d0 := memDw s.hbm a
    (bits d0 0 56, bits (memDw s.hbm (a + 8)) 0 32, bits d0 56 3)

/-- Where a page of an address space lies in HBM, whatever its permissions (R215, R348). -/
def pageAt (s : State) (asid va : Nat) : Option Nat :=
  match walk s asid va with
  | some (some (e, level)) => if pteTarget e == 0 then some (leafPa e level va) else none
  | _ => none

/-- The page of an address space is present, wherever it lies. -/
def pageThere (s : State) (asid va : Nat) : Bool := match walk s asid va with | some (some _) => true | _ => false

/-- A loan line intersects an accession entry: some address space of the context maps the entry's range onto it. The
range is compared through the page of each of its 64 KiB pages (R215). A page that no address space of the context maps any more
tells nothing of its lines, and every line counts. -/
def loanHit (s : State) (ctx line : Nat) (e : Nat × Nat × Nat) : Bool :=
  e.2.1 == 0 ||
  (List.range ((e.1 % 65536 + e.2.1 + 65535) / 65536)).any fun i =>
    let va := (e.1 / 65536 + i) * 65536
    let as := s.roots.filter fun r => r.2.2 == ctx
    !(as.any fun r => pageThere s r.1 va) ||
    as.any fun r => match pageAt s r.1 va with
      | some pa =>
        let lo := max e.1 va
        let hi := min (e.1 + e.2.1) (va + 65536)
        decide (line * 128 < pa + (hi - va)) && decide (pa + (lo - va) < line * 128 + 128)
      | none => false

/-- A loan line lies in the range that confines a release or an acquire (R221). -/
def confined (s : State) (ctx : Nat) (conf : Option (Nat × Nat)) (line : Nat) : Bool :=
  match conf with
  | none => true
  | some (va, n) => n != 0 && loanHit s ctx line (va, n, 0)

/-- Where a cursor of the accession ring goes: to the head, but not past the entries of a command that may still write, whose
lines a later release or acquire must find (R212, R215, R218; log 117). -/
def accCursor (s : State) (ctx : Nat) : Nat :=
  let open_ := s.cmds.filterMap fun e =>
    if teamCtx s e.2.team == ctx && (e.2.state == .running || e.2.state == .suspended || e.2.state == .queued) then e.2.accFirst
    else none
  open_.foldl min (s.ctx ctx).accHead

/-- Release at .pkg on a die (R215), with the entry of the window write-backs that the die received since its last one. `conf`
confines it to a range of the context's virtual addresses, of which it returns every dirty loan line (R221): what it leaves
behind, the next full release returns, and tells by an entry of its own. -/
def releasePkg (s : State) (ctx die core : Nat) (conf : Option (Nat × Nat)) : State :=
  let wb := (s.ctx ctx).wbSince.contains die
  let rel := tgetD (s.ctx ctx).rel die 0
  let h := (s.ctx ctx).accHead
  let every := wb || h - rel > accSize s ctx || accSize s ctx == 0
  let es := if every then [] else (accEntries s ctx rel).filter fun e => e.2.2 == die
  let mine (s : State) (l : CLine) : Bool :=
    if conf.isSome then confined s ctx conf l.line else every || es.any (loanHit s ctx l.line)
  let cursor := accCursor s ctx
  let s := forEach (s.die die).loans s fun s l => if mine s l then returnLoan s die l else s
  let s := if (s.ctx ctx).wbNew.contains die || (wb && conf.isNone) then accAppend s ctx 0 0 die core 0 1 else s
  let s := s.onCtx ctx fun c => { c with wbNew := c.wbNew.filter (· != die) }
  if conf.isSome then s
  else s.onCtx ctx fun c => { c with rel := tset c.rel die cursor, wbSince := c.wbSince.filter (· != die) }

/-- A loan line holds a clean byte, or poison, that its home has changed since: after an acquire at .pkg no read may return it
(R218). -/
def staleLoan (s : State) (l : CLine) : Bool :=
  (l.valid.any fun o => !l.dirty.contains o && memRead l.bytes o != memRead s.hbm (l.line * 128 + o)) ||
  (l.poison && !s.hbmPoison.contains l.line)

/-- Acquire at .pkg on a die (R215): an invalidated line writes back its dirty bytes first (R214). Beside the lines that the
accession ring names it invalidates every stale one: bytes performed at .pkg without an entry, as by a WBW at their home, must
not be missed (R212, R218; log 117). `conf` confines it to a range, of which it invalidates every loan line (R221). -/
def acquirePkg (s : State) (ctx die : Nat) (conf : Option (Nat × Nat)) (all : Bool) : State :=
  let acq := tgetD (s.ctx ctx).acq die 0
  let h := (s.ctx ctx).accHead
  let es := (if accSize s ctx == 0 then [] else accEntries s ctx acq).filter fun e => e.2.2 != die
  let every := all || h - acq > accSize s ctx || accSize s ctx == 0 || es.any fun e => e.2.1 == 0
  let mine (s : State) (l : CLine) : Bool :=
    if conf.isSome then confined s ctx conf l.line else every || staleLoan s l || es.any (loanHit s ctx l.line)
  let cursor := accCursor s ctx
  let s := forEach (s.die die).loans s fun s l =>
    if mine s l then dropLoan (returnLoan s die l) die l.line else s
  if conf.isSome then s else s.onCtx ctx fun c => { c with acq := tset c.acq die cursor }

/-- The dirty window lines of a core under an address space, private lines excepted (R203, R214). -/
def dirtyLines (s : State) (core asid : Nat) : List CLine :=
  (s.core core).lines.filter fun l => l.asid == asid && !l.priv && !l.dirty.isEmpty

/-- Write back lines one by one; the keys of those that a fault holds, and those that cannot be resolved, with their codes. -/
def writeBackAll (s : State) (core : Nat) (ls : List CLine) : List Nat × List (CLine × Nat) × State :=
  ls.foldl (fun (acc : List Nat × List (CLine × Nat) × State) l =>
    let (r, s) := writeBack acc.2.2 core l
    match r with
    | .done => (acc.1, acc.2.1, s)
    | .held => (acc.1 ++ [l.line], acc.2.1, s)
    | .fatal c _ => (acc.1, acc.2.1 ++ [(l, c)], s)) ([], [], s)

/-- The window part of an acquire at .clu or wider: clean bytes go, dirty bytes stay (R203, R214). -/
def dropClean (s : State) (core asid : Nat) (which : Nat → Bool) : State :=
  let drop (l : CLine) : Option CLine :=
    if l.asid == asid && !l.priv && which l.line then
      (if l.dirty.isEmpty then none else some { l with valid := l.dirty })
    else some l
  s.onCore core fun c => { c with lines := c.lines.filterMap drop }

/-- Does a write to a peer (.pod) or to host memory (.sys) of the team's commands await its acknowledgement (R214)? -/
def unackedWrites (s : State) (team : Nat) : Bool := s.cmds.any fun e => e.2.team == team && !e.2.unacked.isEmpty

end Sys2Proof.Machine
end

