-- ==== Sys2Proof/Machine/Regs.lean ====
section
/-! DEFINITION. The registers of threads and waves (R10 to R14, R23, R62, R131), with results still outstanding, and the
movement of lanes from word to word (R16, R129, R130). -/

namespace Sys2Proof.Machine

/-- A salt of the model's free choices, told apart by what is chosen and for whom. -/
def saltOf (k : Nat) (r : LaneRef) (i : Nat) : Nat := ((k * 64 + r.slot) * 32 + r.lane) * 512 + i

/-! ## Outstanding results -/

def Dest.isV (r : LaneRef) (reg : Nat) : Dest → Option W32
  | .v r' reg' x => if r' == r && reg' == reg then some x else none
  | _ => none
def Dest.isS (slot reg : Nat) : Dest → Option W32
  | .s slot' reg' x => if slot' == slot && reg' == reg then some x else none
  | _ => none
def Dest.isP (r : LaneRef) (i : Nat) : Dest → Option Bool
  | .p r' i' b => if r' == r && i' == i then some b else none
  | _ => none

/-- The values that outstanding instructions of the core will write to a register. -/
def pendingVals {α : Type} (c : Core) (isD : Dest → Option α) : List α := c.pends.flatMap fun p => p.dests.filterMap isD

/-- A read of a register with pending writes returns the old value or a new one, whole (R23). -/
def readPending {α : Type} (s : State) (salt : Nat) (old : α) (new : List α) : α :=
  match new with
  | [] => old
  | _ => (old :: new).getD (s.pick salt (new.length + 1)) old

/-- After a write to a register with a pending write, either value may stand: the device keeps or drops the pending
one (R23). DESIGN CHOICE: one whose value has still to come, from a fill or a sample, is kept, and stands in the end (log 128). -/
def dropPending (s : State) (core salt : Nat) (isD : Dest → Bool) : State :=
  if (s.core core).pends.any fun p => p.dests.any isD then
    let keep := s.flip salt
    s.onCore core fun c => { c with pends := c.pends.map fun p =>
      { p with dests := p.dests.filter fun d => !isD d || keep } }
  else s

/-! ## Reading -/

/-- A register of another thread, as BCAST and RDLANE read it: an exited one keeps what its registers held at its exit (R95). -/
def readHeld (s : State) (core : Nat) (r : LaneRef) (reg : Nat) : W32 :=
  if (s.lane core r).exited then tgetD (s.lane core r).v reg 0
  else readPending s (saltOf 1 r reg) (tgetD (s.lane core r).v reg 0) (pendingVals (s.core core) (Dest.isV r reg))

def readV (s : State) (core : Nat) (r : LaneRef) (reg : Nat) : W32 :=
  readPending s (saltOf 1 r reg) (tgetD (s.lane core r).v reg 0) (pendingVals (s.core core) (Dest.isV r reg))

/-- A scalar register as a lane reads it: the wave's, or in a reform region the value at entry (R131, R139). -/
def readS (s : State) (core : Nat) (r : LaneRef) (reg : Nat) : W32 :=
  let l := s.lane core r
  if l.inRegion then tgetD l.regionS reg 0
  else readPending s (saltOf 2 ⟨r.slot, 0⟩ reg) (tgetD (s.wave core r.slot).s reg 0)
    (pendingVals (s.core core) (Dest.isS r.slot reg))

/-- p7 reads true (R10). -/
def readP (s : State) (core : Nat) (r : LaneRef) (i : Nat) : Bool :=
  if i == 7 then true
  else readPending s (saltOf 3 r i) ((s.lane core r).p.getLsbD i) (pendingVals (s.core core) (Dest.isP r i))

/-! ## Writing -/

def putV (s : State) (core : Nat) (r : LaneRef) (reg : Nat) (x : W32) : State :=
  s.onLane core r fun l => { l with v := tset l.v reg x, poison := l.poison.filter (· != reg) }

def putS (s : State) (core slot reg : Nat) (x : W32) : State :=
  s.onWave core slot fun w => { w with s := tset w.s reg x, sPoison := w.sPoison.filter (· != reg) }

/-- A write to p7 is discarded (R10). -/
def putP (s : State) (core : Nat) (r : LaneRef) (i : Nat) (b : Bool) : State :=
  if i == 7 then s
  else s.onLane core r fun l =>
    { l with p := (l.p &&& ~~~ (1#8 <<< i)) ||| (if b then 1#8 <<< i else 0) }

def writeV (s : State) (core : Nat) (r : LaneRef) (reg : Nat) (x : W32) : State :=
  dropPending (putV s core r reg x) core (saltOf 4 r reg) fun d => (d.isV r reg).isSome

def writeS (s : State) (core slot reg : Nat) (x : W32) : State :=
  dropPending (putS s core slot reg x) core (saltOf 5 ⟨slot, 0⟩ reg) fun d => (d.isS slot reg).isSome

def writeP (s : State) (core : Nat) (r : LaneRef) (i : Nat) (b : Bool) : State :=
  if i == 7 then s
  else dropPending (putP s core r i b) core (saltOf 6 r i) fun d => (d.isP r i).isSome

/-- The write of one destination. -/
def Dest.write (s : State) (core : Nat) : Dest → State
  | .v r reg x => writeV s core r reg x
  | .s slot reg x => writeS s core slot reg x
  | .p r i b => writeP s core r i b

/-- The write of an outstanding destination when it arrives: an exited thread keeps what its registers held (R95). -/
def Dest.land (s : State) (core : Nat) : Dest → State
  | .v r reg x => if (s.lane core r).exited then s else putV s core r reg x
  | .s slot reg x => putS s core slot reg x
  | .p r i b => if (s.lane core r).exited then s else putP s core r i b

/-! ## Lanes -/

/-- On to the next word of the clause, or past its last word to the next header (R16). -/
def Lane.next (l : Lane) : Lane :=
  { l with
    pc := l.pc + 12
    clause := match l.clause with
      | some c => if c.left ≤ 1 then none else some { c with left := c.left - 1 }
      | none => none
    block := .none }

def Lane.runnable (l : Lane) : Bool := !l.exited && l.block == .none

def setBlock (s : State) (core : Nat) (r : LaneRef) (b : Block) : State := s.onLane core r fun l => { l with block := b }

/-- The lanes of a wave that are present: those it holds (R124). -/
def Wave.present (w : Wave) : List Nat := w.lanes.map (·.1)

def Core.findWait (c : Core) (bid : Nat) : Option Wait := c.waits.find? fun w => w.bid == bid

/-- Block lanes at a word with a record of what it waits for. -/
def blockWord (s : State) (core : Nat) (lanes : List LaneRef) (kind : WaitKind) (d pc : Opnd) : State :=
  let (bid, s) := s.freshId core
  let w : Wait := { bid := bid, kind := kind, d := d, pc := pc, lanes := lanes, since := s.now }
  let s := s.onCore core fun c => { c with waits := c.waits ++ [w] }
  forEach lanes s fun s r => setBlock s core r (.word bid)

def dropWait (s : State) (core bid : Nat) : State :=
  s.onCore core fun c => { c with waits := c.waits.filter fun w => w.bid != bid }

/-- The word is done: its lanes go on at the next word (R130). -/
def finishWait (s : State) (core : Nat) (w : Wait) : State :=
  forEach w.lanes (dropWait s core w.bid) fun s r => s.onLane core r Lane.next

/-- The lanes become runnable at the word, and issue it again (R130). -/
def wakeWait (s : State) (core : Nat) (w : Wait) : State :=
  forEach w.lanes (dropWait s core w.bid) fun s r => setBlock s core r .none

/-- Change what a blocked word waits for. -/
def setWait (s : State) (core bid : Nat) (k : WaitKind) : State :=
  s.onCore core fun c => { c with waits := c.waits.map fun w => if w.bid == bid then { w with kind := k } else w }

/-! ## The issue group -/

/-- The team of an issue group. -/
def Cur.team (s : State) (g : Cur) : Nat :=
  match g.lanes with
  | (_, r) :: _ => (s.wave g.core r.slot).team
  | [] => (s.wave g.core g.slot).team

def Cur.refs (g : Cur) : List LaneRef := g.lanes.map (·.2)

/-- %active: the slots of the group (R129, R138). -/
def Cur.active (g : Cur) : W32 := g.lanes.foldl (fun m e => m ||| (1#32 <<< e.1)) 0

def laneSet (l : List Nat) : W32 := l.foldl (fun m i => m ||| (1#32 <<< i)) 0

/-- The quadrant that serves a slot (R126), or the one chosen for a reformed group (R138). -/
def Cur.quad (s : State) (g : Cur) : Nat :=
  match g.reformed with
  | none => g.slot % 4
  | some id => (((s.core g.core).groups.find? fun x => x.id == id).map (·.quad)).getD 0

/-- Record which lanes of the issue group go on within the clause (R129, R130). -/
def setGroup (s : State) (g : Cur) (lanes : List LaneRef) : State :=
  match g.reformed with
  | none => s.onWave g.core g.slot fun w => { w with group := lanes.map (·.lane) }
  | some id => s.onCore g.core fun c => { c with groups := c.groups.map fun x =>
      if x.id == id then { x with group := lanes } else x }

/-- The lanes of the group that stand in a clause, unblocked, after a word: they stay the group (R129, R130). -/
def goesOn (s : State) (core : Nat) (r : LaneRef) : Bool :=
  let l := s.lane core r
  l.runnable && l.clause.isSome

/-- A lane whose barrier wait the end of the cycle will judge (R156): till then it stays in the group. -/
def atBarrier (l : Lane) : Bool := match l.block with | .barrier _ _ => true | .bart _ _ _ _ => true | _ => false

/-- A word has issued for the group: its lanes but `stay` go to the next word, their ages return to 0, and the group
shrinks to those still in the clause. A lane that stays has left the group (R129, R130). -/
def wordIssued (s : State) (g : Cur) (stay : List LaneRef) : State :=
  let s := forEach g.refs s fun s r => s.onLane g.core r fun l =>
    if stay.contains r then { l with age := 0, groupAge := 0 } else { l.next with age := 0, groupAge := 0 }
  setGroup s g (g.refs.filter fun r => if stay.contains r then atBarrier (s.lane g.core r) else goesOn s g.core r)

/-! ## Special registers -/

/-- Thread number in its team (R13). -/
def tidOf (s : State) (core : Nat) (r : LaneRef) : Nat := 32 * (s.wave core r.slot).number + r.lane

def Packet.threads (p : Packet) : Nat := p.tx * p.ty * p.tz
def Packet.teams (p : Packet) : Nat := p.gx * p.gy * p.gz
def Packet.waves (p : Packet) : Nat := (p.threads + 31) / 32

/-- The set of a team's SET slips (R13). -/
def slipSet (t : Team) : Nat := t.slips.foldl (fun m e => if e.2 == .set then m ||| 2 ^ e.1 else m) 0

/-- The special register of an index for a lane of the group (R13, R62). -/
def readSpecial (s : State) (g : Cur) (r : LaneRef) (i : Nat) : W32 :=
  let t := g.team s
  let team := s.team t
  let p := teamPkt s t
  let ord := team.ordinal
  let n (x : Nat) : W32 := BitVec.ofNat 32 x
  match i with
  | 0 => n r.lane
  | 1 => n (s.wave g.core r.slot).number
  | 2 => n ord
  | 3 => n (ord % p.gx)
  | 4 => n (ord / p.gx % p.gy)
  | 5 => n (ord / (p.gx * p.gy))
  | 6 => n (tidOf s g.core r)
  | 7 => n p.threads
  | 8 => n (g.core % 80)
  | 9 => n (g.core % 80 / 20)
  | 10 => n (dieOf g.core)
  | 11 => n (2 * (g.core % 80) / 5)
  | 12 => n s.pkgNum
  | 13 => s.cycles.extractLsb' 0 32
  | 14 => s.cycles.extractLsb' 32 32
  | 15 => n (slipSet team)
  | 16 => n (slipSet team / 2 ^ 32)
  | 17 => g.active
  | 18 => n (s.launch team.launch).id
  | 19 => n (rcbId s p.rcb)
  | 20 => n (effPolver s p.rcb)
  | 21 => n p.teams
  | 22 => n p.gx
  | 23 => n p.gy
  | 24 => n p.gz
  | 25 => n p.waves
  | 26 => n (2 ^ r.lane - 1)
  | 27 => n (2 ^ (r.lane + 1) - 1)
  | 28 => n (2 ^ 32 - 2 ^ (r.lane + 1))
  | 29 => n (2 ^ 32 - 2 ^ r.lane)
  | 30 => n (g.quad s)
  | 31 => n p.dieset.toNat
  | 32 => n p.scratch
  | 33 => n p.priv
  | 34 => n p.windows
  | 35 => n p.argBase
  | 36 => n (p.argBase / 2 ^ 32)
  | 37 => n p.codeBase
  | 38 => n (p.codeBase / 2 ^ 32)
  | 39 => n p.asid
  | _ => 0

end Sys2Proof.Machine
end

