-- ==== Sys2Proof/Machine/Operands.lean ====
section
/-! DEFINITION. The operand forms of a Dolmin word: sources by class and type (R56 to R61, R76), destinations (R57, R131) and
the checks of declared counts (R11, R12). -/

namespace Sys2Proof.Machine

/-- What a word reads: the state it issues in, its group, the contributing lanes with their slots (R146), and the words of
an entry popped by a queue operand (R270). -/
structure Env where
  s : State
  g : Cur
  act : List (Nat × LaneRef)
  pop : List W32
  /-- the outcome predicate of a non-blocking queue operand, and its value (R63) -/
  nb : Option (BitVec 3 × Bool)
  deriving DecidableEq, Repr

/-- How an immediate takes its value (R60). -/
inductive ImmT where
  | int
  | n64
  | fp (F : Fmt)
  /-- two packed elements -/
  | pair (F : Fmt)
  /-- four packed bytes -/
  | bytes
  deriving DecidableEq, Repr

/-- A short immediate as a 32-bit value (R60). -/
def shortImm (k : BitVec 9) : ImmT → W32
  | .int | .n64 => k.signExtend 32
  | .fp F => BitVec.ofNat 32 (roundRne F (Val.ofInt k.toInt))
  | .pair F => let x := roundRne F (Val.ofInt k.toInt); BitVec.ofNat 32 (x + 65536 * x)
  | .bytes => BitVec.ofNat 32 ((k.toNat % 256) * 0x01010101)

/-- A short immediate as a 64-bit value (R60). -/
def shortImm64 (k : BitVec 9) : ImmT → W64
  | .fp _ => BitVec.ofNat 64 (roundRne fp64 (Val.ofInt k.toInt))
  | _ => k.signExtend 64

/-- A C immediate as a 64-bit value (R60). -/
def longImm64 (c : W32) : ImmT → W64
  | .fp _ => BitVec.ofNat 64 (roundRne fp64 (f32 c))
  | .n64 => c.zeroExtend 64
  | _ => c.signExtend 64

abbrev LaneAt := Nat × LaneRef

/-- A 32-bit value source of a lane (R57, R60). -/
def Env.src (e : Env) (l : LaneAt) (o : Opnd) (t : ImmT) : W32 :=
  match o with
  | .v n => readV e.s e.g.core l.2 n.toNat
  | .s n => readS e.s e.g.core l.2 n.toNat
  | .sp n => readSpecial e.s e.g l.2 n.toNat
  | .q _ _ _ => e.pop.getD (l.1 % 16) 0
  | .imm k => shortImm k t
  | _ => 0

/-- A 64-bit value source of a lane (R12, R61). -/
def Env.src64 (e : Env) (l : LaneAt) (o : Opnd) (t : ImmT) : W64 :=
  match o with
  | .v n => readV e.s e.g.core l.2 (n.toNat + 1) ++ readV e.s e.g.core l.2 n.toNat
  | .s n => readS e.s e.g.core l.2 (n.toNat + 1) ++ readS e.s e.g.core l.2 n.toNat
  | .imm k => shortImm64 k t
  | _ => 0

/-- The c operand at 32 and 64 bits (R59). -/
def Env.c (e : Env) (l : LaneAt) (f : Form) (t : ImmT) : W32 :=
  match f.c with | .imm c => c | .reg o _ => e.src l o t
def Env.c64 (e : Env) (l : LaneAt) (f : Form) (t : ImmT) : W64 :=
  match f.c with | .imm c => longImm64 c t | .reg o _ => e.src64 l o t

/-- The b operand of an entry without c: an immediate in C replaces it (R59). -/
def Env.b (e : Env) (l : LaneAt) (f : Form) (t : ImmT) : W32 :=
  match f.c with | .imm c => c | .reg _ _ => e.src l f.b t
def Env.b64 (e : Env) (l : LaneAt) (f : Form) (t : ImmT) : W64 :=
  match f.c with | .imm c => longImm64 c t | .reg _ _ => e.src64 l f.b t

/-- A predicate source: nul reads false (R57). -/
def Env.pred (e : Env) (l : LaneAt) (o : Opnd) : Bool :=
  match o with | .p n => readP e.s e.g.core l.2 n.toNat | _ => false

/-- `n` vector registers from the one named. -/
def Env.vregs (e : Env) (l : LaneAt) (o : Opnd) (n : Nat) : List W32 :=
  match o with
  | .v k => (List.range n).map fun i => readV e.s e.g.core l.2 (k.toNat + i)
  | _ => List.replicate n 0

def Env.sregs (e : Env) (l : LaneAt) (o : Opnd) (n : Nat) : List W32 :=
  match o with
  | .s k => (List.range n).map fun i => readS e.s e.g.core l.2 (k.toNat + i)
  | _ => List.replicate n 0

/-- A local address: (x + k) mod 2^32 (R76). -/
def Env.addr (e : Env) (l : LaneAt) (f : Form) : W32 :=
  e.src l f.a .int + (match f.c with | .imm k => k | .reg _ _ => 0)

/-- The lowest contributing slot, whose operands a word that acts once takes. -/
def Env.first (e : Env) : LaneAt := e.act.headD (0, ⟨e.g.slot, 0⟩)

def Env.core (e : Env) : Nat := e.g.core
def Env.team (e : Env) : Nat := e.g.team e.s
def Env.pkt (e : Env) : Packet := teamPkt e.s e.team
def Env.die (e : Env) : Nat := dieOf e.g.core

/-- Contributing lanes: those of the group whose guard is true (R55, R146). -/
def contributing (s : State) (g : Cur) (guard : BitVec 4) : List LaneAt :=
  g.lanes.filter fun l => readP s g.core l.2 (guard.extractLsb' 0 3).toNat != guard.getLsbD 3

/-! ## Destinations -/

/-- What one lane writes. -/
inductive Wr where
  | w32 (o : Opnd) (x : W32)
  | w64 (o : Opnd) (x : W64)
  | pr (o : Opnd) (b : Bool)
  /-- consecutive registers from the one named -/
  | group (o : Opnd) (xs : List W32)
  /-- the thread's rounding generator (R40) -/
  | gen (g : W32)
  deriving DecidableEq, Repr

/-- Consecutive registers with their values. -/
def numbered (n : Nat) : List W32 → List (Nat × W32)
  | [] => []
  | x :: xs => (n, x) :: numbered (n + 1) xs

/-- The destinations of a lane; a scalar register takes the value of the lowest contributing lane, `writer` (R131). -/
def Wr.dests (r : LaneRef) (writer : Bool) (w : Wr) : List Dest :=
  let many (o : Opnd) (xs : List W32) : List Dest :=
    match o with
    | .v n => (numbered n.toNat xs).map fun e => .v r e.1 e.2
    | .s n => if writer then (numbered n.toNat xs).map fun e => .s r.slot e.1 e.2 else []
    | _ => []
  match w with
  | .w32 o x => many o [x]
  | .w64 o x => many o [x.extractLsb' 0 32, x.extractLsb' 32 32]
  | .group o xs => many o xs
  | .pr (.p n) b => [.p r n.toNat b]
  | .pr _ _ => []
  | .gen _ => []

/-- The generator after the word (R40). -/
def Wr.newGen : Wr → Option W32
  | .gen g => some g
  | _ => none

/-! ## Declared counts -/

/-- Registers a slot covers (R12, R195 to R197, R311). -/
def slotWidth : Slot → Nat
  | .src64 | .dst64 => 2
  | .quad => 4
  | .octet => 8
  | .vgroup n | .sgroup n => n
  | _ => 1

def cWidth : CSlot → Nat
  | .src64 | .src64Reg => 2
  | _ => 1

/-- The registers that an operand covers lie below the declared counts (R11, R12). -/
def opndDeclared (p : Packet) (w : Nat) : Opnd → Bool
  | .v n => decide (n.toNat + w ≤ p.regs)
  | .s n => decide (n.toNat + w ≤ p.sregs)
  | _ => true

def formDeclared (opc : Nat) (p : Packet) (f : Form) : Bool :=
  let sp := opSpec opc f.mod
  opndDeclared p (slotWidth sp.d) f.d && opndDeclared p (slotWidth sp.a) f.a && opndDeclared p (slotWidth sp.b) f.b &&
  opndDeclared p (cWidth sp.c) f.c.opnd

/-- The source registers of a lane hold poison (R192). -/
def poisonedOpnd (s : State) (core : Nat) (r : LaneRef) (w : Nat) (o : Opnd) : Bool :=
  match o with
  | .v n => (s.lane core r).poison.any fun k => decide (n.toNat ≤ k) && decide (k < n.toNat + w)
  | .s n => (s.wave core r.slot).sPoison.any fun k => decide (n.toNat ≤ k) && decide (k < n.toNat + w)
  | _ => false

def slotReads : Slot → Bool
  | .src | .src64 | .vreg | .uni | .addr | .addrReg | .addrS | .quad | .octet | .vgroup _ | .sgroup _ => true
  | _ => false

/-- The lane that BCAST reads, as its operand b names it (R95). -/
def bcastSource (s : State) (core : Nat) (r : LaneRef) (b : Opnd) : LaneRef :=
  let i : W32 := match b with | .s n => readS s core r n.toNat | .imm k => shortImm k .int | _ => 0
  ⟨r.slot, i.toNat % 32⟩

def readsPoison (s : State) (core opc : Nat) (f : Form) (r : LaneRef) : Bool :=
  let sp := opSpec opc f.mod
  (slotReads sp.a && poisonedOpnd s core r (slotWidth sp.a) f.a) ||
  (slotReads sp.b && poisonedOpnd s core r (slotWidth sp.b) f.b) ||
  poisonedOpnd s core r (cWidth sp.c) f.c.opnd ||
  -- STLM and ACCWR read the registers that D names
  ((opc == 0x7D || opc == 0xCD) && poisonedOpnd s core r (slotWidth sp.d) f.d) ||
  -- QPUSH reads lanes 0 to 15
  (opc == 0xBC && (List.range 16).any fun i => poisonedOpnd s core ⟨r.slot, i⟩ 1 f.a) ||
  -- BCAST reads another lane's register
  (opc == 0x49 && poisonedOpnd s core (bcastSource s core r f.b) 1 f.a)

end Sys2Proof.Machine
end

