-- ==== Sys2Proof/Machine/Flags.lean ====
section
/-! DEFINITION. The flags: the completion flags f0 to f11 of a thread (R20 to R22), and what integer instructions compute
into predicates: fitting, carries, borrows and compares (R83, R86, R91, R92). -/

namespace Sys2Proof.Machine

/-! ## Completion flags -/

/-- The flag an FSET value names in the lane's clause header: none for 00, for a header field of 15, or outside a
clause (R20, R21). -/
def Lane.flagOf (l : Lane) (fset : BitVec 2) : Option Nat :=
  match l.clause with
  | none => none
  | some c =>
    let x := if fset == 1 then c.flagA.toNat else if fset == 2 then c.flagB.toNat else 15
    if x < 12 then some x else none

def Lane.flagCount (l : Lane) (k : Nat) : Nat := tgetD l.flags k 0

/-- A flag counts up to 63 outstanding instructions (R20). -/
def Lane.flagFull (l : Lane) (fset : BitVec 2) : Bool :=
  match l.flagOf fset with
  | some k => decide (63 ≤ l.flagCount k)
  | none => false

def Lane.mark (l : Lane) (k : Nat) : Lane := { l with flags := tset l.flags k (l.flagCount k + 1) }

/-- One marking instruction fewer; a flag that counts none is clear (R20). -/
def Lane.unmark (l : Lane) (k : Nat) : Lane :=
  if l.flagCount k ≤ 1 then { l with flags := tdel l.flags k } else { l with flags := tset l.flags k (l.flagCount k - 1) }

/-- Every flag of a WAIT mask is clear (R22). -/
def Lane.flagsClear (l : Lane) (mask : BitVec 12) : Bool :=
  (List.range 12).all fun k => !mask.getLsbD k || l.flagCount k == 0

/-! ## Integer results -/

/-- An integer type: its width and signedness. -/
structure ITy where
  w : Nat
  signed : Bool
  deriving DecidableEq, Repr

def s32 : ITy := ⟨32, true⟩
def n32 : ITy := ⟨32, false⟩
def s64 : ITy := ⟨64, true⟩
def n64 : ITy := ⟨64, false⟩

/-- ext(x, T): the bits read as a number (R83). -/
def ext {w : Nat} (x : BitVec w) (t : ITy) : Int := if t.signed then x.toInt else (x.toNat : Int)

/-- fit(x, T, sat) as the bits of the result (R83). -/
def fit (x : Int) (t : ITy) (sat : Bool) : Nat :=
  let y := if sat then max (minInt t.w t.signed) (min x (maxInt t.w t.signed)) else x
  (y % (2 ^ t.w : Nat)).toNat

def fit32 (x : Int) (t : ITy) (sat : Bool) : W32 := BitVec.ofNat 32 (fit x t sat)
def fit64 (x : Int) (t : ITy) (sat : Bool) : W64 := BitVec.ofNat 64 (fit x t sat)

/-- IADDC: the sum with its carry out (R86). -/
def addCarry (a b : W32) (c : Bool) : W32 × Bool :=
  let s := a.toNat + b.toNat + c.toNat
  (BitVec.ofNat 32 s, decide (2 ^ 32 ≤ s))

/-- ISUBB: the difference with its borrow out (R86). -/
def subBorrow (a b : W32) (c : Bool) : W32 × Bool :=
  let s : Int := (a.toNat : Int) - b.toNat - c.toNat
  (BitVec.ofInt 32 s, decide (s < 0))

/-- The integer compares (R91). -/
def cmpInt (code : Nat) (a b : Int) : Bool :=
  match code with
  | 0 => a == b
  | 1 => a != b
  | 2 => decide (a < b)
  | 3 => decide (a ≤ b)
  | 4 => decide (b < a)
  | _ => decide (b ≤ a)

/-- The floating compares (R92). -/
def cmpFloat (code : Nat) (a b : Val) : Bool :=
  let un := a.isNan || b.isNan
  let lt := !un && a.lt b
  let eq := !un && a.eq b
  let gt := !un && b.lt a
  match code with
  | 0 => eq
  | 1 => !un && !eq
  | 2 => lt
  | 3 => lt || eq
  | 4 => gt
  | 5 => gt || eq
  | 6 => !un
  | 7 => un
  | 8 => eq || un
  | 9 => !eq
  | 10 => lt || un
  | 11 => lt || eq || un
  | 12 => gt || un
  | _ => gt || eq || un

/-- BOP: how the outcome combines with the predicate c (R91). -/
def combine (bop : Nat) (r c : Bool) : Bool :=
  match bop with
  | 0 => r
  | 1 => r && c
  | 2 => r || c
  | _ => r != c

end Sys2Proof.Machine
end

