-- ==== Sys2Proof/Machine/Episode.lean ====
section
/-! DEFINITION. Episodes and their mailboxes (R315, R318, R320, R321, R326), as waves, carrels and the ends of launches share
them. -/

namespace Sys2Proof.Machine

/-- Zero bytes performed at their home (R318). -/
def zeroHome (s : State) (pa n : Nat) : State :=
  let hbm := s.hbm.filter fun e => e.1 < pa || pa + n ≤ e.1
  { s with
    hbm := hbm
    l2Dirty := s.l2Dirty.filter fun e => e.1 < pa || pa + n ≤ e.1
    hbmPoison := s.hbmPoison.filter fun l => l * 128 < pa || pa + n < l * 128 + 128
    cmds := s.cmds.map fun e => (e.1, testWatch hbm pa (pa + n) e.2) }

/-! ## Entries -/

def mbxSize : Nat := 8

/-- A 64-byte mailbox entry (R320). -/
def mbxEntry (step : W32) (pol : W16) (status flags : Nat) (payload : List Byte) : List Byte :=
  leBytes 4 step.toNat ++ leBytes 2 pol.toNat ++ leBytes 1 status ++ leBytes 1 flags ++
    (payload ++ List.replicate 56 0).take 56

def entryStep (e : List Byte) : W32 := BitVec.ofNat 32 (leNat (e.take 4))
def entryPol (e : List Byte) : W16 := BitVec.ofNat 16 (leNat ((e.drop 4).take 2))
def entryStatus (e : List Byte) : Nat := (e.getD 6 0).toNat
def entryFlags (e : List Byte) : Nat := (e.getD 7 0).toNat
def entryWord (e : List Byte) (i : Nat) : W32 := BitVec.ofNat 32 (leNat ((e.drop (4 * i)).take 4))

/-- The current step of an episode (R321). -/
def Carrel.step (c : Carrel) : W32 := c.active.getD c.lastStep

/-- The ENDED entry (R320). -/
def Carrel.endedEntry (c : Carrel) : List Byte := mbxEntry c.step 0 5 0 []

/-- The step owed and its policy (R326). -/
def Carrel.owed (c : Carrel) : W32 × W16 :=
  match c.active with
  | some n => (n, c.activePol)
  | none => match c.actions with
    | a :: _ => (entryStep a, entryPol a)
    | [] => (c.lastStep, c.lastPol)

/-- ec cycles the step timer has counted (R325). -/
def Carrel.elapsed (now : Nat) (c : Carrel) : Nat :=
  c.timer + (match c.timerFrom with | some t => now - t | none => 0)

/-- The timer runs while the carrel owes work and is not blocked on a full observation mailbox (R325). -/
def Carrel.owes (c : Carrel) : Bool :=
  c.state == .running && (c.active.isSome || !c.actions.isEmpty) &&
    !(c.active.isSome && c.waiting && c.obs.length ≥ mbxSize)

/-- Bring the timer into line with the carrel's state (R325). -/
def Carrel.retime (now : Nat) (c : Carrel) : Carrel :=
  match c.owes, c.timerFrom with
  | true, none => { c with timerFrom := some now }
  | false, some t => { c with timer := c.timer + (now - t), timerFrom := none }
  | _, _ => c

/-- The end of an episode: the thread stops, the actions still waiting are discarded, and the end's observation is posted
or held (R315, R320, R326). -/
def Carrel.finish (now : Nat) (c : Carrel) (cause : Nat) (obs : Option (List Byte)) : Carrel :=
  let c := { c with state := .ended, cause := cause, actions := [], waiting := false, susp := none }
  let c := c.retime now
  match obs with
  | none => c
  | some e => if c.obs.length < mbxSize then { c with obs := c.obs ++ [e] } else { c with heldObs := some e }

/-- End as FAULT, with the exception's values (R315, R326). -/
def Carrel.faulted (now : Nat) (c : Carrel) (mcause mtval pc : W64) : Carrel :=
  let (st, pol) := c.owed
  c.finish now 5 (some (mbxEntry st pol 4 0
    (leBytes 8 mcause.toNat ++ leBytes 8 mtval.toNat ++ leBytes 8 pc.toNat)))

/-- End as TIMEOUT (R326). -/
def Carrel.timedOut (now : Nat) (c : Carrel) (budget : Bool) : Carrel :=
  let (st, pol) := c.owed
  c.finish now (if budget then 3 else 2) (some (mbxEntry st pol 2 (if budget then 4 else 0) []))

/-- The start state of a carrel thread (R317); a restart keeps the step state and the mailboxes (R328). -/
def Carrel.start (c : Carrel) : Carrel :=
  { c with
    pc := BitVec.ofNat 64 (0x40000000 + c.entry)
    x := tset (tset (tset (tset [] 10 c.arg) 11 0x80000000) 12 (BitVec.ofNat 64 c.arenaLen)) 2 0x40000
    fr := [], fcsr := 0, vr := [], vl := 0, vtype := BitVec.ofNat 64 (2 ^ 63), vstart := 0, vcsr := 0, instret := 0
    reservation := none, resPa := none
    sram := [] }

/-! ## Queue registers -/

/-- Every queue register bound to a mailbox of the episode is freed (R318, R322). -/
def freeBindings (s : State) (die c : Nat) : State :=
  { s with cores := s.cores.map fun (k, x) => (k, { x with waves := x.waves.map fun (n, w) =>
      (n, { w with q := w.q.filter fun b => !(b.2.die == die && b.2.carrel == c) }) })
           teams := s.teams.map fun (k, x) => (k, { x with savedWaves := x.savedWaves.map fun (n, w) =>
      (n, { w with q := w.q.filter fun b => !(b.2.die == die && b.2.carrel == c) }) }) }

/-- The words of an entry go to lanes 0 to 15 of a register that have not exited (R269). -/
def popDests (s : State) (core slot reg : Nat) (e : List Byte) : List Dest :=
  (List.range 16).filterMap fun i =>
    match tget (s.wave core slot).lanes i with
    | some l => if l.exited then none else some (.v ⟨slot, i⟩ reg (entryWord e i))
    | none => none

def Wait.slot (w : Wait) : Nat := (w.lanes.headD ⟨0, 0⟩).slot

/-- A blocked pop or peek completes with an entry, a blocked operand is granted it (R269, R270). -/
def deliverPop (s : State) (core : Nat) (w : Wait) (e : List Byte) : State :=
  match w.kind with
  | .queuePop _ _ reg _ =>
    let s := forEach (popDests s core w.slot reg e) s fun s d => d.write s core
    finishWait s core w
  | .queueSrc _ _ =>
    let s := setWait s core w.bid (.granted e)
    forEach w.lanes s fun s r => setBlock s core r .none
  | _ => s

/-- An EPCLOSE of a saved team is done at its restore (R318, R345). -/
def closeSaved (die c : Nat) (w : Wait) : Wait := if w.kind == .close die c then { w with kind := .granted [] } else w

/-- A queue access of a saved team completes at its restore: with an entry, or with none for a push (R318, R345). -/
def grantSaved (die c : Nat) (ended : List Byte) (w : Wait) : Wait :=
  match w.kind with
  | .queuePush d c' _ => if d == die && c' == c then { w with kind := .granted [], d := .nul } else w
  | .queuePop d c' reg _ => if d == die && c' == c then { w with kind := .granted ended, d := .v (BitVec.ofNat 8 reg) } else w
  | .queueSrc d c' => if d == die && c' == c then { w with kind := .granted ended } else w
  | _ => w

/-- The accesses in flight at an EPCLOSE complete: pops with the ENDED entry, pushes discarded (R318). -/
def completeAccesses (s : State) (die c : Nat) : State :=
  let ended := (s.carrel die c).endedEntry
  let s := { s with teams := s.teams.map fun e => (e.1, { e.2 with savedWaits := e.2.savedWaits.map (grantSaved die c ended) }) }
  forEach s.cores s fun s (k, x) => forEach x.waits s fun s w =>
    match w.kind with
    | .queuePush d c' _ => if d == die && c' == c then finishWait s k w else s
    | .queuePop d c' _ _ | .queueSrc d c' => if d == die && c' == c then deliverPop s k w ended else s
    | _ => s

/-! ## Closing -/

/-- Lines of the die's L2 that a range of physical bytes meets are dropped: the range is written at its home. -/
def dropLoansIn (s : State) (die pa n : Nat) : State :=
  s.onDie die fun d => { d with loans := d.loans.filter fun l => l.line * 128 + 128 ≤ pa || pa + n ≤ l.line * 128 }

/-- The scrub of an arena from an offset, page by page (R318): an absent page suspends it with a docket entry, a page
that cannot be written is skipped. The answer is true when it is done. -/
def scrubGo : Nat → State → Nat → Nat → Nat → Bool × State
  | 0, s, _, _, _ => (true, s)
  | n + 1, s, die, c, off =>
    let k := s.carrel die c
    if off ≥ k.arenaLen then (true, s)
    else
      let (t, s) := translate s die k.asid (k.arena + off) true
      match t with
      | .hbm pa e =>
        -- a sibling page takes no plain write (R306)
        scrubGo n (if pteSibling e then s else dropLoansIn (zeroHome s pa 65536) die pa 65536) die c (off + 65536)
      | .absent =>
        let (id, s) := dockFault s (ctxOf s k.rcb) 0 { (default : DockEntry) with
          kind := 1, source := 3, addr := k.arena + off, write := true, asid := k.asid, die := die, core := 0xFF,
          tslot := 0xFF, cls := 0xFF, who := c, launch := (s.launch k.launch).id, rcb := rcbId s k.rcb }
        (false, s.onCarrel die c fun k => { k with scrub := some off, susp := some id })
      | _ => scrubGo n s die c (off + 65536)

/-- The carrel is free: only its generation is kept (R317, R318). -/
def freeCarrel (s : State) (die c : Nat) : State :=
  let s := s.onCarrel die c fun k => { (default : Carrel) with gen := k.gen }
  let s := { s with teams := s.teams.map fun e => (e.1, { e.2 with savedWaits := e.2.savedWaits.map (closeSaved die c) }) }
  -- a word that waits for this scrub is done
  forEach s.cores s fun s (k, x) => forEach x.waits s fun s w =>
    if w.kind == .close die c then
      let s := forEach w.lanes s fun s r => match w.d with
        | .p i => writeP s k r i.toNat true
        | _ => s
      finishWait s k w
    else s

/-- The scrub goes on; when it is done the carrel is free (R318). -/
def scrub (s : State) (die c : Nat) : Bool × State :=
  let k := s.carrel die c
  let (done, s) := scrubGo (k.arenaLen / 65536 + 1) (s.onCarrel die c fun k => { k with susp := none }) die c (k.scrub.getD 0)
  if done then (true, freeCarrel s die c) else (false, s)

/-- EPCLOSE of an episode, and the close that the end of its launch makes (R318). The answer is true when it is scrubbed
and free. -/
def closeEpisode (s : State) (die c : Nat) : Bool × State :=
  let s := s.onCarrel die c fun k => if k.state == .running then k.finish s.now 6 none else k
  let s := completeAccesses s die c
  let s := s.onCarrel die c fun k => { k with actions := [], obs := [], heldObs := none, scrub := some 0, sram := [] }
  scrub (freeBindings s die c) die c

/-- The carrels that a launch's episodes hold. -/
def episodesOf (s : State) (launch : Nat) : List (Nat × Nat) :=
  s.dies.flatMap fun (d, x) => x.carrels.filterMap fun (c, k) =>
    if k.state != .free && k.launch == launch then some (d, c) else none

end Sys2Proof.Machine
end

