-- ==== Sys2Proof/Machine/Teardown.lean ====
section
/-! DEFINITION. The ends of teams and launches: what a retirement and a termination free (R144, R174, R176, R291, R334), the
fault report (R335) and the end of a launch (R224). -/

namespace Sys2Proof.Machine

/-! ## Folios and tiles -/

def folioSize : Nat := 13312

/-- Every byte of a folio reads zero (R185). -/
def zeroFolio (c : Core) (f : Nat) : Core :=
  { c with folio := c.folio.filter (fun e => e.1 / 16384 != f), folioPoison := c.folioPoison.filter (fun l => l / 128 != f) }

/-- Every element of a tile reads +0 (R272). -/
def zeroTile (c : Core) (t : Nat) : Core :=
  { c with tiles := tdel c.tiles t, tilePoison := c.tilePoison.filter (fun e => e / 2048 != t), tileTag := tdel c.tileTag t }

/-! ## Window lines of a team -/

/-- The private lines of a wave (R175). -/
def privateOf (w : Wave) (asid : Nat) (l : CLine) : Bool :=
  l.priv && l.asid == asid && l.line / 2 ^ 14 == w.privBase.toNat / 2 ^ 21

/-- A released entry goes to the wave at the head of the reservation queue (R178). -/
def releaseMse (s : State) (core id : Nat) : State :=
  let s := s.onCore core fun c => { c with
    mses := c.mses.filter fun m => m.id != id
    waves := c.waves.map fun w => (w.1, { w.2 with lanes := w.2.lanes.map fun l =>
      (l.1, if l.2.block == .fill id then { l.2 with block := .none } else l.2) }) }
  match (s.core core).resq with
  | [] => s
  | w :: ws =>
    let s := s.onCore core fun c => { c with resq := ws, mseKept := c.mseKept ++ [w] }
    s.onWave core w fun x => { x with rejects := 0 }

/-- Private lines of a wave are dropped, and fills of them that are in flight come to nothing (R176). -/
def dropPrivate (s : State) (core slot : Nat) : State :=
  let w := s.wave core slot
  let asid := teamAsid s w.team
  let s := s.onCore core fun c => { c with lines := c.lines.filter fun l => !privateOf w asid l }
  forEach ((s.core core).mses.filter fun m => m.asid == asid && m.line / 2 ^ 14 == w.privBase.toNat / 2 ^ 21) s fun s m =>
    releaseMse s core m.id

/-- The lines with a dirty byte of the team (R174). -/
def teamDirty (s : State) (t : Nat) : List CLine :=
  (s.core (s.team t).core).lines.filter fun l => !l.priv && !l.dirty.isEmpty && l.writers.contains t

/-- A line whose write-back cannot succeed loses its dirty bytes and is invalid (R180). -/
def dropLine (s : State) (core asid line : Nat) : State := s.onCore core fun c => delLine c asid line

/-! ## Freeing -/

/-- The slots of a team. -/
def slotsOf (s : State) (t : Nat) : List Nat :=
  (s.core (s.team t).core).waves.filterMap fun e => if e.2.team == t then some e.1 else none

/-- What a core holds for a team is freed: its slots, waves, outstanding and waiting words, reform bins and groups,
blocks, claims, folios, tiles and operations (R144, R291, R334). -/
def freeOnCore (c : Core) (t : Team) (id : Nat) (slots cmds : List Nat) : Core :=
  let mine (r : LaneRef) : Bool := slots.contains r.slot
  let zeroing := (c.waits.filter fun w => w.lanes.any mine).map fun w => match w.kind with
    | .release fs ts => (fs, ts)
    | _ => ([], [])
  let fs := zeroing.flatMap (·.1)
  let ts := zeroing.flatMap (·.2)
  -- a saved team keeps only the tiles that its tag is on (R346)
  let saved := t.status == .saved
  let c := (if saved then [] else t.folios ++ fs).foldl zeroFolio c
  let c := (if saved then t.tiles.filter (fun k => tget c.tileTag k == some id) else t.tiles ++ ts).foldl zeroTile c
  { c with
    folioZero := c.folioZero.filter fun k => !fs.contains k
    tileZero := c.tileZero.filter fun k => !ts.contains k
    tslots := c.tslots.filter fun e => e.2 != id
    waves := c.waves.filter fun e => !slots.contains e.1
    pends := c.pends.filter fun p => !p.lanes.any mine
    waits := c.waits.filter fun w => !w.lanes.any mine
    blocks := c.blocks.filter fun b => !t.blocks.contains b
    mses := c.mses.map fun m => { m with waiters := m.waiters.filter fun a => !mine a.r }
    resq := c.resq.filter fun x => !slots.contains x
    mseKept := c.mseKept.filter fun x => !slots.contains x
    bins := c.bins.filter fun b => b.2.team != id
    reformWait := c.reformWait.filter fun r => !mine r.2
    groups := c.groups.filter fun g => g.team != id
    claims := c.claims.filter fun k => k.team != id
    mat := c.mat.filter fun m => m.team != id
    planeTeam := if c.planeTeam == some id then none else c.planeTeam
    queues := c.queues.map fun q => (q.1, q.2.filter fun k => !cmds.contains k) }

def cmdsOf (s : State) (t : Nat) : List Nat :=
  s.cmds.filterMap fun e => if e.2.team == t then some e.1 else none

/-- A command's hold of a table version ends, as one event at the descriptor's home (R382). -/
def releaseHoldAt (s : State) (pa gen : Nat) : State :=
  let d1 := memDw s.hbm (pa + 8)
  let at_ := if gen == bits (memDw s.hbm (pa + 16)) 0 32 then 0 else 32
  homeWrite s (pa + 8 + at_ / 8) (leBytes 4 (bits d1 at_ 32 - 1))

def releaseHold (s : State) (k : Nat) : State :=
  match (s.cmd k).table with
  | some (_, gen, pa) => (releaseHoldAt s pa gen).onCmd k fun c => { c with table := none }
  | none => s

/-- The holds of a team's commands end, those of the commands it has saved too (R382). -/
def releaseHolds (s : State) (t : Nat) (cmds : List Nat) : State :=
  let s := forEach cmds s releaseHold
  let s := forEach (s.savedHolds.filter fun h => h.1 == t) s fun s h => releaseHoldAt s h.2.2.1 h.2.2.2
  { s with savedHolds := s.savedHolds.filter fun h => h.1 != t, savedColls := s.savedColls.filter fun e => e.2.team != t }

/-- A team's work stops at a termination whose report waits for room (R334, R342): its queued and suspended commands end, its
running ones begin no further element, and its matrix operations that have not started are discarded; its claims and other
resources are held. A write that a peer has still to acknowledge keeps its command (R224). -/
def stopCmds (s : State) (t : Nat) (claims : Bool) : State :=
  let cmds := cmdsOf s t
  let s := releaseHolds s t cmds
  -- a command with claims on a cluster peer's scratchpad stays until its unlanded bytes there are zero (R194)
  let peer (k : Nat) : Bool := s.cores.any fun c => c.2.claims.any fun y => y.owner == k && !y.matrix && y.team != t
  let left (e : Nat × Cmd) : Option (Nat × Cmd) :=
    if e.2.team != t then some e
    else if peer e.1 || !e.2.unacked.isEmpty then
      some (e.1, { e.2 with state := .gone, engine := none, slip := none, table := none })
    else none
  let s := { s with cmds := s.cmds.filterMap left }
  let slots := slotsOf s t
  let mine (r : LaneRef) : Bool := slots.contains r.slot
  let releases (w : Wait) : Bool := match w.kind with | .release _ _ => true | _ => false
  if claims then s
  else s.onCore (s.team t).core fun c => { c with
    mat := c.mat.filter fun m => m.team != t || m.started
    -- parked lanes are discarded, and what else its lanes wait for; a release that has begun zeroes on (R272, R334)
    waits := c.waits.filter fun w => !w.lanes.any mine || releases w
    pends := c.pends.filter fun p => !p.lanes.any mine
    mses := c.mses.map fun m => { m with waiters := m.waiters.filter fun a => !mine a.r }
    queues := c.queues.map fun q => (q.1, q.2.filter fun k => !cmds.contains k) }

/-- The team's resources are freed, its commands and the words that wait for it are gone. -/
def freeTeam (s : State) (t : Nat) (st : TeamStatus) : State :=
  let team := s.team t
  let slots := slotsOf s t
  let s := forEach slots s fun s k => dropPrivate s team.core k
  let cmds := cmdsOf s t
  let s := stopCmds s t true
  let s := s.onCore team.core fun c => freeOnCore c team t slots cmds
  s.onTeam t fun x => { x with
    status := st, slots := [], blocks := [], folios := [], tiles := [], windows := [], newWindows := [], slips := [], barriers := []
    batch := [], exits := [], crings := [], srings := [], scratch := [], scratchPoison := [], savedWaves := [], front := default
    back := default, saveAt := 0, saveSize := 0, savedPoison := [], savedWaits := [], savedPends := [], savedGroups := []
    stopping := false, savedOps := [], savedTiles := [], region := false, reportHeld := false }

/-! ## The end of a launch -/

/-- Teams of a launch that are on a core or saved. -/
def liveTeams (s : State) (l : Nat) : List Nat :=
  s.teams.filterMap fun e =>
    if e.2.launch == l && (e.2.status == .resident || e.2.status == .frozen || e.2.status == .saved || e.2.reportHeld)
    then some e.1 else none

/-- Every team of the launch has retired or been terminated, and a launch that admits no more has none left (R144, R334). -/
def launchOver (s : State) (l : Nat) : Bool :=
  let x := s.launch l
  (liveTeams s l).isEmpty && (x.closed || x.done ≥ x.pkt.teams) &&
    -- the release at .sys of its end waits for the acknowledgements of its commands' writes (R224)
    !(s.cmds.any fun e => (s.team e.2.team).launch == l && !e.2.unacked.isEmpty)

def Packet.dies (p : Packet) : List Nat := (List.range 8).filter fun d => p.dieset.getLsbD d

/-- A launch that is over closes its episodes, makes its release at .sys on every die of its die set and sends its END
(R144, R224, R318, R387). A scrub that a fault suspends holds the end back. -/
def endLaunch (s : State) (l : Nat) : State :=
  if (s.launch l).ended || !launchOver s l then s
  else
    let s := forEach (episodesOf s l) s fun s e =>
      if (s.carrel e.1 e.2).scrub.isNone then (closeEpisode s e.1 e.2).2 else s
    if !(episodesOf s l).isEmpty then s
    else
      let x := s.launch l
      let ctx := ctxOf s x.pkt.rcb
      let s := forEach x.pkt.dies s fun s d => releasePkg s ctx d (80 * d) none
      let s := s.onLaunch l fun x => { x with ended := true }
      match x.session with
      | some n => s.event n (leBytes 1 1 ++ leBytes 4 x.id)
      | none => s

/-- One more team of a launch has come to its end. -/
def teamDone (s : State) (t : Nat) : State :=
  let l := (s.team t).launch
  endLaunch (s.onLaunch l fun x => { x with done := x.done + 1 }) l

/-! ## Collectives of a team that ends -/

/-- The communicator slot a COLL command names: the registered descriptor of its GROUP (R367). -/
def collSlot (s : State) (c : Cmd) : Option Nat :=
  (s.comms.find? fun e => e.2.asid == teamAsid s c.team && e.2.va == bits (c.dws.getD 24 0) 0 56).map (·.1)

/-- The lowest port of a communicator's PORTS, over which its digests, closings and aborts go (R365, R367). -/
def firstPort (s : State) (slot : Nat) : Nat :=
  ((List.range 18).find? fun p => bits ((tgetD s.comms slot default).desc.getD 1 0) (32 + p) 1 == 1).getD 0

/-- Members' commands of a started collective complete TIMEOUT: at once, or for one that CSAVE has saved, or whose word waits for
room, once it is posted again (R344, R378). -/
def endMembers (s : State) (mine : Nat × Cmd → Bool) : State :=
  let hit (e : Nat × Cmd) : Bool := mine e &&
    (e.2.state == CmdState.running || e.2.state == CmdState.suspended || e.2.state == CmdState.queued || e.2.state == CmdState.blocked)
  let ended (e : Nat × Cmd) : Nat × Cmd :=
    (e.1, if e.2.state == CmdState.blocked then { e.2 with status := 6 } else { e.2 with state := .following, status := 6 })
  let gone := (s.cmds.filter hit).map (·.1)
  { s with
    cmds := s.cmds.map fun e => if hit e then ended e else e
    savedColls := s.savedColls.map fun e => if mine e then (e.1, { e.2 with status := 6 }) else e
    cores := s.cores.map fun (x : Nat × Core) =>
      (x.1, { x.2 with queues := x.2.queues.map fun q => (q.1, q.2.filter fun k => !gone.contains k) }) }

/-- Every other member's command of a started collective completes TIMEOUT, those of other packages by a message (R378). -/
def abortSeq (s : State) (key : Nat) (slot : Option Nat) (seq : Option W32) : State :=
  match slot, seq with
  | some sl, some q =>
    let others := (tgetD s.comms sl default).members.filter fun m => m.1 != s.pkgNum
    let s := endMembers s fun e => e.1 != key && e.2.kind == 10 && e.2.collSeq == some q && collSlot s e.2 == some sl
    forEach others s fun s m => s.send (firstPort s sl) 3 (.abort m.1 m.2 sl q)
  | _, _ => s

/-- The collectives that a team has started are ended for the other members (R378). -/
def abortColls (s : State) (t : Nat) : State :=
  forEach (s.cmds ++ s.savedColls) s fun (s : State) (x : Nat × Cmd) =>
    if x.2.team == t && x.2.kind == 10 then abortSeq s x.1 (collSlot s x.2) x.2.collSeq else s

/-! ## Termination -/

/-- The code by which a resolvable or final failure of a translation or a poisoned read ends a team, as R335 reports it:
STATUS MEMORY_ERROR for poison, PERMISSION otherwise. -/
def reportStatus (code : Nat) : Nat := if code == 0x0207 then 9 else 8

/-- Write the report of a team (R335). True when it found room; else the team's resources are held (R342). -/
def writeReport (s : State) (t : Nat) (e : DockEntry) (fdom : Nat) : Bool × State :=
  let ctx := teamCtx s t
  let room := dockCount s ctx < dockSize s ctx && (s.ctx ctx).held.isEmpty
  (room, (dockFault s ctx t { e with kind := 2, domain := fdom }).2)

/-- The teams of the fault domain of a team (R334): 0 the team, 1 its launch, 2 its job's subtree, 3 its context's. -/
def domainTeams (s : State) (t fdom : Nat) : List Nat :=
  let l := (s.team t).launch
  let rcb := teamRcb s t
  s.teams.filterMap fun (k, x) =>
    let live := x.status == .resident || x.status == .frozen || x.status == .saved
    let r := teamRcb s k
    let inDom := match fdom with
      | 0 => k == t
      | 1 => x.launch == l
      | 2 => if jobOf s rcb == 0 then x.launch == l else jobOf s r == jobOf s rcb
      | _ => ctxOf s r == ctxOf s rcb
    if live && inDom then some k else none

/-- The launches of the domain admit no further team (R334). -/
def closeLaunches (s : State) (t fdom : Nat) : State :=
  let l := (s.team t).launch
  let rcb := teamRcb s t
  if fdom == 0 then s
  else
    let dead (k : Nat) (x : Launch) : Bool := match fdom with
      | 1 => k == l
      | 2 => if jobOf s rcb == 0 then k == l else jobOf s x.pkt.rcb == jobOf s rcb
      | _ => ctxOf s x.pkt.rcb == ctxOf s rcb
    let ls := (s.launches.filter fun e => !e.2.ended && dead e.1 e.2).map (·.1)
    let s := forEach ls s fun s k => s.onLaunch k fun x => { x with closed := true }
    { s with cores := s.cores.map fun e => (e.1, { e.2 with teamQueue := e.2.teamQueue.filter fun q => !ls.contains q.1 }) }

/-- One team ends at once (R334): its lanes stop, its commands and operations are gone, its dirty window lines are written
back without waiting for a held one, its private lines dropped, its resources freed. The answer holds the lines whose
write-back cannot be resolved, which are dropped. -/
def endTeamLines (s : State) (t : Nat) : List (CLine × Nat) × State :=
  let core := (s.team t).core
  let s := abortColls s t
  let (_, bad, s) := writeBackAll s core (teamDirty s t)
  let s := forEach bad s fun s b => dropLine s core b.1.asid b.1.line
  (bad, freeTeam s t .terminated)

/-- What a termination asks for: the faulting team, its report, and an FDOM in place of the effective one (R355). -/
structure Ending where
  team : Nat
  report : DockEntry
  fdom : Option Nat
  deriving DecidableEq, Repr

/-- A team that is still there. -/
def onHand (s : State) (t : Nat) : Bool :=
  match (s.team t).status with
  | .resident | .frozen | .saved => (tget s.teams t).isSome
  | _ => false

/-- A write-back that cannot be resolved ends the team that last wrote a byte of the line (R180). -/
def endingOf (s : State) (b : CLine × Nat) : Ending :=
  let t := b.1.lastWriter
  { team := t, fdom := none
    report := { teamEntry s t with
      source := 2, fault := b.2, addr := b.1.line * 128, write := true, status := reportStatus b.2 } }

/-- Numbers in rising order of a key. -/
def insertBy (f : Nat → Nat) (x : Nat) : List Nat → List Nat
  | [] => [x]
  | y :: ys => if f y ≤ f x then y :: insertBy f x ys else x :: y :: ys

def sortBy (f : Nat → Nat) (xs : List Nat) : List Nat := xs.foldl (fun ys x => insertBy f x ys) []

/-- A team whose report waits for docket space: it does nothing more, and holds what it has, a saved one the tiles under its
tag alone (R334, R342, R346). -/
def holdTeam (s : State) (t : Nat) : State :=
  let tags := (s.core (s.team t).core).tileTag
  let hold (x : Team) : Team :=
    let x := if x.status == .saved then { x with folios := [], tiles := x.tiles.filter fun k => tget tags k == some t } else x
    { x with status := .terminated, reportHeld := true }
  stopCmds ((abortColls s t).onTeam t hold) t false

/-- One termination: its report, its domain in the order of its cores (R341), and the endings that the write-backs of its lines
ask for (R180, R334, R335). -/
def terminateOne (s : State) (x : Ending) : List Ending × State :=
  let t := x.team
  let dom := x.fdom.getD (effFdom s (teamRcb s t))
  let coreOf (k : Nat) : Nat := (s.team k).core
  let ts := sortBy coreOf (domainTeams s t dom)
  let s := closeLaunches s t dom
  let ended (acc : List (CLine × Nat) × State) (k : Nat) : List (CLine × Nat) × State :=
    let (bad, s) := endTeamLines acc.2 k
    (acc.1 ++ bad, teamDone s k)
  let (bad, s) := (ts.filter fun k => decide (coreOf k < coreOf t)).foldl ended ([], s)
  let (room, s) := writeReport s t x.report dom
  let (bad, s) := (ts.filter fun k => decide (coreOf t ≤ coreOf k)).foldl (fun acc k =>
    if k == t && !room then (acc.1, holdTeam acc.2 k) else ended acc k) (bad, s)
  let s := forEach (s.launches.filter fun l => l.2.closed) s fun s l => endLaunch s l.1
  ((bad.filter fun b => onHand s b.1.lastWriter).map (endingOf s), s)

/-- Terminations, and those that they ask for in turn; each ends at least one team that is there. -/
def terminateAll : Nat → State → List Ending → State
  | 0, s, _ => s
  | _, s, [] => s
  | n + 1, s, x :: xs =>
    if onHand s x.team then
      let (more, s) := terminateOne s x
      terminateAll n s (xs ++ more)
    else terminateAll n s xs

/-- A bound on the terminations that one asks for: a team ends once, and a core's cache has 4,096 lines. -/
def endings : Nat := 2 ^ 20

/-- A fault that cannot be resolved terminates its team's fault domain, with one report (R334, R335). `fdom` overrides the
effective FDOM (R355). -/
def terminate (s : State) (t : Nat) (e : DockEntry) (fdom : Option Nat) : State :=
  terminateAll endings s [{ team := t, report := e, fdom := fdom }]

/-- A team ends, and with it the teams that last wrote the lines that it cannot write back (R180, R334). -/
def endTeam (s : State) (t : Nat) : State :=
  let (bad, s) := endTeamLines s t
  terminateAll endings s (bad.map (endingOf s))

/-- A held report has been written: the team's resources are freed (R342). -/
def freeHeldReport (s : State) (t : Nat) : State :=
  if (s.team t).reportHeld then teamDone (endTeam (s.onTeam t fun x => { x with reportHeld := false }) t) t else s

/-- A fill, write-back or local read of a team fails for good (R335, R338). -/
def terminateAccess (s : State) (t source code addr : Nat) (write : Bool) : State :=
  terminate s t { teamEntry s t with
    source := source, fault := code, addr := addr, write := write, status := reportStatus code } none

/-- The report of a write-back that cannot be resolved goes to the last writer, when it is still there; otherwise the dirty
bytes are dropped (R180). -/
def fatalWriteBack (s : State) (core : Nat) (l : CLine) (code : Nat) : State :=
  let s := dropLine s core l.asid l.line
  terminateAll endings s [endingOf s (l, code)]

/-- Each of the lines that cannot be written back (R180). -/
def resolveBad (s : State) (core : Nat) (bad : List (CLine × Nat)) : State := forEach bad s fun s b => fatalWriteBack s core b.1 b.2

end Sys2Proof.Machine
end

