-- ==== Sys2Proof/Machine/Ops.lean ====
section
/-! DEFINITION. The shared operations of every Dolmin word: code fetch and branch targets (R15, R97), the checks of a word
(R18, R72), taking a trap and returning from one (R27, R329, R330, R333), queue operands (R268, R270), and the issue of
a word for its group (R129, R131, R146). -/

namespace Sys2Proof.Machine

/-! ## Code -/

/-- One byte of a physical line as a die's L2 reads it (R188). -/
def l2Byte (s : State) (die home pa : Nat) : Byte :=
  if home == die then memRead s.hbm pa
  else match findLoan s die (pa / 128) with
    | some l => if l.valid.contains (pa % 128) then memRead l.bytes (pa % 128) else memRead s.hbm pa
    | none => memRead s.hbm pa

/-- Four bytes of code: a walk for code never faults, since code is pinned (R15, R348). -/
def codeBytes4 (s : State) (die asid va : Nat) : Option (List Byte) :=
  match walk s asid va with
  | some (some (e, level)) =>
    let off := va % 2 ^ pageBits level
    match pteTarget e with
    | 0 =>
      let pa := leafPa e level va
      if !keyOk s asid pa then none
      else some ((List.range 4).map fun i => l2Byte s die (homeDie e pa) (pa + i))
    | 2 => some (memReads s.host (bits e 8 40 * 256 + off) 4)
    | _ => none
  | _ => none

/-- Code in a frame whose key slot the context does not own (R388). -/
def codeDenied (s : State) (asid va : Nat) : Bool :=
  [va, va + 4, va + 8].any fun a => match walk s asid a with
    | some (some (e, level)) => pteTarget e == 0 && !keyOk s asid (leafPa e level a)
    | _ => false

/-- The word at an address (R54). -/
def codeWord (s : State) (die asid va : Nat) : Option W96 := do
  let a ← codeBytes4 s die asid va
  let b ← codeBytes4 s die asid (va + 4)
  let c ← codeBytes4 s die asid (va + 8)
  some (BitVec.ofNat 96 (leNat (a ++ b ++ c)))

/-- The code range of a thread: its launch's, or the monitor's in monitor mode (R15, R329). -/
def codeRange (s : State) (t : Nat) (mon : Bool) : Nat × Nat :=
  let p := teamPkt s t
  if mon then (effTrapEntry s p.rcb, effMonLen s p.rcb) else (p.codeBase, p.codeLen)

/-- The address of a branch target's offset; none is ILLEGAL_TARGET (R97). -/
def resolve (s : State) (core t : Nat) (mon : Bool) (off : Nat) : Option VA :=
  let (base, len) := codeRange s t mon
  if off % 4 != 0 || off + 12 > len then none
  else match codeWord s (dieOf core) (teamAsid s t) (base + off) with
    | some w => if w.extractLsb' 0 8 == 0 then some (BitVec.ofNat 56 (base + off)) else none
    | none => none

/-- The offset of an address from the base of the thread's code (R97, R331), modulo 2^32. -/
def codeOffset (s : State) (t : Nat) (mon : Bool) (pc : VA) : W32 :=
  (pc - BitVec.ofNat 56 (codeRange s t mon).1).extractLsb' 0 32

/-! ## Taking a trap -/

/-- An outstanding long-latency instruction of the lane (R27). -/
def outstanding (s : State) (core : Nat) (r : LaneRef) : Bool := (s.core core).pends.any fun p => p.lanes.contains r

/-- A lane enters the monitor (R329, R331). -/
def Lane.enter (l : Lane) (cause : Nat) (word : W96) (group : W32) (entry : VA) (e : TrapEntry) : Lane :=
  { l with
    pc := entry, clause := none, block := .none, mon := true, atEntry := false
    mregs := { l.mregs with
      origin := e.origin, cause := BitVec.ofNat 32 cause, mepc := e.mepc, mhdr := e.mhdr, mtag := e.tag, word := word,
      mcd := BitVec.ofNat 32 l.cd, group := group } }

/-- The lanes of a trap enter the monitor at TRAPENTRY (R329). -/
def enterMonitor (s : State) (core t cause : Nat) (word : W96) (group : W32) (es : List TrapEntry) : State :=
  let entry := BitVec.ofNat 56 (effTrapEntry s (teamRcb s t))
  forEach es s fun s e => s.onLane core e.r fun l => l.enter cause word group entry e

/-- The word at a lane's PC is not wholly inside its code range (R15). -/
def outsideCode (s : State) (t : Nat) (l : Lane) : Bool :=
  let (base, len) := codeRange s t l.mon
  decide (l.pc.toNat < base) || decide (l.pc.toNat + 12 > base + len)

/-- What each lane of a group records (R329, R331): a PC outside the code range stands in both MEPC and MHDR. -/
def trapEntries (s : State) (g : Cur) (t : Nat) (svc : Bool) (origin : List LaneRef) (tag : LaneRef → W32) : List TrapEntry :=
  g.refs.map fun r =>
    let l := s.lane g.core r
    { r := r, origin := origin.contains r, tag := tag r
      mepc := codeOffset s t false (if svc then l.pc + 12 else l.pc)
      mhdr := codeOffset s t false (if outsideCode s t l then l.pc else match l.clause with | some c => c.hdr | none => l.pc) }

/-- A trap of an issue group at its word: every lane of the group enters the monitor together, once its outstanding
instructions have completed (R27, R329); without a monitor, or in monitor mode, the team is terminated (R330). -/
def takeTrap (s : State) (g : Cur) (cause : Nat) (origin : List LaneRef) (tag : LaneRef → W32) : State :=
  let t := g.team s
  let es := trapEntries s g t (cause == 0x0B) origin tag
  let double := g.refs.any fun r => (s.lane g.core r).mon
  if double || effMonLen s (teamRcb s t) == 0 then
    let e := (es.find? (·.origin)).getD (es.headD default)
    terminate s t { teamEntry s t with
      source := 5, fault := 0x0300 + cause + (if double then 0x80 else 0), status := 7
      extra := leBytes 4 cause ++ leBytes 4 e.mepc.toNat ++ leBytes 4 e.tag.toNat } none
  else
    let s := setGroup s g []
    let s := forEach g.refs s fun s r => s.onLane g.core r fun l => { l with age := 0, groupAge := 0 }
    if g.refs.any (outstanding s g.core) then
      blockWord s g.core g.refs (.trap cause g.word g.active es) .nul .nul
    else enterMonitor s g.core t cause g.word g.active es

/-! ## The return from a trap -/

/-- ERET of one lane (R333): the address it returns to and the clause it stands in there; none is a double trap. -/
def eretTarget (s : State) (core t : Nat) (m : MonRegs) : Option (VA × Option ClauseCtx) :=
  let base := (codeRange s t false).1
  let h := base + m.mhdr.toNat
  let at_ := base + m.mepc.toNat
  let inside : Option ClauseCtx :=
    match codeWord s (dieOf core) (teamAsid s t) h with
    | some w => match decodeHeader w with
      | .ok hd =>
        let n := hd.len.toNat + 1
        if h < at_ && (at_ - h) % 12 == 0 && (at_ - h) / 12 ≤ n then
          some { hdr := BitVec.ofNat 56 h, left := n + 1 - (at_ - h) / 12, flagA := hd.flagA, flagB := hd.flagB }
        else none
      | .error _ => none
    | none => none
  match inside with
  | some c => some (BitVec.ofNat 56 at_, some c)
  | none => (resolve s core t false m.mepc.toNat).map fun a => (a, none)

/-- Back in user mode, with the call depth of MCD (R333). -/
def Lane.leave (l : Lane) (pc : VA) (c : Option ClauseCtx) : Lane :=
  { l with pc := pc, clause := c, mon := false, cd := l.mregs.mcd.toNat, block := .none, mregs := { l.mregs with origin := false } }

/-! ## The checks of a word -/

/-- A scalar register named as a destination (R139). -/
def writesScalar (f : Form) : Bool := match f.d with | .s _ => true | _ => false

/-- The mask instructions JOIN, LEAVE, JWAIT, JSET and JGET (R139). -/
def isMaskOp (opc : Nat) : Bool := decide (0x59 ≤ opc) && decide (opc ≤ 0x5D)

/-- The checks of a word that are made whatever its guard (R18): the cause it raises. -/
def checkWord (s : State) (g : Cur) (opc : Nat) (f : Form) : Option Nat :=
  let sp := opSpec opc f.mod
  let l := s.lane g.core (g.refs.headD ⟨g.slot, 0⟩)
  let left := (l.clause.map (·.left)).getD 1
  if !(f.ok opc && formDeclared opc (teamPkt s (g.team s)) f) then some 0x01
  else if f.fset != 0 && (l.flagOf f.fset).isNone then some 0x01
  else if sp.last && left != 1 then some 0x01
  else if sp.monitor && !l.mon then some 0x0C
  else if l.inRegion && (writesScalar f || isMaskOp opc || f.queues != 0) then some 0x09
  else none

/-! ## Queue operands -/

/-- The arena of an episode, as the range that confines a release or an acquire (R221). -/
def arenaOf (k : Carrel) : Nat × Nat := (k.arena, k.arenaLen)

/-- A window line lies in a range of global addresses. -/
def lineIn (va n line : Nat) : Bool := decide (line * 128 < va + n) && decide (va < line * 128 + 128)

/-- The acquire of a pop, confined to the arena (R221). -/
def acquireArena (s : State) (core : Nat) (k : Carrel) : State :=
  let s := dropClean s core k.asid (lineIn k.arena k.arenaLen)
  acquirePkg s (ctxOf s k.rcb) (dieOf core) (some (arenaOf k)) false

/-- What a pop of an observation mailbox finds: an entry, with the ENDED entry of an ended episode (R269, R320). -/
def observe (k : Carrel) : Option (List Byte) :=
  match k.obs with
  | e :: _ => some e
  | [] => if k.state == .ended && k.heldObs.isNone then some k.endedEntry else none

/-- The pop itself, an acquire (R221, R269). -/
def popObs (s : State) (core die c : Nat) (peek : Bool) : State :=
  let s := if peek then s else s.onCarrel die c fun k => { k with obs := k.obs.drop 1 }.retime s.now
  acquireArena s core (s.carrel die c)

/-- The queue operand of a word, which pops once for it (R270). -/
def queueOperand (opc : Nat) (f : Form) : Option (BitVec 4 × Bool × BitVec 3) :=
  let sp := opSpec opc f.mod
  let q (o : Opnd) : Option (BitVec 4 × Bool × BitVec 3) := match o with | .q n nb p => some (n, nb, p) | _ => none
  match (if sp.a == .src then q f.a else none), (if sp.b == .src then q f.b else none) with
  | some x, _ => some x
  | none, some x => some x
  | none, none => q f.c.opnd

/-- What a queue operand gives the word: words and an outcome, a block, or a trap. -/
inductive Popped where
  | got (pop : List W32) (nb : Option (BitVec 3 × Bool)) (s : State)
  | wait (kind : WaitKind)
  | trap
  deriving DecidableEq, Repr

def entryWords (e : List Byte) : List W32 := (List.range 16).map (entryWord e)

/-- A grant held by a lane's blocked word (R318). -/
def grantOf (s : State) (core : Nat) (r : LaneRef) : Option Wait :=
  (s.core core).waits.find? fun w => w.lanes.contains r && match w.kind with | .granted _ => true | _ => false

def popOperand (s : State) (g : Cur) (act : List LaneAt) (opc : Nat) (f : Form) : Popped :=
  match queueOperand opc f with
  | none => .got [] none s
  | some (n, nb, p) =>
    let first := (act.headD (0, ⟨g.slot, 0⟩)).2
    match grantOf s g.core first with
    | some w => match w.kind with
      | .granted e => .got (entryWords e) none (dropWait s g.core w.bid)
      | _ => .trap
    | none => match tget (s.wave g.core first.slot).q n.toNat with
      | none => .trap
      | some b =>
        if b.push then .trap
        else match observe (s.carrel b.die b.carrel) with
          | some e => .got (entryWords e) (if nb then some (p, true) else none) (popObs s g.core b.die b.carrel false)
          | none => if nb then .got [] (some (p, false)) s else .wait (.queueSrc b.die b.carrel)

/-- The lanes of a word with a queue operand whose entry another of its issues has popped, or which have none popped while the
first lane has one: each entry serves the lanes of its own issue, which issue apart (R130, R270). -/
def otherGrants (s : State) (g : Cur) (act : List LaneAt) : List LaneRef :=
  let of_ (l : LaneAt) : Option Nat := (grantOf s g.core l.2).map (·.bid)
  (act.filter fun l => of_ l != of_ (act.headD (0, ⟨g.slot, 0⟩))).map (·.2)

/-! ## The issue of a word -/

/-- What a word comes to once its checks have passed. -/
inductive Res where
  /-- it has issued; the lanes of `stay` do not go to the next word by it -/
  | done (s : State) (stay : List LaneRef)
  /-- it traps, with the lanes that raised the cause and each lane's tag -/
  | trap (cause : Nat) (origin : List LaneRef) (tag : LaneRef → W32)
  /-- its team has ended, or the step leaves the lanes where they stand -/
  | stop (s : State)

/-- A new outstanding instruction, which marks its flag in every contributing lane (R20, R131): the flags that the clause
the lanes stand in at issue, in `s0`, names. -/
def addPendFrom (s0 s : State) (core : Nat) (f : Form) (lanes : List LaneRef) (dests : List Dest) (loads : List LoadWait)
    (samples : List RdSample) (held : Nat) : Nat × State :=
  let (id, s) := s.freshId core
  let marks := lanes.filterMap fun r => ((s0.lane core r).flagOf f.fset).map fun k => (r, k)
  let p : Pend := { id := id, lanes := lanes, dests := dests, marks := marks, loads := loads, samples := samples, held := held }
  let s := forEach marks s fun s m => s.onLane core m.1 fun l => l.mark m.2
  (id, s.onCore core fun c => { c with pends := c.pends ++ [p] })

def addPend (s : State) (core : Nat) (f : Form) (lanes : List LaneRef) (dests : List Dest) (loads : List LoadWait)
    (samples : List RdSample) (held : Nat) : Nat × State :=
  addPendFrom s s core f lanes dests loads samples held

/-- The destinations of every contributing lane, with the outcome of a non-blocking queue operand (R63, R131). -/
def Env.dests (e : Env) (ws : LaneAt → List Wr) : List Dest :=
  let nb : List Wr := match e.nb with | some (p, b) => [.pr (.p p) b] | none => []
  e.act.flatMap fun l => (ws l ++ nb).flatMap fun w => w.dests l.2 (l.2 == e.first.2)

/-- The generators that the word leaves (R40). -/
def setGens (e : Env) (ws : LaneAt → List Wr) (s : State) : State :=
  forEach e.act s fun s l => match (ws l).filterMap Wr.newGen with
    | g :: _ => s.onLane e.core l.2 fun x => { x with g := g }
    | [] => s

/-- The results of a word: written at once, or outstanding for a long-latency word (R19, R23). -/
def commit (e : Env) (long : Bool) (f : Form) (ws : LaneAt → List Wr) : State :=
  let ds := e.dests ws
  let s := setGens e ws e.s
  if long then (addPend s e.core f (e.act.map (·.2)) ds [] [] 0).2
  else forEach ds s fun s d => d.write s e.core

/-- The results of a word over the state that its other effects have reached. -/
def Env.results (e : Env) (opc : Nat) (f : Form) (s : State) (ws : LaneAt → List Wr) : State :=
  commit { e with s := s } (f.isLong opc) f ws

/-- Words whose body writes no destination at issue, beside those that name none but SEED and VTOP: BART, LMON, LMWAIT, RINGWAIT, ACCWR. -/
def writesLater (opc : Nat) : Bool := [0x64, 0x6C, 0x6D, 0xBA, 0xCD].contains opc

/-- Words of local memory with a queue operand: the outstanding word that they open writes the outcome. -/
def writesWithAccess (opc : Nat) : Bool := decide (0x70 ≤ opc) && decide (opc ≤ 0x8F)

/-- The outcome predicate of a non-blocking queue operand (R63), for a word whose body writes no destination at issue. -/
def putOutcome (e : Env) (opc : Nat) (f : Form) (s : State) : State :=
  if e.nb.isSome && !writesWithAccess opc && (((opSpec opc f.mod).d == .none && opc != 0xDE && opc != 0x4B) || writesLater opc) then
    (addPendFrom e.s s e.core f (e.act.map (·.2)) (e.dests fun _ => []) [] [] 0).2
  else s

/-! ## Rejections -/

/-- R178: the counts of the home waves of a group's lanes, the reservation queue, and the event counter of rejections (R356). -/
def countRejects (s : State) (core : Nat) (group rejected : List LaneRef) : State :=
  let s := forEach (group.map (·.slot)).eraseDups s fun s slot =>
    if rejected.any fun r => r.slot == slot then
      let n := (s.wave core slot).rejects + 1
      let s := s.onWave core slot fun w => { w with rejects := n }
      if n ≥ 16 && !(s.core core).resq.contains slot then s.onCore core fun c => { c with resq := c.resq ++ [slot] } else s
    else s.onWave core slot fun w => { w with rejects := 0 }
  match rejected with
  | [] => s
  | r :: _ => countEv s (s.wave core r.slot).team 4 rejected.length

/-- Words that access local space, whose own effect counts rejections: CALL, CALLX, RET, LMON and rows 7 and 8. -/
def mayReject (opc : Nat) : Bool := [0x04, 0x05, 0x06, 0x6C].contains opc || (decide (0x70 ≤ opc) && decide (opc ≤ 0x8F))

/-- The issue of a word: one that accesses no local space rejects no lane, so its waves' counts return to 0 (R178). -/
def issued (opc : Nat) (s : State) (g : Cur) (stay : List LaneRef) : State :=
  wordIssued (if mayReject opc then s else countRejects s g.core g.refs []) g stay

/-- A word issues for its group: its checks, the lanes that wait for room in a flag, its queue operand, and its effect in
the contributing lanes (R18, R20, R128, R131, R270). A word with no contributing lane has no other effect. -/
def issueWord (opc : Nat) (f : Form) (s : State) (g : Cur) (body : Env → Res) : State :=
  let t := g.team s
  match checkWord s g opc f with
  | some c => takeTrap s g c g.refs fun _ => 0
  | none =>
    let act0 := contributing s g f.guard
    let full := (act0.filter fun l => (s.lane g.core l.2).flagFull f.fset).map (·.2)
    let g1 := { g with lanes := g.lanes.filter fun l => !full.contains l.2 }
    let act1 := act0.filter fun l => !full.contains l.2
    let later := if f.popsSource (opSpec opc f.mod) then otherGrants s g act1 else []
    let g1 := { g with lanes := g1.lanes.filter fun l => !later.contains l.2 }
    let act := act1.filter fun l => !later.contains l.2
    let s := forEach full s fun s r => setBlock s g.core r (.flagFull (((s.lane g.core r).flagOf f.fset).getD 0))
    let counted (s : State) : State := countEv (countEv s t 1 1) t 2 g1.lanes.length
    if g1.lanes.isEmpty then setGroup s g []
    else if act.isEmpty then counted (wordIssued (countRejects s g.core g1.refs []) g1 [])
    else if act.any fun l => readsPoison s g.core opc f l.2 then terminateAccess s t 5 0x0207 0 false
    else
      match (if f.popsSource (opSpec opc f.mod) then popOperand s g1 act opc f else .got [] none s) with
      | .trap => takeTrap s g1 0x01 (act.map (·.2)) fun _ => 0
      | .wait k =>
        let refs := act.map (·.2)
        counted (issued opc (blockWord s g.core refs k .nul .nul) g1 refs)
      | .got pop nb s1 =>
        let e : Env := { s := s1, g := g1, act := act, pop := pop, nb := nb }
        match body e with
        | .done s2 stay => counted (issued opc (putOutcome e opc f s2) g1 stay)
        | .trap c origin tag => takeTrap s g1 c origin tag
        | .stop s2 => s2

/-- The meaning of a Dolmin word, for the group that issues it. -/
def runWord (opc : Nat) (f : Form) (s : State) (body : Env → Res) : Host.Outcome State Fault Refusal :=
  match s.cur with
  | none => .fault .noIssueGroup
  | some g => .next (issueWord opc f s g body)

/-- A word that acts per lane, with short or long latency by R19. -/
def laneWord (opc : Nat) (f : Form) (s : State) (ws : Env → LaneAt → List Wr) : Host.Outcome State Fault Refusal :=
  runWord opc f s fun e => .done (commit e (f.isLong opc) f (ws e)) []

/-- A word that changes nothing but where its lanes stand. -/
def nopWord (opc : Nat) (f : Form) (s : State) : Host.Outcome State Fault Refusal :=
  runWord opc f s fun e => .done e.s []

end Sys2Proof.Machine
end

