-- ==== Sys2Proof/Machine/Hart.lean ====
section
/-! DEFINITION. What a carrel's hart reaches: its SRAM quarter, the image and the arena (R313), the integer registers, and the
fetch of an instruction (R312). -/

namespace Sys2Proof.Machine

/-- A range of a carrel (R313): SRAM, image or arena, with the offset. -/
inductive HPlace where
  | sram (off : Nat)
  | image (off : Nat)
  | arena (off : Nat)
  | none
  deriving DecidableEq, Repr

def hartPlace (k : Carrel) (a n : Nat) : HPlace :=
  if a + n ≤ 0x40000 then .sram a
  else if 0x40000000 ≤ a && a + n ≤ 0x40000000 + k.imageLen then .image (a - 0x40000000)
  else if 0x80000000 ≤ a && a + n ≤ 0x80000000 + k.arenaLen then .arena (a - 0x80000000)
  else .none

/-- What an access of a hart comes to: bytes, an absent page at a global address, or an access fault at an address of the carrel. -/
inductive HAcc where
  | ok (bs : List Byte) (s : State)
  | absent (va : Nat) (s : State)
  | fault (a : Nat) (s : State)
  deriving DecidableEq, Repr

/-- The faulting address of an access to a range as the carrel sees it: it was found at a global address (R313). -/
def HAcc.seen (base glob : Nat) : HAcc → HAcc
  | .fault va s => .fault (base + (va - glob)) s
  | r => r

/-- The first byte of an access that lies in no range (R313). -/
def firstOutside (k : Carrel) (a n : Nat) : Nat := (((List.range n).map (a + ·)).find? fun b => hartPlace k b 1 == .none).getD a

/-- The translation of a hart's read: a load, or a fetch, which needs X (R313, R348). -/
def hartTrans (s : State) (die asid va : Nat) (fetch : Bool) : Trans × State :=
  if fetch then translateWith s die asid va fun s e level => fetchTrans s asid va e level else translate s die asid va false

/-- Bytes at a global address through the die's L2, one page at a time (R188, R313); a poisoned line is a fault that cannot be
resolved (R315, R338). -/
def hartGlobalRead (s : State) (die asid : Nat) (fetch : Bool) : Nat → Nat → HAcc
  | _, 0 => .ok [] s
  | va, n + 1 =>
    match hartTrans s die asid va fetch with
    | (.hbm pa e, s) =>
      let (line, bad, s1) := readLine s die e pa
      if bad then .fault va s1
      else match hartGlobalRead s1 die asid fetch (va + 1) n with
        | .ok bs s2 => .ok (line.getD (pa % 128) 0 :: bs) s2
        | r => r
    | (.absent, s) => .absent va s
    | (_, s) => .fault va s

/-- Where the bytes of a store go, each translated before any is written (R313). -/
def hartGlobalPlaces (s : State) (die asid : Nat) : Nat → Nat → HAcc × List (Nat × Nat)
  | _, 0 => (.ok [] s, [])
  | va, n + 1 =>
    match translate s die asid va true with
    | (.hbm pa e, s) =>
      if pteSibling e then (.fault va s, [])
      else match hartGlobalPlaces s die asid (va + 1) n with
        | (.ok bs s2, l) => (.ok bs s2, (homeDie e pa, pa) :: l)
        | r => r
    | (.absent, s) => (.absent va s, [])
    | (_, s) => (.fault va s, [])

/-- A store that stays in one line reaches the die's L2 as one event (R208); one that crosses lines goes byte by byte. -/
def hartGlobalWrite (s : State) (die asid va : Nat) (bs : List Byte) : HAcc :=
  match hartGlobalPlaces s die asid va bs.length with
  | (.ok _ s, []) => .ok [] s
  | (.ok _ s, (home, pa) :: ps) =>
    if va % 128 + bs.length ≤ 128 then .ok [] (l2Write s die home pa bs)
    else .ok [] (forEach (((home, pa) :: ps).zip bs) s fun s e => l2Write s die e.1.1 e.1.2 [e.2])
  | (r, _) => r

/-- The arena's frames carry the episode's key slot (R314, R388). -/
def arenaKeys (s : State) (k : Carrel) (off n : Nat) : State := tagPages s k.asid k.keyslot (k.arena + off) n

/-- A read of a hart: a load or a fetch (R313). -/
def hartRead (s : State) (die c a n : Nat) (fetch : Bool) : HAcc :=
  let k := s.carrel die c
  match hartPlace k a n with
  | .sram off => .ok (memReads k.sram off n) s
  | .image off => (hartGlobalRead s die k.asid fetch (k.image + off) n).seen 0x40000000 k.image
  | .arena off =>
    if fetch then .fault a s
    else (hartGlobalRead (arenaKeys s k off n) die k.asid false (k.arena + off) n).seen 0x80000000 k.arena
  | .none => .fault (firstOutside k a n) s

/-- A write of a hart (R313): the image, and a reward checker's arena, permit none. -/
def hartWrite (s : State) (die c a : Nat) (bs : List Byte) : HAcc :=
  let k := s.carrel die c
  match hartPlace k a bs.length with
  | .sram off => .ok [] (s.onCarrel die c fun k => { k with sram := memWrites k.sram off bs })
  | .arena off =>
    if k.stateless then .fault a s
    else (hartGlobalWrite (arenaKeys s k off bs.length) die k.asid (k.arena + off) bs).seen 0x80000000 k.arena
  | .image _ => .fault a s
  | .none => .fault (firstOutside k a bs.length) s

/-- An integer register; x0 reads zero and takes no write. -/
def Carrel.xget (k : Carrel) (i : Nat) : W64 := if i == 0 then 0 else tgetD k.x i 0
def Carrel.xset (k : Carrel) (i : Nat) (v : W64) : Carrel := if i == 0 then k else { k with x := tset k.x i v }

/-- What a fetch finds: an instruction of 2 or 4 bytes, or why there is none. -/
inductive HFetch where
  | word (w : W32) (compressed : Bool) (s : State)
  | absent (va : Nat) (s : State)
  /-- with the address that faults -/
  | fault (a : Nat) (s : State)
  deriving DecidableEq, Repr

/-- The instruction at the hart's pc: 32 bits where the two low bits are 11, else 16. -/
def hartFetch (s : State) (die c : Nat) : HFetch :=
  let pc := (s.carrel die c).pc.toNat
  match hartRead s die c pc 2 true with
  | .ok lo s1 =>
    if leNat lo % 4 == 3 then
      match hartRead s1 die c (pc + 2) 2 true with
      | .ok hi s2 => .word (BitVec.ofNat 32 (leNat (lo ++ hi))) false s2
      | .absent va s2 => .absent va s2
      | .fault a s2 => .fault a s2
    else .word (BitVec.ofNat 32 (leNat lo)) true s1
  | .absent va s1 => .absent va s1
  | .fault a s1 => .fault a s1

/-- The carrel executes: it runs an episode, is not suspended and does not wait. -/
def Carrel.runs (k : Carrel) : Bool := k.state == .running && k.susp.isNone && !k.waiting

/-- On to the next instruction; one more retired (R312). -/
def Carrel.retire (k : Carrel) (len : Nat) : Carrel :=
  { k with pc := k.pc + BitVec.ofNat 64 len, instret := k.instret + 1 }

end Sys2Proof.Machine
end

