-- ==== Sys2Proof/Machine/Local.lean ====
section
/-! DEFINITION. Local space (R169 to R178, R193, R194): the checks of local addresses, landing claims, the window cache with its
fills, ways and rejections, and the accesses of a word. -/

namespace Sys2Proof.Machine

/-! ## Regions -/

/-- Where a local access falls (R169). -/
inductive Place where
  | scratch (a : Nat)
  | window (va : Nat) (wr : Bool)
  | priv (off : Nat)
  | none
  deriving DecidableEq, Repr

def localPlace (p : Packet) (t : Team) (addr n : Nat) : Place :=
  if addr + n ≤ p.scratch then .scratch addr
  else if 0x40000000 ≤ addr && addr < 0x80000000 then
    let k := (addr - 0x40000000) / 0x08000000
    let o := (addr - 0x40000000) % 0x08000000
    let w := tgetD t.windows k default
    if k < p.windows && o + n ≤ w.len then .window (w.base + o) w.wr else .none
  else if 0x80000000 ≤ addr && addr + n ≤ 0x80000000 + p.priv then .priv (addr - 0x80000000)
  else .none

/-- The global address of byte `i` of private offset `o` of a lane (R175). -/
def privByte (base : VA) (lane o : Nat) : Nat := base.toNat + o / 4 * 128 + 4 * lane + o % 4

/-- The tests of R193, by number; `uniform` accesses reach no private space (R196, R197). -/
def testLocal (p : Packet) (t : Team) (kind : Nat) (uniform : Bool) (addr n : Nat) : Option Nat :=
  let aligned : Option Nat := if addr % n != 0 then some 4 else none
  match localPlace p t addr n with
  | .none => some 1
  | .scratch _ => aligned
  | .window _ wr => if 2 ≤ kind then some 2 else if kind == 1 && !wr then some 3 else aligned
  | .priv _ => if uniform then some 1 else if 2 ≤ kind then some 2 else aligned

/-- Folio-space tests of LDF and STF (R198). -/
def testFolio (t : Team) (addr n : Nat) : Option Nat :=
  if addr / 2 ^ 20 != 0 || 13312 < addr % 16384 + n || !t.folios.contains (addr / 16384 % 64) then some 1
  else if addr % n != 0 then some 4 else none

/-- The cause of a failed test (R193). -/
def testCause (k : Nat) : Nat := if k == 2 then 0x0A else if k == 4 then 0x04 else 0x03

/-- The access with where it falls, and the global addresses of its bytes (R171, R175). -/
def Access.locate (s : State) (core : Nat) (p : Packet) (t : Team) (a : Access) : Access :=
  if a.space == 2 then a
  else match localPlace p t a.addr a.size with
    | .scratch x => { a with space := 0, addr := x }
    | .window va _ => { a with space := 1, glob := (List.range a.size).map (va + ·) }
    | .priv o =>
      let b := (s.wave core a.r.slot).privBase
      { a with space := 1, glob := (List.range a.size).map fun i => privByte b a.r.lane (o + i) }
    | .none => a

/-! ## Landing claims -/

/-- The units that an access touches (R194): scratchpad lines, folio rows, and the scale area as row 128. -/
def folioUnit (addr : Nat) : Nat :=
  addr / 16384 * 129 + (if addr % 16384 < 12288 then addr % 16384 / 96 else 128)

def Access.units (a : Access) : List Nat :=
  if a.space == 0 then [a.addr / 128, (a.addr + a.size - 1) / 128]
  else if a.space == 2 then [folioUnit a.addr, folioUnit (a.addr + a.size - 1)]
  else []

/-- A claim holds an access back (R194): loads wait for landing; stores wait for the command, or for a source to be read. -/
def Claim.holds (k : Claim) (team : Nat) (a : Access) : Bool :=
  k.team == team && k.folio == (a.space == 2) && a.space != 1 &&
  a.units.any fun u => decide (k.first ≤ u) && decide (u ≤ k.last) &&
    (if a.kind == 0 || a.kind == 3 then k.dest && k.waiting.contains u
     else if k.dest then true else k.waiting.contains u)

def claimed (c : Core) (team : Nat) (a : Access) : Bool := c.claims.any fun k => k.holds team a

/-- A read of a record waits for destination claims as a load does (R194, R257). -/
def recordClaimed (s : State) (core t a n : Nat) : Bool :=
  ((List.range n).map fun i => (a + i) / 128).eraseDups.any fun u =>
    (s.core core).claims.any fun k => k.team == t && k.dest && !k.folio && k.waiting.contains u

/-! ## Scratchpad and folio bytes -/

/-- Every monitor of the team armed on a written line fires (R205). -/
def fireMonitors (s : State) (core t : Nat) (lines : List Nat) : State :=
  s.onCore core fun c => { c with waves := c.waves.map fun e =>
    if e.2.team != t then e
    else (e.1, { e.2 with lanes := e.2.lanes.map fun l => match l.2.lmon with
      | .armed n => if lines.contains n then (l.1, { l.2 with lmon := .fired }) else l
      | _ => l }) }

/-- Bytes written to a team's scratchpad by any agent: each line wholly written loses its poison (R192), armed monitors fire
(R205). -/
def scratchWrite (s : State) (t a : Nat) (bs : List Byte) : State :=
  let core := (s.team t).core
  let s := s.onTeam t fun x => { x with
    scratch := memWrites x.scratch a bs, scratchPoison := unpoison x.scratchPoison a bs.length }
  fireMonitors s core t (linesOf a bs.length)

/-- Bytes written to the folio store, by folio address (R184). -/
def folioWrite (s : State) (core a : Nat) (bs : List Byte) : State :=
  s.onCore core fun c => { c with folio := memWrites c.folio a bs, folioPoison := unpoison c.folioPoison a bs.length }

/-! ## The window cache: lines, ways and miss-status entries -/

/-- A docket entry of a team, for its context (R340). -/
def dockTeam (s : State) (t : Nat) (e : DockEntry) : Nat × State := dockFault s (teamCtx s t) t e

def findMse (c : Core) (asid line : Nat) : Option Mse := c.mses.find? fun m => m.asid == asid && m.line == line

/-- Lines that may be replaced in a set: no fill in flight, no held write-back (R394). -/
def replaceable (c : Core) (line : Nat) : List CLine :=
  let ways := windowWays c
  c.lines.filter fun l => l.line % 256 == line % 256 && ways.contains l.way && (findMse c l.asid l.line).isNone && l.held.isNone

/-- Write back and drop a victim, from a list in the order the device tries them. -/
def evict : List CLine → State → Nat → Option (Nat × State)
  | [], _, _ => none
  | l :: ls, s, core =>
    match writeBack s core l with
    | (.done, s) => some (l.way, s.onCore core fun c => delLine c l.asid l.line)
    | (.held, s) => evict ls s core
    | (.fatal code _, s) => some (l.way, fatalWriteBack s core l code)

/-- A way of the line's set for it: a free one, or a victim's; the device chooses (R394). None rejects the access. -/
def takeWay (s : State) (core line : Nat) : Option (Nat × State) :=
  let c := s.core core
  let used := (c.lines.filter fun l => l.line % 256 == line % 256).map (·.way)
  let free := (windowWays c).filter fun w => !used.contains w
  match free with
  | w :: _ => some (free.getD (s.pick (3000 + line) free.length) w, s)
  | [] =>
    let vs := replaceable c line
    let k := s.pick (3000 + line) vs.length
    evict (vs.drop k ++ vs.take k) s core

/-- A private line is created zero-filled at its first touch: never written back since admission, and the wave not restored
(R176). -/
def firstUse (w : Wave) (line : Nat) : Bool := !w.restored && !w.privSaved.contains line

/-- Place a line in the cache with no byte valid, or zero-filled. -/
def placeLine (s : State) (core asid line : Nat) (priv zero : Bool) : Bool × State :=
  match findLine (s.core core) asid line with
  | some _ => (true, s)
  | none => match takeWay s core line with
    | none => (false, s)
    | some (w, s) =>
      let l : CLine := { (default : CLine) with
        asid := asid, line := line, way := w, priv := priv, valid := if zero then List.range 128 else [] }
      (true, s.onCore core fun c => setLine c l)

/-- Entries that a wave may take: the free ones, and one that is kept for it (R177, R178). -/
def freeMses (c : Core) (slot : Nat) : Nat := 64 - c.mses.length - (c.mseKept.filter (· != slot)).length

/-- A fill in flight for a line (R173, R177). -/
def startFill (s : State) (core slot t asid line : Nat) (prefetch : Bool) : State :=
  let (id, s) := s.freshId core
  let s := s.onCore core fun c => { c with
    mses := c.mses ++ [{ id := id, asid := asid, line := line, slot := slot, waiters := [], prefetch := prefetch }]
    mseKept := c.mseKept.erase slot }
  countEv s t 3 1

/-- Make sure of a line for an access: present for a store, and for a load present with its bytes valid or a fill in flight.
False rejects the lanes that need it (R177, R394). -/
def needLine (s : State) (core : Nat) (r : LaneRef) (t asid line : Nat) (priv store : Bool) (bytes : List Nat) : Bool × State :=
  let c := s.core core
  let hit := match findLine c asid line with
    | some l => store || bytes.all fun g => l.valid.contains (g % 128)
    | none => false
  let fresh := priv && firstUse (s.wave core r.slot) line
  if hit || (!store && (findMse c asid line).isSome) then (true, s)
  else if store || (fresh && (findLine c asid line).isNone) then placeLine s core asid line priv fresh
  else if freeMses c r.slot == 0 then (false, s)
  else match placeLine s core asid line priv false with
    | (false, s) => (false, s)
    | (true, s) => (true, startFill s core r.slot t asid line false)

def Access.isPriv (a : Access) : Bool := a.space == 1 && decide (0x80000000 ≤ a.addr)

def Access.lines (a : Access) : List Nat := (a.glob.map (· / 128)).eraseDups

/-- The lines of a lane's accesses are made sure of, all of them whatever comes of the others (R177). -/
def needLines (s : State) (core t asid : Nat) (a : Access) : Bool × State :=
  a.lines.foldl (fun (acc : Bool × State) line =>
    let (ok, s) := needLine acc.2 core a.r t asid line a.isPriv (a.kind == 1) (a.glob.filter fun g => g / 128 == line)
    (acc.1 && ok, s)) (true, s)

/-- A byte of the window cache, when it is valid. -/
def windowByte (c : Core) (asid g : Nat) : Option Byte :=
  match findLine c asid (g / 128) with
  | some l => if l.valid.contains (g % 128) then some (memRead l.bytes (g % 128)) else none
  | none => none

def windowDirty (c : Core) (asid g : Nat) : Bool :=
  match findLine c asid (g / 128) with
  | some l => l.dirty.contains (g % 128)
  | none => false

/-- What a load finds: the valid bytes, but that an aligned 8 bytes of which one has to be filled come with the fill, dirty bytes
excepted, so that they are read at one instant (R173, R208). -/
def windowLoad (c : Core) (asid : Nat) (glob : List Nat) : List (Option Byte) :=
  let missing (k : Nat) : Bool := glob.any fun g => g / 8 == k && (windowByte c asid g).isNone
  glob.map fun g => if missing (g / 8) && !windowDirty c asid g then none else windowByte c asid g

def windowPoison (c : Core) (asid : Nat) (g : Nat) : Bool :=
  match findLine c asid (g / 128) with
  | some l => l.poison && l.valid.contains (g % 128)
  | none => false

/-- One byte stored into its line (R173). -/
def windowPut (s : State) (core t asid g : Nat) (b : Byte) : State :=
  s.onCore core fun c => match findLine c asid (g / 128) with
    | some l =>
      let l := l.put (g % 128) [b]
      setLine c { l with writers := if l.writers.contains t then l.writers else t :: l.writers, lastWriter := t }
    | none => c


/-! ## Results -/

def extendTo (w : W32) (n : Nat) (signed : Bool) : W32 :=
  let x := w.toNat % 2 ^ n
  BitVec.ofNat 32 (if signed && x ≥ 2 ^ (n - 1) then x + (2 ^ 32 - 2 ^ n) else x)

/-- What the bytes of a load write (R131, R195 to R197). -/
def loadDests (r : LaneRef) (writer : Bool) (sh : LoadShape) (bs : List Byte) : List Dest :=
  let ws := w32s bs
  match sh with
  | .words reg => (numbered reg ws).map fun e => .v r e.1 e.2
  | .scalars reg => if writer then (numbered reg ws).map fun e => .s r.slot e.1 e.2 else []
  | .ext o n sg => (Wr.w32 o (extendTo (ws.headD 0) n sg)).dests r writer
  | .opnd o => (Wr.group o ws).dests r writer

def onPend (s : State) (core id : Nat) (f : Pend → Pend) : State :=
  s.onCore core fun c => { c with pends := c.pends.map fun p => if p.id == id then f p else p }

/-- A load's bytes reach its instruction: known ones at once, the others with their fills (R26, R173). -/
def landLoad (s : State) (core asid : Nat) (a : Access) (bs : List (Option Byte)) : State :=
  if bs.all Option.isSome then
    let ds := loadDests a.r a.writer a.shape (bs.filterMap id)
    onPend s core a.pend fun p => { p with dests := p.dests ++ ds }
  else
    let w : LoadWait := { r := a.r, shape := a.shape, bytes := a.glob.zip bs, writer := a.writer, asid := asid, poison := false }
    let s := onPend s core a.pend fun p => { p with loads := p.loads ++ [w] }
    let lines := (((a.glob.zip bs).filter fun e => e.2.isNone).map fun e => e.1 / 128).eraseDups
    s.onCore core fun c => { c with mses := c.mses.map fun m =>
      if m.asid == asid && lines.contains m.line then { m with waiters := m.waiters ++ [a] } else m }

/-! ## The value of a load -/

/-- Loads in flight take their bytes from the L2 now: before a later store to them (R26, R208), and before a FENCE or a post
that must come after them (R212, R213). `lane` and `byte` select the loads and their bytes. Where the page is absent they take
them at their replay, or before a write-back of the line (`feedEarlier`). -/
def fixLoads (s : State) (core : Nat) (lane : LaneRef → Bool) (byte : Nat → Nat → Bool) : State :=
  let die := dieOf core
  let ws := ((s.core core).pends.flatMap (·.loads)).filter fun w => lane w.r
  let lines := (ws.flatMap fun w => (w.bytes.filter fun b => b.2.isNone && byte w.asid b.1).map fun b => (w.asid, b.1 / 128)).eraseDups
  forEach lines s fun s x =>
    match translate s die x.1 (x.2 * 128) false with
    | (.hbm pa e, s) =>
      let (bs, bad, s) := readLine s die e pa
      let feed (w : LoadWait) : LoadWait := if lane w.r then feedBytes x.1 x.2 bs bad (byte x.1) w else w
      s.onCore core fun c => { c with pends := c.pends.map fun p => { p with loads := p.loads.map feed } }
    | (_, s) => s

/-- The same for every load of a team. -/
def fixTeamLoads (s : State) (core t : Nat) : State :=
  fixLoads s core (fun r => (s.wave core r.slot).team == t) fun _ _ => true

/-- The lanes that an outstanding instruction belongs to, once they are known, with the flag it marks in each (R20); one
that no lane issued is gone. -/
def openPend (s : State) (core id : Nat) (f : Form) (lanes : List LaneRef) (held : Nat) : State :=
  if lanes.isEmpty then s.onCore core fun c => { c with pends := c.pends.filter fun p => p.id != id }
  else
    let marks := lanes.filterMap fun r => ((s.lane core r).flagOf f.fset).map fun k => (r, k)
    let s := forEach marks s fun s m => s.onLane core m.1 fun l => l.mark m.2
    onPend s core id fun p => { p with lanes := lanes, marks := marks, held := held }

/-- A store to the window cache. Loads in flight of its aligned 8 bytes, which precede it in the core order, take their bytes
first (R26, R208, R210). A line written whole by one store loses its poison (R192): no store of a thread covers 128 bytes. -/
def windowStore (s : State) (core t asid : Nat) (a : Access) : State :=
  let s := fixLoads s core (fun _ => true) fun as g => as == asid && a.glob.any fun x => x / 8 == g / 8
  forEach (a.glob.zip a.data) s fun s e => windowPut s core t asid e.1 e.2

/-- The part of an outstanding access that one lane waits for becomes an outstanding word by itself, so that the other lanes
complete and run on (R20, R179, R194). A scalar destination is written once for all lanes, which keep their flag till then
(R131): `scalar` says so. Its accesses still waiting are `held`. -/
def splitLane (s : State) (core id : Nat) (scalar : Bool) (r : LaneRef) (held : Nat) : Nat × State :=
  match (s.core core).pends.find? fun p => p.id == id with
  | none => (id, s)
  | some p =>
    let (nid, s) := s.freshId core
    let own (d : Dest) : Bool := match d with | .v q _ _ | .p q _ _ => q == r | .s _ _ _ => false
    let q : Pend := { id := nid, lanes := [r], held := held, samples := [], loads := p.loads.filter fun w => w.r == r
                      dests := if scalar then [] else p.dests.filter own
                      marks := if scalar then [] else p.marks.filter fun m => m.1 == r }
    let rest : Pend := { p with
      lanes := if scalar then p.lanes else p.lanes.filter (· != r)
      loads := p.loads.filter fun w => w.r != r
      dests := if scalar then p.dests else p.dests.filter fun d => !own d
      marks := if scalar then p.marks else p.marks.filter fun m => m.1 != r }
    (nid, s.onCore core fun c => { c with pends :=
      (c.pends.flatMap fun x => if x.id == id then (if rest.lanes.isEmpty then [] else [rest]) else [x]) ++ [q] })

/-! ## Atomics and the local monitor -/

/-- The new value of a local atomic, by opcode and TYPE (R199); `op` is the opcode with the TYPE code times 256. -/
def atomicNew (op old b c : Nat) : Nat :=
  let ty := op / 256
  let sx (x : Nat) : Int := (BitVec.ofNat 32 x).toInt
  let f (x : Nat) : Val := f32 (BitVec.ofNat 32 x)
  match op % 256 with
  | 0x80 => (old + b) % 2 ^ 32
  | 0x81 => if ty == 6 then min old b else if sx old ≤ sx b then old else b
  | 0x82 => if ty == 6 then max old b else if sx old ≥ sx b then old else b
  | 0x83 => old &&& b
  | 0x84 => old ||| b
  | 0x85 => old ^^^ b
  | 0x86 | 0x8D => b
  | 0x87 | 0x8C => if old == b then c else old
  | 0x88 => addRne fp32 old b
  | 0x89 => if old ≥ b then 0 else old + 1
  | 0x8A => if old == 0 || old > b then b else old - 1
  | 0x8B => (old + b) % 2 ^ 64
  | 0x8E => if (f b).isNan then old else if (f old).isNan then b else minMaxCode fp32 false old b
  | _ => if (f b).isNan then old else if (f old).isNan then b else minMaxCode fp32 true old b

/-- The condition of LMON (R204). -/
def lmonCond (cond : Nat) (w b : W32) : Bool :=
  match cond with
  | 0 => w == b
  | 1 => w != b
  | 2 => w.slt b
  | 3 => !w.slt b
  | 4 => w.ult b
  | _ => !w.ult b

/-! ## Performing -/

/-- What accesses come to. -/
inductive Performed where
  | ok (s : State)
  /-- one read poison: the team ends (R192), with the docket's SOURCE and address -/
  | poison (source addr : Nat)
  /-- its lanes are rejected, and issue the word again (R177, R394) -/
  | rejected (s : State)

/-- An access of the scratchpad or a folio. -/
def performLocal (s : State) (core t asid : Nat) (a : Access) : Performed :=
  match a.space, a.kind with
  | 2, 1 => .ok (folioWrite s core a.addr a.data)
  | 2, _ =>
    let c := s.core core
    if (linesOf a.addr a.size).any c.folioPoison.contains then .poison 5 0
    else .ok (landLoad s core asid a ((memReads c.folio a.addr a.size).map some))
  | _, 1 => .ok (scratchWrite s t a.addr a.data)
  | _, k =>
    let x := s.team t
    if (linesOf a.addr a.size).any x.scratchPoison.contains then .poison 5 0
    else
      let old := memReads x.scratch a.addr a.size
      if k == 0 then .ok (landLoad s core asid a (old.map some))
      else if k == 2 then
        let new := leBytes a.size (atomicNew a.op (leNat old) (leNat a.data) (leNat a.cmp))
        .ok (landLoad (scratchWrite s t a.addr new) core asid a (old.map some))
      else
        let d := lmonCond a.op (BitVec.ofNat 32 (leNat old)) (BitVec.ofNat 32 (leNat a.data))
        let s := s.onLane core a.r fun l => { l with lmon := if d then .off else .armed (a.addr / 128) }
        .ok (match a.d with | .p i => writeP s core a.r i.toNat d | _ => s)

/-- The window accesses of a lane, in order: each makes sure of its lines, stores at once, and gives what a load finds valid
(R173, R177). -/
def windowPhase (core t asid : Nat) : List Access → State → Bool → List (Access × List (Option Byte)) →
    Performed × List (Access × List (Option Byte))
  | [], s, ok, got => (if ok then .ok s else .rejected s, got)
  | a :: as, s, ok, got =>
    let (fits, s) := needLines s core t asid a
    if !fits then windowPhase core t asid as s false got
    else if a.kind == 1 then windowPhase core t asid as (windowStore s core t asid a) ok got
    else
      let c := s.core core
      if a.glob.any (windowPoison c asid) then (.poison 1 (a.glob.headD 0), got)
      else windowPhase core t asid as s ok (got ++ [(a, windowLoad c asid a.glob)])

def performLocals : List Access → State → Nat → Nat → Nat → Performed
  | [], s, _, _, _ => .ok s
  | a :: as, s, core, t, asid =>
    match performLocal s core t asid a with
    | .ok s => performLocals as s core t asid
    | r => r

/-- The accesses of one lane. A team that a replaced line's write-back has ended performs none (R180). -/
def performLane (s : State) (core t asid : Nat) (as : List Access) : Performed :=
  match windowPhase core t asid (as.filter (·.space == 1)) s true [] with
  | (.ok s, got) =>
    if !s.live t then .ok s
    else performLocals (as.filter (·.space != 1)) (forEach got s fun s g => landLoad s core asid g.1 g.2) core t asid
  -- a lane that is rejected has stored nothing: its retry makes the whole access (R177, R394)
  | (.rejected s1, _) => .rejected (if s1.live t && as.any (·.kind == 1) then s else s1)
  | (.poison src a, _) => .poison src a

/-! ## A word's accesses -/

/-- A lane with its accesses; `bad` marks an operand that is misaligned by itself (R197). -/
structure LaneAcc where
  lane : LaneAt
  accs : List Access
  bad : Bool
  /-- lanes that this lane's access is made for (R196) -/
  lanes : List LaneRef

/-- The first failing test of a lane's accesses, with the address that failed (R193). -/
def LaneAcc.fails (p : Packet) (t : Team) (uniform : Bool) (x : LaneAcc) : Option (Nat × Nat) :=
  let fs := x.accs.filterMap fun a =>
    (if a.space == 2 then testFolio t a.addr a.size else testLocal p t a.kind uniform a.addr a.size).map fun k => (k, a.addr)
  let fs := if x.bad then fs ++ [(4, (x.accs.map (·.addr)).headD 0)] else fs
  match fs with
  | [] => none
  | e :: es => some (es.foldl (fun m x => if x.1 < m.1 then x else m) e)

/-- The trap of a word whose lanes fail tests of R193, each with its test and address (R329, R331): the cause, the lanes that
raised it and their tags. -/
def trapOf (fs : List (LaneRef × Nat × Nat)) : Option (Nat × List LaneRef × (LaneRef → W32)) :=
  match fs with
  | [] => none
  | (_, k, a) :: _ =>
    let cause := testCause k
    let origin := (fs.filter fun f => testCause f.2.1 == cause).map (·.1)
    let tag (r : LaneRef) : W32 := BitVec.ofNat 32 (match fs.find? fun f => f.1 == r with | some f => f.2.2 | none => a)
    some (cause, origin, tag)

/-- The trap of a word whose local addresses fail (R193). -/
def localTrap (p : Packet) (t : Team) (uniform : Bool) (xs : List LaneAcc) : Option (Nat × List LaneRef × (LaneRef → W32)) :=
  trapOf (xs.filterMap fun x => (x.fails p t uniform).map fun e => (x.lane.2, e))

/-- The accesses of lanes in slot order (R193), with the lanes rejected; the first poison read ends the team (R192). -/
def performLanes (core t asid : Nat) : List LaneAcc → State → List LaneRef → Performed × List LaneRef
  | [], s, rej => (.ok s, rej)
  | x :: xs, s, rej =>
    match performLane s core t asid x.accs with
    | .ok s => if !s.live t then (.ok s, rej) else performLanes core t asid xs s rej
    | .rejected s => performLanes core t asid xs s (rej ++ x.lanes)
    | r => (r, rej)

/-- Each lane of a word that waits, for a fill or a claim, gets its own outstanding word, but for the lane that writes a scalar
destination and for uniform accesses (R131, R196); the held accesses, with the words they belong to. -/
def splitWaiting (s : State) (core id : Nat) (f : Form) (first : LaneRef) (xs held : List LaneAcc) : State × List Access :=
  let scalar := match f.d with | .s _ => true | _ => false
  let loading := (((s.core core).pends.filter fun p => p.id == id).getLast?.map fun p => p.loads.map (·.r)).getD []
  xs.foldl (fun (acc : State × List Access) x =>
    let own := held.filter fun h => h.lane == x.lane
    let accs := own.flatMap (·.accs)
    let apart := x.lanes == [x.lane.2] && !(scalar && x.lane.2 == first) && (!own.isEmpty || loading.contains x.lane.2)
    if apart then
      let (nid, s) := splitLane acc.1 core id scalar x.lane.2 accs.length
      (onPend s core id fun p => { p with held := p.held - accs.length }, acc.2 ++ accs.map fun a => { a with pend := nid })
    else (acc.1, acc.2 ++ accs)) (s, [])

/-- The accesses of a checked word (R177, R193, R194): lanes that a claim holds wait at the word, lanes without a
miss-status entry or a way stay and issue it again, the others perform theirs. `long` opens the outstanding instruction that
the loads belong to. -/
def accessWord (e : Env) (f : Form) (long : Bool) (xs : List LaneAcc) : Res :=
  let core := e.core
  let t := e.team
  let asid := teamAsid e.s t
  let (id, s) := if long then addPend e.s core { f with fset := 0 } [] [] [] [] 0 else (0, e.s)
  let xs := xs.map fun x => { x with
    accs := x.accs.map fun a => { a.locate e.s core e.pkt (e.s.team t) with pend := id } }
  let waits (x : LaneAcc) : Bool := x.accs.any (claimed (e.s.core core) t)
  let held := xs.filter waits
  match performLanes core t asid (xs.filter fun x => !waits x) s [] with
  | (.poison src a, _) => .stop (terminateAccess s t src 0x0207 a false)
  | (.rejected s, _) => .stop s
  | (.ok s, rej) =>
    if !s.live t then .stop s
    else
      let s := countRejects s core e.g.refs rej
      let lanes := (xs.flatMap (·.lanes)).filter fun r => !rej.contains r
      let s := if long then openPend s core id f lanes (held.foldl (fun n x => n + x.accs.length) 0) else s
      let s := onPend s core id fun p => { p with dests := p.dests ++ (e.dests fun _ => []) }
      let (s, accs) := if long then splitWaiting s core id f e.first.2 xs held else (s, held.flatMap (·.accs))
      let s := if accs.isEmpty then s else blockWord s core (held.flatMap (·.lanes)) (.claim accs) .nul .nul
      .done s (held.flatMap (·.lanes) ++ rej)

/-- A word that accesses local space: its checks, then its accesses (R193). -/
def localWord (opc : Nat) (f : Form) (s : State) (uniform : Bool) (mk : Env → List LaneAcc) :
    Host.Outcome State Fault Refusal :=
  runWord opc f s fun e =>
    let xs := mk e
    match localTrap e.pkt (e.s.team e.team) uniform xs with
    | some (cause, origin, tag) => .trap cause origin tag
    | none => accessWord e f (f.isLong opc) xs

/-- One access of a lane. -/
def oneAccess (l : LaneAt) (a : Access) : LaneAcc := { lane := l, accs := [a], bad := false, lanes := [l.2] }

end Sys2Proof.Machine
end

