-- ==== Sys2Proof/Machine/Mcmd.lean ====
section
/-! DEFINITION. The matrix command record (R276), its checks (R277), the units it claims (R279), and the delayed-scaling
rings (R47, R48). -/

namespace Sys2Proof.Machine

/-! ## Fields -/

/-- The fields of an MCMD record (R276). -/
structure Mcmd where
  op : Nat
  fmt : Nat
  flags : Nat
  ring : Nat
  tile : Nat
  row0 : Nat
  nrows : Nat
  col0 : Nat
  ncols : Nat
  addr : Nat
  rstride : Nat
  slip : Nat
  slipEn : Bool
  /-- every reserved bit is zero -/
  clean : Bool
  deriving DecidableEq, Repr, Inhabited

def mcmdOf (d0 d1 d2 d3 : W64) : Mcmd where
  op := bits d0 0 4
  fmt := bits d0 4 4
  flags := bits d0 8 5
  ring := bits d0 16 6
  tile := bits d0 22 2
  row0 := bits d0 24 7
  nrows := bits d0 32 7 + 1
  col0 := bits d0 40 9
  ncols := bits d0 49 9 + 1
  addr := bits d1 0 32
  rstride := bits d1 32 20
  slip := bits d2 0 6
  slipEn := bits d2 6 1 == 1
  clean := bits d0 13 3 == 0 && bits d0 31 1 == 0 && bits d0 39 1 == 0 && bits d0 58 6 == 0 && bits d1 52 12 == 0 &&
    bits d2 7 57 == 0 && d3 == 0

/-- The record of an operation in the queue. -/
def MatOp.rec_ (m : MatOp) : Mcmd := mcmdOf m.dw0 m.dw1 0 0

def Mcmd.flag (m : Mcmd) (i : Nat) : Bool := m.flags / 2 ^ i % 2 == 1

/-- Byte q of a LATCH's folio list: the folio, or none for a NONE quarter (R276). -/
def Mcmd.quarter (m : Mcmd) (q : Nat) : Option Nat :=
  let b := m.addr / 2 ^ (8 * q) % 256
  if b ≥ 128 then none else some (b % 64)

def Mcmd.folios (m : Mcmd) : List Nat :=
  if m.op == 1 then (List.range 4).filterMap m.quarter else if m.op == 2 then [m.addr % 64] else []

/-- Rounding code of a DRAIN (R276), as a mode of R38. -/
def Mcmd.round (m : Mcmd) : Nat := m.flags / 2 % 4

/-- CCR ROUND codes as rounding modes (R38). -/
def ccrRound (k : Nat) : RMode := if k == 2 then 4 else k

/-- The width of a format code of R226 in bits. -/
def fmtBits (k : Nat) : Nat :=
  if k == 3 then 4 else if k ≤ 6 then 8 else if k ≤ 8 || k == 12 then 16 else if k ≤ 11 || k == 13 then 32 else 64

/-! ## Checks -/

/-- Fields that the OP does not use are zero (R276). -/
def Mcmd.unusedZero (m : Mcmd) : Bool :=
  let rows := m.row0 == 0 && m.nrows == 1
  let cols := m.col0 == 0 && m.ncols == 1
  match m.op with
  | 1 => m.flags / 4 == 0 && m.ring == 0 && m.tile == 0 && rows && cols && m.rstride == 0 &&
      (List.range 4).all fun q => m.addr / 2 ^ (8 * q + 6) % 2 == 0
  | 2 => m.flags / 8 == 0 && m.ring == 0 && cols && m.rstride == 0 && m.addr < 64
  | 3 => true
  | _ => m.fmt == 0 && m.flags == 0 && m.ring == 0 && m.addr == 0 && m.rstride == 0

def Mcmd.fmtOk (m : Mcmd) : Bool :=
  match m.op with
  | 1 => [1, 2, 3, 4, 7, 8].contains m.fmt
  | 2 => [1, 2, 3, 7, 8].contains m.fmt
  | 3 => [1, 2, 4, 5, 6, 7, 8, 9, 11].contains m.fmt
  | _ => true

/-- MX exactly with format 3, or optionally with 1 or 2 (R277). -/
def Mcmd.mxOk (m : Mcmd) : Bool :=
  if m.op == 1 || m.op == 2 then
    (if m.fmt == 3 then m.flag 0 else !m.flag 0 || m.fmt == 1 || m.fmt == 2)
  else true

/-- The shape of a record, whatever the team holds (R277). -/
def Mcmd.legal (m : Mcmd) : Bool :=
  1 ≤ m.op && m.op ≤ 4 && m.clean && m.unusedZero && m.fmtOk && m.mxOk &&
  (m.op != 3 || (m.round != 3 && (m.fmt != 4 || m.round == 0))) &&
  m.row0 + m.nrows ≤ 128 && m.col0 + m.ncols ≤ 512

/-- A run of folio space lies in bytes 0 to 13,311 of folios that the team holds (R184, R229). -/
def folioBytesOk (t : Team) (a n : Nat) : Bool :=
  (List.range n).all fun i =>
    let x := a + i
    x < 2 ^ 20 && x % 16384 < folioSize && t.folios.contains (x / 16384)

/-- Row i of a DRAIN's destination: its address and its bytes. -/
def Mcmd.drainRow (m : Mcmd) (i : Nat) : Nat × Nat := (m.addr + i * m.rstride, m.ncols * (fmtBits m.fmt / 8))

/-- The cause of a record's failure (R277), in the order of its table. -/
def Mcmd.cause (m : Mcmd) (p : Packet) (t : Team) : Option Nat :=
  if !m.legal then some 0x01
  else if (m.op != 1 && !t.tiles.contains m.tile) || !(m.folios.all t.folios.contains) then some 0x03
  else if m.op == 3 && !((List.range m.nrows).all fun i =>
      let r := m.drainRow i
      if m.flag 4 then folioBytesOk t r.1 r.2 else r.1 + r.2 ≤ p.scratch) then some 0x03
  else if m.op == 3 && (m.addr % (fmtBits m.fmt / 8) != 0 || m.rstride % (fmtBits m.fmt / 8) != 0) then some 0x04
  else if m.slipEn && m.slip ≥ p.slips then some 0x01
  else none

/-! ## Units -/

/-- The units that a run of local bytes touches: scratchpad lines, or folio units. -/
def unitsOf (folio : Bool) (a n : Nat) : List Nat :=
  if n == 0 then []
  else if folio then ((List.range n).map fun i => folioUnit (a + i)).eraseDups
  else linesOf a n

/-- Folio units of the rows that a STREAM reads, and of its scale unit (R279). -/
def Mcmd.streamUnits (m : Mcmd) : List Nat :=
  let f := m.addr % 64
  ((List.range m.nrows).map fun i => f * 129 + m.row0 + i) ++ (if m.flag 0 then [f * 129 + 128] else [])

def Mcmd.drainUnits (m : Mcmd) : List Nat :=
  ((List.range m.nrows).flatMap fun i => unitsOf (m.flag 4) (m.drainRow i).1 (m.drainRow i).2).eraseDups

/-- What an operation claims from its append (R274, R279): destination or source, folio or scratchpad, the units, and
whether it is a latch claim. -/
def Mcmd.claimsOf (m : Mcmd) : List (Bool × Bool × List Nat × Bool) :=
  match m.op with
  | 1 => m.folios.eraseDups.map fun f => (false, true, (List.range 129).map (f * 129 + ·), true)
  | 2 => [(false, true, m.streamUnits, false)]
  | 3 => [(true, m.flag 4, m.drainUnits, false)]
  | _ => []

/-- A number put in its place in a rising list, once. -/
def insertNat (n : Nat) : List Nat → List Nat
  | [] => [n]
  | m :: ms => if n < m then n :: m :: ms else if n == m then m :: ms else m :: insertNat n ms

def sortNat (l : List Nat) : List Nat := l.foldl (fun acc n => insertNat n acc) []

/-- The maximal runs of consecutive numbers of a rising list (R260). -/
def runsGo : List Nat → Nat → Nat → List (Nat × Nat)
  | [], a, b => [(a, b)]
  | n :: ns, a, b => if n == b + 1 then runsGo ns a n else (a, b) :: runsGo ns n n

def runsOf (us : List Nat) : List (Nat × Nat) :=
  match sortNat us with
  | [] => []
  | u :: us => runsGo us u u

/-- Claims of the matrix array over a set of units, one for each run, every unit waiting. -/
def claimsFor (owner stamp team : Nat) (c : Bool × Bool × List Nat × Bool) : List Claim :=
  (runsOf c.2.2.1).map fun r =>
    { owner := owner, matrix := true, team := team, dest := c.1, folio := c.2.1
      first := r.1, last := r.2, waiting := (List.range (r.2 + 1 - r.1)).map (r.1 + ·), latch := c.2.2.2, stamp := stamp }

/-- The claims of an operation, or of a follow-on before its hand-over, from a place of the core order; they take no claim
entries (R279, R285). -/
def takeMatClaims (s : State) (core team owner stamp : Nat) (m : Mcmd) : State :=
  s.onCore core fun c => { c with claims := c.claims ++ m.claimsOf.flatMap (claimsFor owner stamp team) }

/-- Words that wait for room in the matrix queue (R278). -/
def matrixWaits (s : State) (core : Nat) : List Wait :=
  (s.core core).waits.filter fun w => match w.kind with | .matrix _ _ => true | _ => false

/-- The owner of a follow-on's claims before its operation is appended (R285). -/
def followOwner (cmd : Nat) : Nat := 2 ^ 32 + cmd

/-- The place of the core order from which the claims of a command's follow-on hold, if it has any (R285). -/
def followStamp (c : Core) (cmd : Nat) : Option Nat :=
  (c.claims.find? fun k => k.matrix && k.owner == followOwner cmd).map (·.stamp)

/-! ## Delayed-scaling rings -/

/-- The entries present in a ring, and the largest (R47): entries are not negative, so their codes order them. -/
def ScaleRing.max (r : ScaleRing) : W32 :=
  r.entries.foldl (fun m e => if m.toNat < e.2.toNat then e.2 else m) 0

/-- A push (R47). -/
def ScaleRing.push (r : ScaleRing) (x : W32) : ScaleRing :=
  { entries := tset r.entries r.pos x, pos := (r.pos + 1) % 16, count := min 16 (r.count + 1) }

def teamRing (s : State) (t i : Nat) : ScaleRing := tgetD (s.team t).srings i default

def pushRing (s : State) (t i : Nat) (x : W32) : State :=
  s.onTeam t fun y => { y with srings := tset y.srings i ((tgetD y.srings i default).push x) }

/-- The larger of two recorded maxima. -/
def maxW (a b : W32) : W32 := if a.toNat < b.toNat then b else a

end Sys2Proof.Machine
end

