-- ==== Sys2Proof/Machine/Ccr.lean ====
section
/-! DEFINITION. The copy command record (R226 to R230), its elements (R233, R235, R237, R239 to R243), and the checks at the
post (R231). -/

namespace Sys2Proof.Machine

/-! ## Fields -/

/-- A field as a two's complement number of n bits. -/
def sbits (x : W64) (lo n : Nat) : Int :=
  let v := bits x lo n
  if v ≥ 2 ^ (n - 1) then (v : Int) - (2 ^ n : Nat) else v

/-- The fields of a copy command record (R226, R227). -/
structure Ccr where
  kind : Nat
  slip : Nat
  slipEn : Bool
  recEn : Bool
  srcFmt : Nat
  dstFmt : Nat
  order : Nat
  scope : Nat
  srcSp : Nat
  dstSp : Nat
  dims : Nat
  transpose : Bool
  sat : Bool
  round : Nat
  scaleMode : Nat
  redop : Nat
  ring : Nat
  follow : Bool
  sibling : Bool
  idxFmt : Nat
  subop : Nat
  resv : Nat
  src : Nat
  dst : Nat
  aux : Nat
  tscale : W32
  pad : Nat
  count : Nat
  recAddr : Nat
  ext : List Nat
  start : List Int
  box : List Nat
  ss : List Int
  ds : List Int
  mxs : Nat
  ctx : Nat
  dws : List W64
  deriving DecidableEq, Repr, Inhabited

def ccrOf (dws : List W64) : Ccr :=
  let dw (k : Nat) : W64 := dws.getD k 0
  let d0 := dw 0
  let five := List.range 5
  { kind := bits d0 0 8, slip := bits d0 8 6, slipEn := bits d0 14 1 == 1, recEn := bits d0 15 1 == 1
    srcFmt := bits d0 16 4, dstFmt := bits d0 20 4, order := bits d0 24 2, scope := bits d0 26 4
    srcSp := bits d0 30 2, dstSp := bits d0 32 2, dims := bits d0 34 3, transpose := bits d0 37 1 == 1
    sat := bits d0 38 1 == 1, round := bits d0 39 2, scaleMode := bits d0 41 3, redop := bits d0 44 4
    ring := bits d0 48 6, follow := bits d0 54 1 == 1, sibling := bits d0 55 1 == 1, idxFmt := bits d0 56 2
    subop := bits d0 58 2, resv := bits d0 60 4
    src := (dw 1).toNat, dst := (dw 2).toNat, aux := (dw 3).toNat
    tscale := (dw 4).extractLsb' 0 32, pad := bits (dw 4) 32 32
    count := bits (dw 5) 0 32, recAddr := bits (dw 5) 32 32
    ext := five.map fun d => bits (dw (6 + 2 * d)) 0 32
    start := five.map fun d => sbits (dw (6 + 2 * d)) 32 32
    box := five.map fun d => bits (dw (7 + 2 * d)) 48 16
    ss := five.map fun d => sbits (dw (7 + 2 * d)) 0 48
    ds := five.map fun d => sbits (dw (16 + d)) 0 48
    mxs := bits (dw 21) 0 32, ctx := bits (dw 21) 32 32
    dws := dws }

def Cmd.ccr (c : Cmd) : Ccr := ccrOf c.dws

/-- Kinds whose elements R235 transfers: TCOPY, GATHER, SCATTER and CONV. -/
def Ccr.moves (r : Ccr) : Bool := 1 ≤ r.kind && r.kind ≤ 4
/-- Kinds with rows of their own: GATHER and SCATTER (R233). -/
def Ccr.rows (r : Ccr) : Bool := r.kind == 2 || r.kind == 3
/-- SRC or DST names a table descriptor (R382). -/
def Ccr.tabled (r : Ccr) : Bool := (r.kind == 2 && r.src ≥ 2 ^ 63) || (r.kind == 3 && r.dst ≥ 2 ^ 63)

/-- Values of a dimension that R228 makes the engine read. -/
def Ccr.boxAt (r : Ccr) (d : Nat) : Nat := if d < r.dims then r.box.getD d 1 else 1
def Ccr.startAt (r : Ccr) (d : Nat) : Int := if d < r.dims then r.start.getD d 0 else 0
def Ccr.extAt (r : Ccr) (d : Nat) : Nat := if d < r.dims then r.ext.getD d 1 else 1
def Ccr.ssAt (r : Ccr) (d : Nat) : Int := if d < r.dims then r.ss.getD d 0 else 0
def Ccr.dsAt (r : Ccr) (d : Nat) : Int := if d < r.dims then r.ds.getD d 0 else 0

/-- Boxes that count elements: for rows the index dimension is left to COUNT (R233, R239). -/
def Ccr.boxes (r : Ccr) : List Nat := (List.range 5).map fun d => if r.rows && d + 1 == r.dims then 1 else r.boxAt d

def Ccr.boxTotal (r : Ccr) : Nat := r.boxes.foldl (· * ·) 1

/-- The convolution's fields (R227, R241). -/
def Ccr.cv (r : Ccr) (i : Nat) : Nat := bits (r.dws.getD 22 0) (8 * i) 8
def Ccr.im (r : Ccr) (i : Nat) : Nat := bits (r.dws.getD 23 0) (16 * i) 16
def Ccr.padT (r : Ccr) : Int := sbits (r.dws.getD 22 0) 48 8
def Ccr.padL (r : Ccr) : Int := sbits (r.dws.getD 22 0) 56 8

/-- OH and OW (R241). -/
def Ccr.outSize (r : Ccr) : Int × Int :=
  (((r.im 0 : Int) + 2 * r.padT - r.cv 4 * (r.cv 0 - 1) - 1).fdiv (r.cv 2) + 1,
   ((r.im 1 : Int) + 2 * r.padL - r.cv 5 * (r.cv 1 - 1) - 1).fdiv (r.cv 3) + 1)

def Ccr.convOk (r : Ccr) : Bool :=
  ((List.range 6).all fun i => 1 ≤ r.cv i) && ((List.range 4).all fun i => 1 ≤ r.im i) && 1 ≤ r.outSize.1 && 1 ≤ r.outSize.2

/-- How many elements a command has (R233, R242 to R248). -/
def Ccr.total (r : Ccr) : Nat :=
  match r.kind with
  | 2 | 3 => r.count * r.boxTotal
  | 1 | 4 | 5 => r.boxTotal
  | 6 => r.count
  | 8 => if r.subop == 1 then 1 else r.count
  | 9 => if r.count == 0 then 0 else (r.dst % 2 ^ 56 + r.count - 1) / 128 + 1 - r.dst % 2 ^ 56 / 128
  | 13 => 1
  | _ => 0

/-! ## Elements -/

/-- The digits of a number in the mixed radix of the boxes, i0 first (R233). -/
def digits : List Nat → Nat → List Nat
  | [], _ => []
  | b :: bs, n => n % b :: digits bs (n / b)

def swap01 {α : Type} : List α → List α
  | a :: b :: r => b :: a :: r
  | l => l

/-- Sum over the dims of a place and its strides. -/
def dotInt : List Int → List Int → Int
  | x :: xs, s :: ss => x * s + dotInt xs ss
  | _, _ => 0

/-- An address in half-bytes: a side of e2m1 steps half a byte along dim 0 (R229). -/
def halfAddr (base : Int) (fmt : Nat) (at_ strides : List Int) : Int :=
  2 * (base + dotInt at_ strides) + (if fmt == 3 then at_.headD 0 else 0)

/-- One element of a transfer: its row, the half-byte addresses of its source and destination, and whether it is padded or
its row skipped (R234, R240). Without a source it writes the pad pattern. -/
structure Elem where
  row : Nat
  src : Option Int
  dst : Option Int
  deriving DecidableEq, Repr, Inhabited

/-- How the row of a GATHER or SCATTER resolves: the byte offset that its index contributes and whether it is in range
(R239, R240, R382). `base` replaces the record's base for a table row. -/
structure RowAt where
  ok : Bool
  base : Int
  off : Int
  deriving DecidableEq, Repr, Inhabited

/-- The base address of a side as the engine adds strides to it (R229). -/
def Ccr.base (sp a : Nat) : Int := if sp == 3 then ((a % 2 ^ 32 : Nat) : Int) else (a : Int)

/-- Is coordinate c of dim d outside the extent (R235)? -/
def outside (c : Int) (e : Nat) : Bool := c < 0 || c ≥ e

/-- The elements of TCOPY and FILL (R235, R242). -/
def Ccr.boxElem (r : Ccr) (n : Nat) : Elem :=
  let i := (digits r.boxes n).map fun (x : Nat) => (x : Int)
  let c := (List.range 5).map fun d => r.startAt d + i.getD d 0
  let j := if r.transpose then swap01 i else i
  let dims := List.range 5
  let padded := dims.any fun d => outside (c.getD d 0) (r.extAt d)
  { row := 0
    src := if r.kind == 5 || padded then none else some (halfAddr (Ccr.base r.srcSp r.src) r.srcFmt c (dims.map r.ssAt))
    dst := some (halfAddr (Ccr.base r.dstSp r.dst) r.dstFmt j (dims.map r.dsAt)) }

/-- The elements of GATHER and SCATTER for a resolved row (R239, R240). DESIGN CHOICE: where a TRANSPOSE of two dims swaps the row
dimension itself, a GATHER places its rows by DSTRIDE_0, and a SCATTER still by its index times DSTRIDE_D (log 144). -/
def Ccr.rowElem (r : Ccr) (n : Nat) (ra : RowAt) : Elem :=
  let row := n / r.boxTotal
  let D := r.dims - 1
  let i := (digits r.boxes (n % r.boxTotal)).map fun (x : Nat) => (x : Int)
  let dims := List.range 5
  let below := dims.filter (· < D)
  let c := dims.map fun d => if d == D then (if r.kind == 3 then (row : Int) else 0) else r.startAt d + i.getD d 0
  let j0 := dims.map fun d => if d == D then (if r.kind == 2 then (row : Int) else 0) else i.getD d 0
  let j := if r.transpose then swap01 j0 else j0
  let padded := below.any fun d => outside (c.getD d 0) (r.extAt d)
  if r.kind == 2 then
    { row := row
      src := if padded || !ra.ok then none else some (halfAddr (ra.base + ra.off) r.srcFmt c (dims.map r.ssAt))
      dst := some (halfAddr (Ccr.base r.dstSp r.dst) r.dstFmt j (dims.map r.dsAt)) }
  else
    { row := row
      src := if padded then none else some (halfAddr (Ccr.base r.srcSp r.src) r.srcFmt c (dims.map r.ssAt))
      dst := if ra.ok then some (halfAddr (ra.base + ra.off) r.dstFmt j (dims.map r.dsAt)) else none }

/-- The elements of CONV (R241). -/
def Ccr.convElem (r : Ccr) (n : Nat) : Elem :=
  let i := digits r.boxes n
  let i0 := i.getD 0 0
  let i1 := i.getD 1 0
  let row := r.startAt 1 + i1
  let k := r.startAt 0 + i0
  let (oh, ow) := r.outSize
  let chan : Int := r.im 2
  let img := row.fdiv (oh * ow)
  let oy := (row.fdiv ow).fmod oh
  let ox := row.fmod ow
  let f := k.fdiv chan
  let ch := k.fmod chan
  let fh := f.fdiv (r.cv 1)
  let fw := f.fmod (r.cv 1)
  let y := oy * r.cv 2 - r.padT + fh * r.cv 4
  let x := ox * r.cv 3 - r.padL + fw * r.cv 5
  let padded := row < 0 || k < 0 || k ≥ r.cv 0 * r.cv 1 * r.im 2 || img ≥ r.im 3 || y < 0 || y ≥ r.im 0 || x < 0 || x ≥ r.im 1
  let j := if r.transpose then [(i1 : Int), i0] else [(i0 : Int), i1]
  { row := 0
    src := if padded || !r.convOk then none else some (halfAddr (Ccr.base r.srcSp r.src) r.srcFmt [ch, x, y, img] (r.ss.take 4))
    dst := some (halfAddr (Ccr.base r.dstSp r.dst) r.dstFmt j (r.ds.take 2)) }

/-- Element n of a transfer. -/
def Ccr.elem (r : Ccr) (n : Nat) (ra : RowAt) : Elem :=
  if r.kind == 4 then r.convElem n else if r.rows then r.rowElem n ra else r.boxElem n

/-! ## MX blocks -/

def mxFmt (f : Nat) : Bool := f == 1 || f == 2 || f == 3

/-- The destination is the MX side (R237). -/
def Ccr.mxDst (r : Ccr) : Bool := r.scaleMode == 3 && mxFmt r.dstFmt
def Ccr.mxSrc (r : Ccr) : Bool := r.scaleMode == 3 && !mxFmt r.dstFmt

/-- The dim of the box that runs along dim 0 of the MX side (R237). -/
def Ccr.mxDim (r : Ccr) : Nat := if r.mxDst && r.transpose then 1 else 0

/-- The block of an element, counted in element order, and its place in the block (R237). -/
def Ccr.block (r : Ccr) (n : Nat) : Nat × Nat :=
  let bt := r.boxTotal
  let i := digits r.boxes (n % bt)
  let m := r.mxDim
  let nb := (List.range 5).map fun d => if d == m then r.boxes.getD d 1 / 32 else r.boxes.getD d 1
  let q := (List.range 5).map fun d => if d == m then i.getD d 0 / 32 else i.getD d 0
  let idx := (List.range 5).foldr (fun d acc => q.getD d 0 + nb.getD d 1 * acc) 0
  (n / bt * (bt / 32) + idx, i.getD m 0 % 32)

/-- The number of element `k` of the block that element `n` lies in. -/
def Ccr.blockElem (r : Ccr) (n k : Nat) : Nat :=
  let step := ((List.range r.mxDim).map fun d => r.boxes.getD d 1).foldl (· * ·) 1
  n - (r.block n).2 * step + k * step

/-- The bytes of an MX block of a format (R237). -/
def blockBytes (f : Nat) : Nat := if f == 3 then 16 else 32

/-- Where the scale byte of a block stands: local address MXS_ADDR + b, or the row-scale byte of the folio row that holds
the block's byte `a` (R184, R237). -/
def Ccr.scaleAt (r : Ccr) (sp b : Nat) (a : Nat) (f : Nat) : Nat :=
  if sp == 1 then r.mxs + b
  else
    let o := a % 16384
    a / 16384 * 16384 + 12288 + 6 * (o / 96) + o % 96 / blockBytes f

/-! ## Local bytes -/

/-- A run of bytes that an element touches: destination or source, space, address, length. -/
structure Touch where
  dest : Bool
  sp : Nat
  addr : Int
  len : Nat
  deriving DecidableEq, Repr, Inhabited

def fmtBytes (f : Nat) : Nat := max 1 (fmtBits f / 8)

def idxBytes (r : Ccr) : Nat := if r.idxFmt == 1 then 8 else 4

/-- What an element touches, its row resolved, global sides with the others (R233, R249). -/
def Ccr.touches (r : Ccr) (n : Nat) (ra : RowAt) : List Touch :=
  match r.kind with
  | 1 | 2 | 3 | 4 | 5 =>
    let e := r.elem n ra
    let d : List Touch := match e.dst with
      | some a => [{ dest := true, sp := r.dstSp, addr := a.fdiv 2, len := fmtBytes r.dstFmt }]
      | none => []
    let s : List Touch := match e.src with
      | some a => [{ dest := false, sp := r.srcSp, addr := a.fdiv 2, len := fmtBytes r.srcFmt }]
      | none => []
    let idx : List Touch := if r.rows && r.idxFmt != 3 then [{ dest := false, sp := 1, addr := r.aux + e.row * idxBytes r, len := idxBytes r }] else []
    let mx : List Touch :=
      if r.mxDst then match e.dst with
        | some a => [{ dest := true, sp := r.dstSp, addr := r.scaleAt r.dstSp (r.block n).1 (a.fdiv 2).toNat r.dstFmt, len := 1 }]
        | none => []
      else if r.mxSrc then match e.src with
        | some a => [{ dest := false, sp := r.srcSp, addr := r.scaleAt r.srcSp (r.block n).1 (a.fdiv 2).toNat r.srcFmt, len := 1 }]
        | none => []
      else []
    let sib : List Touch :=
      if !r.sibling then []
      else if r.kind == 2 then
        [{ dest := true, sp := 1, addr := r.mxs + e.row, len := 1 }, { dest := true, sp := 1, addr := r.ctx + 64 * e.row, len := 64 }]
      else [{ dest := false, sp := 1, addr := r.ctx + 64 * e.row, len := 64 }]
    d ++ s ++ idx ++ mx ++ sib
  | 6 =>
    let w := fmtBytes r.dstFmt
    let d : Touch := { dest := true, sp := 0, addr := r.dst + n * w, len := w }
    let s : Touch := { dest := false, sp := 1, addr := r.src + n * w, len := w }
    let a : Touch := { dest := true, sp := 1, addr := r.aux + n * w, len := w }
    d :: s :: (if r.subop == 0 then [] else if r.subop == 1 then [a] else [a, { a with dest := false }])
  | 12 => if r.srcSp == 1 then [{ dest := false, sp := 1, addr := r.src, len := 128 }] else []
  | _ => []

/-- An index in range, for what the record alone computes (R231, R249). -/
def anyRow (r : Ccr) : RowAt := { ok := true, base := if r.kind == 2 then Ccr.base r.srcSp r.src else Ccr.base r.dstSp r.dst, off := 0 }

/-- Every local and folio byte that the command will touch, from the record alone (R231). A row's index does not move its
local side. -/
def Ccr.localTouches (r : Ccr) : List Touch :=
  let n := if r.kind == 12 then 1 else r.total
  (List.range n).flatMap fun k => (r.touches k (anyRow r)).filter fun t => t.sp == 1 || t.sp == 2

/-! ## The checks at the post -/

def isB (f : Nat) : Bool := f == 0 || f == 12 || f == 13 || f == 14
def isIntFmt (f : Nat) : Bool := f == 5 || f == 6 || f == 9 || f == 10
def isFloatRed (f : Nat) : Bool := f == 7 || f == 8 || f == 11 || f == 15

/-- The formats that a reduction allows (R238). -/
def redFmt (op f : Nat) : Bool :=
  match op with
  | 1 => isIntFmt f || isFloatRed f || isB f
  | 2 | 3 => isIntFmt f || isFloatRed f
  | 4 | 5 | 6 => isIntFmt f || isB f
  | _ => true

/-- R230: the spaces that each kind allows; none for "—". -/
def srcSpaces : Nat → Option (List Nat)
  | 1 => some [0, 1, 2, 3]
  | 2 => some [0]
  | 3 => some [1]
  | 4 => some [0, 1]
  | 5 => some [0]
  | 6 => some [1]
  | 10 => some [0]
  | 12 => some [0, 1]
  | _ => none

def dstSpaces : Nat → Option (List Nat)
  | 1 | 5 => some [0, 1, 2, 3]
  | 2 | 4 => some [1, 2]
  | 3 | 6 | 7 | 8 | 9 | 10 | 13 => some [0]
  | _ => none

/-- The bits of an address that its space lists (R229). -/
def spaceBits (sp : Nat) : Nat := if sp == 0 then 56 else if sp == 1 then 32 else if sp == 2 then 20 else 64

/-- The address fields of a side; a table descriptor's address has bit 63 beside (R382). -/
def addrOk (sp a : Nat) (tabled : Bool) : Bool := (if tabled then a - 2 ^ 63 else a) < 2 ^ spaceBits sp

/-- A field of dim d is set; CONV uses the source strides of four dims (R228, R241). -/
def Ccr.dimSet (r : Ccr) (d : Nat) : Bool :=
  r.ext.getD d 0 != 0 || r.start.getD d 0 != 0 || r.box.getD d 0 != 0 || r.ds.getD d 0 != 0 ||
    (r.ss.getD d 0 != 0 && !(r.kind == 4 && d < 4))

/-- Some field is set that the kind does not use, and no other check of R231 names it, or a reserved bit (0x0002). DESIGN CHOICE: a record of a
kind that may follow and does not (FOLLOW = 0) does not use DW28 to DW31 (log 118). -/
def Ccr.unusedSet (r : Ccr) : Bool :=
  let k := r.kind
  let dw (i : Nat) : W64 := r.dws.getD i 0
  let any (l : List Nat) : Bool := l.any fun i => dw i != 0
  let dimBad := r.dimSet
  -- a side that the kind has not, CONV's EXTENT_0 and EXTENT_1, and the source box of FILL, whose EXTENT R357 sets (log 19)
  let sideSet := (1 ≤ k && k ≤ 13) && (((srcSpaces k).isNone && (r.srcSp != 0 || r.src != 0)) || ((dstSpaces k).isNone && (r.dstSp != 0 || r.dst != 0)))
  let boxSet := (k == 4 && (r.ext.getD 0 0 != 0 || r.ext.getD 1 0 != 0)) ||
    (k == 5 && (List.range 5).any fun d => r.start.getD d 0 != 0 || r.ss.getD d 0 != 0)
  let fmtFree := k == 9 || k == 11 || k == 12 || k == 13
  r.resv != 0 || ((List.range 5).any fun d => bits (dw (16 + d)) 48 16 != 0) ||
  (fmtFree && (r.srcFmt != 0 || r.dstFmt != 0 || r.scaleMode != 0 || r.round != 0 || r.sat)) ||
  (!r.moves && (r.tscale != 0 || r.ring != 0 || r.pad != 0)) ||
  (k > 5 && r.transpose) ||
  (!r.rows && (r.idxFmt != 0 || r.sibling)) ||
  (r.follow && !(k == 2 || k == 4 || ((k == 1 || k == 5) && (r.dstSp == 1 || r.dstSp == 2)))) ||
  (!r.follow && any [28, 29, 30, 31]) ||
  (k != 4 && any [22, 23]) || (k != 10 && any [24, 25, 26, 27]) ||
  (k == 10 && (bits (dw 24) 56 8 != 0 || bits (dw 25) 24 8 != 0 || bits (dw 26) 48 16 != 0 || bits (dw 27) 32 32 != 0)) ||
  (!(k == 2 || k == 3 || k == 6 || k == 7 || k == 9 || k == 10 || (k == 8 && r.subop != 1)) && r.count != 0) ||
  (!(k == 2 || k == 3 || k == 7 || k == 13 || (k == 6 && r.subop != 0)) && r.aux != 0) ||
  (r.mxs != 0 && !((r.moves && r.scaleMode == 3) || (k == 2 && r.sibling))) ||
  (r.ctx != 0 && !r.sibling) ||
  (k == 13 && r.aux ≥ 2 ^ 56) || sideSet || boxSet || (k > 5 && (List.range 5).any dimBad)

/-- DIMS and the breaks of R228, the fields of the dims at and above DIMS among them (R292), with the shapes of GATHER, SCATTER and their sibling modes (0x0003). -/
def Ccr.badDims (r : Ccr) : Bool :=
  let n := r.dims
  let lo := if r.kind ≤ 5 then (if r.kind == 4 then 2 else 1) else 0
  let hi := if r.kind ≤ 5 then (if r.kind == 4 then 2 else 5) else 0
  let prod := ((List.range n).map fun d => r.box.getD d 0).foldl (· * ·) 1
  n < lo || n > hi || (r.kind ≤ 5 && (List.range 5).any fun d => n ≤ d && r.dimSet d) ||
  (n != 0 && (prod == 0 || prod * (if r.rows then r.count else 1) ≥ 2 ^ 32 || (r.transpose && n < 2) ||
    (r.rows && (r.start.getD (n - 1) 0 != 0 || r.box.getD (n - 1) 0 != 1)) ||
    (r.sibling && n != (if r.kind == 2 then 3 else 2))))

/-- Spaces and address bits (0x0004). -/
def Ccr.badSpace (r : Ccr) : Bool :=
  (match srcSpaces r.kind with
    | none => r.srcSp != 0 || r.src != 0
    | some l => !l.contains r.srcSp || (r.kind != 5 && !addrOk r.srcSp r.src (r.kind == 2 && r.tabled))) ||
  (match dstSpaces r.kind with
    | none => r.dstSp != 0 || r.dst != 0
    | some l => !l.contains r.dstSp || !addrOk r.dstSp r.dst (r.kind == 3 && r.tabled))

/-- R374: the formats and REDOP that a collective allows. -/
def collFmtOk (op rop f count : Nat) : Bool :=
  if op == 0 || op == 1 || op == 4 then
    ((1 ≤ rop && rop ≤ 3) && [7, 8, 11, 9, 10].contains f) || ((4 ≤ rop && rop ≤ 6) && [9, 10, 13].contains f)
  else if op == 6 then rop == 0 && (f == 0 || f == 13)
  else rop == 0 && (f != 3 || count % 2 == 0)

/-- Formats and reductions (0x0005). -/
def Ccr.badFmt (r : Ccr) : Bool :=
  let same := r.srcFmt == r.dstFmt && r.scaleMode == 0 && r.round == 0 && !r.sat
  match r.kind with
  | 1 | 2 | 3 | 4 =>
    ((isB r.srcFmt || isB r.dstFmt) && !(r.srcFmt == r.dstFmt && r.scaleMode == 0)) ||
      ((r.kind == 1 || r.kind == 3) && r.redop ≤ 6 && !redFmt r.redop r.dstFmt)
  | 5 => !same
  | 6 => !same || !([9, 10, 11, 13, 14, 15].contains r.dstFmt) || (1 ≤ r.redop && r.redop ≤ 6 && !redFmt r.redop r.dstFmt)
  | 7 => !same || (r.dstFmt != 13 && r.dstFmt != 14)
  | 8 => !same || (if r.subop == 1 then r.dstFmt != 0
      else if r.redop == 8 || r.redop == 9 then r.dstFmt != 0 else !(isIntFmt r.dstFmt || isFloatRed r.dstFmt))
  | 10 => !same || !collFmtOk (bits (r.dws.getD 25 0) 0 8) r.redop r.srcFmt r.count
  | _ => false

/-- ROUND, where it is used (0x0006). -/
def Ccr.badRound (r : Ccr) : Bool := r.round == 3 || (r.moves && r.round != 0 && r.dstFmt == 4)

/-- The shape of an MX side (R237). -/
def Ccr.badMx (r : Ccr) : Bool :=
  let d := r.mxDst
  let f := if d then r.dstFmt else r.srcFmt
  let sp := if d then r.dstSp else r.srcSp
  let base := (if d then r.dst else r.src) % 2 ^ 32
  let bx := r.box.getD r.mxDim 0
  let nd := if r.kind == 4 then (if d then 2 else 4) else r.dims
  let st := (if d then r.ds else r.ss).take nd
  let bb := blockBytes f
  mxFmt r.srcFmt == mxFmt r.dstFmt || r.sibling || (sp != 1 && sp != 2) || bx % 32 != 0 || (r.rows && r.mxDim + 1 == r.dims) ||
  st.headD 0 != (if f == 3 then 0 else 1) || base % bb != 0 || ((st.drop 1).any fun x => x % bb != 0) || (sp == 2 && r.mxs != 0)

/-- Scale modes (0x0007). -/
def Ccr.badScale (r : Ccr) : Bool :=
  r.scaleMode > 3 || (r.moves && ((r.scaleMode == 2 && (fmtMax r.dstFmt).isNone) || (r.scaleMode == 3 && r.badMx)))

/-- REDOP and SUBOP (0x0008). -/
def Ccr.badOp (r : Ccr) : Bool :=
  let sub (n : Nat) : Bool := r.subop > n
  match r.kind with
  | 1 => sub 1 || r.redop > 6
  | 2 | 4 => sub 1 || r.redop != 0
  | 3 => sub 0 || r.redop > 6 || (r.sibling && r.redop != 0)
  | 6 => sub 2 || (if r.subop == 2 then r.redop != 0 else !(1 ≤ r.redop && r.redop ≤ 7))
  | 7 => sub 0 || r.redop > 7
  | 8 => sub 1 || (if r.subop == 1 then r.redop != 0 else !([1, 2, 3, 8, 9].contains r.redop))
  | 10 => sub 0 || r.redop > 6
  | 9 => r.redop != 0
  | _ => sub 0 || r.redop != 0

/-- One side's base and strides (R229). -/
def sideBad (sp a : Nat) (strides : List Int) (fmt box0 : Nat) (org0 : Int) : Bool :=
  let w := fmtBits fmt / 8
  let base := if sp == 3 then a % 2 ^ 32 else a % 2 ^ 63
  if fmt == 3 then strides.headD 0 != 0 || box0 % 2 != 0 || org0 % 2 != 0
  else base % w != 0 || strides.any fun x => x % (w : Int) != 0

/-- Alignment (0x0009). DESIGN CHOICE: that of an index list whose width is unknown (IDX_FMT = 3) is not tested (log 119). -/
def Ccr.misaligned (r : Ccr) : Bool :=
  let n := if r.kind == 4 then 2 else r.dims
  let dstSide := sideBad r.dstSp r.dst (r.ds.take n) r.dstFmt (r.box.getD (if r.transpose then 1 else 0) 0) 0
  let srcSide := sideBad r.srcSp r.src (r.ss.take (if r.kind == 4 then 4 else r.dims)) r.srcFmt (r.box.getD 0 0) (r.start.getD 0 0)
  let w := fmtBytes r.dstFmt
  match r.kind with
  | 1 | 4 => dstSide || srcSide
  | 2 | 3 => dstSide || srcSide || (r.idxFmt != 3 && r.aux % idxBytes r != 0) || (r.sibling && r.ctx % 64 != 0)
  | 5 => dstSide
  | 6 => r.dst % w != 0 || r.src % w != 0
  | 7 => r.dst % w != 0
  | 10 => r.src % w != 0 || r.dst % w != 0
  | 12 => r.src % 128 != 0
  | 13 => r.dst % 8 != 0
  | _ => false

/-- REC_ADDR (R253, R266), where a record is asked for. -/
def Ccr.recBad (r : Ccr) (p : Packet) (t : Team) : Bool :=
  r.recEn &&
  (if r.recAddr % 2 == 1 then r.recAddr ≥ 16 || (tgetD t.crings (r.recAddr / 2 % 8) default).size == 0
   else r.recAddr % 32 != 0 || r.recAddr + 32 > p.scratch)

/-- A local or folio byte outside what the team may reach (0x000A). -/
def touchBad (p : Packet) (t : Team) (x : Touch) : Bool :=
  x.addr < 0 || (if x.sp == 1 then x.addr + x.len > p.scratch else !folioBytesOk t x.addr.toNat x.len)

/-- The touches that are checked: a CONV whose geometry fails has only its destination box, and an index list only where its
width is known (R231). -/
def Ccr.rangeBad (r : Ccr) (p : Packet) (t : Team) : Bool :=
  !r.badDims && r.localTouches.any (touchBad p t)

/-- CONV, COLL and CACHE fields (0x000D). -/
def Ccr.badKind (r : Ccr) : Bool :=
  let d25 := r.dws.getD 25 0
  match r.kind with
  | 4 => !r.convOk
  | 10 =>
    let op := bits d25 0 8
    let repl := bits d25 32 32
    let chunk := bits (r.dws.getD 27 0) 0 32
    op > 6 || repl == 0 || repl > 7 || (bits d25 8 16 != 0 && op != 3 && op != 4) ||
      chunk % 4096 != 0 || chunk < 4096 || chunk > 2 ^ 24 ||
      (op == 6 && (r.count != 0 || r.src != 0 || r.dst != 0))
  | _ => false

/-- The follow-on's record: R277 with SLIP_EN = 0 and DW2 zero (0x000E). -/
def Ccr.mcmd (r : Ccr) : Mcmd :=
  mcmdOf (r.dws.getD 28 0) (r.dws.getD 29 0) (r.dws.getD 30 0) (r.dws.getD 31 0)

def Ccr.badFollow (r : Ccr) (p : Packet) (t : Team) : Bool :=
  r.follow && (r.dws.getD 30 0 != 0 || (r.mcmd.cause p t).isSome)

/-- The lowest FAULT code that applies (R231); none for a record that passes. -/
def Ccr.check (r : Ccr) (p : Packet) (t : Team) : Option Nat :=
  let tests : List (Nat × Bool) := [
    (0x0001, !(1 ≤ r.kind && r.kind ≤ 13)), (0x0002, r.unusedSet), (0x0003, r.badDims), (0x0004, r.badSpace),
    (0x0005, r.badFmt), (0x0006, r.badRound), (0x0007, r.badScale), (0x0008, r.badOp), (0x0009, r.misaligned),
    (0x000A, r.recBad p t || r.rangeBad p t), (0x000B, r.rows && r.idxFmt == 3), (0x000C, r.scope > 8),
    (0x000D, r.badKind), (0x000E, r.badFollow p t), (0x000F, r.slipEn && r.slip ≥ p.slips)]
  (tests.find? (·.2)).map (·.1)

end Sys2Proof.Machine
end

