-- ==== Sys2Proof/Machine/SaveArea.lean ====
section
/-! DEFINITION. The save area of a context (R339, R345, R346): how firmware reaches it, and where the parts of a saved team stand. -/

namespace Sys2Proof.Machine

def saveBase (s : State) (ctx : Nat) : Nat := bits (rcbDw s ctx 12) 0 56
def saveLen (s : State) (ctx : Nat) : Nat := bits (rcbDw s ctx 13) 0 40

/-- The place of a byte of the save area, a global address of the team's address space, in this package's HBM. -/
def saveLeaf (s : State) (asid va : Nat) (write : Bool) : Option (Nat × W64) :=
  match walk s asid va with
  | some (some (e, level)) => match leafTrans s asid va write e level with
    | .hbm pa e => some (pa, e)
    | _ => none
  | _ => none

/-- The save area is pinned (R339): a team of whose part some page does not translate, or is a sibling page, which takes no plain
write (R306), is not saved yet. -/
def saveMapped (s : State) (t va n : Nat) : Bool :=
  (List.range (n / 65536 + 2)).all fun i =>
    let p := (va / 65536 + i) * 65536
    va + n ≤ p || (match saveLeaf s (teamAsid s t) p true with
      | some (_, e) => !pteSibling e && (saveLeaf s (teamAsid s t) p false).isSome
      | none => false)

/-- Bytes that firmware copies to the save area through the L2 of the team's die (R345, R346). -/
def savePut (s : State) (t va : Nat) (bs : List Byte) : State :=
  let die := dieOf (s.team t).core
  forEach (linesOf va bs.length) s fun s line =>
    let lo := max va (128 * line)
    match saveLeaf s (teamAsid s t) lo true with
    | some (pa, e) => if pteSibling e then s else l2Write s die (homeDie e pa) pa ((bs.drop (lo - va)).take (128 * line + 128 - lo))
    | none => s

/-- Bytes that firmware copies back. -/
def saveGet (s : State) (t va n : Nat) : List Byte :=
  let die := dieOf (s.team t).core
  (linesOf va n).flatMap fun line =>
    let lo := max va (128 * line)
    let len := min (va + n) (128 * line + 128) - lo
    match saveLeaf s (teamAsid s t) lo false with
    | some (pa, e) => ((l2Line s die (homeDie e pa) (pa / 128)).1.drop (pa % 128)).take len
    | none => List.replicate len 0

/-- What a context's save area holds: the parts of its saved teams and its spilled tiles, from SAVEBASE. -/
def saveBlocks (s : State) (ctx : Nat) : List (Nat × Nat) :=
  (s.teams.filter fun e => teamCtx s e.1 == ctx).flatMap fun e =>
    (if e.2.status == .saved then [(e.2.saveAt, e.2.saveSize)] else []) ++ e.2.savedTiles.map fun x => (x.2, 262144)

/-- The lowest free run of a length in the save area of a team's context. DESIGN CHOICE: R345 gives lengths and no layout
(log 72). -/
def saveSpot (s : State) (t n : Nat) : Option Nat :=
  let ctx := teamCtx s t
  let bs := saveBlocks s ctx
  let free (o : Nat) : Bool :=
    o + n ≤ saveLen s ctx && (bs.all fun b => o + n ≤ b.1 || b.1 + b.2 ≤ o) && saveMapped s t (saveBase s ctx + o) n
  match (0 :: bs.map fun b => b.1 + b.2).filter free with
  | [] => none
  | o :: os => some (os.foldl min o)

/-- The address of a place of the team's part. -/
def saveVa (s : State) (t off : Nat) : Nat := saveBase s (teamCtx s t) + off

/-! ## The layout of a saved team

DESIGN CHOICE (log 72): the parts of the sum of R345 stand in its order. -/

/-- The registers of a wave: its vector registers one after the other, lane 0 first in each, and its scalar registers. -/
def savedRegsOff (p : Packet) (wave : Nat) : Nat := 65536 + wave * (128 * p.regs + 512 + 32 * p.priv)
def savedPrivOff (p : Packet) (wave : Nat) : Nat := savedRegsOff p wave + 128 * p.regs + 512
def savedScratchOff (p : Packet) : Nat := 65536 + p.waves * (128 * p.regs + 512 + 32 * p.priv)
def savedFolioOff (p : Packet) (i : Nat) : Nat := savedScratchOff p + p.scratch + 13312 * i

def savedCmdOff (p : Packet) (i : Nat) : Nat := savedFolioOff p p.folios + 320 * i
/-- In the first 65,536 bytes: the matrix operations as MCMD records, and the folio lists of the front and the back plane. -/
def savedOpOff (i : Nat) : Nat := 32 * i
def savedPlaneOff (i : Nat) : Nat := 32768 + 32 * i

end Sys2Proof.Machine
end

