-- ==== Sys2Proof/Machine/Claims.lean ====
section
/-! DEFINITION. The landing claims of commands (R194, R249, R260): their entries, their taking, landing and release. -/

namespace Sys2Proof.Machine

/-- A run of units of one kind and space (R260). -/
structure URun where
  dest : Bool
  folio : Bool
  first : Nat
  last : Nat
  deriving DecidableEq, Repr, Inhabited

def Touch.isFolio (t : Touch) : Bool := t.sp == 2

def Touch.units (t : Touch) : List Nat := unitsOf t.isFolio t.addr.toNat t.len

/-- The units of one kind and space among touches. -/
def unitsAmong (ts : List Touch) (dest folio : Bool) : List Nat :=
  sortNat ((ts.filter fun t => t.dest == dest && t.isFolio == folio).flatMap Touch.units)

def fourKinds : List (Bool × Bool) := [(true, false), (false, false), (true, true), (false, true)]

/-- The runs of the units of touches, and of the follow-on's (R285). -/
def runsFor (ts : List Touch) (follow : List (Bool × Bool × List Nat × Bool)) : List URun :=
  fourKinds.flatMap fun k =>
    let own := unitsAmong ts k.1 k.2
    let more := (follow.filter fun c => c.1 == k.1 && c.2.1 == k.2).flatMap fun c => c.2.2.1
    (runsOf (own ++ more)).map fun r => { dest := k.1, folio := k.2, first := r.1, last := r.2 }

/-- Neighbouring runs of one kind and space, with the order in which R260 joins them. -/
def joinKeys : Nat → List URun → List ((Nat × Nat × Nat × Nat) × Nat)
  | i, a :: b :: r =>
    (if a.dest == b.dest && a.folio == b.folio then
      [((b.first - a.last, if a.folio then 1 else 0, a.first, if a.dest then 0 else 1), i)] else []) ++ joinKeys (i + 1) (b :: r)
  | _, _ => []

def joinLt (a b : Nat × Nat × Nat × Nat) : Bool :=
  a.1 < b.1 || (a.1 == b.1 && (a.2.1 < b.2.1 || (a.2.1 == b.2.1 && (a.2.2.1 < b.2.2.1 || (a.2.2.1 == b.2.2.1 && a.2.2.2 < b.2.2.2)))))

def mergeAt : Nat → List URun → List URun
  | 0, a :: b :: r => { a with last := b.last } :: r
  | n + 1, a :: r => a :: mergeAt n r
  | _, l => l

/-- Runs joined until at most 16 remain, or no pair can be joined (R260). -/
def joinRuns : Nat → List URun → List URun
  | 0, l => l
  | n + 1, l =>
    if l.length ≤ 16 then l
    else match joinKeys 0 l with
      | [] => l
      | k :: ks => joinRuns n (mergeAt (ks.foldl (fun m x => if joinLt x.1 m.1 then x else m) k).2 l)

/-- The claims of a command: one per entry, its own units waiting; a unit of a joined gap never lands nor is read (R260). -/
def claimsOfRuns (owner team : Nat) (ts : List Touch) (rs : List URun) : List Claim :=
  rs.map fun r =>
    { owner := owner, matrix := false, team := team, dest := r.dest, folio := r.folio, first := r.first, last := r.last
      waiting := (unitsAmong ts r.dest r.folio).filter fun u => r.first ≤ u && u ≤ r.last, latch := false, stamp := 0 }

/-- Claim entries in use on a core: claims of the matrix array take none (R260, R279), nor those of a saved team. -/
def Core.entries (c : Core) : Nat := (c.claims.filter fun k => !k.matrix && c.tslots.any fun t => t.2 == k.team).length

/-- Elements not yet performed. -/
def Cmd.todo (c : Cmd) (n : Nat) : Bool := c.els ≤ n && !c.ahead.contains n

/-- The touches on the command's own core that are still to come (R249, R344). -/
def Cmd.ownTouches (c : Cmd) : List Touch :=
  let r := c.ccr
  let n := if r.kind == 12 then 1 else r.total
  ((List.range n).filter c.todo).flatMap fun k => (r.touches k (anyRow r)).filter fun t => t.sp == 1 || t.sp == 2

/-- The same on a cluster peer's scratchpad (R249). -/
def Cmd.peerTouches (c : Cmd) : List Touch :=
  let r := c.ccr
  ((List.range r.total).filter c.todo).flatMap fun k => (r.touches k (anyRow r)).filter fun t => t.sp == 3

def Cmd.followClaims (c : Cmd) : List (Bool × Bool × List Nat × Bool) :=
  if c.ccr.follow && c.follow.isNone then c.ccr.mcmd.claimsOf else []

/-- The runs of a command at its post (R249, R260). -/
def Cmd.runs (c : Cmd) : List URun :=
  let rs := runsFor c.ownTouches c.followClaims
  joinRuns rs.length rs

/-- There is room for the claim entries of a command (R257). -/
def claimsFit (s : State) (c : Cmd) : Bool := (s.core c.core).entries + c.runs.length ≤ 256

/-- The command takes its claims, and its follow-on's (R249, R285). -/
def takeClaims (s : State) (k : Nat) : State :=
  let c := s.cmd k
  let s := s.onCore c.core fun x => { x with claims := x.claims ++ claimsOfRuns k c.team c.ownTouches c.runs }
  if c.ccr.follow && c.follow.isNone then
    let (stamp, s) := s.freshId c.core
    takeMatClaims s c.core c.team (followOwner k) stamp c.ccr.mcmd
  else s

/-- The claims that a command holds anywhere are released (R252). -/
def releaseClaims (s : State) (k : Nat) : State :=
  { s with cores := s.cores.map fun (n, x) => (n, { x with claims := x.claims.filter fun y =>
      !(y.owner == k && !y.matrix) && !(y.owner == followOwner k && y.matrix) }) }

/-! ## Cluster peers -/

/-- The team that a cluster-peer address names, when it is in the poster's cluster and of its launch (R229, R232); while it
is saved (R345), commands wait for it. -/
def peerTeam (s : State) (c : Cmd) (addr : Nat) : Option Nat :=
  let l := (s.team c.team).launch
  (s.teams.find? fun e => e.2.launch == l && e.2.ordinal == addr / 2 ^ 32 && (s.live e.1 || e.2.status == .saved) && e.2.core / 20 == c.core / 20).map (·.1)

def Ccr.peerAddr (r : Ccr) (dest : Bool) : Nat := if dest then r.dst else r.src

/-- The claims on cluster peers: none where the peer's core has no room for them yet (R260). -/
def takePeerClaims (s : State) (k : Nat) : Option State :=
  let c := s.cmd k
  let ts := c.peerTouches
  let side (dest : Bool) (s : State) : Option State :=
    let mine := ts.filter fun t => t.dest == dest
    if mine.isEmpty then some s
    else match peerTeam s c (c.ccr.peerAddr dest) with
      | none => some s
      | some p =>
        if !s.live p then none
        else
        let rs0 := runsFor mine []
        let rs := joinRuns rs0.length rs0
        let core := (s.team p).core
        if (s.core core).entries + rs.length > 256 then none
        else some (s.onCore core fun x => { x with claims := x.claims ++ claimsOfRuns k p mine rs })
  (side true s).bind (side false)

/-- Bytes put into a team's scratchpad, or where it is saved into its place in the save area, whence it comes back (R194, R345). -/
def scratchPut (s : State) (t a : Nat) (bs : List Byte) : State :=
  let x := s.team t
  if x.status == .saved then savePut s t (saveVa s t (x.saveAt + savedScratchOff (teamPkt s t) + a)) bs else scratchWrite s t a bs

/-- The claims of a terminated command on a cluster peer are released, with zero in every unlanded byte of them (R194). -/
def reapClaims (s : State) (k : Nat) : State :=
  let c := s.cmd k
  let s := forEach c.peerTouches s fun s t =>
    if !t.dest then s
    else match peerTeam s c (c.ccr.peerAddr true) with
      | some p => scratchPut s p t.addr.toNat (List.replicate t.len 0)
      | none => s
  releaseClaims s k

/-- The end of a terminated command: its claims on a cluster peer, and then the acknowledgements of its writes, for which the
end of its launch waits (R194, R224). -/
def reapCmd (s : State) (k : Nat) : State :=
  let owns := s.cores.any fun c => c.2.claims.any fun y => y.owner == k && !y.matrix
  let s := if owns then reapClaims s k else s
  if (s.cmd k).unacked.isEmpty then
    let l := (s.team (s.cmd k).team).launch
    endLaunch { s with cmds := tdel s.cmds k } l
  else s

def reapGone (s : State) : State := forEach s.cmds s fun s e => if e.2.state == .gone then reapCmd s e.1 else s

/-! ## Landing -/

/-- Is a unit still to be touched by an element that is not performed? -/
def Cmd.stillTouches (c : Cmd) (dest folio peer : Bool) (u : Nat) : Bool :=
  let r := c.ccr
  (List.range r.total).any fun n => c.todo n &&
    (r.touches n (anyRow r)).any fun t => t.dest == dest && t.isFolio == folio && (t.sp == 3) == peer && t.sp != 0 && t.units.contains u

/-- After elements have been performed, the units that they touched and that no later one touches have landed or been read
(R249). A padded or skipped element lands its bytes too. -/
def landElement (s : State) (k n : Nat) : State :=
  let c := s.cmd k
  let r := c.ccr
  let ts := (r.touches n (anyRow r)).filter fun t => t.sp != 0
  if ts.isEmpty then s
  else { s with cores := s.cores.map fun (i, x) => (i, { x with claims := x.claims.map fun y =>
    if y.owner == k && !y.matrix then
      { y with waiting := y.waiting.filter fun u =>
          !(ts.any fun t => t.dest == y.dest && t.isFolio == y.folio && t.units.contains u) ||
          c.stillTouches y.dest y.folio (y.team != c.team) u ||
          (peerTeam s c (r.peerAddr y.dest) == some y.team && c.stillTouches y.dest y.folio true u) }
    else y }) }

/-- A landing in folio space waits for a latch claim of another operation (R274). -/
def latched (s : State) (c : Cmd) (k : Nat) (a n : Nat) : Bool :=
  let us := unitsOf true a n
  (s.core c.core).claims.any fun y => y.latch && y.team == c.team && y.owner != followOwner k &&
    us.any fun u => y.waiting.contains u

end Sys2Proof.Machine
end

