-- ==== Sys2Proof/Machine/Contract.lean ====
section
/-! DEFINITION. Contracts (R352) and the freezing of masters (R353). -/

namespace Sys2Proof.Machine

/-- ec cycles of a µs (R14, R352). -/
def ecPerUs : Nat := 2100

def c0bw (s : State) (a : Nat) : Nat := effective s 4 3 0 32 a
def c0cmd (s : State) (a : Nat) : Nat := effective s 4 3 32 16 a

/-- The buckets of an RCB on a die as they stand now: full at reset, refilled at their rates, at most 10 µs deep (R352). -/
def bucketNow (s : State) (die a : Nat) : Bucket :=
  let capB := 10 * c0bw s a * ecPerUs
  let capC := 10 * c0cmd s a * ecPerUs
  match tget s.buckets (die * 2 ^ 56 + a) with
  | none => { bytes := capB, cmds := capC, at_ := s.now }
  | some b =>
    let dt := s.now - b.at_
    { bytes := min capB (b.bytes + dt * c0bw s a), cmds := min capC (b.cmds + dt * c0cmd s a), at_ := s.now }

/-- A post takes one command and its bytes from a bucket; the reason of R353 where it finds it short. -/
def takeBucket (s : State) (die a n : Nat) : Option Nat × State :=
  let b := bucketNow s die a
  let short : Option Nat := if b.bytes < n * ecPerUs then some 1 else if b.cmds < ecPerUs then some 2 else none
  let b := { b with bytes := b.bytes - n * ecPerUs, cmds := b.cmds - ecPerUs }
  (short, { s with buckets := tset s.buckets (die * 2 ^ 56 + a) b })

/-- The EXTRA field of a FREEZE entry (R353). -/
def freezeExtra (master reason id0 id1 : Nat) : List Byte :=
  leBytes 1 master ++ leBytes 1 reason ++ leBytes 2 0 ++ leBytes 4 id0 ++ leBytes 4 id1

/-- The owner of a context is told of a freeze (R353, R387). -/
def tellFreeze (s : State) (ctx : Nat) (extra : List Byte) : State :=
  match (s.ctx ctx).session with
  | some n => s.tell n 0x21 extra
  | none => s

/-- Sleeps end: the threads go on at the next word (R103, R345, R353). -/
def endSleeps (s : State) (t : Nat) : State :=
  let core := (s.team t).core
  forEach (slotsOf s t) s fun s k => s.onWave core k fun w => { w with lanes := w.lanes.map fun e =>
    match e.2.block with
    | .sleep _ => (e.1, e.2.next)
    | _ => e }

/-- A team is frozen, with its FREEZE entry (R353): its waves stop as at pre-emption. -/
def freezeTeam (s : State) (t reason : Nat) : State :=
  if (s.team t).freeze.isSome then s
  else
    let x := s.team t
    let extra := freezeExtra 1 reason (s.launch x.launch).id x.ordinal
    let (id, s) := dockFault s (teamCtx s t) t { teamEntry s t with kind := 3, extra := extra }
    let s := tellFreeze s (teamCtx s t) extra
    (endSleeps s t).onTeam t fun x => { x with freeze := some id, status := if x.status == .resident then .frozen else x.status }

/-- A class-0 post of a team (R352): the buckets of every RCB of the path that sets group 4. -/
def contractPost (s : State) (t n : Nat) : State :=
  let die := dieOf (s.team t).core
  let nodes := (rcbPath s (teamRcb s t)).filter fun a => rcbOvr s a / 16 % 2 == 1
  let (short, s) := nodes.foldl (fun (acc : Option Nat × State) a =>
    let (x, s) := takeBucket acc.2 die a n
    (if acc.1.isSome then acc.1 else x, s)) (none, s)
  match short with
  | some r => freezeTeam s t r
  | none => s

end Sys2Proof.Machine
end

