-- ==== Sys2Proof/Machine/LocalMem.lean ====
section
/-! DEFINITION. Local loads, stores and folio accesses (R195 to R198), and what completes them: fills (R173, R179), replays
(R179), the ends of claim waits (R194), write-back retries (R180) and the completion of outstanding words (R20). -/

namespace Sys2Proof.Machine

/-! ## Loads and stores -/

/-- A lane's load into a destination. -/
def loadAcc (e : Env) (f : Form) (l : LaneAt) (n : Nat) (sh : LoadShape) : LaneAcc :=
  oneAccess l { (default : Access) with
    r := l.2, kind := 0, addr := (e.addr l f).toNat, size := n, shape := sh, writer := l.2 == e.first.2 }

/-- A lane's store of data bytes. -/
def storeAcc (e : Env) (f : Form) (l : LaneAt) (bs : List Byte) : LaneAcc :=
  oneAccess l { (default : Access) with
    r := l.2, kind := 1, addr := (e.addr l f).toNat, size := bs.length, data := bs }

def wordBytes (ws : List W32) : List Byte := ws.flatMap fun w => leBytes 4 w.toNat

/-- The data operand of a 128-bit access (R195). -/
def quadReg (o : Opnd) : Nat := match o with | .v k => k.toNat | _ => 0

def loadWord (opc : Nat) (f : Form) (s : State) (n : Nat) (sh : LoadShape) : Host.Outcome State Fault Refusal :=
  localWord opc f s false fun e => e.act.map fun l => loadAcc e f l n sh

def storeWord (opc : Nat) (f : Form) (s : State) (data : Env → LaneAt → List Byte) : Host.Outcome State Fault Refusal :=
  localWord opc f s false fun e => e.act.map fun l => storeAcc e f l (data e l)

/-- LDL8 (R195). -/
def execLdl8 (f : Form) (s : State) : Host.Outcome State Fault Refusal :=
  loadWord 0x70 f s 1 (.ext f.d 8 (MOD.type f.mod == 1))
/-- LDL16 (R195). -/
def execLdl16 (f : Form) (s : State) : Host.Outcome State Fault Refusal :=
  loadWord 0x71 f s 2 (.ext f.d 16 (MOD.type f.mod == 3))
/-- LDL32 (R195). -/
def execLdl32 (f : Form) (s : State) : Host.Outcome State Fault Refusal := loadWord 0x72 f s 4 (.opnd f.d)
/-- LDL64 (R195). -/
def execLdl64 (f : Form) (s : State) : Host.Outcome State Fault Refusal := loadWord 0x73 f s 8 (.opnd f.d)
/-- LDL128 (R195). -/
def execLdl128 (f : Form) (s : State) : Host.Outcome State Fault Refusal := loadWord 0x74 f s 16 (.words (quadReg f.d))

/-- STL8 (R195). -/
def execStl8 (f : Form) (s : State) : Host.Outcome State Fault Refusal :=
  storeWord 0x75 f s fun e l => leBytes 1 (e.src l f.b .int).toNat
/-- STL16 (R195). -/
def execStl16 (f : Form) (s : State) : Host.Outcome State Fault Refusal :=
  storeWord 0x76 f s fun e l => leBytes 2 (e.src l f.b .int).toNat
/-- STL32 (R195). -/
def execStl32 (f : Form) (s : State) : Host.Outcome State Fault Refusal :=
  storeWord 0x77 f s fun e l => leBytes 4 (e.src l f.b .int).toNat
/-- STL64 (R195). -/
def execStl64 (f : Form) (s : State) : Host.Outcome State Fault Refusal :=
  storeWord 0x78 f s fun e l => leBytes 8 (e.src64 l f.b .int).toNat
/-- STL128 (R195). -/
def execStl128 (f : Form) (s : State) : Host.Outcome State Fault Refusal :=
  storeWord 0x79 f s fun e l => wordBytes (e.vregs l f.b 4)

/-! ## Queue operands of words that block -/

/-- The outcome of a non-blocking queue operand, for a word that blocks before it writes its destination (R63, R270). -/
def keepOutcome (e : Env) (opc : Nat) (f : Form) (s : State) : State :=
  if e.nb.isSome && (opSpec opc f.mod).d != .none then
    (addPendFrom e.s s e.core f (e.act.map (·.2)) (e.dests fun _ => []) [] [] 0).2
  else s

/-- What the queue operand of a word gave it stays with its lanes, which issue the word again (R270). -/
def keepPop (e : Env) (opc : Nat) (f : Form) : State :=
  let s := keepOutcome e opc f e.s
  if e.pop.isEmpty && e.nb.isNone then s
  else
    let entry := wordBytes ((List.range 16).map fun k => e.pop.getD k 0)
    let (bid, s) := s.freshId e.core
    s.onCore e.core fun c => { c with waits := c.waits ++
      [{ bid := bid, kind := .granted entry, d := .nul, pc := .nul, lanes := e.act.map (·.2), since := s.now }] }

/-- The lanes wait for the claims on a record and issue the word again (R194, R257): the entry that its queue operand has
popped stays with them (R270). -/
def blockRecord (e : Env) (opc : Nat) (f : Form) (a n : Nat) : State :=
  blockWord (keepPop e opc f) e.core (e.act.map (·.2)) (.record a n) .nul .nul

/-! ## Uniform accesses and fragments -/

def scalarReg (o : Opnd) : Nat := match o with | .s k => k.toNat | _ => 0

/-- The access of a uniform word, made once for all its contributing lanes (R196). -/
def uniformAcc (e : Env) (a : Access) : LaneAcc :=
  { lane := e.first, accs := [a], bad := false, lanes := e.act.map (·.2) }

/-- LDLS (R196). -/
def execLdls (f : Form) (s : State) : Host.Outcome State Fault Refusal :=
  localWord 0x7A f s true fun e =>
    [uniformAcc e { (default : Access) with
      r := e.first.2, kind := 0, addr := (e.addr e.first f).toNat, size := 4 * cntOf f.mod
      shape := .scalars (scalarReg f.d), writer := true }]

/-- STLS (R196). -/
def execStls (f : Form) (s : State) : Host.Outcome State Fault Refusal :=
  localWord 0x7B f s true fun e =>
    [uniformAcc e { (default : Access) with
      r := e.first.2, kind := 1, addr := (e.addr e.first f).toNat, size := 4 * cntOf f.mod
      data := wordBytes (e.sregs e.first f.b (cntOf f.mod)) }]

/-- The address of row or word `r` of a slot (R197). -/
def fragAddr (e : Env) (f : Form) (l : LaneAt) (r : Nat) : Nat :=
  let base := e.addr l f
  let stride := e.src l f.b .int
  let n (x : Nat) : W32 := BitVec.ofNat 32 x
  (if f.mod.getLsbD 2 then base + n l.1 * stride + n (4 * r) else base + n r * stride + n (4 * l.1)).toNat

/-- LDLM and STLM: N words of a lane, in increasing r (R197). -/
def fragWord (opc : Nat) (f : Form) (s : State) (store : Bool) : Host.Outcome State Fault Refusal :=
  localWord opc f s true fun e => e.act.map fun l =>
    { lane := l
      accs := (List.range (cntOf f.mod)).map fun r =>
        { (default : Access) with
          r := l.2, kind := if store then 1 else 0, addr := fragAddr e f l r, size := 4
          data := if store then wordBytes [readV e.s e.core l.2 (quadReg f.d + r)] else []
          shape := .words (quadReg f.d + r) }
      bad := (e.src l f.b .int).toNat % 4 != 0
      lanes := [l.2] }

/-- LDLM (R197). -/
def execLdlm (f : Form) (s : State) : Host.Outcome State Fault Refusal := fragWord 0x7C f s false
/-- STLM (R197). -/
def execStlm (f : Form) (s : State) : Host.Outcome State Fault Refusal := fragWord 0x7D f s true

/-! ## Folios -/

/-- LDF (R198). -/
def execLdf (f : Form) (s : State) : Host.Outcome State Fault Refusal :=
  localWord 0x7E f s false fun e => e.act.map fun l =>
    let n := 4 * 2 ^ f.mod.toNat
    oneAccess l { (default : Access) with
      r := l.2, kind := 0, space := 2, addr := (e.addr l f).toNat, size := n, writer := l.2 == e.first.2
      shape := if f.mod == 2 then .words (quadReg f.d) else .opnd f.d }

/-- STF (R198). -/
def execStf (f : Form) (s : State) : Host.Outcome State Fault Refusal :=
  localWord 0x7F f s false fun e => e.act.map fun l =>
    let bs := if f.mod == 2 then wordBytes (e.vregs l f.b 4)
      else if f.mod == 1 then leBytes 8 (e.src64 l f.b .int).toNat else leBytes 4 (e.src l f.b .int).toNat
    oneAccess l { (default : Access) with
      r := l.2, kind := 1, space := 2, addr := (e.addr l f).toNat, size := bs.length, data := bs }

/-! ## The completion of outstanding words -/

/-- Lanes whose blocking condition on flags has ended become runnable (R20, R22, R128). -/
def wakeFlags (s : State) (core : Nat) (rs : List LaneRef) : State :=
  forEach rs s fun s r => s.onLane core r fun l => match l.block with
    | .flags m => if l.flagsClear m then { l with block := .none } else l
    | .flagFull k => if l.flagCount k < 63 then { l with block := .none } else l
    | _ => l

/-- Samples of an RDLANE read their source lanes (R95); one that reads poison ends the team (R192). -/
def takeSamples (s : State) (core : Nat) (p : Pend) (which : RdSample → Bool) : State :=
  let xs := p.samples.filter which
  if xs.any fun x => (s.lane core x.src).poison.contains x.reg then
    terminateAccess s (s.wave core (p.lanes.headD default).slot).team 5 0x0207 0 false
  else
    let ds := xs.flatMap fun x => (Wr.w32 x.d (readHeld s core x.src x.reg)).dests x.r x.writer
    onPend s core p.id fun p => { p with samples := p.samples.filter fun x => !which x, dests := p.dests ++ ds }

/-- Before a wave retires, the samples of it that are still to come are taken (R95). -/
def sampleWave (s : State) (core slot : Nat) : State :=
  forEach ((s.core core).pends.filter fun p => p.samples.any fun x => x.src.slot == slot) s fun s p =>
    takeSamples s core p fun x => x.src.slot == slot

/-- Every destination is written, and the flags it marks lose it (R20, R23). -/
def finishPend (s : State) (core : Nat) (p : Pend) : State :=
  let s := forEach p.dests s fun s d => d.land s core
  let s := forEach p.marks s fun s m => s.onLane core m.1 fun l => l.unmark m.2
  let s := s.onCore core fun c => { c with pends := c.pends.filter fun q => q.id != p.id }
  wakeFlags s core (p.marks.map (·.1)).eraseDups

/-- LONG_LATENCY_COMPLETE (R20, R95): an outstanding word samples its source lane, or writes its results. -/
def execLongLatencyComplete (core id : Nat) (sample : Bool) (s : State) : Host.Outcome State Fault Refusal :=
  match (s.core core).pends.find? fun p => p.id == id with
  | none => .next s
  | some p =>
    if sample then .next (takeSamples s core p fun _ => true)
    else if p.samples.isEmpty && p.loads.isEmpty && p.held == 0 then .next (finishPend s core p)
    else .next s

/-! ## Fills -/

/-- A load whose bytes have all arrived becomes destinations. -/
def settlePend (p : Pend) : Pend :=
  let full (w : LoadWait) : Bool := w.bytes.all fun b => b.2.isSome
  { p with
    loads := p.loads.filter fun w => !full w
    dests := p.dests ++ (p.loads.filter full).flatMap fun w => loadDests w.r w.writer w.shape (w.bytes.filterMap (·.2)) }

/-- The teams whose loads have taken poison (R192). -/
def poisonedTeams (s : State) (core : Nat) : List Nat :=
  ((s.core core).pends.flatMap fun p => (p.loads.filter (·.poison)).map fun w => (s.wave core w.r.slot).team).eraseDups

/-- The line's bytes reach the cache, the loads and the words that wait for them. -/
def deliverLine (s : State) (core asid line : Nat) (bs : List Byte) (bad : Bool) : State :=
  let s := s.onCore core fun c => { c with
    lines := c.lines.map fun l => if l.asid == asid && l.line == line then l.fill bs bad else l
    pends := c.pends.map fun p => { p with loads := p.loads.map (feedBytes asid line bs bad fun _ => true) } }
  let s := forEach (poisonedTeams s core) s fun s t => terminateAccess s t 1 0x0207 (line * 128) false
  s.onCore core fun c => { c with pends := c.pends.map settlePend }

/-- A line that no byte of it is valid in is not in the cache. -/
def dropEmpty (s : State) (core asid line : Nat) : State :=
  match findLine (s.core core) asid line with
  | some l => if l.valid.isEmpty then s.onCore core fun c => delLine c asid line else s
  | none => s

/-- The lanes that an access stands for: its own, or for a uniform access those of its word (R196). -/
def accLanes (s : State) (core : Nat) (a : Access) : List LaneRef :=
  match a.shape with
  | .scalars _ => match (s.core core).pends.find? fun p => p.id == a.pend with
    | some p => p.lanes
    | none => [a.r]
  | _ => [a.r]

def maskOf (rs : List LaneRef) : Nat := (laneSet (rs.map (·.lane))).toNat

/-- Lanes that are parked are blocked until their replay (R128, R179), wherever they stand: they leave their group. -/
def park (s : State) (core : Nat) (accs : List Access) (lanes : List LaneRef) (asid line id : Nat) : State :=
  let (bid, s) := s.freshId core
  let w : Wait := { bid := bid, kind := .parked accs asid line (some id), d := .nul, pc := .nul, lanes := lanes, since := s.now }
  s.onCore core fun c => { c with
    waits := c.waits ++ [w]
    waves := c.waves.map fun e => (e.1, { e.2 with group := e.2.group.filter fun i => !lanes.contains ⟨e.1, i⟩ })
    groups := c.groups.map fun g => { g with group := g.group.filter fun r => !lanes.contains r } }

/-- A fill that meets an absent page parks the lanes that need the line, wave by wave, each with a docket entry (R179,
R337). -/
def parkWaiters (s : State) (core : Nat) (m : Mse) : State :=
  let line := m.line
  forEach (m.waiters.map (·.r.slot)).eraseDups s fun s slot =>
    let accs := m.waiters.filter fun a => a.r.slot == slot
    let lanes := (accs.flatMap (accLanes s core)).eraseDups.filter fun r => !(s.lane core r).exited
    if lanes.isEmpty then
      -- the threads have exited: no one waits for the load
      s.onCore core fun c => { c with pends := c.pends.map fun p =>
        { p with loads := p.loads.filter fun w => !(w.r.slot == slot && w.asid == m.asid && w.bytes.any fun b => b.1 / 128 == line && b.2.isNone) } }
    else
      let t := (s.wave core slot).team
      let (id, s) := dockTeam s t { teamEntry s t with kind := 1, source := 1, addr := line * 128, who := maskOf lanes }
      park s core accs lanes m.asid line id

/-- The fill of a line that is being written back from a departing way follows that write-back (R182). -/
def awaitsWriteBack (c : Core) (m : Mse) : Bool :=
  match findLine c m.asid m.line with
  | some l => (c.carve.getD []).contains l.way && !l.dirty.isEmpty
  | none => false

/-- The fill of a line at its completion: it translates, reads the L2 of the core's die, or faults (R173, R179, R338). -/
def completeFill (s : State) (core : Nat) (m : Mse) : State :=
  if awaitsWriteBack (s.core core) m then s
  else
  let die := dieOf core
  let line := m.line
  let (t, s) := translateFor s (s.wave core m.slot).team die m.asid (line * 128) false
  let fatal (s : State) (code : Nat) : State :=
    let teams := (m.waiters.map fun a => (s.wave core a.r.slot).team).eraseDups
    forEach teams (dropEmpty (releaseMse s core m.id) core m.asid line) fun s t =>
      if s.live t then terminateAccess s t 1 code (line * 128) false else s
  match t with
  | .hbm pa e =>
    let (bs, bad, s) := readLine s die e pa
    releaseMse (deliverLine s core m.asid line bs bad) core m.id
  | .absent => dropEmpty (parkWaiters (releaseMse s core m.id) core m) core m.asid line
  | .peer _ | .host _ _ => fatal s 0x0204
  | .bad code => fatal s code

/-- WINDOW_FILL_COMPLETE (R173): the entry's fill completes. -/
def execWindowFillComplete (core mse : Nat) (s : State) : Host.Outcome State Fault Refusal :=
  match (s.core core).mses.find? fun m => m.id == mse with
  | none => .next s
  | some m => .next (completeFill s core m)

/-! ## Words that come behind loads -/

/-- A load of a lane whose value is not fixed yet (R26). -/
def inFlight (s : State) (core : Nat) (r : LaneRef) : Bool :=
  (s.core core).pends.any fun p => p.loads.any fun w => w.r == r && w.bytes.any fun b => b.2.isNone

/-- The loads of a team take their values; a fill that finds its page absent parks its lanes now (R26, R179, R212). -/
def settleLoads (s : State) (core t : Nat) : State :=
  let s := fixTeamLoads s core t
  let wanted (m : Mse) : Bool := (s.core core).pends.any fun p => p.loads.any fun w =>
    (s.wave core w.r.slot).team == t && w.wants m.asid m.line
  forEach ((s.core core).mses.filter wanted) s fun s m => completeFill s core m

/-- A word whose events come behind every earlier load of its lanes (R26, R212): the state in which their values are fixed, or,
while one waits, the state in which the word has not issued, its lanes stand where they stood, and what it popped stays theirs. -/
def Env.settled (e : Env) (opc : Nat) (f : Form) : Except State State :=
  let s := settleLoads e.s e.core e.team
  if s.live e.team && !(e.g.refs.any (inFlight s e.core)) then .ok s
  else .error (keepPop { e with s := s } opc f)

/-! ## Replays -/

/-- The lanes of a parked record go on. -/
def unpark (s : State) (core : Nat) (w : Wait) : State := dropWait s core w.bid

/-- A parked access is made again (R179, R337): an absent page parks it with a new entry. -/
def replay (s : State) (core : Nat) (w : Wait) : State :=
  match w.kind with
  | .parked accs asid line _ =>
    let die := dieOf core
    let team := (s.wave core w.slot).team
    let (t, s) := translateFor s team die asid (line * 128) false
    match t with
    | .hbm pa e =>
      let (bs, bad, s) := readLine s die e pa
      unpark (deliverLine s core asid line bs bad) core w
    | .absent =>
      let (id, s) := dockTeam s team { teamEntry s team with kind := 1, source := 1, addr := line * 128, who := maskOf w.lanes }
      setWait s core w.bid (.parked accs asid line (some id))
    | .peer _ | .host _ _ => terminateAccess s team 1 0x0204 (line * 128) false
    | .bad code => terminateAccess s team 1 code (line * 128) false
  | _ => s

/-- PARKED_REPLAY (R179): once resumed (R337), the lanes replay their own access. -/
def execParkedReplay (core slot bid : Nat) (s : State) : Host.Outcome State Fault Refusal :=
  match (s.core core).findWait bid with
  | some w => match w.kind with
    | .parked _ _ _ none => if w.slot == slot then .next (replay s core w) else .next s
    | _ => .next s
  | none => .next s

/-! ## Claims -/

/-- A lane of a claim wait may perform: no claim holds any of its accesses (R194). Those that a matrix operation took behind the
word, at its append or for a follow-on at the post, do not: the operation waits for the word (R279, R285). -/
def unclaimed (s : State) (core t bid : Nat) (accs : List Access) (r : LaneRef) : Bool :=
  let behind (k : Claim) : Bool := k.matrix && bid < k.stamp
  (accs.filter fun a => a.r == r).all fun a => !(s.core core).claims.any fun k => !behind k && k.holds t a

/-- Accesses of a claim wait that have been performed leave it, with their lanes; the others wait on (R194). -/
def leaveClaim (s : State) (core : Nat) (w : Wait) (accs rest : List Access) : State :=
  let s := forEach accs s fun s a => onPend s core a.pend fun p => { p with held := p.held - 1 }
  if rest.isEmpty then finishWait s core w
  else
    let go := (accs.map (·.r)).eraseDups
    let s := s.onCore core fun c => { c with waits := c.waits.map fun x =>
      if x.bid == w.bid then { x with kind := .claim rest, lanes := x.lanes.filter fun r => !go.contains r } else x }
    forEach go s fun s r => s.onLane core r Lane.next

/-- The lanes of a word that no claim holds any more perform their own accesses, in slot order, as one access (R194): while a
claiming command is suspended its lanes stay parked. -/
def endClaimWait (s : State) (core : Nat) (w : Wait) (all : List Access) : State :=
  let t := (s.wave core w.slot).team
  let asid := teamAsid s t
  let accs := all.filter fun a => unclaimed s core t w.bid all a.r
  if accs.isEmpty then s
  else match performLane s core t asid accs with
    | .rejected s => s
    | .poison src a => terminateAccess s t src 0x0207 a false
    | .ok s =>
      if !s.live t then s
      else leaveClaim s core w accs (all.filter fun a => !accs.contains a)

/-- CLAIM_WAIT_END (R194): nothing holds the access any more, and its lanes perform it alone. -/
def execClaimWaitEnd (core slot bid : Nat) (s : State) : Host.Outcome State Fault Refusal :=
  match (s.core core).findWait bid with
  | some w => match w.kind with
    | .claim accs => if w.slot == slot then .next (endClaimWait s core w accs) else .next s
    | .record a n =>
      if w.slot == slot && !recordClaimed s core (s.wave core slot).team a n then .next (wakeWait s core w) else .next s
    | _ => .next s
  | none => .next s

end Sys2Proof.Machine
end

