-- ==== Sys2Proof/Machine/Post.lean ====
section
/-! DEFINITION. Posting, queue fences, status and cancellation (R255 to R263). -/

namespace Sys2Proof.Machine

/-! ## Slips -/

def teamSlip (s : State) (t k : Nat) : Slip := tgetD (s.team t).slips k .clear

def setSlip (s : State) (t k : Nat) (x : Slip) : State :=
  s.onTeam t fun y => { y with slips := if x == .clear then tdel y.slips k else tset y.slips k x }

/-- A completion sets a slip, at a scope (R213, R252). -/
def completeSlip (s : State) (t : Nat) (k : Option Nat) (scope : Nat) : State :=
  match k with
  | some k => (setSlip s t k .set).onTeam t fun y => { y with slipScope := tset y.slipScope k scope }
  | none => s

/-- The slip that a command sets: the selector's, or the record's (R258). -/
def slipSelect (b : W32) (slip : Nat) (en : Bool) : Nat × Bool :=
  if b.getLsbD 7 then ((b.extractLsb' 0 6).toNat, true) else (slip, en)

/-- A record with the slip of R258 written into SLIP and SLIP_EN (R344). -/
def withSlip (d0 : W64) (slip : Nat) (en : Bool) : W64 :=
  (d0 &&& ~~~(0x7F00#64)) ||| BitVec.ofNat 64 (slip % 64 * 2 ^ 8 + (if en then 2 ^ 14 else 0))

/-! ## Tickets and queues -/

/-- The next ticket number of a queue (R259). -/
def nextSeq (s : State) (core cls : Nat) : Nat × State :=
  let n := tgetD (s.core core).seq cls 0
  (n, s.onCore core fun c => { c with seq := tset c.seq cls ((n + 1) % 65536) })

def Cmd.ticket (c : Cmd) : W32 := BitVec.ofNat 32 (c.seq % 65536 + c.cls * 2 ^ 16 + c.tslot * 2 ^ 18)

def queueOf (s : State) (core cls : Nat) : List Nat := tgetD (s.core core).queues cls []

/-- Kind of a CFENCE in its queue: it acts as a FENCE command without a record (R217, R261). No record
has this KIND, which has 8 bits. -/
def cfenceKind : Nat := 2 ^ 8 + 27

/-- The outstanding command that a ticket names for a team: the most recent (R259). -/
def ticketCmd (s : State) (core team : Nat) (t : W32) : Option Nat :=
  let x := t.toNat
  ((s.cmds.filter fun e => e.2.core == core && e.2.team == team && e.2.cls == x / 2 ^ 16 % 4 && e.2.seq == x % 65536 &&
      e.2.tslot == x / 2 ^ 18 % 16 && x < 2 ^ 22 && e.2.state != .blocked && e.2.kind != cfenceKind).getLast?).map (·.1)

/-- Bytes that a class-0 command takes from the contract buckets (R352). -/
def Ccr.contractBytes (r : Ccr) : Nat := if r.total == 0 then 64 else r.total * fmtBits r.dstFmt / 8

/-- A new command of a team. -/
def addCmd (s : State) (c : Cmd) : Nat × State :=
  (s.nextCmd, { s with nextCmd := s.nextCmd + 1, cmds := tset s.cmds s.nextCmd c })

/-- The words blocked for a queue, in the order in which they blocked (R257). -/
def blockedFor (s : State) (core cls : Nat) : List Wait :=
  (s.core core).waits.filter fun w => match w.kind with | .post _ c => c == cls | _ => false

/-- A queue has room, and the core enough claim entries, for a command (R257). -/
def roomFor (s : State) (core cls k : Nat) : Bool :=
  (queueOf s core cls).length < 32 && ((s.cmd k).kind == cfenceKind || claimsFit s (s.cmd k))

/-- The append of a command to its queue: its claims, its slip PENDING, its contract (R257, R352). -/
def appendCmd (s : State) (k : Nat) : State :=
  let c := s.cmd k
  let s := s.onCmd k fun c => { c with state := .queued }
  let s := if c.kind == cfenceKind then s else takeClaims s k
  let s := match c.slip with | some n => setSlip s c.team n .pending | none => s
  let s := s.onCore c.core fun x => { x with queues := tset x.queues c.cls (tgetD x.queues c.cls [] ++ [k]) }
  if c.cls == 0 && c.kind != cfenceKind then contractPost s c.team c.ccr.contractBytes else s

/-! ## CPOST -/

/-- A scratchpad address operand of n bytes, aligned to k: the cause it raises (R193, R257, R343). -/
def scratchOperand (p : Packet) (a n k : Nat) : Option Nat :=
  if a + n > p.scratch then some 0x03 else if a % k != 0 then some 0x04 else none

/-- A read of the scratchpad finds poison (R192). -/
def scratchBad (s : State) (t a n : Nat) : Bool := (linesOf a n).any (s.team t).scratchPoison.contains

def readDws (s : State) (t a n : Nat) : List W64 := (List.range n).map fun i => memDw (s.team t).scratch (a + 8 * i)

/-- Does a record step the posting lane's generator (R41, R257, R282)? -/
def Ccr.steps (r : Ccr) : Bool := r.round == 2 || (r.follow && r.mcmd.op == 3 && r.mcmd.round == 2)

/-- A blocked post or CFENCE appends: its ticket, or the outcome of a CRESUME, is written and its lanes go on (R257,
R259, R344). -/
def appendBlocked (s : State) (core : Nat) (w : Wait) (k : Nat) : State :=
  let tk := (s.cmd k).ticket
  let first := w.lanes.headD ⟨0, 0⟩
  let s := appendCmd s k
  let wr : Wr := match w.d with | .p _ => .pr w.d true | _ => .w32 w.d tk
  let ds := w.lanes.flatMap fun r => wr.dests r (r == first)
  finishWait (forEach ds s fun s d => d.write s core) core w

/-- The first blocked word of a queue may append now. -/
def canAppend (s : State) (core cls : Nat) : Bool :=
  match blockedFor s core cls with
  | w :: _ => match w.kind with | .post k _ => roomFor s core cls k | _ => false
  | [] => false

/-- Blocked words of the classes below one append as far as there is room, before a post of this class takes claim entries
(R257). -/
def appendLower (s : State) (core cls : Nat) : State :=
  forEach (List.range cls) s fun s c => forEach (blockedFor s core c) s fun s w =>
    match w.kind with
    | .post k _ => if ((blockedFor s core c).head?.map (·.bid)) == some w.bid && roomFor s core c k then appendBlocked s core w k else s
    | _ => s

/-- CPOST (R257). -/
def postRecord (f : Form) (e : Env) : Res :=
  let l := e.first
  let t := e.team
  let a := (e.addr l f).toNat
  let cls := (f.mod.extractLsb' 0 2).toNat
  let lanes := e.act.map (·.2)
  match scratchOperand e.pkt a 256 256 with
  | some c => .trap c [l.2] fun _ => BitVec.ofNat 32 a
  | none =>
    if recordClaimed e.s e.core t a 256 then .done (blockRecord e 0xB0 f a 256) lanes
    else if scratchBad e.s t a 256 then .stop (terminateAccess e.s t 5 0x0207 a false)
    else
      let dws0 := readDws e.s t a 32
      let r0 := ccrOf dws0
      let (slip, en) := slipSelect (e.src l f.b .int) r0.slip r0.slipEn
      let dws := withSlip (dws0.headD 0) slip en :: dws0.drop 1
      let r := ccrOf dws
      let named := en && slip < e.pkt.slips
      if named && teamSlip e.s t slip == .pending then .trap 0x08 [l.2] fun _ => 0
      else match e.settled 0xB0 f with
      | .error s => .stop s
      | .ok s =>
        -- loads in flight have come before the events of the command (R212)
        let (seq, s) := nextSeq s e.core cls
        let c : Cmd := { (default : Cmd) with
          kind := r.kind, dws := dws, ccrAddr := a, team := t, core := e.core, cls := cls, seq := seq
          tslot := (s.team t).tslot, slip := if named then some slip else none, state := .blocked
          mon := (s.lane e.core l.2).mon }
        let ws : LaneAt → List Wr := fun _ => [.w32 f.d c.ticket]
        match r.check e.pkt (s.team t) with
        | some code =>
          let (_, s) := addCmd s { c with state := .malformed, status := 1, fault := code, armedAt := s.now }
          let s := if named then setSlip s t slip .pending else s
          .done (e.results 0xB0 f s ws) []
        | none =>
          let s := if r.steps then s.onLane e.core l.2 fun x => { x with g := stepG x.g } else s
          let g := (s.lane e.core l.2).g
          let (k, s) := addCmd (appendLower s e.core cls) { c with gen := g, postGen := g }
          if (blockedFor s e.core cls).isEmpty && roomFor s e.core cls k then .done (e.results 0xB0 f (appendCmd s k) ws) []
          else .done (blockWord (keepOutcome e 0xB0 f s) e.core lanes (.post k cls) f.d .nul) lanes

/-- CPOST (R257). -/
def execCpost (f : Form) (s : State) : Host.Outcome State Fault Refusal := runWord 0xB0 f s (postRecord f)

/-- CPOST_APPEND (R257): the first blocked word of a queue appends as soon as there is room; the lowest class first. It appends as
the words of a cycle do, before the completions of that cycle set their slips (R256). -/
def execCpostAppend (core cls : Nat) (s : State) : Host.Outcome State Fault Refusal :=
  match blockedFor s core cls with
  | w :: _ => match w.kind with
    | .post k _ =>
      if s.firstHalf && roomFor s core cls k && !((List.range cls).any (canAppend s core)) then .next (appendBlocked s core w k) else .next s
    | _ => .next s
  | [] => .next s

/-! ## CFENCE -/

/-- CFENCE (R261): MOD[3:0] the scope, MOD[5:4] the class. -/
def execCfence (f : Form) (s : State) : Host.Outcome State Fault Refusal :=
  runWord 0xB1 f s fun e =>
    let l := e.first
    let t := e.team
    let cls := (f.mod.extractLsb' 4 2).toNat
    let b := e.src l f.a .int
    let slip := (b.extractLsb' 0 6).toNat
    let named := b.getLsbD 7 && slip < e.pkt.slips
    if named && teamSlip e.s t slip == .pending then .trap 0x08 [l.2] fun _ => 0
    else match e.settled 0xB1 f with
    | .error s => .stop s
    | .ok s =>
      let (seq, s) := nextSeq s e.core cls
      let d0 := BitVec.ofNat 64 (11 + 2 * 2 ^ 24 + (f.mod.extractLsb' 0 4).toNat * 2 ^ 26)
      let (k, s) := addCmd s { (default : Cmd) with
        kind := cfenceKind, dws := [d0], team := t, core := e.core, cls := cls, seq := seq, tslot := (s.team t).tslot
        slip := if named then some slip else none, state := .blocked, mon := (s.lane e.core l.2).mon }
      if (blockedFor s e.core cls).isEmpty && roomFor s e.core cls k then .done (appendCmd s k) []
      else
        let lanes := e.act.map (·.2)
        .done (blockWord s e.core lanes (.post k cls) .nul .nul) lanes

/-! ## CSTAT -/

/-- The STATE code of a command (R262). A command whose elements are done has its follow-on to wait for, or is RUNNING. -/
def Cmd.stat (c : Cmd) : Nat :=
  match c.state with
  | .queued => 1
  | .running | .malformed => 2
  | .suspended => 3
  | .armed => 4
  | .following => if c.follow.isSome then 5 else 2
  | .recording => 6
  | _ => 0

/-- What CSTAT reports (R262). -/
def statWord (s : State) (core team : Nat) (t : W32) : W32 :=
  match ticketCmd s core team t with
  | none => 0
  | some k =>
    let c := s.cmd k
    let pos := if c.state == .queued then ((queueOf s core c.cls).takeWhile (· != k)).length else 0
    BitVec.ofNat 32 (c.stat + pos * 2 ^ 8)

/-- CSTAT (R262). -/
def execCstat (f : Form) (s : State) : Host.Outcome State Fault Refusal :=
  laneWord 0xB2 f s fun e l => [.w32 f.d (statWord e.s e.core e.team (e.src l f.a .int))]

/-! ## CCANCEL -/

/-- Elements begun: performed, or waiting for a peer (R263). -/
def Cmd.begun (c : Cmd) : Nat := (c.ahead ++ c.unacked).foldl (fun m n => max m (n + 1)) c.els

/-- The command leaves its queue. -/
def unqueue (s : State) (k : Nat) : State :=
  let c := s.cmd k
  s.onCore c.core fun x => { x with queues := x.queues.map fun q => (q.1, q.2.filter (· != k)) }

/-- A command ends early with a status (R252 step 1, R254). -/
def endEarly (s : State) (k status : Nat) : State := s.onCmd k fun c => { c with state := .following, status := status }

/-- A command that is cancelled while it is QUEUED: ELEMENTS 0 and the other counts with it, and CYCLES 0 (R253, R263). DEDUCED: one
that a restore has queued again is QUEUED too (log 142). -/
def Cmd.uncounted (c : Cmd) : Cmd :=
  { c with els := 0, ahead := [], bytes := 0, padded := 0, sibfail := 0, started := 0, cycles0 := 0 }

/-- The effect of a cancel (R263), and what it answers. -/
def cancelCmd (s : State) (k : Nat) : Bool × State :=
  let c := s.cmd k
  match c.state with
  | .queued => if c.kind == 10 && c.collSeq.isSome then (false, s) else (true, (endEarly (unqueue s k) k 5).onCmd k Cmd.uncounted)
  | .suspended => if c.kind == 10 && c.collSeq.isSome then (false, s) else (true, endEarly s k 5)
  | .armed => (true, (endEarly s k 5).onCmd k fun c => { c with els := 0, bytes := 0, value := 0 })
  | .running =>
    let n := c.ccr.total
    if c.kind == 10 && c.collSeq.isSome then (false, s)
    else if c.kind == 11 then (false, s)
    -- a LAUNCH that is RUNNING has not offered its packet: it completes at the offer
    else if c.kind == 7 || c.kind == 12 then (true, endEarly s k 5)
    else if n ≤ c.begun || c.limit.isSome then (false, s)
    else
      let b := c.begun
      let s := s.onCmd k fun c => { c with limit := some b }
      (true, if b == c.els && c.unacked.isEmpty then endEarly s k 5 else s)
  | _ => (false, s)

/-- CCANCEL (R263). -/
def execCcancel (f : Form) (s : State) : Host.Outcome State Fault Refusal :=
  runWord 0xB3 f s fun e =>
    let (d, s) := match ticketCmd e.s e.core e.team (e.src e.first f.a .int) with
      | some k => cancelCmd e.s k
      | none => (false, e.s)
    .done (e.results 0xB3 f s fun _ => [.pr f.d d]) []

end Sys2Proof.Machine
end

