-- ==== Sys2Proof/Machine/Sibling.lean ====
section
/-! DEFINITION. Reductions at a home (R50, R52, R53, R238) and sibling cells (R295 to R311): tables, version vectors, and what
the cell controller of the home does. -/

namespace Sys2Proof.Machine

/-! ## Reductions -/

/-- A code of w bits read as a two's complement number. -/
def signedCode (w x : Nat) : Int := if x ≥ 2 ^ (w - 1) then (x : Int) - (2 ^ w : Nat) else x

/-- One reduction of an arriving element into an element of a format: 0 write, 1 add, 2 min, 3 max, 4 and, 5 or, 6 xor, 7
exch (R53, R238, R243). -/
def redCode (op fmt old new : Nat) : Nat :=
  let w := fmtBits fmt
  match op with
  | 1 => match nfOfCcr fmt with
    | .fp F => addRne F old new
    | _ => (old + new) % 2 ^ w
  | 2 | 3 =>
    let isMax := op == 3
    match nfOfCcr fmt with
    | .fp F => if (F.decode new).isNan then old else if (F.decode old).isNan then new else minMaxCode F isMax old new
    | .int _ sg =>
      let v (x : Nat) : Int := if sg then signedCode w x else x
      if isMax then (if v old ≥ v new then old else new) else (if v old ≤ v new then old else new)
    | _ => new
  | 4 => old &&& new
  | 5 => old ||| new
  | 6 => old ^^^ new
  | _ => new

/-! ## Version vectors -/

/-- x is after y (R299). -/
def after (x y : W16) : Bool := let d := (x - y).toNat; 1 ≤ d && d ≤ 32767
/-- x equals or is after y (R299). -/
def atLeast (x y : W16) : Bool := (x - y).toNat ≤ 32767

/-- smax (R299). -/
def smax (x y : W16) : W16 :=
  let d := (y - x).toNat
  if d == 32768 then (if x.toNat < y.toNat then y else x) else if after y x then y else x

def vecAt (v : List W16) (k : Nat) : W16 := v.getD k 0
def vecMap (f : Nat → W16) : List W16 := (List.range 16).map f
def zeroVec : List W16 := List.replicate 16 0

/-- U covers V (R299). -/
def covers (u v : List W16) : Bool := (List.range 16).all fun k => atLeast (vecAt u k) (vecAt v k)

def vecMax (u v : List W16) : List W16 := vecMap fun k => smax (vecAt u k) (vecAt v k)

/-- Entries as bytes (R298). -/
def vecBytes (v : List W16) : List Byte := (List.range 16).flatMap fun k => leBytes 2 (vecAt v k).toNat
def vecOfBytes (bs : List Byte) : List W16 := vecMap fun k => BitVec.ofNat 16 (leNat ((bs.drop (2 * k)).take 2))

/-! ## Tables -/

/-- The table record that a sibling page's leaf names, in the array of the context that owns the page table (R295). -/
def tableOf (s : State) (asid : Nat) (e : W64) : Nat :=
  bits (rcbDw s ((tget s.roots asid).getD (0, 0)).2 14) 0 40 + 64 * pteSibIdx e

def tabBase (s : State) (tab : Nat) : Nat := bits (memDw s.hbm tab) 0 56
def tabLen (s : State) (tab : Nat) : Nat := bits (memDw s.hbm (tab + 8)) 0 56
def tabCell (s : State) (tab : Nat) : Nat := 32 * 2 ^ bits (memDw s.hbm (tab + 16)) 0 2
def tabEpoch (s : State) (tab : Nat) : W16 := BitVec.ofNat 16 (bits (memDw s.hbm (tab + 16)) 16 16)

/-- The actor slot of a (package, die): the lowest valid entry of the map that names it (R295, R296). -/
def actorSlot (s : State) (tab pkg die : Nat) : Option Nat :=
  (List.range 16).find? fun k =>
    let e := bits (memDw s.hbm (tab + 24 + 8 * (k / 4))) (16 * (k % 4)) 16
    e / 2 ^ 15 == 1 && e % 256 == pkg && e / 256 % 8 == die

/-- An address is the first byte of a cell of the table (R295, R296). -/
def cellStart (s : State) (tab va : Nat) : Bool :=
  tabBase s tab ≤ va && va + tabCell s tab ≤ tabBase s tab + tabLen s tab && (va - tabBase s tab) % tabCell s tab == 0

/-! ## Cells -/

def findAnnex (s : State) (die pa : Nat) : Option Annex := (s.die die).annex.find? fun a => a.pa == pa

/-- The siblings of a cell in sibling order (R297): the page holds the value of sibling 0. -/
def sibsOf (s : State) (die tab pa : Nat) : List Sib :=
  let v := memReads s.hbm pa (tabCell s tab)
  match (findAnnex s die pa).map (·.sibs) with
  | some (x :: xs) => { x with value := v } :: xs
  | _ => [{ value := v, vec := zeroVec, writer := none }]

def Sib.key (x : Sib) : Nat := match x.writer with | none => 0 | some k => k + 1

/-- A sibling in its place in sibling order, behind those of its writer (R297). -/
def insertSib (x : Sib) : List Sib → List Sib
  | [] => [x]
  | y :: ys => if x.key < y.key then x :: y :: ys else y :: insertSib x ys

/-- The cell takes siblings: sibling 0's value in the page, of which no L2 holds a line, the rest in its annex record (R297). -/
def putSibs (s : State) (die tab pa : Nat) (xs : List Sib) : State :=
  let s := match xs with | x :: _ => { homeWrite s pa x.value with l2Dirty := s.l2Dirty } | [] => s
  s.onDie die fun d => { d with annex := { pa := pa, table := tab, sibs := xs } :: d.annex.filter fun a => a.pa != pa }

/-- Bytes of an annex record of a table (R304). -/
def annexSize (s : State) (tab : Nat) : Nat := (192 + 3 * tabCell s tab + 127) / 128 * 128

/-- The annex of a die has room for one more record: it is the top 2 GiB of the die's HBM (R304, R391). -/
def annexRoom (s : State) (die tab : Nat) : Bool :=
  ((s.die die).annex.foldl (fun n a => n + annexSize s a.table) 0) + annexSize s tab ≤ 2 ^ 31

/-- The serial maximum of entry k over siblings (R299, R300). -/
def sibMax (xs : List Sib) (k : Nat) : W16 :=
  match xs with
  | [] => 0
  | x :: r => r.foldl (fun m y => smax m (vecAt y.vec k)) (vecAt x.vec k)

/-- R300: the context is stale at the cell. -/
def staleAt (xs : List Sib) (epoch ctxEpoch : W16) (vv : List W16) : Bool :=
  epoch != ctxEpoch || (List.range 16).any fun k => !atLeast (sibMax xs k) (vecAt vv k)

/-- What a sibling write comes to (R301). -/
inductive Applied where
  | stored (vec : List W16) (s : State)
  | sibFull
  | annexFull
  deriving DecidableEq, Repr

/-- One sibling write at its home, as one event (R301). -/
def applySib (s : State) (die tab pa : Nat) (value : List Byte) (ctxEpoch : W16) (vv : List W16) (actor : Nat) : Applied :=
  let xs := sibsOf s die tab pa
  let stale := staleAt xs (tabEpoch s tab) ctxEpoch vv
  let m0 := sibMax xs actor
  let m := if stale then m0 else smax m0 (vecAt vv actor)
  let keep := xs.filter fun x => stale || !covers vv x.vec
  if keep.length ≥ 4 then .sibFull
  else if (findAnnex s die pa).isNone && !annexRoom s die tab then .annexFull
  else
    let base := if stale then zeroVec else vv
    let nv := vecMap fun k => if k == actor then m + 1 else vecAt base k
    .stored nv (putSibs s die tab pa (insertSib { value := value, vec := nv, writer := some actor } keep))

/-- The entry-wise smax of the siblings' vectors (R305, R307). -/
def sibVec (xs : List Sib) : List W16 := vecMap (sibMax xs)

/-- The context record of a gathered cell (R305); none for a padded row. -/
def contextBytes (xs : List Sib) (epoch : W16) : List Byte :=
  let w (i : Nat) : Byte := match xs[i]? with
    | some x => match x.writer with | some k => BitVec.ofNat 8 k | none => 0xFF
    | none => 0xFF
  vecBytes (if xs.isEmpty then zeroVec else sibVec xs) ++ leBytes 2 epoch.toNat ++ leBytes 1 xs.length ++ [0] ++
    [w 0, w 1, w 2, w 3] ++ List.replicate 24 0

/-- Element i of a value as a code of w bits. -/
def valueElem (w : Nat) (v : List Byte) (i : Nat) : Nat := leNat ((v.drop (i * (w / 8))).take (w / 8))

/-- Values combined element by element (R307). -/
def combineValues (op fmt : Nat) (a b : List Byte) : List Byte :=
  let w := fmtBits fmt
  (List.range (a.length / (w / 8))).flatMap fun i => leBytes (w / 8) (redCode op fmt (valueElem w a i) (valueElem w b i))

/-- The one sibling that a reconcile leaves (R307): REDOP 1 SUM, 2 MIN, 3 MAX, 8 FIRST, 9 LAST by actor. -/
def reconciled (op fmt : Nat) (xs : List Sib) : Sib :=
  let first := xs.headD default
  let last := xs.getLastD default
  if op == 8 then { first with vec := sibVec xs }
  else if op == 9 then { last with vec := sibVec xs }
  else { value := (xs.drop 1).foldl (fun v x => combineValues op fmt v x.value) first.value, vec := sibVec xs, writer := none }

/-- RECON of one cell, as one event at its home; a cell with one sibling is left unchanged (R307, R308). -/
def reconCell (s : State) (die tab pa op fmt : Nat) : State :=
  let xs := sibsOf s die tab pa
  if xs.length ≤ 1 then s else putSibs s die tab pa [reconciled op fmt xs]

/-! ## Epochs -/

/-- The sweep of a die (R309): cells of one sibling return to the state without a record. -/
def sweepDie (tab : Nat) (d : Die) : Die :=
  { d with annex := d.annex.filter fun a => !(a.table == tab && a.sibs.length ≤ 1) }

/-- The advance of a table's EPOCH with the sweeps of every home die, and the new EPOCH (R309, R310). -/
def advanceEpoch (s : State) (tab : Nat) : W16 × State :=
  let n := tabEpoch s tab + 1
  let s := homeWrite s (tab + 18) (leBytes 2 n.toNat)
  (n, { s with dies := s.dies.map fun e => (e.1, sweepDie tab e.2) })

end Sys2Proof.Machine
end

