-- ==== Sys2Proof/Machine/Engine.lean ====
section
/-! DEFINITION. The copy engines: what reaches memory for an element (R208, R211, R336, R362), the elements of TCOPY, GATHER,
SCATTER, CONV, FILL and ATOM (R234 to R243, R303, R305), and what the engine counts (R233, R253). -/

namespace Sys2Proof.Machine

/-! ## Access -/

/-- What the engine's work on an element comes to. -/
inductive Perf where
  | ok (s : State)
  /-- not yet: it waits for a peer package or a latch claim -/
  | wait (s : State)
  /-- a page is not present (R336) -/
  | absent (va : Nat) (write : Bool) (s : State)
  /-- a fault that cannot be resolved (R335) -/
  | fatal (code va : Nat) (write : Bool) (s : State)

/-- A value on the way, or the end of the attempt. -/
inductive Got where
  | ok (x : Nat) (s : State)
  | stop (p : Perf)

def Cmd.asid (s : State) (c : Cmd) : Nat := teamAsid s c.team
def Cmd.die (c : Cmd) : Nat := dieOf c.core

/-- A translation that the command has passed, within the time of its lease (R336, R350). -/
def Cmd.leased (c : Cmd) (now va : Nat) : Option Lease := c.passed.find? fun l => l.vpage == va >>> 16 && now ≤ l.at_ + leaseTime

/-- A translation for a command: one that it has passed stays passed while its lease lasts (R336, R350). -/
def translateCmd (s : State) (k va : Nat) (write : Bool) : Trans × State :=
  let c := s.cmd k
  match c.leased s.now va with
  | some l => (leafTrans s (c.asid s) va write l.leaf l.level, s)
  | none => translateFor s c.team c.die (c.asid s) va write

/-- Source reads and landings of a core's memories follow the accesses that its words make in the same cycle (R210). -/
def engineTurn (s : State) (r : Ccr) : Bool := (r.srcSp == 0 && r.dstSp == 0) || s.lateHalf

/-- The key under which the answer to a write of an element is kept; that of a read is the element itself. -/
def writeKey (n : Nat) : Nat := 2 ^ 42 + n

/-- The key under which the scale read for an element of an MX source is kept; that of its code is the element itself. -/
def scaleKey (n : Nat) : Nat := 2 ^ 43 + n

/-- A request leaves over its port; the bytes of a write stay until the peer reads them (R361, R362). -/
def State.request (s : State) (r : PeerOut) : State :=
  { s with peerOut := s.peerOut ++ [r] }.send r.port 0 (.peer { r with data := [] })

/-- A request to a peer package leaves once, over the port of its line (R361, R362). -/
def askPeer (s : State) (k elem pkg va len : Nat) (data : List Byte) (w : Option PeerWriteKind) : State :=
  if s.peerOut.any fun r => r.cmd == k && r.elem == elem then s
  else
    let r : PeerOut :=
      { pkg := pkg, port := va / 128 % 18, cmd := k, elem := elem, cls := (s.cmd k).cls, asid := (s.cmd k).asid s, va := va
        len := len, kind := .memory, data := data, write := w }
    s.request r

/-- The read of a sibling cell, with its context record, asked of a peer (R305, R361). -/
def askCell (s : State) (k elem pkg va len : Nat) : State :=
  if s.peerOut.any fun r => r.cmd == k && r.elem == elem then s
  else
    let r : PeerOut :=
      { pkg := pkg, port := va / 128 % 18, cmd := k, elem := elem, cls := (s.cmd k).cls, asid := (s.cmd k).asid s, va := va
        len := len, kind := .sibling, data := [], write := none }
    s.request r

/-- Bytes that a die reads at a physical address: through its L2, or for a sibling page at the home (R188, R297, R306). -/
def readHome (s : State) (die : Nat) (e : W64) (pa n : Nat) : Option (List Byte) × State :=
  if pteSibling e then (if s.hbmPoison.contains (pa / 128) then none else some (memReads s.hbm pa n), s)
  else
    let (bs, bad, s) := l2Read s die (homeDie e pa) (pa / 128)
    (if bad then none else some ((bs.drop (pa % 128)).take n), s)

/-- A global read of at most 8 bytes, for an element or another key (R207, R361). -/
def readGlobal (s : State) (k elem va n : Nat) : Got :=
  match translateCmd s k va false with
  | (.hbm pa e, s) => match readHome s (s.cmd k).die e pa n with
    | (some bs, s) => .ok (leNat bs) s
    | (none, s) => .stop (.fatal 0x0207 va false s)
  | (.host pa _, s) => .ok (leNat (memReads s.host pa n)) s
  | (.peer pkg, s) => match tget (s.cmd k).peerData elem with
    | some bs => .ok (leNat bs) s
    | none => .stop (.wait (askPeer s k elem pkg va n [] none))
  | (.absent, s) => .stop (.absent va false s)
  | (.bad code, s) => .stop (.fatal code va false s)

/-- The nibble or the whole of the bytes at a half-byte address (R33). -/
def pickCode (fmt : Nat) (a : Int) (x : Nat) : Nat := if fmt == 3 then (if a % 2 == 0 then x % 16 else x / 16 % 16) else x

/-- The byte with one nibble replaced (R33). -/
def putNibble (a : Int) (old x : Nat) : Nat := if a % 2 == 0 then old / 16 * 16 + x % 16 else old % 16 + x % 16 * 16

/-- The virtual address of a half-byte address. -/
def vaOf (a : Int) : Nat := (a.fdiv 2 % (2 ^ 56 : Nat)).toNat
def localOf (a : Int) : Nat := (a.fdiv 2 % (2 ^ 32 : Nat)).toNat

/-- An element read from a space (R229). A cluster peer that has ended since the start gives a free value. -/
def readSide (s : State) (k elem sp : Nat) (dest : Bool) (a : Int) (fmt : Nat) : Got :=
  let c := s.cmd k
  let n := fmtBytes fmt
  let team (t : Nat) : Got :=
    if scratchBad s t (localOf a) n then .stop (.fatal 0x0207 0 false s)
    else .ok (pickCode fmt a (leNat (memReads (s.team t).scratch (localOf a) n))) s
  match sp with
  | 0 => match readGlobal s k elem (vaOf a) n with
    | .ok x s => .ok (pickCode fmt a x) s
    | r => r
  | 1 => team c.team
  | 2 =>
    if (linesOf (localOf a) n).any (s.core c.core).folioPoison.contains then .stop (.fatal 0x0207 0 false s)
    else .ok (pickCode fmt a (leNat (memReads (s.core c.core).folio (localOf a) n))) s
  | _ => match peerTeam s c (c.ccr.peerAddr dest) with
    | some t => if s.live t then team t else .stop (.wait s)
    | none => .ok (s.pick (5000 + elem) (2 ^ fmtBits fmt)) s

/-- The new bytes of an element: plain, or reduced into the old ones (R238). -/
def newCode (fmt op : Nat) (a : Int) (old x : Nat) : Nat := if fmt == 3 then putNibble a old x else redCode op fmt old x

/-- Bytes of an element written to a team's scratchpad. -/
def putScratch (s : State) (t fmt op : Nat) (a : Int) (x : Nat) : Perf :=
  let n := fmtBytes fmt
  if op != 0 && scratchBad s t (localOf a) n then .fatal 0x0207 0 true s
  else
    let old := leNat (memReads (s.team t).scratch (localOf a) n)
    .ok (scratchWrite s t (localOf a) (leBytes n (newCode fmt op a old x)))

/-- An element written to a space, plain or reduced at its home (R211, R229, R238, R306, R362). -/
def writeSide (s : State) (k elem sp : Nat) (a : Int) (fmt op x : Nat) : Perf :=
  let c := s.cmd k
  let n := fmtBytes fmt
  match sp with
  | 0 =>
    let va := vaOf a
    match translateCmd s k va true with
    | (.hbm pa e, s) =>
      if pteSibling e then .fatal 0x0206 va true s
      else if op == 0 then
        let old := if fmt == 3 then (l2Byte s c.die (homeDie e pa) pa).toNat else 0
        .ok (l2Write s c.die (homeDie e pa) pa (leBytes n (newCode fmt 0 a old x)))
      else
        let s := homeFirst s c.die (pa / 128)
        if s.hbmPoison.contains (pa / 128) then .fatal 0x0207 va true s
        else .ok (homeWrite s pa (leBytes n (redCode op fmt (leNat (memReads s.hbm pa n)) x)))
    | (.host pa _, s) =>
      if op != 0 then .fatal 0x0104 va true s
      else
        let old := leNat (memReads s.host pa n)
        .ok { s with host := memWrites s.host pa (leBytes n (newCode fmt 0 a old x)) }
    | (.peer pkg, s) => match tget c.peerData (writeKey elem) with
      | some _ => .ok s
      | none =>
        let w : PeerWriteKind := if fmt == 3 then .reduce 3 (a % 2).toNat else if op == 0 then .plain else .reduce fmt op
        .wait ((askPeer s k (writeKey elem) pkg va n (leBytes n x) (some w)).onCmd k fun c => { c with unacked := [elem] })
    | (.absent, s) => .absent va true s
    | (.bad code, s) => .fatal code va true s
  | 1 => putScratch s c.team fmt op a x
  | 2 =>
    if latched s c k (localOf a) n then .wait s
    else if op != 0 && (linesOf (localOf a) n).any (s.core c.core).folioPoison.contains then .fatal 0x0207 0 true s
    else
      let old := leNat (memReads (s.core c.core).folio (localOf a) n)
      .ok (folioWrite s c.core (localOf a) (leBytes n (newCode fmt op a old x)))
  | _ => match peerTeam s c (c.ccr.peerAddr true) with
    | some t => if s.live t then putScratch s t fmt op a x else .wait s
    | none => .ok s

/-! ## Rows -/

/-- Where row `j` resolves to (R239, R240, R382). -/
inductive GotRow where
  | ok (ra : RowAt) (s : State)
  | stop (p : Perf)

/-- The shard or replica of a version block that serves a row: its first row and its address (R381, R382). -/
def shardOf (s : State) (c : Cmd) (idx : Nat) : Option (Nat × Nat) :=
  let mode := bits (c.block.getD 0 0) 0 2
  let n := bits (c.block.getD 0 0) 16 9
  let ent (i : Nat) : Nat × Nat × Nat :=
    (bits (c.block.getD (2 + 2 * i) 0) 0 32, bits (c.block.getD (2 + 2 * i) 0) 32 32, bits (c.block.getD (3 + 2 * i) 0) 0 56)
  if idx ≥ bits (c.block.getD 1 0) 0 32 then none
  else if mode == 0 then
    ((List.range n).find? fun i => (ent i).1 ≤ idx && idx < (ent i).1 + (ent i).2.1).map fun i => ((ent i).1, (ent i).2.2)
  else
    let i := if mode == 1 then c.die else s.pkgNum
    some ((ent i).1, (ent i).2.2)

def rowAt (s : State) (k row : Nat) : GotRow :=
  let c := s.cmd k
  let r := c.ccr
  if !r.rows then .ok { ok := true, base := 0, off := 0 } s
  else
    let n := idxBytes r
    let a := r.aux + row * n
    if scratchBad s c.team a n then .stop (.fatal 0x0207 0 false s)
    else
      let raw := leNat (memReads (s.team c.team).scratch a n)
      let idx : Int := if r.idxFmt == 2 then signedCode 32 raw else raw
      let D := r.dims - 1
      let inside := 0 ≤ idx && idx < r.extAt D
      if r.tabled then
        match (if inside then shardOf s c idx.toNat else none) with
        | some (first, addr) => .ok { ok := true, base := addr, off := (idx - first) * r.ssAt D } s
        | none => .ok { ok := false, base := 0, off := 0 } s
      else .ok { ok := inside, base := (anyRow r).base, off := idx * (if r.kind == 2 then r.ssAt D else r.dsAt D) } s

/-! ## Counting -/

/-- The elements performed in order after one more, absorbing those performed beyond (R233). -/
def absorb : Nat → Nat → List Nat → Nat × List Nat
  | 0, e, l => (e, l)
  | n + 1, e, l => if l.contains e then absorb n (e + 1) (l.filter (· != e)) else (e, l)

/-- What an element adds to the counts (R234, R240, R253). -/
structure Tally where
  padded : Bool := false
  skipped : Bool := false
  /-- the generator after it, where it was converted under RS (R41) -/
  gen : Option W32 := none
  /-- its |x| before scaling (R236) -/
  mx : Option W32 := none
  deriving DecidableEq, Repr, Inhabited

/-- Half-bytes of an element of a format. -/
def halves (fmt : Nat) : Nat := fmtBits fmt / 4

/-- An element has been performed: the counts, and the units that have landed (R233, R249). -/
def countElement (s : State) (k n : Nat) (y : Tally) : State :=
  let c := s.cmd k
  let r := c.ccr
  let (els, ahead) := if n == c.els then absorb (c.ahead.length + 1) (c.els + 1) c.ahead else (c.els, c.ahead ++ [n])
  let h := if y.skipped then 0 else halves r.dstFmt
  let s := s.onCmd k fun c => { c with
    els := els, ahead := ahead, bytes := c.bytes + h
    padded := c.padded + (if y.padded || y.skipped then 1 else 0)
    gen := y.gen.getD c.gen
    maxAbs := match y.mx with | some m => maxW c.maxAbs m | none => c.maxAbs
    unacked := [] , peerData := tdel (tdel c.peerData n) (writeKey n), taken := tdel (tdel c.taken n) (scaleKey n) }
  let s := { s with peerOut := s.peerOut.filter fun o => !(o.cmd == k && (o.elem == n || o.elem == writeKey n)) }
  let s := landElement s k n
  let landed := (c.bytes + h) / 2 - c.bytes / 2
  if r.dstSp == 0 || landed == 0 then s else countEv s c.team 5 landed

/-! ## Transfers -/

/-- The transfer keeps the bits (R235). -/
def Ccr.identity (r : Ccr) : Bool := r.srcFmt == r.dstFmt && r.scaleMode == 0

/-- The value of a source code; an MX source is decoded with its block's scale (R31, R35, R237). -/
def Ccr.srcVal (r : Ccr) (code blk : Nat) : Val :=
  let v := (nfOfCcr r.srcFmt).decode code
  if r.mxSrc then v.mul (e8m0Val blk) else v

/-- xfer (R43, R235, R236, R237): the code of the destination, with the generator already stepped for the element. -/
def Cmd.xfer (c : Cmd) (code blk : Nat) (g : W32) : Nat :=
  let r := c.ccr
  if r.identity then code
  else
    let x := r.srcVal code blk
    let m := ccrRound r.round
    let one : Val := .fin false 1 0
    if r.mxDst then
      if blk == 255 then 0 else convert (nfOfCcr r.dstFmt) m r.sat g (x.mul (.fin false 1 (127 - (blk : Int))))
    else
      let scale := if r.scaleMode == 1 then f32 r.tscale else if r.scaleMode == 2 then f32 c.scale else one
      convert (nfOfCcr r.dstFmt) m r.sat g (x.mul scale)

/-- PAD[w-1:0] (R234). -/
def Ccr.padCode (r : Ccr) : Nat := r.pad % 2 ^ fmtBits r.dstFmt

/-- The largest |x| of a block and whether it holds a NaN or an infinity (R46). -/
def blockMax (acc : Val × Bool) (x : Val) : Val × Bool :=
  let a := x.abs
  (if a.isNan || a.isInf then acc.1 else if acc.1.lt a then a else acc.1, acc.2 || a.isNan || a.isInf)

/-- The scale byte of a block (R46). -/
def blockByte (fmt : Nat) (acc : Val × Bool) : Nat :=
  let emax : Int := if fmt == 3 then 2 else if fmt == 1 then 8 else 15
  if acc.2 then 255
  else match acc.1 with
    | .fin _ m e => if m == 0 then 0 else (min (max (log2Val m e - emax) (-127)) 127 + 127).toNat
    | _ => 0

/-- The values of the elements of a block; a padded one counts as 0 (R237). -/
def blockVals (k n : Nat) (ra : RowAt) : List Nat → State → Val × Bool → (Option Perf) × (Val × Bool) × State
  | [], s, acc => (none, acc, s)
  | i :: is, s, acc =>
    let r := (s.cmd k).ccr
    match (r.elem (r.blockElem n i) ra).src with
    | none => blockVals k n ra is s acc
    | some a => match readSide s k (r.blockElem n i) r.srcSp false a r.srcFmt with
      | .ok x s => blockVals k n ra is s (blockMax acc (r.srcVal x 0))
      | .stop p => (some p, acc, s)

/-- An element that an earlier event has read keeps what it read (R208). -/
def takenOr (s : State) (k n : Nat) (g : Got) : Got :=
  match tget (s.cmd k).taken n with
  | some x => .ok x s
  | none => g

/-- The scale of an MX element's block: a destination's is formed once, at the first of its elements that is performed, and
written beside; a source's is read (R46, R237). -/
def blockScale (s : State) (k n : Nat) (ra : RowAt) (e : Elem) : Got :=
  let c := s.cmd k
  let r := c.ccr
  let b := (r.block n).1
  if r.mxDst then
    match tget c.blkScale b, e.dst with
    | some x, _ => .ok x s
    | none, none => .ok 0 s
    | none, some d => match blockVals k n ra (List.range 32) s (.fin false 0 0, false) with
      | (some p, _, _) => .stop p
      | (none, acc, s) =>
        let x := blockByte r.dstFmt acc
        let a : Int := 2 * (r.scaleAt r.dstSp b (localOf d) r.dstFmt : Nat)
        match writeSide s k n r.dstSp a 6 0 x with
        | .ok s => .ok x (s.onCmd k fun c => { c with blkScale := tset c.blkScale b x })
        | p => .stop p
  else if r.mxSrc then
    match e.src with
    | some a => takenOr s k (scaleKey n) (readSide s k n r.srcSp false (2 * (r.scaleAt r.srcSp b (localOf a) r.srcFmt : Nat)) 6)
    | none => .ok 0 s
  else .ok 0 s

/-- The destination of an element passes translation before anything of it is written (R336). -/
def destPasses (s : State) (k sp : Nat) (a : Int) : Perf :=
  if sp != 0 then .ok s
  else
    let va := vaOf a
    match translateCmd s k va true with
    | (.absent, s) => .absent va true s
    | (.bad code, s) => .fatal code va true s
    | (_, s) => .ok s

/-- The read of an element's source, as an event of its own: its write follows in another (R208). -/
def takeElement (s : State) (k n : Nat) : Perf :=
  let r := (s.cmd k).ccr
  match rowAt s k (if r.rows then n / r.boxTotal else 0) with
  | .stop p => p
  | .ok ra s => match (r.elem n ra).src, (r.elem n ra).dst with
    | some a, some _ => match takenOr s k n (readSide s k n r.srcSp false a r.srcFmt) with
      | .ok x s => .wait (s.onCmd k fun c => { c with taken := tset c.taken n x })
      | .stop p => p
    | _, _ => .wait s

/-- The read of the scale of an element's source block, as an event of its own. -/
def takeScale (s : State) (k n : Nat) : Perf :=
  let r := (s.cmd k).ccr
  if !r.mxSrc then .ok s
  else match rowAt s k (if r.rows then n / r.boxTotal else 0) with
    | .stop p => p
    | .ok ra s => match blockScale s k n ra (r.elem n ra) with
      | .ok x s => .ok (s.onCmd k fun c => { c with taken := tset c.taken (scaleKey n) x })
      | .stop p => p

/-- One element of TCOPY, GATHER, SCATTER, CONV or FILL (R234, R235, R240, R242). -/
def moveElement (s : State) (k n : Nat) : Perf :=
  let r := (s.cmd k).ccr
  match rowAt s k (if r.rows then n / r.boxTotal else 0) with
  | .stop p => p
  | .ok ra s =>
    let e := r.elem n ra
    match e.dst with
    | none => .ok (countElement s k n { skipped := true })
    | some d => match (match destPasses s k r.dstSp d with | .ok s => blockScale s k n ra e | p => .stop p) with
      | .stop p => p
      | .ok blk s =>
        let put (s : State) (x : Nat) (y : Tally) : Perf :=
          match writeSide s k n r.dstSp d r.dstFmt r.redop x with
          | .ok s => .ok (countElement s k n y)
          | p => p
        match e.src with
        | none =>
          if r.kind == 5 then put s (r.src % 2 ^ fmtBits r.dstFmt) {}
          else put s r.padCode { padded := true }
        | some a => match takenOr s k n (readSide s k n r.srcSp false a r.srcFmt) with
          | .stop p => p
          | .ok code s =>
            let c := s.cmd k
            let rs := r.round == 2 && !r.identity
            let g := if rs then stepG c.gen else c.gen
            put s (c.xfer code blk g)
              { gen := if rs then some g else none
                mx := if r.subop == 1 then some (recordMax (r.srcVal code blk)) else none }

/-! ## Sibling rows -/

/-- A converted element of a row with the generator behind it. -/
def Cmd.convertAll (c : Cmd) : List Nat → W32 → List Nat → List Nat × W32
  | [], g, acc => (acc, g)
  | x :: xs, g, acc =>
    let rs := c.ccr.round == 2 && !c.ccr.identity
    let g := if rs then stepG g else g
    c.convertAll xs g (acc ++ [c.xfer x 0 g])

/-- Many elements written to the local side, in order. -/
def writeAll (k : Nat) : List (Nat × Int × Nat) → State → Perf
  | [], s => .ok s
  | (n, a, x) :: r, s =>
    let q := (s.cmd k).ccr
    match writeSide s k n q.dstSp a q.dstFmt 0 x with
    | .ok s => writeAll k r s
    | p => p

/-- The counts of a row performed as one event. -/
def countRow (s : State) (k row : Nat) (y : Nat → Tally) : State :=
  let bt := (s.cmd k).ccr.boxTotal
  forEach (List.range bt) s fun s i => countElement s k (row * bt + i) (y i)

/-- The geometry that a sibling GATHER must have, but for the size of its cell (R305). -/
def Ccr.gatherShape (r : Ccr) : Bool :=
  let w := fmtBits r.srcFmt
  w != 4 && r.startAt 0 == 0 && r.extAt 0 == r.boxAt 0 && r.ssAt 0 == (w / 8 : Nat) &&
  r.boxAt 1 == 4 && r.startAt 1 == 0 && r.extAt 1 == 4 && r.ssAt 1 == 0

/-- Bytes of the cell that a row of a sibling GATHER reads, or of a sibling SCATTER writes (R303, R305). -/
def Ccr.rowCell (r : Ccr) : Nat := r.boxAt 0 * (fmtBits (if r.kind == 2 then r.srcFmt else r.dstFmt) / 8)

/-- The geometry that a sibling SCATTER must have, but for the size of its cell (R303). -/
def Ccr.scatterShape (r : Ccr) : Bool :=
  let w := fmtBits r.dstFmt
  w != 4 && r.startAt 0 == 0 && r.extAt 0 == r.boxAt 0 && r.dsAt 0 == (w / 8 : Nat) && r.dsAt 1 == (r.rowCell : Nat)

/-- A row of a sibling GATHER lands: its siblings' values, its count and its context (R305). -/
def landGather (s : State) (k row : Nat) (ra : RowAt) (values : List (List Byte)) (ctx : List Byte) : Perf :=
  let c := s.cmd k
  let r := c.ccr
  let bt := r.boxTotal
  let b0 := r.boxAt 0
  let w := fmtBits r.srcFmt
  let codes := values.flatMap fun v => (List.range b0).map (valueElem w v)
  let (out, g) := c.convertAll codes c.gen []
  let elems := (List.range bt).map fun i =>
    (row * bt + i, (r.rowElem (row * bt + i) { ra with ok := false }).dst.getD 0, out.getD i r.padCode)
  if r.dstSp == 2 && elems.any fun x => latched s c k (localOf x.2.1) (fmtBytes r.dstFmt) then .wait s
  else match writeAll k elems s with
    | .ok s =>
      let s := scratchWrite s c.team (r.mxs + row) [BitVec.ofNat 8 values.length]
      let s := scratchWrite s c.team (r.ctx + 64 * row) ctx
      let s := s.onCmd k fun c => { c with gen := g }
      .ok (countRow s k row fun i =>
        { padded := i ≥ codes.length
          mx := if r.subop == 1 then (codes[i]?).map fun x => recordMax (r.srcVal x 0) else none })
    | p => p

/-- One row of a sibling GATHER, as one event at the cell's home (R222, R305). A peer answers with the context record and
the values. -/
def gatherRow (s : State) (k row : Nat) : Perf :=
  let r := (s.cmd k).ccr
  match rowAt s k row with
  | .stop p => p
  | .ok ra s =>
    -- DESIGN CHOICE: what the record alone breaks of the geometry fails at its first row, padded or not (log 120)
    if !r.gatherShape then .fatal 0x0205 (r.src % 2 ^ 56) false s
    else if !ra.ok then landGather s k row ra [] (contextBytes [] 0)
    else
      let va := vaOf (2 * (ra.base + ra.off))
      match translateCmd s k va false with
      | (.hbm pa e, s) =>
        let tab := tableOf s ((s.cmd k).asid s) e
        if !pteSibling e || !cellStart s tab va || r.rowCell != tabCell s tab then .fatal 0x0205 va false s
        else if s.hbmPoison.contains (pa / 128) || s.hbmPoison.contains ((pa + tabCell s tab - 1) / 128) then .fatal 0x0207 va false s
        else
          let xs := sibsOf s (homeDie e pa) tab pa
          landGather s k row ra (xs.map (·.value)) (contextBytes xs (tabEpoch s tab))
      | (.host _ _, s) => .fatal 0x0104 va false s
      | (.peer pkg, s) => match tget (s.cmd k).peerData (row * r.boxTotal) with
        | some bs =>
          let n := (bs.getD 34 0).toNat
          let cell := r.boxAt 0 * fmtBytes r.srcFmt
          landGather s k row ra ((List.range n).map fun i => (bs.drop (64 + i * cell)).take cell) (bs.take 64)
        | none => .wait (askCell s k (row * r.boxTotal) pkg va r.rowCell)
      | (.absent, s) => .absent va false s
      | (.bad code, s) => .fatal code va false s

/-- The source codes of a row; none for a padded element. -/
def rowCodes (k : Nat) (ra : RowAt) : List Nat → State → List (Option Nat) → (Option Perf) × List (Option Nat) × State
  | [], s, acc => (none, acc, s)
  | n :: ns, s, acc =>
    let r := (s.cmd k).ccr
    match (r.rowElem n ra).src with
    | none => rowCodes k ra ns s (acc ++ [none])
    | some a => match readSide s k n r.srcSp false a r.srcFmt with
      | .ok x s => rowCodes k ra ns s (acc ++ [some x])
      | .stop p => (some p, acc, s)

/-- The counts of a row that its home did not store (R303, R304). -/
def failRow (s : State) (k row status : Nat) : State :=
  let bt := (s.cmd k).ccr.boxTotal
  let s := s.onCmd k fun c => { c with sibfail := c.sibfail + bt, sibStatus := max c.sibStatus status }
  let before := (s.cmd k).bytes
  (countRow s k row fun _ => {}).onCmd k fun c => { c with bytes := before }

/-- One row of a sibling SCATTER: the converted row, applied to its cell with its context (R301 to R303). -/
def scatterRow (s : State) (k row : Nat) : Perf :=
  let r := (s.cmd k).ccr
  let bt := r.boxTotal
  match rowAt s k row with
  | .stop p => p
  | .ok ra s =>
    if !r.scatterShape then .fatal 0x0205 (r.dst % 2 ^ 56) true s
    else if !ra.ok then .ok (countRow s k row fun _ => { skipped := true })
    else match rowCodes k ra ((List.range bt).map (row * bt + ·)) s [] with
      | (some p, _, _) => p
      | (none, codes, s) =>
        let c := s.cmd k
        let va := vaOf (2 * (ra.base + ra.off))
        if scratchBad s c.team (r.ctx + 64 * row) 34 then .fatal 0x0207 0 false s
        else
          let (out, g) := c.convertAll (codes.filterMap id) c.gen []
          let (cells, _) := codes.foldl (fun (acc : List Nat × List Nat) x =>
            match x with | none => (acc.1 ++ [r.padCode], acc.2) | some _ => (acc.1 ++ [acc.2.headD 0], acc.2.drop 1)) ([], out)
          let value := cells.flatMap fun x => leBytes (fmtBytes r.dstFmt) x
          let ctx := memReads (s.team c.team).scratch (r.ctx + 64 * row) 34
          let done (s : State) : State :=
            countRow (s.onCmd k fun c => { c with gen := g }) k row fun i => { padded := (codes.getD i none).isNone }
          match translateCmd s k va true with
          | (.hbm pa e, s) =>
            let tab := tableOf s (c.asid s) e
            match actorSlot s tab s.pkgNum c.die with
            | none => .fatal 0x0205 va true s
            | some actor =>
              if !pteSibling e || !cellStart s tab va || r.rowCell != tabCell s tab then .fatal 0x0205 va true s
              else
                let vv := vecOfBytes ctx
                let vv := match tget c.sibVecs pa with | some u => vecMax vv u | none => vv
                match applySib s (homeDie e pa) tab pa value (BitVec.ofNat 16 (leNat (ctx.drop 32))) vv actor with
                | .stored nv s => .ok (done (s.onCmd k fun c => { c with sibVecs := tset c.sibVecs pa nv }))
                | .sibFull => .ok (failRow (s.onCmd k fun c => { c with gen := g }) k row 2)
                | .annexFull => .ok (failRow (s.onCmd k fun c => { c with gen := g }) k row 3)
          | (.host _ _, s) => .fatal 0x0104 va true s
          | (.peer pkg, s) => match tget c.peerData (writeKey (row * bt)) with
            | some bs =>
              let st := (bs.getD 0 0).toNat
              if st == 0 then .ok (done s) else .ok (failRow (s.onCmd k fun c => { c with gen := g }) k row st)
            | none =>
              .wait ((askPeer s k (writeKey (row * bt)) pkg va value.length value
                (some (.sibling k s.pkgNum c.die ctx))).onCmd k fun c => { c with unacked := [row * bt] })
          | (.absent, s) => .absent va true s
          | (.bad code, s) => .fatal code va true s

/-! ## ATOM -/

/-- The old value of an ATOM element goes to its AUX word (R243). -/
def atomReturn (s : State) (k n old : Nat) : State :=
  let c := s.cmd k
  let r := c.ccr
  let w := fmtBytes r.dstFmt
  if r.subop == 0 then s else scratchWrite s c.team (r.aux + n * w) (leBytes w old)

/-- One ATOM element: an atomic event at its home (R243). -/
def atomElement (s : State) (k n : Nat) : Perf :=
  let c := s.cmd k
  let r := c.ccr
  let w := fmtBytes r.dstFmt
  let va := (r.dst + n * w) % 2 ^ 56
  let m := (s.team c.team).scratch
  let x := leNat (memReads m (r.src + n * w) w)
  let cmp := leNat (memReads m (r.aux + n * w) w)
  let op (old : Nat) : Nat := if r.subop == 2 then (if old == cmp then x else old) else redCode r.redop r.dstFmt old x
  if scratchBad s c.team (r.src + n * w) w || (r.subop == 2 && scratchBad s c.team (r.aux + n * w) w) then .fatal 0x0207 0 false s
  else match translateCmd s k va true with
    | (.hbm pa e, s) =>
      let s := if pteSibling e then s else homeFirst s c.die (pa / 128)
      if pteSibling e then .fatal 0x0206 va true s
      else if s.hbmPoison.contains (pa / 128) then .fatal 0x0207 va true s
      else if r.subop != 0 && bits e 2 1 == 0 then .fatal 0x0202 va false s
      else
        let old := leNat (memReads s.hbm pa w)
        .ok (countElement (atomReturn (homeWrite s pa (leBytes w (op old))) k n old) k n {})
    | (.host _ _, s) => .fatal 0x0104 va true s
    | (.peer pkg, s) => match tget c.peerData (writeKey n) with
      | some bs => .ok (countElement (atomReturn s k n (leNat bs)) k n {})
      | none =>
        let kind : PeerWriteKind := if r.subop == 2 then .cas r.dstFmt (leBytes w cmp) else .reduce r.dstFmt r.redop
        .wait ((askPeer s k (writeKey n) pkg va w (leBytes w x) (some kind)).onCmd k fun c => { c with unacked := [n] })
    | (.absent, s) => .absent va true s
    | (.bad code, s) => .fatal code va true s

end Sys2Proof.Machine
end

