-- ==== Sys2Proof/Machine/Settle.lean ====
section
/-! DEFINITION. How the engine's work on a command ends: suspension (R336), a fault that cannot be resolved (R334, R335), and the
last element (R236, R252). -/

namespace Sys2Proof.Machine

/-- The docket entry of a command (R340). -/
def cmdEntry (s : State) (k : Nat) : DockEntry :=
  let c := s.cmd k
  { teamEntry s c.team with cls := c.cls, who := c.ticket.toNat, elements := c.els }

/-- A command whose page is absent is suspended at its element count, and its context is free (R336). -/
def suspendCmd (s : State) (k source va : Nat) (write : Bool) : State :=
  let (id, s) := dockTeam s (s.cmd k).team { cmdEntry s k with kind := 1, source := source, addr := va, write := write }
  -- the engine's work on the element and beyond is discarded; a collective keeps the chunks that have arrived
  let s := if (s.cmd k).kind == 10 then s else { s with peerOut := s.peerOut.filter fun o => o.cmd != k }
  s.onCmd k fun c => { c with
    state := .suspended, engine := none, dock := some id, unacked := [], taken := []
    peerData := if c.kind == 10 then c.peerData else [] }

/-- A command's fault that cannot be resolved ends its team's fault domain (R250, R334, R335). -/
def failCmd (s : State) (k source code va : Nat) (write : Bool) : State :=
  terminate s (s.cmd k).team { cmdEntry s k with
    source := source, fault := code, addr := va, write := write, status := reportStatus code } none

/-- A command completes PERMISSION at its start, with no memory effect (R232, R369). -/
def refuseCmd (s : State) (k code : Nat) : State :=
  (endEarly s k 8).onCmd k fun c => { c with fault := code, els := 0 }

/-- Every element has been performed, or the last that a cancel leaves (R236, R252 step 1, R263). -/
def settleCmd (s : State) (k : Nat) : State :=
  let c := s.cmd k
  let r := c.ccr
  if c.state != .running || !c.unacked.isEmpty then s
  else match c.limit with
    | some m => if c.els ≥ m then endEarly s k 5 else s
    | none =>
      if c.els < r.total then s
      else
        let s := if r.moves && r.subop == 1 then
            pushRing (s.inOrder (ringOrder c.team r.ring) (copyPush (c.engine.getD 0 / 8))) c.team r.ring c.maxAbs
          else s
        endEarly s k c.sibStatus

/-- What becomes of a command after work on its next element. -/
def afterPerf (k : Nat) : Perf → State
  | .ok s => settleCmd s k
  | .wait s => s
  | .absent va write s => suspendCmd s k 0 va write
  | .fatal code va write s => failCmd s k 0 code va write

/-- The leaf of a page that a check at the start looks up, leased or walked (R232, R350): none where it is absent or
malformed. -/
def startLeaf (s : State) (k va : Nat) : Option W64 :=
  let c := s.cmd k
  match leaseOf s c.die (c.asid s) va with
  | some l => some l.leaf
  | none => match walk s (c.asid s) va with
    | some (some (e, _)) => some e
    | _ => none

/-- The TARGET of such a page. DESIGN CHOICE: a page that is absent then passes the checks of 0x0103 and 0x0104 (R232); what it turns out
to be is found when it is touched (log 139). -/
def startTarget (s : State) (k va : Nat) : Option Nat := (startLeaf s k va).map pteTarget

end Sys2Proof.Machine
end

