-- ==== Sys2Proof/Machine/Collective.lean ====
section
/-! DEFINITION. Communicators and collectives (R367 to R379): the start of a COLL and its digest, matching, closings and aborts,
the chunks that sequencers move, and the elements that members write. -/

namespace Sys2Proof.Machine

/-! ## Communicators -/

def State.comm (s : State) (slot : Nat) : Comm := tgetD s.comms slot default

def Comm.dw (m : Comm) (k : Nat) : W64 := m.desc.getD k 0
def Comm.nmemb (m : Comm) : Nat := bits (m.dw 0) 8 11
/-- TIMEOUT in ec cycles (R371). -/
def Comm.timeout (m : Comm) : Nat := bits (m.dw 0) 32 32 * 1000 * ecPerUs
def Comm.dx (m : Comm) : Nat := bits (m.dw 1) 0 10
def Comm.dy (m : Comm) : Nat := bits (m.dw 1) 10 10
def Comm.dz (m : Comm) : Nat := bits (m.dw 1) 20 10
def Comm.ports (m : Comm) : List Nat := (List.range 18).filter fun p => bits (m.dw 1) (32 + p) 1 == 1
def Comm.chunk (m : Comm) : Nat := bits (m.dw 2) 0 32

/-- Positions of an element in a list. -/
def indexFrom {α : Type} [BEq α] (x : α) : Nat → List α → Option Nat
  | _, [] => none
  | n, y :: ys => if y == x then some n else indexFrom x (n + 1) ys

/-- The rank of a die of this package (R367). -/
def rankOf (s : State) (slot die : Nat) : Option Nat := indexFrom (s.pkgNum, die) 0 (s.comm slot).members

/-- Grid coordinates of a rank (R367). -/
def Comm.coord (m : Comm) (r : Nat) : List Nat := [r % m.dx, r / m.dx % m.dy, r / (m.dx * m.dy)]

/-- The ranks of a member's subgroup in increasing order (R372). -/
def Comm.group (m : Comm) (repl r : Nat) : List Nat :=
  (List.range m.nmemb).filter fun q =>
    (List.range 3).all fun d => repl / 2 ^ d % 2 == 1 || (m.coord q).getD d 0 == (m.coord r).getD d 0

/-! ## A COLL record -/

def Ccr.collOp (r : Ccr) : Nat := bits (r.dws.getD 25 0) 0 8
def Ccr.root (r : Ccr) : Nat := bits (r.dws.getD 25 0) 8 16
def Ccr.repl (r : Ccr) : Nat := bits (r.dws.getD 25 0) 32 32
def Ccr.grid (r : Ccr) (d : Nat) : Nat := bits (r.dws.getD 26 0) (16 * d) 16
def Ccr.collChunk (r : Ccr) : Nat := bits (r.dws.getD 27 0) 0 32

/-- Bytes of a block of COUNT elements (R373). -/
def Ccr.blockLen (r : Ccr) : Nat := r.count * fmtBits r.srcFmt / 8

/-- Blocks that a member contributes and that it writes, for a subgroup of n and its sub-rank (R373). -/
def Ccr.srcBlocks (r : Ccr) (n k : Nat) : Nat :=
  match r.collOp with
  | 1 | 5 => n
  | 3 => if k == r.root then 1 else 0
  | 6 => 0
  | _ => 1

def Ccr.dstBlocks (r : Ccr) (n k : Nat) : Nat :=
  match r.collOp with
  | 2 | 5 => n
  | 4 => if k == r.root then 1 else 0
  | 6 => 0
  | _ => 1

/-- Two byte ranges meet. -/
def meets (a n b m : Nat) : Bool := n != 0 && m != 0 && decide (a < b + m) && decide (b < a + n)

/-- VALID of a member's digest (R370, R372, R375). -/
def digestValid (m : Comm) (r : Ccr) (rank : Nat) : Bool :=
  let g := m.group r.repl rank
  let k := (indexFrom rank 0 g).getD 0
  let n := g.length
  (List.range 3).all (fun d => r.grid d == (m.coord rank).getD d 0) &&
  r.collChunk == m.chunk &&
  (!meets r.src (r.srcBlocks n k * r.blockLen) r.dst (r.dstBlocks n k * r.blockLen) || (r.collOp == 0 && r.src == r.dst)) &&
  (!(r.collOp == 3 || r.collOp == 4) || r.root < n)

def digestOf (m : Comm) (r : Ccr) (rank : Nat) (seq : W32) : Digest where
  seq := seq
  op := r.collOp
  redop := r.redop
  srcFmt := r.srcFmt
  dstFmt := r.dstFmt
  count := r.count
  root := r.root
  repl := r.repl
  chunk := r.collChunk
  nmemb := m.nmemb
  rank := rank
  valid := digestValid m r rank

/-- Two digests agree in every field but the rank (R370). -/
def digestsAgree (a b : Digest) : Bool := { a with rank := 0 } == { b with rank := 0 }

/-! ## Matching -/

/-- A command of a die that has taken a sequence number of a slot. -/
def isColl (s : State) (slot die : Nat) (seq : W32) (e : Nat × Cmd) : Bool :=
  e.2.kind == 10 && e.2.collSeq == some seq && e.2.die == die && collSlot s e.2 == some slot

/-- The command of a die that has taken a sequence number of a slot and has not completed: one that is posted again counts (R344). -/
def collCmd (s : State) (slot die : Nat) (seq : W32) : Option Nat :=
  (s.cmds.find? fun e => isColl s slot die seq e &&
    (e.2.state == .running || e.2.state == .suspended || e.2.state == .queued || e.2.state == .blocked)).map (·.1)

/-- The same of a command that CSAVE has saved (R344). -/
def savedColl (s : State) (slot die : Nat) (seq : W32) : Option Nat := (s.savedColls.find? (isColl s slot die seq)).map (·.1)

/-- Chunks of a member's contribution (R373, R376). -/
def chunksOf (m : Comm) (r : Ccr) (g : List Nat) (rank : Nat) : Nat :=
  (r.srcBlocks g.length ((indexFrom rank 0 g).getD 0) * r.blockLen + m.chunk - 1) / m.chunk

/-- Chunk numbers of a collective in a subgroup: those of the member that contributes most. -/
def chunkCount (m : Comm) (r : Ccr) (g : List Nat) : Nat := g.foldl (fun n q => max n (chunksOf m r g q)) 0

/-- The key of chunk j of a rank's contribution, and of its reading by a rank. -/
def chunkKey (rank j : Nat) : Nat := rank * 2 ^ 32 + j

/-- A command whose collective has nothing left for it to write, and whose SRC every member has read, is done (R373, R375). -/
def collDone (s : State) (k : Nat) : Bool :=
  let c := s.cmd k
  let r := c.ccr
  match collSlot s c with
  | none => true
  | some slot =>
    let m := s.comm slot
    match rankOf s slot c.die with
    | none => true
    | some rank =>
      let g := m.group r.repl rank
      let sub := (indexFrom rank 0 g).getD 0
      c.els ≥ r.dstBlocks g.length sub * r.count && (List.range (chunkCount m r g)).all c.ahead.contains &&
        g.all fun q => (List.range (chunksOf m r g rank)).all fun j => c.given.contains (chunkKey q j)

def collSettle (s : State) (k : Nat) : State :=
  let c := s.cmd k
  if c.state == .running && c.collGo && collDone s k then endEarly s k 0 else s

/-- The digests of a sequence number at a die are compared once those of every member are there (R370). -/
def compareDigests (s : State) (slot die : Nat) (seq : W32) : State :=
  let m := s.comm slot
  let ds := ((s.commDie die slot).digests.filter fun e => e.2.seq == seq).map (·.2)
  match collCmd s slot die seq with
  | none => s
  | some k =>
    if (List.range m.nmemb).all fun r => ds.any fun d => d.rank == r then
      let good := ds.all fun d => d.valid && digestsAgree d (ds.headD d)
      let s := s.onCommDie die slot fun x => { x with digests := x.digests.filter fun e => e.2.seq != seq }
      if good then collSettle (s.onCmd k fun c => { c with collGo := true }) k else endEarly s k 4
    else s

/-- A digest reaches a die of this package (R370). -/
def takeDigest (s : State) (die slot : Nat) (dg : Digest) : State :=
  compareDigests (s.onCommDie die slot fun x => { x with digests := x.digests ++ [(dg.rank, dg)] }) slot die dg.seq

/-- DIGEST_RECEIVE (R370): a digest from another package. -/
def execDigestReceive (die slot : Nat) (dg : Digest) (s : State) : Host.Outcome State Fault Refusal :=
  if (tget s.comms slot).isSome && (rankOf s slot die).isSome then .next (takeDigest s die slot dg) else .next s

/-! ## The start -/

/-- A COLL takes its number and sends its digest, or completes TIMEOUT while a close is pending (R368, R370, R371). -/
def beginColl (s : State) (k slot rank : Nat) : State :=
  let c := s.cmd k
  let m := s.comm slot
  let x := s.commDie c.die slot
  let n := x.nextSeq
  let s := s.onCmd k fun c => { c with collSeq := some n }
  let s := s.onCommDie c.die slot fun y => { y with
    nextSeq := n + 1, pendingClose := y.pendingClose && n != y.closed }
  if x.pendingClose then endEarly s k 6
  else
    let dg := digestOf m c.ccr rank n
    forEach m.members s fun s e =>
      if e.1 == s.pkgNum then takeDigest s e.2 slot dg else s.send (firstPort s slot) 3 (.digest e.1 e.2 slot dg)

/-- The start of a COLL (R369): its checks, then its sequence number. -/
def startColl (s : State) (k : Nat) : State :=
  let c := s.cmd k
  let r := c.ccr
  match collSlot s c with
  | none => refuseCmd s k 0x0107
  | some slot => match rankOf s slot c.die with
    | none => refuseCmd s k 0x0107
    | some rank =>
      let pages := if r.collOp == 6 then [] else [r.src % 2 ^ 56, r.dst % 2 ^ 56]
      let bad := pages.find? fun va => (walk s (c.asid s) va).isNone
      match bad with
      | some va => failCmd s k 6 0x0203 va false
      | none =>
        if pages.any fun va => match startTarget s k va with | some t => t == 1 || t == 2 | none => false then
          refuseCmd s k 0x0108
        else beginColl s k slot rank

/-! ## Closings and aborts -/

/-- A sequence is closed on a die (R371). -/
def closeAt (s : State) (die slot : Nat) (c : W32) : State :=
  let x := s.commDie die slot
  let s := match collCmd s slot die c with
    | some k => if (s.cmd k).collGo && (s.cmd k).els != 0 then s else endEarly s k 6
    | none => s
  -- the highest number closed, in the order of their taking (R368)
  let lower := x.anyClosed && decide ((c - x.closed).toNat ≥ 2 ^ 31)
  s.onCommDie die slot fun y => { y with
    closed := if lower then y.closed else c, anyClosed := true
    pendingClose := if (c - x.nextSeq).toNat < 2 ^ 31 then true else y.pendingClose
    digests := y.digests.filter fun e => e.2.seq != c }

/-- COLL_TIMEOUT (R371): a member's command has waited TIMEOUT for its digests. -/
def execCollTimeout (k : Nat) (s : State) : Host.Outcome State Fault Refusal :=
  let c := s.cmd k
  match collSlot s c, c.collSeq with
  | some slot, some seq =>
    let m := s.comm slot
    if c.kind == 10 && c.state == .running && !c.collGo && m.timeout != 0 && c.started + m.timeout ≤ s.now + 1 then
      .next (forEach m.members s fun s e =>
        if e.1 == s.pkgNum then closeAt s e.2 slot seq else s.send (firstPort s slot) 3 (.closing e.1 e.2 slot seq))
    else .next s
  | _, _ => .next s

/-- SEQUENCE_CLOSING (R371): a closing from another package. -/
def execSequenceClosing (die slot : Nat) (seq : W32) (s : State) : Host.Outcome State Fault Refusal :=
  if (tget s.comms slot).isSome && (rankOf s slot die).isSome then .next (closeAt s die slot seq) else .next s

/-- COLLECTIVE_ABORT (R378): a member of another package has been terminated. -/
def execCollectiveAbort (die slot : Nat) (seq : W32) (s : State) : Host.Outcome State Fault Refusal :=
  .next (endMembers s (isColl s slot die seq))

/-! ## Suspension at every member -/

/-- A member hears that the member of a rank is suspended, or goes on; it goes on itself once none is (R378). -/
def Cmd.heard (c : Cmd) (rank : Nat) (on : Bool) : Cmd :=
  let others := c.halts.filter (· != rank)
  if !on then { c with halts := others }
  else if c.state == .running then { c with halts := rank :: others, state := .suspended, engine := none }
  else { c with halts := rank :: others }

/-- The members of a die hear of it, one that CSAVE has saved too (R344, R378). -/
def hearHalt (s : State) (slot die : Nat) (seq : W32) (rank : Nat) (on : Bool) : State :=
  let hear (e : Nat × Cmd) : Nat × Cmd := if isColl s slot die seq e then (e.1, e.2.heard rank on) else e
  { s with cmds := s.cmds.map hear, savedColls := s.savedColls.map hear }

/-- Every other member hears that a command of a started collective is suspended, or goes on (R378). DESIGN CHOICE: other packages
hear it in a request that asks for no bytes (log 143). -/
def tellHaltOf (s : State) (c : Cmd) (on : Bool) : State :=
  match collSlot s c, c.collSeq with
  | some slot, some seq => match rankOf s slot c.die with
    | none => s
    | some rank => forEach (s.comm slot).members s fun s e =>
      if e.1 == s.pkgNum then (if e.2 == c.die then s else hearHalt s slot e.2 seq rank on)
      else
        let r : PeerOut :=
          { pkg := e.1, port := firstPort s slot, cmd := 0, elem := 0, cls := c.cls, asid := 0, va := 0, len := 0, data := []
            kind := .halt e.2 slot seq rank on, write := none }
        s.send (firstPort s slot) 0 (.peer r)
  | _, _ => s

def tellHalt (s : State) (k : Nat) (on : Bool) : State := if (s.cmd k).kind == 10 then tellHaltOf s (s.cmd k) on else s

/-! ## Chunks -/

/-- Bytes of a command's SRC, each page translated for the posting team (R375). -/
def collRead (s : State) (k : Nat) : Nat → Nat → List Byte → (Option Perf) × List Byte × State
  | _, 0, acc => (none, acc, s)
  | va, n + 1, acc =>
    match translateCmd s k va false with
    | (.hbm pa e, s) => match readHome s (s.cmd k).die e pa 1 with
      | (some bs, s) => collRead s k (va + 1) n (acc ++ bs)
      | (none, s) => (some (.fatal 0x0207 va false s), acc, s)
    | (.absent, s) => (some (.absent va false s), acc, s)
    | (.bad code, s) => (some (.fatal code va false s), acc, s)
    | (.peer _, s) | (.host _ _, s) => (some (.fatal 0x0108 va false s), acc, s)

/-- A page absent at a member suspends the collective at every member (R378). -/
def suspendColl (s : State) (k va : Nat) (write : Bool) : State := tellHalt (suspendCmd s k 6 va write) k true

/-- What becomes of a collective's command after an access of it. -/
def afterColl (k : Nat) : Perf → State
  | .ok s => collSettle s k
  | .wait s => s
  | .absent va write s => suspendColl s k va write
  | .fatal code va write s => failCmd s k 6 code va write

/-- A chunk that a port may move next: its command, slot, rank, chunk number, class, priority (R376). -/
structure Chunk where
  cmd : Nat
  slot : Nat
  rank : Nat
  j : Nat
  cls : Nat
  prio : Nat
  deriving DecidableEq, Repr, Inhabited

/-- A member may be read: its own comparison has been made, and it runs (R344, R370, R378). -/
def Cmd.gives (c : Cmd) : Bool := c.state == .running && c.collGo

/-- A chunk is ready for a member: the members of this package that it has still to read may be read (R376). -/
def chunkReady (s : State) (slot : Nat) (c : Cmd) (g : List Nat) (j : Nat) : Bool :=
  g.all fun q =>
    let (pkg, die) := (s.comm slot).members.getD q (0, 0)
    pkg != s.pkgNum || j ≥ chunksOf (s.comm slot) c.ccr g q || (tget c.peerData (chunkKey q j)).isSome ||
      match collCmd s slot die (c.collSeq.getD 0) with
      | some k => (s.cmd k).gives
      | none => false

/-- The lowest chunk that a command has still to take, that is ready and that the port carries (R376). -/
def chunkOf (s : State) (port : Nat) (e : Nat × Cmd) : Option Chunk :=
  let c := e.2
  let r := c.ccr
  if c.kind != 10 || c.state != .running || !c.collGo then none
  else match collSlot s c with
    | none => none
    | some slot =>
      let m := s.comm slot
      match rankOf s slot c.die, indexFrom port 0 m.ports with
      | some rank, some i =>
        let g := m.group r.repl rank
        ((List.range (chunkCount m r g)).find? fun j => j % m.ports.length == i && !c.ahead.contains j && chunkReady s slot c g j).map fun j =>
          { cmd := e.1, slot := slot, rank := rank, j := j, cls := c.cls, prio := effPrio s (teamRcb s c.team) }
      | _, _ => none

/-- The order of R376: class, then priority, then the slots after the one served last. -/
def chunkBefore (last : Nat) (a b : Chunk) : Bool :=
  let turn (x : Nat) : Nat := (x + 12 - (last + 1) % 12) % 12
  a.cls < b.cls || (a.cls == b.cls && (a.prio > b.prio || (a.prio == b.prio && (turn a.slot < turn b.slot ||
    (a.slot == b.slot && a.rank < b.rank)))))

/-- The address and length of chunk j of what a member's command contributes. -/
def chunkPlace (s : State) (slot k j : Nat) : Nat × Nat :=
  let c := s.cmd k
  let m := s.comm slot
  let rank := (rankOf s slot c.die).getD 0
  let g := m.group c.ccr.repl rank
  let len := c.ccr.srcBlocks g.length ((indexFrom rank 0 g).getD 0) * c.ccr.blockLen
  (c.ccr.src + j * m.chunk, min m.chunk (len - j * m.chunk))

/-- A command reads the next of a chunk of its SRC for the member of a rank, as one event: up to 8 aligned bytes (R208, R375). The
answer is the chunk once it is whole. -/
def giveChunk (s : State) (slot k j rank : Nat) : (Option Perf) × Option (List Byte) × State :=
  let (a, n) := chunkPlace s slot k j
  let key := chunkKey rank j
  let had := tgetD (s.cmd k).reading key []
  let va := a + had.length
  match collRead s k va (min (8 - va % 8) (n - had.length)) [] with
  | (none, bs, s) =>
    let all := had ++ bs
    if all.length ≥ n then
      (none, some all, s.onCmd k fun c => { c with reading := tdel c.reading key, given := c.given ++ [key] })
    else (none, none, s.onCmd k fun c => { c with reading := tset c.reading key all })
  | (some p, _, s) => (some p, none, s)

/-- Every member's bytes of a chunk have come to a command. -/
def chunkWhole (s : State) (k j : Nat) : Bool :=
  let c := s.cmd k
  match collSlot s c with
  | none => true
  | some slot => match rankOf s slot c.die with
    | none => true
    | some rank =>
      let m := s.comm slot
      let g := m.group c.ccr.repl rank
      g.all fun q => j ≥ chunksOf m c.ccr g q || (tget c.peerData (chunkKey q j)).isSome

/-- A chunk that is whole has been moved, and the sequencer that moved it picks again (R376). -/
def endChunk (s : State) (k j : Nat) : State :=
  if !chunkWhole s k j then s
  else
    let s := { s with ports := s.ports.map fun (p : Nat × Port) => (p.1, if p.2.moving == some (k, j) then { p.2 with moving := none } else p.2) }
    collSettle (s.onCmd k fun c => { c with ahead := c.ahead ++ [j] }) k

/-- A member's bytes of a chunk come to a command: those of this package piece by piece, those of another by a read that its
sequencer issues once (R208, R363, R373). -/
def takeChunk (s : State) (port : Nat) (x : Chunk) (q : Nat) : (Option (Nat × Perf)) × State :=
  let c := s.cmd x.cmd
  let m := s.comm x.slot
  let (pkg, die) := m.members.getD q (0, 0)
  let key := chunkKey q x.j
  if pkg != s.pkgNum then
    let r : PeerOut :=
      { pkg := pkg, port := port, cmd := x.cmd, elem := key, cls := c.cls, asid := 0, va := 0, len := m.chunk, data := []
        kind := .chunk die x.slot (c.collSeq.getD 0) x.rank x.j, write := none }
    (none, { s with peerOut := s.peerOut ++ [r] }.send port 0 (.peer r))
  else match collCmd s x.slot die (c.collSeq.getD 0) with
    | none => (none, s)
    | some k =>
      if !(s.cmd k).gives then (none, s)
      else match giveChunk s x.slot k x.j x.rank with
        | (some p, _, _) => (some (k, p), s)
        | (none, some bs, s) => (none, s.onCmd x.cmd fun y => { y with peerData := tset y.peerData key bs })
        | (none, none, s) => (none, s)

/-- The first member whose bytes of a chunk have not come, and have not been asked of another package. -/
def nextGiver (s : State) (x : Chunk) : Option Nat :=
  let c := s.cmd x.cmd
  let m := s.comm x.slot
  let g := m.group c.ccr.repl x.rank
  g.find? fun q =>
    let key := chunkKey q x.j
    !(x.j ≥ chunksOf m c.ccr g q || (tget c.peerData key).isSome || s.peerOut.any fun o => o.cmd == x.cmd && o.elem == key)

/-- A chunk is begun, or goes on: its bytes come from every member of the subgroup (R363, R376). A page that is absent at a member of
this package suspends the collective, and the chunk goes on when that resumes (R378). -/
def moveChunk (s : State) (port : Nat) (x : Chunk) : State :=
  let s := s.onPort port fun y => { y with moving := some (x.cmd, x.j) }
  match nextGiver s x with
  | none => endChunk s x.cmd x.j
  | some q => match takeChunk s port x q with
    | (some (k, p), _) => afterColl k p
    | (none, s) => endChunk s x.cmd x.j

/-- The chunk that the sequencer has begun and is still moving: one whose command has been suspended or has ended holds it no longer
(R376 to R378). -/
def moving? (s : State) (p : Port) : Option Chunk :=
  match p.moving with
  | none => none
  | some (k, j) =>
    let c := s.cmd k
    match collSlot s c with
    | none => none
    | some slot => match rankOf s slot c.die with
      | none => none
      | some rank =>
        if c.state == .running && c.kind == 10 && !chunkWhole s k j then
          some { cmd := k, slot := slot, rank := rank, j := j, cls := c.cls, prio := effPrio s (teamRcb s c.team) }
        else none

/-! ## Reads by other packages -/

/-- The channel of a slot's responses (R365). -/
def slotVc (slot : Nat) : Nat := 4 + slot

/-- A member of another package reads a chunk (R363, R375, R378): the read waits with the member's command, and is answered once, when
the sequencer has read the chunk there. -/
def serveChunk (s : State) (r : PeerRead) (die slot : Nat) (seq : W32) : State :=
  let add (c : Cmd) : Cmd := { c with chunkReads := c.chunkReads ++ [r] }
  match collCmd s slot die seq with
  | some k => s.onCmd k add
  | none => match savedColl s slot die seq with
    | some k => { s with savedColls := s.savedColls.map fun e => if e.1 == k then (k, add e.2) else e }
    | none => s

/-- A read that waits for a member's command which may be read, of the slots that a port carries. -/
def waitingRead (s : State) (port : Nat) : Option (Nat × PeerRead) :=
  s.cmds.findSome? fun e =>
    if e.2.kind == 10 && e.2.gives then
      (e.2.chunkReads.find? fun r => match r.kind with
        | .chunk _ slot _ _ j => let ps := (s.comm slot).ports; ps.getD (j % ps.length) 0 == port
        | _ => false).map fun r => (e.1, r)
    else none

/-- The next piece of such a read; its whole chunk is the answer. -/
def serveWaiting (s : State) (port k : Nat) (r : PeerRead) : State :=
  match r.kind with
  | .chunk _ slot _ rank j => match giveChunk s slot k j rank with
    | (some p, _, _) => afterColl k p
    | (none, none, s) => s
    | (none, some bs, s) =>
      let s := s.onCmd k fun c => { c with chunkReads := c.chunkReads.erase r }
      collSettle (s.send port (slotVc slot) (.peerData r.pkg r.tag bs)) k
  | _ => s

/-- CHUNK_SELECT (R376): a sequencer answers the reads that wait, finishes a chunk that it has begun, and picks its next one. One that is
frozen or held in reset moves none (R353, R389). -/
def execChunkSelect (port : Nat) (s : State) : Host.Outcome State Fault Refusal :=
  let p := s.port port
  if p.frozen || s.sequencersHeld then .next s
  else match waitingRead s port with
    | some (k, r) => .next (serveWaiting s port k r)
    | none => match moving? s p with
      | some x => .next (if (nextGiver s x).isNone then s else moveChunk s port x)
      | none => match s.cmds.filterMap (chunkOf s port) with
        | [] => .next s
        | x :: xs =>
          let best := xs.foldl (fun m y => if chunkBefore p.lastSlot y m then y else m) x
          .next (moveChunk (s.onPort port fun p => { p with lastSlot := best.slot }) port best)

/-! ## Elements -/

/-- Bytes of a member's contribution at an offset, once the chunks that hold them have arrived. -/
def contribution (m : Comm) (c : Cmd) (rank off n : Nat) : Option (List Byte) :=
  (List.range n).foldl (fun acc i =>
    let a := off + i
    match acc, tget c.peerData (chunkKey rank (a / m.chunk)) with
    | some bs, some ch => some (bs ++ [ch.getD (a % m.chunk) 0])
    | _, _ => none) (some [])

/-- Float contributions are combined in FP32 and converted once (R374). -/
def collReduce (op fmt : Nat) (xs : List Nat) : Nat :=
  match nfOfCcr fmt with
  | .fp F =>
    let wide (x : Nat) : Nat := roundRne fp32 (F.decode x)
    let acc := ((xs.drop 1).map wide).foldl (fun a x => redCode op 11 a x) (wide (xs.headD 0))
    if fmt == 11 then acc else convert (nfOfCcr fmt) 0 false 0 (f32 (BitVec.ofNat 32 acc))
  | _ => (xs.drop 1).foldl (fun a x => redCode op fmt a x) (xs.headD 0)

/-- The bytes that a member writes for destination element e; none while a contribution is missing (R373, R374). Elements
of half a byte go in pairs. -/
def collValue (s : State) (k slot rank e : Nat) : Option (List Byte) :=
  let c := s.cmd k
  let r := c.ccr
  let m := s.comm slot
  let g := m.group r.repl rank
  let sub := (indexFrom rank 0 g).getD 0
  let w := fmtBytes r.srcFmt
  let at_ (i : Nat) : Nat := if r.srcFmt == 3 then i / 2 else i * w
  let L := r.blockLen
  let i := e % (max 1 r.count)
  let blk := e / (max 1 r.count)
  let reduce (off : Nat) : Option (List Byte) :=
    let vs := g.map fun q => contribution m c q off w
    if vs.all Option.isSome then some (leBytes w (collReduce r.redop r.srcFmt ((vs.filterMap id).map leNat))) else none
  match r.collOp with
  | 0 | 4 => reduce (at_ i)
  | 1 => reduce (sub * L + at_ i)
  | 2 => contribution m c (g.getD blk 0) (at_ i) w
  | 3 => contribution m c (g.getD r.root 0) (at_ i) w
  | _ => contribution m c (g.getD blk 0) (sub * L + at_ i) w

/-- COLL (R373, R375): the next destination element of a matched member command. -/
def execColl (k : Nat) (s : State) : Host.Outcome State Fault Refusal :=
  let c := s.cmd k
  let r := c.ccr
  if c.kind != 10 || c.state != .running || !c.collGo then .next s
  else if collDone s k then .next (collSettle s k)
  else match collSlot s c with
    | none => .next s
    | some slot => match rankOf s slot c.die with
      | none => .next s
      | some rank =>
        let m := s.comm slot
        let g := m.group r.repl rank
        let sub := (indexFrom rank 0 g).getD 0
        -- where SRC is DST every member has read an element before it is written (R375)
        let unread := r.src == r.dst && r.collOp == 0 &&
          !(g.all fun q => c.given.contains (chunkKey q (c.els * fmtBytes r.srcFmt / m.chunk)))
        if c.els ≥ r.dstBlocks g.length sub * r.count || unread then .next s
        else match collValue s k slot rank c.els with
          | none => .next s
          | some bs =>
            let two := r.srcFmt == 3
            let va := r.dst + (if two then c.els / 2 else c.els * bs.length)
            match translateCmd s k va true with
            | (.hbm pa e, s) =>
              if pteSibling e then .next (afterColl k (.fatal 0x0206 va true s))
              else
                let s := l2Write s c.die (homeDie e pa) pa bs
                .next (collSettle (s.onCmd k fun c => { c with
                  els := c.els + (if two then 2 else 1), bytes := c.bytes + 2 * bs.length }) k)
            | (.absent, s) => .next (afterColl k (.absent va true s))
            | (.bad code, s) => .next (afterColl k (.fatal code va true s))
            | (.peer _, s) | (.host _ _, s) => .next (afterColl k (.fatal 0x0108 va true s))

/-! ## GRPRD -/

/-- What GRPRD writes (R379). -/
def groupField (s : State) (die slot fld : Nat) : W32 :=
  let m := s.comm slot
  let x := s.commDie die slot
  match (if slot < 12 && (tget s.comms slot).isSome then rankOf s slot die else none) with
  | none => 0xFFFFFFFF
  | some rank => match fld with
    | 0 => BitVec.ofNat 32 rank
    | 1 => BitVec.ofNat 32 m.nmemb
    | 2 => x.nextSeq
    | 3 => x.closed
    | 4 => BitVec.ofNat 32 x.last
    | 5 => BitVec.ofNat 32 (m.dx + m.dy * 2 ^ 10 + m.dz * 2 ^ 20)
    | _ => BitVec.ofNat 32 ((if x.anyClosed then 1 else 0) + (if x.pendingClose then 2 else 0))

/-- GRPRD (R379). -/
def execGrprd (f : Form) (s : State) : Host.Outcome State Fault Refusal :=
  laneWord 0xE6 f s fun e l =>
    [.w32 f.d (groupField e.s e.die (e.src l f.a .int).toNat (f.mod.extractLsb' 0 3).toNat)]

end Sys2Proof.Machine
end

