-- ==== Sys2Proof/Machine/Windows.lean ====
section
/-! DEFINITION. Windows, fences and the local monitor (R200 to R206), and the retries of held write-backs (R180). -/

namespace Sys2Proof.Machine

/-! ## Releases and acquires of a thread -/

/-- What follows the write-backs of a word once none is held: a release of loan lines and an acquire (R203), or for
`drop` the invalidation of the lines (R202). -/
inductive After where
  | fence (scope : Nat) (rel acq : Bool)
  | nothing
  | drop
  deriving DecidableEq, Repr

/-- As `WaitKind.fence` keeps it: a scope below 16 is a fence's, 16 asks for nothing more, 17 for invalidation. -/
def After.code : After → Nat
  | .fence sc _ _ => sc
  | .nothing => 16
  | .drop => 17

/-- The release of loan lines, at .pkg and wider (R203 step 1, R215). -/
def fenceRelease (s : State) (core t scope : Nat) : State :=
  if scope ≥ 6 then releasePkg s (teamCtx s t) (dieOf core) core none else s

/-- The acquire of a thread's fence (R203 step 2, R214). -/
def fenceAcquire (s : State) (core t scope : Nat) : State :=
  if scope < 4 then s
  else
    let s := dropClean s core (teamAsid s t) fun _ => true
    if scope ≥ 6 then acquirePkg s (teamCtx s t) (dieOf core) none (scope ≥ 7) else s

/-- Lines that a held write-back keeps (R180). -/
def heldAmong (s : State) (core asid : Nat) (lines : List Nat) : List Nat :=
  lines.filter fun n => match findLine (s.core core) asid n with
    | some l => l.held.isSome
    | none => false

/-! ## Maintenance of ranges -/

/-- The range of global addresses that a lane names, when it lies in the mapped bytes of one window (R202). -/
def windowRange (p : Packet) (t : Team) (addr n : Nat) : Option Nat :=
  match localPlace p t addr n with
  | .window va _ => some va
  | _ => none

/-- WBW, INVW and DISW of one line (R202): 0, 1 and 2. The answer is the state, and whether a fault holds its write-back. -/
def maintainLine (s : State) (core asid kind va n line : Nat) : Bool × State :=
  let s := match findMse (s.core core) asid line with
    | some m => completeFill s core m
    | none => s
  match findLine (s.core core) asid line with
  | none => (false, s)
  | some l =>
    let inside := decide (va ≤ line * 128) && decide (line * 128 + 128 ≤ va + n)
    if kind == 2 && inside then (false, dropLine s core asid line)
    else match writeBack s core l with
      | (.done, s) => (false, if kind == 0 then s else dropLine s core asid line)
      | (.held, s) => (true, s)
      | (.fatal code _, s) => (false, fatalWriteBack s core l code)

/-! ## Words that wait for write-backs -/

/-- The marker of a line that waits for its write-back, and of one whose fault's object a CRESUME has resumed (R337): no docket
ID reaches it. -/
def resumed : Nat := 2 ^ 32

/-- The lines of a release wait to be written back one by one, as the device chooses: each write-back is an event of its own
(R203, R212). -/
def stageLines (s : State) (core : Nat) (ls : List CLine) : State :=
  let mine (l : CLine) : Bool := ls.any fun x => x.asid == l.asid && x.line == l.line
  s.onCore core fun c => { c with lines := c.lines.map fun l => if mine l && l.held.isNone then { l with held := some resumed } else l }

/-- A word's invalidation of the lines that no fault holds any more (R202): each is written back with what has reached it
meanwhile, and dropped. The answer is the lines that wait on. -/
def dropUnheld (s : State) (core asid : Nat) (lines : List Nat) : List Nat × State :=
  lines.foldl (fun (acc : List Nat × State) n =>
    if (heldAmong acc.2 core asid [n]).isEmpty then
      let (h, s) := maintainLine acc.2 core asid 1 0 0 n
      (if h then acc.1 ++ [n] else acc.1, s)
    else (acc.1 ++ [n], acc.2)) ([], s)

/-- The wait of a word on write-backs: lines that have been written back leave it, and it ends when none is left (R202, R203,
R214). -/
def settleFence (s : State) (core : Nat) (w : Wait) : State :=
  match w.kind with
  | .fence lines scope acq =>
    let t := (s.wave core w.slot).team
    let asid := teamAsid s t
    let (left, s) := if scope == 17 then dropUnheld s core asid lines else (heldAmong s core asid lines, s)
    if !s.live t then s
    else if !left.isEmpty then setWait s core w.bid (.fence left scope acq)
    else
      let s := if scope ≥ 16 then s
        else
          let s := fenceRelease s core t scope
          if acq then fenceAcquire s core t scope else s
      finishWait s core w
  | _ => s

def settleFences (s : State) (core : Nat) : State :=
  forEach (s.core core).waits s fun s w => match (s.core core).findWait w.bid with
    | some w => settleFence s core w
    | none => s

/-- WRITEBACK_RETRY (R180, R203): a line that waits for its write-back, or was resumed (R337), is written back. -/
def execWritebackRetry (core line : Nat) (s : State) : Host.Outcome State Fault Refusal :=
  match (s.core core).lines.find? fun l => l.line == line && l.held == some resumed with
  | none => .next (settleFences s core)
  | some l =>
    match writeBack s core { l with held := none } with
    | (.fatal code _, s) => .next (settleFences (fatalWriteBack s core l code) core)
    | (_, s) => .next (settleFences s core)

/-- FENCE (R203): MOD[3:0] the scope, MOD[5:4] the ordering (R65). Loads in flight take their values before it (R212, R213). -/
def execFence (f : Form) (s : State) : Host.Outcome State Fault Refusal :=
  runWord 0x66 f s fun e =>
    let scope := (f.mod.extractLsb' 0 4).toNat
    let acq := f.mod.getLsbD 4
    let rel := f.mod.getLsbD 5
    let t := e.team
    match (if scope ≥ 3 then e.settled 0x66 f else .ok e.s) with
    | .error s => .stop s
    | .ok s =>
    if scope < 4 then .done s []
    else if !rel then .done (if acq then fenceAcquire s e.core t scope else s) []
    else
      let ls := dirtyLines s e.core (teamAsid s t)
      if ls.isEmpty then
        let s := fenceRelease s e.core t scope
        .done (if acq then fenceAcquire s e.core t scope else s) []
      else
        let lanes := e.act.map (·.2)
        .done (blockWord (stageLines s e.core ls) e.core lanes (.fence (ls.map (·.line)) scope acq) .nul .nul) lanes

/-! ## The words of ranges -/

/-- The lines of the cache that a range meets, in order. -/
def linesIn (c : Core) (asid va n : Nat) : List Nat :=
  (c.lines.filter fun l => l.asid == asid && lineIn va n l.line).map (·.line)

/-- One lane's range: its lines, and the lane waits while a fault holds a write-back that it caused (R202). -/
def maintainLane (kind : Nat) (core t : Nat) (acc : State × List LaneRef) (x : LaneRef × Nat × Nat) : State × List LaneRef :=
  let (s, waits) := acc
  if !s.live t then acc
  else
    let (r, va, n) := x
    let asid := teamAsid s t
    let (held, s) := (linesIn (s.core core) asid va n).foldl (fun (a : List Nat × State) line =>
      let (h, s) := maintainLine a.2 core asid kind va n line
      (if h then a.1 ++ [line] else a.1, s)) ([], s)
    if held.isEmpty then (s, waits)
    else if !s.live t then (s, waits)
    else
      let after : After := if kind == 0 then .nothing else .drop
      (blockWord s core [r] (.fence held after.code false) .nul .nul, waits ++ [r])

def rangeWord (opc : Nat) (f : Form) (s : State) (kind : Nat) : Host.Outcome State Fault Refusal :=
  runWord opc f s fun e =>
    let team := e.s.team e.team
    let xs := e.act.filterMap fun l =>
      let n := (e.src l f.b .int).toNat
      if n == 0 then none else some (l.2, (e.addr l f).toNat, n)
    let bad := xs.filter fun x => (windowRange e.pkt team x.2.1 x.2.2).isNone
    match bad with
    | b :: _ =>
      .trap 0x03 (bad.map (·.1)) fun r => BitVec.ofNat 32 (match bad.find? fun x => x.1 == r with | some x => x.2.1 | none => b.2.1)
    | [] =>
      let rs := xs.filterMap fun x => (windowRange e.pkt team x.2.1 x.2.2).map fun va => (x.1, va, x.2.2)
      let (s, waits) := rs.foldl (maintainLane kind e.core e.team) (e.s, [])
      if !s.live e.team then .stop s else .done s waits

/-- WBW (R202). -/
def execWbw (f : Form) (s : State) : Host.Outcome State Fault Refusal := rangeWord 0x68 f s 0
/-- INVW (R202). -/
def execInvw (f : Form) (s : State) : Host.Outcome State Fault Refusal := rangeWord 0x69 f s 1
/-- DISW (R202). -/
def execDisw (f : Form) (s : State) : Host.Outcome State Fault Refusal := rangeWord 0x6A f s 2

/-! ## Prefetch and mapping -/

/-- PREFW of one line (R201). -/
def prefetchLine (s : State) (core : Nat) (r : LaneRef) (t asid line : Nat) (priv : Bool) : State :=
  let c := s.core core
  let present := findLine c asid line
  let valid := match present with | some l => l.full | none => false
  if valid || (findMse c asid line).isSome then s
  else if priv && firstUse (s.wave core r.slot) line && present.isNone then (placeLine s core asid line true true).2
  else if freeMses c r.slot == 0 then s
  else match placeLine s core asid line priv false with
    | (false, s) => s
    | (true, s) => startFill s core r.slot t asid line true

/-- PREFW (R201): nothing but timing. -/
def execPrefw (f : Form) (s : State) : Host.Outcome State Fault Refusal :=
  runWord 0x67 f s fun e =>
    let t := e.team
    let asid := teamAsid e.s t
    let s := forEach e.act e.s fun s l =>
      if !s.live t then s
      else match localPlace e.pkt (s.team t) (e.addr l f).toNat 1 with
        | .window va _ => prefetchLine s e.core l.2 t asid (va / 128) false
        | .priv o => prefetchLine s e.core l.2 t asid (privByte (s.wave e.core l.2.slot).privBase l.2.lane o / 128) true
        | _ => s
    if !s.live t then .stop s else .done s []

/-- A window is set, for accesses of later cycles: the first word of a cycle that reaches it, by quadrant and wave slot, takes
effect (R200). -/
def Team.mapWindow (t : Team) (k : Nat) (w : Window) : Team :=
  if (tget t.newWindows k).isSome then t else { t with newWindows := tset t.newWindows k w }

/-- The windows set in a cycle hold from the next one on (R200). -/
def Team.commitWindows (t : Team) : Team :=
  { t with windows := t.newWindows.foldl (fun m e => tset m e.1 e.2) t.windows, newWindows := [] }

/-- WINMAP (R200). -/
def execWinmap (f : Form) (s : State) : Host.Outcome State Fault Refusal :=
  runWord 0x6B f s fun e =>
    let l := e.first
    let k := (f.mod.extractLsb' 0 3).toNat
    let base := (e.src64 l f.a .int).toNat
    let len := (e.b l f .int).toNat
    if k ≥ e.pkt.windows || len > 2 ^ 27 || base + len > 2 ^ 56 then .trap 0x03 [l.2] fun _ => 0
    else if base % 128 != 0 || len % 128 != 0 then .trap 0x04 [l.2] fun _ => 0
    else .done (e.s.onTeam e.team fun t => t.mapWindow k { base := base, len := len, wr := f.mod.getLsbD 3 }) []

/-! ## The local monitor -/

/-- LMON (R204). -/
def execLmon (f : Form) (s : State) : Host.Outcome State Fault Refusal :=
  localWord 0x6C f s false fun e => e.act.map fun l =>
    oneAccess l { (default : Access) with
      r := l.2, kind := 3, addr := (e.addr l f).toNat, size := 4, data := leBytes 4 (e.src l f.b .int).toNat
      op := f.mod.toNat, d := f.d }

/-- The lane's LMWAIT returns, and its monitor is disarmed (R205). -/
def endLmwait (s : State) (core : Nat) (r : LaneRef) (d : Opnd) (b : Bool) : State :=
  let s := match d with | .p i => writeP s core r i.toNat b | _ => s
  s.onLane core r fun l => { l with lmon := .off }

/-- LMWAIT (R205). -/
def execLmwait (f : Form) (s : State) : Host.Outcome State Fault Refusal :=
  runWord 0x6D f s fun e =>
    let armed (r : LaneRef) : Bool := match (e.s.lane e.core r).lmon with | .armed _ => true | _ => false
    let waits := e.act.filter fun l => armed l.2
    let s := forEach e.act e.s fun s l =>
      if armed l.2 then setBlock s e.core l.2 (.lmwait f.d s.now (e.src l f.a .int).toNat)
      else endLmwait s e.core l.2 f.d true
    .done s (waits.map (·.2))

/-- LMWAIT_WAKE (R205): the monitor has fired. -/
def execLmwaitWake (core slot lane : Nat) (s : State) : Host.Outcome State Fault Refusal :=
  let r : LaneRef := ⟨slot, lane⟩
  let l := s.lane core r
  match l.block, l.lmon with
  | .lmwait d _ _, .fired => .next ((endLmwait s core r d true).onLane core r Lane.next)
  | _, _ => .next s

/-- LMWAIT_TIMEOUT (R205): the limit has passed, and the monitor has not fired. -/
def execLmwaitTimeout (core slot lane : Nat) (s : State) : Host.Outcome State Fault Refusal :=
  let r : LaneRef := ⟨slot, lane⟩
  let l := s.lane core r
  match l.block, l.lmon with
  | .lmwait d since limit, .armed _ =>
    if limit != 0 && since + 2 * limit ≤ s.now then .next ((endLmwait s core r d false).onLane core r Lane.next) else .next s
  | _, _ => .next s

/-! ## HOMEOF -/

/-- What HOMEOF writes for a global address (R206). -/
def homeWord (s : State) (die asid va : Nat) : W32 :=
  match leafFor s die asid va with
  | none => 0xC0000000
  | some none => 0x40000000
  | some (some (e, level)) =>
    if bits e 2 1 == 0 then 0xC0000000
    else if pteTarget e == 1 || pteTarget e == 2 then 0x80000000
    else
      let pa := leafPa e level va
      BitVec.ofNat 32 (homeSlice pa + 2 ^ 8 * homeDie e pa + 2 ^ 16 * bits e 7 1)

/-- HOMEOF (R206). -/
def execHomeof (f : Form) (s : State) : Host.Outcome State Fault Refusal :=
  laneWord 0xE7 f s fun e l =>
    [.w32 f.d (homeWord e.s e.die (teamAsid e.s e.team) ((e.src64 l f.a .int).toNat % 2 ^ 56))]

end Sys2Proof.Machine
end

