-- ==== Sys2Proof/Machine/Start.lean ====
section
/-! DEFINITION. The start of commands: the die's dispatcher (R167, R225), what holds a start back (R216, R217), the checks and
reads made at the start (R215, R232, R260, R369, R382), and COMMAND_DISPATCH. -/

namespace Sys2Proof.Machine

/-! ## What holds a command back -/

def Ccr.acquires (r : Ccr) : Bool := r.order % 2 == 1
def Ccr.releases (r : Ccr) : Bool := r.order / 2 == 1

/-- The commands posted earlier to the same queue that are still there. -/
def earlier (s : State) (k : Nat) : List (Nat × Cmd) :=
  let c := s.cmd k
  s.cmds.filter fun e => e.1 < k && e.2.core == c.core && e.2.cls == c.cls && e.2.state != .malformed && e.2.state != .blocked &&
    e.2.state != .gone

/-- It has made all its reads (R216). -/
def Cmd.readsDone (c : Cmd) : Bool := c.state == .following || c.state == .recording

/-- Its writes, its follow-on's included, are done (R216). -/
def Cmd.writesDone (c : Cmd) : Bool :=
  c.state == .recording || (c.state == .following && !(c.ccr.follow && c.status == 0))

/-- An earlier command holds back no release of a later one: its writes are done, or it is suspended and the monitor posted the
later one. DEDUCED from R357, whose monitor's release completes beside the suspended command that it serves, in one queue
(log 29). -/
def Cmd.behind (later earlier : Cmd) : Bool := earlier.writesDone || (later.mon && earlier.state == .suspended)

/-- R214: a release of the poster's commands at .pod or .sys waits for acknowledgements. -/
def ackWait (s : State) (team scope : Nat) : Bool := scope ≥ 7 && unackedWrites s team

/-- A held write-back keeps back a release of the core (R180, R214). -/
def releaseHeld (s : State) (core team scope : Nat) : Bool :=
  scope ≥ 4 && ((dirtyLines s core (teamAsid s team)).any fun l => l.held.isSome)

/-- Nothing of R216, R217 or R353 holds back the start of a command. -/
def unheld (s : State) (k : Nat) : Bool :=
  let c := s.cmd k
  let r := c.ccr
  let es := earlier s k
  c.kind != cfenceKind && s.live c.team && !(s.team c.team).stopping &&
  !(c.cls == 0 && (s.team c.team).freeze.isSome) &&
  !(es.any fun e => e.2.kind == 11 || e.2.kind == cfenceKind) &&
  !(es.any fun e => e.2.ccr.acquires && !e.2.readsDone) &&
  (!r.releases || (es.all (fun e => c.behind e.2) && !ackWait s c.team r.scope && !releaseHeld s c.core c.team r.scope))

/-! ## Contexts -/

/-- A command stands in context x of a die: those of engine e are 8e to 8e + 7 (R225). -/
def contextTaken (s : State) (die x : Nat) : Bool := s.cmds.any fun e => e.2.engine == some x && e.2.die == die

/-- A free context of the lowest engine of the die that has one (R167, R225). -/
def freeEngine (s : State) (die : Nat) : Option Nat := (List.range 128).find? fun x => !contextTaken s die x

/-- A suspended command whose fault has been resumed (R337). -/
def resumable (s : State) (core cls : Nat) : Option Nat :=
  (s.cmds.find? fun e => e.2.core == core && e.2.cls == cls && e.2.state == .suspended && e.2.dock.isNone && e.2.halts.isEmpty && s.live e.2.team &&
    !(s.team e.2.team).stopping).map (·.1)

/-- The command of a core and class that may start now: one that resumes, or the head of the queue. -/
def startable (s : State) (core cls : Nat) : Option Nat :=
  match resumable s core cls with
  | some k => some k
  | none => match queueOf s core cls with
    | k :: _ => if unheld s k then some k else none
    | [] => none

/-- The cores of a die in the order in which a class serves them (R167). DESIGN CHOICE: a class that has served none begins with
core 0 (log 123). -/
def coreOrder (s : State) (die cls : Nat) : List Nat :=
  let last := tgetD (s.die die).rr cls 79
  (List.range 80).map fun i => 80 * die + (last + 1 + i) % 80

/-- What the dispatcher takes next (R167). -/
def pickStart (s : State) (die : Nat) : Option (Nat × Nat) :=
  ((List.range 4).filterMap fun cls => ((coreOrder s die cls).findSome? fun core => startable s core cls).map fun k => (cls, k)).head?

/-! ## Start checks -/

/-- The range of a cluster-peer side lies in the peer's scratchpad (R232). -/
def peerBad (s : State) (c : Cmd) (dest : Bool) : Bool :=
  let r := c.ccr
  let sp := if dest then r.dstSp else r.srcSp
  sp == 3 && (match peerTeam s c (r.peerAddr dest) with
    | none => true
    | some t => !s.live t || (c.peerTouches.filter fun x => x.dest == dest).any fun x =>
        x.addr < 0 || x.addr + x.len > ((teamPkt s t).scratch : Nat))

/-- The lowest code of R232, R310, R369 and R383 that applies at the start, but for COLL. -/
def startFault (s : State) (k : Nat) : Option Nat :=
  let c := s.cmd k
  let r := c.ccr
  let dst := r.dst % 2 ^ 56
  let src := r.src % 2 ^ 56
  let away (va : Nat) : Bool := match startTarget s k va with | some t => t == 1 || t == 2 | none => false
  let host (va : Nat) : Bool := startTarget s k va == some 2
  let tests : List (Nat × Bool) := [
    (0x0101, peerBad s c false || peerBad s c true),
    (0x0103, (r.kind == 7 || r.kind == 8 || r.kind == 13) && away dst),
    (0x0104, !r.tabled && (((r.kind == 1 || r.kind == 3) && r.dstSp == 0 && (r.redop != 0 || r.sibling) && host dst) ||
      (r.kind == 6 && host dst) || (r.kind == 2 && r.sibling && host src))),
    (0x0105, (r.tabled && (let d := if r.kind == 2 then src else dst; away d || d % 64 != 0)) || (r.kind == 13 && dst % 64 != 0)),
    (0x0109, r.kind == 8 && r.subop == 1 && !c.mon)]
  (tests.find? (·.2)).map (·.1)

/-! ## The accession entry -/

/-- The bounding range of two ranges given by first byte and end. -/
def hull (a : Option (Int × Int)) (lo hi : Int) : Option (Int × Int) :=
  match a with
  | none => some (lo, hi)
  | some (l, h) => some (if lo < l then lo else l, if h < hi then hi else h)

/-- The touches of element n with its row resolved; none where the row cannot be read. -/
def elemTouches (s : State) (k n : Nat) : Option (List Touch) :=
  let r := (s.cmd k).ccr
  match rowAt s k (if r.rows then n / r.boxTotal else 0) with
  | .ok ra _ => some (r.touches n ra)
  | .stop _ => none

/-- The pieces of global memory that a command's elements write, by first byte and length (R215). -/
def destPieces (s : State) (k : Nat) : List (Int × Nat) :=
  let c := s.cmd k
  let r := c.ccr
  let dst : Int := (r.dst % 2 ^ 56 : Nat)
  match r.kind with
  | 8 =>
    let cell := match startLeaf s k (r.dst % 2 ^ 56) with
      | some e => if pteSibling e then tabCell s (tableOf s (c.asid s) e) else 32
      | none => 32
    if r.subop == 1 then [] else (List.range r.count).map fun i => (dst + (i * cell : Nat), cell)
  | 13 => [(dst, 24)]
  | 10 => match collSlot s c with
    | none => []
    | some slot => match rankOf s slot c.die with
      | none => []
      | some rank =>
        let g := (s.comm slot).group r.repl rank
        (List.range (r.dstBlocks g.length ((indexFrom rank 0 g).getD 0))).map fun i => (dst + (i * r.blockLen : Nat), r.blockLen)
  | _ =>
    if r.dstSp != 0 || r.kind > 6 then []
    else (List.range r.total).flatMap fun n => ((elemTouches s k n).getD []).filterMap fun t =>
      if t.dest && t.sp == 0 then some (t.addr, t.len) else none

/-- The bounding range of the destination bytes of a command (R215). -/
def destRange (s : State) (k : Nat) : Option (Int × Int) :=
  (destPieces s k).foldl (fun acc p => if p.2 == 0 then acc else hull acc p.1 (p.1 + p.2)) none

/-- A byte of a piece may lie in this package's HBM: its page does, or has no readable leaf yet. -/
def pieceHere (s : State) (k : Nat) (p : Int × Nat) : Bool :=
  let lo := (p.1 % ((2 ^ 56 : Nat) : Int)).toNat
  p.2 != 0 && (List.range ((lo + p.2 - 1) / 65536 + 1 - lo / 65536)).any fun i =>
    match startTarget s k (max lo ((lo / 65536 + i) * 65536) % 2 ^ 56) with
    | some t => t == 0 || t == 3
    | none => true

/-- The engine appends the bounding range of the destination, when any of that is memory of the package (R215). -/
def appendRange (s : State) (k : Nat) : State :=
  let c := s.cmd k
  match destRange s k with
  | none => s
  | some (lo, hi) =>
    let n := (hi - lo).toNat
    if c.ccr.tabled || (destPieces s k).any (pieceHere s k) then
      let ctx := teamCtx s c.team
      let s := s.onCmd k fun c => { c with accFirst := some (c.accFirst.getD (s.ctx ctx).accHead) }
      accAppendRange s ctx c.die c.core c.cls (n / (2 ^ 32 - 1) + 1) (lo % (2 ^ 56 : Nat)).toNat n
    else s

/-! ## The start -/

/-- The reads and checks of a command that starts for the first time (R48, R215, R216, R232, R369). -/
def beginCmd (s : State) (k : Nat) : State :=
  let c := s.cmd k
  let r := c.ccr
  let s := if r.acquires then fenceAcquire s c.core c.team (max 2 r.scope) else s
  if r.kind == 10 then
    let s := startColl s k
    if (s.cmd k).state == .running && (s.cmd k).collSeq.isSome then appendRange s k else s
  else match startFault s k with
    | some code => refuseCmd s k code
    | none =>
      let s := if r.moves && r.scaleMode == 2 then
          -- behind the pushes that reach the ring in the same cycle (R48)
          (s.inOrder (ringOrder c.team r.ring) ringRead).onCmd k fun c =>
            { c with scale := derivedScale r.dstFmt (teamRing s c.team r.ring).max }
        else s
      if r.tabled then s else appendRange s k

/-- The claims of a command that has started on a cluster peer's scratchpad: taken at its start, or once there is room for them
(R249, R260). -/
def claimPeers (s : State) (k : Nat) : State :=
  let c := s.cmd k
  if c.state != .running || c.peerClaimed || !(c.ccr.srcSp == 3 || c.ccr.dstSp == 3) || c.kind > 5 then s
  else match takePeerClaims s k with
    | none => s
    | some s => s.onCmd k fun c => { c with peerClaimed := true }

/-- A command is placed in a context (R167, R216); a resumed one goes on where it stood (R337). -/
def placeCmd (s : State) (k e : Nat) : State :=
  let c := s.cmd k
  let go (s : State) : State := s.onCmd k fun c => { c with state := .running, engine := some e }
  if c.state == .suspended then go s
  else
    let (held, bad, s) := if c.ccr.releases && c.ccr.scope ≥ 4 then writeBackAll s c.core (dirtyLines s c.core (c.asid s)) else ([], [], s)
    let s := resolveBad s c.core bad
    -- a write-back that a fault holds keeps the command in its queue
    if !s.live c.team || !held.isEmpty then s
    else
      let s := if c.ccr.releases then fenceRelease s c.core c.team c.ccr.scope else s
      let s := go (unqueue s k)
      let s := s.onCmd k fun c => { c with started := s.now + 1 }
      -- one that was saved keeps what it read at its start (R344, R345); the bytes that it has still to write are appended anew
      if c.started == 0 then claimPeers (beginCmd s k) k
      -- a collective that was ended while its command was saved (R378)
      else if c.kind == 10 && c.status == 6 then endEarly s k 6
      else
        -- a collective goes on once no other member is suspended (R378)
        let s := if c.halts.isEmpty then s else s.onCmd k fun c => { c with state := .suspended, engine := none }
        claimPeers (if c.accFirst.isSome || c.ccr.tabled then s else appendRange s k) k

/-- COMMAND_DISPATCH (R167). -/
def execCommandDispatch (die : Nat) (s : State) : Host.Outcome State Fault Refusal :=
  match pickStart s die, freeEngine s die with
  | some (cls, k), some e =>
    let core := (s.cmd k).core
    .next (placeCmd (s.onDie die fun d => { d with rr := tset d.rr cls (core % 80) }) k e)
  | _, _ => .next s

/-! ## Tables and cluster peers -/

/-- Key of doubleword i of a version block among a command's peer reads. -/
def blockKey (i : Nat) : Nat := 2 ^ 40 + i

/-- How many doublewords the version block has, once its header is known (R381). -/
def Cmd.blockDws (c : Cmd) : Nat := if c.block.isEmpty then 2 else 2 + 2 * min 256 (bits (c.block.getD 0 0) 16 9)

/-- The version block is read once, doubleword by doubleword (R382). -/
def readBlock : Nat → State → Nat → Perf
  | 0, s, _ => .ok s
  | n + 1, s, k =>
    let c := s.cmd k
    if c.block.length ≥ c.blockDws then .ok s
    else
      let base := match c.table with | some (b, _, _) => b | none => 0
      match readGlobal s k (blockKey c.block.length) (base + 8 * c.block.length) 8 with
      | .ok x s => readBlock n (s.onCmd k fun c => { c with block := c.block ++ [BitVec.ofNat 64 x] }) k
      | .stop p => p

/-- Every rule of R381 holds, and the command may use a table of this mode (R382). -/
def blockOk (s : State) (c : Cmd) : Bool :=
  let h0 := c.block.getD 0 0
  let h1 := c.block.getD 1 0
  let mode := bits h0 0 2
  let n := bits h0 16 9
  let rows := bits h1 0 32
  let e0 (i : Nat) : W64 := c.block.getD (2 + 2 * i) 0
  let e1 (i : Nat) : W64 := c.block.getD (3 + 2 * i) 0
  let first (i : Nat) : Nat := bits (e0 i) 0 32
  let cnt (i : Nat) : Nat := bits (e0 i) 32 32
  let plain := bits h0 2 14 == 0 && bits h0 25 39 == 0 && bits h1 32 32 == 0 && 1 ≤ n && n ≤ 256 &&
    (List.range n).all fun i => 1 ≤ cnt i && bits (e1 i) 56 8 == 0
  let base := match c.table with | some (b, _, _) => b | none => 0
  let shape := match mode with
    | 0 => (List.range n).all fun i => first i + cnt i ≤ (if i + 1 == n then rows else first (i + 1))
    | 1 => n == 8 && (List.range n).all fun i => first i == 0 && cnt i == rows
    | 2 => s.pkgNum < n && (List.range n).all fun i => first i == 0 && cnt i == rows
    | _ => false
  base != 0 && base % 64 == 0 && plain && shape && (mode == 0 || (c.kind == 2 && !c.ccr.sibling))

/-- The read of a table descriptor: BASE and GEN, and HOLDS raised, as one event at its home (R380, R382). -/
def readDescriptor (s : State) (k : Nat) : Perf :=
  let c := s.cmd k
  let va := (if c.kind == 2 then c.ccr.src else c.ccr.dst) % 2 ^ 56
  match translateCmd s k va false with
  | (.hbm pa e, s) =>
    let s := if pteSibling e then s else homeFirst s c.die (pa / 128)
    if pteSibling e then .fatal 0x0206 va true s
    else if s.hbmPoison.contains (pa / 128) then .fatal 0x0207 va false s
    else
      let base := bits (memDw s.hbm pa) 0 56
      let gen := bits (memDw s.hbm (pa + 16)) 0 32
      let s := homeWrite s (pa + 8) (leBytes 4 ((bits (memDw s.hbm (pa + 8)) 0 32 + 1) % 2 ^ 32))
      .ok (s.onCmd k fun c => { c with table := some (base, gen, pa) })
  | (.absent, s) => .absent va false s
  | (.bad code, s) => .fatal code va false s
  | (.peer _, s) | (.host _ _, s) => .fatal 0x0105 va false s

/-- The table of a command that names one (R382): a block that breaks R381 refuses it, and its hold ends with it. -/
def readTable (s : State) (k : Nat) : Perf :=
  let c := s.cmd k
  let p : Perf := if c.table.isSome then .ok s else readDescriptor s k
  match p with
  | .ok s =>
    let base := match (s.cmd k).table with | some (b, _, _) => b | none => 0
    let fail (s : State) : Perf := .ok (refuseCmd (releaseHold s k) k 0x0106)
    if base == 0 || base % 64 != 0 then fail s
    else match readBlock 514 s k with
      | .ok s =>
        if !blockOk s (s.cmd k) then fail s
        else
          let s := s.onCmd k fun c => { c with ready := true }
          .ok (if c.els == 0 && c.ahead.isEmpty then appendRange s k else s)
      | p => p
  | p => p

/-- What a started command does before its first element: claims on a cluster peer that have waited for room, and its table
(R260, R382). -/
def makeReady (s : State) (k : Nat) : Perf :=
  let s := claimPeers s k
  let c := s.cmd k
  if (c.ccr.srcSp == 3 || c.ccr.dstSp == 3) && c.kind ≤ 5 && !c.peerClaimed then .wait s
  else if c.ready then .ok s
  else if c.ccr.tabled then readTable s k
  else .ok (s.onCmd k fun c => { c with ready := true })

end Sys2Proof.Machine
end

