-- ==== Sys2Proof/Machine/Elements.lean ====
section
/-! DEFINITION. The elements of copy commands as events (R233 to R246, R307 to R310, R383), and WATCH (R219, R244). -/

namespace Sys2Proof.Machine

/-! ## Elements out of order -/

/-- Two touches meet in a byte of one space, or of one side's memory. -/
def Touch.meets (a b : Touch) : Bool := a.sp == b.sp && a.addr < b.addr + b.len && b.addr < a.addr + a.len

/-- The translation of a global side is passed, and kept for the command (R336); none where it must wait its turn. -/
def passTouch (k : Nat) (acc : Option State) (t : Touch) : Option State :=
  match acc with
  | none => none
  | some s =>
    if t.sp != 0 then (if t.sp == 3 then none else some s)
    else
      let va := (t.addr % (2 ^ 56 : Nat)).toNat
      let c := s.cmd k
      match translateCmd s k va t.dest with
      | (.hbm _ e, s) | (.host _ e, s) =>
        -- pages whose elements come in order, and those that fail it (R223, R232)
        if t.dest && pteSibling e then none
        else if pteTso e || (t.dest && (c.ccr.redop != 0 || c.kind == 6) && pteTarget e == 2) then none
        else if (c.leased s.now va).isSome then some s
        else match leaseOf s c.die (c.asid s) va with
          | some l => some (s.onCmd k fun c => { c with passed := l :: c.passed.filter fun x => x.vpage != l.vpage })
          | none => none
      | _ => none

/-- An element beyond the next may be performed: no unperformed element below it touches a common byte, and every one
translates (R233, R336). -/
def aheadOk (s : State) (k n : Nat) : Option State :=
  let c := s.cmd k
  let r := c.ccr
  if r.kind > 6 || r.sibling || r.mxDst || (r.round == 2 && !r.identity) || n ≥ r.total || c.ahead.contains n then none
  else match elemTouches s k n with
    | none => none
    | some mine =>
      let below := (List.range (n - c.els)).filterMap fun i => if c.ahead.contains (c.els + i) then none else some (c.els + i)
      (below.foldl (fun acc i =>
        match acc with
        | none => none
        | some s => match elemTouches s k i with
          | none => none
          | some ts => if ts.any fun t => mine.any t.meets then none else ts.foldl (passTouch k) (some s)) (some s)).bind
        fun s => mine.foldl (passTouch k) (some s)

/-- The kinds that a pre-emption lets run to completion: COLL, RECON, FENCE, LAUNCH, TSWAP (R345). -/
def runsSaved (kind : Nat) : Bool := [8, 10, 11, 12, 13].contains kind

/-- The 4 KiB blocks that an element's source and destination lie in (R345). -/
def elemBlocks (s : State) (k n : Nat) : List (Bool × Nat × Int) :=
  ((elemTouches s k n).getD []).map fun t => (t.dest, t.sp, t.addr / 4096)

/-- The team of a command is being pre-empted, and the command is of a kind that stops (R345). -/
def stopping (s : State) (c : Cmd) : Bool := (s.team c.team).stopping && !runsSaved c.kind

/-- A command of a team that is being pre-empted stops before an element, once no element beyond it has been performed (R233,
R345). -/
def stopsAt (s : State) (k n : Nat) : Bool :=
  let c := s.cmd k
  stopping s c && c.ahead.isEmpty && (n == 0 || elemBlocks s k n != elemBlocks s k (n - 1))

/-! ## The sharing of an engine -/

/-- A command that takes its share of its engine: one that moves elements and has not just been found waiting (R167). -/
def wantsShare (s : State) (x : Nat × Cmd) : Bool :=
  let c := x.2
  c.state == .running && ([1, 2, 3, 4, 5, 6, 9].contains c.kind || (c.kind == 8 && c.ccr.subop != 1)) &&
    (s.live c.team || ((s.team c.team).status == .saved && runsSaved c.kind)) && c.stall != s.now + 1 && !stopsAt s x.1 c.els

/-- The commands with which a command shares its engine now. -/
def sharers (s : State) (k : Nat) : List Cmd :=
  let c := s.cmd k
  (s.cmds.filter fun x => x.1 != k && x.2.die == c.die && x.2.engine.map (· / 8) == c.engine.map (· / 8) && wantsShare s x).map (·.2)

/-- What an engine served last in a class, and the bytes of that turn. -/
def shareOf (s : State) (c : Cmd) (x : Nat) : Nat × Nat := tgetD (s.die c.die).shares (4 * (x / 8) + c.cls) (x, 0)

/-- It is the command's turn on its engine: no lower class wants a share, and in its class the turns of 128 bytes go round
(R167). -/
def sharesTurn (s : State) (k : Nat) : Bool :=
  let c := s.cmd k
  match c.engine with
  | none => true
  | some x =>
    let others := sharers s k
    let peers := (others.filter fun y => y.cls == c.cls).map fun y => y.engine.getD 0
    let (h, used) := shareOf s c x
    let after (y : Nat) : Nat := (y + 127 - h) % 128
    others.all (fun y => c.cls ≤ y.cls) &&
      (peers.isEmpty || (if h == x then used < 128 else !(peers.contains h && used < 128) && peers.all fun y => after x < after y))

/-- The bytes of an element count for the turn; a line of a CACHE counts 128 (R167, R246). -/
def tookShare (s : State) (k : Nat) (t : State) : State :=
  let c := s.cmd k
  match c.engine with
  | none => t
  | some x =>
    let (h, used) := shareOf s c x
    let n := if c.kind == 9 then 128 else ((t.cmd k).bytes - c.bytes) / 2
    t.onDie c.die fun d => { d with
      shares := tset d.shares (4 * (x / 8) + c.cls) (x, if h == x && used < 128 then used + n else n) }

/-- What becomes of a command after its turn. -/
def served (s : State) (k : Nat) (p : Perf) : State :=
  match p with
  | .wait t => t.onCmd k fun c => { c with stall := t.now + 1 }
  | p => tookShare s k (afterPerf k p)

/-! ## Elements as events -/

/-- An element whose source alone is read in this event: a number behind the elements names it (R208). -/
def takenElem (r : Ccr) (n : Nat) : Option Nat :=
  if r.moves && !r.sibling && !r.mxDst && r.total ≤ n && n < 2 * r.total then some (n - r.total) else none

/-- One element of a command: the next in order, or one beyond it (R233). An element's read may come as an event before the one of
its write (R208). -/
def elementEvent (kind : Nat) (perform : State → Nat → Nat → Perf) (k m : Nat) (s : State) : Host.Outcome State Fault Refusal :=
  let c := s.cmd k
  let n := (takenElem c.ccr m).getD m
  let perform := if (takenElem c.ccr m).isSome then takeElement else perform
  if (tget s.cmds k).isNone || c.kind != kind || c.state != .running ||
    !(s.live c.team || ((s.team c.team).status == .saved && runsSaved c.kind)) || stopsAt s k c.els || !sharesTurn s k || !engineTurn s c.ccr then .next s
  else match makeReady s k with
    | .ok s =>
      let c := s.cmd k
      if c.state != .running then .next s
      else if c.els ≥ c.ccr.total then .next (settleCmd s k)
      else if (c.limit.map fun m => decide (n ≥ m)) == some true then .next (settleCmd s k)
      else if n == c.els then .next (served s k (perform s k n))
      else if n < c.els || !c.unacked.isEmpty || (stopping s c && !c.ahead.any (n < ·)) then .next s
      else match aheadOk s k n with
        | none => .next s
        | some s1 => match perform s1 k n with
          | .ok s2 | .wait s2 => .next (tookShare s1 k s2)
          | _ => .next s
    | p => .next (served s k p)

/-- TCOPY (R235). -/
def execTcopy (cmd elem : Nat) (s : State) : Host.Outcome State Fault Refusal := elementEvent 1 moveElement cmd elem s

/-- GATHER (R239): by elements, or with SIBLING by rows (R305). -/
def execGather (cmd elem : Nat) (s : State) : Host.Outcome State Fault Refusal :=
  elementEvent 2 (fun s k n =>
    let r := (s.cmd k).ccr
    if r.sibling then gatherRow s k (n / r.boxTotal) else moveElement s k n) cmd elem s

/-- SCATTER (R240): by elements, or with SIBLING by rows (R303). -/
def execScatter (cmd elem : Nat) (s : State) : Host.Outcome State Fault Refusal :=
  elementEvent 3 (fun s k n =>
    let r := (s.cmd k).ccr
    if r.sibling then scatterRow s k (n / r.boxTotal) else moveElement s k n) cmd elem s

/-- CONV (R241). -/
def execConv (cmd elem : Nat) (s : State) : Host.Outcome State Fault Refusal := elementEvent 4 moveElement cmd elem s

/-- FILL (R242). -/
def execFill (cmd elem : Nat) (s : State) : Host.Outcome State Fault Refusal := elementEvent 5 moveElement cmd elem s

/-- ATOM (R243). -/
def execAtom (cmd elem : Nat) (s : State) : Host.Outcome State Fault Refusal := elementEvent 6 atomElement cmd elem s

/-! ## RECON -/

/-- The size of a RECON's cells, that of its first cell's table, once it has performed one (R308). A command posted again by
CRESUME.rec looks it up anew (R344). -/
def reconSize (s : State) (k n : Nat) : Got :=
  let c := s.cmd k
  let va := c.ccr.dst % 2 ^ 56
  if n == 0 || c.value != 0 then .ok c.value.toNat s
  else match translateCmd s k va true with
    | (.hbm _ e, s) => .ok (tabCell s (tableOf s (c.asid s) e)) s
    | (.absent, s) => .stop (.absent va true s)
    | (.bad code, s) => .stop (.fatal code va true s)
    | (.peer _, s) | (.host _ _, s) => .stop (.fatal 0x0103 va true s)

/-- One cell of a RECON, held at its home as one event (R245, R307, R308). -/
def reconElement (s : State) (k n : Nat) : Perf :=
  match reconSize s k n with
  | .stop p => p
  | .ok cell0 s =>
    let c := s.cmd k
    let r := c.ccr
    let va := (r.dst + n * cell0) % 2 ^ 56
    match translateCmd s k va true with
    | (.hbm pa e, s) =>
      let tab := tableOf s (c.asid s) e
      let cell := tabCell s tab
      if !pteSibling e || !cellStart s tab va || (n != 0 && cell != cell0) then .fatal 0x0205 va true s
      else if s.hbmPoison.contains (pa / 128) || s.hbmPoison.contains ((pa + cell - 1) / 128) then .fatal 0x0207 va false s
      else
        let s := reconCell s (homeDie e pa) tab pa r.redop r.dstFmt
        .ok (s.onCmd k fun c => { c with els := n + 1, bytes := c.bytes + 2 * cell, value := BitVec.ofNat 64 cell })
    | (.absent, s) => .absent va true s
    | (.bad code, s) => .fatal code va true s
    | (.peer _, s) | (.host _ _, s) => .fatal 0x0103 va true s

/-- RECON of a cell (R307). -/
def execRecon (cmd elem : Nat) (s : State) : Host.Outcome State Fault Refusal :=
  let c := s.cmd cmd
  if c.ccr.subop == 1 || elem != c.els then .next s
  else if c.kind != 8 || c.state != .running then .next s
  else if c.els ≥ c.ccr.total || c.limit.isSome then .next (settleCmd s cmd)
  else if !sharesTurn s cmd then .next s
  else .next (served s cmd (reconElement s cmd elem))

/-- RECON_EPOCH_ADVANCE (R309, R310). -/
def execReconEpochAdvance (cmd : Nat) (s : State) : Host.Outcome State Fault Refusal :=
  let c := s.cmd cmd
  if c.kind != 8 || c.state != .running || c.ccr.subop != 1 then .next s
  else
    let va := c.ccr.dst % 2 ^ 56
    .next (afterPerf cmd (match translateCmd s cmd va false with
      | (.hbm _ e, s) =>
        if !pteSibling e then .fatal 0x0205 va true s
        else
          let (n, s) := advanceEpoch s (tableOf s (c.asid s) e)
          .ok (s.onCmd cmd fun c => { c with els := 1, value := n.zeroExtend 64 })
      | (.absent, s) => .absent va false s
      | (.bad code, s) => .fatal code va false s
      | (.peer _, s) | (.host _ _, s) => .fatal 0x0103 va false s))

/-! ## CACHE -/

/-- Dirty bytes of a home line are in HBM (R246). -/
def cleanHome (s : State) (line : Nat) : State := { s with l2Dirty := s.l2Dirty.filter fun e => e.1 / 128 != line }

/-- Dirty bytes of a home line are dropped: what HBM holds beneath is read again. The line may have been replaced
before, and then nothing is left to drop (R246). -/
def discardHome (s : State) (line : Nat) : State :=
  let under := s.l2Dirty.filter fun e => e.1 / 128 == line
  if s.flip (6000 + line) then cleanHome s line
  else cleanHome { s with hbm := under.foldl (fun m e => memWrite m e.1 e.2) s.hbm } line

/-- One line of a CACHE command at its die (R246). -/
def cacheLine (s : State) (die home line op : Nat) (inside : Bool) : State :=
  if op == 3 then (l2Read s die home line).2.2
  else if home == die then (if op == 2 && inside then discardHome s line else cleanHome s line)
  else match findLoan s die line with
    | none => s
    | some l =>
      if op == 2 && inside then dropLoan s die line
      else
        let s := returnLoan s die l
        if op == 0 then s else dropLoan s die line

/-- Element n of a CACHE command; a line that is absent or homed elsewhere is skipped, and counts no element (R246, R306). -/
def cacheElement (s : State) (k n : Nat) : Perf :=
  let c := s.cmd k
  let r := c.ccr
  let lo := r.dst % 2 ^ 56
  let va := lo / 128 * 128 + 128 * n
  let skip (s : State) : Perf := .ok (s.onCmd k fun c => { c with els := n + 1, padded := c.padded + 1 })
  match translateCmd s k (va % 2 ^ 56) false with
  | (.hbm pa e, s) =>
    let s := if pteSibling e then s
      else cacheLine s c.die (homeDie e pa) (pa / 128) r.subop (lo ≤ va && va + 128 ≤ lo + r.count)
    .ok (s.onCmd k fun c => { c with els := n + 1 })
  | (.absent, s) | (.peer _, s) | (.host _ _, s) => skip s
  | (.bad code, s) => .fatal code va false s

/-- CACHE (R246): its lines in address order. -/
def execCache (cmd elem : Nat) (s : State) : Host.Outcome State Fault Refusal :=
  if elem != (s.cmd cmd).els then .next s else elementEvent 9 cacheElement cmd elem s

/-! ## TSWAP -/

/-- The exchange of a descriptor's version, as one event at its home (R248, R383). -/
def swapTable (s : State) (k : Nat) : Perf :=
  let c := s.cmd k
  let va := c.ccr.dst % 2 ^ 56
  match translateCmd s k va true with
  | (.hbm pa e, s) =>
    let s := if pteSibling e then s else homeFirst s c.die (pa / 128)
    if pteSibling e then .fatal 0x0206 va true s
    else if s.hbmPoison.contains (pa / 128) then .fatal 0x0207 va true s
    else
      let old := memDw s.hbm pa
      let d1 := memDw s.hbm (pa + 8)
      let d2 := memDw s.hbm (pa + 16)
      let holds := (bits d1 32 32 + bits d1 0 32) % 2 ^ 32
      let s := homeWrite s pa (leBytes 8 c.ccr.aux ++ leBytes 4 0 ++ leBytes 4 holds ++ leBytes 4 ((bits d2 0 32 + 1) % 2 ^ 32))
      .ok (s.onCmd k fun c => { c with els := 1, value := old })
  | (.absent, s) => .absent va true s
  | (.bad code, s) => .fatal code va true s
  | (.peer _, s) | (.host _ _, s) => .fatal 0x0103 va true s

/-- TSWAP (R383). -/
def execTswap (cmd : Nat) (s : State) : Host.Outcome State Fault Refusal :=
  let c := s.cmd cmd
  if c.kind != 13 || c.state != .running then .next s
  else if c.limit.isSome then .next (settleCmd s cmd)
  else .next (afterPerf cmd (swapTable s cmd))

/-! ## WATCH -/

/-- The watched word. -/
def watchWord (s : State) (c : Cmd) (pa : Nat) : W64 := BitVec.ofNat 64 (leNat (memReads s.hbm pa (watchWidth c / 8)))

/-- Entries in use in the watch table of the home slice of an address on a die (R244). -/
def watchEntries (s : State) (home pa : Nat) : Nat :=
  (s.cmds.filter fun x => x.2.kind == 7 && x.2.state == .armed && x.2.watchDie == home && homeSlice x.2.bytes == homeSlice pa).length

/-- A WATCH checks its condition and arms itself, as one event at the home (R219, R244). -/
def armWatch (s : State) (k : Nat) : Perf :=
  let c := s.cmd k
  let r := c.ccr
  let va := r.dst % 2 ^ 56
  match translateCmd s k va false with
  | (.hbm pa e, s) =>
    let s := if pteSibling e then s else homeFirst s c.die (pa / 128)
    if s.hbmPoison.contains (pa / 128) then .fatal 0x0207 va false s
    else
      let x := watchWord s c pa
      if watchCond r.redop (watchWidth c) x (c.dws.getD 3 0) then
        .ok (s.onCmd k fun c => { c with state := .following, status := 0, els := 1, value := x })
      else if watchEntries s (homeDie e pa) pa ≥ 64 then .wait s
      else .ok (s.onCmd k fun c => { c with
        state := .armed, engine := none, bytes := pa, watchDie := homeDie e pa, value := x, limit := none, armedAt := s.now })
  | (.absent, s) => .absent va false s
  | (.bad code, s) => .fatal code va false s
  | (.peer _, s) | (.host _ _, s) => .fatal 0x0103 va false s

/-- WATCH (R244). -/
def execWatch (cmd : Nat) (s : State) : Host.Outcome State Fault Refusal :=
  let c := s.cmd cmd
  if c.kind != 7 || c.state != .running || !s.live c.team then .next s
  else match armWatch s cmd with
    | .ok s => .next s
    | p => .next (afterPerf cmd p)

/-- WATCH_SATISFIED (R219): a write reached the home after which the condition held. -/
def execWatchSatisfied (cmd : Nat) (s : State) : Host.Outcome State Fault Refusal :=
  let c := s.cmd cmd
  if c.kind == 7 && c.state == .armed && c.limit.isSome then
    .next (s.onCmd cmd fun c => { c with state := .following, status := 0, els := 1 })
  else .next s

/-- WATCH_TIMEOUT (R244): COUNT µs have passed since arming. -/
def execWatchTimeout (cmd : Nat) (s : State) : Host.Outcome State Fault Refusal :=
  let c := s.cmd cmd
  if c.kind == 7 && c.state == .armed && c.limit.isNone && c.ccr.count != 0 && c.armedAt + c.ccr.count * ecPerUs ≤ s.now then
    .next (s.onCmd cmd fun c => { c with state := .following, status := 6, els := 0 })
  else .next s

end Sys2Proof.Machine
end

