-- ==== Sys2Proof/Machine/Complete.lean ====
section
/-! DEFINITION. The completion of commands (R217, R251 to R254, R266, R285): queue fences, follow-ons, completion records and
rings, and slips. Completions take the second half of an ac cycle, behind the words of the cycle (R256). -/

namespace Sys2Proof.Machine

/-! ## Records -/

/-- ec cycles from start to completion, saturating (R253). -/
def Cmd.cyclesAt (c : Cmd) (now : Nat) : Nat := if c.started == 0 then 0 else min (now + 1 - c.started + c.cycles0) (2 ^ 32 - 1)

/-- BYTES of the record (R244, R248, R253, R310). -/
def Cmd.bytesField (c : Cmd) : Nat :=
  if c.state == .malformed then 0
  else if c.kind == 7 || c.kind == 13 || (c.kind == 8 && c.ccr.subop == 1) then c.value.toNat
  else c.bytes / 2

/-- ELEMENTS, but for the lines that a CACHE skipped (R246, R253). -/
def Cmd.elementsField (c : Cmd) : Nat := if c.kind == 9 then c.els - c.padded else c.els

/-- The completion record (R253). -/
def Cmd.record (c : Cmd) (now : Nat) : List Byte :=
  leBytes 2 c.status ++ leBytes 2 c.fault ++ leBytes 4 c.elementsField ++ leBytes 8 c.bytesField ++
  leBytes 4 (if c.kind == 9 then 0 else c.padded) ++ leBytes 4 c.sibfail ++ leBytes 4 (c.cyclesAt now) ++ leBytes 4 0

/-- A ring entry (R265). -/
def Cmd.ringEntry (c : Cmd) (now : Nat) : List Byte :=
  c.record now ++ leBytes 4 c.ticket.toNat ++ leBytes 4 c.ccrAddr ++ leBytes 1 c.kind ++ leBytes 1 (c.slip.getD 0xFF) ++
  leBytes 1 c.cls ++ List.replicate 21 0

/-- A ring holds SIZE unconsumed entries (R266). -/
def CRing.full (r : CRing) : Bool := r.size != 0 && (r.head - r.tail).toNat ≥ r.size

/-- An entry written to a ring (R265, R267). -/
def putRing (s : State) (t i : Nat) (e : List Byte) (scope : Nat) : State :=
  let r := tgetD (s.team t).crings i default
  if r.size == 0 then s
  else
    let s := scratchWrite s t (r.base + 64 * (r.head.toNat % r.size)) e
    s.onTeam t fun x => { x with
      crings := tset x.crings i { r with head := r.head + 1, scopes := r.scopes ++ [scope] } }

/-- Does a malformed record's own REC_ADDR fail its check (R231)? -/
def recordAsked (s : State) (c : Cmd) : Bool :=
  c.kind != cfenceKind && c.ccr.recEn && !(c.state == .malformed && c.ccr.recBad (teamPkt s c.team) (s.team c.team))

/-- Step 3 of R252: none where a ring has no room (R266). -/
def writeRecord (s : State) (k : Nat) : Option State :=
  let c := s.cmd k
  let r := c.ccr
  if !recordAsked s c then some s
  else if r.recAddr % 2 == 1 then
    let i := r.recAddr / 2 % 8
    if (tgetD (s.team c.team).crings i default).full then none
    else some (putRing s c.team i (c.ringEntry s.now) r.scope)
  else some (scratchWrite s c.team r.recAddr (c.record s.now))

/-! ## The last step -/

/-- A COLL that took a sequence number leaves its STATUS with the die (R379). -/
def noteColl (s : State) (c : Cmd) : State :=
  match c.kind == 10, c.collSeq, collSlot s c with
  | true, some _, some slot => s.onCommDie c.die slot fun x => { x with last := c.status }
  | _, _, _ => s

/-- Step 4 of R252: the claims and any table hold end, and the slip is set as a release at SCOPE (R213, R214, R382). -/
def finishCmd (s : State) (k : Nat) : State :=
  let c := s.cmd k
  let s := noteColl (releaseHold (releaseClaims s k) k) c
  -- a MALFORMED record has no SCOPE to release at; a LAUNCH that ran and was refused has (R166, R231)
  let s := if c.status != 1 || c.started != 0 then fenceRelease s c.core c.team c.ccr.scope else s
  let s := completeSlip s c.team c.slip c.ccr.scope
  { s with cmds := tdel s.cmds k, peerOut := s.peerOut.filter fun o => o.cmd != k }

/-- Steps 3 and 4 of R252, or the wait for room in a ring (R266). -/
def completeCmd (s : State) (k : Nat) : State :=
  match writeRecord s k with
  | some s => finishCmd s k
  | none => s.onCmd k fun c => { c with state := .recording }

/-- The follow-on is not wanted, or has left the matrix queue (R251, R285). -/
def followDone (s : State) (c : Cmd) : Bool :=
  !(c.ccr.follow && c.status == 0) ||
  (match c.follow with | some id => !((s.core c.core).mat.any fun m => m.id == id) | none => false)

/-- COMMAND_COMPLETE (R252). -/
def execCommandComplete (cmd : Nat) (s : State) : Host.Outcome State Fault Refusal :=
  let c := s.cmd cmd
  if (tget s.cmds cmd).isSome && c.state == .following && s.live c.team && s.lateHalf && followDone s c then
    .next (completeCmd s cmd)
  else .next s

/-- RING_RECORD_RESUME (R266): a RINGACK has made room. -/
def execRingRecordResume (cmd : Nat) (s : State) : Host.Outcome State Fault Refusal :=
  let c := s.cmd cmd
  if (tget s.cmds cmd).isSome && c.state == .recording && s.live c.team && s.lateHalf then .next (completeCmd s cmd) else .next s

/-- MALFORMED_COMPLETE (R231): in the cycle after the CPOST. -/
def execMalformedComplete (cmd : Nat) (s : State) : Host.Outcome State Fault Refusal :=
  let c := s.cmd cmd
  if (tget s.cmds cmd).isSome && c.state == .malformed && s.live c.team && s.lateHalf && c.armedAt / 2 < s.now / 2 then
    .next (completeCmd s cmd)
  else .next s

/-! ## Queue fences -/

/-- FENCE_COMMAND (R217, R248, R261): a FENCE that has started, or a CFENCE at the head of its queue, completes when every
command posted earlier has; its release comes first. -/
def execFenceCommand (cmd : Nat) (s : State) : Host.Outcome State Fault Refusal :=
  let c := s.cmd cmd
  let scope := c.ccr.scope
  let fence := c.kind == 11 && c.state == .running
  let cfence := c.kind == cfenceKind && c.state == .queued && (queueOf s c.core c.cls).head? == some cmd && s.live c.team
  if !(fence || cfence) || !(earlier s cmd).isEmpty || ackWait s c.team scope || releaseHeld s c.core c.team scope || (cfence && !s.lateHalf)
  then .next s
  else
    let (held, bad, s) := if scope ≥ 4 then writeBackAll s c.core (dirtyLines s c.core (c.asid s)) else ([], [], s)
    let s := resolveBad s c.core bad
    if (tget s.cmds cmd).isNone || !held.isEmpty then .next s
    else
      let s := fenceRelease s c.core c.team scope
      if fence then .next (endEarly s cmd 0)
      else
        let s := unqueue s cmd
        let s := completeSlip s c.team c.slip scope
        .next { s with cmds := tdel s.cmds cmd }

/-! ## Follow-ons -/

/-- FOLLOW_ON_HANDOVER (R251, R278, R285): the command has landed; its operation joins the matrix queue when there is room, behind
the words of the cycle and in the order of engines and contexts. -/
def execFollowOnHandover (cmd : Nat) (s : State) : Host.Outcome State Fault Refusal :=
  let c := s.cmd cmd
  if (tget s.cmds cmd).isSome && c.state == .following && c.status == 0 && c.ccr.follow && c.follow.isNone && s.live c.team && s.lateHalf &&
      (matrixWaits s c.core).isEmpty && (s.core c.core).mat.length < 32 then
    let (id, s) := (s.inOrder (matrixOrder c.core) (c.engine.getD 0)).freshId c.core
    let m := c.ccr.mcmd
    let op : MatOp := { (default : MatOp) with
      id := id, stamp := (followStamp (s.core c.core) cmd).getD id, team := c.team, dw0 := c.dws.getD 28 0, dw1 := c.dws.getD 29 0, op := m.op, cmd := some cmd, gen := c.postGen }
    let s := s.onCore c.core fun x => { x with
      mat := x.mat ++ [op]
      claims := x.claims.map fun y => if y.matrix && y.owner == followOwner cmd then { y with owner := id } else y }
    .next (s.onCmd cmd fun c => { c with follow := some id, engine := none })
  else .next s

end Sys2Proof.Machine
end

