-- ==== Sys2Proof/Machine/Slips.lean ====
section
/-! DEFINITION. The slip instructions (R255, R256, R264) and completion rings (R265 to R267). -/

namespace Sys2Proof.Machine

/-! ## Conditions -/

/-- The slips of a mask that the team has declared (R264). -/
def maskSlips (s : State) (t : Nat) (mask : W64) : List Nat := (List.range (teamPkt s t).slips).filter fun k => mask.getLsbD k

/-- What a wait on slips finds: the lowest SET slip, or all of them SET; a return at once without its condition; or
nothing yet (R264). -/
inductive SlipTest where
  | holds (acquired : List Nat) (value : W32)
  | fails
  | waits
  deriving DecidableEq, Repr

def testSlips (s : State) (t : Nat) (mask : W64) (all : Bool) : SlipTest :=
  let ks := maskSlips s t mask
  let st (k : Nat) : Slip := teamSlip s t k
  if all then
    if ks.all fun k => st k == .set then .holds ks 1
    else if ks.any fun k => st k == .clear then .fails
    else .waits
  else match ks.find? fun k => st k == .set with
    | some k => .holds [k] (BitVec.ofNat 32 k)
    | none => if ks.any fun k => st k == .pending then .waits else .fails

/-- The acquire of slips' settings, at the widest of their scopes (R213, R214). -/
def acquireSlips (s : State) (core t : Nat) (ks : List Nat) : State :=
  fenceAcquire s core t (ks.foldl (fun m k => max m (tgetD (s.team t).slipScope k 0)) 0)

def clearSlips (s : State) (t : Nat) (ks : List Nat) : State := ks.foldl (fun s k => setSlip s t k .clear) s

/-- What a word that waits on slips writes: a slip number, or a predicate (R264). -/
def slipResult (d : Opnd) (all bounded holds : Bool) (value : W32) : Wr :=
  if all || bounded then .pr d holds else .w32 d (if holds then value else 0xFFFFFFFF)

/-! ## Waiting words -/

/-- SWAITANY, SWAITALL and STRY at issue (R264). -/
def slipWord (opc : Nat) (f : Form) (s : State) (all clr bounded : Bool) : Host.Outcome State Fault Refusal :=
  runWord opc f s fun e =>
    let t := e.team
    let mask := e.src64 e.first f.a .int
    match testSlips e.s t mask all with
    | .holds ks v =>
      let s := acquireSlips e.s e.core t ks
      let s := if clr then clearSlips s t ks else s
      .done (e.results opc f s fun _ => [slipResult f.d all bounded true v]) []
    | .fails => .done (e.results opc f e.s fun _ => [slipResult f.d all bounded false 0]) []
    | .waits =>
      let lanes := e.act.map (·.2)
      .done (blockWord (keepOutcome e opc f e.s) e.core lanes (.slips mask all clr bounded) f.d .nul) lanes

/-- SWAITANY (R264). -/
def execSwaitany (f : Form) (s : State) : Host.Outcome State Fault Refusal := slipWord 0xB4 f s false (f.mod.getLsbD 0) false
/-- SWAITALL (R264). -/
def execSwaitall (f : Form) (s : State) : Host.Outcome State Fault Refusal := slipWord 0xB5 f s true (f.mod.getLsbD 0) false
/-- STRY (R264). -/
def execStry (f : Form) (s : State) : Host.Outcome State Fault Refusal := slipWord 0xB7 f s (f.mod.getLsbD 0) false true

/-- The results of a blocked word in its lanes, and their return (R130, R131). -/
def returnWait (s : State) (core : Nat) (w : Wait) (x : Wr) : State :=
  let first := w.lanes.headD ⟨0, 0⟩
  let ds := w.lanes.flatMap fun r => x.dests r (r == first)
  finishWait (forEach ds s fun s d => d.write s core) core w

/-- The team of a blocked word. -/
def Wait.team (s : State) (core : Nat) (w : Wait) : Nat := (s.wave core w.slot).team

/-- The acquire of a ring entry at the SCOPE of its command; one of a malformed record acts at .team (R267). -/
def acquireEntry (s : State) (core t i : Nat) : State :=
  let sc := (tgetD (s.team t).crings i default).scopes.headD 0
  if sc > 8 then s else fenceAcquire s core t sc

/-- The address of a ring's oldest unconsumed entry (R265, R267). -/
def ringHead (s : State) (t i : Nat) : Option W32 :=
  let r := tgetD (s.team t).crings i default
  if r.size == 0 || r.head == r.tail then none else some (BitVec.ofNat 32 (r.base + 64 * (r.tail.toNat % r.size)))

/-- SLIP_WAIT_RETURN (R264): a wait on slips, or on a ring (R267), whose condition holds returns, in a cycle after the
completion (R256). -/
def execSlipWaitReturn (core _slot bid : Nat) (s : State) : Host.Outcome State Fault Refusal :=
  if s.lateHalf then .next s
  else match (s.core core).findWait bid with
    | none => .next s
    | some w =>
      let t := w.team s core
      match w.kind with
      | .slips mask all clr bounded => match testSlips s t mask all with
        | .holds ks v =>
          let s := acquireSlips s core t ks
          let s := if clr then clearSlips s t ks else s
          .next (returnWait s core w (slipResult w.d all bounded true v))
        | _ => .next s
      | .ring i _ => match ringHead s t i with
        | some a => .next (returnWait (acquireEntry s core t i) core w (.w32 w.d a))
        | none => .next s
      | _ => .next s

/-- STRY_TIMEOUT (R264): 1,024 cycles have passed and the condition does not hold. -/
def execStryTimeout (core _slot bid : Nat) (s : State) : Host.Outcome State Fault Refusal :=
  match (s.core core).findWait bid with
  | none => .next s
  | some w => match w.kind with
    | .slips mask all _ true =>
      let holds := match testSlips s (w.team s core) mask all with | .holds _ _ => true | _ => false
      if w.since + 2048 ≤ s.now && !holds then .next (returnWait s core w (.pr w.d false)) else .next s
    | _ => .next s

/-! ## The other slip instructions -/

/-- SFIND (R264). -/
def execSfind (f : Form) (s : State) : Host.Outcome State Fault Refusal :=
  runWord 0xB6 f s fun e =>
    let t := e.team
    match testSlips e.s t (e.src64 e.first f.a .int) false with
    | .holds ks v =>
      let s := acquireSlips e.s e.core t ks
      let s := if f.mod.getLsbD 0 then clearSlips s t ks else s
      .done (e.results 0xB6 f s fun _ => [.w32 f.d v]) []
    | _ => .done (e.results 0xB6 f e.s fun _ => [.w32 f.d 0xFFFFFFFF]) []

/-- SCLR (R264). -/
def execSclr (f : Form) (s : State) : Host.Outcome State Fault Refusal :=
  runWord 0xB8 f s fun e =>
    let t := e.team
    let ks := (maskSlips e.s t (e.src64 e.first f.a .int)).filter fun k => teamSlip e.s t k == .set
    .done (clearSlips e.s t ks) []

/-- The slips in a state, as a number (R264). -/
def slipBits (s : State) (t : Nat) (x : Slip) : Nat :=
  (List.range (teamPkt s t).slips).foldl (fun m k => if teamSlip s t k == x then m + 2 ^ k else m) 0

/-- SREAD (R264): MOD[0] .hi, MOD[1] .pend. -/
def execSread (f : Form) (s : State) : Host.Outcome State Fault Refusal :=
  runWord 0xB9 f s fun e =>
    let m := slipBits e.s e.team (if f.mod.getLsbD 1 then .pending else .set)
    let x : W32 := BitVec.ofNat 32 (if f.mod.getLsbD 0 then m / 2 ^ 32 else m)
    .done (e.results 0xB9 f e.s fun _ => [.w32 f.d x]) []

/-! ## Completion rings -/

def ringNo (f : Form) : Nat := (f.mod.extractLsb' 0 3).toNat

/-- RINGWAIT (R267). -/
def execRingwait (f : Form) (s : State) : Host.Outcome State Fault Refusal :=
  runWord 0xBA f s fun e =>
    let t := e.team
    let i := ringNo f
    let put (s : State) (x : W32) : State :=
      forEach ({ e with nb := none }.dests fun _ => [.w32 f.d x]) s fun s d => d.write s e.core
    match ringHead e.s t i with
    | some a => .done (put (acquireEntry e.s e.core t i) a) []
    | none =>
      if (tgetD (e.s.team t).crings i default).size == 0 then .done (put e.s 0xFFFFFFFF) []
      else
        let lanes := e.act.map (·.2)
        .done (blockWord e.s e.core lanes (.ring i (e.src e.first f.a .int).toNat) f.d .nul) lanes

/-- RINGWAIT_TIMEOUT (R267): the limit has run out, and no entry has come. -/
def execRingwaitTimeout (core _slot bid : Nat) (s : State) : Host.Outcome State Fault Refusal :=
  match (s.core core).findWait bid with
  | none => .next s
  | some w => match w.kind with
    | .ring i limit =>
      if limit != 0 && w.since + 2 * limit ≤ s.now && (ringHead s (w.team s core) i).isNone then
        .next (returnWait s core w (.w32 w.d 0xFFFFFFFF))
      else .next s
    | _ => .next s

/-- RINGACK (R267). -/
def execRingack (f : Form) (s : State) : Host.Outcome State Fault Refusal :=
  runWord 0xBB f s fun e =>
    let t := e.team
    let i := ringNo f
    let r := tgetD (e.s.team t).crings i default
    let n := min (e.src e.first f.a .int).toNat (r.head - r.tail).toNat
    .done (e.s.onTeam t fun x => { x with
      crings := tset x.crings i { r with tail := r.tail + BitVec.ofNat 32 n, scopes := r.scopes.drop n } }) []

/-- A SIZE that RINGACK.init takes (R267). -/
def ringSizeOk (n : Nat) : Bool := n == 0 || (1 ≤ n.log2 && n.log2 ≤ 10 && n == 2 ^ n.log2)

/-- RINGACK.init (R267). -/
def execRingackInit (f : Form) (s : State) : Host.Outcome State Fault Refusal :=
  runWord 0xBB f s fun e =>
    let l := e.first
    let base := (e.src l f.a .int).toNat
    let size := (e.b l f .int).toNat
    if !ringSizeOk size || (size != 0 && base + 64 * size > e.pkt.scratch) then .trap 0x03 [l.2] fun _ => BitVec.ofNat 32 base
    else if base % 64 != 0 then .trap 0x04 [l.2] fun _ => BitVec.ofNat 32 base
    else .done (e.s.onTeam e.team fun x => { x with
      crings := tset x.crings (ringNo f) { base := base, size := size, head := 0, tail := 0, scopes := [] } }) []

end Sys2Proof.Machine
end

