-- ==== Sys2Proof/Machine/Queues.lean ====
section
/-! DEFINITION. The queue instructions (R268, R269) and their blocked words. -/

namespace Sys2Proof.Machine

/-! ## Pushing -/

/-- The entry that lanes 0 to 15 of a register hold, whatever their state, read as BCAST reads (R95, R269). -/
def pushEntry (s : State) (core slot reg : Nat) : List Byte :=
  wordBytes ((List.range 16).map fun i => readHeld s core ⟨slot, i⟩ reg)

/-- The number and policy that the hardware stamps into an action (R321). -/
def stampAction (s : State) (k : Carrel) (e : List Byte) : List Byte :=
  leBytes 4 k.nextAction.toNat ++ leBytes 2 (effPolver s k.rcb) ++ e.drop 6

/-- What a push comes to (R269, R320). -/
inductive Pushed where
  /-- it completes: taken, or discarded by an ended episode -/
  | done (taken : Bool) (s : State)
  /-- the mailbox is full, or a fault holds a write-back that its release needs (R214) -/
  | blocked (s : State)
  /-- the release's write-back has ended the team (R180) -/
  | dead (s : State)

/-- A push of an action: a release confined to the arena, then the append (R221, R269, R321). -/
def pushAction (s : State) (core t die c : Nat) (e : List Byte) : Pushed :=
  let k := s.carrel die c
  if k.state != .running then .done false s
  else if k.actions.length ≥ mbxSize then .blocked s
  else
    let ls := (dirtyLines s core k.asid).filter fun l => lineIn k.arena k.arenaLen l.line
    let (held, bad, s) := writeBackAll s core ls
    let s := resolveBad s core bad
    if !s.live t then .dead s
    else if !held.isEmpty then .blocked s
    else
      let s := releasePkg s (ctxOf s k.rcb) (dieOf core) core (some (arenaOf k))
      let x := stampAction s k e
      .done true (s.onCarrel die c fun k => { k with
        actions := k.actions ++ [x], nextAction := k.nextAction + 1 }.retime s.now)

/-- The outcome predicate of a non-blocking queue instruction, in every contributing lane (R63, R269). -/
def outcome (e : Env) (f : Form) (s : State) (long nb : Bool) (p : BitVec 3) (b : Bool) : State :=
  if nb then commit { e with s := s, nb := some (p, b) } long f fun _ => [] else s

def queueDesc (o : Opnd) : Nat × Bool × BitVec 3 := match o with | .q n nb p => (n.toNat, nb, p) | _ => (0, false, 0)

/-- QPUSH (R269). -/
def execQpush (f : Form) (s : State) : Host.Outcome State Fault Refusal :=
  runWord 0xBC f s fun e =>
    let lanes := e.act.map (·.2)
    let slot := e.first.2.slot
    let (n, nb, p) := queueDesc f.d
    match tget (e.s.wave e.core slot).q n with
    | none => .trap 0x01 lanes fun _ => 0
    | some b =>
      if !b.push then .trap 0x01 lanes fun _ => 0
      else
        let entry := pushEntry e.s e.core slot (quadReg f.a)
        match e.settled 0xBC f with
        | .error s => .stop s
        | .ok s =>
        match pushAction s e.core e.team b.die b.carrel entry with
        | .done taken s => .done (outcome e f s false nb p taken) []
        | .dead s => .stop s
        | .blocked s =>
          if nb then .done (outcome e f s false true p false) []
          else .done (blockWord s e.core lanes (.queuePush b.die b.carrel entry) .nul .nul) lanes

/-! ## Popping -/

/-- QPOP and QPEEK (R269). -/
def popWord (opc : Nat) (f : Form) (s : State) (peek : Bool) : Host.Outcome State Fault Refusal :=
  runWord opc f s fun e =>
    let lanes := e.act.map (·.2)
    let slot := e.first.2.slot
    let (n, nb, p) := queueDesc f.a
    match tget (e.s.wave e.core slot).q n with
    | none => .trap 0x01 lanes fun _ => 0
    | some b =>
      if b.push then .trap 0x01 lanes fun _ => 0
      else match observe (e.s.carrel b.die b.carrel) with
        | some x =>
          let ds := popDests e.s e.core slot (quadReg f.d) x
          let nbs := if nb then e.act.flatMap fun l => (Wr.pr (.p p) true).dests l.2 true else []
          let s := popObs e.s e.core b.die b.carrel peek
          if peek then .done (forEach (ds ++ nbs) s fun s d => d.write s e.core) []
          else .done (addPend s e.core f lanes (ds ++ nbs) [] [] 0).2 []
        | none =>
          if nb then .done (outcome e f e.s (!peek) true p false) []
          else .done (blockWord e.s e.core lanes (.queuePop b.die b.carrel (quadReg f.d) peek) .nul .nul) lanes

/-- QPOP (R269). -/
def execQpop (f : Form) (s : State) : Host.Outcome State Fault Refusal := popWord 0xBD f s false
/-- QPEEK (R269). -/
def execQpeek (f : Form) (s : State) : Host.Outcome State Fault Refusal := popWord 0xBE f s true

/-- QUEUE_ACCESS_RESUME (R269): a blocked access whose mailbox has gained an entry or room, or whose episode has ended. -/
def execQueueAccessResume (core _slot bid : Nat) (s : State) : Host.Outcome State Fault Refusal :=
  match (s.core core).findWait bid with
  | none => .next s
  | some w => match w.kind with
    | .queuePush die c x => match pushAction s core (w.team s core) die c x with
      | .done _ s => .next (finishWait s core w)
      | .blocked s | .dead s => .next s
    | .queuePop die c _ peek => match observe (s.carrel die c) with
      | some x => .next (deliverPop (popObs s core die c peek) core w x)
      | none => .next s
    | .queueSrc die c => match observe (s.carrel die c) with
      | some x => .next (deliverPop (popObs s core die c false) core w x)
      | none => .next s
    | _ => .next s

/-- QSTAT (R269). -/
def queueStatus (s : State) (core slot n : Nat) : W32 :=
  match tget (s.wave core slot).q n with
  | none => 0
  | some b =>
    let k := s.carrel b.die b.carrel
    let count := if b.push then k.actions.length else k.obs.length
    BitVec.ofNat 32 (count + 2 ^ 4 + (if b.push then 2 ^ 5 else 0) + (if k.state == .ended then 2 ^ 6 else 0))

/-- QSTAT (R269). -/
def execQstat (f : Form) (s : State) : Host.Outcome State Fault Refusal :=
  laneWord 0xBF f s fun e _ => [.w32 f.d (queueStatus e.s e.core e.first.2.slot (queueDesc f.a).1)]

end Sys2Proof.Machine
end

