-- ==== Sys2Proof/Machine/Reading.lean ====
section
/-! DEFINITION. The reading room: EPOPEN, EPCLOSE, EPSTAT, POLSET, MBXBIND and MBXREL (R314 to R322, R327), and the carrel extension
with its watchdog (R323 to R328). -/

namespace Sys2Proof.Machine

/-! ## Opening -/

/-- The rules of R314 on a record. -/
def episodeOk (d : List W64) : Bool :=
  let w (k : Nat) : W64 := d.getD k 0
  let any := bits (w 6) 10 1 == 1
  bits (w 0) 56 8 == 0 && bits (w 0) 0 16 == 0 &&
  bits (w 1) 40 24 == 0 && bits (w 1) 0 16 == 0 && bits (w 1) 0 32 ≤ 2 ^ 28 &&
  bits (w 2) 56 8 == 0 && bits (w 2) 0 16 == 0 &&
  bits (w 3) 0 12 == 0 && 4096 ≤ bits (w 3) 0 32 && bits (w 3) 0 32 ≤ 2 ^ 26 &&
  bits (w 3) 32 1 == 0 && bits (w 3) 32 32 < bits (w 3) 0 32 &&
  1 ≤ bits (w 4) 0 32 && 1 ≤ bits (w 4) 32 32 &&
  (!any || bits (w 6) 0 10 == 0) && bits (w 6) 12 52 == 0 && w 7 == 0

/-- A carrel that holds no episode. -/
def carrelFree (s : State) (die c : Nat) : Bool := !s.carrelsHeld && (s.carrel die c).state == .free

/-- The key slot of a record: 0 for the launch's own, or one its context owns (R314, R388). -/
def keySlotOk (s : State) (t slot : Nat) : Bool := ownsSlot s (teamCtx s t) slot

/-- The carrel as an open leaves it (R315, R317, R321). -/
def openCarrel (s : State) (t : Nat) (d : List W64) (gen : BitVec 15) : Carrel :=
  let w (k : Nat) : W64 := d.getD k 0
  let rcb := teamRcb s t
  let ver : W16 := BitVec.ofNat 16 (effPolver s rcb)
  let stateless := bits (w 6) 11 1 == 1
  let k : Carrel := { (default : Carrel) with
    gen := gen + 1, state := .running, launch := (s.team t).launch
    arena := bits (w 0) 0 56, arenaLen := bits (w 1) 0 32
    keyslot := if bits (w 1) 32 8 == 0 then effKeyslot s rcb else bits (w 1) 32 8
    image := bits (w 2) 0 56, imageLen := bits (w 3) 0 32, entry := bits (w 3) 32 32
    deadline := bits (w 4) 0 32, budget := bits (w 4) 32 32, arg := w 5, stateless := stateless
    asid := teamAsid s t, rcb := rcb, startVer := ver
    active := if stateless then none else some 0, activePol := ver, lastStep := 0, lastPol := ver
    nextAction := 1, openedAt := s.now }
  k.start.retime s.now

/-- EPOPEN of a checked address: d, and the state (R317). -/
def openEpisode (s : State) (t die : Nat) (d : List W64) : W32 × State :=
  let w6 := d.getD 6 0
  if !episodeOk d then (0x80000003, s)
  else if !keySlotOk s t (bits (d.getD 1 0) 32 8) then (0x80000004, s)
  else
    let any := bits w6 10 1 == 1
    let place : Option (Nat × Nat) :=
      if any then ((List.range 128).find? (carrelFree s die)).map fun c => (die, c)
      else if carrelFree s (bits w6 7 3) (bits w6 0 7) then some (bits w6 7 3, bits w6 0 7) else none
    match place with
    | none => (if any then 0x80000001 else 0x80000002, s)
    | some (dd, c) =>
      let k := openCarrel s t d (s.carrel dd c).gen
      let s := tagPages s k.asid k.keyslot k.arena k.arenaLen
      (BitVec.ofNat 32 (c + dd * 2 ^ 7 + k.gen.toNat * 2 ^ 16), s.onCarrel dd c fun _ => k)

/-- EPOPEN (R317): the opens of one cycle go by package core number, and one comes behind the loads before it (R26, R212). -/
def execEpopen (f : Form) (s : State) : Host.Outcome State Fault Refusal :=
  runWord 0xE0 f s fun e =>
    let l := e.first
    let t := e.team
    let a := (e.addr l f).toNat
    let lanes := e.act.map (·.2)
    match scratchOperand e.pkt a 64 64 with
    | some c => .trap c [l.2] fun _ => BitVec.ofNat 32 a
    | none =>
      if recordClaimed e.s e.core t a 64 then .done (blockRecord e 0xE0 f a 64) lanes
      else if scratchBad e.s t a 64 then .stop (terminateAccess e.s t 5 0x0207 a false)
      else
        match e.settled 0xE0 f with
        | .error s => .stop s
        | .ok s =>
          let (d, s) := openEpisode (s.inOrder episodeOrder e.core) t e.die (readDws s t a 8)
          .done (e.results 0xE0 f s fun _ => [.w32 f.d d]) []

/-! ## Handles -/

/-- The episode that a handle names for a launch (R316). -/
def episodeAt (s : State) (launch : Nat) (h : W32) : Option (Nat × Nat) :=
  let die := (h.extractLsb' 7 3).toNat
  let c := (h.extractLsb' 0 7).toNat
  let k := s.carrel die c
  if h.getLsbD 31 || h.extractLsb' 10 6 != 0 || k.state == .free || k.scrub.isSome || k.launch != launch ||
      k.gen != h.extractLsb' 16 15 then none
  else some (die, c)

def Env.launch (e : Env) : Nat := (e.s.team e.team).launch

/-- EPCLOSE (R318). -/
def execEpclose (f : Form) (s : State) : Host.Outcome State Fault Refusal :=
  runWord 0xE1 f s fun e =>
    match episodeAt e.s e.launch (e.src e.first f.a .int) with
    | none => .done (e.results 0xE1 f e.s fun _ => [.pr f.d false]) []
    | some (die, c) =>
      let (done, s) := closeEpisode e.s die c
      if done then .done (e.results 0xE1 f s fun _ => [.pr f.d true]) []
      else
        let lanes := e.act.map (·.2)
        .done (blockWord (keepOutcome e 0xE1 f s) e.core lanes (.close die c) f.d .nul) lanes

/-- What EPSTAT reads (R319). -/
def episodeStat (s : State) (launch : Nat) (h : W32) : W64 :=
  match episodeAt s launch h with
  | none => 0
  | some (die, c) =>
    let k := s.carrel die c
    BitVec.ofNat 64 ((if k.state == .running then 1 else 2) + 4 * (if k.state == .running then 0 else k.cause) +
      (if k.active.isSome then 32 else 0) + (if k.susp.isSome then 64 else 0) + 2 ^ 16 * k.startVer.toNat + 2 ^ 32 * k.step.toNat)

/-- EPSTAT (R319). -/
def execEpstat (f : Form) (s : State) : Host.Outcome State Fault Refusal :=
  laneWord 0xE2 f s fun e l => [.w64 f.d (episodeStat e.s e.launch (e.src l f.a .int))]

/-- POLSET (R327): MOD[0] .inc. -/
def execPolset (f : Form) (s : State) : Host.Outcome State Fault Refusal :=
  runWord 0xE3 f s fun e =>
    let rcb := teamRcb e.s e.team
    let x : W16 := if f.mod.getLsbD 0 then BitVec.ofNat 16 (effPolver e.s rcb) + 1 else (e.src e.first f.a .int).extractLsb' 0 16
    let s := homeWrite e.s (groupNode e.s 8 rcb + 34) (leBytes 2 x.toNat)
    .done (e.results 0xE3 f s fun _ => [.w32 f.d (x.zeroExtend 32)]) []

/-! ## Bindings -/

def freeQueue (s : State) (core slot n : Nat) : State := s.onWave core slot fun w => { w with q := tdel w.q n }

/-- The mailbox is bound to some queue register of the package (R322). -/
def mailboxBound (s : State) (die c : Nat) (push : Bool) : Bool :=
  let binds (w : Nat × Wave) : Bool := w.2.q.any fun b => b.2.die == die && b.2.carrel == c && b.2.push == push
  s.cores.any (fun x => x.2.waves.any binds) || s.teams.any fun x => x.2.savedWaves.any binds

/-- MBXBIND (R322): MOD[0] .obs. -/
def execMbxbind (f : Form) (s : State) : Host.Outcome State Fault Refusal :=
  runWord 0xE4 f s fun e =>
    let slot := e.first.2.slot
    let n := (queueDesc f.a).1
    let push := !f.mod.getLsbD 0
    let s := freeQueue e.s e.core slot n
    match episodeAt s e.launch (e.b e.first f .int) with
    | none => .done (e.results 0xE4 f s fun _ => [.pr f.d false]) []
    | some (die, c) =>
      if mailboxBound s die c push then .done (e.results 0xE4 f s fun _ => [.pr f.d false]) []
      else
        let b : QBind := { die := die, carrel := c, gen := (s.carrel die c).gen.toNat, push := push }
        let s := s.onWave e.core slot fun w => { w with q := tset w.q n b }
        .done (e.results 0xE4 f s fun _ => [.pr f.d true]) []

/-- MBXREL (R322). -/
def execMbxrel (f : Form) (s : State) : Host.Outcome State Fault Refusal :=
  runWord 0xE5 f s fun e => .done (freeQueue e.s e.core e.first.2.slot (queueDesc f.a).1) []

/-! ## The carrel extension -/

/-- The docket entry of a carrel (R313, R340). -/
def carrelEntry (s : State) (die c va : Nat) (write : Bool) : DockEntry :=
  let k := s.carrel die c
  { (default : DockEntry) with
    kind := 1, source := 3, addr := va, write := write, asid := k.asid, die := die, core := 0xFF, tslot := 0xFF, cls := 0xFF
    who := c, launch := (s.launch k.launch).id, rcb := rcbId s k.rcb }

/-- A carrel meets an absent page: it is suspended, with a docket entry (R313, R337). -/
def suspendCarrel (s : State) (die c va : Nat) (write : Bool) : State :=
  let (id, s) := dockFault s (ctxOf s (s.carrel die c).rcb) 0 (carrelEntry s die c va write)
  s.onCarrel die c fun k => { k with susp := some id }

/-- An exception ends the episode as FAULT (R315). -/
def raiseCarrel (s : State) (die c mcause : Nat) (mtval : W64) : State :=
  s.onCarrel die c fun k => k.faulted s.now (BitVec.ofNat 64 mcause) mtval k.pc

/-- The meaning of an instruction for the carrel that executes. -/
def hartWord (s : State) (body : Nat → Nat → State) : Host.Outcome State Fault Refusal :=
  match s.curCarrel with
  | none => .fault .noCarrel
  | some (die, c) => .next (body die c)

/-- A word of the carrel extension (R323). -/
def extWord (funct7 : Nat) (rd rs1 rs2 : BitVec 5) : W64 :=
  BitVec.ofNat 64 (funct7 * 2 ^ 25 + rs2.toNat * 2 ^ 20 + rs1.toNat * 2 ^ 15 + rd.toNat * 2 ^ 7 + 0x0B)

/-- A 64-byte buffer lies aligned in the carrel's ranges (R323). -/
def bufferOk (k : Carrel) (a : Nat) : Bool := a % 64 == 0 && hartPlace k a 64 != .none

/-- A buffer permits writes (R313, R323). -/
def bufferWrites (k : Carrel) (a : Nat) : Bool :=
  match hartPlace k a 64 with | .sram _ => true | .arena _ => !k.stateless | _ => false

/-- The acquire of a carrel, confined to the arena (R221). -/
def arenaAcquire (s : State) (die c : Nat) : State :=
  let k := s.carrel die c
  acquirePkg s (ctxOf s k.rcb) die (some (arenaOf k)) false

/-- The release of a carrel, confined to the arena (R221). -/
def arenaRelease (s : State) (die c : Nat) : State :=
  let k := s.carrel die c
  releasePkg s (ctxOf s k.rcb) die (80 * die) (some (arenaOf k))

/-- An action copied to the buffer, and what the carrel becomes (R324). -/
def takeAction (s : State) (die c a : Nat) (entry : List Byte) (after : Carrel → Carrel) : State :=
  match hartWrite s die c a entry with
  | .ok _ s => s.onCarrel die c fun k => ((after k).retire 4).retime s.now
  | .absent va s => suspendCarrel s die c va true
  | .fault va s => raiseCarrel s die c 7 (BitVec.ofNat 64 va)

/-- MBX_POP (R324). -/
def execMbxPop (rd rs1 rs2 : BitVec 5) (s : State) : Host.Outcome State Fault Refusal :=
  hartWord s fun die c =>
    let k := s.carrel die c
    let a := (k.xget rs1.toNat).toNat
    let flags := (k.xget rs2.toNat).toNat
    if flags > 1 || !bufferOk k a || k.active.isSome then raiseCarrel s die c 2 (extWord 1 rd rs1 rs2)
    else if !bufferWrites k a then raiseCarrel s die c 7 (BitVec.ofNat 64 a)
    else match k.actions with
      | x :: rest =>
        takeAction (arenaAcquire s die c) die c a x fun k =>
          { k with actions := rest, active := some (entryStep x), activePol := entryPol x }.xset rd.toNat ((entryStep x).zeroExtend 64)
      | [] =>
        if flags == 1 then s.onCarrel die c fun k => (k.xset rd.toNat (BitVec.allOnes 64)).retire 4
        else s.onCarrel die c fun k => { k with waiting := true }.retime s.now

/-- MBX_PEEK (R324). -/
def execMbxPeek (rd rs1 : BitVec 5) (s : State) : Host.Outcome State Fault Refusal :=
  hartWord s fun die c =>
    let k := s.carrel die c
    let a := (k.xget rs1.toNat).toNat
    if !bufferOk k a then raiseCarrel s die c 2 (extWord 2 rd rs1 0)
    else if !bufferWrites k a then raiseCarrel s die c 7 (BitVec.ofNat 64 a)
    else match k.actions with
      | x :: _ => takeAction s die c a x fun k => k.xset rd.toNat ((entryStep x).zeroExtend 64)
      | [] => s.onCarrel die c fun k => (k.xset rd.toNat (BitVec.allOnes 64)).retire 4

/-- The observation of step n, and what it makes of the episode (R321, R327, R328). -/
def postObservation (now polver stale : Nat) (cont : Bool) (k : Carrel) (n : W32) (e : List Byte) : Carrel :=
  let lagged := (BitVec.ofNat 16 polver - k.startVer).toNat > stale
  let status := if lagged && !cont then 3 else entryStatus e
  let flags := entryFlags e + (if lagged && cont then 2 else 0)
  let x := mbxEntry n k.activePol status flags (e.drop 8)
  let k := { k with
    obs := k.obs ++ [x], active := none, lastStep := n, lastPol := k.activePol, timer := 0, timerFrom := none, waiting := false }
  let k := k.retire 4
  if status == 3 then k.finish now 4 none
  else if status == 1 then k.finish now 1 none
  else if k.stateless then k.start.retime now
  else k.retime now

/-- MBX_PUSH and STEP_DONE (R324). -/
def pushObservation (s : State) (rs1 : BitVec 5) (done : Bool) : Host.Outcome State Fault Refusal :=
  hartWord s fun die c =>
    let k := s.carrel die c
    let a := (k.xget rs1.toNat).toNat
    let word := extWord (if done then 3 else 0) 0 rs1 0
    match k.active with
    | none => raiseCarrel s die c 2 word
    | some n =>
      if !bufferOk k a then raiseCarrel s die c 2 word
      else if k.obs.length ≥ mbxSize then s.onCarrel die c fun k => { k with waiting := true }.retime s.now
      else match hartRead s die c a 64 false with
        | .absent va s => suspendCarrel s die c va false
        | .fault va s => raiseCarrel s die c 5 (BitVec.ofNat 64 va)
        | .ok e s =>
          let s := if done then arenaRelease s die c else s
          if entryStatus e > 1 || entryFlags e / 2 % 4 != 0 then raiseCarrel s die c 2 word
          else s.onCarrel die c fun k =>
            postObservation s.now (effPolver s k.rcb) (effStale s k.rcb) (effCont s k.rcb) k n e

/-- MBX_PUSH (R324). -/
def execMbxPush (rs1 : BitVec 5) (s : State) : Host.Outcome State Fault Refusal := pushObservation s rs1 false
/-- STEP_DONE (R324). -/
def execStepDone (rs1 : BitVec 5) (s : State) : Host.Outcome State Fault Refusal := pushObservation s rs1 true

/-- ARENA_SYNC (R324). -/
def execArenaSync (rs1 : BitVec 5) (s : State) : Host.Outcome State Fault Refusal :=
  hartWord s fun die c =>
    let mode := ((s.carrel die c).xget rs1.toNat).toNat
    if mode > 2 then raiseCarrel s die c 2 (extWord 4 0 rs1 0)
    else
      let s := if mode != 1 then arenaRelease s die c else s
      let s := if mode != 0 then arenaAcquire s die c else s
      s.onCarrel die c fun k => k.retire 4

/-! ## Events of a carrel -/

/-- CARREL_WAIT_RESUME (R324): a carrel blocked on a mailbox may proceed; it executes its instruction again. -/
def execCarrelWaitResume (die carrel : Nat) (s : State) : Host.Outcome State Fault Refusal :=
  let k := s.carrel die carrel
  if k.state == .running && k.waiting && (if k.active.isSome then k.obs.length < mbxSize else !k.actions.isEmpty) then
    .next (s.onCarrel die carrel fun k => { k with waiting := false }.retime s.now)
  else .next s

/-- CARREL_EXCEPTION (R315): an instruction that is none, or a fetch that its ranges or its page do not permit. -/
def execCarrelException (die carrel : Nat) (s : State) : Host.Outcome State Fault Refusal :=
  if !(s.carrel die carrel).runs then .next s
  else match hartFetch s die carrel with
    | .word w _ s1 => if carrelOk w then .next s else .next (raiseCarrel s1 die carrel 2 (w.zeroExtend 64))
    | .absent _ _ => .next s
    | .fault a s1 => .next (raiseCarrel s1 die carrel 1 (BitVec.ofNat 64 a))

/-- CARREL_PAGE_FAULT (R313): a fetch meets an absent page. -/
def execCarrelPageFault (die carrel : Nat) (s : State) : Host.Outcome State Fault Refusal :=
  if !(s.carrel die carrel).runs then .next s
  else match hartFetch s die carrel with
    | .absent va s1 => .next (suspendCarrel s1 die carrel va false)
    | _ => .next s

/-- BUDGET ms have passed since the open (R325, R326). -/
def budgetOver (now : Nat) (k : Carrel) : Bool := decide (k.openedAt + k.budget * 1000 * ecPerUs < now)

/-- The step timer exceeded DEADLINE in an earlier cycle than that in which the time since the open exceeds BUDGET (R326). -/
def deadlineFirst (now : Nat) (k : Carrel) : Bool :=
  decide (k.deadline * ecPerUs < k.elapsed now) &&
    decide (now + k.deadline * ecPerUs < k.openedAt + k.budget * 1000 * ecPerUs + k.elapsed now)

/-- DEADLINE_TIMEOUT (R326): the step timer has exceeded DEADLINE µs. A push in the cycle of the expiry comes first, but for one that
is blocked on a full mailbox; a budget expiry of the same cycle takes its place. -/
def execDeadlineTimeout (die carrel : Nat) (s : State) : Host.Outcome State Fault Refusal :=
  let k := s.carrel die carrel
  if k.state == .running && (k.waiting || k.elapsed s.now > k.deadline * ecPerUs + 1) && deadlineFirst s.now k then
    .next (s.onCarrel die carrel fun k => k.timedOut s.now false)
  else .next s

/-- BUDGET_TIMEOUT (R326). -/
def execBudgetTimeout (die carrel : Nat) (s : State) : Host.Outcome State Fault Refusal :=
  let k := s.carrel die carrel
  if k.state == .running && budgetOver s.now k && !deadlineFirst s.now k then .next (s.onCarrel die carrel fun k => k.timedOut s.now true) else .next s

/-- HELD_OBSERVATION_POST (R326). -/
def execHeldObservationPost (die carrel : Nat) (s : State) : Host.Outcome State Fault Refusal :=
  let k := s.carrel die carrel
  match k.heldObs with
  | some e =>
    if k.obs.length < mbxSize then .next (s.onCarrel die carrel fun k => { k with obs := k.obs ++ [e], heldObs := none }) else .next s
  | none => .next s

end Sys2Proof.Machine
end

