-- ==== Sys2Proof/Machine/Matrix.lean ====
section
/-! DEFINITION. The matrix array (R271 to R291, R346, R347): claims on folios and tiles, the matrix queue, latches, streams,
drains and zeroings, accumulator accesses, and the delayed-scaling instructions. -/

namespace Sys2Proof.Machine

/-! ## Claims on folios and tiles -/

/-- A team that holds its resources on a core. -/
def holdsOn (core : Nat) (x : Team) : Bool :=
  x.core == core && (x.status == .resident || x.status == .frozen || x.reportHeld)

/-- A folio that no team holds and that is not being zeroed (R271). -/
def folioFree (s : State) (core k : Nat) : Bool :=
  !(s.core core).folioZero.contains k && !(s.teams.any fun e => holdsOn core e.2 && e.2.folios.contains k)

/-- A tile that no team holds and that is not being zeroed; another team's tag may be on it (R271, R346). -/
def tileFree (s : State) (core k : Nat) : Bool :=
  !(s.core core).tileZero.contains k && !(s.teams.any fun e => holdsOn core e.2 && e.2.tiles.contains k)

/-! ## Tiles under a tag -/

/-- A tile's elements as bytes, row-major, raw FP32 bits (R346, R347). -/
def tileBytes (c : Core) (k : Nat) : List Byte :=
  (List.range 65536).flatMap fun i => leBytes 4 (tgetD (tgetD c.tiles k []) i 0).toNat

/-- A tile's contents go to its owner's save area (R346): none where that has no room. -/
def spilled? (s : State) (core k : Nat) : Option State :=
  match tget (s.core core).tileTag k with
  | none => some s
  | some o => (saveSpot s o 262144).map fun at_ =>
    let bad := ((s.core core).tilePoison.filter fun l => l / 2048 == k).map fun l => (1, l)
    let s := savePut s o (saveVa s o at_) (tileBytes (s.core core) k)
    (s.onTeam o fun t => { t with savedTiles := tset t.savedTiles k at_, savedPoison := t.savedPoison ++ bad }).onCore core
      fun c => zeroTile c k

def spillTile (s : State) (core k : Nat) : State := (spilled? s core k).getD s

/-- Tiles that can be spilled one after the other. -/
def spillable : State → Nat → List Nat → List Nat
  | _, _, [] => []
  | s, core, k :: ks =>
    match spilled? s core k with
    | some s => k :: spillable s core ks
    | none => spillable s core ks

/-- The tiles in the order in which a claim takes them: free ones, then those under a tag (R346). -/
def tileOrder (s : State) (core : Nat) : List Nat :=
  let free := (List.range 4).filter (tileFree s core)
  let tagged (k : Nat) : Bool := (tget (s.core core).tileTag k).isSome
  free.filter (fun k => !tagged k) ++ spillable s core (free.filter tagged)

def bitSet (ks : List Nat) : Nat := ks.foldl (fun m k => m ||| 2 ^ k) 0

/-- The resources that a claim of n takes; none where it fails (R271). -/
def claimed? (free : List Nat) (n held limit : Nat) : Option (List Nat) :=
  if n == 0 || held + n > limit || free.length < n then none else some (free.take n)

/-- FCLAIM (R271). -/
def execFclaim (f : Form) (s : State) : Host.Outcome State Fault Refusal :=
  runWord 0xC0 f s fun e =>
    let n := (e.src e.first f.a .int).toNat
    let free := (List.range 64).filter (folioFree e.s e.core)
    match claimed? free n (e.s.team e.team).folios.length e.pkt.folios with
    | none => .done (e.results 0xC0 f e.s fun _ => [.w64 f.d 0, .pr f.c.opnd false]) []
    | some ks =>
      let s := e.s.onTeam e.team fun t => { t with folios := t.folios ++ ks }
      .done (e.results 0xC0 f s fun _ => [.w64 f.d (BitVec.ofNat 64 (bitSet ks)), .pr f.c.opnd true]) []

/-- ACLAIM (R271, R346). -/
def execAclaim (f : Form) (s : State) : Host.Outcome State Fault Refusal :=
  runWord 0xC2 f s fun e =>
    let n := (e.src e.first f.a .int).toNat
    match claimed? (tileOrder e.s e.core) n (e.s.team e.team).tiles.length e.pkt.accums with
    | none => .done (e.results 0xC2 f e.s fun _ => [.w32 f.d 0, .pr f.c.opnd false]) []
    | some ks =>
      let s := forEach ks e.s fun s k => spillTile s e.core k
      let s := s.onTeam e.team fun t => { t with tiles := t.tiles ++ ks }
      .done (e.results 0xC2 f s fun _ => [.w32 f.d (BitVec.ofNat 32 (bitSet ks)), .pr f.c.opnd true]) []

/-! ## Planes and latch claims -/

def Plane.has (p : Plane) (f : Nat) : Bool := p.folios.contains (some f)

/-- The latch claims that the planes no longer need end: those of completed latches over folios in no plane, and older
claims over the folios of the latch `op` (R274). -/
def dropLatches (s : State) (core t op : Nat) (new : List Nat) : State :=
  let x := s.team t
  let c := s.core core
  let pending (k : Claim) : Bool := k.owner ≥ 2 ^ 32 || c.mat.any fun m => m.id == k.owner
  let keep (k : Claim) : Bool :=
    !(k.latch && k.team == t) || pending k ||
    ((x.front.has (k.first / 129) || x.back.has (k.first / 129)) && (k.owner == op || !new.contains (k.first / 129)))
  s.onCore core fun c => { c with claims := c.claims.filter keep }

/-- A plane that holds a released folio becomes empty (R274). -/
def emptyPlanes (s : State) (core t : Nat) (fs : List Nat) : State :=
  let hit (p : Plane) : Bool := fs.any p.has
  let x := s.team t
  if hit x.front || hit x.back then
    let s := s.onTeam t fun x => { x with front := if hit x.front then default else x.front, back := if hit x.back then default else x.back }
    dropLatches s core t 0 []
  else s

/-- Folios that the team's releases before a place of the queue order name (R272, R274). -/
def releasedBefore (s : State) (core t id : Nat) : List Nat :=
  (s.core core).waits.flatMap fun w => match w.kind with
    | .release fs _ => if w.bid < id && (s.wave core w.slot).team == t then fs else []
    | _ => []

/-! ## Releases -/

/-- Operations of a team in the queue that were appended before a place of its order. -/
def opsBefore (s : State) (core t id : Nat) : List MatOp := (s.core core).mat.filter fun m => m.team == t && m.id < id

/-- The follow-ons of a team that have still to act: those not handed over, and those in the queue (R272, R285). -/
def pendingFollow (s : State) (core t : Nat) : List Mcmd :=
  (s.cmds.filterMap fun e =>
    if e.2.team == t && e.2.kind != cfenceKind && e.2.state != .malformed && e.2.ccr.follow && e.2.follow.isNone && e.2.status == 0
    then some e.2.ccr.mcmd else none) ++
  ((s.core core).mat.filter fun m => m.team == t && m.cmd.isSome).map (·.rec_)

/-- A store to a folio that the team issued before a place of its order is held by a claim (R194). DEDUCED: a release waits for
it too, since it precedes the release and the folio is another's after it (log 140). -/
def storesHeld (s : State) (core t bid k : Nat) : Bool :=
  (s.core core).waits.any fun w => match w.kind with
    | .claim accs => w.bid < bid && (s.wave core w.slot).team == t && accs.any fun a => a.space == 2 && a.addr / 16384 == k
    | _ => false

/-- An ACCRD or ACCWR of the team that was issued before a place of its order waits for that of its own (R286). -/
def accWaits (s : State) (core t bid tile : Nat) : Bool :=
  (s.core core).waits.any fun w => match w.kind with
    | .accum _ accs => w.bid < bid && (s.wave core w.slot).team == t && accs.any fun a => a.addr / 65536 == tile
    | _ => false

/-- Nothing names a released folio or tile any more (R272). -/
def releasable (s : State) (core t bid : Nat) (tile : Bool) (k : Nat) : Bool :=
  (opsBefore s core t bid).isEmpty && !(tile && accWaits s core t bid k) &&
  !((pendingFollow s core t).any fun m => if tile then m.op != 1 && m.tile == k else m.folios.contains k) &&
  (tile || !(storesHeld s core t bid k || (s.core core).claims.any fun c =>
    c.team == t && c.folio && !c.latch && decide (c.first ≤ k * 129 + 128) && decide (k * 129 ≤ c.last)))

/-- RESOURCE_ZERO (R272): the resource is zeroed and free; the release whose last it was is done. -/
def execResourceZero (core : Nat) (tile : Bool) (idx : Nat) (s : State) : Host.Outcome State Fault Refusal :=
  let mine (w : Wait) : Option (List Nat × List Nat) := match w.kind with
    | .release fs ts => if (if tile then ts else fs).contains idx then some (fs, ts) else none
    | _ => none
  match (s.core core).waits.find? fun w => (mine w).isSome with
  | none => .next s
  | some w =>
    let t := (s.wave core w.slot).team
    if !releasable s core t w.bid tile idx then .next s
    else
      let (fs, ts) := (mine w).getD ([], [])
      let s := if tile then s else emptyPlanes s core t [idx]
      let s := s.onCore core fun c =>
        if tile then { zeroTile c idx with tileZero := c.tileZero.filter (· != idx) }
        else { zeroFolio c idx with folioZero := c.folioZero.filter (· != idx) }
      let fs := if tile then fs else fs.filter (· != idx)
      let ts := if tile then ts.filter (· != idx) else ts
      .next (if fs.isEmpty && ts.isEmpty then finishWait s core w else setWait s core w.bid (.release fs ts))

/-- The members of a mask that a list holds, lowest first. -/
def maskHeld (m n : Nat) (held : List Nat) : List Nat := (List.range n).filter fun k => m / 2 ^ k % 2 == 1 && held.contains k

/-- FREL (R271, R272). -/
def execFrel (f : Form) (s : State) : Host.Outcome State Fault Refusal :=
  runWord 0xC1 f s fun e =>
    let t := e.team
    let ks := maskHeld (e.src64 e.first f.a .int).toNat 64 (e.s.team t).folios
    if ks.isEmpty then .done e.s []
    else
      let lanes := e.act.map (·.2)
      let s := e.s.onTeam t fun x => { x with folios := x.folios.filter fun k => !ks.contains k }
      let s := s.onCore e.core fun c => { c with folioZero := c.folioZero ++ ks }
      let s := blockWord s e.core lanes (.release ks []) .nul .nul
      let busy := (s.core e.core).mat.any fun m => m.team == t
      .done (if busy then s else emptyPlanes s e.core t ks) lanes

/-- AREL (R271, R272). -/
def execArel (f : Form) (s : State) : Host.Outcome State Fault Refusal :=
  runWord 0xC3 f s fun e =>
    let t := e.team
    let ks := maskHeld (e.src e.first f.a .int).toNat 4 (e.s.team t).tiles
    if ks.isEmpty then .done e.s []
    else
      let lanes := e.act.map (·.2)
      let s := e.s.onTeam t fun x => { x with tiles := x.tiles.filter fun k => !ks.contains k }
      let s := s.onCore e.core fun c => { c with tileZero := c.tileZero ++ ks }
      .done (blockWord s e.core lanes (.release [] ks) .nul .nul) lanes

/-! ## Folio and tile data -/

/-- The code of element k of a run of bytes in a format of R226 (R33). -/
def codeAt (byte : Nat → Byte) (fmt k : Nat) : Nat :=
  if fmt == 3 then (byte (k / 2)).toNat / (if k % 2 == 0 then 1 else 16) % 16
  else if fmt == 7 || fmt == 8 then (byte (2 * k)).toNat + 256 * (byte (2 * k + 1)).toNat
  else (byte k).toNat

/-- K of a format (R49): the elements in 96 bytes. -/
def kLen (fmt : Nat) : Nat := 768 / fmtBits fmt

def folioByte (c : Core) (f off : Nat) : Byte := memRead c.folio (f * 16384 + off)

/-- The byte of a block scale: row and block (R184). -/
def rowScale (c : Core) (f i b : Nat) : Byte := folioByte c f (12288 + 6 * i + b)

/-- A tile's element (R272): one that nothing has written reads +0. -/
def accAt (c : Core) (tile k : Nat) : W32 := tgetD (tgetD c.tiles tile []) k 0

def setAcc (c : Core) (tile k : Nat) (x : W32) : Core :=
  let t := tgetD c.tiles tile []
  { c with tiles := tset c.tiles tile (if x == 0 then tdel t k else tset t k x) }

/-- The 128-byte lines of accumulator rows, 32 elements each (R192). -/
def accLine (tile k : Nat) : Nat := (tile * 65536 + k) / 32

/-- Elements of a region, row by row with columns rising (R282): row, column, index in the tile. -/
def Mcmd.region (m : Mcmd) : List (Nat × Nat × Nat) :=
  (List.range m.nrows).flatMap fun i => (List.range m.ncols).map fun j =>
    (i, j, (m.row0 + i) * 512 + m.col0 + j)

/-- A poisoned line among the accumulator elements of a tile. -/
def accPoisoned (c : Core) (tile : Nat) (ks : List Nat) : Bool := ks.any fun k => c.tilePoison.contains (accLine tile k)

/-- A poisoned line among runs of folio bytes. -/
def folioPoisoned (c : Core) (rs : List (Nat × Nat)) : Bool :=
  rs.any fun r => (linesOf r.1 r.2).any c.folioPoison.contains

/-! ## The four operations -/

/-- What an operation comes to: the state after it, or the end of its team with a FAULT and a STATUS. -/
inductive OpEnd where
  | ok (s : State)
  | bad (fault status : Nat)
  deriving DecidableEq, Repr

/-- The plane that a latch reads from its folios (R280). -/
def latchedPlane (c : Core) (m : Mcmd) : Plane :=
  let quarter (q : Nat) : Option Nat := m.quarter q
  let cols := List.range 512
  let k := kLen m.fmt
  { fmt := m.fmt
    mx := m.flag 0
    folios := (List.range 4).map quarter
    elems := cols.flatMap fun j => match quarter (j / 128) with
      | none => []
      | some f => (List.range k).map fun i => (4096 * j + i, codeAt (fun b => folioByte c f (96 * (j % 128) + b)) m.fmt i)
    blks := if !m.flag 0 then [] else cols.flatMap fun j => match quarter (j / 128) with
      | none => []
      | some f => (List.range 6).map fun b => (8 * j + b, rowScale c f (j % 128) b)
    cols := cols.filterMap fun j => (quarter (j / 128)).map fun f =>
      (j, if m.flag 1 then folioByte c f (13056 + j % 128) else 0x7F) }

/-- LATCH (R280). -/
def performLatch (s : State) (core t : Nat) (op : MatOp) (m : Mcmd) : OpEnd :=
  let c := s.core core
  let area (f : Nat) : List (Nat × Nat) :=
    [(f * 16384, 12288)] ++ (if m.flag 0 then [(f * 16384 + 12288, 768)] else []) ++
      (if m.flag 1 then [(f * 16384 + 13056, 128)] else [])
  if folioPoisoned c (m.folios.flatMap area) then .bad 0x0207 9
  else
    let p := latchedPlane c m
    .ok (dropLatches (s.onTeam t fun x => { x with back := p }) core t op.id m.folios)

/-- The value of a weight of a plane (R280). -/
def Plane.weight (p : Plane) (k j : Nat) : Val :=
  match tget p.elems (4096 * j + k) with
  | none => .fin false 0 0
  | some c =>
    let v := (nfOfCcr p.fmt).decode c
    let v := if p.mx then v.mul (e8m0Val (tgetD p.blks (8 * j + k / 32) 0).toNat) else v
    v.mul (e8m0Val (tgetD p.cols j 0x7F).toNat)

/-- The value of an activation element (R281). -/
def activation (c : Core) (m : Mcmd) (i k : Nat) : Val :=
  let f := m.addr % 64
  let v := (nfOfCcr m.fmt).decode (codeAt (fun b => folioByte c f (96 * i + b)) m.fmt k)
  if m.flag 0 then v.mul (e8m0Val (rowScale c f i (k / 32)).toNat) else v

/-- The sum of one K-chunk (R49). -/
def chunkSum (c : Core) (m : Mcmd) (p : Plane) (i j : Nat) (acc : W32) : W32 :=
  BitVec.ofNat 32 (roundRne fp32 (sumExact false
    (f32 acc :: (List.range (kLen m.fmt)).map fun k => (activation c m i k).mul (p.weight k j))))

/-- The format pairs of R275. -/
def streamPair (act : Nat) (p : Plane) : Bool :=
  p.fmt == 0 || ((act == 1 || act == 2) && (p.fmt == 1 || p.fmt == 2 || p.fmt == 4)) ||
  ((act == 7 || act == 8) && (p.fmt == 7 || p.fmt == 8)) || (act == 3 && p.fmt == 3)

def swapPlanes (s : State) (t : Nat) : State := s.onTeam t fun x => { x with front := x.back, back := x.front }

/-- STREAM (R275, R281). -/
def performStream (s : State) (core t : Nat) (m : Mcmd) : OpEnd :=
  let s := if m.flag 1 then swapPlanes s t else s
  let p := (s.team t).front
  let c := s.core core
  let f := m.addr % 64
  let z := m.flag 2
  let rows := (List.range m.nrows).map (m.row0 + ·)
  let ks := rows.flatMap fun i => (List.range 512).map (i * 512 + ·)
  let reads := rows.flatMap fun i =>
    [(f * 16384 + 96 * i, 96)] ++ (if m.flag 0 then [(f * 16384 + 12288 + 6 * i, 6)] else [])
  if !streamPair m.fmt p then .bad 0x000E 1
  else if folioPoisoned c reads || (!z && accPoisoned c m.tile ks) then .bad 0x0207 9
  else
    let sums := ks.map fun k => (k, chunkSum c m p (k / 512) (k % 512) (if z then 0 else accAt c m.tile k))
    let c' := sums.foldl (fun c e => setAcc c m.tile e.1 e.2) c
    let c' := if z then { c' with tilePoison := c'.tilePoison.filter fun l => !ks.any fun k => accLine m.tile k == l } else c'
    .ok (countEv (s.onCore core fun _ => c') t 6 m.nrows)

/-- The converted elements of a drain's row, with the generator stepping once for each under RS (R41, R282). -/
def drainRowGo (m : Mcmd) (c : Core) (i : Nat) : List Nat → W32 → List Byte × W32
  | [], g => ([], g)
  | j :: js, g =>
    let g := if m.round == 2 then stepG g else g
    let x := f32 (accAt c m.tile ((m.row0 + i) * 512 + m.col0 + j))
    let code := convert (nfOfCcr m.fmt) (ccrRound m.round) (m.flag 0) g x
    let (bs, g') := drainRowGo m c i js g
    (leBytes (fmtBits m.fmt / 8) code ++ bs, g')

def drainRows (m : Mcmd) (c : Core) : List Nat → W32 → List (Nat × List Byte)
  | [], _ => []
  | i :: is, g =>
    let (bs, g') := drainRowGo m c i (List.range m.ncols) g
    ((m.drainRow i).1, bs) :: drainRows m c is g'

/-- The largest magnitude of a region, as a ring records it (R47, R282). -/
def regionMax (m : Mcmd) (c : Core) : W32 :=
  m.region.foldl (fun a e => maxW a (recordMax (f32 (accAt c m.tile e.2.2)).abs)) 0

/-- DRAIN (R282). -/
def performDrain (s : State) (core t : Nat) (op : MatOp) (m : Mcmd) : OpEnd :=
  let c := s.core core
  if accPoisoned c m.tile (m.region.map fun e => e.2.2) then .bad 0x0207 9
  else
    let s := forEach (drainRows m c (List.range m.nrows) op.gen) s fun s r =>
      if m.flag 4 then folioWrite s core r.1 r.2 else scratchWrite s t r.1 r.2
    .ok (if m.flag 3 then pushRing (s.inOrder (ringOrder t m.ring) drainPush) t m.ring (regionMax m c) else s)

/-- ZERO (R283). -/
def performZero (s : State) (core : Nat) (m : Mcmd) : OpEnd :=
  let ks := m.region.map fun e => e.2.2
  let whole (l : Nat) : Bool := (List.range 32).all fun i => ks.contains (l % 2048 * 32 + i)
  .ok (s.onCore core fun c =>
    let c := ks.foldl (fun c k => setAcc c m.tile k 0) c
    { c with tilePoison := c.tilePoison.filter fun l => !(l / 2048 == m.tile && whole l) })

/-! ## Accumulators in the save area -/

/-- The bytes of one global page moved between the die's L2 and a tile: none where it does not translate to this package's
HBM. -/
def savePlace (s : State) (core t va : Nat) (write : Bool) : Option (Nat × W64) × Nat × State :=
  match translateFor s t (dieOf core) (teamAsid s t) va write with
  | (.hbm pa e, s) => (some (pa, e), 0, s)
  | (.bad code, s) => (none, code, s)
  | (_, s) => (none, 0x0204, s)

/-- The rows of a tile that are still to move: each is 2,048 bytes (R347). -/
def moveTile (save : Bool) (core t : Nat) (op : MatOp) : List Nat → State → OpEnd
  | [], s => .ok s
  | i :: is, s =>
    match savePlace s core t (op.addr + 2048 * i) save with
    | (none, code, _) => .bad code 8
    | (some (pa, e), _, s) =>
      let c := s.core core
      let tile := op.rec_.tile
      let lines := List.range 16
      if save && pteSibling e then .bad 0x0206 8
      else if save then
        let bytes (l : Nat) : List Byte := (List.range 32).flatMap fun j => leBytes 4 (accAt c tile (512 * i + 32 * l + j)).toNat
        moveTile save core t op is (forEach lines s fun s l => l2Write s (dieOf core) (homeDie e pa) (pa + 128 * l) (bytes l))
      else
        let s := forEach lines s fun s l =>
          let (bs, bad, s) := readLine s (dieOf core) e (pa + 128 * l)
          let n := accLine tile (512 * i + 32 * l)
          let put (c : Core) : Core :=
            let c := (numbered (512 * i + 32 * l) (w32s bs)).foldl (fun c x => setAcc c tile x.1 x.2) c
            { c with tilePoison := (if bad then [n] else []) ++ c.tilePoison.filter (· != n) }
          s.onCore core put
        moveTile save core t op is s

/-- ACCSAVE and ACCLOAD (R347). -/
def performSave (s : State) (core t : Nat) (op : MatOp) : OpEnd :=
  if op.op == 5 && accPoisoned (s.core core) op.rec_.tile (List.range 65536) then .bad 0x0207 9
  else moveTile (op.op == 5) core t op (List.range 128) s

/-! ## Accumulator accesses -/

/-- An element access of ACCRD or ACCWR at its place of the queue order (R286). -/
def performAcc (s : State) (core : Nat) (a : Access) : State :=
  let tile := a.addr / 65536
  let k := a.addr % 65536
  if a.kind == 1 then s.onCore core fun c => (numbered k (w32s a.data)).foldl (fun c x => setAcc c tile x.1 x.2) c
  else
    let c := s.core core
    landLoad s core 0 a (((List.range (a.size / 4)).flatMap fun i => leBytes 4 (accAt c tile (k + i)).toNat).map some)

/-- The accesses of a word, in slot order; a load of poison ends the team (R192). -/
def performAccs (s : State) (core t : Nat) (accs : List Access) : State :=
  let bad (a : Access) : Bool :=
    a.kind == 0 && accPoisoned (s.core core) (a.addr / 65536) ((List.range (a.size / 4)).map (a.addr % 65536 + ·))
  if accs.any bad then terminateAccess s t 5 0x0207 0 false
  else
    let s := forEach accs s fun s a => performAcc s core a
    onPend s core ((accs.headD default).pend) fun p => { p with held := 0 }

/-! ## The queue -/

/-- Words that an operation's completion ends or lets act (R286, R289, R347). -/
def wakeMatrix (s : State) (core : Nat) : State :=
  forEach (s.core core).waits s fun s w =>
    let gone (ids : List Nat) : Bool := !((s.core core).mat.any fun m => ids.contains m.id)
    if (((s.core core).findWait w.bid).isNone) then s
    else match w.kind with
      | .mfence ids => if gone ids then finishWait s core w else s
      | .matDone id => if gone [id] then finishWait s core w else s
      | .accum ids accs =>
        if gone ids then performAccs (dropWait s core w.bid) core (s.wave core w.slot).team accs else s
      | _ => s

/-- An operation performed whole, the releases before it having emptied their planes (R274, R278). -/
def performOp (s : State) (core : Nat) (op : MatOp) : OpEnd :=
  let s := emptyPlanes s core op.team (releasedBefore s core op.team op.id)
  let m := op.rec_
  match op.op with
  | 1 => performLatch s core op.team op m
  | 2 => performStream s core op.team m
  | 3 => performDrain s core op.team op m
  | 4 => performZero s core m
  | _ => performSave s core op.team op

/-- The completion of an operation: its place, its claims but for those of a latch, and its slip, a release at .team (R213,
R279, R284). -/
def finishOp (s : State) (core : Nat) (op : MatOp) : State :=
  let s := s.onCore core fun c => { c with
    mat := c.mat.filter fun m => m.id != op.id
    claims := c.claims.filter fun k => !(k.matrix && k.owner == op.id && !k.latch) }
  wakeMatrix (completeSlip s op.team op.slip 2) core

/-- The team of a matrix operation ends (R275, R338). -/
def endByOp (s : State) (op : MatOp) (fault status : Nat) : State :=
  terminate s op.team { teamEntry s op.team with source := 4, fault := fault, status := status } none

/-- An access that a thread of the team issued before the operation took its claims, to bytes that it touches, is still held by a
claim (R210, R279); one issued behind a follow-on's post waits for the follow-on (R285). -/
def heldBefore (s : State) (core : Nat) (op : MatOp) : Bool :=
  let meets (a : Access) (c : Bool × Bool × List Nat × Bool) : Bool :=
    c.2.1 == (a.space == 2) && a.space != 1 && (c.1 || a.kind == 1 || a.kind == 2) && a.units.any c.2.2.1.contains
  (s.core core).waits.any fun w => match w.kind with
    | .claim accs => w.bid < op.stamp && (s.wave core w.slot).team == op.team &&
        accs.any fun a => op.op ≤ 4 && op.rec_.claimsOf.any (meets a)
    | _ => false

/-- The head of the queue is performed when it is an operation of a kind, behind the accumulator accesses before it. A completion
that sets a slip follows the words of its cycle (R256). -/
def runHead (s : State) (core id : Nat) (kind : Nat → Bool) : State :=
  let s := wakeMatrix s core
  match (s.core core).mat with
  | op :: _ =>
    if op.id == id && kind op.op && s.live op.team && !heldBefore s core op && (op.slip.isNone || s.lateHalf) then
      match performOp s core op with
      | .ok s => finishOp s core op
      | .bad fault status => endByOp s op fault status
    else s
  | [] => s

/-- ACCSAVE and ACCLOAD at the head of the queue act. -/
def runSaves : Nat → State → Nat → State
  | 0, s, _ => s
  | n + 1, s, core =>
    match (s.core core).mat with
    | op :: _ => if op.op ≥ 5 then runSaves n (runHead s core op.id fun k => k ≥ 5) core else s
    | [] => s

def matrixEvent (s : State) (core op kind : Nat) : Host.Outcome State Fault Refusal :=
  .next (runSaves 32 (runHead s core op (· == kind)) core)

/-- LATCH (R280). -/
def execLatch (core op : Nat) (s : State) : Host.Outcome State Fault Refusal := matrixEvent s core op 1
/-- STREAM (R281). -/
def execStream (core op : Nat) (s : State) : Host.Outcome State Fault Refusal := matrixEvent s core op 2
/-- DRAIN (R282). -/
def execDrain (core op : Nat) (s : State) : Host.Outcome State Fault Refusal := matrixEvent s core op 3
/-- ZERO (R283). -/
def execZero (core op : Nat) (s : State) : Host.Outcome State Fault Refusal := matrixEvent s core op 4

/-- PLANE_RELOAD (R273): the core's planes become those of a team with an operation at the head of the queue: only time. -/
def execPlaneReload (core team : Nat) (s : State) : Host.Outcome State Fault Refusal :=
  match (s.core core).mat with
  | op :: _ =>
    if op.team == team && (s.core core).planeTeam != some team then
      .next (s.onCore core fun c => { c with planeTeam := some team })
    else .next s
  | [] => .next s

/-! ## Appending -/

/-- An operation joins the queue with its claims, and its slip becomes PENDING (R278, R279, R284). -/
def appendOp (s : State) (core : Nat) (op : MatOp) : Nat × State :=
  let (id, s) := s.freshId core
  let s := s.onCore core fun c => { c with mat := c.mat ++ [{ op with id := id, stamp := id }] }
  let s := if op.op ≤ 4 then takeMatClaims s core op.team id id op.rec_ else s
  (id, match op.slip with | some k => setSlip s op.team k .pending | none => s)

/-- A word appends an operation, or blocks while the queue is full; under `stay` its lanes wait for the completion too
(R278, R347). -/
def postOp (e : Env) (s : State) (op : MatOp) (stay : Bool) : Res :=
  let lanes := e.act.map (·.2)
  let op := { op with team := e.team }
  if (s.core e.core).mat.length < 32 && (matrixWaits s e.core).isEmpty then
    let (id, s) := appendOp s e.core op
    if stay then
      let s := runSaves 32 (blockWord s e.core lanes (.matDone id) .nul .nul) e.core
      if !s.live op.team then .stop s
      else .done s (if (s.core e.core).mat.any fun m => m.id == id then lanes else [])
    else .done s []
  else .done (blockWord s e.core lanes (.matrix op stay) .nul .nul) lanes

/-- MATRIX_APPEND (R278): the first word that waits for room appends, as the words of a cycle do, before the completions of that
cycle (R256). -/
def execMatrixAppend (core slot bid : Nat) (s : State) : Host.Outcome State Fault Refusal :=
  match matrixWaits s core with
  | w :: _ => match w.kind with
    | .matrix op stay =>
      if w.bid == bid && w.slot == slot && (s.core core).mat.length < 32 && s.firstHalf then
        let (id, s) := appendOp s core op
        .next (runSaves 32 (if stay then setWait s core bid (.matDone id) else finishWait s core w) core)
      else .next s
    | _ => .next s
  | [] => .next s

/-! ## Instruction forms -/

/-- The tag of a record's failure: the destination address of a drain (R331). -/
def Mcmd.tag (m : Mcmd) : W32 := if m.op == 3 then BitVec.ofNat 32 m.addr else 0

/-- An operation of a checked record: under RS its generator is the issuing lane's after a step (R41, R282). -/
def issueOp (e : Env) (d0 d1 d2 d3 : W64) : Res :=
  let m := mcmdOf d0 d1 d2 d3
  let l := e.first.2
  match m.cause e.pkt (e.s.team e.team) with
  | some c => .trap c [l] fun _ => if c == 0x01 then 0 else m.tag
  | none =>
    if m.slipEn && teamSlip e.s e.team m.slip == .pending then .trap 0x08 [l] fun _ => 0
    else
      let s := if m.op == 3 && m.round == 2 then e.s.onLane e.core l fun x => { x with g := stepG x.g } else e.s
      postOp e s { (default : MatOp) with
        dw0 := d0, dw1 := d1, op := m.op, slip := if m.slipEn then some m.slip else none, gen := (s.lane e.core l).g } false

/-- A record built from operands (R284). -/
def formOp (op : Nat) (f : Form) (e : Env) (a : W64) (b c : W32) : Res :=
  if a.extractLsb' 0 16 != 0 || c.extractLsb' 20 12 != 0 then .trap 0x01 [e.first.2] fun _ => 0
  else
    let d0 := a ||| BitVec.ofNat 64 (op + (f.mod.extractLsb' 0 4).toNat * 2 ^ 4 + (f.mod.extractLsb' 4 5).toNat * 2 ^ 8)
    issueOp e d0 (BitVec.ofNat 64 (b.toNat + c.toNat * 2 ^ 32)) 0 0

/-- MLATCH (R284). -/
def execMlatch (f : Form) (s : State) : Host.Outcome State Fault Refusal :=
  runWord 0xC4 f s fun e => formOp 1 f e 0 (e.b e.first f .int) 0
/-- MSTREAM (R284). -/
def execMstream (f : Form) (s : State) : Host.Outcome State Fault Refusal :=
  runWord 0xC5 f s fun e => formOp 2 f e (e.src64 e.first f.a .int) (e.b e.first f .int) 0
/-- MDRAIN (R284). -/
def execMdrain (f : Form) (s : State) : Host.Outcome State Fault Refusal :=
  runWord 0xC6 f s fun e => formOp 3 f e (e.src64 e.first f.a .int) (e.src e.first f.b .int) (e.c e.first f .int)
/-- MZERO (R284). -/
def execMzero (f : Form) (s : State) : Host.Outcome State Fault Refusal :=
  runWord 0xC7 f s fun e => formOp 4 f e (e.src64 e.first f.a .int) 0 0

/-- MCMD (R284). -/
def execMcmd (f : Form) (s : State) : Host.Outcome State Fault Refusal :=
  runWord 0xCF f s fun e =>
    let l := e.first
    let t := e.team
    let a := (e.addr l f).toNat
    match scratchOperand e.pkt a 32 32 with
    | some c => .trap c [l.2] fun _ => BitVec.ofNat 32 a
    | none =>
      if recordClaimed e.s e.core t a 32 then .done (blockRecord e 0xCF f a 32) (e.act.map (·.2))
      else if scratchBad e.s t a 32 then .stop (terminateAccess e.s t 5 0x0207 a false)
      else
        let d := readDws e.s t a 4
        issueOp e (d.getD 0 0) (d.getD 1 0) (d.getD 2 0) (d.getD 3 0)

/-! ## Status and fences -/

/-- The planes of a team after every appended operation: format and folios, front and back (R288). -/
def planesAhead (s : State) (core t : Nat) : (Nat × List (Option Nat)) × (Nat × List (Option Nat)) :=
  let x := s.team t
  let clean (id : Nat) (p : Nat × List (Option Nat)) : Nat × List (Option Nat) :=
    if (releasedBefore s core t id).any fun k => p.2.contains (some k) then (0, []) else p
  ((s.core core).mat.filter fun m => m.team == t).foldl (fun p op =>
    let p := (clean op.id p.1, clean op.id p.2)
    let m := op.rec_
    if op.op == 1 then (p.1, (m.fmt, (List.range 4).map m.quarter))
    else if op.op == 2 && m.flag 1 then (p.2, p.1) else p) ((x.front.fmt, x.front.folios), (x.back.fmt, x.back.folios))

/-- What MSTAT reads (R288). -/
def matrixStat (s : State) (core t : Nat) : W32 :=
  let n := ((s.core core).mat.filter fun m => m.team == t).length
  let p := planesAhead s core t
  BitVec.ofNat 32 (min n 63 + p.1.1 * 2 ^ 8 + p.2.1 * 2 ^ 12 + bitSet (s.team t).tiles * 2 ^ 16)

/-- MSTAT (R288). -/
def execMstat (f : Form) (s : State) : Host.Outcome State Fault Refusal :=
  laneWord 0xC8 f s fun e _ => [.w32 f.d (matrixStat e.s e.core e.team)]

/-- MFENCE (R289): its acquire at .team finds the results in place. -/
def execMfence (f : Form) (s : State) : Host.Outcome State Fault Refusal :=
  runWord 0xC9 f s fun e =>
    let ids := ((e.s.core e.core).mat.filter fun m => m.team == e.team).map (·.id)
    if ids.isEmpty then .done e.s []
    else
      let lanes := e.act.map (·.2)
      .done (blockWord e.s e.core lanes (.mfence ids) .nul .nul) lanes

/-! ## Delayed-scaling rings -/

/-- SCALERD (R287). -/
def execScalerd (f : Form) (s : State) : Host.Outcome State Fault Refusal :=
  runWord 0xCA f s fun e =>
    let i := (e.src e.first f.a .int).toNat % 64
    let r := teamRing e.s e.team i
    let x := if f.mod.getLsbD 4 then r.max else derivedScale (f.mod.extractLsb' 0 4).toNat r.max
    .done (e.results 0xCA f (e.s.inOrder (ringOrder e.team i) ringRead) fun _ => [.w32 f.d x]) []

/-- AMAXP (R287). -/
def execAmaxp (f : Form) (s : State) : Host.Outcome State Fault Refusal :=
  runWord 0xCB f s fun e =>
    let x := e.act.foldl (fun m l => maxW m (recordMax (f32 (e.b l f (.fp fp32))).abs)) 0
    let i := (e.src e.first f.a .int).toNat % 64
    .done (pushRing (e.s.inOrder (ringOrder e.team i) wordPush) e.team i x) []

/-! ## ACCRD and ACCWR -/

/-- The first failing test of an accumulator address (R286, R193). -/
def accTest (t : Team) (a : W32) (n : Nat) : Option Nat :=
  let col := (a.extractLsb' 16 9).toNat
  if a.extractLsb' 2 6 != 0 || a.getLsbD 15 || a.extractLsb' 25 7 != 0 ||
    !t.tiles.contains (a.extractLsb' 0 2).toNat || col + n > 512 then some 1
  else if col % n != 0 then some 4 else none

/-- The place of an element: tile, row and column. -/
def accPlace (a : W32) : Nat :=
  (a.extractLsb' 0 2).toNat * 65536 + (a.extractLsb' 8 7).toNat * 512 + (a.extractLsb' 16 9).toNat

/-- Accumulator accesses of a word: at once where no earlier operation of the team is in the queue, else at their place of its
order (R286). -/
def accWord (f : Form) (e : Env) (store : Bool) : Res :=
  let n := cntOf f.mod
  let t := e.s.team e.team
  let addr (l : LaneAt) : W32 := e.src l f.a .int
  let fails := e.act.filterMap fun l => (accTest t (addr l) n).map fun k => (l.2, k, (addr l).toNat)
  match trapOf fails with
  | some (cause, origin, tag) => .trap cause origin tag
  | none =>
    let lanes := e.act.map (·.2)
    let (id, s) := if store then (0, e.s) else addPend e.s e.core f lanes (e.dests fun _ => []) [] [] 1
    let accs := e.act.map fun l =>
      { (default : Access) with
        r := l.2, kind := if store then 1 else 0, space := 3, addr := accPlace (addr l), size := 4 * n
        data := if store then wordBytes (e.vregs l f.d n) else []
        shape := .words (quadReg f.d), pend := id }
    let ops := ((s.core e.core).mat).map (·.id)
    if ops.isEmpty then
      let s := performAccs s e.core e.team accs
      if s.live e.team then .done s [] else .stop s
    else
      let (bid, s) := s.freshId e.core
      let w : Wait := { bid := bid, kind := .accum ops accs, d := .nul, pc := .nul, lanes := lanes, since := s.now }
      .done (s.onCore e.core fun c => { c with waits := c.waits ++ [w] }) []

/-- ACCRD (R286). -/
def execAccrd (f : Form) (s : State) : Host.Outcome State Fault Refusal := runWord 0xCC f s fun e => accWord f e false
/-- ACCWR (R286). -/
def execAccwr (f : Form) (s : State) : Host.Outcome State Fault Refusal := runWord 0xCD f s fun e => accWord f e true

/-! ## FZERO -/

/-- The 128-byte lines of a folio, as stores of zeros (R290). -/
def zeroStores (r : LaneRef) (folio : Nat) : List Access :=
  (List.range 104).map fun i =>
    { (default : Access) with
      r := r, kind := 1, space := 2, addr := folio * 16384 + 128 * i, size := 128, data := List.replicate 128 0 }

/-- FZERO (R290). -/
def execFzero (f : Form) (s : State) : Host.Outcome State Fault Refusal :=
  runWord 0xCE f s fun e =>
    let l := e.first
    let a := e.src l f.a .int
    if a.toNat ≥ 64 || !(e.s.team e.team).folios.contains a.toNat then .trap 0x03 [l.2] fun _ => a
    else accessWord e f false [{ lane := l, accs := zeroStores l.2 a.toNat, bad := false, lanes := e.act.map (·.2) }]

end Sys2Proof.Machine
end

