-- ==== Sys2Proof/Machine/Monitor.lean ====
section
/-! DEFINITION. Monitor words: the monitor registers (R331, R332), event counters (R356), the end of a team (R355), tiles in the
save area (R347) and leases (R351). -/

namespace Sys2Proof.Machine

/-! ## Monitor registers -/

/-- A monitor register of a thread; none for an index that names none (R331). -/
def Lane.monReg (l : Lane) (i : Nat) : Option W32 :=
  match i with
  | 0 => some (BitVec.ofNat 32 ((if l.mon then 1 else 0) + (if l.mregs.origin then 2 else 0)))
  | 1 => some l.mregs.cause
  | 2 => some l.mregs.mepc
  | 3 => some l.mregs.mhdr
  | 4 => some l.mregs.mtag
  | 5 => some (l.mregs.word.extractLsb' 0 32)
  | 6 => some (l.mregs.word.extractLsb' 32 32)
  | 7 => some (l.mregs.word.extractLsb' 64 32)
  | 8 => some l.mregs.mcd
  | 9 => some l.mregs.group
  | 10 | 11 | 12 | 13 => some (tgetD l.mregs.scr (i - 10) 0)
  | _ => none

/-- Indices that SRWR may name (R331). -/
def monWritable (i : Nat) : Bool := i == 2 || i == 8 || (decide (10 ≤ i) && decide (i ≤ 13))

/-- A write of a monitor register (R331). DESIGN CHOICE: MCD holds the call depth as it stood at the trap, which the return
restores; the monitor's own calls move CD alone (R332, R333; log 114). -/
def Lane.setMonReg (l : Lane) (i : Nat) (x : W32) : Lane :=
  let m := l.mregs
  { l with mregs :=
      if i == 2 then { m with mepc := x } else if i == 8 then { m with mcd := x } else { m with scr := tset m.scr (i - 10) x } }

/-- SRRD (R332). -/
def execSrrd (f : Form) (s : State) : Host.Outcome State Fault Refusal :=
  runWord 0xD3 f s fun e =>
    let read (l : LaneAt) : Option W32 := (e.s.lane e.core l.2).monReg (e.src l f.a .int).toNat
    let bad := (e.act.filter fun l => (read l).isNone).map (·.2)
    if bad.isEmpty then .done (e.results 0xD3 f e.s fun l => [.w32 f.d ((read l).getD 0)]) []
    else .trap 0x01 bad fun _ => 0

/-- SRWR (R332). -/
def execSrwr (f : Form) (s : State) : Host.Outcome State Fault Refusal :=
  runWord 0xD4 f s fun e =>
    let i (l : LaneAt) : Nat := (e.src l f.a .int).toNat
    let bad := (e.act.filter fun l => !monWritable (i l)).map (·.2)
    if bad.isEmpty then
      .done (forEach e.act e.s fun s l => s.onLane e.core l.2 fun x => x.setMonReg (i l) (e.b l f .int)) []
    else .trap 0x01 bad fun _ => 0

/-! ## Event counters -/

def counterOf (s : State) (t i : Nat) : Counter := tgetD (s.team t).counters i default

/-- PERFRD (R356). -/
def execPerfrd (f : Form) (s : State) : Host.Outcome State Fault Refusal :=
  runWord 0xDC f s fun e =>
    let at_ (l : LaneAt) : Counter := counterOf e.s e.team ((e.src l f.a .int).toNat % 8)
    let bad := (e.act.filter fun l => !(e.s.lane e.core l.2).mon && !(at_ l).user).map (·.2)
    if bad.isEmpty then .done (e.results 0xDC f e.s fun l => [.w64 f.d (at_ l).value]) []
    else .trap 0x0C bad fun _ => 0

/-- PERFCTL (R356). -/
def execPerfctl (f : Form) (s : State) : Host.Outcome State Fault Refusal :=
  runWord 0xDD f s fun e =>
    let l := e.first
    let b := e.b l f .int
    let event := (b.extractLsb' 0 8).toNat
    if b.extractLsb' 10 22 != 0 || event > 9 then .trap 0x01 [l.2] fun _ => 0
    else
      let c : Counter := { value := 0, event := event, en := b.getLsbD 8, user := b.getLsbD 9 }
      .done (e.s.onTeam e.team fun t => { t with counters := tset t.counters ((e.src l f.a .int).toNat % 8) c }) []

/-! ## Killing -/

/-- The team that TEAMKILL names (R355). -/
def killTarget (s : State) (t launch ordinal : Nat) : Option Nat :=
  (s.teams.find? fun e =>
    (s.launch e.2.launch).id == launch && e.2.ordinal == ordinal &&
    (e.2.status == .resident || e.2.status == .frozen || e.2.status == .saved) && teamCtx s e.1 == teamCtx s t).map (·.1)

/-- TEAMKILL (R355). -/
def execTeamkill (f : Form) (s : State) : Host.Outcome State Fault Refusal :=
  runWord 0xD9 f s fun e =>
    let l := e.first
    match killTarget e.s e.team (e.src l f.a .int).toNat (e.b l f .int).toNat with
    | none => .done (e.results 0xD9 f e.s fun _ => [.pr f.d false]) []
    | some k =>
      let s := terminate e.s k { teamEntry e.s k with source := 5, fault := 0x0208, status := 7 } (some 0)
      if s.live e.team then .done (e.results 0xD9 f s fun _ => [.pr f.d true]) [] else .stop s

/-! ## Tiles in the save area -/

/-- ACCSAVE and ACCLOAD (R347). -/
def saveWord (op : Nat) (f : Form) (e : Env) : Res :=
  let l := e.first
  let a := e.src l f.a .int
  let b := (e.b64 l f .int).toNat
  let ctx := teamCtx e.s e.team
  let lo := saveBase e.s ctx
  if a.toNat ≥ 4 || !(e.s.team e.team).tiles.contains a.toNat || b < lo || b + 262144 > lo + saveLen e.s ctx then
    .trap 0x03 [l.2] fun _ => BitVec.ofNat 32 b
  else if b % 4096 != 0 then .trap 0x04 [l.2] fun _ => BitVec.ofNat 32 b
  else postOp e e.s { (default : MatOp) with dw0 := BitVec.ofNat 64 (a.toNat * 2 ^ 22), op := op, addr := b } true

/-- ACCSAVE (R347). -/
def execAccsave (f : Form) (s : State) : Host.Outcome State Fault Refusal := runWord 0xD7 f s (saveWord 5 f)
/-- ACCLOAD (R347). -/
def execAccload (f : Form) (s : State) : Host.Outcome State Fault Refusal := runWord 0xD8 f s (saveWord 6 f)

/-! ## Leases -/

/-- LEASEQ (R351): the counter 40 µs from now; under .wait the lanes block until it is reached. -/
def execLeaseq (f : Form) (s : State) : Host.Outcome State Fault Refusal :=
  runWord 0xDB f s fun e =>
    let til := e.s.cycles + 42000
    let s := e.results 0xDB f e.s fun _ => [.w64 f.d til]
    if f.mod.getLsbD 0 then
      let lanes := e.act.map (·.2)
      .done (blockWord s e.core lanes (.lease til) .nul .nul) lanes
    else .done s []

/-- LEASEQ_WAIT_END (R351). -/
def execLeaseqWaitEnd (core slot bid : Nat) (s : State) : Host.Outcome State Fault Refusal :=
  match (s.core core).findWait bid with
  | some w => match w.kind with
    | .lease til => if w.slot == slot && til.toNat ≤ s.cycles.toNat then .next (finishWait s core w) else .next s
    | _ => .next s
  | none => .next s

end Sys2Proof.Machine
end

