-- ==== Sys2Proof/Machine/Docket.lean ====
section
/-! DEFINITION. The docket's instructions (R343, R344): consumption, the resumption of suspended objects (R337), commands saved
and posted again, and the writing of held faults (R342). -/

namespace Sys2Proof.Machine

/-! ## Consumption -/

/-- The docket holds an entry (R339). -/
def dockReady (s : State) (ctx : Nat) : Bool := dockCount s ctx != 0 && dockSize s ctx != 0

/-- Entry DOCKTAIL, and the docket with DOCKTAIL advanced (R339, R343). -/
def takeEntry (s : State) (ctx : Nat) : List Byte × State :=
  let k := dockTail s ctx
  let e := memReads s.hbm (dockBase s ctx + 64 * (k % dockSize s ctx)) 64
  (e, homeWrite s (ctx + 124) (leBytes 4 ((k + 1) % 2 ^ 32)))

/-- DOCKPOP of a docket that is not empty: the entry reaches the scratchpad (R343). -/
def popDocket (s : State) (t a : Nat) : State :=
  let (e, s) := takeEntry s (teamCtx s t)
  scratchWrite s t a e

/-- DOCKPOP (R343): MOD[0] .wait. -/
def execDockpop (f : Form) (s : State) : Host.Outcome State Fault Refusal :=
  runWord 0xDA f s fun e =>
    let l := e.first
    let a := (e.addr l f).toNat
    match scratchOperand e.pkt a 64 64 with
    | some c => .trap c [l.2] fun _ => BitVec.ofNat 32 a
    | none =>
      if dockReady e.s (teamCtx e.s e.team) then .done (e.results 0xDA f (popDocket e.s e.team a) fun _ => [.pr f.d true]) []
      else if f.mod.getLsbD 0 then
        let lanes := e.act.map (·.2)
        .done (blockWord (keepOutcome e 0xDA f e.s) e.core lanes (.dock a) f.d .nul) lanes
      else .done (e.results 0xDA f e.s fun _ => [.pr f.d false]) []

/-- DOCKPOP_WAKE (R343): an entry has arrived for a word that waits. -/
def execDockpopWake (core slot bid : Nat) (s : State) : Host.Outcome State Fault Refusal :=
  match (s.core core).findWait bid with
  | some w => match w.kind with
    | .dock a =>
      let t := (s.wave core w.slot).team
      if w.slot == slot && dockReady s (teamCtx s t) then .next (returnWait (popDocket s t a) core w (.pr w.d true)) else .next s
    | _ => .next s
  | none => .next s

/-! ## Held faults -/

/-- HELD_FAULT_WRITE (R342): the oldest held fault is written once the docket has room, and counted for its team (R356); a team
whose report it is holds its resources no longer. -/
def execHeldFaultWrite (ctx : Nat) (s : State) : Host.Outcome State Fault Refusal :=
  match (s.ctx ctx).held with
  | (t, e) :: rest =>
    if dockCount s ctx < dockSize s ctx then
      let s := countEv (dockPut (s.onCtx ctx fun c => { c with held := rest }) ctx e) t 9 1
      .next (if (e.getD 0 0).toNat == 2 then freeHeldReport s t else s)
    else .next s
  | [] => .next s

/-! ## Resumption -/

/-- A suspended command goes on, and for its part the collective at the other members (R337, R378). -/
def resumeCmd (s : State) (k : Nat) : State := tellHalt (s.onCmd k fun c => { c with dock := none }) k false

/-- A suspended command of the context with this entry (R337). -/
def resumeCmds (s : State) (ctx id : Nat) : Bool × State :=
  match s.cmds.find? fun e => e.2.state == .suspended && e.2.dock == some id && teamCtx s e.2.team == ctx with
  | none => (false, s)
  | some (k, _) => (true, resumeCmd s k)

/-- A parked record without its entry: it replays (R179, R337). -/
def unparked (id : Nat) (w : Wait) : Wait :=
  match w.kind with
  | .parked accs asid line (some d) => if d == id then { w with kind := .parked accs asid line none } else w
  | _ => w

def isParked (id : Nat) (w : Wait) : Bool := match w.kind with | .parked _ _ _ (some d) => d == id | _ => false

def resumeParked (s : State) (ctx id : Nat) : Bool × State :=
  let mine (c : Core) (w : Wait) : Bool := isParked id w && teamCtx s (c.wave w.slot).team == ctx
  let hit := (s.cores.any fun c => c.2.waits.any (mine c.2)) ||
    (s.teams.any fun t => teamCtx s t.1 == ctx && t.2.savedWaits.any (isParked id))
  (hit, { s with
    cores := s.cores.map fun c => (c.1, { c.2 with waits := c.2.waits.map fun w => if mine c.2 w then unparked id w else w })
    teams := s.teams.map fun t =>
      if teamCtx s t.1 == ctx then (t.1, { t.2 with savedWaits := t.2.savedWaits.map (unparked id) }) else t })

/-- A held write-back is tried again (R180, R337). -/
def resumeLine (s : State) (ctx id : Nat) : Bool × State :=
  let mine (l : CLine) : Bool := l.held == some id && ((tget s.roots l.asid).map (·.2)) == some ctx
  (s.cores.any fun c => c.2.lines.any mine,
   { s with cores := s.cores.map fun c =>
       (c.1, { c.2 with lines := c.2.lines.map fun l => if mine l then { l with held := some resumed } else l }) })

/-- A carrel executes its faulting instruction again, or its scrub goes on (R318, R337). -/
def resumeCarrels (s : State) (ctx id : Nat) : Bool × State :=
  let hits := s.dies.flatMap fun (d, x) => x.carrels.filterMap fun (c, k) =>
    if k.state != .free && k.susp == some id && ctxOf s k.rcb == ctx then some (d, c) else none
  match hits with
  | [] => (false, s)
  | (d, c) :: _ =>
    let s := s.onCarrel d c fun k => { k with susp := none }
    (true, if (s.carrel d c).scrub.isSome then
      let l := (s.carrel d c).launch
      endLaunch (scrub s d c).2 l
    else s)

/-- A frozen team goes on (R353); a sleep that began in the rest of its clause has ended too (R345). -/
def unfreezeTeam (s : State) (t : Nat) : State :=
  (endSleeps s t).onTeam t fun x => { x with freeze := none, status := if x.status == .frozen then .resident else x.status }

def resumeFrozen (s : State) (ctx id : Nat) : Bool × State :=
  match s.teams.find? fun t => t.2.freeze == some id && teamCtx s t.1 == ctx with
  | some (t, _) => (true, unfreezeTeam s t)
  | none => (false, s)

/-- The ID of a held fault, whose entry is still to be written (R341, R342). -/
def unwritten (s : State) (ctx id : Nat) : Bool := (id + 2 ^ 32 - dockHead s ctx) % 2 ^ 32 < (s.ctx ctx).held.length

/-- CRESUME of an entry: the first kind of object that it names (R343). An object is resumed only by an entry that has been
written (R341, R342). -/
def resumeEntry (s : State) (ctx id : Nat) : Bool × State :=
  if unwritten s ctx id then (false, s)
  else [resumeCmds, resumeParked, resumeLine, resumeCarrels, resumeFrozen].foldl (fun acc f =>
    if acc.1 then acc else f acc.2 ctx id) (false, s)

/-- CRESUME.dock (R343). -/
def execCresumeDock (f : Form) (s : State) : Host.Outcome State Fault Refusal :=
  runWord 0xD5 f s fun e =>
    let (d, s) := resumeEntry e.s (teamCtx e.s e.team) (e.src e.first f.a .int).toNat
    .done (e.results 0xD5 f s fun _ => [.pr f.d d]) []

/-! ## Suspended-command records -/

/-- A suspended-command record (R344). -/
def cmdRecord (s : State) (c : Cmd) (state : Nat) : List Byte :=
  let base := match c.table with | some (b, _, _) => b | none => 0
  let value := if c.kind == 7 then c.value.toNat else c.bytes / 2
  let ccr := ((c.dws ++ List.replicate 32 0).take 32).flatMap fun (d : W64) => leBytes 8 d.toNat
  ccr ++ leBytes 4 c.ticket.toNat ++ leBytes 4 c.els ++ leBytes 4 c.padded ++ leBytes 4 c.sibfail ++ leBytes 4 (c.cyclesAt s.now) ++
    leBytes 1 state ++ leBytes 1 c.cls ++ leBytes 2 0 ++ leBytes 4 (c.dock.getD 0xFFFFFFFF) ++
    leBytes 4 c.scale.toNat ++ leBytes 4 c.gen.toNat ++ leBytes 4 0 ++ leBytes 8 base ++ leBytes 8 value ++ leBytes 8 0

/-- CSAVE of a suspended command (R344): its claims end, its slip stays PENDING, its hold of a table stays (R382), and its
collective stays started. -/
def saveCmd (s : State) (k a : Nat) : State :=
  let c := s.cmd k
  let s := scratchWrite s c.team a (cmdRecord s c 1)
  let s := match c.table with
    | some (_, gen, pa) => { s with savedHolds := s.savedHolds ++ [(c.team, c.ticket.toNat, pa, gen)] }
    | none => s
  let s := releaseClaims s k
  let s := if c.kind == 10 && c.collSeq.isSome then { s with savedColls := tset s.savedColls k c } else s
  -- what it had asked of other packages and has not had is asked for anew
  { s with cmds := tdel s.cmds k, peerOut := s.peerOut.filter fun o => o.cmd != k }

/-- CSAVE (R343). -/
def execCsave (f : Form) (s : State) : Host.Outcome State Fault Refusal :=
  runWord 0xD6 f s fun e =>
    let l := e.first
    let a := (e.addr l f).toNat
    match scratchOperand e.pkt a 320 64 with
    | some c => .trap c [l.2] fun _ => BitVec.ofNat 32 a
    | none =>
      match (ticketCmd e.s e.core e.team (e.src l f.b .int)).filter fun k => (e.s.cmd k).state == .suspended with
      | some k => .done (e.results 0xD6 f (saveCmd e.s k a) fun _ => [.pr f.d true]) []
      | none => .done (e.results 0xD6 f e.s fun _ => [.pr f.d false]) []

/-- The started collective of a saved command, by its team and ticket (R344). -/
def findColl (s : State) (t ticket : Nat) : Option (Nat × Cmd) :=
  s.savedColls.find? fun e => e.2.team == t && e.2.ticket.toNat == ticket

/-- The command that a suspended-command record posts again (R344): what it read at its start stays, and a started collective
goes on. DESIGN CHOICE: the record keeps one generator, and a follow-on that is still to come starts from it too (R41; log 131). -/
def recordCmd (s : State) (t core a cls seq : Nat) (mon : Bool) : Cmd :=
  let m := (s.team t).scratch
  let w (i : Nat) : Nat := leNat (memReads m (a + i) 4)
  let dw (i : Nat) : W64 := memDw m (a + i)
  let dws := readDws s t a 32
  let r := ccrOf dws
  let hold := s.savedHolds.find? fun h => h.1 == t && h.2.1 == w 256
  let coll : Cmd := ((findColl s t (w 256)).map (·.2)).getD default
  { (default : Cmd) with
    kind := r.kind, dws := dws, ccrAddr := a, team := t, core := core, cls := cls, seq := seq, tslot := (s.team t).tslot
    slip := if r.slipEn then some r.slip else none, state := .blocked, mon := mon
    els := w 260, padded := w 264, sibfail := w 268, cycles0 := w 272
    sibStatus := if w 268 == 0 then 0 else 2 + s.pick 4100 2
    -- a COLL that had not started starts now
    started := if r.kind == 10 && coll.collSeq.isNone then 0 else 1
    collSeq := coll.collSeq, collGo := coll.collGo, ahead := coll.ahead, peerData := coll.peerData, given := coll.given
    reading := coll.reading, halts := coll.halts
    chunkReads := coll.chunkReads, status := coll.status, accFirst := coll.accFirst
    scale := BitVec.ofNat 32 (w 284), gen := BitVec.ofNat 32 (w 288), postGen := BitVec.ofNat 32 (w 288)
    table := hold.map fun h => ((dw 296).toNat, h.2.2.2, h.2.2.1)
    value := if r.kind == 7 then dw 304 else 0, bytes := if r.kind == 7 then 0 else 2 * (dw 304).toNat }

/-- The hold of a table that a saved command kept goes back to it (R382). -/
def takeHold (s : State) (t ticket : Nat) : State :=
  { s with savedHolds := s.savedHolds.filter fun h => !(h.1 == t && h.2.1 == ticket) }

/-- A saved collective is posted again: the members that wait with it go on (R344, R378). -/
def takeColl (s : State) (t ticket : Nat) : State :=
  match findColl s t ticket with
  | none => s
  | some (k, c) => tellHaltOf { s with savedColls := tdel s.savedColls k } c false

/-- CRESUME.rec (R344): MOD[2:1] the class. -/
def execCresumeRec (f : Form) (s : State) : Host.Outcome State Fault Refusal :=
  runWord 0xD5 f s fun e =>
    let l := e.first
    let t := e.team
    let a := (e.addr l f).toNat
    let cls := (f.mod.extractLsb' 1 2).toNat
    let lanes := e.act.map (·.2)
    let no : Res := .done (e.results 0xD5 f e.s fun _ => [.pr f.d false]) []
    match scratchOperand e.pkt a 320 64 with
    | some c => .trap c [l.2] fun _ => BitVec.ofNat 32 a
    | none =>
      if recordClaimed e.s e.core t a 320 then .done (blockRecord e 0xD5 f a 320) lanes
      else if scratchBad e.s t a 320 then .stop (terminateAccess e.s t 5 0x0207 a false)
      else
        let state := (memRead (e.s.team t).scratch (a + 276)).toNat
        let r := ccrOf (readDws e.s t a 32)
        if (r.check e.pkt (e.s.team t)).isSome || !(state == 1 || state == 2) then no
        else if r.slipEn && teamSlip e.s t r.slip != .pending then .trap 0x08 [l.2] fun _ => 0
        else
          let (seq, s) := nextSeq e.s e.core cls
          let c := recordCmd s t e.core a cls seq (s.lane e.core l.2).mon
          let ticket := leNat (memReads (s.team t).scratch (a + 256) 4)
          let s := takeColl (takeHold s t ticket) t ticket
          let (k, s) := addCmd s c
          if (blockedFor s e.core cls).isEmpty && roomFor s e.core cls k then
            .done (e.results 0xD5 f (appendCmd s k) fun _ => [.pr f.d true]) []
          else .done (blockWord (keepOutcome e 0xD5 f s) e.core lanes (.post k cls) f.d .nul) lanes

end Sys2Proof.Machine
end

