-- ==== Sys2Proof/Machine/Fabric.lean ====
section
/-! DEFINITION. Peer packages and the links (R348, R353, R361 to R366), and PAGE_WALK (R349, R350). -/

namespace Sys2Proof.Machine

/-! ## The frozen sequencer -/

/-- The context that owns a port's sequencer: that of the lowest communicator slot that the port carries (R353, R367). -/
def portCtx (s : State) (port : Nat) : Option Nat := (s.comms.find? fun e => e.2.ports.contains port).map fun e => e.2.ctx

/-- A request that breaks the link protocol freezes the port's sequencer (R353). -/
def freezePort (s : State) (port : Nat) : State :=
  if (s.port port).frozen then s
  else
    let s := s.onPort port fun p => { p with frozen := true }
    match portCtx s port with
    | none => s
    | some ctx =>
      let extra := freezeExtra 2 3 port 0
      let (_, s) := dockFault s ctx 0 { (default : DockEntry) with
        kind := 3, source := 6, die := 0xFF, core := 0xFF, tslot := 0xFF, cls := 0xFF, extra := extra }
      tellFreeze s ctx extra

/-! ## Requests from peers -/

/-- Where a peer's request finds its bytes (R348, R361). -/
inductive Served where
  | ok (pa : Nat) (e : W64) (s : State)
  | no (f : PeerFault) (s : State)

/-- The home translates a peer's address for the request's ASID, and serves it from its own HBM only (R348, R361). -/
def servePeer (s : State) (asid va : Nat) (write : Bool) : Served :=
  match tget s.roots asid with
  | none => .no (.fatal 0x0203) s
  | some _ => match translate s 0 asid va write with
    | (.hbm pa e, s) => .ok pa e s
    | (.absent, s) => .no .absent s
    | (.bad code, s) => .no (.fatal code) s
    | (_, s) => .no (.fatal 0x0203) s

/-- The virtual channel of an answer (R365). -/
def answerVc (cls : Nat) : Nat := if cls == 0 then 2 else 1

def portOf (va : Nat) : Nat := va / 128 % 18

/-- The bytes that a read is answered with: those asked for, or for a sibling cell its context record and values (R305,
R361). -/
def peerBytes (s : State) (r : PeerRead) (pa : Nat) (e : W64) : Except PeerFault (List Byte) :=
  let tab := tableOf s r.asid e
  if (linesOf pa r.len).any s.hbmPoison.contains then .error .poisoned
  else if r.kind != .sibling then .ok (memReads s.hbm pa r.len)
  else if !pteSibling e || !cellStart s tab r.va.toNat || r.len != tabCell s tab then .error (.fatal 0x0205)
  else
    let xs := sibsOf s (homeDie e pa) tab pa
    .ok (contextBytes xs (tabEpoch s tab) ++ xs.flatMap (·.value))

/-- The bytes of memory that a request reads, or its fault (R348, R361). -/
def readMemory (s : State) (r : PeerRead) : State :=
  let port := portOf r.va.toNat
  let vc := answerVc r.cls
  match servePeer s r.asid r.va.toNat false with
  | .no f s => s.send port vc (.peerFault r.pkg r.tag f)
  | .ok pa e s => match peerBytes s r pa e with
    | .ok bs => s.send port vc (.peerData r.pkg r.tag bs)
    | .error f => s.send port vc (.peerFault r.pkg r.tag f)

/-- PEER_READ_REQUEST (R348, R353, R361 to R363, R376): of memory, of a notice's bytes, or of a chunk. A read of nothing, of a notice
that was not sent, or of a communicator or die that has no part in it breaks the protocol. -/
def execPeerReadRequest (r : PeerRead) (s : State) : Host.Outcome State Fault Refusal :=
  if !s.linksUp then .next s
  else
    let port := portOf r.va.toNat
    let isNews : Bool := match r.kind with | .halt _ _ _ _ _ => true | _ => false
    if r.len == 0 && !isNews then .next (freezePort s port)
    else match r.kind with
      | .memory | .sibling => .next (readMemory s r)
      | .notice cmd elem => match s.peerOut.find? fun o => o.cmd == cmd && o.elem == elem && o.write.isSome with
        | some o => .next (s.send o.port (answerVc o.cls) (.peerData r.pkg r.tag o.data))
        | none => .next (freezePort s port)
      | .chunk die slot seq _ _ =>
        let ps := (s.comm slot).ports
        if (tget s.comms slot).isNone || (rankOf s slot die).isNone || ps.isEmpty then .next (freezePort s port)
        else .next (serveChunk s r die slot seq)
      | .halt die slot seq rank on =>
        if (tget s.comms slot).isNone || (rankOf s slot die).isNone then .next (freezePort s port)
        else .next (hearHalt s slot die seq rank on)

/-- The vector that a command of another package has stored in a cell (R302). -/
def peerVec (s : State) (pkg cmd pa : Nat) : Option (List W16) :=
  (s.peerVecs.find? fun e => e.1 == pkg && e.2.1 == cmd && e.2.2.1 == pa).map (·.2.2.2)

def setPeerVec (s : State) (pkg cmd pa : Nat) (v : List W16) : State :=
  { s with peerVecs := (pkg, cmd, pa, v) :: s.peerVecs.filter fun e => !(e.1 == pkg && e.2.1 == cmd && e.2.2.1 == pa) }

/-- What a write of a peer comes to at its home: the bytes of its acknowledgement, or a fault. -/
inductive Applies where
  | ok (ack : List Byte) (s : State)
  | no (f : PeerFault)

/-- A reduction's elements, each of n bytes and each as one atomic event (R52, R362). -/
def reduceRun (op fmt n : Nat) : Nat → State → Nat → List Byte → State
  | 0, s, _, _ => s
  | i + 1, s, pa, bs =>
    let old := leNat (memReads s.hbm pa n)
    reduceRun op fmt n i (homeWrite s pa (leBytes n (redCode op fmt old (leNat (bs.take n))))) (pa + n) (bs.drop n)

/-- A write, a reduction, an ATOM element or a sibling row applied at its home, each element as one event (R52, R222, R301,
R362). -/
def applyPeer (s : State) (w : PeerWrite) (data : List Byte) (pa : Nat) (e : W64) : Applies :=
  let n := data.length
  let old := memReads s.hbm pa n
  let bad := (linesOf pa n).any s.hbmPoison.contains
  match w.kind with
  | .plain => if pteSibling e then .no (.fatal 0x0206) else .ok [] (homeWrite s pa data)
  | .reduce fmt op =>
    if pteSibling e then .no (.fatal 0x0206)
    else if fmt == 3 then .ok [] (homeWrite s pa (leBytes 1 (putNibble op (leNat old) (leNat data))))
    else if bad then .no .poisoned
    else .ok old (reduceRun op fmt (fmtBytes fmt) (n / fmtBytes fmt) s pa data)
  | .cas _ cmp =>
    if pteSibling e then .no (.fatal 0x0206)
    else if bits e 2 1 == 0 then .no (.fatal 0x0202)
    else if bad then .no .poisoned
    else .ok old (homeWrite s pa (if leNat old == leNat cmp then data else old))
  | .sibling cmd pkg die ctx =>
    let tab := tableOf s w.asid e
    match actorSlot s tab pkg die with
    | none => .no (.fatal 0x0205)
    | some actor =>
      if !pteSibling e || !cellStart s tab w.va.toNat || n != tabCell s tab then .no (.fatal 0x0205)
      else
        let vv := vecOfBytes ctx
        let vv := match peerVec s pkg cmd pa with | some u => vecMax vv u | none => vv
        match applySib s (homeDie e pa) tab pa data (BitVec.ofNat 16 (leNat (ctx.drop 32))) vv actor with
        | .stored nv s => .ok [0] (setPeerVec s pkg cmd pa nv)
        | .sibFull => .ok [2] s
        | .annexFull => .ok [3] s

/-- The number of the read that fetches a notice's bytes: no command has it. -/
def pullKey (s : State) : Nat := 2 ^ 48 + s.notices.foldl (fun n e => max n (e.1 + 1 - 2 ^ 48)) 0

/-- PEER_WRITE_NOTICE (R353, R362): the home reads the bytes from the engine that sent it. A notice of no byte or of more than 4 KiB
breaks the protocol. -/
def execPeerWriteNotice (w : PeerWrite) (s : State) : Host.Outcome State Fault Refusal :=
  if !s.linksUp then .next s
  else
    let port := portOf w.va.toNat
    if w.len == 0 || w.len > 4096 then .next (freezePort s port)
    else
      let id := pullKey s
      .next ({ s with notices := tset s.notices id w }.send port 0 (.pull w.pkg w.tag id))

/-- The bytes of a notice have come: they are applied at their home, and the notice is acknowledged (R348, R362). An answer of
another length is none. -/
def applyNotice (s : State) (id : Nat) (w : PeerWrite) (data : List Byte) : State :=
  let port := portOf w.va.toNat
  let vc := answerVc w.cls
  if data.length != w.len then s
  else
    let s := { s with notices := tdel s.notices id }
    match servePeer s w.asid w.va.toNat true with
    | .no f s => s.send port vc (.peerFault w.pkg w.tag f)
    | .ok pa e s => match applyPeer s w data pa e with
      | .ok ack s => s.send port vc (.peerAck w.pkg w.tag ack)
      | .no f => s.send port vc (.peerFault w.pkg w.tag f)

/-! ## Answers from peers -/

/-- The request that an answer belongs to. -/
def asked (s : State) (k key : Nat) (write : Bool) : Option PeerOut :=
  s.peerOut.find? fun o => o.cmd == k && o.elem == key && o.write.isSome == write

def dropAsked (s : State) (k key : Nat) : State :=
  { s with peerOut := s.peerOut.filter fun o => !(o.cmd == k && o.elem == key) }

/-- A fault at the peer suspends the command or ends its team (R338, R361). -/
def peerFaulted (s : State) (k va : Nat) (write : Bool) (f : PeerFault) : State :=
  -- a command that has ended or been suspended meanwhile asks for the element anew
  if (s.cmd k).state != .running then s
  else match f with
    | .absent => suspendCmd s k 0 va write
    | .fatal code => failCmd s k 0 code va write
    | .poisoned => failCmd s k 0 0x0207 va write

/-- An answer with data, or an acknowledgement, reaches the command (R362). -/
def peerAnswered (s : State) (k key : Nat) (data : List Byte) : State :=
  s.onCmd k fun c => { c with peerData := tset c.peerData key data, unacked := [] }

def answer (s : State) (k key : Nat) (write : Bool) (data : List Byte) (fault : Option PeerFault) : State :=
  match asked s k key write with
  | none => s
  | some o =>
    let s := dropAsked s k key
    if (tget s.cmds k).isNone then s
    else match fault with
      | some f => peerFaulted (s.onCmd k fun c => { c with unacked := [] }) k o.va write f
      | none => peerAnswered s k key data

/-- An answer to a chunk's read (R353, R376, R378): its bytes. A frozen sequencer discards it, and asks for the bytes anew once it is
unfrozen; so it does after an answer that a page is absent. -/
def chunkAnswered (s : State) (k key : Nat) (data : List Byte) (fault : Option PeerFault) : State :=
  match asked s k key false with
  | none => s
  | some o =>
    if (s.port o.port).frozen then
      { s with
        peerOut := s.peerOut.filter fun x => !(x.cmd == k && x.elem % 2 ^ 32 == key % 2 ^ 32)
        ports := s.ports.map fun (p : Nat × Port) => (p.1, if p.2.moving == some (k, key % 2 ^ 32) then { p.2 with moving := none } else p.2) }
    else match fault with
      | none =>
        let s := dropAsked s k key
        endChunk (s.onCmd k fun c => { c with peerData := tset c.peerData key data }) k (key % 2 ^ 32)
      | some _ => dropAsked s k key

/-! ## The link -/

/-- FLIT_REPLAY (R363): only time passes. -/
def execFlitReplay (port : Nat) (s : State) : Host.Outcome State Fault Refusal :=
  if port < 18 && s.linksUp then .next (s.onPort port fun p => { p with replays := p.replays + 1 }) else .next s

/-- The channels in the order in which a flit boundary tries them (R366). -/
def vcOrder (last : Nat) : List Nat :=
  let ring := 1 :: (List.range 12).map (4 + ·)
  [3, 0, 2] ++ ring.filter (fun v => v > last) ++ ring.filter (fun v => v ≤ last)

/-- The flits of a message: its bytes, 256 in each (R363). DESIGN CHOICE: what comes with them takes no flit of its own (log 105). -/
def Out.flits : Out → Nat
  | .peerData _ _ bs | .peerAck _ _ bs => max 1 ((bs.length + 255) / 256)
  | _ => 1

/-- FLIT_BOUNDARY (R363, R366): a flit of the first message of the channel chosen leaves; with its last flit the message has left the
package. -/
def execFlitBoundary (port : Nat) (s : State) : Host.Outcome State Fault Refusal :=
  let p := s.port port
  if port ≥ 18 || !s.linksUp then .next s
  else match (vcOrder p.lastVc).find? fun v => !(tgetD p.vcs v []).isEmpty with
    | none => .next s
    | some v => match tgetD p.vcs v [] with
      | [] => .next s
      | m :: rest =>
        let n := tgetD p.flits v 0 + 1
        let last := if v == 1 || v ≥ 4 then v else p.lastVc
        if n < m.flits then .next (s.onPort port fun p => { p with flits := tset p.flits v n, lastVc := last })
        else
          let s := s.onPort port fun p => { p with vcs := tset p.vcs v rest, flits := tset p.flits v 0, lastVc := last }
          .next { s with out := s.out ++ [m] }

/-! ## Walks -/

def unleased (s : State) (die asid : Nat) (vas : List Nat) : List Nat :=
  ((vas.map (· / 65536)).eraseDups).filter fun p => (leaseOf s die asid (p * 65536)).isNone

/-- The pages that a running command meets next. -/
def cmdPages (s : State) (k : Nat) : List Nat :=
  let c := s.cmd k
  if c.ccr.kind ≤ 6 then
    ((elemTouches s k c.els).getD []).filterMap fun t => if t.sp == 0 then some (t.addr % ((2 ^ 56 : Nat) : Int)).toNat else none
  else [c.ccr.dst % 2 ^ 56]

/-- The walks that the requesters of a die need: those of commands, of window caches and of carrel threads (R349). -/
def wantedWalks (s : State) (die : Nat) : List Walk :=
  let of (team : Option Nat) (who : Nat × Nat) (asid : Nat) (vas : List Nat) : List Walk :=
    (unleased s die asid vas).map fun p => { team := team, who := who, asid := asid, page := p }
  let ofCmds := (s.cmds.filter fun e => e.2.state == .running && e.2.die == die).flatMap fun e =>
    of (some e.2.team) (0, e.1) (e.2.asid s) (cmdPages s e.1)
  let ofCores := (s.cores.filter fun e => dieOf e.1 == die).flatMap fun e => e.2.mses.flatMap fun m =>
    of (some (e.2.wave m.slot).team) (1, e.1) m.asid [m.line * 128]
  let ofLines := (s.cores.filter fun e => dieOf e.1 == die).flatMap fun e =>
    (e.2.lines.filter fun l => l.held.isSome).flatMap fun l => of (some l.lastWriter) (1, e.1) l.asid [l.line * 128]
  let ofCarrels := (s.die die).carrels.flatMap fun e =>
    if e.2.state == .running then of none (2, e.1) e.2.asid [e.2.image + (e.2.pc.toNat - 0x40000000)] else []
  (ofCmds ++ ofCores ++ ofLines ++ ofCarrels).eraseDups

/-- The same walk of the same requester. -/
def Walk.same (a b : Walk) : Bool := a.who == b.who && a.asid == b.asid && a.page == b.page

/-- The waiting walks as they stand now: one that is still wanted keeps its age, and a new one is younger than all (R349). -/
def pendingWalks (s : State) (die : Nat) : List Walk :=
  let ws := wantedWalks s die
  let d := s.die die
  let old := d.walkq.filter fun w => ws.any w.same
  old ++ ws.filter fun w => !(old.any w.same) && !(d.walking.any w.same)

/-- The requester with the fewest walks in flight, and of those the one whose oldest pending walk is oldest (R349). -/
def nextWalker (d : Die) : Option (Nat × Nat) :=
  let flying (r : Nat × Nat) : Nat := (d.walking.filter fun w => w.who == r).length
  match (d.walkq.map (·.who)).eraseDups with
  | [] => none
  | r :: rs => some (rs.foldl (fun m x => if flying x < flying m then x else m) r)

/-- The loop of R349: batches of at most 8 walks of one requester, while fewer than 64 are in flight. -/
def issueWalks : Nat → Die → Die × List Walk
  | 0, d => (d, [])
  | n + 1, d =>
    if d.walking.length ≥ 64 then (d, [])
    else match nextWalker d with
      | none => (d, [])
      | some r =>
        let batch := (d.walkq.filter fun w => w.who == r).take (min 8 (64 - d.walking.length))
        let (e, more) := issueWalks n { d with walkq := d.walkq.filter fun w => !batch.any w.same, walking := d.walking ++ batch }
        (e, batch ++ more)

/-- A walk read its leaf: its translation is leased from now (R350). -/
def leasePage (s : State) (die asid page : Nat) : State :=
  match walk s asid (page * 65536) with
  | some (some (e, level)) =>
    let s := tagFrame s asid e level (page * 65536)
    let l : Lease := { die := die, asid := asid, vpage := page, leaf := e, level := level, at_ := s.now }
    { s with leases := l :: s.leases.filter fun x => !(x.die == die && x.asid == asid && x.vpage == page) }
  | _ => s

/-- PAGE_WALK (R349): of the walks in flight any may have come to its leaf, and then the walks that wait are issued. An access whose
page has no lease walks for itself. -/
def execPageWalk (die : Nat) (s : State) : Host.Outcome State Fault Refusal :=
  let ends := (withIndex 0 (s.die die).walking).filter fun e => s.flip (7800 + e.1)
  let s := forEach ends s fun s e => leasePage s die e.2.asid e.2.page
  let (d, issued) := issueWalks 64 { s.die die with
    walkq := pendingWalks s die, walking := (s.die die).walking.filter fun w => !(ends.any fun e => e.2.same w) }
  let s := s.onDie die fun _ => d
  .next (forEach issued s fun s w => match w.team with
    | some t => countEv s t 7 1
    | none => s)

end Sys2Proof.Machine
end

