-- ==== Sys2Proof/Machine/Launch.lean ====
section
/-! DEFINITION. Launch packets: their fields (R159), the conditions on which they are refused (R79, R125, R157, R158, R160,
R339), acceptance (R161), and LAUNCH_COMMAND (R166). -/

namespace Sys2Proof.Machine

/-! ## Fields -/

/-- The packet that 16 doublewords hold (R159). -/
def packetOf (dws : List W64) : Packet :=
  let f (k lo n : Nat) : Nat := bits (dws.getD k 0) lo n
  { codeBase := f 0 0 56, codeLen := f 1 0 32, entry := f 1 32 32, argBase := f 2 0 56, argLen := f 3 0 10
    dataBase := f 4 0 56, tx := f 5 0 11, ty := f 5 11 11, tz := f 5 22 11, gx := f 6 0 32, gy := f 6 32 32, gz := f 7 0 32
    regs := f 8 0 9, sregs := f 8 9 8, scratch := f 8 17 19, windows := f 8 36 4, priv := f 8 40 17
    slips := f 9 0 7, folios := f 9 7 7, accums := f 9 14 3, rcb := f 10 0 56
    dieset := BitVec.ofNat 8 (f 11 0 8), dist := f 11 8 2, pin := f 11 10 3, steal := f 11 13 2, asid := f 11 16 16 }

/-- The reserved fields of a packet, by doubleword, first bit and width (R159). DESIGN CHOICE: bits [63:56] of DW0, DW2, DW4 and DW10,
for which the table has no row, count as reserved (log 134). -/
def packetReserved : List (Nat × Nat × Nat) :=
  [(0, 56, 8), (2, 56, 8), (3, 10, 54), (4, 56, 8), (5, 33, 31), (7, 32, 32), (8, 57, 7), (9, 17, 47), (10, 56, 8),
   (11, 15, 1), (11, 32, 32), (12, 0, 64), (13, 0, 64), (14, 0, 64), (15, 0, 64)]

/-- Waves per core for a declared vector count (R125): the table's values. -/
def wavesPerCore (regs : Nat) : Nat := min 64 (524288 / (128 * regs))

/-- The limits of R79 and of the packet's own table (R159, condition 7 of R160). -/
def Packet.withinLimits (p : Packet) : Bool :=
  p.codeBase % 4 == 0 && p.argBase % 4 == 0 && p.argLen ≤ 512 && p.argLen % 4 == 0 && p.threads ≤ 1024 &&
  8 ≤ p.regs && p.regs ≤ 256 && p.regs % 8 == 0 && 8 ≤ p.sregs && p.sregs ≤ 128 && p.sregs % 8 == 0 &&
  p.scratch ≤ 458752 && p.scratch % 128 == 0 && p.windows ≤ 8 && p.priv ≤ 65536 && p.priv % 4 == 0 && p.slips ≤ 64 &&
  p.folios ≤ 64 && p.accums ≤ 4 && (p.dist == 2 || p.pin == 0)

/-! ## The catalogue -/

/-- RCBs stand on 128-byte boundaries of HBM (R157). -/
def rcbPlace (a : Nat) : Bool := a % 128 == 0 && a < 2 ^ 40

/-- Some effective budget of the path is below what the team declares (condition 10 of R160). -/
def overBudget (s : State) (p : Packet) : Bool :=
  (rcbPath s p.rcb).any fun a =>
    p.slips > effective s 1 2 10 7 a || p.folios > effective s 2 2 17 7 a || p.accums > effective s 3 2 24 3 a

/-- The fields of R339 that only a level-1 RCB may hold: DW7 to DW15. -/
def contextFields (s : State) (a : Nat) : Bool := (List.range 9).any fun k => rcbDw s a (7 + k) != 0

/-- An RCB of a path breaks a rule of the catalogue (R157, R158, R339). -/
def rcbBroken (s : State) (a : Nat) : Bool :=
  !rcbPlace a || rcbOvr s a / 1024 != 0 || (rcbLevel s a != 1 && contextFields s a) ||
  (rcbLevel s a == 1 && bits (rcbDw s a 14) 40 16 != 0) ||
  (rcbLevel s a != 0 && rcbLevel s a ≤ rcbLevel s (rcbParent s a))

def pathBroken (s : State) (a : Nat) : Bool :=
  let path := rcbPath s a
  path.any (rcbBroken s) || !(path.any fun n => rcbLevel s n == 1) || !(path.any fun n => rcbLevel s n == 0)

/-! ## The argument block -/

/-- One word of an argument block as the package reads it; none where a byte does not translate to a present page that
permits reads. The bytes of a peer's page are free. -/
def argWord (s : State) (asid va : Nat) : Option W32 :=
  match walk s asid va with
  | some (some (e, level)) => match leafTrans s asid va false e level with
    | .hbm pa _ => some (BitVec.ofNat 32 (leNat (memReads s.hbm pa 4)))
    | .host pa _ => some (BitVec.ofNat 32 (leNat (memReads s.host pa 4)))
    | .peer _ => some (BitVec.ofNat 32 (s.pick (7000 + va) (2 ^ 32)))
    | _ => none
  | _ => none

def argWords (s : State) (p : Packet) : List (Option W32) :=
  (List.range (p.argLen / 4)).map fun i => argWord s p.asid ((p.argBase + 4 * i) % 2 ^ 56)

/-- The words of the argument block that a poisoned line holds (R192). -/
def argPoison (s : State) (p : Packet) : List Nat :=
  (List.range (p.argLen / 4)).filter fun i =>
    let va := (p.argBase + 4 * i) % 2 ^ 56
    match walk s p.asid va with
    | some (some (e, level)) => pteTarget e == 0 && s.hbmPoison.contains (leafPa e level va / 128)
    | _ => false

/-! ## Refusal and acceptance -/

/-- The twelve conditions of R160, in its order. -/
def refusals (s : State) (dws : List W64) : List Bool :=
  let p := packetOf dws
  [packetReserved.any fun x => bits (dws.getD x.1 0) x.2.1 x.2.2 != 0,
   p.dist == 3 || p.steal == 3,
   p.dieset == 0,
   p.dist == 2 && p.dieset.toNat != 2 ^ p.pin,
   p.threads == 0 || p.teams == 0,
   p.teams ≥ 2 ^ 32,
   !p.withinLimits,
   p.entry % 4 != 0 || p.entry + 12 > p.codeLen,
   !rcbPlace p.rcb || rcbLevel s p.rcb != 6,
   p.waves > wavesPerCore p.regs || overBudget s p,
   pathBroken s p.rcb,
   (tget s.roots p.asid).isNone || (argWords s p).any Option.isNone]

/-- The number of the first condition that holds (R160). -/
def refusal (s : State) (dws : List W64) : Option Nat := ((refusals s dws).findIdx? id).map (· + 1)

/-- An accepted packet takes its place in the package order, with its argument block read once (R161). -/
def acceptLaunch (s : State) (p : Packet) (session : Option Nat) : State :=
  let l : Launch := { (default : Launch) with
    id := s.nextLaunch, pkt := p, args := (argWords s p).map (·.getD 0), argPoison := argPoison s p, session := session }
  { s with launches := tset s.launches s.nextLaunch l, nextLaunch := s.nextLaunch + 1 }

/-! ## LAUNCH_COMMAND -/

/-- The key under which a LAUNCH command keeps a doubleword that a peer sent. -/
def packetKey (i : Nat) : Nat := 2 ^ 41 + i

/-- The doublewords of the packet at SRC: in the team's scratchpad, or in global space (R248). -/
def readPacket (k : Nat) : List Nat → State → List W64 → (Option Perf) × List W64 × State
  | [], s, acc => (none, acc, s)
  | i :: is, s, acc =>
    let c := s.cmd k
    let a := c.ccr.src + 8 * i
    if c.ccr.srcSp == 1 then
      if scratchBad s c.team a 8 then (some (.fatal 0x0207 0 false s), acc, s)
      else readPacket k is s (acc ++ [memDw (s.team c.team).scratch a])
    else match readGlobal s k (packetKey i) (a % 2 ^ 56) 8 with
      | .ok x s => readPacket k is s (acc ++ [BitVec.ofNat 64 x])
      | .stop p => (some p, acc, s)

/-- The packet is offered to the package order, and the command ends as R166 gives. -/
def offerPacket (s : State) (k : Nat) (dws : List W64) : State :=
  let p := packetOf dws
  if (refusal s dws).isSome then endEarly s k 1
  else if ctxOf s p.rcb != teamCtx s (s.cmd k).team then refuseCmd s k 0x0102
  else (endEarly (acceptLaunch s p none) k 0).onCmd k fun c => { c with els := p.teams }

/-- LAUNCH_COMMAND (R166). -/
def execLaunchCommand (cmd : Nat) (s : State) : Host.Outcome State Fault Refusal :=
  let c := s.cmd cmd
  if (tget s.cmds cmd).isNone || c.kind != 12 || c.state != .running || !engineTurn s c.ccr then .next s
  else if c.limit.isSome then .next (settleCmd s cmd)
  else match readPacket cmd (List.range 16) s [] with
    | (some p, _, _) => .next (afterPerf cmd p)
    | (none, dws, s) => .next (offerPacket s cmd dws)

end Sys2Proof.Machine
end

