-- ==== Sys2Proof/Machine/HostPort.lean ====
section
/-! DEFINITION. The host port (R385 to R388, R390, R393): the handshake, datagrams in order, the operations of a session, and
what closes one. -/

namespace Sys2Proof.Machine

/-! ## The end of a session -/

/-- The contexts that a session created (R387). -/
def ctxsOf (s : State) (n : Nat) : List Nat := s.ctxs.filterMap fun e => if e.2.session == some n then some e.1 else none

/-- The launches of a context admit no further team, and none of them reports to the session (R334, R386). -/
def closeCtxLaunches (s : State) (ctx : Nat) : State :=
  let ls := (s.launches.filter fun e => !e.2.ended && ctxOf s e.2.pkt.rcb == ctx).map (·.1)
  let s := forEach ls s fun s k => s.onLaunch k fun x => { x with closed := true, session := none }
  { s with cores := s.cores.map fun e => (e.1, { e.2 with teamQueue := e.2.teamQueue.filter fun q => !ls.contains q.1 }) }

/-- The carrels that a context's episodes hold. -/
def episodesOfCtx (s : State) (ctx : Nat) : List (Nat × Nat) :=
  s.dies.flatMap fun d => d.2.carrels.filterMap fun k =>
    if k.2.state != .free && ctxOf s k.2.rcb == ctx then some (d.1, k.1) else none

/-- An episode whose context ends is closed and its carrel free: a page that is absent holds nothing to scrub (R318, R386). -/
def endEpisode (s : State) (die c : Nat) : State :=
  let (done, s) := closeEpisode s die c
  if done then s else freeCarrel s die c

/-- A context is terminated as one fault domain, with no report, and its episodes are closed (R318, R334, R386). -/
def endCtx (s : State) (ctx : Nat) : State :=
  let s := closeCtxLaunches s ctx
  let ts := s.teams.filterMap fun (k, x) =>
    if (x.status == .resident || x.status == .frozen || x.status == .saved || x.reportHeld) && teamCtx s k == ctx then some k else none
  let s := forEach ts s fun s k => teamDone (endTeam (s.onTeam k fun x => { x with reportHeld := false }) k) k
  let s := forEach (episodesOfCtx s ctx) s fun s e => endEpisode s e.1 e.2
  let s := forEach s.launches s fun s l => if ctxOf s l.2.pkt.rcb == ctx then endLaunch s l.1 else s
  -- the window lines of its address spaces are dropped, those that a write-back holds too (R180)
  let owned (asid : Nat) : Bool := (tget s.roots asid).map (·.2) == some ctx
  { s with
    cores := s.cores.map fun c => (c.1, { c.2 with lines := c.2.lines.filter fun l => !owned l.asid })
    roots := s.roots.filter fun r => r.2.2 != ctx
    comms := s.comms.filter fun c => c.2.ctx != ctx
    frameKeys := s.frameKeys.filter fun f => f.2.2 != ctx
    ctxs := tdel s.ctxs ctx }

/-- The frames that are held under a key slot of a session (R388). -/
def keyedFrames (s : State) (n : Nat) : List Nat :=
  s.frameKeys.filterMap fun f => if tget s.keys f.2.1 == some n then some f.1 else none

/-- Frames whose key is erased. DESIGN CHOICE: no L2 keeps a line of them, and what memory holds reads as free bytes (R386, R388;
log 145). -/
def loseFrames (s : State) (fs : List Nat) : State :=
  let lost (line : Nat) : Bool := fs.contains (line / 512)
  let junk (f : Nat) : List Byte := (List.range 65536).map fun i => BitVec.ofNat 8 (Config.free s.tick (2 ^ 61 + 65536 * f + i))
  { s with
    hbm := fs.foldl (fun m f => memWrites m (65536 * f) (junk f)) s.hbm
    l2Dirty := s.l2Dirty.filter fun e => !lost (e.1 / 128)
    dies := s.dies.map fun d => (d.1, { d.2 with
      loans := d.2.loans.filter fun l => !lost l.line, annex := d.2.annex.filter fun a => !lost (a.pa / 128) }) }

/-- The number under which a session's requests to other packages stand: no command has it. -/
def hostKey (n : Nat) : Nat := 2 ^ 47 + n

/-- A session closes: its contexts end, its key slots are erased, and what it asked of other packages is dropped (R386). -/
def closeSession (s : State) (n : Nat) : State :=
  let fs := keyedFrames s n
  let s := loseFrames (forEach (ctxsOf s n) s endCtx) fs
  { s with
    sessions := tdel s.sessions n, keys := s.keys.filter fun k => k.2 != n
    nodes := s.nodes.filter fun e => e.2 != n, peerOut := s.peerOut.filter fun o => o.cmd != hostKey n }

/-! ## The handshake -/

def sessionIds : List Nat := (List.range 64).map (· + 1)

/-- 1 s and 60 s in ec cycles (R14, R386). -/
def second : Nat := 2100000000

/-- Bytes that only the root of trust knows (R389, R390): 1 the ephemeral public keys, 2 the digests of the images that a boot loads,
3 the serial number, 4 the digest of the fused configuration, 6 what stands for an image that was refused. -/
def secretBytes (kind at_ n : Nat) : List Byte := (List.range n).map fun i => Config.secret kind (at_ + i)

/-- An image is accepted (R389): both its signatures verify and its version is not below the fused counter of its type. -/
def imageOk (boot ty : Nat) : Bool :=
  Config.imageVerifies boot ty 0 && Config.imageVerifies boot ty 1 && Config.antiRollback ty ≤ Config.imageVersion boot ty

/-- The measurements of a boot (R390): of the package, carrel and sequencer firmware that it loaded, and of the fused configuration.
DESIGN CHOICE: for an image that was refused they show a fixed value, by which the session reports its cores unavailable (R389; log
16). -/
def measurements (boot : Nat) : List Byte :=
  ((List.range 3).flatMap fun ty =>
    if imageOk boot ty then secretBytes 2 (48 * (3 * boot + ty)) 48 else secretBytes 6 0 48) ++ secretBytes 4 0 48

/-- The certificate of a boot (R390): its two alias keys, signed with both identity keys, at the LMS leaf of the boot counter. -/
def certificate (boot : Nat) : List Byte :=
  let keys := Config.publicKey 0 (boot + 1) ++ Config.publicKey 1 (boot + 1)
  keys ++ Config.sign 0 0 0 keys ++ Config.sign 1 0 boot keys

/-- The signed report number n of a boot (R390), with an ephemeral key of its own. -/
def reportBytes (boot n : Nat) (nonce : List Byte) : List Byte :=
  let head := nonce ++ secretBytes 1 (96 * (boot * 2 ^ 20 + n)) 96 ++ measurements boot ++ secretBytes 3 0 8 ++ leBytes 8 boot ++
    certificate boot
  head ++ Config.sign 0 (boot + 1) 0 head ++ Config.sign 1 (boot + 1) n head

/-- The package looks at a datagram (R385): others for its port, and those with extension headers, are dropped. -/
def dgramTaken (h : Dgram) : Bool := h.port == 24810 && !h.ext

/-- Its header is as R385 has it for a payload of at least n bytes. -/
def dgramSound (h : Dgram) (n : Nat) : Bool := h.ver == 1 && n ≤ h.len && h.len ≤ 9088 && h.frame == h.len + 32

/-- HELLO (R386, R390): answered while a session id is free, the boot has a certificate and reports remain. -/
def execHello (m : Hello) (s : State) : Host.Outcome State Fault Refusal :=
  let free := sessionIds.find? fun n => (tget s.sessions n).isNone
  match free with
  | none => .next s
  | some n =>
    if !dgramTaken m.toDgram || !dgramSound m.toDgram 48 || m.session != 0 || m.seq != 0 || m.nonce.length != 48 || s.reports ≥ 2 ^ 20 || s.bootCount > 2 ^ 20 - 1 then
      .next s
    else
      let x : Session := { (default : Session) with startedAt := s.now, lastAt := s.now, report := s.reports }
      .next { s with
        sessions := tset s.sessions n x, reports := s.reports + 1
        out := s.out ++ [.host n 0 0x02 (reportBytes s.bootCount s.reports m.nonce)] }

/-- KEYX (R386): the session is open. -/
def execKeyx (h : Dgram) (key : List Byte) (s : State) : Host.Outcome State Fault Refusal :=
  match tget s.sessions h.session with
  | some x =>
    if !dgramTaken h || !dgramSound h 96 || h.seq != 0 || x.opened || key.length != 96 then .next s
    else .next (s.onSession h.session fun x => { x with opened := true, lastAt := s.now, hostKey := key })
  | none => .next s

/-- The bytes of a datagram that the device sends (R385): a report in clear, anything else under its session's key. -/
def frameBytes (s : State) : Out → List Byte
  | .host n seq ty payload =>
    let head := leBytes 1 1 ++ leBytes 1 ty ++ leBytes 2 payload.length ++ leBytes 4 n ++ leBytes 8 seq
    let x := s.session n
    head ++
      if ty == 0x02 then payload ++ leBytes 16 0
      else Config.gcm (Config.sessionKey s.bootCount x.report x.hostKey n 0) (leBytes 4 n ++ leBytes 8 seq) head payload
  | _ => []

/-- HANDSHAKE_TIMEOUT (R386). -/
def execHandshakeTimeout (session : Nat) (s : State) : Host.Outcome State Fault Refusal :=
  match tget s.sessions session with
  | some x => if !x.opened && x.startedAt + second ≤ s.now then .next { s with sessions := tdel s.sessions session } else .next s
  | none => .next s

/-- SESSION_IDLE_TIMEOUT (R386). -/
def execSessionIdleTimeout (session : Nat) (s : State) : Host.Outcome State Fault Refusal :=
  match tget s.sessions session with
  | some x => if x.opened && x.lastAt + 60 * second ≤ s.now then .next (closeSession s session) else .next s
  | none => .next s

/-! ## Global bytes -/

/-- The management window and its registers (R393). -/
def mgmtBase : Nat := 0xF000000000
/-- A run of bytes that meets the registers, and one that lies among them. -/
def meetsMgmt (va n : Nat) : Bool := n != 0 && mgmtBase < va + n && va < mgmtBase + 0x78
def inMgmt (va n : Nat) : Bool := mgmtBase ≤ va && va + n ≤ mgmtBase + 0x78

/-- A management register (R393). -/
def mgmtReg (s : State) (i : Nat) : Nat :=
  if i == 0 then 0x5938 + (Config.secret 5 0).toNat * 2 ^ 16
  else if i == 1 then (Config.sensor 0 s.now).toNat
  else if i < 12 then (Config.sensor (i - 1) s.now).toNat
  else if i == 12 then s.eccCorrected % 2 ^ 32 + s.eccUncorrectable % 2 ^ 32 * 2 ^ 32
  else if i == 13 then s.skipped % 2 ^ 64
  else s.pkgNum % 256 + (if s.linksUp then 2 ^ 63 else 0)

def mgmtByte (s : State) (va : Nat) : Byte := BitVec.ofNat 8 (mgmtReg s ((va - mgmtBase) / 8) / 256 ^ ((va - mgmtBase) % 8))

/-- A session may use an address space of its contexts (R387). -/
def ownsAsid (s : State) (n asid : Nat) : Bool :=
  match tget s.roots asid with
  | some (_, ctx) => (s.ctx ctx).session == some n
  | none => false

/-- Where a byte of a session's access lies. -/
def hostPlace (s : State) (asid va : Nat) (write : Bool) : Trans :=
  match walk s asid (va % 2 ^ 56) with
  | some (some (e, level)) => leafTrans s asid (va % 2 ^ 56) write e level
  | some none => .absent
  | none => .bad 0x0203

/-- A byte as a READ gives it: at its home, or in host memory; none where it cannot be read (R387). -/
def hostByte (s : State) (asid va : Nat) : Option Byte :=
  match hostPlace s asid va false with
  | .hbm pa _ => if s.hbmPoison.contains (pa / 128) then none else some (memRead s.hbm pa)
  | .host pa _ => some (memRead s.host pa)
  | _ => none

/-- The other package that a byte's page names (R361). -/
def hostPeer (s : State) (asid va : Nat) (write : Bool) : Option Nat :=
  match hostPlace s asid va write with
  | .peer pkg => some pkg
  | _ => none

/-- A byte may be written by a WRITE: a sibling page refuses plain writes (R306), and another package must be reached (R361). -/
def hostWritable (s : State) (asid va : Nat) : Bool :=
  match hostPlace s asid va true with
  | .hbm _ e => !pteSibling e
  | .host _ _ => true
  | .peer _ => s.linksUp
  | _ => false

/-- The bytes of a run cut at 128-byte lines. -/
def lineRuns : Nat → Nat → List Byte → List (Nat × List Byte)
  | 0, _, _ => []
  | n + 1, va, bs =>
    if bs.isEmpty then []
    else
      let k := 128 - va % 128
      (va, bs.take k) :: lineRuns n (va + k) (bs.drop k)

def hostPut (s : State) (asid : Nat) (r : Nat × List Byte) : State :=
  match hostPlace s asid r.1 true with
  | .hbm pa _ => homeWrite s pa r.2
  | .host pa _ => { s with host := memWrites s.host pa r.2 }
  | _ => s

/-- An access of a session tags the frames that it reaches (R388). -/
def tagRun (s : State) (asid va n : Nat) : State :=
  if n == 0 then s
  else forEach (List.range ((va + n - 1) / 65536 + 1 - va / 65536)) s fun s i =>
    let p := (va / 65536 + i) * 65536 % 2 ^ 56
    match walk s asid p with
    | some (some (e, level)) => tagFrame s asid e level p
    | _ => s

/-! ## Operations -/

/-- The answer to an operation (R387): its SEQ, a status, and data. -/
def reply (s : State) (n seq status : Nat) (data : List Byte) : State :=
  s.tell n 0x20 (leBytes 8 seq ++ leBytes 1 status ++ data)

/-- Status 0 with the state after it, or 1 and nothing done. -/
abbrev Done := Option (State × List Byte)

def ownsCtx (s : State) (n ctx : Nat) : Bool := (tget s.ctxs ctx).isSome && (s.ctx ctx).session == some n

/-- WRITE: performed at .sys (R387); the lines of other packages are asked of them beside. -/
def opWrite (s : State) (n asid va : Nat) (data : List Byte) : Done :=
  if meetsMgmt va data.length || !ownsAsid s n asid then none
  else if (List.range data.length).all fun i => hostWritable s asid (va + i) then
    some (forEach (lineRuns (data.length + 1) va data) (tagRun s asid va data.length) fun s r => hostPut s asid r, [])
  else none

/-- A byte of a READ (R387, R393): of a management register, of a line that another package has answered, or of memory. -/
def readByte (s : State) (n asid va0 : Nat) (got : Tbl (List Byte)) (va : Nat) : Option Byte :=
  if inMgmt va 1 then some (mgmtByte s va)
  else if !ownsAsid s n asid then none
  else match tget got (va / 128 - va0 / 128) with
    | some bs => bs[va - max va0 (va / 128 * 128)]?
    | none => hostByte s asid va

/-- READ of at most 8 KiB (R387, R393), with the lines that other packages have answered. -/
def opRead (s : State) (n asid va len : Nat) (got : Tbl (List Byte)) : Done :=
  if len > 8192 then none
  else
    let bs := (List.range len).map fun i => readByte s n asid va got (va + i)
    if bs.all Option.isSome then some (if ownsAsid s n asid then tagRun s asid va len else s, bs.filterMap id) else none

/-- A die drops what its L2 and its cores hold clean before the teams of a host's launch read there: the kernel reads what the
session wrote (R387). -/
def launchAcquire (s : State) (p : Packet) : State :=
  forEach p.dies s fun s d =>
    let s := forEach ((List.range 80).map (80 * d + ·)) s fun s c =>
      if (tget s.cores c).isSome then dropClean s c p.asid fun _ => true else s
    acquirePkg s (ctxOf s p.rcb) d none true

/-- LAUNCH (R161, R387): ACCEPT with the launch identifier, or REFUSE with the number of the condition. -/
def opLaunch (s : State) (n : Nat) (dws : List W64) : Nat × State × List Byte :=
  let p := packetOf dws
  match refusal s dws with
  | some k => (1, s, leBytes 1 k)
  | none =>
    if !ownsCtx s n (ctxOf s p.rcb) || !ownsAsid s n p.asid then (1, s, [])
    else (0, acceptLaunch (launchAcquire s p) p (some n), leBytes 4 s.nextLaunch)

/-- The state with a record of doublewords in HBM. -/
def putDws (s : State) (pa : Nat) (dws : List W64) : State := homeWrite s pa (dws.flatMap fun d => leBytes 8 d.toNat)

/-- An address at which a session has no RCB yet, or one of its own (R387). -/
def nodeFree (s : State) (n addr : Nat) : Bool :=
  (tget s.nodes addr).getD n == n && ((tget s.ctxs addr).map (·.session)).getD (some n) == some n

/-- REGISTER of an RCB (R157, R387): the device root, a context, which the session then owns, or a node of one of its
contexts. -/
def registerRcb (s : State) (n addr : Nat) (dws : List W64) : Option State :=
  let s' := putDws s addr dws
  let level := rcbLevel s' addr
  if dws.length != 16 || !rcbPlace addr || level == 7 || !nodeFree s n addr then none
  else if level == 0 then
    if s.ctxs.any (fun e => (rcbPath s e.1).contains addr && e.2.session != some n) || rcbBroken s' addr || rcbOvr s' addr != 0x3FF ||
      rcbParent s' addr != 0 then none
    else some s'
  else if pathBroken s' addr then none
  else if level == 1 then
    match tget s.ctxs addr with
    | some c => if c.session == some n then some s' else none
    | none => some { s' with ctxs := tset s'.ctxs addr { (default : Ctx) with session := some n } }
  else if ownsCtx s n (ctxOf s' addr) && (tget s.ctxs addr).isNone then some { s' with nodes := tset s'.nodes addr n }
  else none

/-- REGISTER of a page-table root under a context of the session (R348, R387). -/
def registerRoot (s : State) (n ctx asid addr : Nat) : Option State :=
  let free := match tget s.roots asid with
    | some (_, c) => c == ctx
    | none => true
  if ownsCtx s n ctx && asid < 65536 && addr % 256 == 0 && addr < 2 ^ 40 && free then
    some { s with roots := tset s.roots asid (addr, ctx) }
  else none

/-- Bytes of pinned memory that a registration reads. -/
def pinnedBytes (s : State) (asid va n : Nat) : Option (List Byte) :=
  let bs := (List.range n).map fun i => hostByte s asid (va + i)
  if bs.all Option.isSome then some (bs.filterMap id) else none

def dwsOf : Nat → List Byte → List W64
  | 0, _ => []
  | n + 1, bs => BitVec.ofNat 64 (leNat (bs.take 8)) :: dwsOf n (bs.drop 8)

/-- A communicator descriptor is well formed (R367): its header for the slot, and its member words. -/
def commOk (slot : Nat) (h : List W64) (ms : List Nat) : Bool :=
  let f (k lo n : Nat) : Nat := bits (h.getD k 0) lo n
  let chunk := f 2 0 32
  let nm := f 0 8 11
  f 0 0 4 == slot && slot < 12 && f 0 4 4 == 0 && f 0 19 13 == 0 && 1 ≤ nm && nm ≤ 1152 &&
  f 1 0 10 * f 1 10 10 * f 1 20 10 == nm && f 1 30 2 == 0 && f 1 32 18 != 0 && f 1 50 14 == 0 &&
  chunk % 4096 == 0 && 4096 ≤ chunk && chunk ≤ 2 ^ 24 && f 2 32 32 == 0 && ((List.range 5).all fun k => f (3 + k) 0 64 == 0) &&
  ms.length == nm && ms.all (fun m => m / 2048 == 0) && ms.eraseDups.length == nm

/-- REGISTER of a communicator (R367, R368, R387): each member die of the package counts from 0. -/
def registerComm (s : State) (n ctx slot asid va : Nat) : Option State :=
  let free := match tget s.comms slot with
    | some c => c.ctx == ctx
    | none => true
  let own := (tget s.roots asid).map (·.2) == some ctx
  if !ownsCtx s n ctx || !own || !free || va % 64 != 0 then none
  else match pinnedBytes s asid va 64 with
    | none => none
    | some hb =>
      let h := dwsOf 8 hb
      let nm := bits (h.getD 0 0) 8 11
      match pinnedBytes s asid (va + 64) (4 * nm) with
      | none => none
      | some mb =>
        let ms := (w32s mb).map (·.toNat)
        if !commOk slot h ms then none
        else
          let c : Comm := { ctx := ctx, asid := asid, va := va, desc := h, members := ms.map fun m => (m % 256, m / 256 % 8) }
          some { s with
            comms := tset s.comms slot c
            dies := s.dies.map fun d => (d.1, { d.2 with comms := tdel d.2.comms slot }) }

/-- REGISTER of a sibling table record (R295, R387). -/
def registerTable (s : State) (n ctx idx : Nat) (dws : List W64) : Option State :=
  let f (k lo w : Nat) : Nat := bits (dws.getD k 0) lo w
  let reserved := f 0 56 8 != 0 || f 1 56 8 != 0 || f 2 2 14 != 0 || f 2 32 32 != 0 || f 7 0 64 != 0 ||
    (List.range 16).any fun k => f (3 + k / 4) (16 * (k % 4) + 11) 4 != 0
  if !ownsCtx s n ctx || idx ≥ 256 || dws.length != 8 || reserved || f 0 0 56 % 65536 != 0 || f 1 0 56 % 65536 != 0 then none
  else some (putDws s (bits (rcbDw s ctx 14) 0 56 + 64 * idx) dws)

/-- REGISTER of a key slot (R388): slots 1 to 255, each once per boot. -/
def registerKey (s : State) (n ctx slot : Nat) : Option State :=
  if ownsCtx s n ctx && 1 ≤ slot && slot < 256 && !s.keysUsed.contains slot then
    some { s with keys := tset s.keys slot n, keysUsed := slot :: s.keysUsed }
  else none

def opRegister (s : State) (n : Nat) (r : RegItem) : Done :=
  (match r with
    | .rcb addr dws => registerRcb s n addr dws
    | .root ctx asid addr => registerRoot s n ctx asid addr
    | .comm ctx slot asid va => registerComm s n ctx slot asid va.toNat
    | .sibtab ctx idx dws => registerTable s n ctx idx dws
    | .key ctx slot => registerKey s n ctx slot).map fun s => (s, [])

/-- CONTROL: a context is pre-empted, or resumed (R345). -/
def opPreempt (s : State) (n ctx : Nat) : Done :=
  if ownsCtx s n ctx then some (s.onCtx ctx fun c => { c with preempted := true }, []) else none

def opResume (s : State) (n ctx : Nat) : Done :=
  if ownsCtx s n ctx && (s.ctx ctx).preempted then some (s.onCtx ctx fun c => { c with preempted := false }, []) else none

/-- CONTROL: a frozen master of one of the session's contexts, or the session itself, goes on (R353). -/
def opUnfreeze (s : State) (n : Nat) (m : Master) : Done :=
  match m with
  | .session id => if id == n && (s.session n).frozen then some (s.onSession n fun x => { x with frozen := false }, []) else none
  | .sequencer p =>
    if (s.port p).frozen && ((portCtx s p).map fun c => ownsCtx s n c) == some true then
      some (s.onPort p fun x => { x with frozen := false }, [])
    else none
  | .team l o =>
    match s.teams.find? fun e => (s.launch e.2.launch).id == l && e.2.ordinal == o && e.2.freeze.isSome with
    | some (t, _) => if ownsCtx s n (teamCtx s t) then some (unfreezeTeam s t, []) else none
    | none => none

/-- CONTROL: the EPOCH of a table advances (R309, R310). -/
def opEpoch (s : State) (n ctx idx : Nat) : Done :=
  if ownsCtx s n ctx && idx < 256 then
    let (e, s) := advanceEpoch s (bits (rcbDw s ctx 14) 0 56 + 64 * idx)
    some (s, leBytes 2 e.toNat)
  else none

/-- CONTROL: OVF of a context's RCB is cleared (R339, R342). -/
def opClearOvf (s : State) (n ctx : Nat) : Done :=
  if ownsCtx s n ctx then
    let d := (rcbDw s ctx 8).toNat
    some (homeWrite s (ctx + 64) (leBytes 8 (if d / 2 ^ 17 % 2 == 1 then d - 2 ^ 17 else d)), [])
  else none

/-! ## A package reset -/

/-- A package reset and boot (R391): the work, the sessions and the key slots are gone and the clocks start at 0. Without the package
image boot stops at step 2, before HBM is written zero; carrels or sequencers whose image is refused are held in reset (R389). -/
def bootPackage (s : State) : State :=
  let boot := s.bootCount + 1
  let s1 := { State.reset with
    tick := s.tick, agenda := s.agenda, host := s.host, out := s.out, bootCount := boot }
  if !imageOk boot 0 then { s1 with power := .off, hbm := s.hbm, hbmPoison := s.hbmPoison }
  else
    let up := s.flip 8200
    { s1 with
      linksUp := up, pkgNum := if up then s.pick 8201 144 else 0
      carrelsHeld := !imageOk boot 1, sequencersHeld := !imageOk boot 2 }

/-! ## Datagrams -/

/-- The last SEQ of the datagrams that have arrived in order. -/
def arrived (held : List (Nat × HostOp)) : Nat → Nat → Nat
  | 0, q => q
  | k + 1, q => if (tget held (q + 1)).isSome then arrived held k (q + 1) else q

/-- The session is frozen, with its entry and event (R353): the WRITEs that have arrived in order are performed still, and the READs
among them are discarded. -/
def freezeSession (s : State) (n : Nat) : State :=
  let extra := freezeExtra 3 3 n 0
  let s := match ctxsOf s n with
    | ctx :: _ => (dockFault s ctx 0 { (default : DockEntry) with
        kind := 3, source := 7, die := 0xFF, core := 0xFF, tslot := 0xFF, cls := 0xFF, extra := extra }).2
    | [] => s
  (s.onSession n fun x => { x with frozen := true, accepted := arrived x.held 64 x.highest }).tell n 0x21 extra

/-- A done operation's answer, or a refusal. -/
def answerOp (s : State) (n seq : Nat) (d : Done) : State :=
  match d with
  | some (s, data) => reply s n seq 0 data
  | none => reply s n seq 1 []

/-! ## Other packages -/

/-- The lines of a run that other packages hold: their places in the run, their packages, and their bytes. -/
def peerLines (s : State) (asid va : Nat) (bs : List Byte) (write : Bool) : List (Nat × Nat × Nat × List Byte) :=
  (withIndex 0 (lineRuns (bs.length + 1) va bs)).filterMap fun e =>
    if inMgmt e.2.1 1 then none else (hostPeer s asid e.2.1 write).map fun pkg => (e.1, pkg, e.2.1 % 2 ^ 56, e.2.2)

/-- The number of a line of an operation among a session's requests. -/
def hostElem (seq i : Nat) : Nat := seq % 2 ^ 28 * 128 + i

/-- The lines are asked of their packages, and the operation waits for them (R361, R362). DESIGN CHOICE: in class 0 (log 130). -/
def askLines (s : State) (n asid : Nat) (w : HostWait) (ls : List (Nat × Nat × Nat × List Byte)) : State :=
  let ask (s : State) (l : Nat × Nat × Nat × List Byte) : State :=
    s.request {
      pkg := l.2.1, port := portOf l.2.2.1, cmd := hostKey n, cls := 0, asid := asid, va := l.2.2.1, len := l.2.2.2.length
      elem := if w.write then writeKey (hostElem w.seq l.1) else hostElem w.seq l.1
      kind := .memory, data := if w.write then l.2.2.2 else [], write := if w.write then some .plain else none }
  (forEach ls s ask).onSession n fun x => { x with pending := some { w with left := ls.map (·.1) } }

/-- A WRITE, answered once every package has acknowledged its lines (R387). -/
def runWrite (s : State) (n seq asid va : Nat) (data : List Byte) : State :=
  let ls := peerLines s asid va data true
  match opWrite s n asid va data with
  | some (s, _) =>
    if ls.isEmpty then reply s n seq 0 []
    else askLines s n asid { (default : HostWait) with seq := seq, write := true, asid := asid, va := va, len := data.length } ls
  | none => reply s n seq 1 []

/-- A READ, answered once every package has sent its lines (R387). -/
def runRead (s : State) (n seq asid va len : Nat) : State :=
  let ls := peerLines s asid va (List.replicate len 0) false
  if len > 8192 || ls.isEmpty || !ownsAsid s n asid || !s.linksUp then answerOp s n seq (opRead s n asid va len [])
  else askLines s n asid { (default : HostWait) with seq := seq, asid := asid, va := va, len := len } ls

/-- The operation in progress is over: its answer, and then the ENDs that waited for it (R387). -/
def endWait (s : State) (n : Nat) (w : HostWait) : State :=
  let late := (s.session n).late
  let s := s.onSession n fun x => { x with pending := none, late := [] }
  let s := if w.bad then reply s n w.seq 1 []
    else if w.write then reply s n w.seq 0 []
    else answerOp s n w.seq (opRead s n w.asid w.va w.len w.got)
  forEach late s fun s p => s.tell n 0x21 p

/-- One operation of a session, in its place (R387, R392). -/
def runOp (s : State) (n seq : Nat) (op : HostOp) : State :=
  let stopped := s.power != .up
  let frozen := (s.session n).frozen
  match op with
  | .illegal => if frozen then s else freezeSession s n
  | .close => if stopped then reply s n seq 1 [] else closeSession (reply s n seq 0 []) n
  | .reset => if stopped && !frozen then bootPackage (reply s n seq 0 []) else reply s n seq 1 []
  | .read asid va len =>
    if seq ≤ (s.session n).accepted then s
    else if frozen || (stopped && !(inMgmt va.toNat len && len ≤ 8192)) then reply s n seq 1 []
    else runRead s n seq asid va.toNat len
  | .unfreeze m =>
    if stopped || (frozen && m != .session n) then reply s n seq 1 [] else answerOp s n seq (opUnfreeze s n m)
  | .write asid va data =>
    if stopped || (frozen && !(seq ≤ (s.session n).accepted)) then reply s n seq 1 [] else runWrite s n seq asid va.toNat data
  | .launch dws =>
    if stopped || frozen then reply s n seq 1 []
    else
      let (st, s, data) := opLaunch s n dws
      reply s n seq st data
  | .register r => if stopped || frozen then reply s n seq 1 [] else answerOp s n seq (opRegister s n r)
  | .preempt ctx => if stopped || frozen then reply s n seq 1 [] else answerOp s n seq (opPreempt s n ctx)
  | .resume ctx => if stopped || frozen then reply s n seq 1 [] else answerOp s n seq (opResume s n ctx)
  | .epoch ctx idx => if stopped || frozen then reply s n seq 1 [] else answerOp s n seq (opEpoch s n ctx idx)
  | .clearOvf ctx => if stopped || frozen then reply s n seq 1 [] else answerOp s n seq (opClearOvf s n ctx)

/-- Operations are executed in SEQ order, one at a time, while the next one has arrived (R386, R387). -/
def drainOps : Nat → State → Nat → State
  | 0, s, _ => s
  | k + 1, s, n =>
    match tget s.sessions n with
    | none => s
    | some x =>
      let seq := x.highest + 1
      match (if x.pending.isSome then none else tget x.held seq) with
      | none => s
      | some op =>
        let s := s.onSession n fun x => { x with highest := seq, held := tdel x.held seq }
        drainOps k (runOp s n seq op) n

/-- The least payload of an operation that carries data (R387). -/
def HostOp.payload : HostOp → Nat
  | .write _ _ data => data.length
  | .launch dws => 8 * dws.length
  | .register (.rcb _ dws) => 8 * dws.length
  | .register (.sibtab _ _ dws) => 8 * dws.length
  | _ => 0

/-- A datagram arrives (R385, R386): one that is not for this transport, does not authenticate, was executed or is too early is
dropped; one whose header is not sound is protocol-illegal. -/
def hostArrive (s : State) (h : Dgram) (op : HostOp) : State :=
  let op := if dgramSound h op.payload then op else .illegal
  match tget s.sessions h.session with
  | none => s
  | some x =>
    if !x.opened || !dgramTaken h || !h.authentic || h.seq ≤ x.highest || h.seq > x.highest + 64 then s
    else
      let s := s.onSession h.session fun x => { x with
        lastAt := s.now, held := if (tget x.held h.seq).isSome then x.held else tset x.held h.seq op }
      drainOps 65 s h.session

/-! ## Answers of other packages -/

/-- An answer of another package to a line of a session's operation; the last ends the operation (R361, R362, R387). -/
def hostAnswered (s : State) (n key : Nat) (write : Bool) (data : List Byte) (fault : Option PeerFault) : State :=
  match asked s (hostKey n) key write, (s.session n).pending with
  | some _, some w =>
    let s := dropAsked s (hostKey n) key
    let i := key % 128
    let w := { w with
      left := w.left.filter (· != i), bad := w.bad || fault.isSome, got := if write then w.got else tset w.got i data }
    if w.left.isEmpty then drainOps 65 (endWait s n w) n
    else s.onSession n fun x => { x with pending := some w }
  | _, _ => s

/-- The session whose requests stand under a number, if any. -/
def hostOf (cmd : Nat) : Option Nat := if 2 ^ 47 ≤ cmd && cmd < 2 ^ 48 then some (cmd - 2 ^ 47) else none

/-- PEER_ACK (R362): the write is performed at .pod. -/
def execPeerAck (cmd elem : Nat) (data : List Byte) (fault : Option PeerFault) (s : State) : Host.Outcome State Fault Refusal :=
  if !s.linksUp then .next s
  else match hostOf cmd with
    | some n => .next (hostAnswered s n elem true data fault)
    | none => .next (answer s cmd elem true data fault)

/-- PEER_READ_RESPONSE (R361, R362): of a read by a command's element, of the bytes of a notice, of a session's READ, or of a chunk
that a sequencer reads (R376). -/
def execPeerReadResponse (cmd elem : Nat) (data : List Byte) (fault : Option PeerFault) (s : State) :
    Host.Outcome State Fault Refusal :=
  if !s.linksUp then .next s
  else match tget s.notices cmd, hostOf cmd with
    | some w, _ => .next (applyNotice s cmd w data)
    | none, some n => .next (hostAnswered s n elem false data fault)
    | none, none =>
      if (s.cmd cmd).kind == 10 then .next (chunkAnswered s cmd elem data fault)
      else .next (answer s cmd elem false data fault)

/-! ## Datagrams as events -/

/-- PROTOCOL_ILLEGAL (R353, R386). -/
def execProtocolIllegal (h : Dgram) (s : State) : Host.Outcome State Fault Refusal := .next (hostArrive s h .illegal)

/-- HOST_WRITE (R387). -/
def execHostWrite (h : Dgram) (asid : Nat) (va : VA) (data : List Byte) (s : State) : Host.Outcome State Fault Refusal :=
  .next (hostArrive s h (.write asid va data))

/-- HOST_READ (R387, R393). -/
def execHostRead (h : Dgram) (asid : Nat) (va : VA) (len : Nat) (s : State) : Host.Outcome State Fault Refusal :=
  .next (hostArrive s h (.read asid va len))

/-- HOST_LAUNCH (R161, R387): a payload of another length than a packet's is malformed (R386). -/
def execHostLaunch (h : Dgram) (packet : List W64) (s : State) : Host.Outcome State Fault Refusal :=
  .next (hostArrive s h (if packet.length == 16 then .launch packet else .illegal))

/-- REGISTER (R387): a record of another length than the item's is malformed (R386). -/
def execRegister (h : Dgram) (r : RegItem) (s : State) : Host.Outcome State Fault Refusal :=
  let whole : Bool := match r with
    | .rcb _ dws => dws.length == 16
    | .sibtab _ _ dws => dws.length == 8
    | _ => true
  .next (hostArrive s h (if whole then .register r else .illegal))

/-- CONTROL_PREEMPT (R345). -/
def execControlPreempt (h : Dgram) (ctx : Nat) (s : State) : Host.Outcome State Fault Refusal := .next (hostArrive s h (.preempt ctx))

/-- CONTROL_RESUME (R345). -/
def execControlResume (h : Dgram) (ctx : Nat) (s : State) : Host.Outcome State Fault Refusal := .next (hostArrive s h (.resume ctx))

/-- CONTROL_UNFREEZE (R353). -/
def execControlUnfreeze (h : Dgram) (m : Master) (s : State) : Host.Outcome State Fault Refusal := .next (hostArrive s h (.unfreeze m))

/-- CONTROL_EPOCH_ADVANCE (R309, R310). -/
def execControlEpochAdvance (h : Dgram) (ctx idx : Nat) (s : State) : Host.Outcome State Fault Refusal :=
  .next (hostArrive s h (.epoch ctx idx))

/-- CONTROL_CLEAR_OVF (R387). -/
def execControlClearOvf (h : Dgram) (ctx : Nat) (s : State) : Host.Outcome State Fault Refusal := .next (hostArrive s h (.clearOvf ctx))

/-- CONTROL_RESET (R391): only while the package is stopped by temperature. -/
def execControlReset (h : Dgram) (s : State) : Host.Outcome State Fault Refusal := .next (hostArrive s h .reset)

/-- CLOSE (R386). -/
def execClose (h : Dgram) (s : State) : Host.Outcome State Fault Refusal := .next (hostArrive s h .close)

end Sys2Proof.Machine
end

