-- ==== Sys2Proof/Machine/Boot.lean ====
section
/-! DEFINITION. The package as a whole: reset and boot (R391), power and temperature (R392), uncorrectable errors (R192), and
what still acts while the package is stopped. -/

namespace Sys2Proof.Machine

/-! ## Reset -/

/-- POWER_ON (R391). -/
def execPowerOn (s : State) : Host.Outcome State Fault Refusal := .next (bootPackage s)

/-- RESET_INPUT (R391). -/
def execResetInput (s : State) : Host.Outcome State Fault Refusal := .next (bootPackage s)

/-! ## Power and temperature -/

/-- POWER_LIMIT (R392): the measured power exceeds 7.5 kW. -/
def execPowerLimit (s : State) : Host.Outcome State Fault Refusal :=
  if (Config.sensor 0 s.now).toNat > 7500 then .next { s with skipping := true } else .next s

/-- POWER_FALLS_BELOW_LIMIT (R392). -/
def execPowerFallsBelowLimit (s : State) : Host.Outcome State Fault Refusal :=
  if (Config.sensor 0 s.now).toNat < 7500 then .next { s with skipping := false } else .next s

/-- THERMAL_STOP (R392): a junction at 105 degrees, 840 units of 0.125 degree, stops the package, and every open session is
told; an operation that waits for another package is refused. -/
def execThermalStop (die : Nat) (s : State) : Host.Outcome State Fault Refusal :=
  if die < 10 && s.power == .up && (Config.sensor (1 + die) s.now).toNat ≥ 840 then
    let open_ := s.sessions.filterMap fun e => if e.2.opened then some e.1 else none
    .next (forEach open_ { s with power := .stopped die } fun s n =>
      let s := s.tell n 0x21 (freezeExtra 0 4 die 0)
      match (s.session n).pending with
      | some w => drainOps 65 (endWait s n { w with bad := true }) n
      | none => s)
  else .next s

/-! ## Uncorrectable errors -/

/-- The line or register that an error strikes is poisoned (R192); nothing where it holds nothing. -/
def poisonAt (s : State) : ErrLoc → State
  | .hbm line => { s with hbmPoison := line :: s.hbmPoison }
  | .loan die line => match findLoan s die line with
    | some l => setLoan s die { l with poison := true }
    | none => s
  | .window core asid line => match findLine (s.core core) asid line with
    | some l => s.onCore core fun c => setLine c { l with poison := true }
    | none => s
  | .scratch team line =>
    if s.live team && line < (teamPkt s team).scratch / 128 then s.onTeam team fun t => { t with scratchPoison := line :: t.scratchPoison }
    else s
  | .folio core line => if line < 8192 then s.onCore core fun c => { c with folioPoison := line :: c.folioPoison } else s
  | .acc core tile index =>
    if tile < 4 && index < 65536 then s.onCore core fun c => { c with tilePoison := accLine tile index :: c.tilePoison } else s
  | .vreg core slot lane reg =>
    if ((s.wave core slot).lanes.any fun l => l.1 == lane) then s.onLane core ⟨slot, lane⟩ fun l => { l with poison := reg :: l.poison } else s
  | .sreg core slot reg =>
    if (tget (s.core core).waves slot).isSome then s.onWave core slot fun w => { w with sPoison := reg :: w.sPoison } else s

/-- UNCORRECTABLE_ERROR (R192, R393). -/
def execUncorrectableError (loc : ErrLoc) (s : State) : Host.Outcome State Fault Refusal :=
  .next { poisonAt s loc with eccUncorrectable := s.eccUncorrectable + 1 }

/-! ## What acts while the package is stopped -/

/-- While the package is stopped by temperature the host port answers still, and a reset or a power-on starts it again; where
boot has stopped nothing else happens (R389, R391, R392). -/
def actsIn (p : Power) (i : Instr) : Bool :=
  match p with
  | .up => true
  | .off => i == .powerOn || i == .resetInput
  | .stopped _ => match i with
    | .powerOn | .resetInput | .hello _ | .keyx _ _ | .handshakeTimeout _ | .sessionIdleTimeout _ | .protocolIllegal _
    | .hostWrite _ _ _ _ | .hostRead _ _ _ _ | .hostLaunch _ _ | .register _ _ | .controlPreempt _ _ | .controlResume _ _
    | .controlUnfreeze _ _ | .controlEpochAdvance _ _ _ | .controlClearOvf _ _ | .controlReset _ | .close _
    | .powerLimit | .powerFallsBelowLimit | .uncorrectableError _ => true
    | _ => false

end Sys2Proof.Machine
end

