-- ==== Sys2Proof/Machine/FloatArith.lean ====
section
/-! DEFINITION. Floating-point arithmetic: scalar FP32 (R108, R109), packed 16-bit and dot products (R111, R112), FP64
(R113), classes (R115) and the rounding generator (R123). -/

namespace Sys2Proof.Machine

/-- The generator as each element under RS finds it (R40, R107). -/
def rsStep (f : Form) (g : W32) : W32 := if MOD.round f.mod == 4 then stepG g else g
/-- The generator that the word leaves, where it rounds under RS (R107). -/
def rsGen (f : Form) (g : W32) : List Wr := if MOD.round f.mod == 4 then [.gen g] else []

def Env.gen (e : Env) (l : LaneAt) : W32 := (e.s.lane e.core l.2).g

/-- A 32-bit float source (R60). -/
def Env.f32 (e : Env) (l : LaneAt) (o : Opnd) : Val := Machine.f32 (e.src l o (.fp fp32))
def Env.fb (e : Env) (l : LaneAt) (f : Form) : Val := Machine.f32 (e.b l f (.fp fp32))
def Env.fc (e : Env) (l : LaneAt) (f : Form) : Val := Machine.f32 (e.c l f (.fp fp32))
def f64 (x : W64) : Val := fp64.decode x.toNat
def Env.f64 (e : Env) (l : LaneAt) (o : Opnd) : Val := Machine.f64 (e.src64 l o (.fp fp64))
def Env.db (e : Env) (l : LaneAt) (f : Form) : Val := Machine.f64 (e.b64 l f (.fp fp64))
def Env.dc (e : Env) (l : LaneAt) (f : Form) : Val := Machine.f64 (e.c64 l f (.fp fp64))

/-- A word that writes fres of an exact FP32 result (R105). -/
def floatWord (opc : Nat) (f : Form) (s : State) (x : Env → LaneAt → Val) : Host.Outcome State Fault Refusal :=
  laneWord opc f s fun e l =>
    let g := rsStep f (e.gen l)
    .w32 f.d (BitVec.ofNat 32 (fres fp32 (MOD.round f.mod) (MOD.sat f.mod) g (x e l))) :: rsGen f g

/-- The same into FP64 (R113). -/
def doubleWord (opc : Nat) (f : Form) (s : State) (x : Env → LaneAt → Val) : Host.Outcome State Fault Refusal :=
  laneWord opc f s fun e l =>
    let g := rsStep f (e.gen l)
    .w64 f.d (BitVec.ofNat 64 (fres fp64 (MOD.round f.mod) (MOD.sat f.mod) g (x e l))) :: rsGen f g

/-- Rounding toward −∞, which decides the sign of a cancelling sum (R106). -/
def isRd (f : Form) : Bool := MOD.round f.mod == 3

/-- a × 2^k; beyond ±5,000 every result of every format has overflowed or vanished, whatever k (R108, R113). -/
def scaleBy (v : Val) (k : Int) : Val :=
  match v with
  | .fin n m e => .fin n m (e + max (-5000) (min 5000 k))
  | v => v

/-- a + c × (b − a): exact, with infinities, NaNs and zeros step by step (R106, R108). -/
def lerp (rd : Bool) (a b c : Val) : Val := sumExact rd [a, c.mul (sumExact rd [b, a.neg])]

/-- FADD (R108). -/
def execFadd (f : Form) (s : State) : Host.Outcome State Fault Refusal :=
  floatWord 0x90 f s fun e l => sumExact (isRd f) [e.f32 l f.a, e.fb l f]
/-- FSUB (R108). -/
def execFsub (f : Form) (s : State) : Host.Outcome State Fault Refusal :=
  floatWord 0x91 f s fun e l => sumExact (isRd f) [e.f32 l f.a, (e.fb l f).neg]
/-- FMUL (R108). -/
def execFmul (f : Form) (s : State) : Host.Outcome State Fault Refusal :=
  floatWord 0x92 f s fun e l => (e.f32 l f.a).mul (e.fb l f)
/-- FFMA (R108). -/
def execFfma (f : Form) (s : State) : Host.Outcome State Fault Refusal :=
  floatWord 0x93 f s fun e l => sumExact (isRd f) [(e.f32 l f.a).mul (e.f32 l f.b), e.fc l f]
/-- FMIN (R108). -/
def execFmin (f : Form) (s : State) : Host.Outcome State Fault Refusal :=
  floatWord 0x94 f s fun e l => (e.f32 l f.a).minNum (e.fb l f)
/-- FMAX (R108). -/
def execFmax (f : Form) (s : State) : Host.Outcome State Fault Refusal :=
  floatWord 0x95 f s fun e l => (e.f32 l f.a).maxNum (e.fb l f)
/-- FSQRT (R108). -/
def execFsqrt (f : Form) (s : State) : Host.Outcome State Fault Refusal := floatWord 0x98 f s fun e l => (e.f32 l f.a).sqrt
/-- FDIV (R108). -/
def execFdiv (f : Form) (s : State) : Host.Outcome State Fault Refusal :=
  floatWord 0x99 f s fun e l => (e.f32 l f.a).div (e.fb l f)
/-- FLERP (R108). -/
def execFlerp (f : Form) (s : State) : Host.Outcome State Fault Refusal :=
  floatWord 0xEC f s fun e l => lerp (isRd f) (e.f32 l f.a) (e.f32 l f.b) (e.fc l f)
/-- FSCALE (R108). -/
def execFscale (f : Form) (s : State) : Host.Outcome State Fault Refusal :=
  floatWord 0xAD f s fun e l => scaleBy (e.f32 l f.a) (ext (e.b l f .int) s32)

/-- min(max(x, +0), 1): NaN and −0 give +0 (R108). -/
def saturate01 (F : Fmt) (code : Nat) : Nat :=
  let x := F.decode code
  if x.isNan || x.isNeg then 0
  else if Val.lt (.fin false 1 0) x then roundRne F (.fin false 1 0) else code % 2 ^ (1 + F.eb + F.fb)

/-- The packed format of a TYPE: .f16 as `d`, or .bf16 (R33). -/
def pairFmt (f : Form) : Fmt := if MOD.type f.mod == 12 then bf16 else fp16

def lo16 (x : W32) : Nat := (x.extractLsb' 0 16).toNat
def hi16 (x : W32) : Nat := (x.extractLsb' 16 16).toNat
def pack16 (lo hi : Nat) : W32 := BitVec.ofNat 32 (lo + 65536 * hi)

/-- FSAT (R108). -/
def execFsat (f : Form) (s : State) : Host.Outcome State Fault Refusal :=
  laneWord 0xED f s fun e l =>
    if MOD.type f.mod == 0 then [.w32 f.d (BitVec.ofNat 32 (saturate01 fp32 (e.src l f.a (.fp fp32)).toNat))]
    else
      let F := pairFmt f
      let a := e.src l f.a (.pair F)
      [.w32 f.d (pack16 (saturate01 F (lo16 a)) (saturate01 F (hi16 a)))]

/-- The fraction a − floor(a), rounded toward −∞ and kept below 1 (R109). -/
def fract (v : Val) : Nat :=
  match v with
  | .nan | .inf _ => fp32.nan
  | .fin n m e =>
    if e ≥ 0 then 0
    else
      let k := (-e).toNat
      let r := m % 2 ^ k
      let r := if n && r != 0 then 2 ^ k - r else r
      min (fres fp32 3 false 0 (.fin false r e)) 0x3F7FFFFF

/-- FRACT (R109). -/
def execFract (f : Form) (s : State) : Host.Outcome State Fault Refusal :=
  laneWord 0xEF f s fun e l => [.w32 f.d (BitVec.ofNat 32 (fract (e.f32 l f.a)))]

/-- One element of FCOPYSIGN (R109). -/
def copysign (F : Fmt) (a b : Nat) : Nat :=
  let sb := 2 ^ (F.eb + F.fb)
  if (F.decode a).isNan then F.nan
  else if (F.decode b).isNan then a % sb
  else a % sb + (if b / sb % 2 == 1 then sb else 0)

/-- FCOPYSIGN (R109). -/
def execFcopysign (f : Form) (s : State) : Host.Outcome State Fault Refusal :=
  laneWord 0xAF f s fun e l =>
    match MOD.type f.mod with
    | 0 => [.w32 f.d (BitVec.ofNat 32 (copysign fp32 (e.src l f.a (.fp fp32)).toNat (e.b l f (.fp fp32)).toNat))]
    | 14 => [.w64 f.d (BitVec.ofNat 64 (copysign fp64 (e.src64 l f.a (.fp fp64)).toNat (e.b64 l f (.fp fp64)).toNat))]
    | _ =>
      let F := pairFmt f
      let a := e.src l f.a (.pair F)
      let b := e.b l f (.pair F)
      [.w32 f.d (pack16 (copysign F (lo16 a) (lo16 b)) (copysign F (hi16 a) (hi16 b)))]

/-! ## Packed -/

/-- A packed word: element 0 steps G first (R107, R111). -/
def packedWord (opc : Nat) (f : Form) (s : State) (three : Bool) (op : Val → Val → Val → Val) :
    Host.Outcome State Fault Refusal :=
  laneWord opc f s fun e l =>
    let F := pairFmt f
    let t : ImmT := .pair F
    let a := e.src l f.a t
    let b := if three then e.src l f.b t else e.b l f t
    let c := if three then e.c l f t else 0
    let el (g : W32) (x y z : Nat) : Nat :=
      fres F (MOD.round f.mod) (MOD.sat f.mod) g (op (F.decode x) (F.decode y) (F.decode z))
    let g0 := rsStep f (e.gen l)
    let g1 := rsStep f g0
    .w32 f.d (pack16 (el g0 (lo16 a) (lo16 b) (lo16 c)) (el g1 (hi16 a) (hi16 b) (hi16 c))) :: rsGen f g1

/-- HADD2 (R111). -/
def execHadd2 (f : Form) (s : State) : Host.Outcome State Fault Refusal :=
  packedWord 0xA0 f s false fun a b _ => sumExact (isRd f) [a, b]
/-- HSUB2 (R111). -/
def execHsub2 (f : Form) (s : State) : Host.Outcome State Fault Refusal :=
  packedWord 0xA1 f s false fun a b _ => sumExact (isRd f) [a, b.neg]
/-- HMUL2 (R111). -/
def execHmul2 (f : Form) (s : State) : Host.Outcome State Fault Refusal := packedWord 0xA2 f s false fun a b _ => a.mul b
/-- HFMA2 (R111). -/
def execHfma2 (f : Form) (s : State) : Host.Outcome State Fault Refusal :=
  packedWord 0xA3 f s true fun a b c => sumExact (isRd f) [a.mul b, c]
/-- HMIN2 (R111). -/
def execHmin2 (f : Form) (s : State) : Host.Outcome State Fault Refusal := packedWord 0xA4 f s false fun a b _ => a.minNum b
/-- HMAX2 (R111). -/
def execHmax2 (f : Form) (s : State) : Host.Outcome State Fault Refusal := packedWord 0xA5 f s false fun a b _ => a.maxNum b

/-- The exact dot product with its addend (R112). -/
def dotExact (rd : Bool) (F : Fmt) (w n : Nat) (a b : W32) (c : Val) : Val :=
  sumExact rd (c :: (List.range n).map fun k =>
    let at_ (x : W32) : Val := F.decode (x.toNat / 2 ^ (w * k) % 2 ^ w)
    (at_ a).mul (at_ b))

/-- FDOT2 (R112). -/
def execFdot2 (f : Form) (s : State) : Host.Outcome State Fault Refusal :=
  floatWord 0xA6 f s fun e l =>
    let F := pairFmt f
    dotExact (isRd f) F 16 2 (e.src l f.a (.pair F)) (e.src l f.b (.pair F)) (e.fc l f)

/-- FDOT4 (R112). -/
def execFdot4 (f : Form) (s : State) : Host.Outcome State Fault Refusal :=
  floatWord 0xA7 f s fun e l =>
    let F := if MOD.type f.mod == 16 then e5m2 else e4m3
    dotExact (isRd f) F 8 4 (e.src l f.a .bytes) (e.src l f.b .bytes) (e.fc l f)

/-! ## FP64 -/

/-- DADD (R113). -/
def execDadd (f : Form) (s : State) : Host.Outcome State Fault Refusal :=
  doubleWord 0xF0 f s fun e l => sumExact (isRd f) [e.f64 l f.a, e.db l f]
/-- DSUB (R113). -/
def execDsub (f : Form) (s : State) : Host.Outcome State Fault Refusal :=
  doubleWord 0xF1 f s fun e l => sumExact (isRd f) [e.f64 l f.a, (e.db l f).neg]
/-- DMUL (R113). -/
def execDmul (f : Form) (s : State) : Host.Outcome State Fault Refusal :=
  doubleWord 0xF2 f s fun e l => (e.f64 l f.a).mul (e.db l f)
/-- DFMA (R113). -/
def execDfma (f : Form) (s : State) : Host.Outcome State Fault Refusal :=
  doubleWord 0xF3 f s fun e l => sumExact (isRd f) [(e.f64 l f.a).mul (e.f64 l f.b), e.dc l f]
/-- DMIN (R113). -/
def execDmin (f : Form) (s : State) : Host.Outcome State Fault Refusal :=
  doubleWord 0xF4 f s fun e l => (e.f64 l f.a).minNum (e.db l f)
/-- DMAX (R113). -/
def execDmax (f : Form) (s : State) : Host.Outcome State Fault Refusal :=
  doubleWord 0xF5 f s fun e l => (e.f64 l f.a).maxNum (e.db l f)
/-- DDIV (R113). -/
def execDdiv (f : Form) (s : State) : Host.Outcome State Fault Refusal :=
  doubleWord 0xF6 f s fun e l => (e.f64 l f.a).div (e.db l f)
/-- DSQRT (R113). -/
def execDsqrt (f : Form) (s : State) : Host.Outcome State Fault Refusal := doubleWord 0xF7 f s fun e l => (e.f64 l f.a).sqrt
/-- DSCALE (R113). -/
def execDscale (f : Form) (s : State) : Host.Outcome State Fault Refusal :=
  doubleWord 0xFF f s fun e l => scaleBy (e.f64 l f.a) (ext (e.b l f .int) s32)

/-! ## Classes -/

/-- The class bit of a code (R115). -/
def classBit (F : Fmt) (code : Nat) : Nat :=
  match F.decode code with
  | .nan => 8
  | .inf n => if n then 0 else 7
  | .fin n m e =>
    if m == 0 then (if n then 3 else 4)
    else if log2Val m e < 1 - F.bias then (if n then 2 else 5)
    else if n then 1 else 6

/-- FCLASS (R115). -/
def execFclass (f : Form) (s : State) : Host.Outcome State Fault Refusal :=
  laneWord 0x9F f s fun e l => [.w32 f.d (1#32 <<< classBit fp32 (e.src l f.a (.fp fp32)).toNat)]
/-- DCLASS (R115). -/
def execDclass (f : Form) (s : State) : Host.Outcome State Fault Refusal :=
  laneWord 0xFE f s fun e l => [.w32 f.d (1#32 <<< classBit fp64 (e.src64 l f.a (.fp fp64)).toNat)]

/-! ## The rounding generator -/

/-- SEED (R123). -/
def execSeed (f : Form) (s : State) : Host.Outcome State Fault Refusal :=
  laneWord 0xDE f s fun e l => [.gen (e.src l f.a .int)]

/-- RAND (R123). -/
def execRand (f : Form) (s : State) : Host.Outcome State Fault Refusal :=
  laneWord 0xDF f s fun e l =>
    let g := stepG (e.gen l)
    let x : W32 := if MOD.type f.mod == 13 then BitVec.ofNat 32 (roundRne fp32 (.fin false (g.toNat / 256) (-24))) else g
    [.w32 f.d x, .gen g]

end Sys2Proof.Machine
end

