-- ==== Sys2Proof/Machine/Approx.lean ====
section
/-! DEFINITION. The approximate functions (R110, R113). The true value is formed far beyond the format's precision; which
grid point within the published bound is returned is `Config.approx`, one fixed choice per function and input. -/

namespace Sys2Proof.Machine

/-- One, in the fixed-point values below, which have 384 fraction bits. -/
def fxOne : Int := (2 ^ 384 : Nat)
/-- π and ln 2 with 384 fraction bits. -/
def fxPi : Int := 0x3243f6a8885a308d313198a2e03707344a4093822299f31d0082efa98ec4e6c89452821e638d01377be5466cf34e90c6c
def fxLn2 : Int := 0xb17217f7d1cf79abc9e3b39803f2f6af40f343267298b62d8a0d175b8baafa2be7b876206debac98559552fb4afa1b10

def fxMul (a b : Int) : Int := (a * b) / fxOne
def fxDiv (a b : Int) : Int := if b == 0 then 0 else (a * fxOne) / b

/-- Σ over n of the terms t, t·x/(k), … of a series whose n-th ratio is x / d n. -/
def fxSeries (x : Int) (d : Nat → Nat) : Nat → Nat → Int → Int
  | 0, _, _ => 0
  | fuel + 1, n, t => if t == 0 then 0 else t + fxSeries x d fuel (n + 1) (fxMul t x / (d n : Nat))

/-- e^x for |x| < 1. -/
def fxExp (x : Int) : Int := fxSeries x (fun n => n + 1) 100 0 fxOne
/-- sin x and cos x for |x| < 1. -/
def fxSin (x : Int) : Int := fxSeries (-(fxMul x x)) (fun n => (2 * n + 2) * (2 * n + 3)) 60 0 x
def fxCos (x : Int) : Int := fxSeries (-(fxMul x x)) (fun n => (2 * n + 1) * (2 * n + 2)) 60 0 fxOne

/-- An odd function by its values at x ≥ 0. The truncated steps above only lower those, so that the value at a tiny x stays
strictly between 0 and x, as sin x and tanh x do where their cubic term is below 384 bits (R110). -/
def fxOdd (f : Int → Int) (x : Int) : Int := if x < 0 then -(f (-x)) else f x

/-- Σ z^(2k+1) / (2k+1): the inverse hyperbolic tangent of a small z. -/
def fxAtanh (z2 : Int) : Nat → Nat → Int → Int
  | 0, _, _ => 0
  | fuel + 1, k, p => if p == 0 then 0 else p / ((2 * k + 1 : Nat) : Int) + fxAtanh z2 fuel (k + 1) (fxMul p z2)

def fxVal (x : Int) : Val := .fin (decide (x < 0)) x.natAbs (-384)

/-- A finite value in fixed point: FP32 values lie on the grid of 2^-149. -/
def toFx (n : Bool) (m : Nat) (e : Int) : Int :=
  let k : Int := if e + 384 ≥ 0 then ((m <<< (e + 384).toNat : Nat) : Int) else ((m >>> (-(e + 384)).toNat : Nat) : Int)
  if n then -k else k

/-- e^x for a fixed-point x of moderate size: 2^k × e^r with r below ln 2. -/
def expVal (x : Int) : Val :=
  let k := x / fxLn2
  match fxVal (fxExp (x - k * fxLn2)) with
  | .fin n m e => .fin n m (e + k)
  | v => v

/-- 2^x, likewise. -/
def exp2Val (x : Int) : Val :=
  let k := x / fxOne
  match fxVal (fxExp (fxMul (x - k * fxOne) fxLn2)) with
  | .fin n m e => .fin n m (e + k)
  | v => v

/-- sin and cos of a value, its argument reduced by π/2 exactly (R110). -/
def sinCos (x : Int) : Int × Int :=
  let q := (2 * x + fxPi / 2) / fxPi
  let r := x - (q * fxPi) / 2
  let s := fxOdd fxSin r
  let c := fxCos r
  match (q % 4).toNat with
  | 0 => (s, c)
  | 1 => (c, -s)
  | 2 => (-s, -c)
  | _ => (-c, s)

/-- log2 of a positive value. -/
def log2Fx (m : Nat) (e : Int) : Int :=
  let k := log2Val m e
  let y := toFx false m (e - k)
  let (k, y) := if 2 * y > 3 * fxOne then (k + 1, y / 2) else (k, y)
  let z := fxDiv (y - fxOne) (y + fxOne)
  k * fxOne + fxDiv (2 * fxAtanh (fxMul z z) 100 0 z) fxLn2

/-- tanh of a value x ≥ 0. -/
def tanhFx (x : Int) : Int :=
  let y := fxExp (2 * (x / 16))
  -- (e^(x/8))^8 = e^x; tanh by t' = 2t / (1 + t²) three times from tanh (x / 16)
  let t := fxDiv (y - fxOne) (y + fxOne)
  let dbl (t : Int) : Int := fxDiv (2 * t) (fxOne + fxMul t t)
  dbl (dbl (dbl (dbl t)))

/-! ## The choice -/

/-- The place of a code in the order of the format's values; both zeros are at 0. -/
def orderIdx (F : Fmt) (code : Nat) : Int :=
  let sb := 2 ^ (F.eb + F.fb)
  if code ≥ sb then -((code - sb : Nat) : Int) else code
def idxCode (F : Fmt) (i : Int) : Nat := if i < 0 then F.signBit true + i.natAbs else i.natAbs

/-- The spacing of the grid at a value, as a power of two. -/
def ulpExp (F : Fmt) (v : Val) : Int :=
  match v with
  | .fin _ m e => if m == 0 then 1 - F.bias - F.fb else max (log2Val m e - F.fb) (1 - F.bias - F.fb)
  | _ => 0

/-- The grid points from v − δ to v + δ, by their places; an infinity is one ulp above the largest value (R107). -/
def withinBound (F : Fmt) (v d : Val) : Int × Int :=
  let lo := sumExact false [v, d.neg]
  let hi := sumExact false [v, d]
  let (mx, me) := F.max
  let next : Val := .fin false (mx + 1) me
  let reach (x : Val) : Bool := !(x.lt next)
  (if reach lo.neg then orderIdx F (F.inf true) else orderIdx F (fres F 2 false 0 lo),
   if reach hi then orderIdx F (F.inf false) else orderIdx F (fres F 3 false 0 hi))

/-- The value returned: one fixed choice per function and input among the grid points within the bound (R110). -/
def approxPick (opc input : Nat) (F : Fmt) (v d : Val) : Nat :=
  let (lo, hi) := withinBound F v d
  let n := (hi - lo + 1).toNat
  let c := Config.approx opc input
  let i := lo + ((c % n : Nat) : Int)
  if i == 0 && c / n % 2 == 1 then F.signBit true else idxCode F i

/-- A bound of `k` ulp at a value. -/
def ulps (F : Fmt) (k : Nat) (v : Val) : Val := .fin false k (ulpExp F v)

/-- A value that is a power of two. -/
def isPow2 (m : Nat) : Bool := m != 0 && m == 2 ^ Nat.log2 m

/-- The common part: special inputs and exact points first, else a choice within the bound. -/
def approxFn (opc : Nat) (F : Fmt) (input : Nat) (exact : Option Nat) (v : Val) (k : Nat) : Nat :=
  match exact with
  | some r => r
  | none => approxPick opc input F v (ulps F k v)

/-- 1 / a (R110, R113). -/
def rcp (opc : Nat) (F : Fmt) (a : Nat) : Nat :=
  let v := F.decode a
  let y := Val.div (.fin false 1 0) v
  let exact : Option Nat := match v with
    | .nan => some F.nan
    | .inf n => some (F.signBit n)
    | .fin n m _ => if m == 0 then some (F.inf n)
      else if isPow2 m && (match y with | .fin _ k e => decide (log2Val k e ≥ 1 - F.bias - F.fb) && decide (log2Val k e ≤ F.bias) | _ => false)
      then some (roundRne F y) else none
  approxFn opc F a exact y 1

/-- 1 / √a (R110). -/
def rsqrt (a : Nat) : Nat :=
  let v := fp32.decode a
  let y := (Val.div (.fin false 1 0) v).sqrt
  let exact : Option Nat := match v with
    | .nan => some fp32.nan
    | .inf n => some (if n then fp32.nan else 0)
    | .fin n m e => if m == 0 then some (fp32.inf n)
      else if n then some fp32.nan
      else if isPow2 m && log2Val m e % 2 == 0 then some (roundRne fp32 y) else none
  approxFn 0x97 fp32 a exact y 1

/-- sin a, cos a (R110). -/
def sine (a : Nat) : Nat :=
  match fp32.decode a with
  | .nan | .inf _ => 0x7FC00000
  | .fin n m e =>
    let y := fxVal (sinCos (toFx n m e)).1
    approxFn 0x9A fp32 a (if m == 0 then some (fp32.signBit n) else none) y 2
def cosine (a : Nat) : Nat :=
  match fp32.decode a with
  | .nan | .inf _ => 0x7FC00000
  | .fin n m e =>
    let y := fxVal (sinCos (toFx n m e)).2
    approxFn 0x9B fp32 a (if m == 0 then some 0x3F800000 else none) y 2

/-- 2^a (R110). -/
def exp2Fn (a : Nat) : Nat :=
  match fp32.decode a with
  | .nan => fp32.nan
  | .inf n => if n then 0 else fp32.inf false
  | .fin n m e =>
    let v : Val := .fin n m e
    if !(v.lt (.fin false 128 0)) then fp32.inf false
    else if v.lt (.fin true 150 0) then 0
    else
      let x := toFx n m e
      let whole := x % fxOne == 0 && decide (-149 * fxOne ≤ x)
      approxFn 0x9C fp32 a (if whole then some (roundRne fp32 (.fin false 1 (x / fxOne))) else none) (exp2Val x) 2

/-- e^a (R110): beyond ±200 the result has left the format, whatever a. -/
def expFn (a : Nat) : Nat :=
  match fp32.decode a with
  | .nan => fp32.nan
  | .inf n => if n then 0 else fp32.inf false
  | .fin n m e =>
    let v : Val := .fin n m e
    if m == 0 then 0x3F800000
    else if Val.lt (.fin false 200 0) v then approxPick 0xEE a fp32 (.fin false 1 200) (ulps fp32 2 (.fin false 1 127))
    else if v.lt (.fin true 200 0) then approxPick 0xEE a fp32 (.fin false 1 (-280)) (.fin false 1 (-148))
    else approxFn 0xEE fp32 a none (expVal (toFx n m e)) 2

/-- log2 a: 2 ulp, or 2^-21 for a in [0.5, 2] (R110). -/
def log2Fn (a : Nat) : Nat :=
  match fp32.decode a with
  | .nan => fp32.nan
  | .inf n => if n then fp32.nan else fp32.inf false
  | .fin n m e =>
    if m == 0 then fp32.inf true
    else if n then fp32.nan
    else if isPow2 m then roundRne fp32 (Val.ofInt (log2Val m e))
    else
      let v : Val := .fin n m e
      let y := fxVal (log2Fx m e)
      let near := !(v.lt (.fin false 1 (-1))) && !(Val.lt (.fin false 2 0) v)
      let d := ulps fp32 2 y
      let abs : Val := .fin false 1 (-21)
      approxPick 0x9D a fp32 y (if near && d.lt abs then abs else d)

/-- tanh a (R110). -/
def tanhFn (a : Nat) : Nat :=
  match fp32.decode a with
  | .nan => fp32.nan
  | .inf n => fp32.signBit n + 0x3F800000
  | .fin n m e =>
    if m == 0 then fp32.signBit n
    else if !(Val.lt (.fin false m e) (.fin false 10 0)) then fp32.signBit n + 0x3F800000
    else approxFn 0x9E fp32 a none (fxVal (fxOdd tanhFx (toFx n m e))) 2

/-- A word of one FP32 operand whose result is a function of its code. -/
def approxWord (opc : Nat) (f : Form) (s : State) (fn : Nat → Nat) : Host.Outcome State Fault Refusal :=
  laneWord opc f s fun e l => [.w32 f.d (BitVec.ofNat 32 (fn (e.src l f.a (.fp fp32)).toNat))]

/-- FRCP (R110). -/
def execFrcp (f : Form) (s : State) : Host.Outcome State Fault Refusal := approxWord 0x96 f s (rcp 0x96 fp32)
/-- FRSQ (R110). -/
def execFrsq (f : Form) (s : State) : Host.Outcome State Fault Refusal := approxWord 0x97 f s rsqrt
/-- FSIN (R110). -/
def execFsin (f : Form) (s : State) : Host.Outcome State Fault Refusal := approxWord 0x9A f s sine
/-- FCOS (R110). -/
def execFcos (f : Form) (s : State) : Host.Outcome State Fault Refusal := approxWord 0x9B f s cosine
/-- FEXP2 (R110). -/
def execFexp2 (f : Form) (s : State) : Host.Outcome State Fault Refusal := approxWord 0x9C f s exp2Fn
/-- FLOG2 (R110). -/
def execFlog2 (f : Form) (s : State) : Host.Outcome State Fault Refusal := approxWord 0x9D f s log2Fn
/-- FTANH (R110). -/
def execFtanh (f : Form) (s : State) : Host.Outcome State Fault Refusal := approxWord 0x9E f s tanhFn
/-- FEXP (R110). -/
def execFexp (f : Form) (s : State) : Host.Outcome State Fault Refusal := approxWord 0xEE f s expFn

/-- DRCP (R113). -/
def execDrcp (f : Form) (s : State) : Host.Outcome State Fault Refusal :=
  laneWord 0xF8 f s fun e l => [.w64 f.d (BitVec.ofNat 64 (rcp 0xF8 fp64 (e.src64 l f.a (.fp fp64)).toNat))]

end Sys2Proof.Machine
end

