-- ==== Sys2Proof/Machine/Atomics.lean ====
section
/-! DEFINITION. Local atomics (R199). -/

namespace Sys2Proof.Machine

/-- A local atomic: the operands of each lane, its old value to d (R193, R199). `fp` reads b as FP32 (R60). -/
def atomicWord (opc : Nat) (f : Form) (s : State) (wide fp : Bool) : Host.Outcome State Fault Refusal :=
  localWord opc f s false fun e => e.act.map fun l =>
    let cas := opc == 0x87 || opc == 0x8C
    let n := if wide then 8 else 4
    let a := if cas then e.src l f.a .int else e.addr l f
    let b := if wide then (e.src64 l f.b .int).toNat else (e.src l f.b (if fp then .fp fp32 else .int)).toNat
    let c := if !cas then 0 else if wide then (e.src64 l f.c.opnd .int).toNat else (e.src l f.c.opnd .int).toNat
    oneAccess l { (default : Access) with
      r := l.2, kind := 2, addr := a.toNat, size := n, data := leBytes n b, cmp := leBytes n c
      op := opc + 256 * MOD.type f.mod, shape := .opnd f.d, writer := l.2 == e.first.2 }

/-- ATLADD (R199). -/
def execAtladd (f : Form) (s : State) : Host.Outcome State Fault Refusal := atomicWord 0x80 f s false false
/-- ATLMIN (R199). -/
def execAtlmin (f : Form) (s : State) : Host.Outcome State Fault Refusal := atomicWord 0x81 f s false false
/-- ATLMAX (R199). -/
def execAtlmax (f : Form) (s : State) : Host.Outcome State Fault Refusal := atomicWord 0x82 f s false false
/-- ATLAND (R199). -/
def execAtland (f : Form) (s : State) : Host.Outcome State Fault Refusal := atomicWord 0x83 f s false false
/-- ATLOR (R199). -/
def execAtlor (f : Form) (s : State) : Host.Outcome State Fault Refusal := atomicWord 0x84 f s false false
/-- ATLXOR (R199). -/
def execAtlxor (f : Form) (s : State) : Host.Outcome State Fault Refusal := atomicWord 0x85 f s false false
/-- ATLXCH (R199). -/
def execAtlxch (f : Form) (s : State) : Host.Outcome State Fault Refusal := atomicWord 0x86 f s false false
/-- ATLCAS (R199). -/
def execAtlcas (f : Form) (s : State) : Host.Outcome State Fault Refusal := atomicWord 0x87 f s false false
/-- ATLFADD (R199). -/
def execAtlfadd (f : Form) (s : State) : Host.Outcome State Fault Refusal := atomicWord 0x88 f s false true
/-- ATLINC (R199). -/
def execAtlinc (f : Form) (s : State) : Host.Outcome State Fault Refusal := atomicWord 0x89 f s false false
/-- ATLDEC (R199). -/
def execAtldec (f : Form) (s : State) : Host.Outcome State Fault Refusal := atomicWord 0x8A f s false false
/-- ATLLADD (R199). -/
def execAtlladd (f : Form) (s : State) : Host.Outcome State Fault Refusal := atomicWord 0x8B f s true false
/-- ATLLCAS (R199). -/
def execAtllcas (f : Form) (s : State) : Host.Outcome State Fault Refusal := atomicWord 0x8C f s true false
/-- ATLLXCH (R199). -/
def execAtllxch (f : Form) (s : State) : Host.Outcome State Fault Refusal := atomicWord 0x8D f s true false
/-- ATLFMIN (R199). -/
def execAtlfmin (f : Form) (s : State) : Host.Outcome State Fault Refusal := atomicWord 0x8E f s false true
/-- ATLFMAX (R199). -/
def execAtlfmax (f : Form) (s : State) : Host.Outcome State Fault Refusal := atomicWord 0x8F f s false true

end Sys2Proof.Machine
end

