-- ==== Sys2Proof/Machine/Barrier.lean ====
section
/-! DEFINITION. Barrier objects (R142, R143, R154 to R156): the events of a cycle form a batch, which the end of the cycle
applies. -/

namespace Sys2Proof.Machine

/-! ## Objects and batches -/

/-- A barrier object of a team; EXPECT is the thread count at team start (R142). -/
def barrierOf (s : State) (t b : Nat) : Barrier :=
  tgetD (s.team t).barriers b { (default : Barrier) with expect := (teamPkt s t).threads }

def onBatch (s : State) (t b : Nat) (f : BarBatch → BarBatch) : State :=
  s.onTeam t fun x => { x with batch := tset x.batch b (f (tgetD x.batch b default)) }

/-- Step 1 of a batch: the BARINIT of the lowest quadrant, and of the lowest slot there (R156). -/
def applyInit (x : Barrier) : List (Nat × Nat × Nat) → Barrier
  | [] => x
  | i :: is =>
    let best := is.foldl (fun m e => if e.1 < m.1 || (e.1 == m.1 && e.2.1 < m.2.1) then e else m) i
    { x with expect := best.2.2, departed := [] }

/-- An exit (R143, R156 step 2). -/
def applyExit (x : Barrier) (tid : Nat) : Barrier :=
  if x.gone.contains tid then x
  else if x.arrivedBits.contains tid then
    { x with departed := if x.departed.contains tid then x.departed else tid :: x.departed }
  else { x with expect := x.expect - 1 }

/-- An arrival: once per phase and thread (R155, R156). -/
def applyArrival (x : Barrier) (tid : Nat) : Barrier :=
  if x.arrivedBits.contains tid then x
  else { x with arrivedBits := tid :: x.arrivedBits, arrived := x.arrived + 1 }

def applyDepart (x : Barrier) (tid : Nat) : Barrier :=
  { x with departed := if x.departed.contains tid then x.departed else tid :: x.departed }

/-- Step 3: a phase completes when every expected thread has arrived (R156). -/
def completePhase (x : Barrier) : Barrier :=
  if 1 ≤ x.arrived && x.expect ≤ x.arrived then
    { expect := x.expect - x.departed.length, arrived := 0, phase := x.phase + 1, arrivedBits := [], departed := []
      gone := x.departed ++ x.gone }
  else x

/-- A batch, in its four steps but the waits (R156). -/
def applyBatch (x : Barrier) (b : BarBatch) (exits : List Nat) : Barrier :=
  let x := applyInit x b.inits
  let x := exits.foldl applyExit x
  let x := b.arrivals.foldl applyArrival x
  completePhase (b.departs.foldl applyDepart x)

/-! ## The end of a cycle -/

/-- Step 4: a lane whose token is no longer the phase goes on; BART reports true (R155, R156). -/
def judgeWait (s : State) (core t : Nat) (r : LaneRef) : State :=
  match (s.lane core r).block with
  | .barrier b k => if (barrierOf s t b).phase != k then s.onLane core r Lane.next else s
  | .bart b k d _ =>
    if (barrierOf s t b).phase != k then
      let s := match d with | .p i => writeP s core r i.toNat true | _ => s
      s.onLane core r Lane.next
    else s
  | _ => s

/-- The lanes of a team. -/
def lanesOfTeam (s : State) (t : Nat) : List LaneRef :=
  ((s.core (s.team t).core).waves.filter fun w => w.2.team == t).flatMap fun w => w.2.lanes.map fun l => ⟨w.1, l.1⟩

/-- Lanes that still wait leave their groups, and so do lanes past their clause (R129, R130). -/
def trimGroups (s : State) (core t : Nat) : State :=
  s.onCore core fun c => { c with
    waves := c.waves.map fun w =>
      if w.2.team == t then (w.1, { w.2 with group := w.2.group.filter fun i => goesOn s core ⟨w.1, i⟩ }) else w
    groups := c.groups.map fun g => if g.team == t then { g with group := g.group.filter (goesOn s core) } else g }

/-- The batches of a team's barriers are applied (R156). -/
def settleBarriers (s : State) (t : Nat) : State :=
  let team := s.team t
  if team.batch.isEmpty && team.exits.isEmpty then s
  else
    let s := forEach (List.range 16) s fun s b =>
      let x := barrierOf s t b
      let y := applyBatch x (tgetD team.batch b default) team.exits
      s.onTeam t fun z => { z with barriers := tset z.barriers b y }
    let s := s.onTeam t fun z => { z with batch := [], exits := [] }
    let s := forEach (lanesOfTeam s t) s fun s r => judgeWait s team.core t r
    trimGroups s team.core t

/-! ## The instructions -/

/-- The object a word names (R154). -/
def barOf (f : Form) : Nat := (f.mod.extractLsb' 0 4).toNat

/-- Arrivals of the contributing lanes, with the phase to d (R155). -/
def arrive (e : Env) (f : Form) (depart : Bool) : State :=
  let t := e.team
  let b := barOf f
  let tids := e.act.map fun l => tidOf e.s e.core l.2
  let s := onBatch e.s t b fun x => { x with
    arrivals := x.arrivals ++ tids, departs := if depart then x.departs ++ tids else x.departs }
  e.results 0x60 f s fun _ => [.w32 f.d ((barrierOf e.s t b).phase.zeroExtend 32)]

/-- BARA (R155). -/
def execBara (f : Form) (s : State) : Host.Outcome State Fault Refusal :=
  runWord 0x60 f s fun e => .done (arrive e f false) []

/-- BARW (R155). -/
def execBarw (f : Form) (s : State) : Host.Outcome State Fault Refusal :=
  runWord 0x61 f s fun e =>
    let s := onBatch e.s e.team (barOf f) id
    let s := forEach e.act s fun s l => setBlock s e.core l.2 (.barrier (barOf f) ((e.src l f.a .int).extractLsb' 0 16))
    .done s (e.act.map (·.2))

/-- BARAW (R155). -/
def execBaraw (f : Form) (s : State) : Host.Outcome State Fault Refusal :=
  runWord 0x62 f s fun e =>
    let k := (barrierOf e.s e.team (barOf f)).phase
    let s := forEach e.act (arrive e f false) fun s l => setBlock s e.core l.2 (.barrier (barOf f) k)
    .done s (e.act.map (·.2))

/-- BARD (R155). -/
def execBard (f : Form) (s : State) : Host.Outcome State Fault Refusal :=
  runWord 0x63 f s fun e => .done (arrive e f true) []

/-- BART (R155). -/
def execBart (f : Form) (s : State) : Host.Outcome State Fault Refusal :=
  runWord 0x64 f s fun e =>
    let s := onBatch e.s e.team (barOf f) id
    let s := forEach e.act s fun s l =>
      setBlock s e.core l.2 (.bart (barOf f) ((e.src l f.a .int).extractLsb' 0 16) f.d s.now)
    .done s (e.act.map (·.2))

/-- BART_TIMEOUT (R155): 1,024 cycles have passed since the issue; those of a time in which the team was saved count (log 125). -/
def execBartTimeout (core slot lane : Nat) (s : State) : Host.Outcome State Fault Refusal :=
  let r : LaneRef := ⟨slot, lane⟩
  match (s.lane core r).block with
  | .bart b k d since =>
    if since + 2 * 1024 ≤ s.now then
      let late := (barrierOf s (s.wave core slot).team b).phase != k
      let s := match d with | .p i => writeP s core r i.toNat late | _ => s
      .next (s.onLane core r Lane.next)
    else .next s
  | _ => .next s

/-- BARINIT: one value for the word, clamped to 0 to 1,024 (R155). -/
def execBarinit (f : Form) (s : State) : Host.Outcome State Fault Refusal :=
  runWord 0x65 f s fun e =>
    let v := min 1024 (e.src e.first f.a .int).toNat
    .done (onBatch e.s e.team (barOf f) fun x => { x with inits := x.inits ++ [(e.g.quad e.s, e.g.slot, v)] }) []

end Sys2Proof.Machine
end

