-- ==== Sys2Proof/Machine/Compare.lean ====
section
/-! DEFINITION. Compares and predicate logic (R89, R91, R92, R114). -/

namespace Sys2Proof.Machine

/-- The predicate a compare writes: its outcome, combined with c under BOP (R91). -/
def cmpWrite (e : Env) (l : LaneAt) (f : Form) (bop : Nat) (r : Bool) : List Wr :=
  [.pr f.d (combine bop r (e.pred l f.c.opnd))]

def bopInt (f : Form) : Nat := (f.mod.extractLsb' 3 2).toNat
def bopFloat (f : Form) : Nat := (f.mod.extractLsb' 4 2).toNat

/-- ISETP (R91). -/
def execIsetp (f : Form) (s : State) : Host.Outcome State Fault Refusal :=
  laneWord 0x40 f s fun e l =>
    let t : ITy := ⟨32, !f.mod.getLsbD 5⟩
    cmpWrite e l f (bopInt f)
      (cmpInt (f.mod.extractLsb' 0 3).toNat (ext (e.src l f.a .int) t) (ext (e.b l f .int) t))

/-- LSETP (R91). -/
def execLsetp (f : Form) (s : State) : Host.Outcome State Fault Refusal :=
  laneWord 0x41 f s fun e l =>
    let t : ITy := ⟨64, !f.mod.getLsbD 5⟩
    let i : ImmT := if f.mod.getLsbD 5 then .n64 else .int
    cmpWrite e l f (bopInt f)
      (cmpInt (f.mod.extractLsb' 0 3).toNat (ext (e.src64 l f.a i) t) (ext (e.b64 l f i) t))

/-- FSETP (R91, R92). -/
def execFsetp (f : Form) (s : State) : Host.Outcome State Fault Refusal :=
  laneWord 0x42 f s fun e l =>
    cmpWrite e l f (bopFloat f) (cmpFloat (f.mod.extractLsb' 0 4).toNat (e.f32 l f.a) (e.fb l f))

/-- DSETP (R114). -/
def execDsetp (f : Form) (s : State) : Host.Outcome State Fault Refusal :=
  laneWord 0xF9 f s fun e l =>
    cmpWrite e l f (bopFloat f) (cmpFloat (f.mod.extractLsb' 0 4).toNat (e.f64 l f.a) (e.db l f))

/-- PSETP (R89). -/
def execPsetp (f : Form) (s : State) : Host.Outcome State Fault Refusal :=
  laneWord 0x43 f s fun e l =>
    let a := e.pred l f.a
    let b := e.pred l f.b
    let c := e.pred l f.c.opnd
    [.pr f.d (f.mod.getLsbD (a.toNat + 2 * b.toNat + 4 * c.toNat))]

end Sys2Proof.Machine
end

