-- ==== Sys2Proof/Machine/Groups.lean ====
section
/-! DEFINITION. The issue groups of waves and reformed groups (R128, R129, R138). -/

namespace Sys2Proof.Machine

/-- The order of PCs: every monitor PC below every user PC (R129, R329). -/
def pcKey (l : Lane) : Nat := if l.mon then l.pc.toNat else 2 ^ 56 + l.pc.toNat

/-- The PC to issue among (PC, age) pairs (R129): the oldest from age 16 on, else the lowest. -/
def chooseKey (ls : List (Nat × Nat)) : Option Nat :=
  let top := ls.foldl (fun m e => max m e.2) 0
  let from_ := if top ≥ 16 then ls.filter fun e => e.2 == top else ls
  match from_ with
  | [] => none
  | e :: es => some (es.foldl (fun m x => min m x.1) e.1)

/-- A lane that is parked after a fault is blocked wherever it stands (R128, R179). -/
def Core.parks (c : Core) (r : LaneRef) : Bool :=
  c.waits.any fun w => w.lanes.contains r && match w.kind with | .parked _ _ _ _ => true | _ => false

/-- The lanes that issue for a wave: the rest of its group, or a new group at a boundary (R129, R130). -/
def waveGroup (c : Core) (slot : Nat) (w : Wave) : List Nat :=
  if w.group.isEmpty then
    let ls := w.lanes.filter fun e => e.2.runnable && !e.2.inRegion && !c.parks ⟨slot, e.1⟩
    match chooseKey (ls.map fun e => (pcKey e.2, e.2.age)) with
    | some k => (ls.filter fun e => pcKey e.2 == k).map (·.1)
    | none => []
  else w.group

/-- The same for a reformed group, whose threads hold slots in the order of its members (R138). -/
def reformedGroup (c : Core) (g : RGroup) : List LaneRef :=
  if g.group.isEmpty then
    let ls := g.members.filter fun r => ((c.wave r.slot).lane r.lane).runnable && ((c.wave r.slot).lane r.lane).inRegion && !c.parks r && !g.left.contains r
    let at_ (r : LaneRef) : Lane := (c.wave r.slot).lane r.lane
    match chooseKey (ls.map fun r => (pcKey (at_ r), (at_ r).groupAge)) with
    | some k => ls.filter fun r => pcKey (at_ r) == k
    | none => []
  else g.group

/-- A team that is frozen or being pre-empted selects no new group; the current ones run to the end of their clause (R345, R353). -/
def mayIssue (s : State) (t : Nat) (inClause : Bool) : Bool :=
  let x := s.team t
  (x.status == .resident && (inClause || !x.stopping)) || (x.status == .frozen && inClause)

/-- A wave is ready when it offers an issue group; YIELD takes it out for a cycle (R165). -/
def waveReady (s : State) (c : Core) (slot : Nat) (w : Wave) : Bool :=
  mayIssue s w.team (!w.group.isEmpty) && w.yielded != s.now / 2 + 1 && !(waveGroup c slot w).isEmpty

/-- A lane that stands at a clause header whose WAIT flags are not all clear is blocked (R22, R128). -/
def atHeader (s : State) (core t : Nat) (l : Lane) : Option (BitVec 12) :=
  if l.clause.isSome || !l.runnable then none
  else match codeWord s (dieOf core) (teamAsid s t) l.pc.toNat with
    | some w => match decodeHeader w with
      | .ok h => if l.flagsClear h.wait then none else some h.wait
      | .error _ => none
    | none => none

/-- The full flag that a lane's next instruction, the first of its clause at a header, would mark (R20, R128). -/
def atFullFlag (s : State) (core t : Nat) (r : LaneRef) (l : Lane) : Option Nat :=
  if !l.runnable || !(l.flags.any fun e => 63 ≤ e.2) then none
  else
    let word (a : Nat) : Option W96 := codeWord s (dieOf core) (teamAsid s t) a
    let at_ : Option (Nat × Lane) := match l.clause with
      | some _ => some (l.pc.toNat, l)
      | none => match (word l.pc.toNat).map decodeHeader with
        | some (.ok h) => some (l.pc.toNat + 12, { l with clause := some { hdr := l.pc, left := 1, flagA := h.flagA, flagB := h.flagB } })
        | _ => none
    match at_ with
    | none => none
    | some (a, l) => match word a with
      | some w => match decodeForm w with
        | some f =>
          if f.ok (field w 0 8).toNat && field w 0 8 != 0 && !outsideCode s t { l with pc := BitVec.ofNat 56 a } &&
            l.flagFull f.fset && readP s core r (f.guard.extractLsb' 0 3).toNat != f.guard.getLsbD 3 then l.flagOf f.fset else none
        | none => none
      | none => none

/-- What blocks a lane where it stands, if nothing does yet (R20, R22, R128). -/
def nextBlock (s : State) (core t : Nat) (r : LaneRef) (l : Lane) : Option Block :=
  match atHeader s core t l with
  | some m => some (.flags m)
  | none => (atFullFlag s core t r l).map .flagFull

/-- The lanes of waves that so stand block before the quadrant chooses, and are of no current group (R128, R129, R165). -/
def blockLanes (s : State) (core : Nat) (which : Nat → Bool) : State :=
  let lane (t slot : Nat) (l : Nat × Lane) : Nat × Lane := match nextBlock s core t ⟨slot, l.1⟩ l.2 with
    | some b => (l.1, { l.2 with block := b })
    | none => l
  let wave (w : Nat × Wave) : Nat × Wave :=
    if which w.1 then
      let w' := { w.2 with lanes := w.2.lanes.map (lane w.2.team w.1) }
      (w.1, { w' with group := w'.group.filter fun i => (nextBlock s core w.2.team ⟨w.1, i⟩ (w.2.lane i)).isNone })
    else w
  let open_ (r : LaneRef) : Bool := !which r.slot || (nextBlock s core (s.wave core r.slot).team r (s.lane core r)).isNone
  s.onCore core fun c => { c with
    waves := c.waves.map wave, groups := c.groups.map fun g => { g with group := g.group.filter open_ } }

/-- The quadrant with the fewest ready waves, the lowest at a tie (R165). DESIGN CHOICE: reformed groups that are there already do not
count (log 137). -/
def quietQuad (s : State) (core : Nat) : Nat :=
  let c := s.core core
  let n (q : Nat) : Nat := (c.waves.filter fun w => w.1 % 4 == q && waveReady s c w.1 w.2).length
  [1, 2, 3].foldl (fun m q => if n q < n m then q else m) 0

end Sys2Proof.Machine
end

