-- ==== Sys2Proof/Machine/Reform.lean ====
section
/-! DEFINITION. Reform regions, bins and reformed groups (R135 to R141, R153). -/

namespace Sys2Proof.Machine

/-! ## Bins -/

/-- The next PC of a thread at REFORM: the header after its clause (R135). -/
def reformKey (l : Lane) : VA := l.pc + 12

/-- The bin of a team with a key that has room, or where `first` says that no thread waits ahead, a free bin (R137). -/
def binFor (c : Core) (t : Nat) (key : VA) (first : Bool) : Option Nat :=
  match c.bins.find? fun b => b.2.team == t && b.2.key == key && b.2.members.length < 32 with
  | some b => some b.1
  | none => if first then (List.range 8).find? fun i => (tget c.bins i).isNone else none

/-- A thread is filed: it waits for its bin to be drawn (R137). -/
def fileThread (s : State) (core t bin : Nat) (r : LaneRef) : State :=
  let key := reformKey (s.lane core r)
  let s := s.onCore core fun c =>
    let b := tgetD c.bins bin { team := t, key := key, members := [], opened := s.now / 2 }
    { c with bins := tset c.bins bin { b with members := b.members ++ [r] } }
  setBlock s core r .filed

/-- Where a waiting thread stands: in the order of the cycle it began to wait, then its team and number (R137). DESIGN CHOICE:
the team counts by the order of the teams' starts, `State.nextTeam` (log 110). -/
def waitKey (s : State) (core : Nat) (e : Nat × LaneRef) : Nat × Nat × Nat :=
  (e.1, (s.wave core e.2.slot).team, tidOf s core e.2)

def keyLt (a b : Nat × Nat × Nat) : Bool :=
  decide (a.1 < b.1) || (a.1 == b.1 && (decide (a.2.1 < b.2.1) || (a.2.1 == b.2.1 && decide (a.2.2 < b.2.2))))

def insertWait (s : State) (core : Nat) (e : Nat × LaneRef) : List (Nat × LaneRef) → List (Nat × LaneRef)
  | [] => [e]
  | x :: xs => if keyLt (waitKey s core e) (waitKey s core x) then e :: x :: xs else x :: insertWait s core e xs

/-- A thread executing REFORM is filed, or waits for a bin behind the threads that wait already (R137). -/
def reformThread (s : State) (core t : Nat) (r : LaneRef) : State :=
  match binFor (s.core core) t (reformKey (s.lane core r)) (s.core core).reformWait.isEmpty with
  | some b => fileThread s core t b r
  | none =>
    let s := setBlock s core r .reform
    s.onCore core fun c => { c with reformWait := insertWait s core (s.now / 2, r) c.reformWait }

/-- A thread enters the region at its first REFORM, with its wave's scalar registers as they stand (R136, R139). -/
def enterRegion (s : State) (core t : Nat) (r : LaneRef) : State :=
  if (s.lane core r).inRegion then s
  else
    let regs := (s.wave core r.slot).s
    (s.onTeam t fun x => { x with region := true }).onLane core r fun l => { l with inRegion := true, regionS := regs }

/-- A member that has refiled, reached REJOIN or exited leaves its reformed group; a group that all have left ends (R138). -/
def RGroup.leave (g : RGroup) (r : LaneRef) : Option RGroup :=
  if g.members.contains r && !g.left.contains r then
    let g := { g with left := r :: g.left, group := g.group.filter (· != r) }
    if (g.members.all fun m => g.left.contains m) then none else some g
  else some g

def leaveGroups (s : State) (core : Nat) (r : LaneRef) : State :=
  s.onCore core fun c => { c with groups := c.groups.filterMap fun g => g.leave r }

/-- The threads of a bin form one reformed group, in increasing number, in the quietest quadrant (R137, R138, R165). -/
def insertTid (s : State) (core : Nat) (r : LaneRef) : List LaneRef → List LaneRef
  | [] => [r]
  | x :: xs => if tidOf s core r < tidOf s core x then r :: x :: xs else x :: insertTid s core r xs

def sortTids (s : State) (core : Nat) (rs : List LaneRef) : List LaneRef := rs.foldl (fun acc r => insertTid s core r acc) []

def drawBin (s : State) (core i : Nat) : State :=
  match tget (s.core core).bins i with
  | none => s
  | some b =>
    let s := blockLanes s core fun _ => true
    let (id, s) := s.freshId core
    let ms := sortTids s core b.members
    let s := s.onCore core fun c => { c with
      bins := tdel c.bins i
      groups := c.groups ++ [{ id := id, team := b.team, members := ms, left := [], quad := quietQuad s core, group := []
                               credit := 0, idle := 0, yielded := 0 }] }
    forEach ms s fun s r => s.onLane core r fun l => { l.next with groupAge := 0 }

/-- A bin is drawn at the end of a cycle: it holds 32 threads, or its age has reached 512 cycles (R137). -/
def Bin.due (b : Bin) (cycle : Nat) : Bool := decide (32 ≤ b.members.length) || decide (b.opened + 512 ≤ cycle)

/-- REFORM_WAIT_FILE (R137): waiting threads are filed, in order, while a bin takes them. -/
def fileWaiting : Nat → State → Nat → State
  | 0, s, _ => s
  | n + 1, s, core =>
    match (s.core core).reformWait with
    | [] => s
    | (_, r) :: rest =>
      let t := (s.wave core r.slot).team
      match binFor (s.core core) t (reformKey (s.lane core r)) true with
      | none => s
      | some b => fileWaiting n (fileThread (s.onCore core fun c => { c with reformWait := rest }) core t b r) core

/-- Waiting threads are filed before any word of the cycle: a bin that a draw has emptied is free from the next cycle (R137). -/
def execReformWaitFile (core : Nat) (s : State) : Host.Outcome State Fault Refusal :=
  if s.firstHalf then .next (fileWaiting (s.core core).reformWait.length s core) else .next s

/-- The bins of a core at the end of a cycle: those that are due are drawn, lowest first (R137). -/
def drawDue (s : State) (core cycle : Nat) : State :=
  forEach ((List.range 8).filter fun i => match tget (s.core core).bins i with | some b => b.due cycle | none => false) s
    fun s i => drawBin s core i

/-- The waiting threads of a core take the bins that the end of a cycle has freed, at the start of the next (R137). -/
def fileFreed (s : State) (core : Nat) : State := fileWaiting (s.core core).reformWait.length s core

/-- BIN_DRAW_AGE (R137): the bin's age has reached 512 cycles, and it is drawn in the second half of its cycle, after every
word; a thread takes the bin from the next cycle. -/
def execBinDrawAge (core bin : Nat) (s : State) : Host.Outcome State Fault Refusal :=
  match tget (s.core core).bins bin with
  | some b => if s.lateHalf && b.opened + 512 ≤ s.now / 2 then .next (drawBin s core bin) else .next s
  | none => .next s

/-- REFORM (R136, R137, R153): threads of one group in increasing number. -/
def execReform (f : Form) (s : State) : Host.Outcome State Fault Refusal :=
  runWord 0x5E f s fun e =>
    let t := e.team
    let rs := sortTids e.s e.core (e.act.map (·.2))
    let s := forEach rs e.s fun s r => reformThread (leaveGroups (enterRegion s e.core t r) e.core r) e.core t r
    .done s rs

/-! ## The end of a region -/

/-- Every thread in the region has reached REJOIN or exited: each returns to its home wave at its next header (R140, R141). -/
def closeRegion (s : State) (t : Nat) : State :=
  let core := (s.team t).core
  let inside := (lanesOfTeam s t).filter fun r => (s.lane core r).inRegion && !(s.lane core r).exited
  if (s.team t).region && inside.all fun r => (s.lane core r).block == .rejoin then
    let s := forEach inside s fun s r => s.onLane core r fun l => { l.next with inRegion := false, regionS := [] }
    let s := s.onCore core fun c => { c with groups := c.groups.filter fun g => g.team != t }
    s.onTeam t fun x => { x with region := false }
  else s

/-- REJOIN (R140): outside a region it has no effect. -/
def execRejoin (f : Form) (s : State) : Host.Outcome State Fault Refusal :=
  runWord 0x5F f s fun e =>
    let ins := (e.act.map (·.2)).filter fun r => (e.s.lane e.core r).inRegion
    let s := forEach ins e.s fun s r => setBlock (leaveGroups s e.core r) e.core r .rejoin
    .done (closeRegion s e.team) ins

end Sys2Proof.Machine
end

