-- ==== Sys2Proof/Machine/Control.lean ====
section
/-! DEFINITION. Clause headers and control flow (R16, R22, R97 to R103), SVC and ERET (R332, R333) and entry to the monitor
(R27, R329). -/

namespace Sys2Proof.Machine

/-! ## Headers -/

/-- A lane enters the clause of the header it stands at (R16). -/
def Lane.enterClause (l : Lane) (h : Header) : Lane :=
  { l with
    pc := l.pc + 12
    atEntry := false
    clause := some { hdr := l.pc, left := h.len.toNat + 1, flagA := h.flagA, flagB := h.flagB } }

/-- The clauses that the wave, or the reformed group, has issued since each of its lanes did (R129, R138). DESIGN CHOICE: the
rest of a clause that lanes resume in the middle of is no further clause (log 112). -/
def ageLanes (s : State) (g : Cur) : State :=
  match g.reformed with
  | none => s.onWave g.core g.slot fun w => { w with lanes := w.lanes.map fun l => (l.1, { l.2 with age := l.2.age + 1 }) }
  | some id =>
    let ms := (((s.core g.core).groups.find? fun x => x.id == id).map fun x => x.members.filter fun r => !x.left.contains r).getD []
    forEach ms s fun s r => s.onLane g.core r fun l => { l with groupAge := l.groupAge + 1 }

/-- A header for its group: lanes whose WAIT flags are not clear block, the others begin the clause (R16, R22). -/
def issueHeader (h : Header) (s : State) (g : Cur) : State :=
  let wait (r : LaneRef) : Bool := !(s.lane g.core r).flagsClear h.wait
  let s := forEach (g.refs.filter wait) s fun s r => setBlock s g.core r (.flags h.wait)
  let go := g.refs.filter fun r => !wait r
  if go.isEmpty then setGroup s g []
  else
    let s := ageLanes s g
    let s := forEach go s fun s r => s.onLane g.core r fun l => l.enterClause h
    setGroup s g go

/-- CLAUSE (R16, R22). -/
def execClause (h : Header) (s : State) : Host.Outcome State Fault Refusal :=
  match s.cur with
  | none => .fault .noIssueGroup
  | some g => .next (issueHeader h s g)

/-! ## Branches -/

/-- A lane at a branch target (R98). -/
def Lane.goto (l : Lane) (pc : VA) : Lane := { l with pc := pc, clause := none, block := .none }

/-- Is the thread in monitor mode? -/
def Env.mon (e : Env) (r : LaneRef) : Bool := (e.s.lane e.core r).mon

/-- A branch of the contributing lanes, each to its own target (R97, R98). -/
def branchWord (opc : Nat) (f : Form) (s : State) (target : Env → LaneAt → W32) : Host.Outcome State Fault Refusal :=
  runWord opc f s fun e =>
    let ts := e.act.map fun l => (l.2, resolve e.s e.core e.team (e.mon l.2) (target e l).toNat)
    let bad := (ts.filter fun t => t.2.isNone).map (·.1)
    if bad.isEmpty then
      .done (forEach ts e.s fun s t => match t.2 with
        | some pc => s.onLane e.core t.1 fun l => l.goto pc
        | none => s) (e.act.map (·.2))
    else .trap 0x02 bad fun _ => 0

/-- BRA (R98). -/
def execBra (f : Form) (s : State) : Host.Outcome State Fault Refusal := branchWord 0x02 f s fun e l => e.c l f .int
/-- BRX (R98). -/
def execBrx (f : Form) (s : State) : Host.Outcome State Fault Refusal := branchWord 0x03 f s fun e l => e.src l f.a .int

/-! ## Calls -/

/-- The local address of frame `k` (R99). -/
def frameAddr (p : Packet) (k : Nat) : Nat := 0x80000000 + p.priv - 4 * (k + 1)

/-- The local address that a call stack gives frame `k`, in or out of private space, as a trap records it (R99, R331). -/
def frameTag (p : Packet) (k : Nat) : Nat := ((((0x80000000 + p.priv : Nat) : Int) - (4 * (k + 1) : Nat)) % 2 ^ 32).toNat

/-- The access to a frame's word. -/
def frameAccess (s : State) (core : Nat) (p : Packet) (t : Team) (r : LaneRef) (k kind : Nat) (data : List Byte) : Access :=
  ({ (default : Access) with r := r, kind := kind, addr := frameAddr p k, size := 4, data := data } : Access).locate s core p t

/-- A trap whose cause the lowest failing lane decides. An illegal target has no tag; for a local address, a lane that failed by
its own address keeps it (R331). -/
def trapFirst (fs : List (LaneRef × Nat × Nat)) : Option (Nat × List LaneRef × (LaneRef → W32)) :=
  match fs with
  | [] => none
  | (_, c, a) :: _ =>
    some (c, (fs.filter fun f => f.2.1 == c).map (·.1),
      fun r => if c == 0x02 then 0
        else BitVec.ofNat 32 (match fs.find? fun f => f.1 == r && f.2.1 != 0x02 with | some f => f.2.2 | none => a))

/-- One lane's call: the frame is stored, and the lane goes to its target; a lane that finds no way for the line issues the
word again (R100, R394). -/
def callLane (t : Nat) (core : Nat) (p : Packet) (acc : State × List LaneRef) (x : LaneRef × VA) : State × List LaneRef :=
  let (s, rej) := acc
  if !s.live t then acc
  else
    let l := s.lane core x.1
    let ret := codeOffset s t l.mon (l.pc + 12)
    match performLane s core t (teamAsid s t) [frameAccess s core p (s.team t) x.1 l.cd 1 (leBytes 4 ret.toNat)] with
    | .ok s =>
      if !s.live t then (s, rej)
      else (s.onLane core x.1 fun l => { l.goto x.2 with cd := l.cd + 1 }, rej)
    | .rejected s => (s, rej ++ [x.1])
    | .poison _ _ => (s, rej)

def callWord (opc : Nat) (f : Form) (s : State) (target : Env → LaneAt → W32) : Host.Outcome State Fault Refusal :=
  runWord opc f s fun e =>
    let p := e.pkt
    let ts := e.act.map fun l => (l.2, resolve e.s e.core e.team (e.mon l.2) (target e l).toNat)
    let fails := ts.filterMap fun t =>
      let cd := (e.s.lane e.core t.1).cd
      if t.2.isNone then some (t.1, 0x02, 0)
      else if 4 * (cd + 1) > p.priv then some (t.1, 0x03, frameTag p cd)
      else none
    match trapFirst fails with
    | some (c, o, tag) => .trap c o tag
    | none =>
      let go := ts.filterMap fun t => t.2.map fun pc => (t.1, pc)
      let (s, rej) := go.foldl (callLane e.team e.core p) (e.s, [])
      if !s.live e.team then .stop s
      else .done (countRejects s e.core e.g.refs rej) (e.act.map (·.2))

/-- CALL (R100). -/
def execCall (f : Form) (s : State) : Host.Outcome State Fault Refusal := callWord 0x04 f s fun e l => e.c l f .int
/-- CALLX (R100). -/
def execCallx (f : Form) (s : State) : Host.Outcome State Fault Refusal := callWord 0x05 f s fun e l => e.src l f.a .int

/-! ## Returns -/

/-- What the load of a RET finds. -/
inductive RetLoad where
  | value (off : W32)
  | fill (mse : Nat)
  | rejected
  | poison (addr : Nat)
  deriving DecidableEq, Repr

/-- The load of a frame (R99, R179): its bytes when they are valid, else a fill that the lane waits for. -/
def retLoad (s : State) (core t : Nat) (a : Access) : RetLoad × State :=
  let asid := teamAsid s t
  let (fits, s) := needLines s core t asid a
  if !fits then (.rejected, s)
  else
    let c := s.core core
    let bs := a.glob.map (windowByte c asid)
    if bs.all Option.isSome then
      if a.glob.any (windowPoison c asid) then (.poison (a.glob.headD 0), s)
      else (.value (BitVec.ofNat 32 (leNat (bs.filterMap id))), s)
    else
      let line := a.glob.headD 0 / 128
      let id := ((findMse c asid line).map (·.id)).getD 0
      (.fill id, s.onCore core fun c => { c with mses := c.mses.map fun m =>
        if m.id == id then { m with waiters := m.waiters ++ [a] } else m })

def retLoads (core t : Nat) : List (LaneRef × Access) → State → List (LaneRef × RetLoad) → State × List (LaneRef × RetLoad)
  | [], s, got => (s, got)
  | (r, a) :: xs, s, got =>
    if !s.live t then (s, got)
    else
      let (v, s) := retLoad s core t a
      retLoads core t xs s (got ++ [(r, v)])

/-- RET once its frames have been asked for: lanes wait for a fill or issue the word again, the others go to their targets, or
trap together with the lanes whose guard is false (R97, R100, R329). -/
def retGo (e : Env) (s : State) (got : List (LaneRef × RetLoad)) : Res :=
  let core := e.core
  let t := e.team
  let late := got.filterMap fun x => match x.2 with | .value _ => none | _ => some x.1
  let s := forEach got s fun s x => match x.2 with | .fill id => setBlock s core x.1 (.fill id) | _ => s
  let s := countRejects s core e.g.refs ((got.filter fun x => x.2 == .rejected).map (·.1))
  let ts := got.filterMap fun x => match x.2 with
    | .value v => some (x.1, resolve s core t (e.mon x.1) v.toNat)
    | _ => none
  let bad := (ts.filter fun x => x.2.isNone).map (·.1)
  if bad.isEmpty then
    .done (forEach ts s fun s x => match x.2 with
      | some pc => s.onLane core x.1 fun l => { l.goto pc with cd := l.cd - 1 }
      | none => s) (got.map (·.1))
  else
    .stop (takeTrap s { e.g with lanes := e.g.lanes.filter fun l => !late.contains l.2 } 0x02 bad fun _ => 0)

/-- RET (R100). -/
def execRet (f : Form) (s : State) : Host.Outcome State Fault Refusal :=
  runWord 0x06 f s fun e =>
    let p := e.pkt
    let team := e.s.team e.team
    let fails := e.act.filterMap fun l =>
      let cd := (e.s.lane e.core l.2).cd
      if cd == 0 then some (l.2, 0x02, 0)
      else if 4 * cd > p.priv then some (l.2, 0x03, frameTag p (cd - 1))
      else
        let a := frameAddr p (cd - 1)
        (testLocal p team 0 false a 4).map fun k => (l.2, testCause k, a)
    match trapFirst fails with
    | some (c, o, tag) => .trap c o tag
    | none =>
      let xs := e.act.map fun l => (l.2, frameAccess e.s e.core p team l.2 ((e.s.lane e.core l.2).cd - 1) 0 [])
      let (s, got) := retLoads e.core e.team xs e.s []
      if !s.live e.team then .stop s
      else match got.findSome? fun x => match x.2 with | .poison a => some a | _ => none with
        | some a => .stop (terminateAccess s e.team 1 0x0207 a false)
        | none => retGo e s got

/-! ## The end of a thread -/

/-- A thread ends (R101, R134, R143, R144): it leaves its masks and its reformed group, its monitor is dropped, and the
barriers of its team count it in this cycle's batch. -/
def exitThread (s : State) (core t : Nat) (r : LaneRef) : State :=
  let tid := tidOf s core r
  let s := leaveGroups s core r
  let s := s.onWave core r.slot fun w => { w with masks := w.masks.map fun m => (m.1, m.2 &&& ~~~ (1#32 <<< r.lane)) }
  let s := s.onLane core r fun l => { l with
    exited := true, clause := none, block := .none, lmon := .off, inRegion := false, regionS := [] }
  let s := s.onTeam t fun x => { x with exits := x.exits ++ [tid] }
  if (s.wave core r.slot).lanes.all fun l => l.2.exited then dropPrivate s core r.slot else s

/-- EXIT (R101). -/
def execExit (f : Form) (s : State) : Host.Outcome State Fault Refusal :=
  runWord 0x07 f s fun e =>
    let rs := e.act.map (·.2)
    .done (closeRegion (forEach rs e.s fun s r => exitThread s e.core e.team r) e.team) rs

/-! ## Traps -/

/-- The immediate of a word (R102, R332). -/
def tagOf (f : Form) : W32 := match f.c with | .imm c => c | .reg _ _ => 0

/-- A word that raises a cause in its contributing lanes (R102, R332). -/
def trapWord (opc : Nat) (f : Form) (s : State) (cause : Nat) : Host.Outcome State Fault Refusal :=
  runWord opc f s fun e => .trap cause (e.act.map (·.2)) fun _ => tagOf f

/-- TRAP (R102). -/
def execTrap (f : Form) (s : State) : Host.Outcome State Fault Refusal := trapWord 0x08 f s 0x06
/-- BRK (R102). -/
def execBrk (f : Form) (s : State) : Host.Outcome State Fault Refusal := trapWord 0x09 f s 0x07
/-- SVC (R332). -/
def execSvc (f : Form) (s : State) : Host.Outcome State Fault Refusal := trapWord 0x0D f s 0x0B

/-- ASSERT (R102). -/
def execAssert (f : Form) (s : State) : Host.Outcome State Fault Refusal :=
  runWord 0x0C f s fun e =>
    let bad := (e.act.filter fun l => !e.pred l f.a).map (·.2)
    if bad.isEmpty then .done e.s [] else .trap 0x05 bad fun _ => tagOf f

/-- UDF: an illegal-instruction trap whatever its fields hold, with its immediate as the tag (R71, R331). -/
def execUdf (f : Form) (s : State) : Host.Outcome State Fault Refusal :=
  match s.cur with
  | none => .fault .noIssueGroup
  | some g => .next (takeTrap s g 0x01 g.refs fun _ => tagOf f)

/-- The target of each lane's ERET (R333). -/
def eretTargets (e : Env) : List (LaneRef × Option (VA × Option ClauseCtx)) :=
  e.act.map fun l => (l.2, eretTarget e.s e.core e.team (e.s.lane e.core l.2).mregs)

/-- ERET (R333): a target that fails is a double trap. -/
def execEret (f : Form) (s : State) : Host.Outcome State Fault Refusal :=
  runWord 0x0E f s fun e =>
    let ts := eretTargets e
    let bad := (ts.filter fun t => t.2.isNone).map (·.1)
    if bad.isEmpty then
      .done (forEach ts e.s fun s t => match t.2 with
        | some (pc, c) => s.onLane e.core t.1 fun l => l.leave pc c
        | none => s) (e.act.map (·.2))
    else .trap 0x02 bad fun _ => 0

/-- MONITOR_ENTRY (R27, R329): the outstanding words of the lanes have completed, and they enter the monitor together. -/
def execMonitorEntry (core slot bid : Nat) (s : State) : Host.Outcome State Fault Refusal :=
  match (s.core core).findWait bid with
  | some w => match w.kind with
    | .trap cause word group entries =>
      if w.slot != slot || w.lanes.any (outstanding s core) then .next s
      else .next (enterMonitor (dropWait s core bid) core (s.wave core slot).team cause word group entries)
    | _ => .next s
  | none => .next s

/-! ## Words that change nothing -/

/-- NOP (R103). -/
def execNop (f : Form) (s : State) : Host.Outcome State Fault Refusal := nopWord 0x01 f s

/-- YIELD (R103, R165): the quadrant does not issue from the wave in the next cycle. -/
def execYield (f : Form) (s : State) : Host.Outcome State Fault Refusal :=
  runWord 0x0A f s fun e =>
    .done (match e.g.reformed with
      | none => e.s.onWave e.core e.g.slot fun w => { w with yielded := e.s.now / 2 + 2 }
      | some id => e.s.onCore e.core fun c => { c with groups := c.groups.map fun x =>
          if x.id == id then { x with yielded := e.s.now / 2 + 2 } else x }) []

/-- SLEEP (R103). DESIGN CHOICE: the cycle in which it issues counts as the first of its n, so that its thread may issue again n
cycles after it (log 133). -/
def execSleep (f : Form) (s : State) : Host.Outcome State Fault Refusal :=
  runWord 0x0B f s fun e =>
    let s := forEach e.act e.s fun s l =>
      setBlock s e.core l.2 (.sleep (s.now + 2 * min (e.src l f.a .int).toNat 1048575))
    .done s (e.act.map (·.2))

/-- SLEEP_END (R103): the cycles have passed. -/
def execSleepEnd (core slot lane : Nat) (s : State) : Host.Outcome State Fault Refusal :=
  let r : LaneRef := ⟨slot, lane⟩
  match (s.lane core r).block with
  | .sleep til => if til ≤ s.now then .next (s.onLane core r Lane.next) else .next s
  | _ => .next s

end Sys2Proof.Machine
end

