-- ==== Sys2Proof/Machine/Convert.lean ====
section
/-! DEFINITION. Conversions (R116 to R122) and rounding to an integral value (R119). -/

namespace Sys2Proof.Machine

/-- How an immediate source of a type takes its value (R60). DESIGN CHOICE: R60 has no row for packed 16-bit integers, so a
short immediate of CVTUPK.s16 or .n16 is a 32-bit integer (log 115). -/
def immOfType (t : Nat) : ImmT :=
  match t with
  | 0 | 13 => .fp fp32
  | 11 => .pair fp16
  | 12 => .pair bf16
  | 1 | 2 | 15 | 16 | 17 | 18 | 19 => .bytes
  | _ => .int

/-- The source type of CVTF, CVTFI and CVTIF: C[16:12] (R116). -/
def styleOf (f : Form) : Nat := match f.c with | .reg _ x => x.toNat % 32 | .imm _ => 0

/-- A result of fewer than 32 bits, zero- or sign-extended (R117, R118). -/
def extend32 (w : Nat) (signed : Bool) (x : Nat) : W32 :=
  if signed && x ≥ 2 ^ (w - 1) then BitVec.ofNat 32 (x + (2 ^ 32 - 2 ^ w)) else BitVec.ofNat 32 x

/-- A conversion from one 32-bit slot to another (R43, R117, R118). -/
def cvtWord (opc : Nat) (f : Form) (s : State) (src dst : NF) (imm : ImmT) : Host.Outcome State Fault Refusal :=
  laneWord opc f s fun e l =>
    let g := rsStep f (e.gen l)
    let x := convert dst (MOD.round f.mod) (MOD.sat f.mod) g (src.decode (e.src l f.a imm).toNat)
    .w32 f.d (match dst with | .int w s => extend32 w s x | _ => BitVec.ofNat 32 x) :: rsGen f g

/-- CVTF (R117). -/
def execCvtf (f : Form) (s : State) : Host.Outcome State Fault Refusal :=
  cvtWord 0xA8 f s (nfOfType (styleOf f)) (nfOfType (MOD.type f.mod)) (immOfType (styleOf f))

/-- The integer type of CVTFI and CVTIF, .s32 by default (R118). -/
def cvtInt (t : Nat) : NF := if t == 0 then .int 32 true else nfOfType t

/-- CVTFI (R118). -/
def execCvtfi (f : Form) (s : State) : Host.Outcome State Fault Refusal :=
  cvtWord 0xA9 f s (nfOfType (styleOf f)) (cvtInt (MOD.type f.mod)) (immOfType (styleOf f))

/-- CVTIF (R118). -/
def execCvtif (f : Form) (s : State) : Host.Outcome State Fault Refusal :=
  cvtWord 0xAA f s (cvtInt (styleOf f)) (nfOfType (MOD.type f.mod)) .int

/-- The element type of CVTPK and CVTUPK, .f16 by default (R120). -/
def pkType (f : Form) : Nat := if MOD.type f.mod == 0 then 11 else MOD.type f.mod

/-- Replace `w` bits of a word at position `i`. -/
def putBits (d : W32) (i w x : Nat) : W32 :=
  let m := (2 ^ w - 1) * 2 ^ i
  (d &&& ~~~ (BitVec.ofNat 32 m)) ||| BitVec.ofNat 32 (x % 2 ^ w * 2 ^ i)

/-- CVTPK (R120). DESIGN CHOICE: a short immediate c, to which the spec gives no type, is a 32-bit integer (log 116). -/
def execCvtpk (f : Form) (s : State) : Host.Outcome State Fault Refusal :=
  laneWord 0xAB f s fun e l =>
    let t := nfOfType (pkType f)
    let w := t.width
    let e0 := 2 * styleOf f
    let g0 := rsStep f (e.gen l)
    let g1 := rsStep f g0
    let a := convert t (MOD.round f.mod) (MOD.sat f.mod) g0 (e.f32 l f.a)
    let b := convert t (MOD.round f.mod) (MOD.sat f.mod) g1 (e.f32 l f.b)
    let c := e.src l f.c.opnd .int
    .w32 f.d (putBits (putBits c (w * e0) w a) (w * (e0 + 1)) w b) :: rsGen f g1

/-- CVTUPK (R121). -/
def execCvtupk (f : Form) (s : State) : Host.Outcome State Fault Refusal :=
  laneWord 0xAC f s fun e l =>
    let t := nfOfType (pkType f)
    let x := (e.src l f.a (immOfType (pkType f))).toNat / 2 ^ (t.width * styleOf f)
    [.w32 f.d (BitVec.ofNat 32 (roundRne fp32 (t.decode x)))]

/-- CVTD (R122). -/
def execCvtd (f : Form) (s : State) : Host.Outcome State Fault Refusal :=
  laneWord 0xFA f s fun e l =>
    let g := rsStep f (e.gen l)
    let c (F : NF) (v : Val) : Nat := convert F (MOD.round f.mod) (MOD.sat f.mod) g v
    if MOD.type f.mod == 0 then .w64 f.d (BitVec.ofNat 64 (c (.fp fp64) (e.f32 l f.a))) :: rsGen f g
    else .w32 f.d (BitVec.ofNat 32 (c (nfOfType (MOD.type f.mod)) (e.f64 l f.a))) :: rsGen f g

/-- The integer type of CVTDI and CVTID, .s64 by default (R122). -/
def cvtLong (f : Form) : Nat × Bool :=
  match MOD.type f.mod with | 8 => (64, false) | 5 => (32, true) | 6 => (32, false) | _ => (64, true)

/-- CVTDI (R122). -/
def execCvtdi (f : Form) (s : State) : Host.Outcome State Fault Refusal :=
  laneWord 0xFB f s fun e l =>
    let g := rsStep f (e.gen l)
    let (w, sg) := cvtLong f
    let x := toInt w sg (MOD.round f.mod) (MOD.sat f.mod) g (e.f64 l f.a)
    (if w == 32 then .w32 f.d (BitVec.ofNat 32 x) else .w64 f.d (BitVec.ofNat 64 x)) :: rsGen f g

/-- CVTID (R122). -/
def execCvtid (f : Form) (s : State) : Host.Outcome State Fault Refusal :=
  laneWord 0xFC f s fun e l =>
    let g := rsStep f (e.gen l)
    let (w, sg) := cvtLong f
    let x : Int := if w == 32 then ext (e.src l f.a .int) ⟨32, sg⟩
      else ext (e.src64 l f.a (if sg then .int else .n64)) ⟨64, sg⟩
    .w64 f.d (BitVec.ofNat 64 (fres fp64 (MOD.round f.mod) (MOD.sat f.mod) g (Val.ofInt x))) :: rsGen f g

/-- A value rounded to an integral value in its own format; a zero keeps the sign (R119). -/
def roundOwn (F : Fmt) (m : RMode) (g : W32) (v : Val) : Nat :=
  match v with
  | .fin n k e => fres F 0 false 0 (if e ≥ 0 then v else .fin n (roundInt m g n k e 0) 0)
  | _ => fres F 0 false 0 v

/-- FROUND (R119). -/
def execFround (f : Form) (s : State) : Host.Outcome State Fault Refusal :=
  laneWord 0xAE f s fun e l =>
    let g := rsStep f (e.gen l)
    .w32 f.d (BitVec.ofNat 32 (roundOwn fp32 (MOD.round f.mod) g (e.f32 l f.a))) :: rsGen f g

/-- DROUND (R113, R119). -/
def execDround (f : Form) (s : State) : Host.Outcome State Fault Refusal :=
  laneWord 0xFD f s fun e l =>
    let g := rsStep f (e.gen l)
    .w64 f.d (BitVec.ofNat 64 (roundOwn fp64 (MOD.round f.mod) g (e.f64 l f.a))) :: rsGen f g

end Sys2Proof.Machine
end

