-- ==== Sys2Proof/Machine/IntArith.lean ====
section
/-! DEFINITION. Integer arithmetic at 32 and 64 bits (R84 to R87). -/

namespace Sys2Proof.Machine

/-- The type of a 32-bit entry: .s32, or .n32 (R84). -/
def ty32 (f : Form) : ITy := if MOD.type f.mod == 6 then n32 else s32
/-- The type of a 64-bit entry: .s64, or .n64 (R87). -/
def ty64 (f : Form) : ITy := if MOD.type f.mod == 8 then n64 else s64
/-- How a C immediate of a 64-bit entry is extended (R60). -/
def imm64 (f : Form) : ImmT := if MOD.type f.mod == 8 then .n64 else .int

/-- Entries with a and b: the result of `op` fitted into the type (R83, R84). -/
def intTwo (opc : Nat) (f : Form) (s : State) (op : Int → Int → Int) : Host.Outcome State Fault Refusal :=
  laneWord opc f s fun e l =>
    let t := ty32 f
    [.w32 f.d (fit32 (op (ext (e.src l f.a .int) t) (ext (e.b l f .int) t)) t (MOD.sat f.mod))]

/-- Entries with a, b and c (R84). -/
def intThree (opc : Nat) (f : Form) (s : State) (op : Int → Int → Int → Int) : Host.Outcome State Fault Refusal :=
  laneWord opc f s fun e l =>
    let t := ty32 f
    [.w32 f.d (fit32 (op (ext (e.src l f.a .int) t) (ext (e.src l f.b .int) t) (ext (e.c l f .int) t)) t (MOD.sat f.mod))]

/-- Entries with a alone, signed (R84). -/
def intOne (opc : Nat) (f : Form) (s : State) (op : Int → Int) : Host.Outcome State Fault Refusal :=
  laneWord opc f s fun e l => [.w32 f.d (fit32 (op (ext (e.src l f.a .int) s32)) s32 (MOD.sat f.mod))]

/-- The same at 64 bits (R87). -/
def longTwo (opc : Nat) (f : Form) (s : State) (op : Int → Int → Int) : Host.Outcome State Fault Refusal :=
  laneWord opc f s fun e l =>
    let t := ty64 f
    [.w64 f.d (fit64 (op (ext (e.src64 l f.a (imm64 f)) t) (ext (e.b64 l f (imm64 f)) t)) t (MOD.sat f.mod))]

/-- Bitwise at 64 bits (R87). -/
def longBits (opc : Nat) (f : Form) (s : State) (op : W64 → W64 → W64) : Host.Outcome State Fault Refusal :=
  laneWord opc f s fun e l => [.w64 f.d (op (e.src64 l f.a .int) (e.b64 l f .int))]

/-- floor(a × b / 2^32), the high word of the product (R84). -/
def mulHigh (a b : Int) : Int := (a * b) / (2 ^ 32 : Nat)

/-- The division function: all ones for b = 0, else the quotient rounded toward zero, fitted (R85). -/
def divide (a b : Int) (t : ITy) (sat : Bool) : Nat :=
  if b == 0 then 2 ^ t.w - 1 else fit (Int.tdiv a b) t sat

/-- The remainder: the dividend for b = 0, else with the sign of a (R85). -/
def remainder (a b : Int) (t : ITy) : Nat :=
  if b == 0 then fit a t false else fit (a - b * Int.tdiv a b) t false

/-- IADD (R84). -/
def execIadd (f : Form) (s : State) : Host.Outcome State Fault Refusal := intTwo 0x10 f s fun a b => a + b
/-- ISUB (R84). -/
def execIsub (f : Form) (s : State) : Host.Outcome State Fault Refusal := intTwo 0x11 f s fun a b => a - b
/-- IMUL (R84). -/
def execImul (f : Form) (s : State) : Host.Outcome State Fault Refusal := intTwo 0x12 f s fun a b => a * b
/-- IMULH (R84). -/
def execImulh (f : Form) (s : State) : Host.Outcome State Fault Refusal := intTwo 0x13 f s mulHigh
/-- IMAD (R84). -/
def execImad (f : Form) (s : State) : Host.Outcome State Fault Refusal := intThree 0x14 f s fun a b c => a * b + c

/-- IMADW: a × b + c with c and d of 64 bits (R84). -/
def execImadw (f : Form) (s : State) : Host.Outcome State Fault Refusal :=
  laneWord 0x15 f s fun e l =>
    let t := ty32 f
    let t2 : ITy := ⟨64, t.signed⟩
    let c := e.c64 l f (if t.signed then .int else .n64)
    [.w64 f.d (fit64 (ext (e.src l f.a .int) t * ext (e.src l f.b .int) t + ext c t2) t2 (MOD.sat f.mod))]

/-- IDIV (R85). -/
def execIdiv (f : Form) (s : State) : Host.Outcome State Fault Refusal :=
  laneWord 0x16 f s fun e l =>
    let t := ty32 f
    [.w32 f.d (BitVec.ofNat 32 (divide (ext (e.src l f.a .int) t) (ext (e.b l f .int) t) t (MOD.sat f.mod)))]

/-- IREM (R85). -/
def execIrem (f : Form) (s : State) : Host.Outcome State Fault Refusal :=
  laneWord 0x17 f s fun e l =>
    let t := ty32 f
    [.w32 f.d (BitVec.ofNat 32 (remainder (ext (e.src l f.a .int) t) (ext (e.b l f .int) t) t))]

/-- IMIN (R84). -/
def execImin (f : Form) (s : State) : Host.Outcome State Fault Refusal := intTwo 0x18 f s min
/-- IMAX (R84). -/
def execImax (f : Form) (s : State) : Host.Outcome State Fault Refusal := intTwo 0x19 f s max
/-- IABS (R84). -/
def execIabs (f : Form) (s : State) : Host.Outcome State Fault Refusal := intOne 0x1A f s fun a => |a|
/-- INEG (R84). -/
def execIneg (f : Form) (s : State) : Host.Outcome State Fault Refusal := intOne 0x1B f s fun a => -a

/-- The carry or borrow out, where CO is set (R86). -/
def carryOut (f : Form) (b : Bool) : List Wr :=
  if f.mod.getLsbD 3 then [.pr (.p (f.mod.extractLsb' 0 3)) b] else []

/-- IADDC (R86). -/
def execIaddc (f : Form) (s : State) : Host.Outcome State Fault Refusal :=
  laneWord 0x1C f s fun e l =>
    let r := addCarry (e.src l f.a .int) (e.src l f.b .int) (e.pred l f.c.opnd)
    .w32 f.d r.1 :: carryOut f r.2

/-- ISUBB (R86). -/
def execIsubb (f : Form) (s : State) : Host.Outcome State Fault Refusal :=
  laneWord 0x1D f s fun e l =>
    let r := subBorrow (e.src l f.a .int) (e.src l f.b .int) (e.pred l f.c.opnd)
    .w32 f.d r.1 :: carryOut f r.2

/-- ISAD (R84). -/
def execIsad (f : Form) (s : State) : Host.Outcome State Fault Refusal := intThree 0x1E f s fun a b c => |a - b| + c

/-- Byte `k` of a word as a number of the type (R84). -/
def byteAs (x : W32) (signed : Bool) (k : Nat) : Int := ext (x.extractLsb' (8 * k) 8) ⟨8, signed⟩

/-- IDOT4 (R84). -/
def execIdot4 (f : Form) (s : State) : Host.Outcome State Fault Refusal :=
  laneWord 0x1F f s fun e l =>
    let signed := MOD.type f.mod == 0
    let t : ITy := ⟨32, signed⟩
    let a := e.src l f.a .bytes
    let b := e.src l f.b .bytes
    let p (k : Nat) : Int := byteAs a signed k * byteAs b signed k
    [.w32 f.d (fit32 (ext (e.c l f .int) t + (p 0 + p 1 + p 2 + p 3)) t (MOD.sat f.mod))]

/-- IADD3 (R84). -/
def execIadd3 (f : Form) (s : State) : Host.Outcome State Fault Refusal := intThree 0xE8 f s fun a b c => a + b + c

/-- ISCADD: a × 2^(c[4:0]) + b (R84). -/
def execIscadd (f : Form) (s : State) : Host.Outcome State Fault Refusal :=
  intThree 0xE9 f s fun a b c => a * (2 ^ (c % 32).toNat : Nat) + b

/-- LADD (R87). -/
def execLadd (f : Form) (s : State) : Host.Outcome State Fault Refusal := longTwo 0x20 f s fun a b => a + b
/-- LSUB (R87). -/
def execLsub (f : Form) (s : State) : Host.Outcome State Fault Refusal := longTwo 0x21 f s fun a b => a - b
/-- LMUL (R87). -/
def execLmul (f : Form) (s : State) : Host.Outcome State Fault Refusal := longTwo 0x22 f s fun a b => a * b

/-- LMAD (R87). -/
def execLmad (f : Form) (s : State) : Host.Outcome State Fault Refusal :=
  laneWord 0x23 f s fun e l =>
    let t := ty64 f
    let i := imm64 f
    [.w64 f.d (fit64 (ext (e.src64 l f.a i) t * ext (e.src64 l f.b i) t + ext (e.c64 l f i) t) t (MOD.sat f.mod))]

/-- The count of a shift at width w: the low bits under .wrap, else all 32 (R88). -/
def shiftCount (f : Form) (w : Nat) (b : W32) : Nat := if f.mod.getLsbD 0 then b.toNat % w else b.toNat

/-- LSHL (R87, R88). -/
def execLshl (f : Form) (s : State) : Host.Outcome State Fault Refusal :=
  laneWord 0x24 f s fun e l =>
    let n := shiftCount f 64 (e.b l f .int)
    [.w64 f.d (if n ≥ 64 then 0 else e.src64 l f.a .int <<< n)]

/-- LSHR (R87, R88). -/
def execLshr (f : Form) (s : State) : Host.Outcome State Fault Refusal :=
  laneWord 0x25 f s fun e l =>
    let n := shiftCount f 64 (e.b l f .int)
    [.w64 f.d (if n ≥ 64 then 0 else e.src64 l f.a .int >>> n)]

/-- LSAR (R87, R88). -/
def execLsar (f : Form) (s : State) : Host.Outcome State Fault Refusal :=
  laneWord 0x26 f s fun e l =>
    [.w64 f.d ((e.src64 l f.a .int).sshiftRight (min 63 (shiftCount f 64 (e.b l f .int))))]

/-- LMIN (R87). -/
def execLmin (f : Form) (s : State) : Host.Outcome State Fault Refusal := longTwo 0x27 f s min
/-- LMAX (R87). -/
def execLmax (f : Form) (s : State) : Host.Outcome State Fault Refusal := longTwo 0x28 f s max
/-- LAND (R87). -/
def execLand (f : Form) (s : State) : Host.Outcome State Fault Refusal := longBits 0x29 f s fun a b => a &&& b
/-- LOR (R87). -/
def execLor (f : Form) (s : State) : Host.Outcome State Fault Refusal := longBits 0x2A f s fun a b => a ||| b
/-- LXOR (R87). -/
def execLxor (f : Form) (s : State) : Host.Outcome State Fault Refusal := longBits 0x2B f s fun a b => a ^^^ b

/-- LEA: a + ext(b) × 2^(c[5:0]) mod 2^64 (R87). -/
def execLea (f : Form) (s : State) : Host.Outcome State Fault Refusal :=
  laneWord 0x2C f s fun e l =>
    let b := ext (e.src l f.b .int) (ty32 f)
    let n := (e.c l f .int).toNat % 64
    [.w64 f.d (BitVec.ofInt 64 ((e.src64 l f.a .int).toNat + b * (2 ^ n : Nat)))]

/-- LNEG (R87). -/
def execLneg (f : Form) (s : State) : Host.Outcome State Fault Refusal :=
  laneWord 0x2D f s fun e l => [.w64 f.d (fit64 (-ext (e.src64 l f.a .int) s64) s64 (MOD.sat f.mod))]

/-- LDIV (R85). -/
def execLdiv (f : Form) (s : State) : Host.Outcome State Fault Refusal :=
  laneWord 0x2E f s fun e l =>
    let t := ty64 f
    [.w64 f.d (BitVec.ofNat 64 (divide (ext (e.src64 l f.a (imm64 f)) t) (ext (e.b64 l f (imm64 f)) t) t (MOD.sat f.mod)))]

/-- LREM (R85). -/
def execLrem (f : Form) (s : State) : Host.Outcome State Fault Refusal :=
  laneWord 0x2F f s fun e l =>
    let t := ty64 f
    [.w64 f.d (BitVec.ofNat 64 (remainder (ext (e.src64 l f.a (imm64 f)) t) (ext (e.b64 l f (imm64 f)) t) t))]

end Sys2Proof.Machine
end

