-- ==== Sys2Proof/Machine/Issue.lean ====
section
/-! DEFINITION. What issues next: time (R14, R356), the group of a wave (R129, R138), the completion of JWAIT at a group
boundary (R133), the quadrant's choice (R103, R165) and the fetch of its word (R15, R16). -/

namespace Sys2Proof.Machine

/-! ## Time -/

/-- A lane that waits on slips (R356, event 8). -/
def onSlips (c : Core) (l : Lane) : Bool :=
  match l.block with
  | .word b => match c.findWait b with
    | some w => match w.kind with | .slips _ _ _ _ => true | _ => false
    | none => false
  | _ => false

def slipLanes (c : Core) (t : Nat) : Nat :=
  (c.waves.filter fun w => w.2.team == t).foldl (fun n w => n + (w.2.lanes.filter fun l => onSlips c l.2).length) 0

/-- The end of a cycle: the batches of barriers, the windows set in it, the words whose write-backs are all made or whose matrix
operations are gone, and the bins that are due (R137, R156, R200, R203, R286). -/
def endCycle (s : State) (cycle : Nat) : State :=
  let s := forEach s.teams s fun s t => settleBarriers s t.1
  let s := { s with teams := s.teams.map fun t => (t.1, t.2.commitWindows) }
  let s := forEach s.cores s fun s c => wakeMatrix (settleFences s c.1) c.1
  forEach s.cores s fun s c => drawDue s c.1 cycle

/-- The start of a cycle: threads that wait for a reform bin take those that the last cycle freed (R137). -/
def startCycle (s : State) : State := forEach s.cores s fun s c => fileFreed s c.1

/-- ec cycles pass: the end of the current cycle, the clock, the counters of resident teams, and a fresh round of free
choices. -/
def passTime (s : State) (dt : Nat) : State :=
  let s := reapGone s
  let ac := (s.now + dt) / 2 - s.now / 2
  let s := if ac == 0 then s else endCycle s ((s.now + dt) / 2 - 1)
  -- corrected errors are invisible but for their count (R191, R393): how many there are is free
  let ecc := if dt == 0 then s.eccCorrected else s.eccCorrected + Config.free s.tick 8100
  let s := { s with now := s.now + dt, tick := s.tick + 1, eccCorrected := ecc }
  let s := if ac == 0 then s else startCycle s
  forEach (s.teams.filter fun t => !t.2.counters.isEmpty && (t.2.status == .resident || t.2.status == .frozen)) s fun s t =>
    countEv (countEv s t.1 0 ac) t.1 8 (ac * slipLanes (s.core t.2.core) t.1)

/-! ## JWAIT -/

/-- The lanes of a wave that have arrived at a mask (R132). -/
def arrivedAt (w : Wave) (m : Nat) : List Nat :=
  w.lanes.filterMap fun e => if e.2.block == .jwait m && !e.2.exited then some e.1 else none

/-- A wait on a mask is complete: a lane has arrived and every lane of the mask has (R133). -/
def jwaitDone (w : Wave) (m : Nat) : Bool :=
  let a := arrivedAt w m
  let x := tgetD w.masks m 0
  !a.isEmpty && (List.range 32).all fun i => !x.getLsbD i || a.contains i

/-- Its lanes go on at the word after their JWAIT (R133). -/
def jwaitRelease (s : State) (core slot m : Nat) : State :=
  forEach (arrivedAt (s.wave core slot) m) s fun s i => s.onLane core ⟨slot, i⟩ Lane.next

/-- At a group boundary every completed wait of the wave ends (R133). -/
def settle (s : State) (core slot : Nat) : State :=
  let w := s.wave core slot
  if w.group.isEmpty then
    forEach ((List.range 12).filter (jwaitDone w)) s fun s m => jwaitRelease s core slot m
  else s

/-- What a quadrant does before it chooses: lanes that cannot go on block, and the waits that the boundaries complete end
(R128, R133, R165). -/
def settled (s : State) (core q : Nat) : State :=
  let which (k : Nat) : Bool := k % 4 == q || !(s.core core).groups.isEmpty
  let s := blockLanes s core which
  let s := forEach ((s.core core).waves.filter fun w => w.1 % 4 == q) s fun s w => settle s core w.1
  blockLanes s core which

/-! ## Entries -/

/-- An entry of a quadrant: a wave slot, or a reformed group behind the slots. -/
structure Entry where
  key : Nat
  slot : Nat
  reformed : Option Nat
  team : Nat
  credit : Nat
  idle : Nat
  ready : Bool
  deriving DecidableEq, Repr, Inhabited

/-- The entries of a quadrant in slot order (R126, R138, R165). DESIGN CHOICE: reformed groups stand behind the wave slots, by their
numbers (log 136). -/
def entriesOf (s : State) (core q : Nat) : List Entry :=
  let c := s.core core
  (c.waves.filter fun w => w.1 % 4 == q).map (fun w =>
    { key := w.1, slot := w.1, reformed := none, team := w.2.team, credit := w.2.credit, idle := w.2.idle
      ready := waveReady s c w.1 w.2 }) ++
  (c.groups.filter fun g => g.quad == q).map fun g =>
    { key := 64 + g.id, slot := (g.members.headD ⟨0, 0⟩).slot, reformed := some g.id, team := g.team, credit := g.credit
      idle := g.idle, ready := mayIssue s g.team (!g.group.isEmpty) && g.yielded != s.now / 2 + 1 && !(reformedGroup c g).isEmpty }

/-- The counts of an entry change, if its word has not ended its team. -/
def onEntry (s : State) (core : Nat) (e : Entry) (f : Nat × Nat → Nat × Nat) : State :=
  match e.reformed with
  | none => s.onCore core fun c => { c with
      waves := tmod c.waves e.slot fun w => let x := f (w.credit, w.idle); { w with credit := x.1, idle := x.2 } }
  | some id => s.onCore core fun c => { c with groups := c.groups.map fun g =>
      if g.id == id then let x := f (g.credit, g.idle); { g with credit := x.1, idle := x.2 } else g }

def weight (s : State) (t : Nat) : Nat := effPrio s (teamRcb s t) + 1

/-- The entry that the quadrant picks, with the credits it refills (R165). -/
def pickEntry (s : State) (core q : Nat) : Option Entry × State :=
  let es := entriesOf s core q
  let ready := es.filter (·.ready)
  match ready with
  | [] => (none, s)
  | r :: rs =>
    let old := rs.foldl (fun m e => if e.idle > m.idle then e else m) r
    if old.idle ≥ 256 then (some old, s)
    else
      let refill := !(ready.any fun e => e.credit > 0)
      let s := if refill then forEach es s fun s e => onEntry s core e fun x => (weight s e.team, x.2) else s
      let ptr := tgetD (s.core core).ptr q 0
      let has (e : Entry) : Bool := refill || e.credit > 0
      let order := (ready.filter fun e => e.key ≥ ptr) ++ ready.filter fun e => e.key < ptr
      (order.find? has, s)

/-- The entry that has issued stays ready, as the quadrant will see it in the next cycle, and holds a credit (R165). -/
def staysReady (s : State) (core q : Nat) (e : Entry) : Bool :=
  match (entriesOf (settled { s with now := s.now + 2 } core q) core q).find? fun x => x.key == e.key with
  | some x => x.ready && x.credit > 0
  | none => false

/-- The bookkeeping of a word issued by an entry (R165). -/
def afterIssue (s : State) (core q : Nat) (e : Entry) (others : List Entry) : State :=
  let s := onEntry s core e fun x => (x.1 - 1, 0)
  let s := forEach others s fun s v => onEntry s core v fun x => (x.1, x.2 + 1)
  let stays := staysReady s core q e
  s.onCore core fun c => { c with
    ptr := tset c.ptr q (if stays then e.key else e.key + 1), issued := tset c.issued q (s.now / 2 + 1) }

/-! ## The next word -/

/-- The issue group of an entry. -/
def curOf (s : State) (core : Nat) (e : Entry) : Cur :=
  let lanes : List (Nat × LaneRef) := match e.reformed with
    | none => (waveGroup (s.core core) e.slot (s.wave core e.slot)).map fun i => (i, ⟨e.slot, i⟩)
    | some id => match (s.core core).groups.find? fun g => g.id == id with
      | some g =>
        let rs := reformedGroup (s.core core) g
        (withIndex 0 g.members).filter fun x => rs.contains x.2
      | none => []
  { core := core, slot := e.slot, reformed := e.reformed, lanes := lanes, word := 0 }

/-- What a quadrant does with its cycle. -/
inductive Offer where
  /-- no wave is ready -/
  | idle (s : State)
  /-- a word of the entry's group -/
  | run (i : Instr) (s : State) (e : Entry) (others : List Entry)
  /-- a word or a PC that traps -/
  | trap (s : State) (e : Entry) (others : List Entry)
  /-- code in a frame of another owner's key slot ends the team (R335, R388) -/
  | denied (s : State)
  /-- code that does not translate -/
  | unpinned
  deriving Repr

/-- The word at the group's PC: a header where the group stands outside a clause, else an instruction (R15, R16). A thread's
first word that is no clause header is an illegal target (R17, R160). DESIGN CHOICE: so is a PC whose word is not wholly inside
the code range (log 111). -/
noncomputable def wordAt (s : State) (g : Cur) : Option (Except Nat Instr × W96) :=
  let t := g.team s
  let l := s.lane g.core (g.refs.headD ⟨g.slot, 0⟩)
  if outsideCode s t l then some (.error 0x02, 0)
  else match codeWord s (dieOf g.core) (teamAsid s t) l.pc.toNat with
    | none => none
    | some w => match l.clause with
      | none => match decodeHeader w with
        | .ok h => some (.ok (.clause h), w)
        | .error _ => some (.error (if l.atEntry && w.extractLsb' 0 8 != 0 then 0x02 else 0x01), w)
      | some _ => match decodeWord w with
        | .ok i => some (.ok i, w)
        | .error _ => some (.error 0x01, w)

/-- One cycle of a quadrant: the lanes and waits that it settles, the pick, the group and its word (R129, R133, R165). A core
has four quadrants, and the package 640 cores (R1). -/
noncomputable def offer (s : State) (core q : Nat) : Offer :=
  -- one word per quadrant and cycle, the quadrants of a core in increasing order (R165, R210, R256, R278); words precede the
  -- completions of their cycle (R256)
  if core ≥ 640 || q ≥ 4 || ((List.range 4).any fun k => q ≤ k && tgetD (s.core core).issued k 0 == s.now / 2 + 1) || s.now % 2 == 1 then .idle s
  else if s.skipping then
    -- over the power limit every quadrant skips its issue cycles (R392)
    .idle { s.onCore core fun c => { c with issued := tset c.issued q (s.now / 2 + 1) } with skipped := s.skipped + 1 }
  else
  match pickEntry (settled s core q) core q with
  | (none, s) => .idle s
  | (some e, s) =>
    let others := (entriesOf s core q).filter fun x => x.ready && x.key != e.key
    let g := curOf s core e
    let s := setGroup s g g.refs
    match wordAt s g with
    | none =>
      let va := (s.lane core (g.refs.headD ⟨g.slot, 0⟩)).pc.toNat
      if codeDenied s (teamAsid s (g.team s)) va then .denied (terminateAccess s (g.team s) 5 0x0202 va false) else .unpinned
    | some (.ok i, w) => .run i { s with cur := some { g with word := w } } e others
    | some (.error c, w) => .trap (takeTrap s { g with word := w } c g.refs fun _ => 0) e others

/-- Words charge the entry's credit; a header takes no issue cycle of its own (R16, R165). -/
def charge (i : Instr) (s : State) (core q : Nat) (e : Entry) (others : List Entry) : State :=
  let s := { s with cur := none }
  match i with
  | .clause _ => s
  | _ => afterIssue s core q e others

/-- What a carrel does with its turn (R312, R323): an instruction, an absent page of its fetch, an exception of its
fetch, or nothing. -/
noncomputable def hartOffer (s : State) (die c : Nat) : Option (Instr × State) :=
  if !(s.carrel die c).runs then none
  else match hartFetch s die c with
    | .word w _ s1 => match decodeCarrel w with
      | .ok i => some (i, { s1 with curCarrel := some (die, c) })
      | .error _ => some (.carrelException die c, s1)
    | .absent _ s1 => some (.carrelPageFault die c, s1)
    | .fault _ s1 => some (.carrelException die c, s1)

end Sys2Proof.Machine
end

