-- ==== Sys2Proof/Machine/LaneOps.lean ====
section
/-! DEFINITION. The cross-lane instructions (R146 to R151). -/

namespace Sys2Proof.Machine

/-- The contributing lane in a slot (R146). -/
def Env.atSlot (e : Env) (i : Nat) : Option LaneAt := e.act.find? fun l => l.1 == i

/-- The set of contributing slots that satisfy a test. -/
def Env.slots (e : Env) (p : LaneAt → Bool) : W32 := laneSet ((e.act.filter p).map (·.1))

/-! ## Shuffles -/

/-- The source slot of a shuffle, when it is in range (R147). -/
def shuffleSource (opc w i n : Nat) : Option Nat :=
  let base := i - i % w
  match opc with
  | 0x50 => if n < w then some (base + n) else none
  | 0x51 => if n < w then some (i ^^^ n) else none
  | 0x52 => if n ≤ i - base then some (i - n) else none
  | _ => if n < base + w - i then some (i + n) else none

/-- SHFL, SHFLX, SHFLU, SHFLD (R147). -/
def shuffleWord (opc : Nat) (f : Form) (s : State) : Host.Outcome State Fault Refusal :=
  laneWord opc f s fun e l =>
    let w := 32 / 2 ^ (f.mod.extractLsb' 0 3).toNat
    let from_ := (shuffleSource opc w l.1 (e.src l f.b .int).toNat).bind e.atSlot
    let src := from_.getD l
    let v : Wr := if f.mod.getLsbD 3 then .w64 f.d (e.src64 src f.a .int) else .w32 f.d (e.src src f.a .int)
    [v, .pr f.c.opnd from_.isSome]

/-- SHFL (R147). -/
def execShfl (f : Form) (s : State) : Host.Outcome State Fault Refusal := shuffleWord 0x50 f s
/-- SHFLX (R147). -/
def execShflx (f : Form) (s : State) : Host.Outcome State Fault Refusal := shuffleWord 0x51 f s
/-- SHFLU (R147). -/
def execShflu (f : Form) (s : State) : Host.Outcome State Fault Refusal := shuffleWord 0x52 f s
/-- SHFLD (R147). -/
def execShfld (f : Form) (s : State) : Host.Outcome State Fault Refusal := shuffleWord 0x53 f s

/-! ## Votes -/

/-- VOTEANY (R148). -/
def execVoteany (f : Form) (s : State) : Host.Outcome State Fault Refusal :=
  laneWord 0x54 f s fun e _ => [.pr f.d (e.act.any fun l => e.pred l f.a)]

/-- VOTEALL (R148). -/
def execVoteall (f : Form) (s : State) : Host.Outcome State Fault Refusal :=
  laneWord 0x55 f s fun e _ => [.pr f.d (e.act.all fun l => e.pred l f.a)]

/-- BALLOT (R148). -/
def execBallot (f : Form) (s : State) : Host.Outcome State Fault Refusal :=
  laneWord 0x56 f s fun e _ => [.w32 f.d (e.slots fun l => e.pred l f.a)]

/-- MATCH (R149). -/
def execMatchEq (f : Form) (s : State) : Host.Outcome State Fault Refusal :=
  laneWord 0x57 f s fun e l =>
    let v (x : LaneAt) : W64 := if MOD.type f.mod == 10 then e.src64 x f.a .int else (e.src x f.a .int).zeroExtend 64
    [.w32 f.d (e.slots fun x => v x == v l), .pr f.c.opnd (e.act.all fun x => v x == v l)]

/-! ## Reduction -/

/-- The value of a reduction over the operands of the contributing slots (R150); `xs` holds slots 0 to 31. -/
def reduceLanes (op ty : Nat) (sat : Bool) (xs : List (Option W32)) : W32 :=
  let vs := xs.filterMap id
  let it : ITy := if ty == 6 then n32 else s32
  let fold (h : W32 → W32 → W32) : W32 := match vs with | [] => 0 | v :: r => r.foldl h v
  if ty == 13 then
    if op == 0 then BitVec.ofNat 32 (treeSum fp32 (xs.map fun x => x.map BitVec.toNat))
    else match vs with
      | [] => 0
      | v :: r => BitVec.ofNat 32 (r.foldl (fun m x => minMaxCode fp32 (op == 2) m x.toNat) (minMaxCode fp32 (op == 2) v.toNat v.toNat))
  else match op with
    | 0 => fit32 (vs.foldl (fun t x => t + ext x it) 0) it sat
    | 1 => fold fun m x => if ext x it < ext m it then x else m
    | 2 => fold fun m x => if ext m it < ext x it then x else m
    | 3 => fold (· &&& ·)
    | 4 => fold (· ||| ·)
    | _ => fold (· ^^^ ·)

/-- REDUX (R150). -/
def execRedux (f : Form) (s : State) : Host.Outcome State Fault Refusal :=
  laneWord 0x58 f s fun e _ =>
    let xs := (List.range 32).map fun i => (e.atSlot i).map fun l => e.src l f.a (if MOD.type f.mod == 13 then .fp fp32 else .int)
    [.w32 f.d (reduceLanes (f.mod.extractLsb' 0 3).toNat (MOD.type f.mod) (MOD.sat f.mod) xs)]

/-! ## Election -/

/-- ELECT (R151). -/
def execElect (f : Form) (s : State) : Host.Outcome State Fault Refusal :=
  laneWord 0x6E f s fun e l => [.pr f.d (l == e.first)]

/-- ACTIVE (R151). -/
def execActive (f : Form) (s : State) : Host.Outcome State Fault Refusal :=
  laneWord 0x6F f s fun e _ => [.w32 f.d (e.slots fun _ => true)]

end Sys2Proof.Machine
end

