-- ==== Sys2Proof/Machine/Logic.lean ====
section
/-! DEFINITION. Logic, shifts and bit fields (R88 to R90). -/

namespace Sys2Proof.Machine

/-- Bitwise entries with a and b (R88). -/
def bitsTwo (opc : Nat) (f : Form) (s : State) (op : W32 → W32 → W32) : Host.Outcome State Fault Refusal :=
  laneWord opc f s fun e l => [.w32 f.d (op (e.src l f.a .int) (e.b l f .int))]
def bitsOne (opc : Nat) (f : Form) (s : State) (op : W32 → W32) : Host.Outcome State Fault Refusal :=
  laneWord opc f s fun e l => [.w32 f.d (op (e.src l f.a .int))]
def bitsThree (opc : Nat) (f : Form) (s : State) (op : W32 → W32 → W32 → W32) : Host.Outcome State Fault Refusal :=
  laneWord opc f s fun e l => [.w32 f.d (op (e.src l f.a .int) (e.src l f.b .int) (e.c l f .int))]

/-- A word whose bit i is `p i`. -/
def ofBits (p : Nat → Bool) : W32 := (List.range 32).foldl (fun m i => if p i then m ||| (1#32 <<< i) else m) 0

/-- AND (R88). -/
def execAnd (f : Form) (s : State) : Host.Outcome State Fault Refusal := bitsTwo 0x30 f s fun a b => a &&& b
/-- OR (R88). -/
def execOr (f : Form) (s : State) : Host.Outcome State Fault Refusal := bitsTwo 0x31 f s fun a b => a ||| b
/-- XOR (R88). -/
def execXor (f : Form) (s : State) : Host.Outcome State Fault Refusal := bitsTwo 0x32 f s fun a b => a ^^^ b
/-- NOT (R88). -/
def execNot (f : Form) (s : State) : Host.Outcome State Fault Refusal := bitsOne 0x33 f s fun a => ~~~a
/-- ANDN (R88). -/
def execAndn (f : Form) (s : State) : Host.Outcome State Fault Refusal := bitsTwo 0x34 f s fun a b => a &&& ~~~b

/-- The function table at three input bits (R89). -/
def lutBit (f : Form) (a b c : Bool) : Bool := f.mod.getLsbD (a.toNat + 2 * b.toNat + 4 * c.toNat)

/-- LOP3 (R89). -/
def execLop3 (f : Form) (s : State) : Host.Outcome State Fault Refusal :=
  bitsThree 0x35 f s fun a b c => ofBits fun i => lutBit f (a.getLsbD i) (b.getLsbD i) (c.getLsbD i)

/-- SHL (R88). -/
def execShl (f : Form) (s : State) : Host.Outcome State Fault Refusal :=
  bitsTwo 0x36 f s fun a b => let n := shiftCount f 32 b; if n ≥ 32 then 0 else a <<< n
/-- SHR (R88). -/
def execShr (f : Form) (s : State) : Host.Outcome State Fault Refusal :=
  bitsTwo 0x37 f s fun a b => let n := shiftCount f 32 b; if n ≥ 32 then 0 else a >>> n
/-- SAR (R88). -/
def execSar (f : Form) (s : State) : Host.Outcome State Fault Refusal :=
  bitsTwo 0x38 f s fun a b => a.sshiftRight (min 31 (shiftCount f 32 b))
/-- ROTL (R88). -/
def execRotl (f : Form) (s : State) : Host.Outcome State Fault Refusal :=
  bitsTwo 0x39 f s fun a b => a.rotateLeft (b.toNat % 32)

/-- FUNSH (R88). -/
def execFunsh (f : Form) (s : State) : Host.Outcome State Fault Refusal :=
  bitsThree 0x3A f s fun a b c =>
    let x : W64 := b ++ a
    let n := c.toNat % 32
    if f.mod.getLsbD 0 then (x <<< n).extractLsb' 32 32 else (x >>> n).extractLsb' 0 32

def countBits (x : W32) : Nat := ((List.range 32).filter fun i => x.getLsbD i).length
/-- The highest set bit. -/
def topBit (x : W32) : Option Nat := ((List.range 32).reverse).find? fun i => x.getLsbD i

/-- POPC (R88). -/
def execPopc (f : Form) (s : State) : Host.Outcome State Fault Refusal := bitsOne 0x3B f s fun a => BitVec.ofNat 32 (countBits a)
/-- CLZ (R88). -/
def execClz (f : Form) (s : State) : Host.Outcome State Fault Refusal :=
  bitsOne 0x3C f s fun a => match topBit a with | some i => BitVec.ofNat 32 (31 - i) | none => 32
/-- BREV (R88). -/
def execBrev (f : Form) (s : State) : Host.Outcome State Fault Refusal :=
  bitsOne 0x3D f s fun a => ofBits fun i => a.getLsbD (31 - i)

/-- BFE (R90). -/
def execBfe (f : Form) (s : State) : Host.Outcome State Fault Refusal :=
  bitsTwo 0x3E f s fun a b =>
    let pos := b.toNat % 256
    let top := min (pos + b.toNat / 256 % 256) 32
    if top ≤ pos then 0
    else
      let signed := MOD.type f.mod == 5
      ofBits fun i => if pos + i < top then a.getLsbD (pos + i) else signed && a.getLsbD (top - 1)

/-- BFI (R90). -/
def execBfi (f : Form) (s : State) : Host.Outcome State Fault Refusal :=
  bitsThree 0x3F f s fun a b c =>
    let pos := c.toNat % 256
    let top := min (pos + c.toNat / 256 % 256) 32
    ofBits fun i => if pos ≤ i && i < top then a.getLsbD (i - pos) else b.getLsbD i

/-- BMSK (R90). -/
def execBmsk (f : Form) (s : State) : Host.Outcome State Fault Refusal :=
  bitsTwo 0xEA f s fun a b => ofBits fun i => decide (a.toNat % 256 ≤ i) && decide (i < a.toNat % 256 + b.toNat % 256)

/-- BFIND (R90). -/
def execBfind (f : Form) (s : State) : Host.Outcome State Fault Refusal :=
  bitsOne 0xEB f s fun a =>
    match topBit (if MOD.type f.mod == 5 && a.getLsbD 31 then ~~~a else a) with
    | some i => BitVec.ofNat 32 i
    | none => 0xFFFFFFFF

end Sys2Proof.Machine
end

