-- ==== Sys2Proof/Machine/Masks.lean ====
section
/-! DEFINITION. The mask instructions (R132, R133, R152). -/

namespace Sys2Proof.Machine

/-- The mask register an operand names. -/
def maskReg (o : Opnd) : Nat := match o with | .m n => n.toNat | _ => 0

/-- Change a mask of the group's wave. -/
def Env.onMask (e : Env) (m : Nat) (h : W32 → W32) : State :=
  e.s.onWave e.core e.g.slot fun w => { w with masks := tset w.masks m (h (tgetD w.masks m 0)) }

/-- The contributing lanes, as a lane set of the wave. -/
def Env.laneMask (e : Env) : W32 := laneSet (e.act.map (·.2.lane))

/-- JOIN (R132). -/
def execJoin (f : Form) (s : State) : Host.Outcome State Fault Refusal :=
  runWord 0x59 f s fun e => .done (e.onMask (maskReg f.a) (· ||| e.laneMask)) []

/-- LEAVE (R132). -/
def execLeave (f : Form) (s : State) : Host.Outcome State Fault Refusal :=
  runWord 0x5A f s fun e => .done (e.onMask (maskReg f.a) (· &&& ~~~ e.laneMask)) []

/-- JWAIT (R132): its lanes arrive, and go on when the wait completes (R133). -/
def execJwait (f : Form) (s : State) : Host.Outcome State Fault Refusal :=
  runWord 0x5B f s fun e =>
    let rs := e.act.map (·.2)
    .done (forEach rs e.s fun s r => setBlock s e.core r (.jwait (maskReg f.a))) rs

/-- JWAIT_COMPLETE (R133): at a group boundary, with a lane arrived and every lane of the mask arrived. -/
def execJwaitComplete (core slot mask : Nat) (s : State) : Host.Outcome State Fault Refusal :=
  let w := s.wave core slot
  if w.group.isEmpty && jwaitDone w mask then .next (jwaitRelease s core slot mask) else .next s

/-- JSET (R132). -/
def execJset (f : Form) (s : State) : Host.Outcome State Fault Refusal :=
  runWord 0x5C f s fun e =>
    let x := laneSet ((e.act.filter fun l => e.pred l f.a).map (·.2.lane))
    .done (e.onMask (maskReg f.d) fun _ => x) []

/-- JGET (R152). -/
def execJget (f : Form) (s : State) : Host.Outcome State Fault Refusal :=
  laneWord 0x5D f s fun e _ => [.w32 f.d (tgetD (e.s.wave e.core e.g.slot).masks (maskReg f.a) 0)]

end Sys2Proof.Machine
end

