-- ==== Sys2Proof/Machine/Moves.lean ====
section
/-! DEFINITION. Moves, selects and lane reads (R93 to R96). -/

namespace Sys2Proof.Machine

/-- The entry's 64-bit form (R93). -/
def wide (f : Form) : Bool := MOD.type f.mod == 10 || MOD.type f.mod == 8

/-- SEL (R93). -/
def execSel (f : Form) (s : State) : Host.Outcome State Fault Refusal :=
  laneWord 0x44 f s fun e l =>
    let o := if e.pred l f.c.opnd then f.a else f.b
    if wide f then [.w64 f.d (e.src64 l o .int)] else [.w32 f.d (e.src l o .int)]

/-- MOV (R93). -/
def execMov (f : Form) (s : State) : Host.Outcome State Fault Refusal :=
  laneWord 0x45 f s fun e l =>
    if wide f then [.w64 f.d (e.src64 l f.a .int)] else [.w32 f.d (e.src l f.a .int)]

/-- MOVI (R93). -/
def execMovi (f : Form) (s : State) : Host.Outcome State Fault Refusal :=
  laneWord 0x46 f s fun e l =>
    if wide f then [.w64 f.d (e.c64 l f (if MOD.type f.mod == 8 then .n64 else .int))] else [.w32 f.d (e.c l f .int)]

/-- MOVS: the low 8 or 16 bits, extended by the type, .s8 by default (R93). -/
def execMovs (f : Form) (s : State) : Host.Outcome State Fault Refusal :=
  laneWord 0x47 f s fun e l =>
    let a := e.src l f.a .int
    [.w32 f.d (match MOD.type f.mod with
      | 2 => (a.extractLsb' 0 8).zeroExtend 32
      | 3 => (a.extractLsb' 0 16).signExtend 32
      | 4 => (a.extractLsb' 0 16).zeroExtend 32
      | _ => (a.extractLsb' 0 8).signExtend 32)]

/-- CLAMP (R93). -/
def execClamp (f : Form) (s : State) : Host.Outcome State Fault Refusal :=
  laneWord 0x4C f s fun e l =>
    if MOD.type f.mod == 13 then
      [.w32 f.d (BitVec.ofNat 32 (roundRne fp32 (((e.f32 l f.a).maxNum (e.f32 l f.b)).minNum (e.fc l f))))]
    else
      let t := ty32 f
      let x := min (max (ext (e.src l f.a .int) t) (ext (e.src l f.b .int) t)) (ext (e.c l f .int) t)
      [.w32 f.d (fit32 x t false)]

/-- One result byte of PRMT under its selector (R93). -/
def prmtByte (x : W64) (s : Byte) : Byte :=
  let y := x.extractLsb' (8 * (s.extractLsb' 0 3).toNat) 8
  let y : Byte := if s.getLsbD 3 then y.reverse else y
  let y : Byte := if s.getLsbD 4 then (if y.getLsbD 7 then 0xFF else 0) else y
  if s.getLsbD 5 then ~~~y else y

/-- PRMT (R93). -/
def execPrmt (f : Form) (s : State) : Host.Outcome State Fault Refusal :=
  bitsThree 0x4E f s fun a b c =>
    let x : W64 := b ++ a
    let y (k : Nat) : Byte := prmtByte x (c.extractLsb' (8 * k) 8)
    y 3 ++ y 2 ++ y 1 ++ y 0

/-- MOVHI (R93). -/
def execMovhi (f : Form) (s : State) : Host.Outcome State Fault Refusal :=
  laneWord 0x4F f s fun e l => [.w64 f.d (e.c l f .int ++ e.src l f.a .int)]

/-- PTOV: bit 7 reads 1 as p7 does (R94). -/
def execPtov (f : Form) (s : State) : Host.Outcome State Fault Refusal :=
  laneWord 0x4A f s fun e l =>
    [.w32 f.d ((List.range 8).foldl (fun m i => if readP e.s e.core l.2 i then m ||| (1#32 <<< i) else m) 0)]

/-- VTOP (R94). -/
def execVtop (f : Form) (s : State) : Host.Outcome State Fault Refusal :=
  laneWord 0x4B f s fun e l =>
    let a := e.src l f.a .int
    let b := e.b l f .int
    (List.range 7).filterMap fun i => if b.getLsbD i then some (.pr (.p (BitVec.ofNat 3 i)) (a.getLsbD i)) else none

/-- CLOCK (R96). -/
def execClock (f : Form) (s : State) : Host.Outcome State Fault Refusal :=
  laneWord 0x4D f s fun e _ => [.w64 f.d e.s.cycles]

/-- The register number of a vector operand. -/
def vregOf (o : Opnd) : Nat := match o with | .v n => n.toNat | _ => 0

/-- BCAST: register a of lane b[4:0] of the thread's own wave; an absent lane gives 0 (R95). -/
def execBcast (f : Form) (s : State) : Host.Outcome State Fault Refusal :=
  laneWord 0x49 f s fun e l =>
    let i := (e.src l f.b .int).toNat % 32
    [.w32 f.d (if (tget (e.s.wave e.core l.2.slot).lanes i).isSome then readHeld e.s e.core ⟨l.2.slot, i⟩ (vregOf f.a) else 0)]

/-- The thread of a number of the team, unless its wave has retired (R95). -/
def threadOf (s : State) (core t tid : Nat) : Option LaneRef :=
  if tid ≥ (teamPkt s t).threads then none
  else ((s.core core).waves.find? fun w => w.2.team == t && w.2.number == tid / 32).map fun w => ⟨w.1, tid % 32⟩

/-- RDLANE's source lies in a wave of another quadrant, so that it is long-latency (R19). -/
def farSource (e : Env) (l : LaneAt) (src : Option LaneRef) : Bool :=
  match src with
  | none => false
  | some r => r.slot != l.2.slot && r.slot % 4 != e.g.quad e.s

/-- RDLANE (R95): a register that holds poison ends the team (R192); a source in a wave of another quadrant is sampled between issue and completion; any other is read at
issue and written before the next word, its flag clear in the same cycle. -/
def execRdlane (f : Form) (s : State) : Host.Outcome State Fault Refusal :=
  runWord 0x48 f s fun e =>
    let src (l : LaneAt) : Option LaneRef := threadOf e.s e.core e.team (e.b l f .int).toNat
    let far (l : LaneAt) : Bool := farSource e l (src l)
    let bad (l : LaneAt) : Bool := !far l && match src l with | some r => (e.s.lane e.core r).poison.contains (vregOf f.a) | none => false
    if e.act.any bad then .stop (terminateAccess e.s e.team 5 0x0207 0 false)
    else
    let near : Env := { e with act := e.act.filter fun l => !far l }
    let dests := near.act.flatMap fun l =>
      let x := match src l with | some r => readHeld e.s e.core r (vregOf f.a) | none => 0
      (Wr.w32 f.d x).dests l.2 (l.2 == e.first.2)
    let nb := e.dests fun _ => []
    let samples := (e.act.filter far).map fun l =>
      { r := l.2, d := f.d, src := (src l).getD l.2, reg := vregOf f.a, writer := l.2 == e.first.2 }
    let pops := f.popsSource (opSpec 0x48 f.mod)
    let s := if pops then e.s else forEach (dests ++ nb) e.s fun s d => d.write s e.core
    if samples.isEmpty && !pops then .done s []
    else
      let lanes := if pops then e.act.map (·.2) else samples.map (·.r)
      .done (addPend s e.core f lanes (if pops then dests ++ nb else []) [] samples 0).2 []

end Sys2Proof.Machine
end

