-- ==== Sys2Proof/Machine/Sched.lean ====
section
/-! DEFINITION. Placement, admission and retirement: home dies (R162), footprints and budgets (R158, R163), team queues
(R163), work stealing (R164), the carve of local SRAM (R181 to R183), and WAVE_RETIRE and TEAM_RETIRE (R144). Admissions
stand in the first half of an ac cycle and retirements in the second, so that freed resources serve from the next cycle. -/

namespace Sys2Proof.Machine

/-! ## Home dies -/

/-- Position of an element in a list. -/
def placeIn (x : Nat) : List Nat → Option Nat
  | [] => none
  | y :: ys => if y == x then some 0 else (placeIn x ys).map (· + 1)

/-- home_die (R162). -/
def Packet.homeDie (p : Packet) (t : Nat) : Nat :=
  let d := p.dies
  let n := d.length
  match p.dist with
  | 0 => d.getD (t % n) 0
  | 1 => d.getD (t / ((p.teams + n - 1) / n)) 0
  | _ => p.pin

/-- The least ordinal from a bound on whose home is a die, when there is one (R162, R163). -/
def Packet.nextOn (p : Packet) (die lo : Nat) : Option Nat :=
  let n := p.dies.length
  match placeIn die p.dies with
  | none => none
  | some i =>
    let t := match p.dist with
      | 0 => if lo ≤ i then i else i + n * ((lo - i + n - 1) / n)
      | 1 => max lo (i * ((p.teams + n - 1) / n))
      | _ => lo
    if t < p.teams && p.homeDie t == die then some t else none

/-- The next team of a launch that a die keeps and has neither admitted nor dealt. -/
def nextFor (l : Launch) (die : Nat) : Option Nat := if l.closed || l.ended then none else l.pkt.nextOn die (tgetD l.next die 0)

/-- A launch may start teams: its context is not held by the host (R345). -/
def startsTeams (s : State) (l : Launch) : Bool := !l.closed && !l.ended && !(s.ctx (ctxOf s l.pkt.rcb)).preempted

/-- A launch has a team of a die to restore, which goes before its unstarted teams (R345). -/
def hasSaved (s : State) (l die : Nat) : Bool :=
  s.teams.any fun e => e.2.launch == l && e.2.status == .saved && dieOf e.2.core == die

/-- The launches whose next team a die may admit, the highest priority first and then in package order (R163). -/
def candidates (s : State) (die : Nat) : List (Nat × Launch) :=
  let ls := s.launches.filter fun e => startsTeams s e.2 && (nextFor e.2 die).isSome && !hasSaved s e.1 die
  (List.range 16).flatMap fun i => ls.filter fun e => effPrio s e.2.pkt.rcb == 15 - i

/-! ## Footprints -/

/-- Blocks of a core's scratchpad pool, lowest first, and those still free (R170, R181). -/
def poolBlocks (c : Core) : List Nat := c.poolWays.flatMap fun w => (List.range 8).map fun i => 8 * w + i
def freeBlocks (c : Core) : List Nat := (poolBlocks c).filter fun b => !c.blocks.contains b

def Packet.blocks (p : Packet) : Nat := (p.scratch + 4095) / 4096

/-- The packets of the teams that hold a slot of a core. -/
def coreTeams (s : State) (core : Nat) : List Packet := (s.core core).tslots.map fun e => teamPkt s e.2

def sumOf {α : Type} (l : List α) (f : α → Nat) : Nat := l.foldl (fun n x => n + f x) 0

/-- Bytes of the vector file that the core's waves take (R125). -/
def vecUsed (s : State) (core : Nat) : Nat := sumOf (s.core core).waves fun w => 128 * (teamPkt s w.2.team).regs

/-- The cores on which a team of an RCB's subtree stands (R157, R158). -/
def subtreeCores (s : State) (a : Nat) : List Nat :=
  s.cores.filterMap fun e =>
    if e.2.tslots.any fun t => (rcbPath s (teamRcb s t.2)).contains a then some e.1 else none

/-- What the teams of an RCB's subtree declare on a core (R158). -/
def subtreeUse (s : State) (core a : Nat) (f : Packet → Nat) : Nat :=
  sumOf ((coreTeams s core).filter fun p => (rcbPath s p.rcb).contains a) f

/-- Every budget of the path holds with the team on the core (R158). -/
def withinBudgets (s : State) (core : Nat) (p : Packet) : Bool :=
  (rcbPath s p.rcb).all fun a =>
    let cs := subtreeCores s a
    (if cs.contains core then cs.length else cs.length + 1) ≤ effective s 0 2 0 10 a &&
    subtreeUse s core a (·.slips) + p.slips ≤ effective s 1 2 10 7 a &&
    subtreeUse s core a (·.folios) + p.folios ≤ effective s 2 2 17 7 a &&
    subtreeUse s core a (·.accums) + p.accums ≤ effective s 3 2 24 3 a

/-- The whole footprint but scratchpad fits the core (R163, R182). -/
def fitsBesides (s : State) (core : Nat) (p : Packet) : Bool :=
  let c := s.core core
  let ps := coreTeams s core
  c.tslots.length < 16 && c.waves.length + p.waves ≤ 64 && vecUsed s core + 128 * p.regs * p.waves ≤ 524288 &&
  sumOf ps (·.slips) + p.slips ≤ 64 && sumOf ps (·.folios) + p.folios ≤ 64 && sumOf ps (·.accums) + p.accums ≤ 4 &&
  withinBudgets s core p

/-- A team fits a core under its current carve (R163). -/
def fits (s : State) (core : Nat) (p : Packet) : Bool := fitsBesides s core p && p.blocks ≤ (freeBlocks (s.core core)).length

/-! ## Team queues -/

/-- A queued team may start: its launch still starts teams, and none of it waits to be restored here (R345). -/
def queuedOk (s : State) (core : Nat) (e : Nat × Nat) : Bool :=
  startsTeams s (s.launch e.1) && !hasSaved s e.1 (dieOf core)

/-- The order of queued teams (R163): by ordinal. DESIGN CHOICE: teams of equal ordinal go by launch identifier (log 124). -/
def queueBefore (a b : Nat × Nat) : Bool := a.2 < b.2 || (a.2 == b.2 && a.1 < b.1)

/-- The queued team that a core starts next: the lowest ordinal (R163). -/
def queueHead (s : State) (core : Nat) : Option (Nat × Nat) :=
  match (s.core core).teamQueue.filter (queuedOk s core) with
  | [] => none
  | x :: xs => some (xs.foldl (fun m y => if queueBefore y m then y else m) x)

/-- The queued team that the core starts in this cycle. -/
def queueStarts (s : State) (core : Nat) : Option (Nat × Nat) :=
  (queueHead s core).filter fun e => fits s core (s.launch e.1).pkt

/-! ## The start of a team -/

/-- The lowest numbers below a bound that are not in use. -/
def lowestFree (n : Nat) (used : List Nat) : List Nat := (List.range n).filter fun i => !used.contains i

/-- A thread at its beginning (R29, R40, R127). -/
def newLane (p : Packet) (tid : Nat) : Lane :=
  { (default : Lane) with pc := BitVec.ofNat 56 (p.codeBase + p.entry), atEntry := true, g := seedG tid }

/-- The scalar registers of every wave at its beginning: the argument block's words (R29, R161). -/
def newScalars (p : Packet) (args : List W32) : Tbl W32 :=
  (List.range (min p.sregs args.length)).map fun i => (i, args.getD i 0)

/-- The base of a wave's private area (R175). -/
def privBaseOf (s : State) (p : Packet) (core slot : Nat) : VA :=
  BitVec.ofNat 56 (bits (rcbDw s (ctxOf s p.rcb) 11) 0 56 + (core * 64 + slot) * 2 ^ 21)

def newWave (s : State) (l : Launch) (t core slot k : Nat) : Wave :=
  let p := l.pkt
  { (default : Wave) with
    team := t, number := k, s := newScalars p l.args, sPoison := l.argPoison.filter (· < p.sregs), privBase := privBaseOf s p core slot
    lanes := ((List.range 32).filter fun i => 32 * k + i < p.threads).map fun i => (i, newLane p (32 * k + i)) }

/-- A team starts on a core: the lowest team slot, wave slots and blocks are its own, and its state is fresh (R126, R127,
R163, R170). -/
def startTeam (s : State) (launch ord core : Nat) : State :=
  let l := s.launch launch
  let p := l.pkt
  let c := s.core core
  let t := s.nextTeam
  let tslot := (lowestFree 16 (c.tslots.map (·.1))).headD 0
  let slots := (lowestFree 64 (c.waves.map (·.1))).take p.waves
  let blocks := (freeBlocks c).take p.blocks
  let team : Team := { (default : Team) with
    launch := launch, ordinal := ord, core := core, tslot := tslot, slots := slots, nwaves := p.waves, blocks := blocks
    admitSeq := s.admitSeq }
  let waves := (List.range p.waves).foldl (fun ws k =>
    tset ws (slots.getD k 0) (newWave s l t core (slots.getD k 0) k)) c.waves
  { s.setCore core { c with tslots := tset c.tslots tslot t, waves := waves, blocks := c.blocks ++ blocks } with
    teams := tset s.teams t team, nextTeam := t + 1, admitSeq := s.admitSeq + 1 }

/-! ## Admission -/

/-- The cores of a die. -/
def coresOf (die : Nat) : List Nat := (List.range 80).map (80 * die + ·)

/-- The lowest core of a die to which it admits a team: one that starts no queued team in this cycle (R163). -/
def coreFor (s : State) (die : Nat) (p : Packet) : Option Nat :=
  (coresOf die).find? fun core => fits s core p && (queueStarts s core).isNone

/-- The die has admitted or dealt a team: its cursor goes past it. -/
def pastTeam (s : State) (launch die ord : Nat) : State := s.onLaunch launch fun l => { l with next := tset l.next die (ord + 1) }

/-- A team of a launch with STEAL that fits no core is dealt to a core's queue, while there is room (R163). -/
def dealTeam (s : State) (launch die ord : Nat) : Option State :=
  let l := s.launch launch
  let k := tgetD l.dealt die 0
  let core := 80 * die + k % 80
  if l.pkt.steal == 0 || (s.core core).teamQueue.length ≥ 64 then none
  else some ((pastTeam (s.onCore core fun c => { c with teamQueue := c.teamQueue ++ [(launch, ord)] }) launch die ord).onLaunch launch
    fun l => { l with dealt := tset l.dealt die (k + 1) })

/-- What a die does for a candidate: admits its next team, or deals it; a launch whose next team fits nowhere holds back no
other (R163). DESIGN CHOICE: a team that fits no core may be dealt at any admission, also while a pool grows for it (R182; log 135). -/
def admitOne (s : State) (die : Nat) (e : Nat × Launch) : Option State :=
  match nextFor e.2 die with
  | none => none
  | some ord => match coreFor s die e.2.pkt with
    | some core =>
      let s := pastTeam (startTeam s e.1 ord core) e.1 die ord
      some (s.onDie die fun d => { d with lastAdmit := s.now / 2 + 1 })
    | none => if (coresOf die).any fun c => fits s c e.2.pkt then none else dealTeam s e.1 die ord

/-- The die's next admission of this cycle (R163). -/
def admitNext (s : State) (die : Nat) : State :=
  if (s.die die).lastAdmit == s.now / 2 + 1 then s
  else ((candidates s die).findSome? (admitOne s die)).getD s

/-- TEAM_ADMIT (R163). -/
def execTeamAdmit (die : Nat) (s : State) : Host.Outcome State Fault Refusal :=
  if die < 8 && s.firstHalf then .next (admitNext s die) else .next s

/-- TEAM_QUEUE_START (R163). -/
def execTeamQueueStart (core : Nat) (s : State) : Host.Outcome State Fault Refusal :=
  match queueStarts s core with
  | some e =>
    if s.firstHalf then
      .next (startTeam (s.onCore core fun c => { c with teamQueue := c.teamQueue.filter (· != e) }) e.1 e.2 core)
    else .next s
  | none => .next s

/-! ## Stealing -/

/-- One step of the LFSR (R164). -/
def lfsrStep (l : W16) : W16 :=
  let f := l.getLsbD 15 ^^ l.getLsbD 13 ^^ l.getLsbD 12 ^^ l.getLsbD 10
  (l <<< 1) ||| (if f then 1 else 0)

/-- The victim that a stepped LFSR draws (R164). -/
def victimOf (p : Packet) (core : Nat) (l : W16) : Option Nat :=
  let die := dieOf core
  if p.steal == 1 then
    let v := 80 * die + l.toNat % 80
    some (if v == core then 80 * die + (l.toNat + 1) % 80 else v)
  else
    ((List.range 640).map fun i => (l.toNat % 640 + i) % 640).find? fun v => p.dieset.getLsbD (dieOf v) && v != core

/-- A core is idle: its queue is empty and its die holds no team that it could admit (R164). -/
def idleCore (s : State) (core : Nat) : Bool :=
  (s.core core).teamQueue.isEmpty && !((candidates s (dieOf core)).any fun e => fits s core e.2.pkt)

/-- The launches for which a core may steal. DESIGN CHOICE: those whose die set has the core's own die (R164; log 138). -/
def stealable (s : State) (core : Nat) : List (Nat × Launch) :=
  s.launches.filter fun e => startsTeams s e.2 && (e.2.pkt.steal == 1 || e.2.pkt.steal == 2) && e.2.pkt.dieset.getLsbD (dieOf core)

/-- The free footprint of a core (R164). -/
def freeFootprint (s : State) (core : Nat) : Footprint :=
  let c := s.core core
  let ps := coreTeams s core
  { teams := 16 - c.tslots.length, waves := 64 - c.waves.length, vec := 524288 - vecUsed s core
    slips := 64 - sumOf ps (·.slips), folios := 64 - sumOf ps (·.folios), accums := 4 - sumOf ps (·.accums)
    blocks := (freeBlocks c).length }

/-- The footprint of a team fits what a request says is free (R163, R164). -/
def Packet.fitsIn (p : Packet) (f : Footprint) : Bool :=
  1 ≤ f.teams && p.waves ≤ f.waves && 128 * p.regs * p.waves ≤ f.vec && p.slips ≤ f.slips && p.folios ≤ f.folios &&
  p.accums ≤ f.accums && p.blocks ≤ f.blocks

/-- STEAL_REQUEST (R164): one at a time, with the core's free footprint; which launch it serves is left to the device. -/
def execStealRequest (core : Nat) (s : State) : Host.Outcome State Fault Refusal :=
  let c := s.core core
  let ls := stealable s core
  if core ≥ 640 || ls.isEmpty || c.stealSent.isSome || c.stealUntil != 0 || !idleCore s core then .next s
  else
    let p := (ls.getD (s.pick 7300 ls.length) default).2.pkt
    let l := lfsrStep c.lfsr
    match victimOf p core l with
    | some v => .next (s.onCore core fun c => { c with lfsr := l, stealSent := some ⟨v, p.steal, freeFootprint s core⟩ })
    | none => .next s

/-- The team that a victim hands over: the highest ordinal of a launch with the request's STEAL whose footprint fits the request
and the budgets, but for the one that the victim starts itself in this cycle (R158, R164). -/
def stolen (s : State) (thief : Nat) (r : StealReq) : Option (Nat × Nat) :=
  let ok (e : Nat × Nat) : Bool :=
    let l := s.launch e.1
    queuedOk s r.victim e && l.pkt.steal == r.mode && l.pkt.dieset.getLsbD (dieOf thief) && l.pkt.fitsIn r.free &&
      withinBudgets s thief l.pkt && queueStarts s r.victim != some e
  match (s.core r.victim).teamQueue.filter ok with
  | [] => none
  | x :: xs => some (xs.foldl (fun m y => if queueBefore m y then y else m) x)

/-- STEAL_ANSWER (R164): requests to one victim are served in increasing core number. DESIGN CHOICE: where the thief has less free
than its request said, another team having been admitted to it meanwhile, the team handed over starts once it fits (log 141). -/
def execStealAnswer (core : Nat) (s : State) : Host.Outcome State Fault Refusal :=
  match (s.core core).stealSent with
  | none => .next s
  | some r =>
    if !s.firstHalf || s.cores.any fun e => e.1 < core && (e.2.stealSent.map (·.victim)) == some r.victim then .next s
    else
      let u := s.onCore core fun c => { c with stealSent := none }
      match stolen u core r with
      | some e =>
        if !fits u core (u.launch e.1).pkt then .next s
        else .next (startTeam (u.onCore r.victim fun c => { c with teamQueue := c.teamQueue.filter (· != e) }) e.1 e.2 core)
      | none => .next (u.onCore core fun c => { c with stealUntil := s.now / 2 + 64 })

/-- STEAL_BACKOFF_END (R164). -/
def execStealBackoffEnd (core : Nat) (s : State) : Host.Outcome State Fault Refusal :=
  let c := s.core core
  if c.stealUntil != 0 && c.stealUntil ≤ s.now / 2 then .next (s.onCore core fun c => { c with stealUntil := 0 }) else .next s

/-! ## The carve -/

/-- The ways that a core's pool needs for a team and may take: the fewest, lowest first, 2 window ways staying (R182). -/
def growth (s : State) (core : Nat) (p : Packet) : Option (List Nat) :=
  let c := s.core core
  let ws := windowWays c
  let k := (p.blocks - (freeBlocks c).length + 7) / 8
  if c.carve.isNone && fitsBesides s core p && k + 2 ≤ ws.length then some (ws.take k) else none

/-- Lines of departing ways are written back or dropped; one whose write-back a fault holds stays (R180, R182). -/
def vacate (s : State) (core : Nat) (ways : List Nat) : State :=
  forEach ((s.core core).lines.filter fun l => ways.contains l.way) s fun s l =>
    match writeBack s core l with
    | (.done, s) => dropLine s core l.asid l.line
    | (.held, s) => s
    | (.fatal code _, s) => fatalWriteBack s core l code

/-- The first team that the die would admit, that fits none of its cores, and for which a core's pool can grow: the lowest
such core, and its ways (R182). -/
def growChoice (s : State) (die : Nat) : Option (Nat × List Nat) :=
  (candidates s die).findSome? fun e =>
    if (coresOf die).any fun core => fits s core e.2.pkt then none
    else (coresOf die).findSome? fun core => (growth s core e.2.pkt).map fun ws => (core, ws)

/-- POOL_GROW (R182): one carve of a die at a time. -/
def execPoolGrow (die : Nat) (s : State) : Host.Outcome State Fault Refusal :=
  if die ≥ 8 || (coresOf die).any fun core => (s.core core).carve.isSome then .next s
  else match growChoice s die with
    | some (core, ws) => .next (vacate (s.onCore core fun c => { c with carve := some ws }) core ws)
    | none => .next s

/-- CARVE_COMPLETE (R182): the ways are empty, join the pool, and the die may admit the team. -/
def execCarveComplete (core : Nat) (s : State) : Host.Outcome State Fault Refusal :=
  match (s.core core).carve with
  | none => .next s
  | some ws =>
    let s := vacate s core ws
    if (s.core core).lines.any fun l => ws.contains l.way then .next s
    else
      let s := s.onCore core fun c => { c with
        carve := none, poolWays := (List.range 16).filter fun w => c.poolWays.contains w || ws.contains w }
      .next (if s.firstHalf then admitNext s (dieOf core) else s)

/-- WAY_RETURN (R183). -/
def execWayReturn (core way : Nat) (s : State) : Host.Outcome State Fault Refusal :=
  let c := s.core core
  let waiting := s.launches.any fun e => (nextFor e.2 (dieOf core)).isSome
  if way ≥ 8 && c.poolWays.contains way && !(c.blocks.any fun b => b / 8 == way) && c.carve.isNone && c.teamQueue.isEmpty && !waiting then
    .next (s.onCore core fun c => { c with poolWays := c.poolWays.filter (· != way) })
  else .next s

/-! ## Retirement -/

/-- A wave has ended: every present lane has exited and nothing that it issued is outstanding (R144). -/
def waveOver (c : Core) (slot : Nat) (w : Wave) : Bool :=
  w.lanes.all (fun e => e.2.exited) && !(c.pends.any fun p => p.lanes.any fun r => r.slot == slot) &&
    !(c.waits.any fun x => x.lanes.any fun r => r.slot == slot)

/-- WAVE_RETIRE (R144, R176). -/
def execWaveRetire (core slot : Nat) (s : State) : Host.Outcome State Fault Refusal :=
  match tget (s.core core).waves slot with
  | none => .next s
  | some w =>
    if !s.live w.team || !waveOver (s.core core) slot w || !s.lateHalf then .next s
    else
      let s := dropPrivate (sampleWave s core slot) core slot
      let s := s.onCore core fun c => { c with
        waves := tdel c.waves slot, resq := c.resq.filter (· != slot), mseKept := c.mseKept.filter (· != slot) }
      .next (s.onTeam w.team fun t => { t with
        slots := t.slots.filter (· != slot), retiredWaves := t.retiredWaves ++ [w.number] })

/-- Every wave, command and matrix operation of a team has ended, and no command holds claims on its scratchpad (R144,
R249). -/
def teamOver (s : State) (t : Nat) : Bool :=
  let x := s.team t
  x.retiredWaves.length == x.nwaves && (cmdsOf s t).isEmpty && !((s.core x.core).mat.any fun m => m.team == t) &&
    !((s.core x.core).claims.any fun k => k.team == t && !k.matrix)

/-- TEAM_RETIRE (R144, R174): after the write-back of the lines that it dirtied. -/
def execTeamRetire (team : Nat) (s : State) : Host.Outcome State Fault Refusal :=
  if (tget s.teams team).isNone || !s.live team || !teamOver s team || !s.lateHalf then .next s
  else
    let core := (s.team team).core
    let (held, bad, s) := writeBackAll s core (teamDirty s team)
    if !bad.isEmpty then .next (resolveBad s core bad)
    else if held.isEmpty then .next (teamDone (freeTeam s team .retired) team) else .next s

end Sys2Proof.Machine
end

