-- ==== Sys2Proof/Machine/Preempt.lean ====
section
/-! DEFINITION. Pre-emption and restore (R345, R346). A saved team keeps its state under its own name, with its lanes known by
wave number; its scratchpad, folios, private areas and tiles are bytes of the save area. -/

namespace Sys2Proof.Machine

/-! ## The choice of a victim -/

/-- The teams of a die that hold a core. -/
def teamsOn (s : State) (die : Nat) : List (Nat × Team) :=
  s.teams.filter fun e => (e.2.status == .resident || e.2.status == .frozen) && dieOf e.2.core == die

/-- A launch that may start a team of the die, with a higher PRIO than a team's, whose next team fits no core (R345). -/
def outranked (s : State) (die : Nat) (e : Nat × Team) : Bool :=
  (candidates s die).any fun l =>
    effPrio s l.2.pkt.rcb > effPrio s (teamRcb s e.1) && !((coresOf die).any fun c => fits s c l.2.pkt)

/-- The team is to be pre-empted: its context is held by the host, or it is the team of its die admitted last among those
that a waiting team outranks, while no other one is on its way out (R345). -/
def isVictim (s : State) (t : Nat) : Bool :=
  let x := s.team t
  let die := dieOf x.core
  let ts := teamsOn s die
  s.live t && ((s.ctx (teamCtx s t)).preempted ||
    (!(ts.any fun e => e.2.stopping) && outranked s die (t, x) &&
      ts.all fun e => e.2.admitSeq ≤ x.admitSeq || !outranked s die e))

/-! ## Coming to rest -/

/-- An outstanding instruction that waits only for parked or claimed accesses: pre-emption waits for no fault (R345). -/
def Pend.heldUp (p : Pend) : Bool := p.samples.isEmpty && (!p.loads.isEmpty || p.held != 0)

/-- A command of the team lets it go: it runs on, or it stands at a block's boundary (R345). -/
def Cmd.atRest (s : State) (k : Nat) (c : Cmd) : Bool :=
  c.state != .running || runsSaved c.kind || (c.unacked.isEmpty && c.ahead.isEmpty && stopsAt s k c.els)

/-- The team has come to rest (R345): no group stands in a clause, what is outstanding waits for faults or landings, and its
commands have stopped. -/
def atRest (s : State) (t : Nat) : Bool :=
  let x := s.team t
  let c := s.core x.core
  let slots := slotsOf s t
  let mine (r : LaneRef) : Bool := slots.contains r.slot
  slots.all (fun k => (c.wave k).group.isEmpty) &&
  !(c.groups.any fun g => g.team == t && !g.group.isEmpty) &&
  x.batch.isEmpty && x.exits.isEmpty &&
  !(c.mses.any fun m => slots.contains m.slot || m.waiters.any fun a => mine a.r) &&
  c.pends.all (fun p => !(p.lanes.any mine) || p.heldUp) &&
  !(c.waits.any fun w => w.lanes.any mine && match w.kind with | .accum _ _ => true | _ => false) &&
  s.cmds.all fun e => e.2.team != t || e.2.atRest s e.1

/-! ## Lanes by wave number -/

def LaneRef.at (f : Nat → Nat) (r : LaneRef) : LaneRef := { r with slot := f r.slot }

def Dest.at (f : Nat → Nat) : Dest → Dest
  | .v r reg x => .v (r.at f) reg x
  | .s slot reg x => .s (f slot) reg x
  | .p r i b => .p (r.at f) i b

def Access.at (f : Nat → Nat) (a : Access) : Access := { a with r := a.r.at f }

def Pend.at (f : Nat → Nat) (p : Pend) : Pend :=
  { p with
    lanes := p.lanes.map (·.at f), dests := p.dests.map (·.at f), marks := p.marks.map fun m => (m.1.at f, m.2)
    loads := p.loads.map fun w => { w with r := w.r.at f }
    samples := p.samples.map fun x => { x with r := x.r.at f, src := x.src.at f } }

def WaitKind.at (f : Nat → Nat) : WaitKind → WaitKind
  | .claim accs => .claim (accs.map (·.at f))
  | .parked accs asid line d => .parked (accs.map (·.at f)) asid line d
  | .accum ops accs => .accum ops (accs.map (·.at f))
  | .trap c w g es => .trap c w g (es.map fun e => { e with r := e.r.at f })
  | k => k

def Wait.at (f : Nat → Nat) (w : Wait) : Wait := { w with kind := w.kind.at f, lanes := w.lanes.map (·.at f) }

def RGroup.at (f : Nat → Nat) (g : RGroup) : RGroup :=
  { g with members := g.members.map (·.at f), left := g.left.map (·.at f), group := [] }

/-! ## Resources that keep their numbers -/

/-- Folios and tiles of releases that have not ended (R272). -/
def releasing (ws : List Wait) : List Nat × List Nat :=
  (ws.flatMap fun w => match w.kind with | .release fs _ => fs | _ => [],
   ws.flatMap fun w => match w.kind with | .release _ ts => ts | _ => [])

/-! ## Private areas -/

/-- A line of a wave's private area as the cache and memory hold it, and whether it is poisoned (R176, R345). A line that no
page backs any more holds free bytes. -/
def privLine (s : State) (core asid : Nat) (w : Wave) (line : Nat) : List Byte × Bool :=
  let under : List Byte × Bool :=
    if firstUse w line then (List.replicate 128 0, false)
    else match walk s asid (line * 128) with
      | some (some (e, level)) => match leafTrans s asid (line * 128) false e level with
        | .hbm pa e => l2Line s (dieOf core) (homeDie e pa) (pa / 128)
        | _ => (List.replicate 128 0, false)
      | _ => ((List.range 128).map fun i => BitVec.ofNat 8 (s.pick (7600 + 128 * line + i) 256), false)
  match findLine (s.core core) asid line with
  | none => under
  | some l => ((List.range 128).map fun o => if l.valid.contains o then memRead l.bytes o else under.1.getD o 0, l.poison || under.2)

/-- The lines of a wave's private area: 32 × PRIV bytes (R175). -/
def privLines (p : Packet) : List Nat := List.range ((p.priv + 3) / 4)

/-- The private area of a wave, and the numbers of its poisoned lines. -/
def privArea (s : State) (core : Nat) (w : Wave) : List Byte × List Nat :=
  let p := teamPkt s w.team
  let ls := (privLines p).map fun i => privLine s core p.asid w (w.privBase.toNat / 128 + i)
  ((ls.flatMap (·.1)).take (32 * p.priv), (withIndex 0 ls).filterMap fun e => if e.2.2 then some e.1 else none)

/-! ## What a saved team takes -/

/-- The bytes of the save area that a team takes when it is saved (R345), its spilled tiles apart. -/
def saveBytes (s : State) (t : Nat) : Nat :=
  let p := teamPkt s t
  savedCmdOff p (cmdsOf s t).length

/-- The context's save area holds the team's records beside those of its saved teams (R339, R345). -/
def saveRoom (s : State) (t : Nat) : Bool := (saveSpot s t (saveBytes s t)).isSome

/-! ## The save -/

/-- The STATE with which a command is recorded at a save (R344, R345); none for one that is not posted, or runs to its end. -/
def Cmd.savedAs (c : Cmd) : Option Nat :=
  match c.state with
  | .queued => some 0
  | .suspended => some 1
  | .running => if runsSaved c.kind then none else some 2
  | .armed => some 3
  | .following => some 4
  | _ => none

/-- A wave's registers as bytes (R345). -/
def regBytes (p : Packet) (w : Wave) : List Byte :=
  ((List.range p.regs).flatMap fun r => (List.range 32).flatMap fun i =>
    leBytes 4 (tgetD ((tgetD w.lanes i default).v) r 0).toNat) ++
  (List.range 128).flatMap fun r => leBytes 4 (tgetD w.s r 0).toNat

/-- A matrix operation as its MCMD record (R276). -/
def MatOp.bytes (m : MatOp) : List Byte :=
  leBytes 8 m.dw0.toNat ++ leBytes 8 m.dw1.toNat ++ leBytes 8 (match m.slip with | some x => x + 64 | none => 0) ++ leBytes 8 0

/-- The folio list of a plane: its four quarters, 0x80 for none (R276). -/
def Plane.bytes (p : Plane) : List Byte :=
  (List.range 4).map fun q => match p.folios.getD q none with | some f => BitVec.ofNat 8 f | none => 0x80

/-- The records of a team's part (R345): each wave's registers, the commands as R344 records them, the matrix operations that have
not started and the planes. -/
def saveRecords (s : State) (t : Nat) (place : Nat → Nat) : State :=
  let x := s.team t
  let c := s.core x.core
  let p := teamPkt s t
  let s := forEach (slotsOf s t) s fun s k =>
    savePut s t (place (savedRegsOff p (c.wave k).number)) (regBytes p (c.wave k))
  let s := forEach (withIndex 0 (cmdsOf s t)) s fun s e => match (s.cmd e.2).savedAs with
    | some st => savePut s t (place (savedCmdOff p e.1)) (cmdRecord s (s.cmd e.2) st)
    | none => s
  let s := forEach (withIndex 0 (c.mat.filter fun m => m.team == t)) s fun s e => savePut s t (place (savedOpOff e.1)) e.2.bytes
  forEach (withIndex 0 [x.front, x.back]) s fun s e => savePut s t (place (savedPlaneOff e.1)) e.2.bytes

/-- The commands of a team as they are saved (R345): the running ones wait in their queue again. -/
def saveCmds (s : State) (t : Nat) : State :=
  { s with cmds := s.cmds.map fun e =>
      if e.2.team == t && e.2.state == .running && !runsSaved e.2.kind then
        (e.1, { e.2 with state := .queued, engine := none, started := 1, cycles0 := e.2.cyclesAt s.now })
      else e }

/-- What a core keeps once a team has left it: the tiles stay under its tag (R346). -/
def leaveCore (c : Core) (x : Team) (t : Nat) (slots cmds fs ts : List Nat) : Core :=
  let mine (r : LaneRef) : Bool := slots.contains r.slot
  let c := fs.foldl zeroFolio c
  { c with
    folioZero := c.folioZero.filter fun k => !fs.contains k
    tileZero := c.tileZero.filter fun k => !ts.contains k
    tileTag := ts.foldl (fun m k => tset m k t) c.tileTag
    tslots := c.tslots.filter fun e => e.2 != t
    waves := c.waves.filter fun e => !slots.contains e.1
    pends := c.pends.filter fun p => !p.lanes.any mine
    waits := c.waits.filter fun w => !w.lanes.any mine
    blocks := c.blocks.filter fun b => !x.blocks.contains b
    resq := c.resq.filter fun k => !slots.contains k
    mseKept := c.mseKept.filter fun k => !slots.contains k
    bins := c.bins.filter fun b => b.2.team != t
    reformWait := c.reformWait.filter fun r => !mine r.2
    groups := c.groups.filter fun g => g.team != t
    mat := c.mat.filter fun m => m.team != t
    planeTeam := if c.planeTeam == some t then none else c.planeTeam
    queues := c.queues.map fun q => (q.1, q.2.filter fun k => !cmds.contains k) }

/-- The team leaves its core (R345). -/
def saveTeam (s : State) (t : Nat) : State :=
  let x := s.team t
  let c := s.core x.core
  let slots := slotsOf s t
  let mine (r : LaneRef) : Bool := slots.contains r.slot
  let num (k : Nat) : Nat := (c.wave k).number
  let ws := c.waits.filter fun w => w.lanes.any mine
  let fs := x.folios ++ (releasing ws).1
  let ts := x.tiles ++ (releasing ws).2
  let privs := slots.map fun k => (num k, privArea s x.core (c.wave k))
  let size := saveBytes s t
  let at_ := (saveSpot s t size).getD 0
  let p := teamPkt s t
  let place (off : Nat) : Nat := saveVa s t (at_ + off)
  let s := savePut s t (place (savedScratchOff p)) (memReads x.scratch 0 p.scratch)
  let s := forEach (withIndex 0 fs) s fun s f =>
    savePut s t (place (savedFolioOff p f.1)) (memReads c.folio (f.2 * 16384) 13312)
  let s := forEach privs s fun s e => savePut s t (place (savedPrivOff p e.1)) e.2.1
  let s := saveCmds (saveRecords s t place) t
  let s := s.onTeam t fun x => { x with
    status := .saved, stopping := false, slots := [], blocks := []
    savedWaves := slots.foldl (fun m k => tset m (num k) (c.wave k)) []
    savedWaits := ws.map (·.at num)
    savedPends := (c.pends.filter fun p => p.lanes.any mine).map (·.at num)
    savedGroups := (c.groups.filter fun g => g.team == t).map (·.at num)
    savedOps := c.mat.filter fun m => m.team == t
    saveAt := at_, saveSize := size, scratch := []
    savedPoison := ((c.folioPoison.filter fun l => fs.contains (l / 128)).map fun l => (0, l)) ++
      privs.flatMap fun e => e.2.2.map fun i => (2, e.1 * 16384 + i) }
  let s := forEach slots s fun s k => dropPrivate s x.core k
  s.onCore x.core fun c => leaveCore c x t slots (cmdsOf s t) fs ts

/-- PREEMPT_TEAM (R345): first the team stops selecting groups, and once it is at rest its dirty lines are written back and it
is saved. A line whose write-back a fault holds stays. -/
def execPreemptTeam (team : Nat) (s : State) : Host.Outcome State Fault Refusal :=
  if !s.live team then .next s
  else if !(s.team team).stopping then
    if isVictim s team then .next (endSleeps (s.onTeam team fun x => { x with stopping := true }) team) else .next s
  else
    let s := endSleeps s team
    if !s.lateHalf || !atRest s team || !saveRoom s team then .next s
    else
      let core := (s.team team).core
      let (_, bad, s) := writeBackAll s core (teamDirty s team)
      if !bad.isEmpty then .next (resolveBad s core bad) else .next (saveTeam s team)

/-! ## The restore -/

/-- The numbers that a saved team needs again (R345). -/
def savedFolioNos (x : Team) : List Nat := x.folios ++ (releasing x.savedWaits).1
def savedTileNos (x : Team) : List Nat := x.tiles ++ (releasing x.savedWaits).2

/-- Where the waves of a saved team go: the lowest free slots, in wave order. -/
def newSlots (s : State) (t : Nat) : List (Nat × Nat) :=
  let x := s.team t
  (x.savedWaves.map (·.1)).zip (lowestFree 64 ((s.core x.core).waves.map (·.1)))

/-- A page of the private areas in their new place is absent: the restore waits for it. -/
def privAbsent (s : State) (t : Nat) : Bool :=
  let x := s.team t
  let p := teamPkt s t
  (newSlots s t).any fun e => (privLines p).any fun i =>
    walk s p.asid ((privBaseOf s p x.core e.2).toNat + 128 * i) == some none

/-- A team of higher PRIO would be admitted to the core now. -/
def coreWanted (s : State) (t : Nat) : Bool :=
  let x := s.team t
  (candidates s (dieOf x.core)).any fun e => effPrio s e.2.pkt.rcb > effPrio s (teamRcb s t) && fits s x.core e.2.pkt

/-- Tiles of a saved team that stand under another team's tag: they are spilled first (R346). -/
def foreignTiles (s : State) (t : Nat) : List Nat :=
  let x := s.team t
  (savedTileNos x).filter fun k => match tget (s.core x.core).tileTag k with | some o => o != t | none => false

/-- The restore of a team may be made (R345). -/
def restorable (s : State) (t : Nat) : Bool :=
  let x := s.team t
  x.status == .saved && !(s.ctx (teamCtx s t)).preempted && fits s x.core (teamPkt s t) &&
  (tget (s.core x.core).tslots x.tslot).isNone && (savedFolioNos x).all (folioFree s x.core) &&
  (savedTileNos x).all (tileFree s x.core) && (spillable s x.core (foreignTiles s t)).length == (foreignTiles s t).length &&
  !coreWanted s t && !privAbsent s t && saveMapped s t (saveVa s t x.saveAt) x.saveSize

/-- A private area reaches its new place in memory (R345). -/
def restorePriv (s : State) (t core wave slot : Nat) : State :=
  let x := s.team t
  let p := teamPkt s t
  let m := memWrites [] 0 (saveGet s t (saveVa s t (x.saveAt + savedPrivOff p wave)) (32 * p.priv))
  let die := dieOf core
  forEach (privLines p) s fun s i =>
    let va := (privBaseOf s p core slot).toNat + 128 * i
    match walk s p.asid va with
    | some (some (e, level)) => match leafTrans s p.asid va true e level with
      | .hbm pa e =>
        if pteSibling e then s
        else l2Put s die (homeDie e pa) (pa / 128) ((List.range 128).zip (memReads m (128 * i) 128))
          (x.savedPoison.contains (2, wave * 16384 + i))
      | _ => s
    | _ => s

/-- A tile is the team's again: still in place under its tag, or loaded once its occupant is spilled (R346). -/
def restoreTile (s : State) (t core k : Nat) : State :=
  if tget (s.core core).tileTag k == some t then s.onCore core fun c => { c with tileTag := tdel c.tileTag k }
  else
    let s := spillTile s core k
    let x := s.team t
    let bs := match tget x.savedTiles k with
      | some at_ => saveGet s t (saveVa s t at_) 262144
      | none => []
    s.onCore core fun c => { c with
      tiles := tset c.tiles k ((numbered 0 (w32s bs)).filter fun e => e.2 != 0)
      tilePoison := c.tilePoison ++ x.savedPoison.filterMap fun e => if e.1 == 1 && e.2 / 2048 == k then some e.2 else none }

/-- Armed monitors fire at the restore (R205, R345). -/
def firedMonitor (l : Lane) : Lane := match l.lmon with | .armed _ => { l with lmon := .fired } | _ => l

/-- A saved wave in its new slot. DESIGN CHOICE: a BART that was saved keeps the time of its issue, so its 1,024 cycles (R155) run on
while its team is saved (log 125). -/
def placedWave (w : Wave) (base : VA) : Wave :=
  { w with
    lanes := w.lanes.map fun e => (e.1, firedMonitor e.2), group := [], credit := 0, idle := 0, yielded := 0
    privBase := base, restored := true, privSaved := [], rejects := 0 }

/-- A parked lane retries its fill once: a page that is present lets it go on (R345). -/
def retryParked (s : State) (w : Wait) : Wait :=
  match w.kind with
  | .parked accs asid line _ =>
    if walk s asid (line * 128) == some none then w else { w with kind := .parked accs asid line none }
  | _ => w

/-- The element a suspended command would perform next still meets an absent page. -/
def stillAbsent (s : State) (k : Nat) : Bool :=
  let c := s.cmd k
  let r := c.ccr
  let c' := { c with state := CmdState.running }
  let s := s.onCmd k fun _ => c'
  let perform (s : State) : Perf := match r.kind with
    | 2 => if r.sibling then gatherRow s k (c.els / r.boxTotal) else moveElement s k c.els
    | 3 => if r.sibling then scatterRow s k (c.els / r.boxTotal) else moveElement s k c.els
    | 6 => atomElement s k c.els
    | 7 => armWatch s k
    | 8 => if r.subop == 1 then .ok s else reconElement s k c.els
    | 9 => cacheElement s k c.els
    | 12 => match readPacket k (List.range 16) s [] with
      | (some p, _, _) => p
      | _ => .ok s
    | 13 => swapTable s k
    | _ => moveElement s k c.els
  let isAbsent (p : Perf) : Bool := match p with | .absent _ _ _ => true | _ => false
  if r.kind == 10 then
    (walk s (c.asid s) ((r.dst + c.bytes / 2) % 2 ^ 56)) == some none
  else match makeReady s k with
    | .ok s => isAbsent (perform s)
    | p => isAbsent p

/-- Each suspended command retries its faulting translation once (R345). -/
def retryCmds (s : State) (t : Nat) : State :=
  forEach s.cmds s fun s (e : Nat × Cmd) =>
    if e.2.team == t && e.2.state == .suspended && e.2.dock.isSome && !stillAbsent s e.1 then resumeCmd s e.1
    else s

/-- Queued commands of the team wait in their queues again, in their order (R345). -/
def requeue (s : State) (t : Nat) : State :=
  forEach s.cmds s fun s (e : Nat × Cmd) =>
    if e.2.team == t && e.2.state == .queued then
      s.onCore e.2.core fun c => { c with queues := tset c.queues e.2.cls (tgetD c.queues e.2.cls [] ++ [e.1]) }
    else s

/-- Commands that completed while the team was saved have their records written and their slips set (R345). -/
def deliverDone (s : State) (t : Nat) : State :=
  forEach s.cmds s fun s (e : Nat × Cmd) =>
    if e.2.team == t && (tget s.cmds e.1).isSome && e.2.state == .following && followDone s e.2 then completeCmd s e.1 else s

/-- Queue accesses and closings that completed while the team was saved are done (R318). -/
def deliverGranted (s : State) (core : Nat) (slots : List Nat) : State :=
  forEach (s.core core).waits s fun s w =>
    if !slots.contains w.slot then s
    else match w.kind, w.d with
      | .granted [], .nul => finishWait s core w
      | .granted [], .p i => finishWait (forEach w.lanes s fun s r => writeP s core r i.toNat true) core w
      | .granted e, .v reg =>
        finishWait (forEach (popDests s core w.slot reg.toNat e) s fun s d => d.write s core) core w
      | .granted (_ :: _), .nul => forEach w.lanes s fun s r => setBlock s core r .none
      | _, _ => s

/-- Filed threads are filed again, in increasing number (R345). -/
def refile (s : State) (t core : Nat) (slots : List Nat) : State :=
  let rs := slots.flatMap fun k => ((s.wave core k).lanes.filter fun e => e.2.block == .filed || e.2.block == .reform).map
    fun e => (⟨k, e.1⟩ : LaneRef)
  forEach (sortTids s core rs) s fun s r => reformThread s core t r

/-- The team is on its core again (R345, R346). -/
def restoreTeam (s : State) (t : Nat) : State :=
  let x := s.team t
  let core := x.core
  let p := teamPkt s t
  let place := newSlots s t
  let slotOf (n : Nat) : Nat := ((place.find? fun e => e.1 == n).map (·.2)).getD 0
  let slots := place.map (·.2)
  let blocks := (freeBlocks (s.core core)).take p.blocks
  let (relF, relT) := releasing x.savedWaits
  let s := forEach place s fun s e => restorePriv s t core e.1 e.2
  let s := forEach (savedTileNos x) s fun s k => restoreTile s t core k
  let waves := place.foldl (fun ws e =>
    tset ws e.2 (placedWave (tgetD x.savedWaves e.1 default) (privBaseOf s p core e.2))) (s.core core).waves
  let q := quietQuad s core
  let s := s.onCore core fun c => { c with
    tslots := tset c.tslots x.tslot t, waves := waves, blocks := c.blocks ++ blocks
    waits := c.waits ++ x.savedWaits.map fun w => retryParked s (w.at slotOf)
    pends := c.pends ++ x.savedPends.map (·.at slotOf)
    groups := c.groups ++ x.savedGroups.map fun g => { g.at slotOf with quad := q }
    folio := (withIndex 0 (x.folios ++ relF)).foldl (fun m f =>
      memWrites m (f.2 * 16384) (saveGet s t (saveVa s t (x.saveAt + savedFolioOff p f.1)) 13312)) c.folio
    folioPoison := c.folioPoison ++ x.savedPoison.filterMap fun e => if e.1 == 0 then some e.2 else none
    folioZero := c.folioZero ++ relF, tileZero := c.tileZero ++ relT
    mat := c.mat ++ x.savedOps }
  let s := s.onTeam t fun x => { x with
    status := if x.freeze.isSome then .frozen else .resident, stopping := false, slots := slots, blocks := blocks
    savedWaves := [], savedWaits := [], savedPends := [], savedGroups := [], savedOps := [], savedTiles := [], savedPoison := []
    scratch := memWrites [] 0 (saveGet s t (saveVa s t (x.saveAt + savedScratchOff p)) p.scratch), saveAt := 0, saveSize := 0 }
  let s := deliverDone (retryCmds (requeue s t) t) t
  let s := refile (deliverGranted s core slots) t core slots
  settleFences s core

/-- The code with which the copy to a page of the private areas in their new place fails for good (R171, R306, R335). -/
def privFault (s : State) (asid va : Nat) : Option Nat :=
  match walk s asid va with
  | none => some 0x0203
  | some none => none
  | some (some (e, level)) => match leafTrans s asid va true e level with
    | .hbm _ e => if pteSibling e then some 0x0206 else none
    | .peer _ | .host _ _ => some 0x0204
    | .bad code => some code
    | .absent => none

/-- The first such page of a saved team, with its code. -/
def privDenied (s : State) (t : Nat) : Option (Nat × Nat) :=
  let x := s.team t
  let p := teamPkt s t
  ((newSlots s t).flatMap fun e => (privLines p).map fun i => (privBaseOf s p x.core e.2).toNat + 128 * i).findSome? fun va =>
    (privFault s p.asid va).map fun code => (va, code)

/-- TEAM_RESTORE (R345). A private area that its new pages do not take ends the team, as a write-back to them does (R335). -/
def execTeamRestore (team : Nat) (s : State) : Host.Outcome State Fault Refusal :=
  if !s.lateHalf || !restorable s team then .next s
  else match privDenied s team with
    | some (va, code) => .next (terminateAccess s team 2 code va true)
    | none => .next (restoreTeam s team)

end Sys2Proof.Machine
end

