-- ==== Sys2Proof/Machine/RvFloat.lean ====
section
/-! DEFINITION. IEEE 754 arithmetic as the RISC-V F, D and V extensions define it (R312): results with their exception
flags, under the five RISC-V rounding modes. -/

namespace Sys2Proof.Machine

/-! ## Codes -/

/-- The exception flags of fcsr: NX, UF, OF, DZ, NV. -/
def flNX : Nat := 1
def flUF : Nat := 2
def flOF : Nat := 4
def flDZ : Nat := 8
def flNV : Nat := 16

/-- A result with the flags it raises. -/
abbrev FRes := Nat × Nat

/-- A signaling NaN: a NaN whose top fraction bit is 0. -/
def Fmt.isSnan (F : Fmt) (c : Nat) : Bool := (F.decode c).isNan && (c >>> (F.fb - 1)) % 2 == 0

def Fmt.isNan (F : Fmt) (c : Nat) : Bool := (F.decode c).isNan

/-- The width of a format in bytes. -/
def Fmt.bytes (F : Fmt) : Nat := (1 + F.eb + F.fb) / 8

/-- A RISC-V rounding mode as a mode of `roundsUp` with its generator value: ties away from zero is a stochastic rounding
whose threshold is one half. -/
def rvMode : Nat → RMode × W32
  | 0 => (0, 0)
  | 1 => (1, 0)
  | 2 => (3, 0)
  | 3 => (2, 0)
  | _ => (4, 0x7FFFFF00)

/-- An exact value rounded into a format, with OF, UF (tininess after rounding) and NX. -/
def rvRound (F : Fmt) (rm : Nat) : Val → FRes
  | .nan => (F.nan, 0)
  | .inf n => (F.inf n, 0)
  | .fin n m e =>
    if m == 0 then (F.signBit n, 0)
    else
      let (mode, g) := rvMode rm
      let free : Int := log2Val m e - F.fb
      let low : Int := 1 - F.bias - F.fb
      let q := max free low
      let k := roundInt mode g n m e q
      let inexact := decide (e < q) && m % 2 ^ (q - e).toNat != 0
      let (mx, me) := F.max
      if Val.lt (.fin false mx me) (.fin false k q) then (fres F mode false g (.fin n m e), flOF + flNX)
      else
        let tiny := Val.lt (.fin false (roundInt mode g n m e free) free) (.fin false 1 (1 - F.bias))
        (F.encode n k q, (if inexact then flNX else 0) + (if inexact && tiny then flUF else 0))

/-- The flag NV of operands of which one is a signaling NaN. -/
def nvOf (F : Fmt) (cs : List Nat) : Nat := if cs.any F.isSnan then flNV else 0

/-- A result that is NaN where no operand is: an invalid operation. -/
def invalid (F : Fmt) (cs : List Nat) (v : Val) : Nat :=
  if v.isNan && !cs.any F.isNan then flNV else nvOf F cs

/-! ## Operations -/

def rvAdd (F : Fmt) (rm a b : Nat) : FRes :=
  let v := sumExact (rm == 2) [F.decode a, F.decode b]
  let r := rvRound F rm v
  (r.1, r.2 ||| invalid F [a, b] v)

/-- The code with its sign inverted. -/
def Fmt.flip (F : Fmt) (c : Nat) : Nat := c ^^^ F.signBit true

def rvSub (F : Fmt) (rm a b : Nat) : FRes :=
  let v := sumExact (rm == 2) [F.decode a, (F.decode b).neg]
  let r := rvRound F rm v
  (r.1, r.2 ||| invalid F [a, b] v)

def rvMul (F : Fmt) (rm a b : Nat) : FRes :=
  let v := (F.decode a).mul (F.decode b)
  let r := rvRound F rm v
  (r.1, r.2 ||| invalid F [a, b] v)

def rvDiv (F : Fmt) (rm a b : Nat) : FRes :=
  let x := F.decode a
  let y := F.decode b
  let v := x.div y
  let r := rvRound F rm v
  let dz := y.isZero && !x.isNan && !x.isInf && !x.isZero
  (r.1, r.2 ||| invalid F [a, b] v ||| (if dz then flDZ else 0))

def rvSqrt (F : Fmt) (rm a : Nat) : FRes :=
  let v := (F.decode a).sqrt
  let r := rvRound F rm v
  (r.1, r.2 ||| invalid F [a] v)

/-- a × b + c rounded once; infinity times zero is invalid even where c is a NaN. -/
def rvFma (F : Fmt) (rm a b c : Nat) : FRes :=
  let p := (F.decode a).mul (F.decode b)
  let v := sumExact (rm == 2) [p, F.decode c]
  let r := rvRound F rm v
  (r.1, r.2 ||| invalid F [a, b, c] v ||| (if p.isNan && !F.isNan a && !F.isNan b then flNV else 0))

/-- minimumNumber and maximumNumber. -/
def rvMinMax (F : Fmt) (isMax : Bool) (a b : Nat) : FRes := (minMaxCode F isMax a b, nvOf F [a, b])

/-- Sign injection: 0 the sign of b, 1 its inverse, 2 the exclusive or. -/
def rvSgnj (F : Fmt) (kind a b : Nat) : Nat :=
  let s := F.signBit true
  let sb := b &&& s
  (a % s) + (match kind with | 0 => sb | 1 => s - sb | _ => (a ^^^ b) &&& s)

/-- Comparisons: 0 less or equal, 1 less, 2 equal. Equality is quiet. -/
def rvCmp (F : Fmt) (kind a b : Nat) : Bool × Nat :=
  let x := F.decode a
  let y := F.decode b
  let nan := x.isNan || y.isNan
  match kind with
  | 0 => (!nan && (x.lt y || x.eq y), if nan then flNV else 0)
  | 1 => (!nan && x.lt y, if nan then flNV else 0)
  | _ => (!nan && x.eq y, nvOf F [a, b])

/-- The class of a code, as one bit of ten. -/
def rvClass (F : Fmt) (c : Nat) : Nat :=
  match F.decode c with
  | .nan => if F.isSnan c then 2 ^ 8 else 2 ^ 9
  | .inf n => if n then 1 else 2 ^ 7
  | .fin n m e =>
    let k := if m == 0 then 0 else if Val.lt (.fin false m e) (.fin false 1 (1 - F.bias)) then 1 else 2
    if n then 2 ^ (3 - k) else 2 ^ (4 + k)

/-- A code as an integer of w bits: out of range and NaN saturate with NV, else NX where inexact. -/
def rvToInt (F : Fmt) (rm w : Nat) (signed : Bool) (c : Nat) : FRes :=
  let lo := minInt w signed
  let hi := maxInt w signed
  let out (x : Int) : Nat := (x % (2 ^ w : Nat)).toNat
  match F.decode c with
  | .nan => (out hi, flNV)
  | .inf n => (out (if n then lo else hi), flNV)
  | .fin n m e =>
    let (mode, g) := rvMode rm
    let k := roundIntegral mode g n m e
    if k < lo then (out lo, flNV)
    else if k > hi then (out hi, flNV)
    else (out k, if e < 0 && m % 2 ^ (-e).toNat != 0 then flNX else 0)

def rvOfInt (F : Fmt) (rm : Nat) (x : Int) : FRes := rvRound F rm (.ofInt x)

/-- From one format into another. -/
def rvConvert (F G : Fmt) (rm c : Nat) : FRes :=
  let r := rvRound G rm (F.decode c)
  (r.1, r.2 ||| nvOf F [c])

/-- Rounded to odd, with NX and NV (V: vfncvt.rod). -/
def rvConvertOdd (F G : Fmt) (c : Nat) : FRes :=
  let r := rvConvert F G 1 c
  (if r.2 &&& flNX != 0 then r.1 ||| 1 else r.1, r.2)

/-! ## The estimates of the V extension -/

/-- round(256 / sqrt(m / 2^8)) − 128 for m / 2^8 in [1, 4): the seven fraction bits of vfrsqrt7. -/
def rsqrtTable (m : Nat) : Nat := ((isqrt (4 * 2 ^ 24 / m) + 1) / 2) - 128

/-- round(256 / (m / 2^8)) − 128 for m / 2^8 in [1, 2): the seven fraction bits of vfrec7. -/
def recTable (m : Nat) : Nat := (2 * 2 ^ 16 / m + 1) / 2 - 128

/-- A positive finite magnitude as exponent and fraction bits after the leading one, `n` of them. -/
def leading (m : Nat) (e : Int) (n : Nat) : Int × Nat :=
  let l := Nat.log2 m
  (log2Val m e, (m <<< n >>> l) % 2 ^ n)

/-- vfrsqrt7.v of a code. -/
def rvRsqrt7 (F : Fmt) (c : Nat) : FRes :=
  match F.decode c with
  | .nan => (F.nan, nvOf F [c])
  | .inf n => if n then (F.nan, flNV) else (0, 0)
  | .fin n m e =>
    if m == 0 then (F.inf n, flDZ)
    else if n then (F.nan, flNV)
    else
      let (x, s) := leading m e 6
      -- the midpoint of the interval, in units of 2^-8, doubled where the exponent is odd
      let mid := 256 + 4 * s + 2
      let odd := x % 2 != 0
      let half : Int := if odd then (x - 1) / 2 else x / 2
      let t := rsqrtTable (if odd then 2 * mid else mid)
      (F.encode false ((128 + t) <<< (F.fb - 7)) (-half - 1 - F.fb), 0)

/-- vfrec7.v of a code under a rounding mode. -/
def rvRec7 (F : Fmt) (rm c : Nat) : FRes :=
  match F.decode c with
  | .nan => (F.nan, nvOf F [c])
  | .inf n => (F.signBit n, 0)
  | .fin n m e =>
    if m == 0 then (F.inf n, flDZ)
    else
      let (x, s) := leading m e 7
      let y : Int := -x - 1
      if y > F.bias then
        -- the reciprocal of a value below 2^(-bias-1) overflows
        if rm == 1 || (rm == 2 && !n) || (rm == 3 && n) then (F.signBit n + F.maxCode, flOF + flNX)
        else (F.inf n, flOF + flNX)
      else
        let v := 128 + recTable (256 + 2 * s + 1)
        let down := (1 - F.bias - y).toNat
        if y < 1 - F.bias then (F.signBit n + (v <<< (F.fb - 7) >>> down), 0)
        else (F.encode n (v <<< (F.fb - 7)) (y - F.fb), 0)

end Sys2Proof.Machine
end

