-- ==== Sys2Proof/Machine/RvInt.lean ====
section
/-! DEFINITION. The integer arithmetic and the compressed encodings of RV64GC (R312), on natural numbers below 2^64. -/

namespace Sys2Proof.Machine

/-! ## Fields and signs -/

/-- n bits of a word from bit lo. -/
def rvf (w lo n : Nat) : Nat := (w >>> lo) % 2 ^ n

/-- The n low bits read as a signed number. -/
def rvInt (n x : Nat) : Int :=
  let x := x % 2 ^ n
  if x ≥ 2 ^ (n - 1) then (x : Int) - (2 ^ n : Nat) else x

/-- An integer modulo 2^n. -/
def rvWrap (n : Nat) (x : Int) : Nat := (x % (2 ^ n : Nat)).toNat

/-- The n low bits sign-extended to 64. -/
def rvSext (n x : Nat) : Nat := rvWrap 64 (rvInt n x)

/-! ## Arithmetic at a width -/

/-- The operations of OP and OP-IMM by funct3, at a width (32 gives the W forms); `alt` is bit 30. -/
def rvAlu (n f3 : Nat) (alt : Bool) (a b : Nat) : Nat :=
  let a := a % 2 ^ n
  let b := b % 2 ^ n
  match f3 with
  | 0 => if alt then rvWrap n (a - b) else (a + b) % 2 ^ n
  | 1 => (a <<< (b % n)) % 2 ^ n
  | 2 => if rvInt n a < rvInt n b then 1 else 0
  | 3 => if a < b then 1 else 0
  | 4 => a ^^^ b
  | 5 => if alt then rvWrap n (rvInt n a / (2 ^ (b % n) : Nat)) else a >>> (b % n)
  | 6 => a ||| b
  | _ => a &&& b

/-- Division and remainder of the M extension, at a width: by zero, all ones and the dividend; overflow wraps. -/
def rvDivRem (n : Nat) (signed rem : Bool) (a b : Nat) : Nat :=
  let x : Int := if signed then rvInt n a else (a % 2 ^ n : Nat)
  let y : Int := if signed then rvInt n b else (b % 2 ^ n : Nat)
  rvWrap n (if y == 0 then (if rem then x else -1) else if rem then x.tmod y else x.tdiv y)

/-- The M extension by funct3, at a width. -/
def rvMulDiv (n f3 a b : Nat) : Nat :=
  let u (x : Nat) : Int := (x % 2 ^ n : Nat)
  match f3 with
  | 0 => rvWrap n (u a * u b)
  | 1 => rvWrap n (rvInt n a * rvInt n b / (2 ^ n : Nat))
  | 2 => rvWrap n (rvInt n a * u b / (2 ^ n : Nat))
  | 3 => rvWrap n (u a * u b / (2 ^ n : Nat))
  | 4 => rvDivRem n true false a b
  | 5 => rvDivRem n false false a b
  | 6 => rvDivRem n true true a b
  | _ => rvDivRem n false true a b

/-- The branch conditions by funct3. -/
def rvBranch (f3 a b : Nat) : Bool :=
  match f3 with
  | 0 => a == b
  | 1 => a != b
  | 4 => rvInt 64 a < rvInt 64 b
  | 5 => rvInt 64 b ≤ rvInt 64 a
  | 6 => a < b
  | _ => b ≤ a

/-- The atomic operations by funct5, at a width. -/
def rvAmo (n f5 a b : Nat) : Option Nat :=
  let a := a % 2 ^ n
  let b := b % 2 ^ n
  match f5 with
  | 0x00 => some ((a + b) % 2 ^ n)
  | 0x01 => some b
  | 0x04 => some (a ^^^ b)
  | 0x08 => some (a ||| b)
  | 0x0C => some (a &&& b)
  | 0x10 => some (if rvInt n a ≤ rvInt n b then a else b)
  | 0x14 => some (if rvInt n b ≤ rvInt n a then a else b)
  | 0x18 => some (min a b)
  | 0x1C => some (max a b)
  | _ => none

/-! ## Encodings -/

def rvR (f7 rs2 rs1 f3 rd op : Nat) : Nat :=
  f7 * 2 ^ 25 + rs2 * 2 ^ 20 + rs1 * 2 ^ 15 + f3 * 2 ^ 12 + rd * 2 ^ 7 + op

/-- I-type, with the immediate modulo 2^12. -/
def rvI (imm rs1 f3 rd op : Nat) : Nat := (imm % 4096) * 2 ^ 20 + rs1 * 2 ^ 15 + f3 * 2 ^ 12 + rd * 2 ^ 7 + op

def rvS (imm rs2 rs1 f3 op : Nat) : Nat := rvR (rvf imm 5 7) rs2 rs1 f3 (rvf imm 0 5) op

def rvB (imm rs2 rs1 f3 : Nat) : Nat :=
  rvR (rvf imm 12 1 * 64 + rvf imm 5 6) rs2 rs1 f3 (rvf imm 1 4 * 2 + rvf imm 11 1) 0x63

def rvJ (imm rd : Nat) : Nat :=
  rvf imm 20 1 * 2 ^ 31 + rvf imm 1 10 * 2 ^ 21 + rvf imm 11 1 * 2 ^ 20 + rvf imm 12 8 * 2 ^ 12 + rd * 2 ^ 7 + 0x6F

/-- The immediates of a 32-bit word. -/
def immI (w : Nat) : Nat := rvSext 12 (rvf w 20 12)
def immS (w : Nat) : Nat := rvSext 12 (rvf w 25 7 * 32 + rvf w 7 5)
def immB (w : Nat) : Nat := rvSext 13 (rvf w 31 1 * 4096 + rvf w 7 1 * 2048 + rvf w 25 6 * 32 + rvf w 8 4 * 2)
def immU (w : Nat) : Nat := rvSext 32 (rvf w 12 20 * 4096)
def immJ (w : Nat) : Nat := rvSext 21 (rvf w 31 1 * 2 ^ 20 + rvf w 12 8 * 4096 + rvf w 20 1 * 2048 + rvf w 21 10 * 2)

/-! ## The C extension -/

/-- Quadrant 0. -/
def rvc0 (w : Nat) : Option Nat :=
  let rd := 8 + rvf w 2 3
  let rs := 8 + rvf w 7 3
  let d := rvf w 10 3 * 8 + rvf w 5 2 * 64
  let wd := rvf w 10 3 * 8 + rvf w 6 1 * 4 + rvf w 5 1 * 64
  match rvf w 13 3 with
  | 0 =>
    let imm := rvf w 11 2 * 16 + rvf w 7 4 * 64 + rvf w 6 1 * 4 + rvf w 5 1 * 8
    if imm == 0 then none else some (rvI imm 2 0 rd 0x13)
  | 1 => some (rvI d rs 3 rd 0x07)
  | 2 => some (rvI wd rs 2 rd 0x03)
  | 3 => some (rvI d rs 3 rd 0x03)
  | 4 => none
  | 5 => some (rvS d rd rs 3 0x27)
  | 6 => some (rvS wd rd rs 2 0x23)
  | _ => some (rvS d rd rs 3 0x23)

/-- Quadrant 1. -/
def rvc1 (w : Nat) : Option Nat :=
  let rd := rvf w 7 5
  let rs := 8 + rvf w 7 3
  let r2 := 8 + rvf w 2 3
  let u6 := rvf w 12 1 * 32 + rvf w 2 5
  let imm := rvSext 6 u6
  let bimm := rvSext 9 (rvf w 12 1 * 256 + rvf w 10 2 * 8 + rvf w 5 2 * 64 + rvf w 3 2 * 2 + rvf w 2 1 * 32)
  match rvf w 13 3 with
  | 0 => some (rvI imm rd 0 rd 0x13)
  | 1 => if rd == 0 then none else some (rvI imm rd 0 rd 0x1B)
  | 2 => some (rvI imm 0 0 rd 0x13)
  | 3 =>
    if u6 == 0 then none
    else if rd == 2 then
      some (rvI (rvSext 10 (rvf w 12 1 * 512 + rvf w 6 1 * 16 + rvf w 5 1 * 64 + rvf w 3 2 * 128 + rvf w 2 1 * 32)) 2 0 2 0x13)
    else some ((imm % 2 ^ 20) * 4096 + rd * 128 + 0x37)
  | 4 => match rvf w 10 2 with
    | 0 => some (rvI u6 rs 5 rs 0x13)
    | 1 => some (rvI (0x400 + u6) rs 5 rs 0x13)
    | 2 => some (rvI imm rs 7 rs 0x13)
    | _ =>
      if rvf w 12 1 == 0 then match rvf w 5 2 with
        | 0 => some (rvR 0x20 r2 rs 0 rs 0x33)
        | 1 => some (rvR 0 r2 rs 4 rs 0x33)
        | 2 => some (rvR 0 r2 rs 6 rs 0x33)
        | _ => some (rvR 0 r2 rs 7 rs 0x33)
      else match rvf w 5 2 with
        | 0 => some (rvR 0x20 r2 rs 0 rs 0x3B)
        | 1 => some (rvR 0 r2 rs 0 rs 0x3B)
        | _ => none
  | 5 =>
    some (rvJ (rvSext 12 (rvf w 12 1 * 2048 + rvf w 11 1 * 16 + rvf w 9 2 * 256 + rvf w 8 1 * 1024 + rvf w 7 1 * 64 +
      rvf w 6 1 * 128 + rvf w 3 3 * 2 + rvf w 2 1 * 32)) 0)
  | 6 => some (rvB bimm 0 rs 0)
  | _ => some (rvB bimm 0 rs 1)

/-- Quadrant 2. -/
def rvc2 (w : Nat) : Option Nat :=
  let rd := rvf w 7 5
  let r2 := rvf w 2 5
  let dl := rvf w 12 1 * 32 + rvf w 5 2 * 8 + rvf w 2 3 * 64
  let wl := rvf w 12 1 * 32 + rvf w 4 3 * 4 + rvf w 2 2 * 64
  let ds := rvf w 10 3 * 8 + rvf w 7 3 * 64
  match rvf w 13 3 with
  | 0 => some (rvI (rvf w 12 1 * 32 + r2) rd 1 rd 0x13)
  | 1 => some (rvI dl 2 3 rd 0x07)
  | 2 => if rd == 0 then none else some (rvI wl 2 2 rd 0x03)
  | 3 => if rd == 0 then none else some (rvI dl 2 3 rd 0x03)
  | 4 =>
    if rvf w 12 1 == 0 then
      (if r2 == 0 then (if rd == 0 then none else some (rvI 0 rd 0 0 0x67)) else some (rvR 0 r2 0 0 rd 0x33))
    else if r2 == 0 then (if rd == 0 then some 0x00100073 else some (rvI 0 rd 0 1 0x67))
    else some (rvR 0 r2 rd 0 rd 0x33)
  | 5 => some (rvS ds r2 2 3 0x27)
  | 6 => some (rvS (rvf w 9 4 * 4 + rvf w 7 2 * 64) r2 2 2 0x23)
  | _ => some (rvS ds r2 2 3 0x23)

/-- The 32-bit instruction that a compressed one stands for; none is illegal. -/
def rvExpand (w : Nat) : Option Nat :=
  match w % 4 with
  | 0 => rvc0 w
  | 1 => rvc1 w
  | _ => rvc2 w

end Sys2Proof.Machine
end

