-- ==== Sys2Proof/Machine/RvHart.lean ====
section
/-! DEFINITION. The base instructions of a carrel (R312): RV64IMAFD with Zicsr and Zifencei, in U mode, over the ranges of R313. -/

namespace Sys2Proof.Machine

/-! ## Endings -/

/-- On to the next instruction with the registers changed. -/
def rvNext (s : State) (die c len : Nat) (f : Carrel → Carrel) : State := s.onCarrel die c fun k => (f k).retire len

/-- A result in an integer register. -/
def rvWrite (s : State) (die c len rd v : Nat) : State := rvNext s die c len fun k => k.xset rd (BitVec.ofNat 64 v)

/-- A jump, which retires. -/
def rvJump (s : State) (die c target : Nat) (f : Carrel → Carrel) : State :=
  s.onCarrel die c fun k => { f k with pc := BitVec.ofNat 64 target, instret := k.instret + 1 }

/-! ## Memory -/

/-- A load of n bytes; an access fault is 5, an absent page suspends (R313). -/
def rvLoad (s : State) (die c len a n : Nat) (f : Nat → Carrel → Carrel) : State :=
  match hartRead s die c a n false with
  | .ok bs s => rvNext s die c len (f (leNat bs))
  | .absent va s => suspendCarrel s die c va false
  | .fault x s => raiseCarrel s die c 5 (BitVec.ofNat 64 x)

/-- A store of n bytes; an access fault is 7. -/
def rvStore (s : State) (die c len a n v : Nat) (f : Carrel → Carrel) : State :=
  match hartWrite s die c a (leBytes n v) with
  | .ok _ s => rvNext s die c len f
  | .absent va s => suspendCarrel s die c va true
  | .fault x s => raiseCarrel s die c 7 (BitVec.ofNat 64 x)

/-- The address of a base register and an immediate, modulo 2^64. -/
def rvAddr (k : Carrel) (rs1 imm : Nat) : Nat := ((k.xget rs1).toNat + imm) % 2 ^ 64

/-! ## Atomics -/

/-- Where the bytes that a hart reserves lie in HBM: none in its SRAM, which no other agent writes. -/
def reservedAt (s : State) (k : Carrel) (a n : Nat) : Option Nat :=
  let at_ (va : Nat) : Option Nat := match walk s k.asid va with
    | some (some (e, level)) => some (leafPa e level va)
    | _ => none
  match hartPlace k a n with
  | .image off => at_ (k.image + off)
  | .arena off => at_ (k.arena + off)
  | _ => none

/-- LR: the load reserves its bytes. -/
def rvReserve (s : State) (die c len a n rd : Nat) : State :=
  if a % n != 0 then raiseCarrel s die c 4 (BitVec.ofNat 64 a)
  else rvLoad s die c len a n fun v k =>
    { k with reservation := some (a, leBytes n v), resPa := reservedAt s k a n }.xset rd (BitVec.ofNat 64 (rvSext (8 * n) v))

/-- SC: stores where the reservation of the same bytes holds, which no store has reached since, and ends it either way. -/
def rvConditional (s : State) (die c len a n rd v : Nat) : State :=
  if a % n != 0 then raiseCarrel s die c 6 (BitVec.ofNat 64 a)
  else match hartRead s die c a n false with
    | .absent va s => suspendCarrel s die c va true
    | .fault x s => raiseCarrel s die c 7 (BitVec.ofNat 64 x)
    | .ok bs s =>
      if (s.carrel die c).reservation == some (a, bs) then
        rvStore s die c len a n v fun k => { k with reservation := none, resPa := none }.xset rd 0
      else rvNext s die c len fun k => { k with reservation := none, resPa := none }.xset rd 1

/-- An AMO: one event. -/
def rvAtomic (s : State) (die c len a n rd f5 v : Nat) (word : W64) : State :=
  if (rvAmo (8 * n) f5 0 0).isNone then raiseCarrel s die c 2 word
  else if a % n != 0 then raiseCarrel s die c 6 (BitVec.ofNat 64 a)
  else match hartRead s die c a n false with
    | .absent va s => suspendCarrel s die c va true
    | .fault x s => raiseCarrel s die c 7 (BitVec.ofNat 64 x)
    | .ok bs s =>
      let old := leNat bs
      rvStore s die c len a n ((rvAmo (8 * n) f5 old v).getD 0) fun k => k.xset rd (BitVec.ofNat 64 (rvSext (8 * n) old))

/-- The A extension. -/
def rvA (s : State) (die c w len : Nat) (word : W64) : State :=
  let k := s.carrel die c
  let a := (k.xget (rvf w 15 5)).toNat
  let v := (k.xget (rvf w 20 5)).toNat
  let rd := rvf w 7 5
  let f5 := rvf w 27 5
  let n := 2 ^ rvf w 12 3
  if n != 4 && n != 8 then raiseCarrel s die c 2 word
  else if f5 == 2 then (if rvf w 20 5 != 0 then raiseCarrel s die c 2 word else rvReserve s die c len a n rd)
  else if f5 == 3 then rvConditional s die c len a n rd v
  else rvAtomic s die c len a n rd f5 v word

/-! ## Floating point registers -/

/-- A float register as a code of the format: a single that is not NaN-boxed reads as the canonical NaN. -/
def Carrel.fget (k : Carrel) (F : Fmt) (i : Nat) : Nat :=
  let v := (tgetD k.fr i 0).toNat
  if F.bytes == 8 then v else if v / 2 ^ 32 == 2 ^ 32 - 1 then v % 2 ^ 32 else F.nan

/-- The write of a code, NaN-boxed. -/
def Carrel.fput (k : Carrel) (F : Fmt) (i v : Nat) : Carrel :=
  { k with fr := tset k.fr i (BitVec.ofNat 64 (if F.bytes == 8 then v else (2 ^ 32 - 1) * 2 ^ 32 + v)) }

/-- Exception flags accrue (fcsr). -/
def Carrel.flag (k : Carrel) (fl : Nat) : Carrel := { k with fcsr := k.fcsr ||| BitVec.ofNat 8 fl }

/-- The rounding mode of an instruction; none is reserved. -/
def rvRm (k : Carrel) (w : Nat) : Option Nat :=
  let m := rvf w 12 3
  let m := if m == 7 then k.fcsr.toNat / 32 else m
  if m ≤ 4 then some m else none

/-- A format by the fmt field: single and double. -/
def rvFmt : Nat → Option Fmt
  | 0 => some fp32
  | 1 => some fp64
  | _ => none

/-- A float result with its flags. -/
def rvFloat (s : State) (die c len : Nat) (F : Fmt) (rd : Nat) (r : FRes) : State :=
  rvNext s die c len fun k => (k.fput F rd r.1).flag r.2

/-- An integer result with flags. -/
def rvIntFlag (s : State) (die c len rd : Nat) (r : FRes) : State :=
  rvNext s die c len fun k => (k.xset rd (BitVec.ofNat 64 r.1)).flag r.2

/-- FMADD, FMSUB, FNMSUB and FNMADD. -/
def rvFused (s : State) (die c w len : Nat) (word : W64) : State :=
  let k := s.carrel die c
  match rvFmt (rvf w 25 2), rvRm k w with
  | some F, some rm =>
    let a := k.fget F (rvf w 15 5)
    let b := k.fget F (rvf w 20 5)
    let d := k.fget F (rvf w 27 5)
    rvFloat s die c len F (rvf w 7 5) <| match rvf w 2 2 with
      | 0 => rvFma F rm a b d
      | 1 => rvFma F rm a b (F.flip d)
      | 2 => rvFma F rm (F.flip a) b d
      | _ => rvFma F rm (F.flip a) b (F.flip d)
  | _, _ => raiseCarrel s die c 2 word

/-- The conversions to an integer: width and signedness by rs2. -/
def rvFcvtInt (F : Fmt) (rm kind a : Nat) : FRes :=
  let n := if kind < 2 then 32 else 64
  let r := rvToInt F rm n (kind % 2 == 0) a
  (rvSext n r.1, r.2)

/-- The conversions from an integer. -/
def rvFcvtFloat (F : Fmt) (rm kind x : Nat) : FRes :=
  let n := if kind < 2 then 32 else 64
  rvOfInt F rm (if kind % 2 == 0 then rvInt n x else (x % 2 ^ n : Nat))

/-- OP-FP. -/
def rvOpFp (s : State) (die c w len : Nat) (word : W64) : State :=
  let k := s.carrel die c
  let ill := raiseCarrel s die c 2 word
  match rvFmt (rvf w 25 2) with
  | none => ill
  | some F =>
    let rd := rvf w 7 5
    let r2 := rvf w 20 5
    let f3 := rvf w 12 3
    let a := k.fget F (rvf w 15 5)
    let b := k.fget F r2
    let x := (k.xget (rvf w 15 5)).toNat
    let rounded (f : Nat → FRes) : State := match rvRm k w with
      | some rm => rvFloat s die c len F rd (f rm)
      | none => ill
    match rvf w 27 5 with
    | 0x00 => rounded fun rm => rvAdd F rm a b
    | 0x01 => rounded fun rm => rvSub F rm a b
    | 0x02 => rounded fun rm => rvMul F rm a b
    | 0x03 => rounded fun rm => rvDiv F rm a b
    | 0x0B => if r2 != 0 then ill else rounded fun rm => rvSqrt F rm a
    | 0x04 => if f3 > 2 then ill else rvFloat s die c len F rd (rvSgnj F f3 a b, 0)
    | 0x05 => if f3 > 1 then ill else rvFloat s die c len F rd (rvMinMax F (f3 == 1) a b)
    | 0x08 =>
      if F == fp32 then (if r2 != 1 then ill else rounded fun rm => rvConvert fp64 fp32 rm (k.fget fp64 (rvf w 15 5)))
      else if r2 != 0 then ill else rounded fun rm => rvConvert fp32 fp64 rm (k.fget fp32 (rvf w 15 5))
    | 0x14 =>
      if f3 > 2 then ill
      else let r := rvCmp F f3 a b; rvIntFlag s die c len rd (if r.1 then 1 else 0, r.2)
    | 0x18 => match rvRm k w with
      | some rm => if r2 > 3 then ill else rvIntFlag s die c len rd (rvFcvtInt F rm r2 a)
      | none => ill
    | 0x1A => if r2 > 3 then ill else rounded fun rm => rvFcvtFloat F rm r2 x
    | 0x1C =>
      if r2 != 0 || f3 > 1 then ill
      else if f3 == 1 then rvIntFlag s die c len rd (rvClass F a, 0)
      else rvIntFlag s die c len rd (rvSext (8 * F.bytes) (tgetD k.fr (rvf w 15 5) 0).toNat, 0)
    | 0x1E => if r2 != 0 || f3 != 0 then ill else rvFloat s die c len F rd (x % 2 ^ (8 * F.bytes), 0)
    | _ => ill

/-! ## Control and status registers -/

/-- A register readable in U mode (R312): fcsr and its parts, the vector registers' controls, and the counters. -/
def rvCsr (s : State) (k : Carrel) : Nat → Option Nat
  | 0x001 => some (k.fcsr.toNat % 32)
  | 0x002 => some (k.fcsr.toNat / 32)
  | 0x003 => some k.fcsr.toNat
  | 0x008 => some k.vstart
  | 0x009 => some (k.vcsr.toNat % 2)
  | 0x00A => some (k.vcsr.toNat / 2)
  | 0x00F => some k.vcsr.toNat
  | 0xC00 => some (s.now % 2 ^ 64)
  | 0xC01 => some (s.now / 2 % 2 ^ 64)
  | 0xC02 => some k.instret.toNat
  | 0xC20 => some k.vl
  | 0xC21 => some k.vtype.toNat
  | 0xC22 => some 32
  | _ => none

/-- The write of a register; those from 0xC00 are read only. -/
def Carrel.csrPut (k : Carrel) (r v : Nat) : Carrel :=
  match r with
  | 0x001 => { k with fcsr := BitVec.ofNat 8 (k.fcsr.toNat / 32 * 32 + v % 32) }
  | 0x002 => { k with fcsr := BitVec.ofNat 8 (v % 8 * 32 + k.fcsr.toNat % 32) }
  | 0x003 => { k with fcsr := BitVec.ofNat 8 v }
  | 0x008 => { k with vstart := v % 256 }
  | 0x009 => { k with vcsr := BitVec.ofNat 3 (k.vcsr.toNat / 2 * 2 + v % 2) }
  | 0x00A => { k with vcsr := BitVec.ofNat 3 (v % 4 * 2 + k.vcsr.toNat % 2) }
  | 0x00F => { k with vcsr := BitVec.ofNat 3 v }
  | _ => k

/-- SYSTEM: ECALL, EBREAK, WFI and the CSR instructions. No privileged instruction runs in U mode. -/
def rvSystem (s : State) (die c w len : Nat) (word : W64) : State :=
  let k := s.carrel die c
  let ill := raiseCarrel s die c 2 word
  let f3 := rvf w 12 3
  let r1 := rvf w 15 5
  let rd := rvf w 7 5
  let r := rvf w 20 12
  if w == 0x73 then raiseCarrel s die c 8 0
  else if w == 0x00100073 then raiseCarrel s die c 3 (if s.pick 312 2 == 0 then k.pc else 0)
  else if f3 % 4 == 0 then ill
  else match rvCsr s k r with
    | none => ill
    | some old =>
      let x := if f3 ≥ 4 then r1 else (k.xget r1).toNat
      let writes := f3 % 4 == 1 || r1 != 0
      if writes && r ≥ 0xC00 then ill
      else
        let new := match f3 % 4 with
          | 1 => x
          | 2 => old ||| x
          | _ => old &&& (2 ^ 64 - 1 - x)
        rvNext s die c len fun k => (if writes then k.csrPut r new else k).xset rd (BitVec.ofNat 64 old)

/-! ## The integer base -/

/-- OP-IMM and OP-IMM-32, at a width. -/
def rvOpImm (s : State) (die c w len n : Nat) (word : W64) : State :=
  let k := s.carrel die c
  let f3 := rvf w 12 3
  let a := (k.xget (rvf w 15 5)).toNat
  let sh := if n == 64 then 6 else 5
  let top := rvf w (20 + sh) (12 - sh)
  let alt := top == (if n == 64 then 0x10 else 0x20)
  let shift := f3 == 1 || f3 == 5
  if (shift && top != 0 && !(alt && f3 == 5)) || (n == 32 && f3 != 0 && !shift) then raiseCarrel s die c 2 word
  else rvWrite s die c len (rvf w 7 5)
    (rvSext n (if shift then rvAlu n f3 alt a (rvf w 20 sh) else rvAlu n f3 false a (immI w)))

/-- OP and OP-32, at a width. -/
def rvOp (s : State) (die c w len n : Nat) (word : W64) : State :=
  let k := s.carrel die c
  let f3 := rvf w 12 3
  let a := (k.xget (rvf w 15 5)).toNat
  let b := (k.xget (rvf w 20 5)).toNat
  let res (x : Nat) : State := rvWrite s die c len (rvf w 7 5) (rvSext n x)
  match rvf w 25 7 with
  | 0x00 => if n == 32 && f3 != 0 && f3 != 1 && f3 != 5 then raiseCarrel s die c 2 word else res (rvAlu n f3 false a b)
  | 0x20 => if f3 != 0 && f3 != 5 then raiseCarrel s die c 2 word else res (rvAlu n f3 true a b)
  | 0x01 => if n == 32 && 1 ≤ f3 && f3 ≤ 3 then raiseCarrel s die c 2 word else res (rvMulDiv n f3 a b)
  | _ => raiseCarrel s die c 2 word

/-- The loads by funct3. -/
def rvLoads (s : State) (die c w len : Nat) (word : W64) : State :=
  let f3 := rvf w 12 3
  let n := 2 ^ (f3 % 4)
  if f3 == 7 then raiseCarrel s die c 2 word
  else rvLoad s die c len (rvAddr (s.carrel die c) (rvf w 15 5) (immI w)) n fun v k =>
    k.xset (rvf w 7 5) (BitVec.ofNat 64 (if f3 < 4 then rvSext (8 * n) v else v))

/-- The stores by funct3. -/
def rvStores (s : State) (die c w len : Nat) (word : W64) : State :=
  let k := s.carrel die c
  let f3 := rvf w 12 3
  if f3 > 3 then raiseCarrel s die c 2 word
  else rvStore s die c len (rvAddr k (rvf w 15 5) (immS w)) (2 ^ f3) (k.xget (rvf w 20 5)).toNat id

/-- FLW and FLD. -/
def rvFloatLoad (s : State) (die c w len : Nat) (F : Fmt) : State :=
  rvLoad s die c len (rvAddr (s.carrel die c) (rvf w 15 5) (immI w)) F.bytes fun v k => k.fput F (rvf w 7 5) v

/-- FSW and FSD: the low bytes of the register, boxed or not. -/
def rvFloatStore (s : State) (die c w len : Nat) (F : Fmt) : State :=
  let k := s.carrel die c
  rvStore s die c len (rvAddr k (rvf w 15 5) (immS w)) F.bytes (tgetD k.fr (rvf w 20 5) 0).toNat id

end Sys2Proof.Machine
end

