-- ==== Sys2Proof/Machine/RvVector.lean ====
section
/-! DEFINITION. The V extension 1.0 of a carrel with VLEN 256 and ELEN 64 (R312): configuration, integer, fixed-point, float, reduction, mask
and permutation instructions. A reserved encoding or register group is an illegal instruction; elements under an agnostic
policy are freely kept or set to ones. -/

namespace Sys2Proof.Machine

/-! ## Vector registers -/

/-- The settings under which a vector instruction runs: SEW in bits, log2 of LMUL, the policies, and whether it is
unmasked. -/
structure VSet where
  sew : Nat
  lm : Int
  vl : Nat
  vstart : Nat
  vta : Bool
  vma : Bool
  vm : Bool
  deriving DecidableEq, Repr, Inhabited

/-- log2 of LMUL of a vtype; none is reserved. -/
def vlmul (t : Nat) : Option Int :=
  match t % 8 with
  | 4 => none
  | 0 => some 0
  | 1 => some 1
  | 2 => some 2
  | 3 => some 3
  | n => some ((n : Int) - 8)

/-- The number of elements of a group: LMUL × 256 / SEW. -/
def vlmaxOf (lm : Int) (sew : Nat) : Nat := if lm < 0 then 256 / 2 ^ (-lm).toNat / sew else 256 * 2 ^ lm.toNat / sew

/-- The settings of a vtype; none where vill is set or it is not supported. -/
def vsetOf (k : Carrel) (vm : Bool) : Option VSet :=
  let t := k.vtype.toNat
  let sew := 8 * 2 ^ rvf t 3 3
  match vlmul t with
  | some lm =>
    if t ≥ 256 || sew > 64 || vlmaxOf lm sew == 0 || (lm < 0 && sew * 2 ^ (-lm).toNat > 64) then none
    else some { sew := sew, lm := lm, vl := k.vl, vstart := k.vstart, vta := rvf t 6 1 == 1, vma := rvf t 7 1 == 1, vm := vm }
  | none => none

/-- Element i of a register group, at a width; at width 1 a mask bit. -/
def Carrel.vget (k : Carrel) (ew v i : Nat) : Nat :=
  ((tgetD k.vr (v + i * ew / 256) 0).toNat >>> (i * ew % 256)) % 2 ^ ew

def Carrel.vput (k : Carrel) (ew v i x : Nat) : Carrel :=
  let r := v + i * ew / 256
  let sh := i * ew % 256
  let old := (tgetD k.vr r 0).toNat
  { k with vr := tset k.vr r (BitVec.ofNat 256 (old - ((old >>> sh) % 2 ^ ew) <<< sh + (x % 2 ^ ew) <<< sh)) }

/-- The element takes part: unmasked, or its bit of v0 is set. -/
def VSet.active (c : VSet) (k : Carrel) (i : Nat) : Bool := c.vm || k.vget 1 0 i == 1

/-- The registers of a group. -/
def regsOf (lm : Int) : Nat := 2 ^ lm.toNat

/-- A destination group is legal: its EMUL, its alignment, and not the mask of a masked instruction. -/
def VSet.dstOk (c : VSet) (v : Nat) (lm : Int) : Bool :=
  decide (-3 ≤ lm) && decide (lm ≤ 3) && v % regsOf lm == 0 && (c.vm || v != 0)

/-- Two ranges of registers share none. -/
def apart (v n u m : Nat) : Bool := decide (v + n ≤ u) || decide (u + m ≤ v)

/-- A source group is legal beside a destination of width `de`: its EMUL, its alignment, not the mask as well, and an overlap only
where the V extension allows it. -/
def VSet.srcOk (c : VSet) (vd : Nat) (dl : Int) (de v : Nat) (sl : Int) (se : Nat) : Bool :=
  decide (-3 ≤ sl) && decide (sl ≤ 3) && v % regsOf sl == 0 && (c.vm || v != 0) &&
    (apart vd (regsOf dl) v (regsOf sl) || de == se || (decide (de < se) && vd == v) ||
      (decide (de > se) && decide (0 ≤ sl) && v + regsOf sl == vd + regsOf dl))

/-- An element that the instruction does not compute: kept, or under an agnostic policy perhaps all ones. -/
def agnostic (free : Nat → Nat) (k : Carrel) (agn : Bool) (ew v i : Nat) : Carrel :=
  if agn && free i % 2 == 1 then k.vput ew v i (2 ^ ew - 1) else k

/-- The body and tail of a destination group: each active element computed from the registers as they stood, with the flags of
all of them. Body elements below `lo` are no part of the instruction: they keep their values whatever the mask says. -/
def vmapFrom (lo : Nat) (c : VSet) (free : Nat → Nat) (k : Carrel) (ew vd : Nat) (lm : Int) (masked : Bool) (f : Nat → FRes) :
    Carrel × Nat :=
  if c.vstart ≥ c.vl then (k, 0)
  else (List.range (regsOf lm * 256 / ew)).foldl (fun (acc : Carrel × Nat) i =>
    if i < c.vstart || (i < lo && i < c.vl) then acc
    else if i ≥ c.vl then (agnostic free acc.1 c.vta ew vd i, acc.2)
    else if !masked || c.active k i then let r := f i; (acc.1.vput ew vd i r.1, acc.2 ||| r.2)
    else (agnostic free acc.1 c.vma ew vd i, acc.2)) (k, 0)

def vmap (c : VSet) (free : Nat → Nat) (k : Carrel) (ew vd : Nat) (lm : Int) (masked : Bool) (f : Nat → FRes) : Carrel × Nat :=
  vmapFrom 0 c free k ew vd lm masked f

/-- A mask destination: its tail is agnostic always. -/
def vmapMask (c : VSet) (free : Nat → Nat) (k : Carrel) (vd : Nat) (masked : Bool) (f : Nat → Bool × Nat) : Carrel × Nat :=
  vmap { c with vta := true } free k 1 vd 0 masked fun i => let r := f i; (if r.1 then 1 else 0, r.2)

/-- Saturation accrues in vxsat. -/
def Carrel.sat (r : Carrel × Nat) : Carrel := if r.2 != 0 then { r.1 with vcsr := r.1.vcsr ||| 1 } else r.1

/-- Float flags accrue in fcsr. -/
def Carrel.accrue (r : Carrel × Nat) : Carrel := r.1.flag r.2

/-! ## Fixed point -/

/-- x / 2^d rounded under vxrm: to nearest up, to nearest even, down, to odd. -/
def roundoff (rm : Nat) (x : Int) (d : Nat) : Int :=
  let q := x / (2 ^ d : Nat)
  let r := (x % (2 ^ d : Nat)).toNat
  let half := 2 ^ d / 2
  let up := match rm with
    | 0 => d != 0 && decide (r ≥ half)
    | 1 => d != 0 && (decide (r > half) || (r == half && q % 2 != 0))
    | 2 => false
    | _ => r != 0 && q % 2 == 0
  if up then q + 1 else q

/-- Clipped into a range of w bits, with whether it was. -/
def clip (w : Nat) (signed : Bool) (x : Int) : FRes :=
  if x < minInt w signed then (rvWrap w (minInt w signed), 1)
  else if x > maxInt w signed then (rvWrap w (maxInt w signed), 1)
  else (rvWrap w x, 0)

/-! ## Integer operations of two elements -/

/-- OPI at a width: a from vs2, b from vs1, rs1 or the immediate. -/
def vIntOp (n rm f6 a b : Nat) : Option FRes :=
  let x := rvInt n a
  let y := rvInt n b
  let u (r : Nat) : Option FRes := some (r % 2 ^ n, 0)
  let sh := b % n
  match f6 with
  | 0x00 => u (a + b)
  | 0x02 => u (rvWrap n (a - b))
  | 0x03 => u (rvWrap n (b - a))
  | 0x04 => u (min a b)
  | 0x05 => u (if x ≤ y then a else b)
  | 0x06 => u (max a b)
  | 0x07 => u (if x ≤ y then b else a)
  | 0x09 => u (a &&& b)
  | 0x0A => u (a ||| b)
  | 0x0B => u (a ^^^ b)
  | 0x20 => some (clip n false (a + b))
  | 0x21 => some (clip n true (x + y))
  | 0x22 => some (clip n false (a - b))
  | 0x23 => some (clip n true (x - y))
  | 0x25 => u (a <<< sh)
  | 0x27 => some (clip n true (roundoff rm (x * y) (n - 1)))
  | 0x28 => u (a >>> sh)
  | 0x29 => u (rvWrap n (x / (2 ^ sh : Nat)))
  | 0x2A => u (rvWrap n (roundoff rm a sh))
  | 0x2B => u (rvWrap n (roundoff rm x sh))
  | _ => none

/-- The operand forms of an OPI operation: vector, scalar, immediate. -/
def vIntForms (f6 : Nat) : List Nat :=
  if [0x02, 0x04, 0x05, 0x06, 0x07, 0x22, 0x23, 0x27, 0x12, 0x13, 0x1A, 0x1B].contains f6 then [0, 4]
  else if [0x03, 0x0F, 0x1E, 0x1F].contains f6 then [4, 3]
  else [0, 4, 3]

/-- OPM at a width, for the operations of two elements of SEW. -/
def vMulOp (n rm f6 a b : Nat) : Option FRes :=
  let x := rvInt n a
  let y := rvInt n b
  let u (r : Nat) : Option FRes := some (r % 2 ^ n, 0)
  match f6 with
  | 0x08 => u (rvWrap n (roundoff rm (a + b) 1))
  | 0x09 => u (rvWrap n (roundoff rm (x + y) 1))
  | 0x0A => u (rvWrap n (roundoff rm (a - b) 1))
  | 0x0B => u (rvWrap n (roundoff rm (x - y) 1))
  | 0x20 => u (rvDivRem n false false a b)
  | 0x21 => u (rvDivRem n true false a b)
  | 0x22 => u (rvDivRem n false true a b)
  | 0x23 => u (rvDivRem n true true a b)
  | 0x24 => u (rvMulDiv n 3 a b)
  | 0x25 => u (a * b)
  | 0x26 => u (rvMulDiv n 2 a b)
  | 0x27 => u (rvMulDiv n 1 a b)
  | _ => none

/-- Multiply-add of SEW: a from vs2, b from vs1 or rs1, d the destination. -/
def vMacOp (n f6 a b d : Nat) : Option Nat :=
  match f6 with
  | 0x29 => some ((b * d + a) % 2 ^ n)
  | 0x2B => some (rvWrap n (a - b * d))
  | 0x2D => some ((a * b + d) % 2 ^ n)
  | 0x2F => some (rvWrap n (d - a * b))
  | _ => none

/-- Widening operations: a of width `na` (2 SEW for the .w forms) from vs2, b of SEW, d the destination of 2 SEW. -/
def vWideOp (n f6 a b d : Nat) : Option Nat :=
  let x := rvInt n a
  let y := rvInt n b
  let m := 2 * n
  match f6 with
  | 0x30 => some (a + b)
  | 0x31 => some (rvWrap m (x + y))
  | 0x32 => some (rvWrap m (a - b))
  | 0x33 => some (rvWrap m (x - y))
  | 0x34 => some ((a + b) % 2 ^ m)
  | 0x35 => some (rvWrap m (a + y))
  | 0x36 => some (rvWrap m (a - b))
  | 0x37 => some (rvWrap m (a - y))
  | 0x38 => some (a * b)
  | 0x3A => some (rvWrap m (x * b))
  | 0x3B => some (rvWrap m (x * y))
  | 0x3C => some ((a * b + d) % 2 ^ m)
  | 0x3D => some (rvWrap m (x * y + d))
  | 0x3E => some (rvWrap m (x * b + d))
  | 0x3F => some (rvWrap m (a * y + d))
  | _ => none

/-- Comparisons of OPI. -/
def vCmpOp (n f6 a b : Nat) : Bool :=
  let x := rvInt n a
  let y := rvInt n b
  match f6 with
  | 0x18 => a == b
  | 0x19 => a != b
  | 0x1A => a < b
  | 0x1B => x < y
  | 0x1C => a ≤ b
  | 0x1D => x ≤ y
  | 0x1E => b < a
  | _ => y < x

/-- The operation of an integer reduction. -/
def vRedOp (n f6 a b : Nat) : Nat :=
  match f6 with
  | 0 => (a + b) % 2 ^ n
  | 1 => a &&& b
  | 2 => a ||| b
  | 3 => a ^^^ b
  | 4 => min a b
  | 5 => if rvInt n a ≤ rvInt n b then a else b
  | 6 => max a b
  | _ => if rvInt n a ≤ rvInt n b then b else a

/-! ## OPIVV, OPIVX and OPIVI -/

/-- A scalar destination, element 0 of vd, with the rest of the register a tail. -/
def vScalar (c : VSet) (free : Nat → Nat) (k : Carrel) (ew vd x : Nat) : Carrel :=
  (List.range (256 / ew)).foldl (fun k i => if i == 0 then k.vput ew vd 0 x else agnostic free k c.vta ew vd i) k

/-- The active body elements, in order. -/
def VSet.body (c : VSet) (k : Carrel) : List Nat := (List.range c.vl).filter fun i => decide (c.vstart ≤ i) && c.active k i

/-- Slides and gathers: the element of vs2 that each destination element takes; past VLMAX it is 0. -/
def vTake (c : VSet) (k : Carrel) (vs2 i : Nat) : Nat := if i < vlmaxOf c.lm c.sew then k.vget c.sew vs2 i else 0

def vOpI (k : Carrel) (c : VSet) (free : Nat → Nat) (w : Nat) : Option Carrel :=
  let f6 := rvf w 26 6
  let f3 := rvf w 12 3
  let vd := rvf w 7 5
  let v1 := rvf w 15 5
  let v2 := rvf w 20 5
  let n := c.sew
  let rm := k.vcsr.toNat / 2
  let full := if f3 == 4 then (k.xget v1).toNat else v1
  let imm := rvSext 5 v1 % 2 ^ n
  let uns := [0x25, 0x28, 0x29, 0x2A, 0x2B].contains f6
  let b (i : Nat) : Nat :=
    if f3 == 0 then k.vget n v1 i else if f3 == 4 then full % 2 ^ n else if uns then v1 else imm
  let same := c.dstOk vd c.lm && c.srcOk vd c.lm n v2 c.lm n && (f3 != 0 || c.srcOk vd c.lm n v1 c.lm n)
  let mask := c.srcOk vd 0 1 v2 c.lm n && (f3 != 0 || c.srcOk vd 0 1 v1 c.lm n)
  let out (r : Carrel × Nat) : Option Carrel := some (Carrel.sat r)
  if !(vIntForms f6).contains f3 && f6 != 0x0E then none
  else if 0x18 ≤ f6 && f6 ≤ 0x1F then
    if !mask then none else out (vmapMask c free k vd true fun i => (vCmpOp n f6 (k.vget n v2 i) (b i), 0))
  else match f6 with
  | 0x0C =>
    let index (i : Nat) : Nat := if f3 == 0 then k.vget n v1 i else full
    if !same || !apart vd (regsOf c.lm) v2 (regsOf c.lm) || (f3 == 0 && !apart vd (regsOf c.lm) v1 (regsOf c.lm)) then none
    else out (vmap c free k n vd c.lm true fun i => (vTake c k v2 (index i), 0))
  | 0x0E =>
    if f3 == 0 then
      let il : Int := c.lm + (if n == 8 then 1 else if n == 16 then 0 else if n == 32 then -1 else -2)
      if !(c.dstOk vd c.lm && c.srcOk vd c.lm n v2 c.lm n && c.srcOk vd c.lm n v1 il 16) ||
        !apart vd (regsOf c.lm) v2 (regsOf c.lm) || !apart vd (regsOf c.lm) v1 (regsOf il) ||
        (n != 16 && !apart v2 (regsOf c.lm) v1 (regsOf il)) then none
      else out (vmap c free k n vd c.lm true fun i => (vTake c k v2 (k.vget 16 v1 i), 0))
    else if !(c.dstOk vd c.lm && c.srcOk vd c.lm n v2 c.lm n) || !apart vd (regsOf c.lm) v2 (regsOf c.lm) then none
    else out (vmapFrom full c free k n vd c.lm true fun i => (k.vget n v2 (i - full), 0))
  | 0x0F =>
    if !(c.dstOk vd c.lm && c.srcOk vd c.lm n v2 c.lm n) then none
    else out (vmap c free k n vd c.lm true fun i => (vTake c k v2 (i + full), 0))
  | 0x10 =>
    if c.vm || vd == 0 || !({ c with vm := true }.dstOk vd c.lm && v2 % regsOf c.lm == 0 && (f3 != 0 || v1 % regsOf c.lm == 0)) ||
      v2 == 0 || (f3 == 0 && v1 == 0) then none
    else out (vmap c free k n vd c.lm false fun i => ((k.vget n v2 i + b i + k.vget 1 0 i) % 2 ^ n, 0))
  | 0x12 =>
    if c.vm || vd == 0 || v2 % regsOf c.lm != 0 || vd % regsOf c.lm != 0 || (f3 == 0 && v1 % regsOf c.lm != 0) ||
      v2 == 0 || (f3 == 0 && v1 == 0) then none
    else out (vmap c free k n vd c.lm false fun i => (rvWrap n ((k.vget n v2 i : Int) - b i - k.vget 1 0 i), 0))
  | 0x11 =>
    if !mask then none
    else out (vmapMask c free k vd false fun i =>
      (decide (k.vget n v2 i + b i + (if c.vm then 0 else k.vget 1 0 i) ≥ 2 ^ n), 0))
  | 0x13 =>
    if !mask then none
    else out (vmapMask c free k vd false fun i => (decide (k.vget n v2 i < b i + (if c.vm then 0 else k.vget 1 0 i)), 0))
  | 0x17 =>
    if c.vm then
      if v2 != 0 || !(c.dstOk vd c.lm && (f3 != 0 || c.srcOk vd c.lm n v1 c.lm n)) then none
      else out (vmap c free k n vd c.lm false fun i => (b i, 0))
    else if !same then none
    else out (vmap c free k n vd c.lm false fun i => (if k.vget 1 0 i == 1 then b i else k.vget n v2 i, 0))
  | 0x2C | 0x2D | 0x2E | 0x2F =>
    -- narrowing: vs2 holds elements of 2 SEW
    let sh (i : Nat) : Nat := (if f3 == 0 then k.vget n v1 i else full) % (2 * n)
    if n > 32 || !(c.dstOk vd c.lm && c.srcOk vd c.lm n v2 (c.lm + 1) (2 * n) && (f3 != 0 || c.srcOk vd c.lm n v1 c.lm n)) ||
      (f3 == 0 && !apart v1 (regsOf c.lm) v2 (regsOf (c.lm + 1))) then none
    else out (vmap c free k n vd c.lm true fun i =>
      let a := k.vget (2 * n) v2 i
      match f6 with
      | 0x2C => ((a >>> sh i) % 2 ^ n, 0)
      | 0x2D => (rvWrap n (rvInt (2 * n) a / (2 ^ sh i : Nat)), 0)
      | 0x2E => clip n false (roundoff rm a (sh i))
      | _ => clip n true (roundoff rm (rvInt (2 * n) a) (sh i)))
  | 0x30 | 0x31 =>
    -- widening sums, of vector form
    if f3 != 0 || n > 32 || k.vstart != 0 || v2 % regsOf c.lm != 0 || (!c.vm && (v1 == 0 || v2 == 0)) then none
    else if c.vl == 0 then some k
    else
      let ext (x : Nat) : Nat := if f6 == 0x31 then rvWrap (2 * n) (rvInt n x) else x
      some (vScalar c free k (2 * n) vd
        ((c.body k).foldl (fun a i => (a + ext (k.vget n v2 i)) % 2 ^ (2 * n)) (k.vget (2 * n) v1 0)))
  | _ =>
    if f6 == 0x27 && f3 == 3 then
      none
    else if !same || (vIntOp n rm f6 0 0).isNone then none
    else out (vmap c free k n vd c.lm true fun i => (vIntOp n rm f6 (k.vget n v2 i) (b i)).getD (0, 0))

/-- vmv1r.v, vmv2r.v, vmv4r.v and vmv8r.v: whole registers, whatever vtype holds. -/
def vMoveRegs (k : Carrel) (w : Nat) : Option Carrel :=
  let n := rvf w 15 5 + 1
  let vd := rvf w 7 5
  let v2 := rvf w 20 5
  if rvf w 25 1 == 0 || !([1, 2, 4, 8].contains n) || vd % n != 0 || v2 % n != 0 then none
  else
    -- the bytes of the elements below vstart keep their values
    let lo := k.vstart * 2 ^ (bits k.vtype 3 3)
    let put (i : Nat) : BitVec 256 :=
      let m : BitVec 256 := BitVec.ofNat 256 (2 ^ (8 * min 32 (lo - 32 * i)) - 1)
      (tgetD k.vr (v2 + i) 0 &&& ~~~m) ||| (tgetD k.vr (vd + i) 0 &&& m)
    some ((List.range n).foldl (fun (k' : Carrel) i => { k' with vr := tset k'.vr (vd + i) (put i) }) k)

/-! ## OPMVV and OPMVX -/

/-- The mask logic operations. -/
def vMaskOp (f6 : Nat) (a b : Bool) : Bool :=
  match f6 with
  | 0x18 => a && !b
  | 0x19 => a && b
  | 0x1A => a || b
  | 0x1B => a != b
  | 0x1C => a || !b
  | 0x1D => !(a && b)
  | 0x1E => !(a || b)
  | _ => a == b

/-- vmsbf, vmsof and vmsif: the first active set bit of vs2. -/
def vFirstBit (c : VSet) (k : Carrel) (v2 : Nat) : Option Nat := (c.body k).find? fun i => k.vget 1 v2 i == 1

def vUnaryMask (k : Carrel) (c : VSet) (free : Nat → Nat) (kind vd v2 : Nat) : Option Carrel :=
  let first := (vFirstBit c k v2).getD c.vl
  let masks (f : Nat → Bool) : Option Carrel :=
    if k.vstart != 0 || vd == v2 || !(c.vm || (vd != 0)) then none else some (vmapMask c free k vd true fun i => (f i, 0)).1
  match kind with
  | 1 => masks fun i => i < first
  | 2 => masks fun i => i == first
  | 3 => masks fun i => i ≤ first
  | 16 =>
    if k.vstart != 0 || !c.dstOk vd c.lm || !apart vd (regsOf c.lm) v2 1 then none
    else some (vmap c free k c.sew vd c.lm true fun i => (((c.body k).filter fun j => j < i && k.vget 1 v2 j == 1).length, 0)).1
  | 17 => if v2 != 0 || !c.dstOk vd c.lm then none else some (vmap c free k c.sew vd c.lm true fun i => (i, 0)).1
  | _ => none

def vOpM (k : Carrel) (c : VSet) (free : Nat → Nat) (w : Nat) : Option Carrel :=
  let f6 := rvf w 26 6
  let vec := rvf w 12 3 == 2
  let vd := rvf w 7 5
  let v1 := rvf w 15 5
  let v2 := rvf w 20 5
  let n := c.sew
  let rm := k.vcsr.toNat / 2
  let x1 := (k.xget v1).toNat
  let b (i : Nat) : Nat := if vec then k.vget n v1 i else x1 % 2 ^ n
  let same := c.dstOk vd c.lm && c.srcOk vd c.lm n v2 c.lm n && (!vec || c.srcOk vd c.lm n v1 c.lm n)
  let one (f : Nat → Nat) : Option Carrel := some (vmap c free k n vd c.lm true fun i => (f i, 0)).1
  if f6 ≤ 7 then
    if !vec || k.vstart != 0 || v2 % regsOf c.lm != 0 || (!c.vm && (v1 == 0 || v2 == 0)) then none
    else if c.vl == 0 then some k
    else some (vScalar c free k n vd ((c.body k).foldl (fun a i => vRedOp n f6 a (k.vget n v2 i)) (k.vget n v1 0)))
  else if 0x18 ≤ f6 && f6 ≤ 0x1F then
    if !vec || !c.vm then none
    else some (vmapMask c free k vd false fun i => (vMaskOp f6 (k.vget 1 v2 i == 1) (k.vget 1 v1 i == 1), 0)).1
  else if 0x30 ≤ f6 then
    let wide := 0x34 ≤ f6 && f6 ≤ 0x37
    let vl2 : Int := if wide then c.lm + 1 else c.lm
    let n2 := if wide then 2 * n else n
    if n > 32 || f6 == 0x39 || (f6 == 0x3E && vec) || !c.dstOk vd (c.lm + 1) || !c.srcOk vd (c.lm + 1) (2 * n) v2 vl2 n2 ||
      (vec && !c.srcOk vd (c.lm + 1) (2 * n) v1 c.lm n) || (vec && wide && !apart v1 (regsOf c.lm) v2 (regsOf vl2)) then none
    else some (vmap c free k (2 * n) vd (c.lm + 1) true fun i =>
      -- vwmaccus and vwmaccsu name which of rs1 and vs2 is unsigned; vwmulsu has vs2 signed
      ((vWideOp n f6 (k.vget n2 v2 i) (b i) (k.vget (2 * n) vd i)).getD 0, 0)).1
  else match f6 with
  | 0x0E =>
    if vec || !(c.dstOk vd c.lm && c.srcOk vd c.lm n v2 c.lm n) || !apart vd (regsOf c.lm) v2 (regsOf c.lm) then none
    else one fun i => if i == 0 then x1 % 2 ^ n else k.vget n v2 (i - 1)
  | 0x0F =>
    if vec || !(c.dstOk vd c.lm && c.srcOk vd c.lm n v2 c.lm n) then none
    else one fun i => if i + 1 == c.vl then x1 % 2 ^ n else vTake c k v2 (i + 1)
  | 0x10 =>
    if vec then match v1 with
      | 0 => if !c.vm then none else some (k.xset vd (BitVec.ofNat 64 (rvSext n (k.vget n v2 0))))
      | 16 =>
        if k.vstart != 0 then none
        else some (k.xset vd (BitVec.ofNat 64 ((c.body k).filter fun i => k.vget 1 v2 i == 1).length))
      | 17 =>
        if k.vstart != 0 then none
        else some (k.xset vd (match vFirstBit c k v2 with | some i => BitVec.ofNat 64 i | none => BitVec.allOnes 64))
      | _ => none
    else if v2 != 0 || !c.vm then none
    else if c.vstart ≥ c.vl then some k
    else some (vScalar c free k n vd x1)
  | 0x12 =>
    let kind : Option (Nat × Bool) := match v1 with
      | 2 => some (3, false)
      | 3 => some (3, true)
      | 4 => some (2, false)
      | 5 => some (2, true)
      | 6 => some (1, false)
      | 7 => some (1, true)
      | _ => none
    match kind with
    | some (l, signed) =>
      let m := n / 2 ^ l
      if !vec || m < 8 || !(c.dstOk vd c.lm && c.srcOk vd c.lm n v2 (c.lm - l) m) then none
      else one fun i => let x := k.vget m v2 i; if signed then rvWrap n (rvInt m x) else x
    | none => none
  | 0x14 => if !vec then none else vUnaryMask k c free v1 vd v2
  | 0x17 =>
    if !vec || !c.vm || k.vstart != 0 || vd % regsOf c.lm != 0 || v2 % regsOf c.lm != 0 ||
      !apart vd (regsOf c.lm) v2 (regsOf c.lm) || !apart vd (regsOf c.lm) v1 1 then none
    else if c.vl == 0 then some k
    else
      let chosen := (List.range c.vl).filter fun i => k.vget 1 v1 i == 1
      some ((List.range (regsOf c.lm * 256 / n)).foldl (fun k' i => match chosen[i]? with
        | some j => k'.vput n vd i (k.vget n v2 j)
        | none => agnostic free k' c.vta n vd i) k)
  | _ =>
    if !same then none
    else match vMacOp n f6 0 0 0 with
      | some _ => one fun i => (vMacOp n f6 (k.vget n v2 i) (b i) (k.vget n vd i)).getD 0
      | none =>
        if (vMulOp n rm f6 0 0).isNone then none
        else one fun i => ((vMulOp n rm f6 (k.vget n v2 i) (b i)).getD (0, 0)).1

/-! ## OPFVV and OPFVF -/

/-- The float formats of SEW: single and double. -/
def vFmt : Nat → Option Fmt
  | 32 => some fp32
  | 64 => some fp64
  | _ => none

/-- Float operations of two elements: a from vs2, b from vs1 or rs1. -/
def vFloatOp (F : Fmt) (rm f6 a b : Nat) : Option FRes :=
  match f6 with
  | 0x00 => some (rvAdd F rm a b)
  | 0x02 => some (rvSub F rm a b)
  | 0x04 => some (rvMinMax F false a b)
  | 0x06 => some (rvMinMax F true a b)
  | 0x08 => some (rvSgnj F 0 a b, 0)
  | 0x09 => some (rvSgnj F 1 a b, 0)
  | 0x0A => some (rvSgnj F 2 a b, 0)
  | 0x20 => some (rvDiv F rm a b)
  | 0x21 => some (rvDiv F rm b a)
  | 0x24 => some (rvMul F rm a b)
  | 0x27 => some (rvSub F rm b a)
  | _ => none

/-- Float multiply-add: a from vs2, b from vs1 or rs1, d the destination. -/
def vFusedOp (F : Fmt) (rm f6 a b d : Nat) : Option FRes :=
  match f6 with
  | 0x28 => some (rvFma F rm b d a)
  | 0x29 => some (rvFma F rm (F.flip b) d (F.flip a))
  | 0x2A => some (rvFma F rm b d (F.flip a))
  | 0x2B => some (rvFma F rm (F.flip b) d a)
  | 0x2C => some (rvFma F rm b a d)
  | 0x2D => some (rvFma F rm (F.flip b) a (F.flip d))
  | 0x2E => some (rvFma F rm b a (F.flip d))
  | 0x2F => some (rvFma F rm (F.flip b) a d)
  | _ => none

/-- Float comparisons. -/
def vFloatCmp (F : Fmt) (f6 a b : Nat) : Option (Bool × Nat) :=
  match f6 with
  | 0x18 => some (rvCmp F 2 a b)
  | 0x19 => some (rvCmp F 0 a b)
  | 0x1B => some (rvCmp F 1 a b)
  | 0x1C => let r := rvCmp F 2 a b; some (!r.1, r.2)
  | 0x1D => some (rvCmp F 1 b a)
  | 0x1F => some (rvCmp F 0 b a)
  | _ => none

/-- Widening float operations, on codes already of 2 SEW: a from vs2, b from vs1 or rs1, d the destination. -/
def vFloatWide (F : Fmt) (rm f6 a b d : Nat) : Option FRes :=
  match f6 with
  | 0x30 | 0x34 => some (rvAdd F rm a b)
  | 0x32 | 0x36 => some (rvSub F rm a b)
  | 0x38 => some (rvMul F rm a b)
  | 0x3C => some (rvFma F rm a b d)
  | 0x3D => some (rvFma F rm (F.flip a) b (F.flip d))
  | 0x3E => some (rvFma F rm a b (F.flip d))
  | 0x3F => some (rvFma F rm (F.flip a) b d)
  | _ => none

/-- A single widened to double, exactly, with NV of a signaling NaN. -/
def widen (x : Nat) : FRes := rvConvert fp32 fp64 0 x

/-- A conversion of VFUNARY0 by its code: source and destination widths relative to SEW as powers of two, and the function. -/
def vConvert (n rm kind : Nat) : Option (Nat × Nat × (Nat → FRes)) :=
  let m := if kind < 8 then n else 2 * n
  let dst := if kind < 16 && 8 ≤ kind then 2 * n else n
  let src := if 16 ≤ kind then m else n
  let rtz := kind % 8 ≥ 6
  if kind ≥ 24 then none else
  let r := if rtz then 1 else rm
  match kind % 8 with
  | 0 | 6 => (vFmt src).map fun F => (src, dst, fun x => rvToInt F r dst false x)
  | 1 | 7 => (vFmt src).map fun F => (src, dst, fun x => rvToInt F r dst true x)
  | 2 => (vFmt dst).map fun F => (src, dst, fun x => rvOfInt F rm (x : Int))
  | 3 => (vFmt dst).map fun F => (src, dst, fun x => rvOfInt F rm (rvInt src x))
  | 4 => if kind < 8 then none else match vFmt src, vFmt dst with
    | some F, some G => some (src, dst, fun x => rvConvert F G rm x)
    | _, _ => none
  | _ => if kind != 21 then none else match vFmt src, vFmt dst with
    | some F, some G => some (src, dst, fun x => rvConvertOdd F G x)
    | _, _ => none

/-- log2 of the EMUL that goes with a width. -/
def VSet.emul (c : VSet) (ew : Nat) : Int := c.lm + (Nat.log2 ew : Int) - (Nat.log2 c.sew : Int)

/-! ## Unordered sums

The V extension gives vfredusum and vfwredusum as a tree of binary additions over the elements and the scalar: each node rounds an
exact sum into a format of at least the element's range and precision, and the root is rounded into the element's. Tree and formats
are free, but fixed for a vtype and a vl. -/

/-- A term of the sum: its value, and whether it is a signaling NaN. -/
abbrev VTerm := Val × Bool

def Fmt.term (F : Fmt) (c : Nat) : VTerm := (F.decode c, F.isSnan c)

/-- A format with more range and precision. -/
def Fmt.wider (F : Fmt) (a b : Nat) : Fmt := ⟨F.eb + a, F.fb + b, 2 ^ (F.eb + a - 1) - 1, 0⟩

/-- A node of the tree, with its flags. -/
def vNode (F : Fmt) (rm a b : Nat) (x y : VTerm) : VTerm × Nat :=
  let G := F.wider a b
  let v := sumExact (rm == 2) [x.1, y.1]
  let r := rvRound G rm v
  ((G.decode r.1, false), r.2 ||| (if x.2 || y.2 || (v.isNan && !x.1.isNan && !y.1.isNan) then flNV else 0))

/-- The root of the tree and the flags of its nodes; an element that takes no part is copied past. -/
def vTree (F : Fmt) (rm : Nat) (free : Nat → Nat) : Nat → List (Option VTerm) → Nat → Option VTerm × Nat
  | 0, xs, fl => (xs.headD none, fl)
  | n + 1, xs, fl =>
    if xs.length ≤ 1 then (xs.headD none, fl)
    else
      let i := free (4 * n) % xs.length
      let ys := xs.eraseIdx i
      let j := free (4 * n + 1) % ys.length
      let (x, f) : Option VTerm × Nat := match xs.getD i none, ys.getD j none with
        | some x, some y => let r := vNode F rm (free (4 * n + 2)) (free (4 * n + 3)) x y; (some r.1, r.2)
        | some x, none | none, some x => (some x, 0)
        | none, none => (none, 0)
      vTree F rm free n (x :: ys.eraseIdx j) (fl ||| f)

/-- The sum of the scalar and the elements that take part, none for each that does not. With no element the scalar is kept, or the
additive identity is added to it. -/
def vSum (F : Fmt) (rm : Nat) (free : Nat → Nat) (scalar : Nat) (xs : List (Option Nat)) : FRes :=
  if xs.all (·.isNone) then
    (if free 0 % 2 == 0 then (scalar, 0) else rvAdd F rm scalar (F.signBit (rm != 2)))
  else
    let (r, fl) := vTree F rm (fun i => free (i + 1)) xs.length (some (F.term scalar) :: xs.map fun x => x.map F.term) 0
    let y := rvRound F rm ((r.map (·.1)).getD .nan)
    (y.1, fl ||| y.2)

def vOpF (k : Carrel) (c : VSet) (free : Nat → Nat) (w : Nat) : Option Carrel :=
  let f6 := rvf w 26 6
  let vec := rvf w 12 3 == 1
  let vd := rvf w 7 5
  let v1 := rvf w 15 5
  let v2 := rvf w 20 5
  let n := c.sew
  let rm := k.fcsr.toNat / 32
  if rm > 4 then none
  else if f6 == 0x12 then
    match vConvert n rm v1 with
    | some (src, dst, f) =>
      let sl := c.emul src
      let dl := c.emul dst
      if !vec || src < 8 || src > 64 || dst > 64 || !(c.dstOk vd dl && c.srcOk vd dl dst v2 sl src) then none
      else some (Carrel.accrue (vmap c free k dst vd dl true fun i => f (k.vget src v2 i)))
    | none => none
  else match vFmt n with
  | none => none
  | some F =>
    let fs := k.fget F v1
    let b (i : Nat) : Nat := if vec then k.vget n v1 i else fs
    let same := c.dstOk vd c.lm && c.srcOk vd c.lm n v2 c.lm n && (!vec || c.srcOk vd c.lm n v1 c.lm n)
    let move := c.dstOk vd c.lm && c.srcOk vd c.lm n v2 c.lm n
    let one (f : Nat → FRes) : Option Carrel := some (Carrel.accrue (vmap c free k n vd c.lm true f))
    let reduce (ew : Nat) (f : Nat → Nat → FRes) (e : Nat → FRes) : Option Carrel :=
      if !vec || k.vstart != 0 || v2 % regsOf c.lm != 0 || (!c.vm && (v1 == 0 || v2 == 0)) then none
      else if c.vl == 0 then some k
      else
        let body := c.body k
        let ordered := body.foldl (fun (acc : FRes) i =>
          let x := e i
          let y := f acc.1 x.1
          (y.1, acc.2 ||| x.2 ||| y.2)) (k.vget ew v1 0, 0)
        let terms := (List.range c.vl).map fun i => if body.contains i then some (e i) else none
        let G := if ew == 64 then fp64 else fp32
        let tree := vSum G rm (fun i => Config.free (2 ^ 64 * c.vl + k.vtype.toNat) (2 ^ 60 + i)) (k.vget ew v1 0)
          (terms.map fun x => x.map (·.1))
        let r := if f6 == 0x01 || f6 == 0x31 then (tree.1, (terms.filterMap id).foldl (fun a x => a ||| x.2) tree.2) else ordered
        some ((vScalar c free k ew vd r.1).flag r.2)
    if 0x18 ≤ f6 && f6 ≤ 0x1F then
      if (vFloatCmp F f6 0 0).isNone || (vec && f6 ≥ 0x1D) || !c.srcOk vd 0 1 v2 c.lm n || (vec && !c.srcOk vd 0 1 v1 c.lm n) then none
      else some (Carrel.accrue (vmapMask c free k vd true fun i => (vFloatCmp F f6 (k.vget n v2 i) (b i)).getD (false, 0)))
    else if f6 == 0x31 || f6 == 0x33 then
      if n != 32 then none else reduce 64 (rvAdd fp64 rm) fun i => widen (k.vget 32 v2 i)
    else if 0x30 ≤ f6 then
      let wide := f6 == 0x34 || f6 == 0x36
      let sl : Int := if wide then c.lm + 1 else c.lm
      let sn := if wide then 64 else 32
      if n != 32 || (vFloatWide fp64 rm f6 0 0 0).isNone || !c.dstOk vd (c.lm + 1) || !c.srcOk vd (c.lm + 1) 64 v2 sl sn ||
        (vec && !c.srcOk vd (c.lm + 1) 64 v1 c.lm 32) || (vec && wide && !apart v1 (regsOf c.lm) v2 (regsOf sl)) then none
      else some (Carrel.accrue (vmap c free k 64 vd (c.lm + 1) true fun i =>
        let a : FRes := if wide then (k.vget 64 v2 i, 0) else widen (k.vget 32 v2 i)
        let y := widen (b i)
        let r := (vFloatWide fp64 rm f6 a.1 y.1 (k.vget 64 vd i)).getD (0, 0)
        (r.1, r.2 ||| a.2 ||| y.2)))
    else match f6 with
    | 0x01 | 0x03 => reduce n (rvAdd F rm) fun i => (k.vget n v2 i, 0)
    | 0x05 => reduce n (rvMinMax F false) fun i => (k.vget n v2 i, 0)
    | 0x07 => reduce n (rvMinMax F true) fun i => (k.vget n v2 i, 0)
    | 0x0E =>
      if vec || !move || !apart vd (regsOf c.lm) v2 (regsOf c.lm) then none
      else one fun i => (if i == 0 then fs else k.vget n v2 (i - 1), 0)
    | 0x0F => if vec || !move then none else one fun i => (if i + 1 == c.vl then fs else vTake c k v2 (i + 1), 0)
    | 0x10 =>
      if vec then (if v1 != 0 || !c.vm then none else some (k.fput F vd (k.vget n v2 0)))
      else if v2 != 0 || !c.vm then none
      else if c.vstart ≥ c.vl then some k
      else some (vScalar c free k n vd fs)
    | 0x13 =>
      if !vec || !move then none
      else match v1 with
        | 0 => one fun i => rvSqrt F rm (k.vget n v2 i)
        | 4 => one fun i => rvRsqrt7 F (k.vget n v2 i)
        | 5 => one fun i => rvRec7 F rm (k.vget n v2 i)
        | 16 => one fun i => (rvClass F (k.vget n v2 i), 0)
        | _ => none
    | 0x17 =>
      if vec then none
      else if c.vm then
        if v2 != 0 || !c.dstOk vd c.lm then none else some (vmap c free k n vd c.lm false fun _ => (fs, 0)).1
      else if !move then none
      else some (vmap c free k n vd c.lm false fun i => (if k.vget 1 0 i == 1 then fs else k.vget n v2 i, 0)).1
    | _ =>
      if !same || (vec && (f6 == 0x21 || f6 == 0x27)) then none
      else match vFusedOp F rm f6 0 0 0 with
        | some _ => one fun i => (vFusedOp F rm f6 (k.vget n v2 i) (b i) (k.vget n vd i)).getD (0, 0)
        | none =>
          if (vFloatOp F rm f6 0 0).isNone then none
          else one fun i => (vFloatOp F rm f6 (k.vget n v2 i) (b i)).getD (0, 0)

/-! ## Configuration -/

/-- The vl of an AVL: an AVL between VLMAX and twice VLMAX gives any value from half of it to VLMAX, the same each time. -/
def vlOf (avl vlmax vtype : Nat) : Nat :=
  if avl ≤ vlmax then avl
  else if avl ≥ 2 * vlmax then vlmax
  else
    let low := (avl + 1) / 2
    low + Config.free avl (2 ^ 20 + vtype) % (vlmax + 1 - low)

/-- vsetvli, vsetivli and vsetvl. -/
def vConfig (k : Carrel) (w : Nat) : Option Carrel :=
  let rd := rvf w 7 5
  let r1 := rvf w 15 5
  let imm := rvf w 30 2 == 3
  let t : Option Nat :=
    if rvf w 31 1 == 0 then some (rvf w 20 11)
    else if imm then some (rvf w 20 10)
    else if rvf w 25 7 == 0x40 then some (k.xget (rvf w 20 5)).toNat
    else none
  match t with
  | none => none
  | some t =>
    let k1 := { k with vtype := BitVec.ofNat 64 t }
    let k' : Carrel := match vsetOf k1 true with
      | none => { k with vtype := BitVec.ofNat 64 (2 ^ 63), vl := 0 }
      | some c =>
        let vlmax := vlmaxOf c.lm c.sew
        let keep := !imm && r1 == 0 && rd == 0
        let old := (vsetOf k true).map fun c => vlmaxOf c.lm c.sew
        if keep && old != some vlmax then { k with vtype := BitVec.ofNat 64 (2 ^ 63), vl := 0 }
        else if keep then k1
        else
          let avl := if imm then r1 else if r1 == 0 then 2 ^ 64 - 1 else (k.xget r1).toNat
          { k1 with vl := vlOf avl vlmax t }
    some (k'.xset rd (BitVec.ofNat 64 k'.vl))

/-- OP-V: what the carrel becomes; none is an illegal instruction. -/
def vOp (k : Carrel) (free : Nat → Nat) (w : Nat) : Option Carrel :=
  let f3 := rvf w 12 3
  let r : Option Carrel :=
    if f3 == 7 then vConfig k w
    else if f3 == 3 && rvf w 26 6 == 0x27 then vMoveRegs k w
    else match vsetOf k (rvf w 25 1 == 1) with
      | none => none
      | some c =>
        if f3 == 1 || f3 == 5 then vOpF k c free w
        else if f3 == 2 || f3 == 6 then vOpM k c free w
        else vOpI k c free w
  r.map fun k => { k with vstart := 0 }

/-! ## Vector loads and stores -/

/-- One access of a vector load or store: the element, the register element it names, and its address. -/
structure VAcc where
  i : Nat
  reg : Nat
  idx : Nat
  addr : Nat
  deriving DecidableEq, Repr, Inhabited

/-- What a vector load or store accesses: the width of its elements, its group, and its accesses in order. -/
structure VMem where
  ew : Nat
  regs : List Nat
  lm : Int
  evl : Nat
  masked : Bool
  ff : Bool
  vta : Bool
  accs : List VAcc
  deriving DecidableEq, Repr, Inhabited

/-- The fields of a segment access, for elements from vstart. -/
def vFields (vstart evl fields per vd : Nat) (addr : Nat → Nat → Nat) : List VAcc :=
  (List.range evl).flatMap fun i =>
    if i < vstart then []
    else (List.range fields).map fun j => { i := i, reg := vd + j * per, idx := i, addr := addr i j % 2 ^ 64 }

/-- The width of the elements or indexes that funct3 names. -/
def vWidth : Nat → Option Nat
  | 0 => some 8
  | 5 => some 16
  | 6 => some 32
  | 7 => some 64
  | _ => none

/-- The accesses of a vector load or store; none is illegal. -/
def vMemOf (k : Carrel) (w : Nat) (store : Bool) : Option VMem :=
  let vd := rvf w 7 5
  let base := (k.xget (rvf w 15 5)).toNat
  let r2 := rvf w 20 5
  let vm := rvf w 25 1 == 1
  let fields := rvf w 29 3 + 1
  match vWidth (rvf w 12 3) with
  | none => none
  | some ew =>
    if rvf w 28 1 != 0 then none
    else if rvf w 26 2 == 0 && r2 == 8 then
      -- whole registers
      if !vm || !([1, 2, 4, 8].contains fields) || vd % fields != 0 || (store && ew != 8) then none
      else
        let evl := fields * 256 / ew
        some (VMem.mk ew [] 0 evl false false false
            (vFields k.vstart evl 1 1 vd fun i _ => base + i * (ew / 8)))
    else match vsetOf k vm with
    | none => none
    | some c =>
      if rvf w 26 2 == 0 && r2 == 11 then
        if !vm || ew != 8 || fields != 1 then none
        else
          let evl := (c.vl + 7) / 8
          some (VMem.mk 8 [vd] 0 evl false false true
            (vFields k.vstart evl 1 1 vd fun i _ => base + i))
      else
        let indexed := rvf w 26 1 == 1
        let dw := if indexed then c.sew else ew
        let lm := c.emul dw
        let per := regsOf lm
        let ff := rvf w 26 2 == 0 && r2 == 16
        let regs := (List.range fields).map fun j => vd + j * per
        if (rvf w 26 2 == 0 && r2 != 0 && !(ff && !store)) || lm < -3 || lm > 3 || vd % per != 0 || fields * per > 8 || vd + fields * per > 32 ||
          (!store && !vm && vd == 0) then none
        else if indexed then
          let il := c.emul ew
          let apartAll := apart vd (fields * per) r2 (regsOf il)
          if il < -3 || il > 3 || r2 % regsOf il != 0 || (!vm && r2 == 0) ||
            (!store && (if fields == 1 then !c.srcOk vd lm dw r2 il ew else !apartAll)) then none
          else some (VMem.mk dw regs lm c.vl (!vm) false c.vta
            (vFields k.vstart c.vl fields per vd fun i j => base + k.vget ew r2 i + j * (dw / 8)))
        else
          let stride := if rvf w 26 2 == 2 then (k.xget r2).toNat else fields * (ew / 8)
          some (VMem.mk ew regs lm c.vl (!vm) ff c.vta
            (vFields k.vstart c.vl fields per vd fun i j => base + i * stride + j * (ew / 8)))

/-- The elements a load did not compute: inactive ones, and the tail. -/
def vLoadRest (k : Carrel) (free : Nat → Nat) (m : VMem) : Carrel :=
  let vma := rvf k.vtype.toNat 7 1 == 1
  m.regs.foldl (fun k v => (List.range (regsOf m.lm * 256 / m.ew)).foldl (fun k i =>
    if i ≥ m.evl then agnostic free k m.vta m.ew v i
    else if i ≥ k.vstart && m.masked && k.vget 1 0 i == 0 then agnostic free k vma m.ew v i
    else k) k) k

/-- The accesses of a load one after another: a page that is absent suspends the carrel at its element, a fault ends the episode
there, and a fault-only-first load past element 0 shortens vl instead. -/
def vLoadGo (die c : Nat) (m : VMem) (free : Nat → Nat) : List VAcc → State → State
  | [], s => rvNext s die c 4 fun k => { vLoadRest k free m with vstart := 0 }
  | a :: rest, s =>
    if m.masked && (s.carrel die c).vget 1 0 a.i == 0 then vLoadGo die c m free rest s
    else
      let short (s : State) : State := rvNext s die c 4 fun k => { k with vl := a.i, vstart := 0 }
      let mark (s : State) : State := s.onCarrel die c fun k => { k with vstart := a.i }
      match hartRead s die c a.addr (m.ew / 8) false with
      | .ok bs s => vLoadGo die c m free rest (s.onCarrel die c fun k => k.vput m.ew a.reg a.idx (leNat bs))
      | .absent va s => if m.ff && a.i != 0 then short s else suspendCarrel (mark s) die c va false
      | .fault x s => if m.ff && a.i != 0 then short s else raiseCarrel (mark s) die c 5 (BitVec.ofNat 64 x)

/-- The accesses of a store one after another. -/
def vStoreGo (die c : Nat) (m : VMem) : List VAcc → State → State
  | [], s => rvNext s die c 4 fun k => { k with vstart := 0 }
  | a :: rest, s =>
    let k := s.carrel die c
    if m.masked && k.vget 1 0 a.i == 0 then vStoreGo die c m rest s
    else
      let mark (s : State) : State := s.onCarrel die c fun k => { k with vstart := a.i }
      match hartWrite s die c a.addr (leBytes (m.ew / 8) (k.vget m.ew a.reg a.idx)) with
      | .ok _ s => vStoreGo die c m rest s
      | .absent va s => suspendCarrel (mark s) die c va true
      | .fault x s => raiseCarrel (mark s) die c 7 (BitVec.ofNat 64 x)

/-- A vector load or store. -/
def vLoadStore (s : State) (die c w : Nat) (store : Bool) (word : W64) : State :=
  match vMemOf (s.carrel die c) w store with
  | none => raiseCarrel s die c 2 word
  | some m =>
    if (s.carrel die c).vstart ≥ m.evl then rvNext s die c 4 fun k => { k with vstart := 0 }
    else if store then vStoreGo die c m m.accs s
    else vLoadGo die c m (fun i => s.pick (2000 + i) (2 ^ 64)) m.accs s

/-- OP-V. -/
def rvVector (s : State) (die c w : Nat) (word : W64) : State :=
  match vOp (s.carrel die c) (fun i => s.pick (1000 + i) (2 ^ 64)) w with
  | none => raiseCarrel s die c 2 word
  | some k => rvNext s die c 4 fun _ => k

end Sys2Proof.Machine
end

