-- ==== Sys2Proof/Machine/Riscv.lean ====
section
/-! DEFINITION. RISCV_LOADS_AND_STORES: every instruction of a carrel's base architecture, RV64GCV (R221, R312). -/

namespace Sys2Proof.Machine

/-- A 32-bit instruction of `len` bytes in memory, `word` being what an illegal one reports. -/
def rvExec (s : State) (die c w len : Nat) (word : W64) : State :=
  let k := s.carrel die c
  let ill := raiseCarrel s die c 2 word
  let rd := rvf w 7 5
  let f3 := rvf w 12 3
  let r1 := (k.xget (rvf w 15 5)).toNat
  let r2 := (k.xget (rvf w 20 5)).toNat
  let pc := k.pc.toNat
  let link (k : Carrel) : Carrel := k.xset rd (BitVec.ofNat 64 (pc + len))
  match w % 128 with
  | 0x37 => rvWrite s die c len rd (immU w)
  | 0x17 => rvWrite s die c len rd (pc + immU w)
  | 0x6F => rvJump s die c (pc + immJ w) link
  | 0x67 => if f3 != 0 then ill else rvJump s die c ((r1 + immI w) % 2 ^ 64 / 2 * 2) link
  | 0x63 =>
    if f3 == 2 || f3 == 3 then ill
    else if rvBranch f3 r1 r2 then rvJump s die c (pc + immB w) id
    else rvNext s die c len id
  | 0x03 => rvLoads s die c w len word
  | 0x23 => rvStores s die c w len word
  | 0x13 => rvOpImm s die c w len 64 word
  | 0x1B => rvOpImm s die c w len 32 word
  | 0x33 => rvOp s die c w len 64 word
  | 0x3B => rvOp s die c w len 32 word
  -- a FENCE acts at .die (R221), where every access of a carrel is performed in its order already; FENCE.I likewise
  | 0x0F => if f3 > 1 then ill else rvNext s die c len id
  | 0x73 => rvSystem s die c w len word
  | 0x2F => rvA s die c w len word
  | 0x07 => match f3 with
    | 2 => rvFloatLoad s die c w len fp32
    | 3 => rvFloatLoad s die c w len fp64
    | _ => vLoadStore s die c w false word
  | 0x27 => match f3 with
    | 2 => rvFloatStore s die c w len fp32
    | 3 => rvFloatStore s die c w len fp64
    | _ => vLoadStore s die c w true word
  | 0x43 => rvFused s die c w len word
  | 0x47 => rvFused s die c w len word
  | 0x4B => rvFused s die c w len word
  | 0x4F => rvFused s die c w len word
  | 0x53 => rvOpFp s die c w len word
  | 0x57 => rvVector s die c w word
  | _ => ill

/-- RISCV_LOADS_AND_STORES (R221, R312). -/
def execRiscvLoadsAndStores (w : W32) (compressed : Bool) (s : State) : Host.Outcome State Fault Refusal :=
  hartWord s fun die c =>
    if compressed then match rvExpand w.toNat with
      | some x => rvExec s die c x 2 (w.zeroExtend 64)
      | none => raiseCarrel s die c 2 (w.zeroExtend 64)
    else rvExec s die c w.toNat 4 (w.zeroExtend 64)

end Sys2Proof.Machine
end

