-- ==== Sys2Proof/Machine/VectorClock.lean ====
section
/-! DEFINITION. VVCMP, VVMAX and VVINC (R311). -/

namespace Sys2Proof.Machine

/-- A vector octet as a version vector: entry k in register k / 2 (R298). -/
def vecOfWords (ws : List W32) : List W16 :=
  vecMap fun k => (ws.getD (k / 2) 0).extractLsb' (16 * (k % 2)) 16

def wordsOfVec (v : List W16) : List W32 := (List.range 8).map fun i => vecAt v (2 * i + 1) ++ vecAt v (2 * i)

/-- VVCMP (R299, R311). -/
def vecRelation (a b : List W16) : W32 :=
  match covers a b, covers b a with
  | true, true => 0
  | true, false => 1
  | false, true => 2
  | false, false => 3

def Env.octet (e : Env) (l : LaneAt) (o : Opnd) : List W16 := vecOfWords (e.vregs l o 8)

/-- VVCMP (R311). -/
def execVvcmp (f : Form) (s : State) : Host.Outcome State Fault Refusal :=
  laneWord 0xD0 f s fun e l => [.w32 f.d (vecRelation (e.octet l f.a) (e.octet l f.b))]

/-- VVMAX (R311). -/
def execVvmax (f : Form) (s : State) : Host.Outcome State Fault Refusal :=
  laneWord 0xD1 f s fun e l => [.group f.d (wordsOfVec (vecMax (e.octet l f.a) (e.octet l f.b)))]

/-- VVINC (R311). -/
def execVvinc (f : Form) (s : State) : Host.Outcome State Fault Refusal :=
  laneWord 0xD2 f s fun e l =>
    let a := e.octet l f.a
    let i := (e.src l f.b .int).toNat % 16
    [.group f.d (wordsOfVec (vecMap fun k => if k == i then vecAt a k + 1 else vecAt a k))]

end Sys2Proof.Machine
end

