-- ==== Sys2Proof/Machine/Dispatch.lean ====
section
/-! DEFINITION. The meaning of every instruction and event of the opcode table: one arm per constructor. -/

namespace Sys2Proof.Machine

/-- The instruction's effect on the state. -/
def exec (i : Instr) (s : State) : Host.Outcome State Fault Refusal :=
  match i with
  | .clause h => Sys2Proof.Machine.execClause h s
  | .nop f => Sys2Proof.Machine.execNop f s
  | .bra f => Sys2Proof.Machine.execBra f s
  | .brx f => Sys2Proof.Machine.execBrx f s
  | .call f => Sys2Proof.Machine.execCall f s
  | .callx f => Sys2Proof.Machine.execCallx f s
  | .ret f => Sys2Proof.Machine.execRet f s
  | .exit f => Sys2Proof.Machine.execExit f s
  | .trap f => Sys2Proof.Machine.execTrap f s
  | .brk f => Sys2Proof.Machine.execBrk f s
  | .yield f => Sys2Proof.Machine.execYield f s
  | .sleep f => Sys2Proof.Machine.execSleep f s
  | .assert f => Sys2Proof.Machine.execAssert f s
  | .svc f => Sys2Proof.Machine.execSvc f s
  | .eret f => Sys2Proof.Machine.execEret f s
  | .udf f => Sys2Proof.Machine.execUdf f s
  | .iadd f => Sys2Proof.Machine.execIadd f s
  | .isub f => Sys2Proof.Machine.execIsub f s
  | .imul f => Sys2Proof.Machine.execImul f s
  | .imulh f => Sys2Proof.Machine.execImulh f s
  | .imad f => Sys2Proof.Machine.execImad f s
  | .imadw f => Sys2Proof.Machine.execImadw f s
  | .idiv f => Sys2Proof.Machine.execIdiv f s
  | .irem f => Sys2Proof.Machine.execIrem f s
  | .imin f => Sys2Proof.Machine.execImin f s
  | .imax f => Sys2Proof.Machine.execImax f s
  | .iabs f => Sys2Proof.Machine.execIabs f s
  | .ineg f => Sys2Proof.Machine.execIneg f s
  | .iaddc f => Sys2Proof.Machine.execIaddc f s
  | .isubb f => Sys2Proof.Machine.execIsubb f s
  | .isad f => Sys2Proof.Machine.execIsad f s
  | .idot4 f => Sys2Proof.Machine.execIdot4 f s
  | .ladd f => Sys2Proof.Machine.execLadd f s
  | .lsub f => Sys2Proof.Machine.execLsub f s
  | .lmul f => Sys2Proof.Machine.execLmul f s
  | .lmad f => Sys2Proof.Machine.execLmad f s
  | .lshl f => Sys2Proof.Machine.execLshl f s
  | .lshr f => Sys2Proof.Machine.execLshr f s
  | .lsar f => Sys2Proof.Machine.execLsar f s
  | .lmin f => Sys2Proof.Machine.execLmin f s
  | .lmax f => Sys2Proof.Machine.execLmax f s
  | .land f => Sys2Proof.Machine.execLand f s
  | .lor f => Sys2Proof.Machine.execLor f s
  | .lxor f => Sys2Proof.Machine.execLxor f s
  | .lea f => Sys2Proof.Machine.execLea f s
  | .lneg f => Sys2Proof.Machine.execLneg f s
  | .ldiv f => Sys2Proof.Machine.execLdiv f s
  | .lrem f => Sys2Proof.Machine.execLrem f s
  | .and f => Sys2Proof.Machine.execAnd f s
  | .or f => Sys2Proof.Machine.execOr f s
  | .xor f => Sys2Proof.Machine.execXor f s
  | .not f => Sys2Proof.Machine.execNot f s
  | .andn f => Sys2Proof.Machine.execAndn f s
  | .lop3 f => Sys2Proof.Machine.execLop3 f s
  | .shl f => Sys2Proof.Machine.execShl f s
  | .shr f => Sys2Proof.Machine.execShr f s
  | .sar f => Sys2Proof.Machine.execSar f s
  | .rotl f => Sys2Proof.Machine.execRotl f s
  | .funsh f => Sys2Proof.Machine.execFunsh f s
  | .popc f => Sys2Proof.Machine.execPopc f s
  | .clz f => Sys2Proof.Machine.execClz f s
  | .brev f => Sys2Proof.Machine.execBrev f s
  | .bfe f => Sys2Proof.Machine.execBfe f s
  | .bfi f => Sys2Proof.Machine.execBfi f s
  | .isetp f => Sys2Proof.Machine.execIsetp f s
  | .lsetp f => Sys2Proof.Machine.execLsetp f s
  | .fsetp f => Sys2Proof.Machine.execFsetp f s
  | .psetp f => Sys2Proof.Machine.execPsetp f s
  | .sel f => Sys2Proof.Machine.execSel f s
  | .mov f => Sys2Proof.Machine.execMov f s
  | .movi f => Sys2Proof.Machine.execMovi f s
  | .movs f => Sys2Proof.Machine.execMovs f s
  | .rdlane f => Sys2Proof.Machine.execRdlane f s
  | .bcast f => Sys2Proof.Machine.execBcast f s
  | .ptov f => Sys2Proof.Machine.execPtov f s
  | .vtop f => Sys2Proof.Machine.execVtop f s
  | .clamp f => Sys2Proof.Machine.execClamp f s
  | .clock f => Sys2Proof.Machine.execClock f s
  | .prmt f => Sys2Proof.Machine.execPrmt f s
  | .movhi f => Sys2Proof.Machine.execMovhi f s
  | .shfl f => Sys2Proof.Machine.execShfl f s
  | .shflx f => Sys2Proof.Machine.execShflx f s
  | .shflu f => Sys2Proof.Machine.execShflu f s
  | .shfld f => Sys2Proof.Machine.execShfld f s
  | .voteany f => Sys2Proof.Machine.execVoteany f s
  | .voteall f => Sys2Proof.Machine.execVoteall f s
  | .ballot f => Sys2Proof.Machine.execBallot f s
  | .matchEq f => Sys2Proof.Machine.execMatchEq f s
  | .redux f => Sys2Proof.Machine.execRedux f s
  | .join f => Sys2Proof.Machine.execJoin f s
  | .leave f => Sys2Proof.Machine.execLeave f s
  | .jwait f => Sys2Proof.Machine.execJwait f s
  | .jwaitComplete core slot mask => Sys2Proof.Machine.execJwaitComplete core slot mask s
  | .jset f => Sys2Proof.Machine.execJset f s
  | .jget f => Sys2Proof.Machine.execJget f s
  | .reform f => Sys2Proof.Machine.execReform f s
  | .reformWaitFile core => Sys2Proof.Machine.execReformWaitFile core s
  | .binDrawAge core bin => Sys2Proof.Machine.execBinDrawAge core bin s
  | .rejoin f => Sys2Proof.Machine.execRejoin f s
  | .bara f => Sys2Proof.Machine.execBara f s
  | .barw f => Sys2Proof.Machine.execBarw f s
  | .baraw f => Sys2Proof.Machine.execBaraw f s
  | .bard f => Sys2Proof.Machine.execBard f s
  | .bart f => Sys2Proof.Machine.execBart f s
  | .bartTimeout core slot lane => Sys2Proof.Machine.execBartTimeout core slot lane s
  | .barinit f => Sys2Proof.Machine.execBarinit f s
  | .fence f => Sys2Proof.Machine.execFence f s
  | .prefw f => Sys2Proof.Machine.execPrefw f s
  | .wbw f => Sys2Proof.Machine.execWbw f s
  | .invw f => Sys2Proof.Machine.execInvw f s
  | .disw f => Sys2Proof.Machine.execDisw f s
  | .winmap f => Sys2Proof.Machine.execWinmap f s
  | .lmon f => Sys2Proof.Machine.execLmon f s
  | .lmwait f => Sys2Proof.Machine.execLmwait f s
  | .lmwaitWake core slot lane => Sys2Proof.Machine.execLmwaitWake core slot lane s
  | .lmwaitTimeout core slot lane => Sys2Proof.Machine.execLmwaitTimeout core slot lane s
  | .elect f => Sys2Proof.Machine.execElect f s
  | .active f => Sys2Proof.Machine.execActive f s
  | .ldl8 f => Sys2Proof.Machine.execLdl8 f s
  | .ldl16 f => Sys2Proof.Machine.execLdl16 f s
  | .ldl32 f => Sys2Proof.Machine.execLdl32 f s
  | .ldl64 f => Sys2Proof.Machine.execLdl64 f s
  | .ldl128 f => Sys2Proof.Machine.execLdl128 f s
  | .stl8 f => Sys2Proof.Machine.execStl8 f s
  | .stl16 f => Sys2Proof.Machine.execStl16 f s
  | .stl32 f => Sys2Proof.Machine.execStl32 f s
  | .stl64 f => Sys2Proof.Machine.execStl64 f s
  | .stl128 f => Sys2Proof.Machine.execStl128 f s
  | .ldls f => Sys2Proof.Machine.execLdls f s
  | .stls f => Sys2Proof.Machine.execStls f s
  | .ldlm f => Sys2Proof.Machine.execLdlm f s
  | .stlm f => Sys2Proof.Machine.execStlm f s
  | .ldf f => Sys2Proof.Machine.execLdf f s
  | .stf f => Sys2Proof.Machine.execStf f s
  | .atladd f => Sys2Proof.Machine.execAtladd f s
  | .atlmin f => Sys2Proof.Machine.execAtlmin f s
  | .atlmax f => Sys2Proof.Machine.execAtlmax f s
  | .atland f => Sys2Proof.Machine.execAtland f s
  | .atlor f => Sys2Proof.Machine.execAtlor f s
  | .atlxor f => Sys2Proof.Machine.execAtlxor f s
  | .atlxch f => Sys2Proof.Machine.execAtlxch f s
  | .atlcas f => Sys2Proof.Machine.execAtlcas f s
  | .atlfadd f => Sys2Proof.Machine.execAtlfadd f s
  | .atlinc f => Sys2Proof.Machine.execAtlinc f s
  | .atldec f => Sys2Proof.Machine.execAtldec f s
  | .atlladd f => Sys2Proof.Machine.execAtlladd f s
  | .atllcas f => Sys2Proof.Machine.execAtllcas f s
  | .atllxch f => Sys2Proof.Machine.execAtllxch f s
  | .atlfmin f => Sys2Proof.Machine.execAtlfmin f s
  | .atlfmax f => Sys2Proof.Machine.execAtlfmax f s
  | .fadd f => Sys2Proof.Machine.execFadd f s
  | .fsub f => Sys2Proof.Machine.execFsub f s
  | .fmul f => Sys2Proof.Machine.execFmul f s
  | .ffma f => Sys2Proof.Machine.execFfma f s
  | .fmin f => Sys2Proof.Machine.execFmin f s
  | .fmax f => Sys2Proof.Machine.execFmax f s
  | .frcp f => Sys2Proof.Machine.execFrcp f s
  | .frsq f => Sys2Proof.Machine.execFrsq f s
  | .fsqrt f => Sys2Proof.Machine.execFsqrt f s
  | .fdiv f => Sys2Proof.Machine.execFdiv f s
  | .fsin f => Sys2Proof.Machine.execFsin f s
  | .fcos f => Sys2Proof.Machine.execFcos f s
  | .fexp2 f => Sys2Proof.Machine.execFexp2 f s
  | .flog2 f => Sys2Proof.Machine.execFlog2 f s
  | .ftanh f => Sys2Proof.Machine.execFtanh f s
  | .fclass f => Sys2Proof.Machine.execFclass f s
  | .hadd2 f => Sys2Proof.Machine.execHadd2 f s
  | .hsub2 f => Sys2Proof.Machine.execHsub2 f s
  | .hmul2 f => Sys2Proof.Machine.execHmul2 f s
  | .hfma2 f => Sys2Proof.Machine.execHfma2 f s
  | .hmin2 f => Sys2Proof.Machine.execHmin2 f s
  | .hmax2 f => Sys2Proof.Machine.execHmax2 f s
  | .fdot2 f => Sys2Proof.Machine.execFdot2 f s
  | .fdot4 f => Sys2Proof.Machine.execFdot4 f s
  | .cvtf f => Sys2Proof.Machine.execCvtf f s
  | .cvtfi f => Sys2Proof.Machine.execCvtfi f s
  | .cvtif f => Sys2Proof.Machine.execCvtif f s
  | .cvtpk f => Sys2Proof.Machine.execCvtpk f s
  | .cvtupk f => Sys2Proof.Machine.execCvtupk f s
  | .fscale f => Sys2Proof.Machine.execFscale f s
  | .fround f => Sys2Proof.Machine.execFround f s
  | .fcopysign f => Sys2Proof.Machine.execFcopysign f s
  | .cpost f => Sys2Proof.Machine.execCpost f s
  | .cpostAppend core cls => Sys2Proof.Machine.execCpostAppend core cls s
  | .cfence f => Sys2Proof.Machine.execCfence f s
  | .cstat f => Sys2Proof.Machine.execCstat f s
  | .ccancel f => Sys2Proof.Machine.execCcancel f s
  | .swaitany f => Sys2Proof.Machine.execSwaitany f s
  | .swaitall f => Sys2Proof.Machine.execSwaitall f s
  | .slipWaitReturn core slot bid => Sys2Proof.Machine.execSlipWaitReturn core slot bid s
  | .sfind f => Sys2Proof.Machine.execSfind f s
  | .stry f => Sys2Proof.Machine.execStry f s
  | .stryTimeout core slot bid => Sys2Proof.Machine.execStryTimeout core slot bid s
  | .sclr f => Sys2Proof.Machine.execSclr f s
  | .sread f => Sys2Proof.Machine.execSread f s
  | .ringwait f => Sys2Proof.Machine.execRingwait f s
  | .ringwaitTimeout core slot bid => Sys2Proof.Machine.execRingwaitTimeout core slot bid s
  | .ringack f => Sys2Proof.Machine.execRingack f s
  | .ringackInit f => Sys2Proof.Machine.execRingackInit f s
  | .qpush f => Sys2Proof.Machine.execQpush f s
  | .qpop f => Sys2Proof.Machine.execQpop f s
  | .qpeek f => Sys2Proof.Machine.execQpeek f s
  | .qstat f => Sys2Proof.Machine.execQstat f s
  | .queueAccessResume core slot bid => Sys2Proof.Machine.execQueueAccessResume core slot bid s
  | .fclaim f => Sys2Proof.Machine.execFclaim f s
  | .frel f => Sys2Proof.Machine.execFrel f s
  | .aclaim f => Sys2Proof.Machine.execAclaim f s
  | .arel f => Sys2Proof.Machine.execArel f s
  | .resourceZero core tile idx => Sys2Proof.Machine.execResourceZero core tile idx s
  | .mlatch f => Sys2Proof.Machine.execMlatch f s
  | .mstream f => Sys2Proof.Machine.execMstream f s
  | .mdrain f => Sys2Proof.Machine.execMdrain f s
  | .mzero f => Sys2Proof.Machine.execMzero f s
  | .mstat f => Sys2Proof.Machine.execMstat f s
  | .mfence f => Sys2Proof.Machine.execMfence f s
  | .scalerd f => Sys2Proof.Machine.execScalerd f s
  | .amaxp f => Sys2Proof.Machine.execAmaxp f s
  | .accrd f => Sys2Proof.Machine.execAccrd f s
  | .accwr f => Sys2Proof.Machine.execAccwr f s
  | .fzero f => Sys2Proof.Machine.execFzero f s
  | .mcmd f => Sys2Proof.Machine.execMcmd f s
  | .matrixAppend core slot bid => Sys2Proof.Machine.execMatrixAppend core slot bid s
  | .latch core op => Sys2Proof.Machine.execLatch core op s
  | .stream core op => Sys2Proof.Machine.execStream core op s
  | .drain core op => Sys2Proof.Machine.execDrain core op s
  | .zero core op => Sys2Proof.Machine.execZero core op s
  | .planeReload core team => Sys2Proof.Machine.execPlaneReload core team s
  | .vvcmp f => Sys2Proof.Machine.execVvcmp f s
  | .vvmax f => Sys2Proof.Machine.execVvmax f s
  | .vvinc f => Sys2Proof.Machine.execVvinc f s
  | .srrd f => Sys2Proof.Machine.execSrrd f s
  | .srwr f => Sys2Proof.Machine.execSrwr f s
  | .cresumeDock f => Sys2Proof.Machine.execCresumeDock f s
  | .cresumeRec f => Sys2Proof.Machine.execCresumeRec f s
  | .csave f => Sys2Proof.Machine.execCsave f s
  | .accsave f => Sys2Proof.Machine.execAccsave f s
  | .accload f => Sys2Proof.Machine.execAccload f s
  | .teamkill f => Sys2Proof.Machine.execTeamkill f s
  | .dockpop f => Sys2Proof.Machine.execDockpop f s
  | .dockpopWake core slot bid => Sys2Proof.Machine.execDockpopWake core slot bid s
  | .leaseq f => Sys2Proof.Machine.execLeaseq f s
  | .leaseqWaitEnd core slot bid => Sys2Proof.Machine.execLeaseqWaitEnd core slot bid s
  | .perfrd f => Sys2Proof.Machine.execPerfrd f s
  | .perfctl f => Sys2Proof.Machine.execPerfctl f s
  | .seed f => Sys2Proof.Machine.execSeed f s
  | .rand f => Sys2Proof.Machine.execRand f s
  | .epopen f => Sys2Proof.Machine.execEpopen f s
  | .epclose f => Sys2Proof.Machine.execEpclose f s
  | .epstat f => Sys2Proof.Machine.execEpstat f s
  | .polset f => Sys2Proof.Machine.execPolset f s
  | .mbxbind f => Sys2Proof.Machine.execMbxbind f s
  | .mbxrel f => Sys2Proof.Machine.execMbxrel f s
  | .grprd f => Sys2Proof.Machine.execGrprd f s
  | .homeof f => Sys2Proof.Machine.execHomeof f s
  | .iadd3 f => Sys2Proof.Machine.execIadd3 f s
  | .iscadd f => Sys2Proof.Machine.execIscadd f s
  | .bmsk f => Sys2Proof.Machine.execBmsk f s
  | .bfind f => Sys2Proof.Machine.execBfind f s
  | .flerp f => Sys2Proof.Machine.execFlerp f s
  | .fsat f => Sys2Proof.Machine.execFsat f s
  | .fexp f => Sys2Proof.Machine.execFexp f s
  | .fract f => Sys2Proof.Machine.execFract f s
  | .dadd f => Sys2Proof.Machine.execDadd f s
  | .dsub f => Sys2Proof.Machine.execDsub f s
  | .dmul f => Sys2Proof.Machine.execDmul f s
  | .dfma f => Sys2Proof.Machine.execDfma f s
  | .dmin f => Sys2Proof.Machine.execDmin f s
  | .dmax f => Sys2Proof.Machine.execDmax f s
  | .ddiv f => Sys2Proof.Machine.execDdiv f s
  | .dsqrt f => Sys2Proof.Machine.execDsqrt f s
  | .drcp f => Sys2Proof.Machine.execDrcp f s
  | .dsetp f => Sys2Proof.Machine.execDsetp f s
  | .cvtd f => Sys2Proof.Machine.execCvtd f s
  | .cvtdi f => Sys2Proof.Machine.execCvtdi f s
  | .cvtid f => Sys2Proof.Machine.execCvtid f s
  | .dround f => Sys2Proof.Machine.execDround f s
  | .dclass f => Sys2Proof.Machine.execDclass f s
  | .dscale f => Sys2Proof.Machine.execDscale f s
  | .longLatencyComplete core id sample => Sys2Proof.Machine.execLongLatencyComplete core id sample s
  | .monitorEntry core slot bid => Sys2Proof.Machine.execMonitorEntry core slot bid s
  | .sleepEnd core slot lane => Sys2Proof.Machine.execSleepEnd core slot lane s
  | .waveRetire core slot => Sys2Proof.Machine.execWaveRetire core slot s
  | .teamRetire team => Sys2Proof.Machine.execTeamRetire team s
  | .teamAdmit die => Sys2Proof.Machine.execTeamAdmit die s
  | .teamQueueStart core => Sys2Proof.Machine.execTeamQueueStart core s
  | .stealRequest core => Sys2Proof.Machine.execStealRequest core s
  | .stealAnswer core => Sys2Proof.Machine.execStealAnswer core s
  | .stealBackoffEnd core => Sys2Proof.Machine.execStealBackoffEnd core s
  | .commandDispatch die => Sys2Proof.Machine.execCommandDispatch die s
  | .poolGrow die => Sys2Proof.Machine.execPoolGrow die s
  | .carveComplete core => Sys2Proof.Machine.execCarveComplete core s
  | .wayReturn core way => Sys2Proof.Machine.execWayReturn core way s
  | .windowFillComplete core mse => Sys2Proof.Machine.execWindowFillComplete core mse s
  | .parkedReplay core slot bid => Sys2Proof.Machine.execParkedReplay core slot bid s
  | .writebackRetry core line => Sys2Proof.Machine.execWritebackRetry core line s
  | .claimWaitEnd core slot bid => Sys2Proof.Machine.execClaimWaitEnd core slot bid s
  | .tcopy cmd elem => Sys2Proof.Machine.execTcopy cmd elem s
  | .gather cmd elem => Sys2Proof.Machine.execGather cmd elem s
  | .scatter cmd elem => Sys2Proof.Machine.execScatter cmd elem s
  | .conv cmd elem => Sys2Proof.Machine.execConv cmd elem s
  | .fill cmd elem => Sys2Proof.Machine.execFill cmd elem s
  | .atom cmd elem => Sys2Proof.Machine.execAtom cmd elem s
  | .watch cmd => Sys2Proof.Machine.execWatch cmd s
  | .watchSatisfied cmd => Sys2Proof.Machine.execWatchSatisfied cmd s
  | .watchTimeout cmd => Sys2Proof.Machine.execWatchTimeout cmd s
  | .recon cmd elem => Sys2Proof.Machine.execRecon cmd elem s
  | .reconEpochAdvance cmd => Sys2Proof.Machine.execReconEpochAdvance cmd s
  | .cache cmd elem => Sys2Proof.Machine.execCache cmd elem s
  | .coll cmd => Sys2Proof.Machine.execColl cmd s
  | .fenceCommand cmd => Sys2Proof.Machine.execFenceCommand cmd s
  | .launchCommand cmd => Sys2Proof.Machine.execLaunchCommand cmd s
  | .tswap cmd => Sys2Proof.Machine.execTswap cmd s
  | .malformedComplete cmd => Sys2Proof.Machine.execMalformedComplete cmd s
  | .heldFaultWrite ctx => Sys2Proof.Machine.execHeldFaultWrite ctx s
  | .followOnHandover cmd => Sys2Proof.Machine.execFollowOnHandover cmd s
  | .commandComplete cmd => Sys2Proof.Machine.execCommandComplete cmd s
  | .ringRecordResume cmd => Sys2Proof.Machine.execRingRecordResume cmd s
  | .preemptTeam team => Sys2Proof.Machine.execPreemptTeam team s
  | .teamRestore team => Sys2Proof.Machine.execTeamRestore team s
  | .pageWalk die => Sys2Proof.Machine.execPageWalk die s
  | .mbxPush rs1 => Sys2Proof.Machine.execMbxPush rs1 s
  | .mbxPop rd rs1 rs2 => Sys2Proof.Machine.execMbxPop rd rs1 rs2 s
  | .mbxPeek rd rs1 => Sys2Proof.Machine.execMbxPeek rd rs1 s
  | .stepDone rs1 => Sys2Proof.Machine.execStepDone rs1 s
  | .arenaSync rs1 => Sys2Proof.Machine.execArenaSync rs1 s
  | .carrelWaitResume die carrel => Sys2Proof.Machine.execCarrelWaitResume die carrel s
  | .carrelException die carrel => Sys2Proof.Machine.execCarrelException die carrel s
  | .carrelPageFault die carrel => Sys2Proof.Machine.execCarrelPageFault die carrel s
  | .deadlineTimeout die carrel => Sys2Proof.Machine.execDeadlineTimeout die carrel s
  | .budgetTimeout die carrel => Sys2Proof.Machine.execBudgetTimeout die carrel s
  | .heldObservationPost die carrel => Sys2Proof.Machine.execHeldObservationPost die carrel s
  | .peerReadRequest r => Sys2Proof.Machine.execPeerReadRequest r s
  | .peerWriteNotice r => Sys2Proof.Machine.execPeerWriteNotice r s
  | .peerAck cmd elem data fault => Sys2Proof.Machine.execPeerAck cmd elem data fault s
  | .flitReplay port => Sys2Proof.Machine.execFlitReplay port s
  | .digestReceive die slot dg => Sys2Proof.Machine.execDigestReceive die slot dg s
  | .collTimeout cmd => Sys2Proof.Machine.execCollTimeout cmd s
  | .chunkSelect port => Sys2Proof.Machine.execChunkSelect port s
  | .hello m => Sys2Proof.Machine.execHello m s
  | .keyx h key => Sys2Proof.Machine.execKeyx h key s
  | .handshakeTimeout session => Sys2Proof.Machine.execHandshakeTimeout session s
  | .sessionIdleTimeout session => Sys2Proof.Machine.execSessionIdleTimeout session s
  | .protocolIllegal h => Sys2Proof.Machine.execProtocolIllegal h s
  | .hostWrite h asid va data => Sys2Proof.Machine.execHostWrite h asid va data s
  | .hostRead h asid va len => Sys2Proof.Machine.execHostRead h asid va len s
  | .hostLaunch h packet => Sys2Proof.Machine.execHostLaunch h packet s
  | .register h r => Sys2Proof.Machine.execRegister h r s
  | .controlPreempt h ctx => Sys2Proof.Machine.execControlPreempt h ctx s
  | .controlResume h ctx => Sys2Proof.Machine.execControlResume h ctx s
  | .controlUnfreeze h m => Sys2Proof.Machine.execControlUnfreeze h m s
  | .controlEpochAdvance h ctx idx => Sys2Proof.Machine.execControlEpochAdvance h ctx idx s
  | .controlClearOvf h ctx => Sys2Proof.Machine.execControlClearOvf h ctx s
  | .controlReset h => Sys2Proof.Machine.execControlReset h s
  | .close h => Sys2Proof.Machine.execClose h s
  | .powerOn => Sys2Proof.Machine.execPowerOn s
  | .resetInput => Sys2Proof.Machine.execResetInput s
  | .powerLimit => Sys2Proof.Machine.execPowerLimit s
  | .thermalStop die => Sys2Proof.Machine.execThermalStop die s
  | .riscvLoadsAndStores w compressed => Sys2Proof.Machine.execRiscvLoadsAndStores w compressed s
  | .uncorrectableError loc => Sys2Proof.Machine.execUncorrectableError loc s
  | .powerFallsBelowLimit => Sys2Proof.Machine.execPowerFallsBelowLimit s
  | .peerReadResponse cmd elem data fault => Sys2Proof.Machine.execPeerReadResponse cmd elem data fault s
  | .sequenceClosing die slot seq => Sys2Proof.Machine.execSequenceClosing die slot seq s
  | .collectiveAbort die slot seq => Sys2Proof.Machine.execCollectiveAbort die slot seq s
  | .flitBoundary port => Sys2Proof.Machine.execFlitBoundary port s

end Sys2Proof.Machine
end

