-- ==== Sys2Proof/Machine/Elapse.lean ====
section
/-! DEFINITION. Time passes: what a copy engine must perform before a translation that it has passed lapses (R233, R336, R350),
and then the clock (R14). -/

namespace Sys2Proof.Machine

/-- The source of an element, with the scale of its block, is read now: neither is translated again (R208). -/
def takeWhole (s : State) (k n : Nat) : State :=
  match takeScale s k n with
  | .ok s | .wait s => match takeElement s k n with
    | .ok s | .wait s => s
    | p => afterPerf k p
  | p => afterPerf k p

/-- An element below one already performed, before its translation lapses: where it has to wait for its local destination, what
it reads is taken (R233, R336). -/
def drainElement (k : Nat) (s : State) (n : Nat) : State :=
  let c := s.cmd k
  if c.state != .running || c.ahead.contains n || n < c.els then s
  else match (if c.kind == 6 then atomElement s k n else moveElement s k n) with
    | .ok s => s
    | .wait s => takeWhole s k n
    | p => afterPerf k p

/-- A translation under which elements of a command have been performed ahead of others lapses within dt cycles (R350). -/
def Cmd.lapsing (c : Cmd) (now dt : Nat) : Bool :=
  c.state == .running && c.kind ≤ 6 && !c.ahead.isEmpty &&
    c.passed.any fun l => now ≤ l.at_ + leaseTime && l.at_ + leaseTime ≤ now + dt

/-- Before a lapse, every element below the last that has been performed is (R233): a suspension then finds none beyond its own
(log 129). -/
def drain (s : State) (dt : Nat) : State :=
  forEach (s.cmds.filter fun x => x.2.lapsing s.now dt) s fun s x =>
    let n := x.2.ahead.foldl max 0
    ((List.range (n - x.2.els)).map (x.2.els + ·)).foldl (drainElement x.1) s

/-- The work due before a stretch of dt ec cycles, and the stretch. -/
def elapse (s : State) (dt : Nat) : State := passTime (drain s dt) dt

end Sys2Proof.Machine
end

