-- ==== Sys2Proof/Machine/Place.lean ====
section
/-! DEFINITION. Where a step fetches its next instruction, for placing one there: the loads that stand outside the machine. -/

namespace Sys2Proof.Machine

/-- Page tables that map the first GiB of address space 0 onto the first GiB of HBM (R348): the root at 0x1000, its one
table at 0x2000. -/
def placedTables : Mem := [(0x1000, 0x01), (0x1001, 0x20), (0x2000, 0x1F)]

/-- The launch of a placed word: one thread, every register declared, its code at 0x10000 (R159). -/
def placedPacket : Packet :=
  { (default : Packet) with
    codeBase := 0x10000, codeLen := 24, tx := 1, ty := 1, tz := 1, gx := 1, gy := 1, gz := 1, regs := 256, sregs := 128,
    rcb := 0x8000, dieset := 1 }

/-- A thread at an address, inside a clause of one word or at a header. -/
def placedLane (pc : VA) (c : Option ClauseCtx) : Lane := { (default : Lane) with pc := pc, clause := c }

/-- Core 0 with a team of one thread about to issue the word at 0x1000C, in a clause whose header names flags 0 and 1, or a
header at 0x10000 (R16). -/
def placeWord (s : State) (w : W96) : State :=
  let header := w.extractLsb' 0 8 == 0
  let hd : Header := { wait := 0, flagA := 0, flagB := 1, len := 0 }
  let code := if header then leBytes 12 w.toNat else leBytes 12 (encodeHeader hd).toNat ++ leBytes 12 w.toNat
  let lane := if header then placedLane 0x10000 none
    else placedLane 0x1000C (some { hdr := 0x10000, left := 1, flagA := 0, flagB := 1 })
  { s with
    agenda := [{ dt := 0, act := .quad 0 0 }]
    hbm := memWrites placedTables 0x10000 code
    roots := [(0, (0x1000, 0x8000))]
    launches := [(1, { (default : Launch) with id := 1, pkt := placedPacket })]
    teams := [(1, { (default : Team) with launch := 1, slots := [0], nwaves := 1 })]
    cores := [(0, { Core.reset 0 with
      tslots := [(0, 1)]
      waves := [(0, { (default : Wave) with team := 1, lanes := [(0, lane)], group := if header then [] else [0], credit := 1 })] })] }

/-- Carrel 0 of die 0 with a running episode about to execute the word at the start of its SRAM quarter. -/
def placeHart (s : State) (w : W32) : State :=
  { s with
    agenda := [{ dt := 0, act := .carrel 0 0 }]
    dies := [(0, { (default : Die) with
      carrels := [(0, { (default : Carrel) with
        state := .running, active := some 0, deadline := 1, budget := 1, sram := memWrites [] 0 (leBytes 4 w.toNat) })] })] }

end Sys2Proof.Machine
end

