-- ==== Sys2Proof/Machine/Step.lean ====
section
/-! DEFINITION. One step of the package: what acts next, and its effect. -/

namespace Sys2Proof.Machine

/-- The outcome with its next state changed. -/
def mapNext (o : Host.Outcome State Fault Refusal) (f : State → State) : Host.Outcome State Fault Refusal :=
  match o with
  | .next s => .next (f s)
  | .fault r => .fault r
  | .refused r => .refused r

/-- One cycle of a quadrant (R165). -/
noncomputable def stepQuad (s : State) (core q : Nat) : Host.Outcome State Fault Refusal :=
  match offer s core q with
  | .idle s1 => .next s1
  | .denied s1 => .next s1
  | .unpinned => .fault .codeNotPinned
  | .trap s1 e others => .next (afterIssue s1 core q e others)
  | .run i s1 e others => mapNext (exec i s1) fun s2 => charge i s2 core q e others

/-- One instruction of a carrel (R312). -/
noncomputable def stepHart (s : State) (die c : Nat) : Host.Outcome State Fault Refusal :=
  match hartOffer s die c with
  | none => .next s
  | some (i, s1) => mapNext (exec i s1) fun s2 => { s2 with curCarrel := none }

/-- What stands at the head of the agenda; where nothing does, what the arbiter names (R23). -/
def nextAct (s : State) : Sched × State :=
  match s.agenda with
  | a :: rest => (a, { s with agenda := rest, misordered := false })
  | [] => (Config.arbiter s.tick, { s with misordered := false })

/-- An event that comes out of the order of its cycle is not made: the agent waits (R317, R341). -/
def inTurn (s : State) (o : Host.Outcome State Fault Refusal) : Host.Outcome State Fault Refusal :=
  mapNext o fun t => if t.misordered then s else t

/-- One step: time passes and one agent acts. Cores and carrels act only while the package is up, and an event is one of the
rows that carry no word (R391, R392). -/
noncomputable def step (s : State) : Host.Outcome State Fault Refusal :=
  let (a, s) := nextAct s
  let s := { elapse s a.dt with misordered := false }
  inTurn s <| match a.act with
    | .quad core q => if s.power == .up then stepQuad s core q else .next s
    | .carrel die c => if s.power == .up then stepHart s die c else .next s
    | .hostStore addr bs => .next { s with host := memWrites s.host addr bs }
    | .event i => if (encode i).isNone && actsIn s.power i then exec i s else .next s

/-- The state with an instruction placed where the next step fetches: 96-bit words in core 0 (R54), 32-bit words in the
carrel extension (R323). -/
def State.withFetchWord (s : State) (nbits w : Nat) : State :=
  if nbits ≤ 32 then placeHart s (BitVec.ofNat 32 w) else placeWord s (BitVec.ofNat 96 w)

end Sys2Proof.Machine
end

