-- ==== Sys2Proof/Safety.lean ====
section
/-! DEFINITION. The terms in which the statements speak: when a word issues, what its lanes then hold, and what it leaves as it
was. -/

namespace Sys2Proof.Safety

open Sys2Proof.Machine

/-- A step that neither faults nor refuses. -/
def steps (s : State) : Prop := ∃ t, Machine.step s = .next t

/-! ## What a state holds -/

/-- The contents of a vector register, a scalar register and a predicate, results still outstanding apart. -/
def vreg (s : State) (core : Nat) (r : LaneRef) (k : Nat) : W32 := tgetD (s.lane core r).v k 0
def sreg (s : State) (core slot k : Nat) : W32 := tgetD (s.wave core slot).s k 0
def preg (s : State) (core : Nat) (r : LaneRef) (k : Nat) : Bool := (s.lane core r).p.getLsbD k

/-- Which register a destination names. -/
def destKey : Dest → Nat × LaneRef × Nat
  | .v r k _ => (0, r, k)
  | .s slot k _ => (1, ⟨slot, 0⟩, k)
  | .p r k _ => (2, r, k)

/-- The register of a destination holds its value; p7 takes none (R10). -/
def holds (s : State) (core : Nat) : Dest → Prop
  | .v r k x => vreg s core r k = x
  | .s slot k x => sreg s core slot k = x
  | .p r k b => k = 7 ∨ preg s core r k = b

/-! ## When a word issues -/

/-- The word of opcode `opc` with the fields `f` issues for the group `g` of state `s`: its checks pass (R18), some lane
contributes (R131), every contributing lane has room in the flag it marks (R20) and reads no poison (R192), no lane holds an
entry popped for another issue, and a queue operand delivers (R270). `e` is what the word then reads. -/
structure Issues (s : State) (g : Cur) (opc : Nat) (f : Form) (e : Env) : Prop where
  cur : s.cur = some g
  checks : checkWord s g opc f = none
  lanes : contributing s g f.guard ≠ []
  distinct : g.refs.Nodup
  room : ∀ l ∈ contributing s g f.guard, (s.lane g.core l.2).flagFull f.fset = false
  alike : f.popsSource (opSpec opc f.mod) = true → otherGrants s g (contributing s g f.guard) = []
  clean : ∀ l ∈ contributing s g f.guard, readsPoison s g.core opc f l.2 = false
  group : e.g = g
  act : e.act = contributing s g f.guard
  operand : (if f.popsSource (opSpec opc f.mod) then popOperand s g e.act opc f else .got [] none s) = .got e.pop e.nb e.s

/-- A word is done for its group: the lanes of `stay` stand where they stood, the others go on, the waves' rejection counts return
to 0 where the word accesses no local space, and the event counters count (R129, R130, R178, R356). -/
def wordDone (opc : Nat) (s0 : State) (g : Cur) (s : State) (stay : List LaneRef) : State :=
  countEv (countEv (issued opc s g stay) (g.team s0) 1 1) (g.team s0) 2 g.lanes.length

/-! ## What a word leaves as it was -/

/-- A lane but for its registers, its marks and its place in the code. -/
def laneRest (l : Lane) : Lane :=
  { l with
    v := [], p := 0, g := 0, flags := [], poison := [], pc := 0, clause := none, block := .none, age := 0, groupAge := 0 }

/-- A wave but for its lanes, its scalar registers, its issue group and its rejection count. -/
def waveRest (w : Wave) : Wave := { w with lanes := [], s := [], sPoison := [], group := [], rejects := 0 }

/-- A core but for its waves, its outstanding results and the issue groups of its reformed groups. -/
def coreRest (c : Core) : Core :=
  { c with waves := [], pends := [], nextId := 0, groups := c.groups.map fun x => { x with group := [] } }

/-- A team but for its event counters. -/
def teamRest (t : Team) : Team := { t with counters := [] }

/-- Everything but the registers, marks and places of the lanes of one core, the rejection counts of its waves, and the event
counters, is the same: all memory, every other core, every other register. -/
structure Beside (core : Nat) (u t : State) : Prop where
  state : { t with cores := [], teams := [] } = { u with cores := [], teams := [] }
  others : ∀ c, c ≠ core → t.core c = u.core c
  teams : ∀ k, teamRest (t.team k) = teamRest (u.team k)
  itself : coreRest (t.core core) = coreRest (u.core core)
  waves : ∀ slot, waveRest (t.wave core slot) = waveRest (u.wave core slot)
  lanes : ∀ r, laneRest (t.lane core r) = laneRest (u.lane core r)

/-- No register but those of the destinations changes. -/
structure OnlyWrites (core : Nat) (u t : State) (ds : List Dest) : Prop where
  v : ∀ r k, (∀ d ∈ ds, destKey d ≠ (0, r, k)) → vreg t core r k = vreg u core r k
  s : ∀ slot k, (∀ d ∈ ds, destKey d ≠ (1, ⟨slot, 0⟩, k)) → sreg t core slot k = sreg u core slot k
  p : ∀ r k, (∀ d ∈ ds, destKey d ≠ (2, r, k)) → preg t core r k = preg u core r k

/-! ## What a word does -/

/-- The results of a word: written at once, the last write to a register standing, or outstanding together (R19, R23). -/
def Written (t : State) (core : Nat) (long : Bool) (ds : List Dest) : Prop :=
  if long then ∃ p ∈ (t.core core).pends, p.dests = ds
  else ∀ pre d post, ds = pre ++ d :: post → (∀ x ∈ post, destKey x ≠ destKey d) → holds t core d

/-- Every lane of the group stands at the next word, and no other lane has moved (R16, R130). -/
def Onward (u t : State) (g : Cur) : Prop :=
  (∀ r ∈ g.refs, (t.lane g.core r).pc = (u.lane g.core r).pc + 12) ∧
  (∀ r, r ∉ g.refs → (t.lane g.core r).pc = (u.lane g.core r).pc ∧ (t.lane g.core r).clause = (u.lane g.core r).clause)

/-- The rejection counts of the group's waves return to 0, and no other wave's changes (R178). -/
def Unrejected (u t : State) (g : Cur) : Prop :=
  ∀ slot, (t.wave g.core slot).rejects = if slot ∈ g.refs.map (·.slot) then 0 else (u.wave g.core slot).rejects

/-- The rounding generators: those that the word leaves, and every other lane's as it was (R40). -/
def Generators (u t : State) (e : Env) (ws : LaneAt → List Wr) : Prop :=
  (∀ r, (∀ l ∈ e.act, l.2 = r → (ws l).filterMap Wr.newGen = []) → (t.lane e.core r).g = (u.lane e.core r).g) ∧
  (∀ l x rest, l ∈ e.act → (ws l).filterMap Wr.newGen = x :: rest → (t.lane e.core l.2).g = x)

/-- The instruction `i` of opcode `opc` gives each contributing lane the results `ws`: wherever it issues it answers a next
state, which holds them (or has them outstanding), has the group at the next word with nothing rejected, and is otherwise the
same. -/
def Gives (i : Instr) (opc : Nat) (f : Form) (ws : Env → LaneAt → List Wr) : Prop :=
  ∀ s g e, Issues s g opc f e → ∃ t, exec i s = .next t ∧
    Written t g.core (f.isLong opc) (e.dests (ws e)) ∧
    OnlyWrites g.core e.s t (if f.isLong opc then [] else e.dests (ws e)) ∧
    Beside g.core e.s t ∧ Onward e.s t g ∧ Unrejected e.s t g ∧ Generators e.s t e (ws e)

/-- The instruction `i` does `body`: wherever it issues and `body` completes, the next state is what `body` leaves, with the
group's lanes but those that stay at the next word. -/
def Does (i : Instr) (opc : Nat) (f : Form) (ok : Env → Prop) (after : Env → State) (stay : Env → List LaneRef) : Prop :=
  ∀ s g e, Issues s g opc f e → ok e → exec i s = .next (wordDone opc s g (putOutcome e opc f (after e)) (stay e))

/-- The instruction `i` traps: wherever it issues and `bad` holds, the group takes the trap of the cause, with the lanes that
raised it and each lane's tag, and nothing is popped (R27, R329). -/
def Traps (i : Instr) (opc : Nat) (f : Form) (bad : Env → Prop) (cause : Nat) (origin : Env → List LaneRef)
    (tag : Env → LaneRef → W32) : Prop :=
  ∀ s g e, Issues s g opc f e → bad e → exec i s = .next (takeTrap s g cause (origin e) (tag e))

/-- The contributing lanes of a word. -/
def mine (e : Env) : List LaneRef := e.act.map (·.2)

/-- Each contributing lane changed in turn. -/
def eachLane (e : Env) (s : State) (upd : LaneAt → Lane → Lane) : State := forEach e.act s fun s l => s.onLane e.core l.2 (upd l)

/-- Each contributing lane blocks where it stands. -/
def eachBlocks (e : Env) (s : State) (b : LaneAt → Block) : State := eachLane e s fun l x => { x with block := b l }

/-! ## Local memory -/

/-- One access of the scratchpad: what it leaves there, and what it gives the word's destinations (R193, R195, R199). -/
def scratchStep (x : Mem × List Dest) (a : Access) : Mem × List Dest :=
  let old := memReads x.1 a.addr a.size
  let given := x.2 ++ loadDests a.r a.writer a.shape old
  if a.kind = 0 then (x.1, given)
  else if a.kind = 1 then (memWrites x.1 a.addr a.data, x.2)
  else (memWrites x.1 a.addr (leBytes a.size (atomicNew a.op (leNat old) (leNat a.data) (leNat a.cmp))), given)

/-- The accesses of a word, in the order of its lanes. -/
def scratchRun (m : Mem) (as : List Access) : Mem × List Dest := as.foldl scratchStep (m, [])

/-- The bytes that an access stores to. -/
def storesAt (a : Access) (x : Nat) : Prop := a.kind ≠ 0 ∧ a.addr ≤ x ∧ x < a.addr + a.size

/-- What a word that accesses the scratchpad of its team leaves as it was: everything but the scratchpad, the registers and
flags of its lanes, the rejection counts and the monitors on its lines. -/
structure BesideLocal (core team : Nat) (u t : State) : Prop where
  state : { t with cores := [], teams := [] } = { u with cores := [], teams := [] }
  others : ∀ c, c ≠ core → t.core c = u.core c
  teams : ∀ k, k ≠ team → teamRest (t.team k) = teamRest (u.team k)
  team : { teamRest (t.team team) with scratch := [], scratchPoison := [] } =
    { teamRest (u.team team) with scratch := [], scratchPoison := [] }
  itself : coreRest (t.core core) = coreRest (u.core core)
  waves : ∀ slot, waveRest (t.wave core slot) = waveRest (u.wave core slot)
  lanes : ∀ r, { laneRest (t.lane core r) with lmon := .off } = { laneRest (u.lane core r) with lmon := .off }

/-- The accesses of a word lie in the scratchpad of its team and may be made: aligned, held by no landing claim, and without
poison where they read (R192 to R194). -/
structure InScratch (e : Env) (as : List Access) : Prop where
  live : e.s.live e.team = true
  home : (e.s.team e.team).core = e.core
  free : ∀ k ∈ (e.s.core e.core).claims, k.team ≠ e.team
  inside : ∀ a ∈ as, 0 < a.size ∧ a.addr + a.size ≤ e.pkt.scratch ∧ a.addr % a.size = 0
  clean : ∀ a ∈ as, a.kind ≠ 1 → ∀ n ∈ linesOf a.addr a.size, n ∉ (e.s.team e.team).scratchPoison

/-- The instruction `i` makes the accesses `as` of the scratchpad, lane by lane: the scratchpad holds what they leave, and what
they read is outstanding for the destinations, or nothing is where the word is short; no register changes yet. -/
def Accesses (i : Instr) (opc : Nat) (f : Form) (ok : Env → Prop) (as : Env → List Access) : Prop :=
  ∀ s g e, Issues s g opc f e → ok e → InScratch e (as e) → ∃ t, exec i s = .next t ∧
    let run := scratchRun (e.s.team e.team).scratch (as e)
    (t.team e.team).scratch = run.1 ∧
    (f.isLong opc = true → ∃ p ∈ (t.core g.core).pends, p.dests = run.2 ++ e.dests (fun _ => []) ∧ p.lanes = mine e ∧
      p.loads = [] ∧ p.samples = [] ∧ p.held = 0) ∧
    OnlyWrites g.core e.s t [] ∧ BesideLocal g.core e.team e.s t ∧ Onward e.s t g

/-- Every load of a core has its bytes: none waits for a fill (R26). -/
def LoadsHome (s : State) (core : Nat) : Prop := ∀ p ∈ (s.core core).pends, ∀ w ∈ p.loads, ∀ b ∈ w.bytes, b.2.isSome = true

/-! ## Local addresses that trap -/

/-- The first test of R193 that an access of `n` bytes at local address `a` fails, by its number there: it lies in no region that
it may reach (R169, R196, R197), it is an atomic or a monitor read outside the scratchpad, it stores to a window that takes no
stores (R171), or it is misaligned (R25). `kind` is 0 for a load, 1 for a store, 2 and 3 for an atomic and LMON. -/
def failedTest (p : Packet) (t : Team) (kind : Nat) (uniform : Bool) (a n : Nat) : Option Nat :=
  let k := (a - 0x40000000) / 0x08000000
  let w := tgetD t.windows k default
  let scratch : Prop := a + n ≤ p.scratch
  let window : Prop := ¬ scratch ∧ 0x40000000 ≤ a ∧ a < 0x80000000 ∧ k < p.windows ∧ (a - 0x40000000) % 0x08000000 + n ≤ w.len
  let own : Prop := ¬ scratch ∧ uniform = false ∧ 0x80000000 ≤ a ∧ a + n ≤ 0x80000000 + p.priv
  if ¬ scratch ∧ ¬ window ∧ ¬ own then some 1
  else if ¬ scratch ∧ 2 ≤ kind then some 2
  else if window ∧ kind = 1 ∧ w.wr = false then some 3
  else if a % n ≠ 0 then some 4
  else none

/-- The folio-space test of LDF and STF, and their alignment (R198). -/
def failedFolio (t : Team) (a n : Nat) : Option Nat :=
  if a / 2 ^ 20 ≠ 0 ∨ 13312 < a % 16384 + n ∨ a / 16384 % 64 ∉ t.folios then some 1
  else if a % n ≠ 0 then some 4
  else none

/-- The cause that a failed test raises (R193): LOCAL_RANGE, WINDOW_ATOMIC or MISALIGNED. -/
def causeOf (k : Nat) : Nat := if k = 2 then 0x0A else if k = 4 then 0x04 else 0x03

/-- The lanes of accesses that fail a test, in their order, each with the test and the address. -/
def failing (test : Access → Option Nat) (as : List Access) : List (LaneRef × Nat × Nat) :=
  as.filterMap fun a => (test a).map fun k => (a.r, k, a.addr)

/-- The instruction `i` traps wherever it issues and a lane fails: the cause is that of the first failing lane, the lanes of
that cause raised it, and each failing lane's tag is its own address (R27, R193, R331). -/
def LocalTraps (i : Instr) (opc : Nat) (f : Form) (fails : Env → List (LaneRef × Nat × Nat)) : Prop :=
  ∀ s g e r k a rest, Issues s g opc f e → fails e = (r, k, a) :: rest →
    exec i s = .next (takeTrap s g (causeOf k)
      (((fails e).filter fun x => causeOf x.2.1 == causeOf k).map (·.1))
      (fun q => BitVec.ofNat 32 (match (fails e).find? fun x => x.1 == q with | some x => x.2.2 | none => a)))

/-- The accesses `as` trap by the tests of R193. -/
def AccessTraps (i : Instr) (opc : Nat) (f : Form) (uniform : Bool) (as : Env → List Access) : Prop :=
  LocalTraps i opc f fun e => failing (fun a => failedTest e.pkt (e.s.team e.team) a.kind uniform a.addr a.size) (as e)

/-! ## Windows and private space -/

/-- The global addresses of the bytes of an access of a window or of private space (R171, R175). -/
def globals (e : Env) (a : Access) : List Nat := (List.range a.size).map fun i =>
  if a.addr < 0x80000000 then
    (tgetD (e.s.team e.team).windows ((a.addr - 0x40000000) / 0x08000000) default).base + (a.addr - 0x40000000) % 0x08000000 + i
  else
    let o := a.addr - 0x80000000 + i
    (e.s.wave e.core a.r.slot).privBase.toNat + o / 4 * 128 + 4 * a.r.lane + o % 4

/-- The accesses of a word lie in windows or in private space of a live team and pass the tests of R193. -/
structure InWindows (e : Env) (uniform : Bool) (as : List Access) : Prop where
  live : e.s.live e.team = true
  inside : ∀ a ∈ as, 0 < a.size ∧ e.pkt.scratch < a.addr + a.size ∧
    failedTest e.pkt (e.s.team e.team) a.kind uniform a.addr a.size = none

/-- What the window cache of a core holds of a byte (R172), and whether the byte is dirty. -/
def cached (e : Env) (s : State) (g : Nat) : Option Byte := windowByte (s.core e.core) (teamAsid e.s e.team) g
def dirty (e : Env) (s : State) (g : Nat) : Bool := windowDirty (s.core e.core) (teamAsid e.s e.team) g

/-- The line of an address space in the window cache. -/
def lineOf (e : Env) (s : State) (n : Nat) : Option CLine := findLine (s.core e.core) (teamAsid e.s e.team) n

/-- What the accesses store to a byte: the last of them stands (R193). -/
def stored (e : Env) (as : List Access) (g : Nat) : Option Byte :=
  ((as.flatMap fun a => (globals e a).zip a.data).reverse.find? fun x => x.1 == g).map (·.2)

/-- A private line that no restore and no write-back has touched yet (R176). -/
def untouched (e : Env) (a : Access) (n : Nat) : Prop :=
  0x80000000 ≤ a.addr ∧ (e.s.wave e.core a.r.slot).restored = false ∧ n ∉ (e.s.wave e.core a.r.slot).privSaved

/-- The access takes line `n` alone, which the cache does not hold and can place: a window way of its set is free (R394). -/
structure Places (e : Env) (a : Access) (n : Nat) : Prop where
  line : ∀ b ∈ globals e a, b / 128 = n
  absent : lineOf e e.s n = none
  way : ∃ w ∈ windowWays (e.s.core e.core), ∀ l ∈ (e.s.core e.core).lines, l.line % 256 = n % 256 → l.way ≠ w

/-- The miss-status entries that are taken or kept for another wave (R177, R178). -/
def takenMses (e : Env) (a : Access) : Nat :=
  (e.s.core e.core).mses.length + ((e.s.core e.core).mseKept.filter (· ≠ a.r.slot)).length

/-- What a window access may change: lines, miss-status entries and reservations of its own core, beside the registers, flags
and places of the lanes there. -/
structure WithinCache (core : Nat) (u t : State) : Prop where
  state : { t with cores := [], teams := [] } = { u with cores := [], teams := [] }
  others : ∀ c, c ≠ core → t.core c = u.core c
  teams : ∀ k, teamRest (t.team k) = teamRest (u.team k)
  itself : { coreRest (t.core core) with lines := [], mses := [], mseKept := [], resq := [] } =
    { coreRest (u.core core) with lines := [], mses := [], mseKept := [], resq := [] }
  waves : ∀ slot, waveRest (t.wave core slot) = waveRest (u.wave core slot)
  lanes : ∀ r, laneRest (t.lane core r) = laneRest (u.lane core r)

/-- No line but `n` of the team's address space, and no miss-status entry, changes. -/
def OtherLines (e : Env) (t : State) (n : Nat) : Prop :=
  ∀ k m, (k, m) ≠ (teamAsid e.s e.team, n) → findLine (t.core e.core) k m = findLine (e.s.core e.core) k m

/-- What a word's window accesses leave besides the cache: no register changed yet, and the lanes but `stay` at the next word. -/
def LeavesCache (e : Env) (t : State) : Prop := OnlyWrites e.core e.s t [] ∧ WithinCache e.core e.s t

/-- The word has results outstanding for its lanes: the destinations `ds`, and the loads `ws` that wait (R19, R23). -/
def Outstanding (e : Env) (t : State) (ds : List Dest) (ws : List LoadWait) : Prop :=
  ∃ p ∈ (t.core e.core).pends, p.lanes = mine e ∧ p.dests = ds ++ e.dests (fun _ => []) ∧ p.loads = ws ∧ p.samples = [] ∧ p.held = 0

/-- Loads of which every byte is valid in the cache hit: their results are outstanding, and the cache stays as it is (R173). -/
def LoadHits (i : Instr) (opc : Nat) (f : Form) (uniform : Bool) (ok : Env → Prop) (as : Env → List Access) : Prop :=
  ∀ s g e, Issues s g opc f e → ok e → f.isLong opc = true → InWindows e uniform (as e) →
    (∀ a ∈ as e, ∀ b ∈ globals e a,
      (cached e e.s b).isSome = true ∧ windowPoison (e.s.core e.core) (teamAsid e.s e.team) b = false) →
    ∃ t, exec i s = .next t ∧ OnlyWrites g.core e.s t [] ∧ Beside g.core e.s t ∧ Onward e.s t g ∧
      Outstanding e t ((as e).flatMap fun a => loadDests a.r a.writer a.shape ((globals e a).filterMap (cached e e.s))) []

/-- A load that misses takes a free miss-status entry for its line and waits for the fill with every byte (R173, R177). -/
def LoadMisses (i : Instr) (opc : Nat) (f : Form) (uniform : Bool) (ok : Env → Prop) (as : Env → List Access) : Prop :=
  ∀ s g e a n, Issues s g opc f e → ok e → f.isLong opc = true → InWindows e uniform (as e) → as e = [a] → Places e a n →
    findMse (e.s.core e.core) (teamAsid e.s e.team) n = none → ¬ untouched e a n → takenMses e a < 64 →
    (∀ p ∈ (e.s.core e.core).pends, p.id ≠ (e.s.core e.core).nextId) →
    ∃ t, exec i s = .next t ∧ LeavesCache e t ∧ Onward e.s t g ∧ OtherLines e t n ∧
      (∃ m, (t.core e.core).mses = (e.s.core e.core).mses ++ [m] ∧
        m.asid = teamAsid e.s e.team ∧ m.line = n ∧ m.slot = a.r.slot ∧ m.prefetch = false) ∧
      (∀ b < 128, cached e t (n * 128 + b) = none) ∧
      Outstanding e t []
        [{ r := a.r, shape := a.shape, bytes := (globals e a).map (·, none), writer := a.writer, asid := teamAsid e.s e.team, poison := false }]

/-- The first touch of a private line creates it zero-filled, with no fill: the load reads 0 (R29, R176). -/
def LoadCreates (i : Instr) (opc : Nat) (f : Form) (uniform : Bool) (ok : Env → Prop) (as : Env → List Access) : Prop :=
  ∀ s g e a n, Issues s g opc f e → ok e → f.isLong opc = true → InWindows e uniform (as e) → as e = [a] → Places e a n →
    findMse (e.s.core e.core) (teamAsid e.s e.team) n = none → untouched e a n →
    ∃ t, exec i s = .next t ∧ LeavesCache e t ∧ Onward e.s t g ∧ OtherLines e t n ∧ (t.core e.core).mses = (e.s.core e.core).mses ∧
      (∀ b < 128, cached e t (n * 128 + b) = some 0 ∧ dirty e t (n * 128 + b) = false) ∧
      Outstanding e t (loadDests a.r a.writer a.shape (List.replicate a.size 0)) []

/-- A load that needs a fill with no miss-status entry to take is rejected: its lanes stay at the word, nothing is filled, and
their waves count a rejection (R177, R178). -/
def LoadRejected (i : Instr) (opc : Nat) (f : Form) (uniform : Bool) (ok : Env → Prop) (as : Env → List Access) : Prop :=
  ∀ s g e a n, Issues s g opc f e → ok e → f.isLong opc = true → InWindows e uniform (as e) → as e = [a] →
    (∀ b ∈ globals e a, b / 128 = n) → (∃ b ∈ globals e a, cached e e.s b = none) →
    findMse (e.s.core e.core) (teamAsid e.s e.team) n = none → ¬ (untouched e a n ∧ lineOf e e.s n = none) → 64 ≤ takenMses e a →
    ∃ t, exec i s = .next t ∧ LeavesCache e t ∧
      (t.core e.core).lines = (e.s.core e.core).lines ∧ (t.core e.core).mses = (e.s.core e.core).mses ∧
      (∀ r ∈ mine e, (t.lane e.core r).pc = (e.s.lane e.core r).pc ∧ (t.lane e.core r).clause = (e.s.lane e.core r).clause) ∧
      (∀ r ∈ g.refs, r ∉ mine e → (t.lane e.core r).pc = (e.s.lane e.core r).pc + 12) ∧
      (∀ slot ∈ (mine e).map (·.slot), (t.wave e.core slot).rejects = (e.s.wave e.core slot).rejects + 1)

/-- Stores to lines that the cache holds: each byte holds the last value stored to it and is dirty, every other byte of every
line is as it was, and nothing is filled (R172, R173). -/
def StoreHits (i : Instr) (opc : Nat) (f : Form) (uniform : Bool) (ok : Env → Prop) (as : Env → List Access) : Prop :=
  ∀ s g e, Issues s g opc f e → ok e → InWindows e uniform (as e) → LoadsHome e.s e.core →
    (∀ a ∈ as e, a.kind = 1 ∧ a.data.length = a.size) → (∀ l ∈ (e.s.core e.core).lines, Memory.wf l.bytes = true) →
    (∀ a ∈ as e, ∀ b ∈ globals e a, (lineOf e e.s (b / 128)).isSome = true) →
    ∃ t, exec i s = .next t ∧ LeavesCache e t ∧ Onward e.s t g ∧ (t.core e.core).mses = (e.s.core e.core).mses ∧
      (∀ b, cached e t b = (stored e (as e) b).or (cached e e.s b) ∧ dirty e t b = ((stored e (as e) b).isSome || dirty e e.s b)) ∧
      (∀ k n, k ≠ teamAsid e.s e.team → findLine (t.core e.core) k n = findLine (e.s.core e.core) k n)

/-- A store to a line that the cache does not hold allocates it without a fill: the bytes stored are valid and dirty, the others
are not valid, but that a private line not touched before is zero (R173, R174, R176). -/
def StoreAllocates (i : Instr) (opc : Nat) (f : Form) (uniform : Bool) (ok : Env → Prop) (as : Env → List Access) : Prop :=
  ∀ s g e a n, Issues s g opc f e → ok e → InWindows e uniform (as e) → LoadsHome e.s e.core → as e = [a] → a.kind = 1 →
    a.data.length = a.size → Places e a n →
    ∃ t, exec i s = .next t ∧ LeavesCache e t ∧ Onward e.s t g ∧ OtherLines e t n ∧ (t.core e.core).mses = (e.s.core e.core).mses ∧
      (∃ l, lineOf e t n = some l ∧ l.writers = [e.team] ∧ l.lastWriter = e.team ∧ l.way ∈ windowWays (e.s.core e.core) ∧
        ∀ x ∈ (e.s.core e.core).lines, x.line % 256 = n % 256 → x.way ≠ l.way) ∧
      (∀ b < 128, dirty e t (n * 128 + b) = (stored e [a] (n * 128 + b)).isSome) ∧
      (untouched e a n → ∀ b < 128, cached e t (n * 128 + b) = some ((stored e [a] (n * 128 + b)).getD 0)) ∧
      (¬ untouched e a n → ∀ b < 128, cached e t (n * 128 + b) = stored e [a] (n * 128 + b))

/-- A load form: what its accesses `as` do in the scratchpad, in windows and in private space, and where they trap. -/
def Loads (i : Instr) (opc : Nat) (f : Form) (uniform : Bool) (as : Env → List Access) : Prop :=
  let any (_ : Env) : Prop := True
  Accesses i opc f any as ∧ AccessTraps i opc f uniform as ∧ LoadHits i opc f uniform any as ∧
  LoadMisses i opc f uniform any as ∧ LoadRejected i opc f uniform any as ∧ (uniform = false → LoadCreates i opc f uniform any as)

/-- A store form, in the same way. -/
def Stores (i : Instr) (opc : Nat) (f : Form) (uniform : Bool) (ok : Env → Prop) (as : Env → List Access) : Prop :=
  Accesses i opc f ok as ∧ AccessTraps i opc f uniform as ∧ StoreHits i opc f uniform ok as ∧ StoreAllocates i opc f uniform ok as

/-! ## Results -/

/-- The bits of `x` read as a number of a signed or an unsigned type (R83). -/
def num {w : Nat} (signed : Bool) (x : BitVec w) : Int := if signed then x.toInt else x.toNat

/-- A number fitted into `w` bits: clamped to the type under SAT, else its low bits (R83). -/
def fitted (w : Nat) (signed sat : Bool) (x : Int) : BitVec w :=
  BitVec.ofInt w
    (if sat then (if signed then max (-2 ^ (w - 1)) (min (2 ^ (w - 1) - 1) x) else max 0 (min (2 ^ w - 1) x)) else x)

/-- One 32-bit result, one 64-bit result, one predicate result. -/
def word (f : Form) (x : Env → LaneAt → W32) (e : Env) (l : LaneAt) : List Wr := [.w32 f.d (x e l)]
def long (f : Form) (x : Env → LaneAt → W64) (e : Env) (l : LaneAt) : List Wr := [.w64 f.d (x e l)]
def pred (f : Form) (x : Env → LaneAt → Bool) (e : Env) (l : LaneAt) : List Wr := [.pr f.d (x e l)]

/-- One FP32 or FP64 result: `x` rounded as ROUND and SAT give; a word that rounds under RS (ROUND = 4) steps the lane's
generator once, rounds with the stepped one and leaves it (R40, R105, R107). -/
def rounded (F : Fmt) (put : Nat → Wr) (f : Form) (x : Env → LaneAt → Val) (e : Env) (l : LaneAt) : List Wr :=
  let g := (e.s.lane e.core l.2).g
  let rs := MOD.round f.mod = 4
  put (fres F (MOD.round f.mod) (MOD.sat f.mod) (if rs then stepG g else g) (x e l)) :: (if rs then [.gen (stepG g)] else [])

def single (f : Form) (x : Env → LaneAt → Val) : Env → LaneAt → List Wr :=
  rounded fp32 (fun c => .w32 f.d (BitVec.ofNat 32 c)) f x
def double (f : Form) (x : Env → LaneAt → Val) : Env → LaneAt → List Wr :=
  rounded fp64 (fun c => .w64 f.d (BitVec.ofNat 64 c)) f x

end Sys2Proof.Safety
end

