-- ==== Sys2Proof/Certificates/Slice0/Obligations.lean ====
section
/-! DEFINITION. The statements about the model. -/

open Sys2Proof Sys2Proof.Machine Sys2Proof.Safety

/-! ## Integers, logic, moves, compares -/

/-- The results of 32-bit integer arithmetic (R83, R84), with everything a word leaves as it was. -/
def Obligations.IntegerArithmetic : Prop := ∀ f : Form,
  let n := MOD.type f.mod == 6
  let put (x : Env → LaneAt → Int) := word f fun e l => fitted 32 (!n) (MOD.sat f.mod) (x e l)
  let A (e : Env) (l : LaneAt) := num (!n) (e.src l f.a .int)
  let B (e : Env) (l : LaneAt) := num (!n) (e.b l f .int)
  let B3 (e : Env) (l : LaneAt) := num (!n) (e.src l f.b .int)
  let C (e : Env) (l : LaneAt) := num (!n) (e.c l f .int)
  Gives (.iadd f) 0x10 f (put fun e l => A e l + B e l) ∧
  Gives (.isub f) 0x11 f (put fun e l => A e l - B e l) ∧
  Gives (.imul f) 0x12 f (put fun e l => A e l * B e l) ∧
  Gives (.imulh f) 0x13 f (put fun e l => A e l * B e l / 2 ^ 32) ∧
  Gives (.imad f) 0x14 f (put fun e l => A e l * B3 e l + C e l) ∧
  Gives (.imadw f) 0x15 f (long f fun e l => fitted 64 (!n) (MOD.sat f.mod)
    (A e l * B3 e l + num (!n) (e.c64 l f (if n then .n64 else .int)))) ∧
  Gives (.imin f) 0x18 f (put fun e l => min (A e l) (B e l)) ∧
  Gives (.imax f) 0x19 f (put fun e l => max (A e l) (B e l)) ∧
  Gives (.iabs f) 0x1A f (word f fun e l => fitted 32 true (MOD.sat f.mod) |(e.src l f.a .int).toInt|) ∧
  Gives (.ineg f) 0x1B f (word f fun e l => fitted 32 true (MOD.sat f.mod) (-(e.src l f.a .int).toInt)) ∧
  Gives (.isad f) 0x1E f (put fun e l => |A e l - B3 e l| + C e l) ∧
  Gives (.iadd3 f) 0xE8 f (put fun e l => A e l + B3 e l + C e l) ∧
  Gives (.iscadd f) 0xE9 f (put fun e l => A e l * 2 ^ ((e.c l f .int).toNat % 32) + B3 e l) ∧
  Gives (.idot4 f) 0x1F f (word f fun e l =>
    let sg := MOD.type f.mod == 0
    let p (k : Nat) := num sg ((e.src l f.a .bytes).extractLsb' (8 * k) 8) * num sg ((e.src l f.b .bytes).extractLsb' (8 * k) 8)
    fitted 32 sg (MOD.sat f.mod) (num sg (e.c l f .int) + (p 0 + p 1 + p 2 + p 3)))

/-- Division and remainder at 32 and 64 bits (R85). -/
def Obligations.Division : Prop := ∀ f : Form,
  let sat := MOD.sat f.mod
  let n := MOD.type f.mod == 6
  let m := MOD.type f.mod == 8
  let i : ImmT := if m then .n64 else .int
  Gives (.idiv f) 0x16 f (word f fun e l =>
    let a := num (!n) (e.src l f.a .int)
    let b := num (!n) (e.b l f .int)
    if b = 0 then -1 else fitted 32 (!n) sat (a.tdiv b)) ∧
  Gives (.irem f) 0x17 f (word f fun e l =>
    let a := num (!n) (e.src l f.a .int)
    let b := num (!n) (e.b l f .int)
    if b = 0 then e.src l f.a .int else BitVec.ofInt 32 (a - b * a.tdiv b)) ∧
  Gives (.ldiv f) 0x2E f (long f fun e l =>
    let a := num (!m) (e.src64 l f.a i)
    let b := num (!m) (e.b64 l f i)
    if b = 0 then -1 else fitted 64 (!m) sat (a.tdiv b)) ∧
  Gives (.lrem f) 0x2F f (long f fun e l =>
    let a := num (!m) (e.src64 l f.a i)
    let b := num (!m) (e.b64 l f i)
    if b = 0 then e.src64 l f.a i else BitVec.ofInt 64 (a - b * a.tdiv b))

/-- Addition with carry and subtraction with borrow (R86): the sums and their carries, the bits of MOD, and a nul c. -/
def Obligations.CarryAndBorrow : Prop := ∀ f : Form,
  let co (b : Bool) : List Wr := if f.mod.getLsbD 3 then [.pr (.p (f.mod.extractLsb' 0 3)) b] else []
  Gives (.iaddc f) 0x1C f (fun e l =>
    let s : Int := (e.src l f.a .int).toNat + (e.src l f.b .int).toNat + (e.pred l f.c.opnd).toNat
    .w32 f.d (BitVec.ofInt 32 s) :: co (decide (2 ^ 32 ≤ s))) ∧
  Gives (.isubb f) 0x1D f (fun e l =>
    let s : Int := (e.src l f.a .int).toNat - (e.src l f.b .int).toNat - (e.pred l f.c.opnd).toNat
    .w32 f.d (BitVec.ofInt 32 s) :: co (decide (s < 0))) ∧
  (∀ i ∈ [Instr.iaddc f, Instr.isubb f], i.wellFormed = true →
    (f.mod.getLsbD 3 = false → f.mod.extractLsb' 0 3 = 0) ∧ f.mod.extractLsb' 4 5 = 0) ∧
  ∀ (e : Env) l, f.c.opnd = .nul → e.pred l f.c.opnd = false

/-- The results of 64-bit integer arithmetic and its shifts (R87, R88). -/
def Obligations.LongArithmetic : Prop := ∀ f : Form,
  let n := MOD.type f.mod == 8
  let i : ImmT := if n then .n64 else .int
  let put (x : Env → LaneAt → Int) := long f fun e l => fitted 64 (!n) (MOD.sat f.mod) (x e l)
  let A (e : Env) (l : LaneAt) := num (!n) (e.src64 l f.a i)
  let B (e : Env) (l : LaneAt) := num (!n) (e.b64 l f i)
  let a (e : Env) (l : LaneAt) := e.src64 l f.a .int
  let b (e : Env) (l : LaneAt) := e.b64 l f .int
  let k (e : Env) (l : LaneAt) := if f.mod.getLsbD 0 then (e.b l f .int).toNat % 64 else (e.b l f .int).toNat
  Gives (.ladd f) 0x20 f (put fun e l => A e l + B e l) ∧
  Gives (.lsub f) 0x21 f (put fun e l => A e l - B e l) ∧
  Gives (.lmul f) 0x22 f (put fun e l => A e l * B e l) ∧
  Gives (.lmad f) 0x23 f (put fun e l => A e l * num (!n) (e.src64 l f.b i) + num (!n) (e.c64 l f i)) ∧
  Gives (.lshl f) 0x24 f (long f fun e l => if k e l ≥ 64 then 0 else BitVec.ofNat 64 ((a e l).toNat * 2 ^ k e l)) ∧
  Gives (.lshr f) 0x25 f (long f fun e l => if k e l ≥ 64 then 0 else BitVec.ofNat 64 ((a e l).toNat / 2 ^ k e l)) ∧
  Gives (.lsar f) 0x26 f (long f fun e l =>
    if k e l ≥ 64 then (if (a e l).getLsbD 63 then -1 else 0) else BitVec.ofInt 64 ((a e l).toInt / 2 ^ k e l)) ∧
  Gives (.lmin f) 0x27 f (put fun e l => min (A e l) (B e l)) ∧
  Gives (.lmax f) 0x28 f (put fun e l => max (A e l) (B e l)) ∧
  Gives (.land f) 0x29 f (long f fun e l => a e l &&& b e l) ∧
  Gives (.lor f) 0x2A f (long f fun e l => a e l ||| b e l) ∧
  Gives (.lxor f) 0x2B f (long f fun e l => a e l ^^^ b e l) ∧
  Gives (.lea f) 0x2C f (long f fun e l =>
    BitVec.ofInt 64 ((a e l).toNat + num (MOD.type f.mod != 6) (e.src l f.b .int) * 2 ^ ((e.c l f .int).toNat % 64))) ∧
  Gives (.lneg f) 0x2D f (long f fun e l => fitted 64 true (MOD.sat f.mod) (-(a e l).toInt))

/-- Logic, shifts, rotation and counts (R88, R89), and the bit-field instructions (R90). -/
def Obligations.Logic : Prop :=
  (∀ f : Form,
    let a (e : Env) (l : LaneAt) := e.src l f.a .int
    let b (e : Env) (l : LaneAt) := e.b l f .int
    let b3 (e : Env) (l : LaneAt) := e.src l f.b .int
    let c (e : Env) (l : LaneAt) := e.c l f .int
    let k (e : Env) (l : LaneAt) := if f.mod.getLsbD 0 then (b e l).toNat % 32 else (b e l).toNat
    Gives (.and f) 0x30 f (word f fun e l => a e l &&& b e l) ∧
    Gives (.or f) 0x31 f (word f fun e l => a e l ||| b e l) ∧
    Gives (.xor f) 0x32 f (word f fun e l => a e l ^^^ b e l) ∧
    Gives (.not f) 0x33 f (word f fun e l => ~~~a e l) ∧
    Gives (.andn f) 0x34 f (word f fun e l => a e l &&& ~~~b e l) ∧
    Gives (.lop3 f) 0x35 f (word f fun e l => BitVec.ofFnLE fun i : Fin 32 =>
      f.mod.getLsbD (((a e l).getLsbD i).toNat + 2 * ((b3 e l).getLsbD i).toNat + 4 * ((c e l).getLsbD i).toNat)) ∧
    Gives (.shl f) 0x36 f (word f fun e l => if k e l ≥ 32 then 0 else BitVec.ofNat 32 ((a e l).toNat * 2 ^ k e l)) ∧
    Gives (.shr f) 0x37 f (word f fun e l => if k e l ≥ 32 then 0 else BitVec.ofNat 32 ((a e l).toNat / 2 ^ k e l)) ∧
    Gives (.sar f) 0x38 f (word f fun e l =>
      if k e l ≥ 32 then (if (a e l).getLsbD 31 then -1 else 0) else BitVec.ofInt 32 ((a e l).toInt / 2 ^ k e l)) ∧
    Gives (.rotl f) 0x39 f (word f fun e l => (a e l).rotateLeft ((b e l).toNat % 32)) ∧
    Gives (.funsh f) 0x3A f (word f fun e l =>
      let x := (b3 e l).toNat * 2 ^ 32 + (a e l).toNat
      let n := (c e l).toNat % 32
      BitVec.ofNat 32 (if f.mod.getLsbD 0 then x * 2 ^ n / 2 ^ 32 else x / 2 ^ n)) ∧
    Gives (.popc f) 0x3B f (word f fun e l => BitVec.ofNat 32 ((List.range 32).countP (a e l).getLsbD)) ∧
    Gives (.clz f) 0x3C f (word f fun e l => if a e l = 0 then 32 else BitVec.ofNat 32 (31 - Nat.log2 (a e l).toNat)) ∧
    Gives (.brev f) 0x3D f (word f fun e l => (a e l).reverse)) ∧
  (∀ f : Form,
    let a (e : Env) (l : LaneAt) := (e.src l f.a .int).toNat
    let b (e : Env) (l : LaneAt) := (e.b l f .int).toNat
    let c (e : Env) (l : LaneAt) := (e.c l f .int).toNat
    let top (x : Nat) := min (x % 256 + x / 256 % 256) 32
    Gives (.bfe f) 0x3E f (word f fun e l =>
      let pos := b e l % 256
      let w := top (b e l) - pos
      let field := BitVec.ofNat w (a e l / 2 ^ pos)
      if w = 0 then 0 else if MOD.type f.mod = 5 then field.signExtend 32 else field.zeroExtend 32) ∧
    Gives (.bfi f) 0x3F f (word f fun e l => BitVec.ofFnLE fun i : Fin 32 =>
      if c e l % 256 ≤ i.val ∧ i.val < top (c e l) then (a e l).testBit (i - c e l % 256) else (e.src l f.b .int).getLsbD i) ∧
    Gives (.bmsk f) 0xEA f (word f fun e l => BitVec.ofFnLE fun i : Fin 32 =>
      decide (a e l % 256 ≤ i.val ∧ i.val < a e l % 256 + b e l % 256)) ∧
    Gives (.bfind f) 0xEB f (word f fun e l =>
      let x := e.src l f.a .int
      let y := if MOD.type f.mod = 5 ∧ x.getLsbD 31 then ~~~x else x
      if y = 0 then 0xFFFFFFFF else BitVec.ofNat 32 (Nat.log2 y.toNat)))

/-- The compares and the predicate function (R89, R91, R92, R114). -/
def Obligations.Compares : Prop := ∀ f : Form,
  let joined (bop : Nat) (r c : Bool) : Bool := if bop = 0 then r else if bop = 1 then r && c else if bop = 2 then r || c else r ^^ c
  let ints (x y : Int) : Bool := match (f.mod.extractLsb' 0 3).toNat with
    | 0 => x = y | 1 => x ≠ y | 2 => x < y | 3 => x ≤ y | 4 => x > y | _ => x ≥ y
  let floats (x y : Val) : Bool :=
    let un := x.isNan || y.isNan
    match (f.mod.extractLsb' 0 4).toNat with
    | 0 => !un && x.eq y | 1 => !un && !x.eq y | 2 => !un && x.lt y | 3 => !un && (x.lt y || x.eq y)
    | 4 => !un && y.lt x | 5 => !un && (y.lt x || x.eq y) | 6 => !un | 7 => un
    | 8 => un || x.eq y | 9 => un || !x.eq y | 10 => un || x.lt y | 11 => un || x.lt y || x.eq y
    | 12 => un || y.lt x | _ => un || y.lt x || x.eq y
  let n := f.mod.getLsbD 5
  let bop2 := (f.mod.extractLsb' 4 2).toNat
  let bop := (f.mod.extractLsb' 3 2).toNat
  let i : ImmT := if n then .n64 else .int
  Gives (.isetp f) 0x40 f (pred f fun e l =>
    joined bop (ints (num (!n) (e.src l f.a .int)) (num (!n) (e.b l f .int))) (e.pred l f.c.opnd)) ∧
  Gives (.lsetp f) 0x41 f (pred f fun e l =>
    joined bop (ints (num (!n) (e.src64 l f.a i)) (num (!n) (e.b64 l f i))) (e.pred l f.c.opnd)) ∧
  Gives (.fsetp f) 0x42 f (pred f fun e l =>
    joined bop2 (floats (fp32.decode (e.src l f.a (.fp fp32)).toNat) (fp32.decode (e.b l f (.fp fp32)).toNat)) (e.pred l f.c.opnd)) ∧
  Gives (.dsetp f) 0xF9 f (pred f fun e l =>
    joined bop2 (floats (fp64.decode (e.src64 l f.a (.fp fp64)).toNat) (fp64.decode (e.b64 l f (.fp fp64)).toNat)) (e.pred l f.c.opnd)) ∧
  Gives (.psetp f) 0x43 f (pred f fun e l =>
    f.mod.getLsbD ((e.pred l f.a).toNat + 2 * (e.pred l f.b).toNat + 4 * (e.pred l f.c.opnd).toNat))

/-- Moves and selects (R93, R94), the clock (R96) and BCAST (R95). -/
def Obligations.Moves : Prop := ∀ f : Form,
  let w := MOD.type f.mod = 10
  let a (e : Env) (l : LaneAt) := e.src l f.a .int
  let c (e : Env) (l : LaneAt) := e.c l f .int
  Gives (.sel f) 0x44 f (fun e l => let o := if e.pred l f.c.opnd then f.a else f.b
    if w ∨ MOD.type f.mod = 8 then [.w64 f.d (e.src64 l o .int)] else [.w32 f.d (e.src l o .int)]) ∧
  Gives (.mov f) 0x45 f (fun e l =>
    if w ∨ MOD.type f.mod = 8 then [.w64 f.d (e.src64 l f.a .int)] else [.w32 f.d (a e l)]) ∧
  Gives (.movi f) 0x46 f (fun e l =>
    if MOD.type f.mod = 8 then [.w64 f.d (e.c64 l f .n64)] else if w then [.w64 f.d (e.c64 l f .int)] else [.w32 f.d (c e l)]) ∧
  Gives (.movs f) 0x47 f (word f fun e l =>
    let k := if MOD.type f.mod = 3 ∨ MOD.type f.mod = 4 then 16 else 8
    let x := BitVec.ofNat k (a e l).toNat
    if MOD.type f.mod = 2 ∨ MOD.type f.mod = 4 then x.zeroExtend 32 else x.signExtend 32) ∧
  Gives (.clamp f) 0x4C f (word f fun e l =>
    if MOD.type f.mod = 13 then
      let v (x : W32) := fp32.decode x.toNat
      BitVec.ofNat 32 (roundRne fp32 (((v (e.src l f.a (.fp fp32))).maxNum (v (e.src l f.b (.fp fp32)))).minNum (v (e.c l f (.fp fp32)))))
    else
      let sg := MOD.type f.mod != 6
      BitVec.ofInt 32 (min (max (num sg (a e l)) (num sg (e.src l f.b .int))) (num sg (c e l)))) ∧
  Gives (.prmt f) 0x4E f (word f fun e l =>
    let x := (e.src l f.b .int).toNat * 2 ^ 32 + (a e l).toNat
    let y (k : Nat) : Byte :=
      let s := (c e l).toNat / 2 ^ (8 * k)
      let y : Byte := BitVec.ofNat 8 (x / 2 ^ (8 * (s % 8)))
      let y := if s.testBit 3 then y.reverse else y
      let y : Byte := if s.testBit 4 then (if y.getLsbD 7 then 0xFF else 0) else y
      if s.testBit 5 then ~~~y else y
    BitVec.ofNat 32 ((y 0).toNat + 2 ^ 8 * (y 1).toNat + 2 ^ 16 * (y 2).toNat + 2 ^ 24 * (y 3).toNat)) ∧
  Gives (.movhi f) 0x4F f (long f fun e l => BitVec.ofNat 64 ((c e l).toNat * 2 ^ 32 + (a e l).toNat)) ∧
  Gives (.ptov f) 0x4A f (word f fun e l => BitVec.ofFnLE fun i : Fin 32 => decide (i.val < 8) && readP e.s e.core l.2 i) ∧
  Gives (.vtop f) 0x4B f (fun e l => (List.range 7).filterMap fun i =>
    if (e.b l f .int).getLsbD i then some (.pr (.p (BitVec.ofNat 3 i)) ((a e l).getLsbD i)) else none) ∧
  Gives (.clock f) 0x4D f (long f fun e _ => e.s.cycles) ∧
  Gives (.bcast f) 0x49 f (word f fun e l =>
    let k := (e.src l f.b .int).toNat % 32
    if (tget (e.s.wave e.core l.2.slot).lanes k).isSome then readHeld e.s e.core ⟨l.2.slot, k⟩ (vregOf f.a) else 0)

/-- Shuffles, votes, match, reduction and election (R146 to R151); the tree of a float REDUX sum (R51) and the values of its
minimum and maximum (R53); RDLANE and its sampling (R19, R95). -/
def Obligations.LaneExchange : Prop :=
  (∀ f : Form,
    let at_ (e : Env) (i : Nat) := e.act.find? fun x => x.1 = i
    let set (e : Env) (p : LaneAt → Bool) : W32 := BitVec.ofFnLE fun i : Fin 32 => e.act.any fun x => x.1 == i.val && p x
    let w := 32 / 2 ^ (f.mod.extractLsb' 0 3).toNat
    let shuffled (source : Nat → Nat → Nat → Option Nat) (e : Env) (l : LaneAt) : List Wr :=
      let src := (source l.1 (l.1 - l.1 % w) (e.src l f.b .int).toNat).bind (at_ e)
      let x := src.getD l
      [if f.mod.getLsbD 3 then .w64 f.d (e.src64 x f.a .int) else .w32 f.d (e.src x f.a .int), .pr f.c.opnd src.isSome]
    let same (e : Env) (l x : LaneAt) : Bool :=
      if MOD.type f.mod = 10 then e.src64 x f.a .int = e.src64 l f.a .int else e.src x f.a .int = e.src l f.a .int
    Gives (.shfl f) 0x50 f (shuffled fun _ base n => if n < w then some (base + n) else none) ∧
    Gives (.shflx f) 0x51 f (shuffled fun i _ n => if n < w then some (i ^^^ n) else none) ∧
    Gives (.shflu f) 0x52 f (shuffled fun i base n => if n ≤ i - base then some (i - n) else none) ∧
    Gives (.shfld f) 0x53 f (shuffled fun i base n => if n < base + w - i then some (i + n) else none) ∧
    Gives (.voteany f) 0x54 f (pred f fun e _ => e.act.any fun l => e.pred l f.a) ∧
    Gives (.voteall f) 0x55 f (pred f fun e _ => e.act.all fun l => e.pred l f.a) ∧
    Gives (.ballot f) 0x56 f (word f fun e _ => set e fun l => e.pred l f.a) ∧
    Gives (.elect f) 0x6E f (pred f fun e l => e.act.head? = some l) ∧
    Gives (.active f) 0x6F f (word f fun e _ => set e fun _ => true) ∧
    Gives (.matchEq f) 0x57 f (fun e l => [.w32 f.d (set e (same e l)), .pr f.c.opnd (e.act.all (same e l))]) ∧
    Gives (.redux f) 0x58 f (word f fun e _ =>
      let op := (f.mod.extractLsb' 0 3).toNat
      let ty := MOD.type f.mod
      let sg := ty != 6
      let xs := (List.range 32).map fun i => (at_ e i).map fun l => e.src l f.a (if ty = 13 then .fp fp32 else .int)
      let code (o : Option W32) := o.map BitVec.toNat
      match ty, op, xs.filterMap id with
      | 13, 0, _ => BitVec.ofNat 32 (treeSum fp32 (xs.map code))
      | _, 0, vs => fitted 32 sg (MOD.sat f.mod) (vs.map (num sg)).sum
      | _, _, [] => 0
      | 13, _, v :: r => BitVec.ofNat 32 (r.foldl (fun m x => minMaxCode fp32 (op = 2) m x.toNat) (minMaxCode fp32 (op = 2) v.toNat v.toNat))
      | _, 1, v :: r => BitVec.ofInt 32 ((r.map (num sg)).foldl min (num sg v))
      | _, 2, v :: r => BitVec.ofInt 32 ((r.map (num sg)).foldl max (num sg v))
      | _, 3, v :: r => r.foldl (· &&& ·) v
      | _, 4, v :: r => r.foldl (· ||| ·) v
      | _, _, v :: r => r.foldl (· ^^^ ·) v)) ∧
  ((∀ f : Form,
      let src (e : Env) (l : LaneAt) := threadOf e.s e.core e.team (e.b l f .int).toNat
      let plain (e : Env) : Prop := e.nb = none ∧ f.popsSource (opSpec 0x48 f.mod) = false
      let near (e : Env) : Prop := ∀ l ∈ e.act, farSource e l (src e l) = false ∧
        ∀ r, src e l = some r → vregOf f.a ∉ (e.s.lane e.core r).poison
      let far (e : Env) : Prop := ∀ l ∈ e.act, farSource e l (src e l) = true
      Does (.rdlane f) 0x48 f (fun e => plain e ∧ near e)
        (fun e => forEach (e.dests fun l =>
          [.w32 f.d (match src e l with | some r => readHeld e.s e.core r (vregOf f.a) | none => 0)]) e.s fun s d => d.write s e.core)
        (fun _ => []) ∧
      Does (.rdlane f) 0x48 f (fun e => plain e ∧ far e)
        (fun e => (addPend e.s e.core f (mine e) [] []
          (e.act.map fun l => ⟨l.2, f.d, (src e l).getD l.2, vregOf f.a, l.2 == e.first.2⟩) 0).2) (fun _ => [])) ∧
    (∀ (s : State) core (p : Pend), ((s.core core).pends.find? fun q => q.id == p.id) = some p →
      (∀ x ∈ p.samples, x.reg ∉ (s.lane core x.src).poison) →
      exec (.longLatencyComplete core p.id true) s = .next (onPend s core p.id fun q => { q with
        samples := [], dests := q.dests ++ p.samples.flatMap fun x => (Wr.w32 x.d (readHeld s core x.src x.reg)).dests x.r x.writer })))

/-! ## Floating point -/

/-- FP32 arithmetic: each result is the exact one, rounded once (R105 to R108, R112). FP64 arithmetic (R113). -/
def Obligations.FloatArithmetic : Prop :=
  (∀ f : Form,
    let rd := MOD.round f.mod == 3
    let v (x : W32) := fp32.decode x.toNat
    let a (e : Env) (l : LaneAt) := v (e.src l f.a (.fp fp32))
    let b (e : Env) (l : LaneAt) := v (e.b l f (.fp fp32))
    let b3 (e : Env) (l : LaneAt) := v (e.src l f.b (.fp fp32))
    let c (e : Env) (l : LaneAt) := v (e.c l f (.fp fp32))
    let part (F : Fmt) (w k : Nat) (x : W32) := F.decode (x.toNat / 2 ^ (w * k) % 2 ^ w)
    let H := if MOD.type f.mod = 12 then bf16 else fp16
    let Q := if MOD.type f.mod = 16 then e5m2 else e4m3
    Gives (.fadd f) 0x90 f (single f fun e l => sumExact rd [a e l, b e l]) ∧
    Gives (.fsub f) 0x91 f (single f fun e l => sumExact rd [a e l, (b e l).neg]) ∧
    Gives (.fmul f) 0x92 f (single f fun e l => (a e l).mul (b e l)) ∧
    Gives (.ffma f) 0x93 f (single f fun e l => sumExact rd [(a e l).mul (b3 e l), c e l]) ∧
    Gives (.fmin f) 0x94 f (single f fun e l => (a e l).minNum (b e l)) ∧
    Gives (.fmax f) 0x95 f (single f fun e l => (a e l).maxNum (b e l)) ∧
    Gives (.fsqrt f) 0x98 f (single f fun e l => (a e l).sqrt) ∧
    Gives (.fdiv f) 0x99 f (single f fun e l => (a e l).div (b e l)) ∧
    Gives (.flerp f) 0xEC f (single f fun e l => sumExact rd [a e l, (c e l).mul (sumExact rd [b3 e l, (a e l).neg])]) ∧
    Gives (.fscale f) 0xAD f (single f fun e l => scaleBy (a e l) (e.b l f .int).toInt) ∧
    Gives (.fdot2 f) 0xA6 f (single f fun e l => sumExact rd (c e l :: (List.range 2).map fun k =>
      (part H 16 k (e.src l f.a (.pair H))).mul (part H 16 k (e.src l f.b (.pair H))))) ∧
    Gives (.fdot4 f) 0xA7 f (single f fun e l => sumExact rd (c e l :: (List.range 4).map fun k =>
      (part Q 8 k (e.src l f.a .bytes)).mul (part Q 8 k (e.src l f.b .bytes))))) ∧
  (∀ f : Form,
    let rd := MOD.round f.mod == 3
    let v (x : W64) := fp64.decode x.toNat
    let a (e : Env) (l : LaneAt) := v (e.src64 l f.a (.fp fp64))
    let b (e : Env) (l : LaneAt) := v (e.b64 l f (.fp fp64))
    Gives (.dadd f) 0xF0 f (double f fun e l => sumExact rd [a e l, b e l]) ∧
    Gives (.dsub f) 0xF1 f (double f fun e l => sumExact rd [a e l, (b e l).neg]) ∧
    Gives (.dmul f) 0xF2 f (double f fun e l => (a e l).mul (b e l)) ∧
    Gives (.dfma f) 0xF3 f (double f fun e l =>
      sumExact rd [(a e l).mul (v (e.src64 l f.b (.fp fp64))), v (e.c64 l f (.fp fp64))]) ∧
    Gives (.dmin f) 0xF4 f (double f fun e l => (a e l).minNum (b e l)) ∧
    Gives (.dmax f) 0xF5 f (double f fun e l => (a e l).maxNum (b e l)) ∧
    Gives (.ddiv f) 0xF6 f (double f fun e l => (a e l).div (b e l)) ∧
    Gives (.dsqrt f) 0xF7 f (double f fun e l => (a e l).sqrt) ∧
    Gives (.dscale f) 0xFF f (double f fun e l => scaleBy (a e l) (e.b l f .int).toInt) ∧
    Gives (.dround f) 0xFD f (fun e l =>
      let g := (e.s.lane e.core l.2).g
      let g' := if MOD.round f.mod = 4 then stepG g else g
      .w64 f.d (BitVec.ofNat 64 (roundOwn fp64 (MOD.round f.mod) g' (a e l))) :: (if MOD.round f.mod = 4 then [.gen g'] else [])))

/-- Packed 16-bit arithmetic: two elements, the low one rounded first (R107, R111). Classes, sign and fraction operations, and
the rounding generator (R108, R109, R115, R123). -/
def Obligations.PackedArithmetic : Prop :=
  (∀ f : Form,
    let F := if MOD.type f.mod = 12 then bf16 else fp16
    let rd := MOD.round f.mod == 3
    let rs := MOD.round f.mod = 4
    let lo (x : W32) := F.decode (x.toNat % 65536)
    let hi (x : W32) := F.decode (x.toNat / 65536)
    let packed (y z : Env → LaneAt → W32) (op : Val → Val → Val → Val) (e : Env) (l : LaneAt) : List Wr :=
      let g0 := (e.s.lane e.core l.2).g
      let g1 := if rs then stepG g0 else g0
      let g2 := if rs then stepG g1 else g1
      let x := e.src l f.a (.pair F)
      let r (g : W32) (v : Val) := fres F (MOD.round f.mod) (MOD.sat f.mod) g v
      .w32 f.d (BitVec.ofNat 32 (r g1 (op (lo x) (lo (y e l)) (lo (z e l))) + 65536 * r g2 (op (hi x) (hi (y e l)) (hi (z e l))))) ::
        (if rs then [.gen g2] else [])
    let two := packed (fun e l => e.b l f (.pair F)) fun _ _ => 0
    Gives (.hadd2 f) 0xA0 f (two fun a b _ => sumExact rd [a, b]) ∧
    Gives (.hsub2 f) 0xA1 f (two fun a b _ => sumExact rd [a, b.neg]) ∧
    Gives (.hmul2 f) 0xA2 f (two fun a b _ => a.mul b) ∧
    Gives (.hfma2 f) 0xA3 f (packed (fun e l => e.src l f.b (.pair F)) (fun e l => e.c l f (.pair F)) fun a b c => sumExact rd [a.mul b, c]) ∧
    Gives (.hmin2 f) 0xA4 f (two fun a b _ => a.minNum b) ∧
    Gives (.hmax2 f) 0xA5 f (two fun a b _ => a.maxNum b)) ∧
  (∀ f : Form,
    let kind (F : Fmt) (x : Val) : Nat := match x with
      | .inf true => 0 | .inf false => 7 | .nan => 8
      | .fin n m e => if m = 0 then (if n then 3 else 4)
        else if (Nat.log2 m : Int) + e < 1 - F.bias then (if n then 2 else 5) else if n then 1 else 6
    let halves (_F : Fmt) (h : Nat → Nat → Nat) (x y : W32) : W32 :=
      BitVec.ofNat 32 (h (x.toNat % 65536) (y.toNat % 65536) + 65536 * h (x.toNat / 65536) (y.toNat / 65536))
    let F := if MOD.type f.mod = 12 then bf16 else fp16
    let sign (F : Fmt) (a b : Nat) : Nat :=
      let m := 2 ^ (F.eb + F.fb)
      if (F.decode a).isNan then F.nan else a % m + (if (F.decode b).isNan then 0 else b / m % 2 * m)
    let sat (F : Fmt) (a _ : Nat) : Nat :=
      let x := F.decode a
      if x.isNan ∨ x.isNeg then 0 else if Val.lt (.fin false 1 0) x then F.bias * 2 ^ F.fb else a
    Gives (.fclass f) 0x9F f (word f fun e l => 1#32 <<< kind fp32 (fp32.decode (e.src l f.a (.fp fp32)).toNat)) ∧
    Gives (.dclass f) 0xFE f (word f fun e l => 1#32 <<< kind fp64 (fp64.decode (e.src64 l f.a (.fp fp64)).toNat)) ∧
    Gives (.fsat f) 0xED f (word f fun e l =>
      if MOD.type f.mod = 0 then BitVec.ofNat 32 (sat fp32 (e.src l f.a (.fp fp32)).toNat 0)
      else halves F (sat F) (e.src l f.a (.pair F)) 0) ∧
    Gives (.fract f) 0xEF f (word f fun e l => match fp32.decode (e.src l f.a (.fp fp32)).toNat with
      | .fin n m x => if x ≥ 0 then 0 else
          let k := (-x).toNat
          let r := if n ∧ m % 2 ^ k ≠ 0 then 2 ^ k - m % 2 ^ k else m % 2 ^ k
          BitVec.ofNat 32 (min (fres fp32 3 false 0 (.fin false r x)) 0x3F7FFFFF)
      | _ => 0x7FC00000) ∧
    Gives (.fcopysign f) 0xAF f (fun e l =>
      if MOD.type f.mod = 0 then [.w32 f.d (BitVec.ofNat 32 (sign fp32 (e.src l f.a (.fp fp32)).toNat (e.b l f (.fp fp32)).toNat))]
      else if MOD.type f.mod = 14 then
        [.w64 f.d (BitVec.ofNat 64 (sign fp64 (e.src64 l f.a (.fp fp64)).toNat (e.b64 l f (.fp fp64)).toNat))]
      else [.w32 f.d (halves F (sign F) (e.src l f.a (.pair F)) (e.b l f (.pair F)))]) ∧
    Gives (.seed f) 0xDE f (fun e l => [.gen (e.src l f.a .int)]) ∧
    Gives (.rand f) 0xDF f (fun e l =>
      let g := stepG (e.s.lane e.core l.2).g
      [.w32 f.d (if MOD.type f.mod = 13 then BitVec.ofNat 32 (roundRne fp32 (.fin false (g.toNat / 256) (-24))) else g), .gen g]))

/-- The conversions (R116 to R122). The model's own choices in it are those of notes/assumptions/115, 116. -/
def Obligations.Conversions : Prop := ∀ f : Form,
  let m := MOD.round f.mod
  let ty := MOD.type f.mod
  let src := styleOf f
  let rs := m = 4
  let g (e : Env) (l : LaneAt) := if rs then stepG (e.s.lane e.core l.2).g else (e.s.lane e.core l.2).g
  let gen (g : W32) : List Wr := if rs then [.gen g] else []
  let v (x : W32) := fp32.decode x.toNat
  let int (t : Nat) : NF := if t = 0 then .int 32 true else nfOfType t
  let cv (F : NF) (e : Env) (l : LaneAt) (x : Val) : Nat := convert F m (MOD.sat f.mod) (g e l) x
  let pk := if ty = 0 then 11 else ty
  let size : Nat × Bool := if ty = 8 then (64, false) else if ty = 5 then (32, true) else if ty = 6 then (32, false) else (64, true)
  Gives (.cvtf f) 0xA8 f (fun e l =>
    .w32 f.d (match nfOfType ty with
      | .int w sg => extend32 w sg (cv (nfOfType ty) e l ((nfOfType src).decode (e.src l f.a (immOfType src)).toNat))
      | F => BitVec.ofNat 32 (cv F e l ((nfOfType src).decode (e.src l f.a (immOfType src)).toNat))) :: gen (g e l)) ∧
  Gives (.cvtfi f) 0xA9 f (fun e l =>
    .w32 f.d (match int ty with
      | .int w sg => extend32 w sg (cv (int ty) e l ((nfOfType src).decode (e.src l f.a (immOfType src)).toNat))
      | F => BitVec.ofNat 32 (cv F e l ((nfOfType src).decode (e.src l f.a (immOfType src)).toNat))) :: gen (g e l)) ∧
  Gives (.cvtif f) 0xAA f (fun e l =>
    .w32 f.d (match nfOfType ty with
      | .int w sg => extend32 w sg (cv (nfOfType ty) e l ((int src).decode (e.src l f.a .int).toNat))
      | F => BitVec.ofNat 32 (cv F e l ((int src).decode (e.src l f.a .int).toNat))) :: gen (g e l)) ∧
  Gives (.cvtpk f) 0xAB f (fun e l =>
    let t := nfOfType pk
    let g2 := if rs then stepG (g e l) else g e l
    let x := cv t e l (v (e.src l f.a (.fp fp32)))
    let y := convert t m (MOD.sat f.mod) g2 (v (e.src l f.b (.fp fp32)))
    .w32 f.d (putBits (putBits (e.src l f.c.opnd .int) (t.width * (2 * src)) t.width x) (t.width * (2 * src + 1)) t.width y) :: gen g2) ∧
  Gives (.cvtupk f) 0xAC f (word f fun e l =>
    BitVec.ofNat 32 (roundRne fp32 ((nfOfType pk).decode ((e.src l f.a (immOfType pk)).toNat / 2 ^ ((nfOfType pk).width * src))))) ∧
  Gives (.fround f) 0xAE f (fun e l =>
    .w32 f.d (BitVec.ofNat 32 (roundOwn fp32 m (g e l) (v (e.src l f.a (.fp fp32))))) :: gen (g e l)) ∧
  Gives (.cvtd f) 0xFA f (fun e l =>
    if ty = 0 then .w64 f.d (BitVec.ofNat 64 (cv (.fp fp64) e l (v (e.src l f.a (.fp fp32))))) :: gen (g e l)
    else .w32 f.d (BitVec.ofNat 32 (cv (nfOfType ty) e l (fp64.decode (e.src64 l f.a (.fp fp64)).toNat))) :: gen (g e l)) ∧
  Gives (.cvtdi f) 0xFB f (fun e l =>
    let x := toInt size.1 size.2 m (MOD.sat f.mod) (g e l) (fp64.decode (e.src64 l f.a (.fp fp64)).toNat)
    (if size.1 = 32 then .w32 f.d (BitVec.ofNat 32 x) else .w64 f.d (BitVec.ofNat 64 x)) :: gen (g e l)) ∧
  Gives (.cvtid f) 0xFC f (fun e l =>
    let x : Int := if size.1 = 32 then num size.2 (e.src l f.a .int) else num size.2 (e.src64 l f.a (if size.2 then .int else .n64))
    .w64 f.d (BitVec.ofNat 64 (fres fp64 m (MOD.sat f.mod) (g e l) (.fin (x < 0) x.natAbs 0))) :: gen (g e l))

/-- The approximate functions return one fixed value per input, and at the special inputs the values listed (R110, R113);
which value within the bound is the model's free choice. The model's own choices in it are those of notes/assumptions/14. -/
def Obligations.ApproximateFunctions : Prop :=
  (∀ f : Form,
    let fn (h : Nat → Nat) := word f fun e l => BitVec.ofNat 32 (h (e.src l f.a (.fp fp32)).toNat)
    Gives (.frcp f) 0x96 f (fn (rcp 0x96 fp32)) ∧ Gives (.frsq f) 0x97 f (fn rsqrt) ∧ Gives (.fsin f) 0x9A f (fn sine) ∧
    Gives (.fcos f) 0x9B f (fn cosine) ∧ Gives (.fexp2 f) 0x9C f (fn exp2Fn) ∧ Gives (.flog2 f) 0x9D f (fn log2Fn) ∧
    Gives (.ftanh f) 0x9E f (fn tanhFn) ∧ Gives (.fexp f) 0xEE f (fn expFn) ∧
    Gives (.drcp f) 0xF8 f (long f fun e l => BitVec.ofNat 64 (rcp 0xF8 fp64 (e.src64 l f.a (.fp fp64)).toNat))) ∧
  (rcp 0x96 fp32 0 = 0x7F800000 ∧ rcp 0x96 fp32 0x80000000 = 0xFF800000 ∧ rcp 0x96 fp32 0x7F800000 = 0 ∧
    rcp 0x96 fp32 0xFF800000 = 0x80000000 ∧ rcp 0x96 fp32 0x40800000 = 0x3E800000) ∧
  (rsqrt 0 = 0x7F800000 ∧ rsqrt 0x80000000 = 0xFF800000 ∧ rsqrt 0x7F800000 = 0 ∧ rsqrt 0x40800000 = 0x3F000000 ∧
    rsqrt 0xBF800000 = 0x7FC00000) ∧
  (sine 0 = 0 ∧ sine 0x80000000 = 0x80000000 ∧ sine 0x7F800000 = 0x7FC00000 ∧ cosine 0 = 0x3F800000 ∧ cosine 0xFF800000 = 0x7FC00000) ∧
  (exp2Fn 0x40400000 = 0x41000000 ∧ exp2Fn 0x43000000 = 0x7F800000 ∧ exp2Fn 0xFF800000 = 0 ∧ expFn 0 = 0x3F800000 ∧
    expFn 0x80000000 = 0x3F800000 ∧ expFn 0xFF800000 = 0) ∧
  (log2Fn 0x3F800000 = 0 ∧ log2Fn 0x41000000 = 0x40400000 ∧ log2Fn 0 = 0xFF800000 ∧ log2Fn 0xBF800000 = 0x7FC00000 ∧
    tanhFn 0x41200000 = 0x3F800000 ∧ tanhFn 0xC1200000 = 0xBF800000 ∧ tanhFn 0x80000000 = 0x80000000)

/-! ## Reads, branches, traps -/

/-- The status words that read what the machine holds: vector clocks (R299, R311), masks (R152), queues (R269), commands (R262),
the matrix units (R288), episodes (R319), homes (R206) and groups (R379), field by field. The formats that MSTAT gives are those
after every operation appended so far: a LATCH leaves its own in the back plane, a STREAM that swaps exchanges the two. The model's own choices in it are those of notes/assumptions/53. -/
def Obligations.StatusReads : Prop := ∀ f : Form,
  let vec (e : Env) (l : LaneAt) (o : Opnd) (k : Nat) : W16 := BitVec.ofNat 16 (((e.vregs l o 8).getD (k / 2) 0).toNat / 2 ^ (16 * (k % 2)))
  let covers (u v : Nat → W16) : Bool := (List.range 16).all fun k => (u k - v k).toNat < 32768
  let words (u : Nat → W16) : List W32 := (List.range 8).map fun i => u (2 * i + 1) ++ u (2 * i)
  Gives (.vvcmp f) 0xD0 f (word f fun e l =>
    if covers (vec e l f.a) (vec e l f.b) then (if covers (vec e l f.b) (vec e l f.a) then 0 else 1)
    else if covers (vec e l f.b) (vec e l f.a) then 2 else 3) ∧
  Gives (.vvmax f) 0xD1 f (fun e l => [.group f.d (words fun k =>
    let a := vec e l f.a k
    let b := vec e l f.b k
    let d := (b - a).toNat
    if d = 32768 then (if a.toNat < b.toNat then b else a) else if 1 ≤ d ∧ d < 32768 then b else a)]) ∧
  Gives (.vvinc f) 0xD2 f (fun e l => [.group f.d (words fun k =>
    if k = (e.src l f.b .int).toNat % 16 then vec e l f.a k + 1 else vec e l f.a k)]) ∧
  Gives (.jget f) 0x5D f (word f fun e _ => tgetD (e.s.wave e.core e.g.slot).masks (maskReg f.a) 0) ∧
  let queue (e : Env) : W32 := match tget (e.s.wave e.core e.first.2.slot).q (match f.a with | .q n _ _ => n.toNat | _ => 0) with
    | none => 0
    | some b =>
      let k := e.s.carrel b.die b.carrel
      BitVec.ofNat 32 ((if b.push then k.actions.length else k.obs.length) + 2 ^ 4 + (if b.push then 2 ^ 5 else 0) +
        if k.state = .ended then 2 ^ 6 else 0)
  let ops (e : Env) := (e.s.core e.core).mat.filter fun m => m.team == e.team
  let planes (e : Env) := planesAhead e.s e.core e.team
  let matrix (e : Env) : W32 := BitVec.ofNat 32 (min (ops e).length 63 + 2 ^ 8 * (planes e).1.1 + 2 ^ 12 * (planes e).2.1 +
    2 ^ 16 * (e.s.team e.team).tiles.foldl (fun m k => m ||| 2 ^ k) 0)
  let episode (e : Env) (h : W32) : W64 :=
    let k := e.s.carrel (h.extractLsb' 7 3).toNat (h.extractLsb' 0 7).toNat
    if h.getLsbD 31 = false ∧ h.extractLsb' 10 6 = 0 ∧ k.gen = h.extractLsb' 16 15 ∧ k.state ≠ .free ∧ k.scrub.isSome = false ∧
        k.launch = (e.s.team e.team).launch then
      BitVec.ofNat 64 ((if k.state = .running then 1 else 2 + 2 ^ 2 * k.cause) + (if k.active.isSome then 2 ^ 5 else 0) +
        (if k.susp.isSome then 2 ^ 6 else 0) + 2 ^ 16 * k.startVer.toNat + 2 ^ 32 * (k.active.getD k.lastStep).toNat)
    else 0
  let home (e : Env) (va : Nat) : W32 := match leafFor e.s e.die (teamAsid e.s e.team) va with
    | none => 0xC0000000
    | some none => 0x40000000
    | some (some (leaf, level)) =>
      let pa := ((leaf.extractLsb' 8 40).toNat * 256 + va % 2 ^ (if level = 1 then 30 else if level = 2 then 21 else 16)) % 2 ^ 40
      let part (lo n : Nat) : Nat := pa / 2 ^ lo % n
      let die := if leaf.getLsbD 7 then part 12 8 ^^^ part 15 8 ^^^ part 18 8 else (leaf.extractLsb' 56 3).toNat
      if leaf.getLsbD 2 = false then 0xC0000000
      else if leaf.extractLsb' 5 2 = 1 ∨ leaf.extractLsb' 5 2 = 2 then 0x80000000
      else BitVec.ofNat 32 ((part 7 32 ^^^ part 12 32 ^^^ part 17 32 ^^^ part 22 32) + 2 ^ 8 * die + 2 ^ 16 * (leaf.getLsbD 7).toNat)
  let group (e : Env) (slot : Nat) : W32 :=
    let m := e.s.comm slot
    let x := e.s.commDie e.die slot
    if slot < 12 ∧ (tget e.s.comms slot).isSome then match rankOf e.s slot e.die with
      | none => 0xFFFFFFFF
      | some rank => match (f.mod.extractLsb' 0 3).toNat with
        | 0 => BitVec.ofNat 32 rank | 1 => BitVec.ofNat 32 m.nmemb | 2 => x.nextSeq | 3 => x.closed | 4 => BitVec.ofNat 32 x.last
        | 5 => BitVec.ofNat 32 (m.dx + 2 ^ 10 * m.dy + 2 ^ 20 * m.dz)
        | _ => BitVec.ofNat 32 (x.anyClosed.toNat + 2 * x.pendingClose.toNat)
    else 0xFFFFFFFF
  Gives (.qstat f) 0xBF f (word f fun e _ => queue e) ∧
  Gives (.cstat f) 0xB2 f (word f fun e l => statWord e.s e.core e.team (e.src l f.a .int)) ∧
  Gives (.mstat f) 0xC8 f (word f fun e _ => matrix e) ∧
  Gives (.epstat f) 0xE2 f (long f fun e l => episode e (e.src l f.a .int)) ∧
  Gives (.homeof f) 0xE7 f (word f fun e l => home e ((e.src64 l f.a .int).toNat % 2 ^ 56)) ∧
  Gives (.grprd f) 0xE6 f (word f fun e l => group e (e.src l f.a .int).toNat) ∧
  (∀ (s : State) core t,
    let x := s.team t
    (∀ op ∈ (s.core core).mat, op.team ≠ t) →
    planesAhead s core t = ((x.front.fmt, x.front.folios), (x.back.fmt, x.back.folios))) ∧
  (∀ (s : State) core t ms op, (s.core core).mat = ms ++ [op] → op.team = t → releasedBefore s core t op.id = [] →
    let p := planesAhead (s.onCore core fun c => { c with mat := ms }) core t
    (op.op = 1 → planesAhead s core t = (p.1, (op.dw0.toNat / 2 ^ 4 % 16, (List.range 4).map op.rec_.quarter))) ∧
    (op.op = 2 → op.dw0.getLsbD 9 = true → planesAhead s core t = (p.2, p.1)) ∧
    (op.op ≠ 1 → (op.op = 2 → op.dw0.getLsbD 9 = false) → planesAhead s core t = p))

/-- Branches, calls and returns (R97 to R100): where every contributing lane's target is a header inside the code range the
lanes go to their targets, and otherwise the group takes ILLEGAL_TARGET. A lane's call stores the return offset in its frame,
one frame deeper, and the lane goes to its target (R99, R100). RET (R100): a lane with a frame whose bytes are at hand goes to
the target it holds, one frame shallower; a lane without a frame takes ILLEGAL_TARGET. The model's own choices in it are those
of notes/assumptions/89. -/
def Obligations.Branches : Prop :=
  ((∀ s core t mon off pc, resolve s core t mon off = some pc ↔
      off % 4 = 0 ∧ off + 12 ≤ (codeRange s t mon).2 ∧ pc = BitVec.ofNat 56 ((codeRange s t mon).1 + off) ∧
      ∃ w, codeWord s (dieOf core) (teamAsid s t) ((codeRange s t mon).1 + off) = some w ∧ w.extractLsb' 0 8 = 0) ∧
    ∀ f : Form,
    let at_ (e : Env) (l : LaneAt) (off : W32) := resolve e.s e.core e.team (e.s.lane e.core l.2).mon off.toNat
    let goto (e : Env) (off : LaneAt → W32) : State := forEach e.act e.s fun s l => match at_ e l (off l) with
      | some pc => s.onLane e.core l.2 fun x => { x with pc := pc, clause := none, block := .none }
      | none => s
    let all (off : Env → LaneAt → W32) (e : Env) : Prop := ∀ l ∈ e.act, (at_ e l (off e l)).isSome
    let lost (off : Env → LaneAt → W32) (e : Env) : List LaneRef := mine { e with act := e.act.filter fun l => (at_ e l (off e l)).isNone }
    let bra (e : Env) (l : LaneAt) := e.c l f .int
    let brx (e : Env) (l : LaneAt) := e.src l f.a .int
    let room (e : Env) : Prop := ∀ l ∈ e.act, 4 * ((e.s.lane e.core l.2).cd + 1) ≤ e.pkt.priv
    let called (off : Env → LaneAt → W32) (e : Env) : State × List LaneRef :=
      (e.act.filterMap fun l => (at_ e l (off e l)).map fun pc => (l.2, pc)).foldl (callLane e.team e.core e.pkt) (e.s, [])
    Does (.bra f) 0x02 f (all bra) (fun e => goto e (bra e)) mine ∧
    Does (.brx f) 0x03 f (all brx) (fun e => goto e (brx e)) mine ∧
    Traps (.bra f) 0x02 f (fun e => ¬ all bra e) 0x02 (lost bra) (fun _ _ => 0) ∧
    Traps (.brx f) 0x03 f (fun e => ¬ all brx e) 0x02 (lost brx) (fun _ _ => 0) ∧
    Does (.call f) 0x04 f (fun e => all bra e ∧ room e ∧ (called bra e).1.live e.team)
      (fun e => countRejects (called bra e).1 e.core e.g.refs (called bra e).2) mine ∧
    Does (.callx f) 0x05 f (fun e => all brx e ∧ room e ∧ (called brx e).1.live e.team)
      (fun e => countRejects (called brx e).1 e.core e.g.refs (called brx e).2) mine) ∧
  (∀ (s : State) (t core : Nat) (p : Packet) (r : LaneRef) (pc : VA) (u : State),
    s.live t = true →
    performLane s core t (teamAsid s t) [frameAccess s core p (s.team t) r (s.lane core r).cd 1
      (leBytes 4 (codeOffset s t (s.lane core r).mon ((s.lane core r).pc + 12)).toNat)] = .ok u →
    u.live t = true →
    (callLane t core p (s, []) (r, pc)).2 = [] ∧
    ((callLane t core p (s, []) (r, pc)).1.lane core r).pc = pc ∧
    ((callLane t core p (s, []) (r, pc)).1.lane core r).cd = (u.lane core r).cd + 1 ∧
    frameAddr p (s.lane core r).cd = 0x80000000 + p.priv - 4 * ((s.lane core r).cd + 1)) ∧
  (∀ f : Form,
    let xs (e : Env) := e.act.map fun l => (l.2, frameAccess e.s e.core e.pkt (e.s.team e.team) l.2 ((e.s.lane e.core l.2).cd - 1) 0 [])
    let got (e : Env) := retLoads e.core e.team (xs e) e.s []
    let read (e : Env) : State := countRejects (got e).1 e.core e.g.refs []
    Does (.ret f) 0x06 f
      (fun e => (∀ l ∈ e.act, (e.s.lane e.core l.2).cd ≠ 0 ∧ 4 * (e.s.lane e.core l.2).cd ≤ e.pkt.priv ∧
          testLocal e.pkt (e.s.team e.team) 0 false (frameAddr e.pkt ((e.s.lane e.core l.2).cd - 1)) 4 = none) ∧
        (got e).1.live e.team ∧
        ∀ x ∈ (got e).2, ∃ v, x.2 = .value v ∧ (resolve (read e) e.core e.team (e.mon x.1) v.toNat).isSome)
      (fun e => forEach (got e).2 (read e) fun s x => match x.2 with
        | .value v => match resolve (read e) e.core e.team (e.mon x.1) v.toNat with
          | some pc => s.onLane e.core x.1 fun l => { l with pc := pc, clause := none, block := .none, cd := l.cd - 1 }
          | none => s
        | _ => s)
      (fun e => (got e).2.map (·.1)) ∧
    Traps (.ret f) 0x06 f (fun e => ∀ l ∈ e.act, (e.s.lane e.core l.2).cd = 0) 0x02 mine (fun _ _ => 0))

/-- A clause header (R16, R22): lanes whose WAIT flags are clear enter the clause, the others block at the header. -/
def Obligations.ClauseHeader : Prop := ∀ (h : Header) (s : State) (g : Cur), s.cur = some g → g.refs.Nodup →
  let waits (r : LaneRef) : Bool := !(s.lane g.core r).flagsClear h.wait
  ∃ t, exec (.clause h) s = .next t ∧
    (∀ r ∈ g.refs, waits r = true → (t.lane g.core r).block = .flags h.wait ∧ (t.lane g.core r).pc = (s.lane g.core r).pc ∧
      (t.lane g.core r).clause = (s.lane g.core r).clause) ∧
    (∀ r ∈ g.refs, waits r = false → (t.lane g.core r).pc = (s.lane g.core r).pc + 12 ∧
      (t.lane g.core r).clause = some { hdr := (s.lane g.core r).pc, left := h.len.toNat + 1, flagA := h.flagA, flagB := h.flagB }) ∧
    (∀ r k, vreg t g.core r k = vreg s g.core r k ∧ preg t g.core r k = preg s g.core r k) ∧
    (∀ slot k, sreg t g.core slot k = sreg s g.core slot k) ∧
    { t with cores := [] } = { s with cores := [] } ∧ (∀ c, c ≠ g.core → t.core c = s.core c)

/-- What issuing leaves (R10, R16, R130, R178): a finished word moves its lanes to the next word and changes no register, no memory
and no other core; one that accesses no local space returns the rejection counts of its waves to 0, any other leaves them. A
word that its guard keeps from every lane is done with no other effect (R18, R55). The model's own choices in it are those of
notes/assumptions/86. -/
def Obligations.WordFrame : Prop := ∀ (opc : Nat) (s0 s : State) (g : Cur) (stay : List LaneRef), g.refs.Nodup →
  let t := wordDone opc s0 g s stay
  OnlyWrites g.core s t [] ∧ Beside g.core s t ∧ (mayReject opc = false → Unrejected s t g) ∧
  (mayReject opc = true → ∀ slot, (t.wave g.core slot).rejects = (s.wave g.core slot).rejects) ∧
  (∀ r ∈ g.refs, r ∉ stay → (t.lane g.core r).pc = (s.lane g.core r).pc + 12) ∧
  (∀ r, r ∉ g.refs ∨ r ∈ stay → (t.lane g.core r).pc = (s.lane g.core r).pc ∧
    (t.lane g.core r).clause = (s.lane g.core r).clause) ∧
  (∀ r, readP t g.core r 7 = true) ∧
  (∀ e opc f, e.nb = none → putOutcome e opc f s = s) ∧
  (∀ (i : Instr) opc f, i.word? = some (opc, f) → (∀ h, i ≠ .udf h) → s.cur = some g → checkWord s g opc.toNat f = none →
    g.lanes ≠ [] → (∀ l ∈ g.lanes, readP s g.core l.2 (f.guard.extractLsb' 0 3).toNat = f.guard.getLsbD 3) →
    exec i s = .next (wordDone 1 s g s []))

/-- NOP, YIELD, SLEEP and EXIT (R101, R103). The model's own choices in it are those of notes/assumptions/13, 133. -/
def Obligations.ThreadControl : Prop :=
  (∀ f : Form,
    Does (.nop f) 0x01 f (fun _ => True) (fun e => e.s) (fun _ => []) ∧
    Does (.yield f) 0x0A f (fun _ => True) (fun e => match e.g.reformed with
      | none => e.s.onWave e.core e.g.slot fun w => { w with yielded := e.s.now / 2 + 2 }
      | some id => e.s.onCore e.core fun c => { c with groups := c.groups.map fun x =>
          if x.id = id then { x with yielded := e.s.now / 2 + 2 } else x }) (fun _ => []) ∧
    Does (.sleep f) 0x0B f (fun _ => True)
      (fun e => eachBlocks e e.s fun l => .sleep (e.s.now + 2 * min (e.src l f.a .int).toNat 1048575)) mine ∧
    Does (.exit f) 0x07 f (fun _ => True)
      (fun e => closeRegion (forEach (mine e) e.s fun s r => exitThread s e.core e.team r) e.team) mine) ∧
  (∀ (s : State) core slot lane til, (s.lane core ⟨slot, lane⟩).block = .sleep til → til ≤ s.now →
    exec (.sleepEnd core slot lane) s = .next (s.onLane core ⟨slot, lane⟩ Lane.next)) ∧
  (∀ (s : State) core t (r : LaneRef), ((exitThread s core t r).lane core r).exited = true ∧
    ((exitThread s core t r).lane core r).clause = none)

/-- Taking a trap (R27, R329, R331): with a monitor, out of monitor mode and with nothing outstanding, every lane of the group
stands at TRAPENTRY in monitor mode with the cause and what it saves, its registers as they were; nothing else changes. MHDR
holds the header of its clause, or its PC where it stands at a header or its word does not lie in the code range. The model's
own choices in it are those of notes/assumptions/111. -/
def Obligations.TrapEntry : Prop := ∀ (s : State) (g : Cur) (cause : Nat) (origin : List LaneRef) (tag : LaneRef → W32),
  let team := g.team s
  let range := codeRange s team false
  let base := BitVec.ofNat 56 range.1
  let out (l : Lane) : Prop := l.pc.toNat < range.1 ∨ range.1 + range.2 < l.pc.toNat + 12
  g.refs.Nodup → (∀ r ∈ g.refs, (s.lane g.core r).mon = false) → effMonLen s (teamRcb s team) ≠ 0 →
  (∀ r ∈ g.refs, outstanding s g.core r = false) →
  let t := takeTrap s g cause origin tag
  (∀ r ∈ g.refs, let l := s.lane g.core r; let l' := t.lane g.core r
    l'.mon = true ∧ l'.pc = BitVec.ofNat 56 (effTrapEntry s (teamRcb s team)) ∧ l'.clause = none ∧ l'.block = .none ∧
    l'.mregs.cause = BitVec.ofNat 32 cause ∧ l'.mregs.mtag = tag r ∧ l'.mregs.origin = origin.contains r ∧
    l'.mregs.mepc = ((if cause = 0x0B then l.pc + 12 else l.pc) - base).extractLsb' 0 32 ∧
    (out l → l'.mregs.mhdr = l'.mregs.mepc ∨ cause = 0x0B) ∧
    (¬ out l → l'.mregs.mhdr = ((match l.clause with | some c => c.hdr | none => l.pc) - base).extractLsb' 0 32) ∧
    l'.mregs.word = g.word ∧ l'.mregs.mcd = BitVec.ofNat 32 l.cd ∧ l'.mregs.group = g.active) ∧
  (∀ r, r ∉ g.refs → t.lane g.core r = s.lane g.core r) ∧
  OnlyWrites g.core s t [] ∧ { t with cores := [] } = { s with cores := [] } ∧ (∀ c, c ≠ g.core → t.core c = s.core c)

/-- The words that raise a cause (R71, R102, R332): the words of a trap, and any word that fails a check made whatever its guard
(R11, R12, R17, R18, R21, R72, R139), check by check; and the lanes that enter the monitor once their outstanding words have
completed (R27, R329). ERET (R333): each lane returns to the address in MEPC, to the clause of MHDR when it lies inside it, in
user mode with the call depth of MCD. The model's own choices in it are those of notes/assumptions/114. -/
def Obligations.TrapWords : Prop :=
  ((∀ f : Form,
      let imm : W32 := match f.c with | .imm c => c | .reg _ _ => 0
      Traps (.trap f) 0x08 f (fun _ => True) 0x06 mine (fun _ _ => imm) ∧
      Traps (.brk f) 0x09 f (fun _ => True) 0x07 mine (fun _ _ => imm) ∧
      Traps (.svc f) 0x0D f (fun _ => True) 0x0B mine (fun _ _ => imm) ∧
      Traps (.assert f) 0x0C f (fun e => ∃ l ∈ e.act, e.pred l f.a = false) 0x05
        (fun e => mine { e with act := e.act.filter fun l => !e.pred l f.a }) (fun _ _ => imm) ∧
      Does (.assert f) 0x0C f (fun e => ∀ l ∈ e.act, e.pred l f.a = true) (fun e => e.s) (fun _ => []) ∧
      (∀ (s : State) (g : Cur), s.cur = some g → exec (.udf f) s = .next (takeTrap s g 0x01 g.refs fun _ => imm))) ∧
    (∀ (s : State) core slot bid (w : Wait) cause word group entries, (s.core core).findWait bid = some w →
      w.kind = .trap cause word group entries → w.slot = slot → (∀ r ∈ w.lanes, outstanding s core r = false) →
      exec (.monitorEntry core slot bid) s =
        .next (enterMonitor (dropWait s core bid) core (s.wave core slot).team cause word group entries))) ∧
  (∀ f : Form,
    let back (e : Env) (l : LaneAt) := eretTarget e.s e.core e.team (e.s.lane e.core l.2).mregs
    Does (.eret f) 0x0E f (fun e => ∀ l ∈ e.act, (back e l).isSome)
      (fun e => forEach e.act e.s fun s l => match back e l with
        | some (pc, c) => s.onLane e.core l.2 fun x => { x with
            pc := pc, clause := c, mon := false, cd := x.mregs.mcd.toNat, block := .none, mregs := { x.mregs with origin := false } }
        | none => s) mine ∧
    Traps (.eret f) 0x0E f (fun e => ∃ l ∈ e.act, back e l = none) 0x02
      (fun e => mine { e with act := e.act.filter fun l => (back e l).isNone }) (fun _ _ => 0)) ∧
  (∀ (i : Instr) opc f (s : State) g c, i.word? = some (opc, f) → (∀ h, i ≠ .udf h) → s.cur = some g →
    checkWord s g opc.toNat f = some c → exec i s = .next (takeTrap s g c g.refs fun _ => 0)) ∧
  (∀ (s : State) (g : Cur) (opc : Nat) (f : Form),
    let l := s.lane g.core (g.refs.headD ⟨g.slot, 0⟩)
    let sp := opSpec opc f.mod
    let legal : Prop := f.ok opc = true ∧ formDeclared opc (teamPkt s (g.team s)) f = true ∧
      (f.fset = 0 ∨ (l.flagOf f.fset).isSome = true) ∧ (sp.last = true → ∀ c, l.clause = some c → c.left = 1)
    let mode : Prop := sp.monitor = true → l.mon = true
    let barred : Prop := l.inRegion = true ∧ ((∃ k, f.d = .s k) ∨ (0x59 ≤ opc ∧ opc ≤ 0x5D) ∨ f.queues ≠ 0)
    (¬ legal → checkWord s g opc f = some 0x01) ∧ (legal → ¬ mode → checkWord s g opc f = some 0x0C) ∧
    (legal → mode → barred → checkWord s g opc f = some 0x09) ∧ (legal → mode → ¬ barred → checkWord s g opc f = none)) ∧
  (∀ (p : Packet) w, (∀ k, opndDeclared p w (.v k) = decide (k.toNat + w ≤ p.regs)) ∧
    ∀ k, opndDeclared p w (.s k) = decide (k.toNat + w ≤ p.sregs)) ∧
  (∀ opc ∈ [0x02, 0x03, 0x04, 0x05, 0x06, 0x07, 0x08, 0x09, 0x0D, 0x0E, 0x5E, 0x5F], ∀ m, (opSpec opc m).last = true) ∧
  (∀ opc ∈ [0x0E, 0xD3, 0xD4, 0xD5, 0xD6, 0xD7, 0xD8, 0xD9, 0xDA, 0xDB, 0xDD], ∀ m, (opSpec opc m).monitor = true) ∧
  (∀ (k : BitVec 8), k.toNat % 2 = 1 → Slot.src64.accepts (.v k) = false ∧ Slot.dst64.accepts (.v k) = false) ∧
  (∀ opc (f : Form), f.ok opc = true → f.fset ≠ 0 → f.fset ≠ 3 ∧ f.isLong opc = true) ∧
  (∀ (l : Lane) c, l.clause = some c → (l.flagOf 1).isSome = decide (c.flagA.toNat < 12) ∧ (l.flagOf 2).isSome = decide (c.flagB.toNat < 12))

/-! ## Masks, barriers, regions -/

/-- The mask instructions (R132, R133, R152). Reform regions (R136, R137, R140, R153). The model's own choices in it are those
of notes/assumptions/98, 110. -/
def Obligations.MasksAndRegions : Prop :=
  ((∀ f : Form,
      let lanes (e : Env) (p : LaneAt → Bool) : W32 := BitVec.ofFnLE fun i : Fin 32 => e.act.any fun l => l.2.lane == i.val && p l
      let on (e : Env) (m : Nat) (h : W32 → W32) : State :=
        e.s.onWave e.core e.g.slot fun w => { w with masks := tset w.masks m (h (tgetD w.masks m 0)) }
      Does (.join f) 0x59 f (fun _ => True) (fun e => on e (maskReg f.a) (· ||| lanes e fun _ => true)) (fun _ => []) ∧
      Does (.leave f) 0x5A f (fun _ => True) (fun e => on e (maskReg f.a) (· &&& ~~~lanes e fun _ => true)) (fun _ => []) ∧
      Does (.jset f) 0x5C f (fun _ => True) (fun e => on e (maskReg f.d) fun _ => lanes e fun l => e.pred l f.a) (fun _ => []) ∧
      Does (.jwait f) 0x5B f (fun _ => True) (fun e => eachBlocks e e.s fun _ => .jwait (maskReg f.a)) mine) ∧
    (∀ (s : State) core slot m, (s.wave core slot).group = [] → (∃ i ∈ arrivedAt (s.wave core slot) m, True) →
      (∀ i < 32, (tgetD (s.wave core slot).masks m 0).getLsbD i = true → i ∈ arrivedAt (s.wave core slot) m) →
      exec (.jwaitComplete core slot m) s =
        .next (forEach (arrivedAt (s.wave core slot) m) s fun s i => s.onLane core ⟨slot, i⟩ Lane.next))) ∧
  ((∀ f : Form,
      let ins (e : Env) := (mine e).filter fun r => (e.s.lane e.core r).inRegion
      Does (.reform f) 0x5E f (fun _ => True)
        (fun e => forEach (sortTids e.s e.core (mine e)) e.s fun s r =>
          reformThread (leaveGroups (enterRegion s e.core e.team r) e.core r) e.core e.team r)
        (fun e => sortTids e.s e.core (mine e)) ∧
      Does (.rejoin f) 0x5F f (fun _ => True)
        (fun e => closeRegion (forEach (ins e) e.s fun s r => setBlock (leaveGroups s e.core r) e.core r .rejoin) e.team) ins) ∧
    (∀ (s : State) core n r rest b, (s.core core).reformWait = (n, r) :: rest →
      binFor (s.core core) (s.wave core r.slot).team (reformKey (s.lane core r)) true = some b → s.firstHalf = true →
      exec (.reformWaitFile core) s = .next (fileWaiting rest.length
        (fileThread (s.onCore core fun c => { c with reformWait := rest }) core (s.wave core r.slot).team b r) core)) ∧
    (∀ (s : State) core bin b, tget (s.core core).bins bin = some b → b.opened + 512 ≤ s.now / 2 → s.lateHalf = true →
      exec (.binDrawAge core bin) s = .next (drawBin s core bin)))

/-- The barrier instructions (R154, R155): an arrival writes the phase and joins the cycle's batch, a wait blocks its lanes
with their tokens, BARINIT joins the batch with one value. A barrier object (R155, R156): an arrival counts once per phase and
thread, a phase completes when every expected thread has arrived, and with it the departed threads leave the expectation. The
model's own choices in it are those of notes/assumptions/12, 125. -/
def Obligations.Barriers : Prop :=
  ((∀ f : Form,
      let b := (f.mod.extractLsb' 0 4).toNat
      let phase (e : Env) : W16 := (barrierOf e.s e.team b).phase
      let tids (e : Env) := e.act.map fun l => tidOf e.s e.core l.2
      let batch (e : Env) (h : BarBatch → BarBatch) : State :=
        e.s.onTeam e.team fun x => { x with batch := tset x.batch b (h (tgetD x.batch b default)) }
      let arrive (e : Env) (h : BarBatch → BarBatch) : State := e.results 0x60 f (batch e h) fun _ => [.w32 f.d ((phase e).zeroExtend 32)]
      let token (e : Env) (l : LaneAt) : W16 := BitVec.ofNat 16 (e.src l f.a .int).toNat
      Does (.bara f) 0x60 f (fun _ => True) (fun e => arrive e fun x => { x with arrivals := x.arrivals ++ tids e }) (fun _ => []) ∧
      Does (.bard f) 0x63 f (fun _ => True)
        (fun e => arrive e fun x => { x with arrivals := x.arrivals ++ tids e, departs := x.departs ++ tids e }) (fun _ => []) ∧
      Does (.barw f) 0x61 f (fun _ => True) (fun e => eachBlocks e (batch e id) fun l => .barrier b (token e l)) mine ∧
      Does (.baraw f) 0x62 f (fun _ => True)
        (fun e => eachBlocks e (arrive e fun x => { x with arrivals := x.arrivals ++ tids e }) fun _ => .barrier b (phase e)) mine ∧
      Does (.bart f) 0x64 f (fun _ => True) (fun e => eachBlocks e (batch e id) fun l => .bart b (token e l) f.d e.s.now) mine ∧
      Does (.barinit f) 0x65 f (fun _ => True) (fun e => batch e fun x => { x with
        inits := x.inits ++ [(e.g.quad e.s, e.g.slot, min 1024 (e.src e.first f.a .int).toNat)] }) (fun _ => [])) ∧
    (∀ (s : State) core slot lane b k (n : BitVec 3) since, (s.lane core ⟨slot, lane⟩).block = .bart b k (.p n) since →
      since + 2048 ≤ s.now →
      exec (.bartTimeout core slot lane) s = .next ((writeP s core ⟨slot, lane⟩ n.toNat
        (decide ((barrierOf s (s.wave core slot).team b).phase ≠ k))).onLane core ⟨slot, lane⟩ Lane.next))) ∧
  (∀ (x : Barrier) (tid : Nat),
    (tid ∉ x.arrivedBits → (applyArrival x tid).arrived = x.arrived + 1 ∧ tid ∈ (applyArrival x tid).arrivedBits) ∧
    (tid ∈ x.arrivedBits → applyArrival x tid = x) ∧
    (1 ≤ x.arrived → x.expect ≤ x.arrived → (completePhase x).phase = x.phase + 1 ∧ (completePhase x).arrived = 0 ∧
      (completePhase x).expect = x.expect - x.departed.length ∧ (completePhase x).arrivedBits = []) ∧
    (¬ (1 ≤ x.arrived ∧ x.expect ≤ x.arrived) → completePhase x = x))

/-! ## Local memory -/

/-- Loads and stores of local space (R193, R195 to R197): what each form reads or stores in the scratchpad and which registers
its bytes reach; hits, misses, first touches, rejections and allocating stores in windows and private space (R172, R173, R176 to
R178); and where each form traps, by the tests of R193 in their order. The model's own choices in it are those of
notes/assumptions/33, 89. -/
def Obligations.ScratchpadAccesses : Prop :=
  (∀ f : Form,
    let at_ (e : Env) (l : LaneAt) (a n : Nat) (sh : LoadShape) : Access :=
      { (default : Access) with r := l.2, kind := 0, addr := a, size := n, shape := sh, writer := l.2 == e.first.2 }
    let load (n : Nat) (sh : LoadShape) (e : Env) : List Access := e.act.map fun l => at_ e l (e.addr l f).toNat n sh
    let reg : Nat := match f.d with | .v k => k.toNat | .s k => k.toNat | _ => 0
    let rows (e : Env) : List Access :=
      e.act.flatMap fun l => (List.range (cntOf f.mod)).map fun r => at_ e l (fragAddr e f l r) 4 (.words (reg + r))
    let strided (e : Env) : Prop := ∀ l ∈ e.act, (e.src l f.b .int).toNat % 4 = 0
    Loads (.ldl8 f) 0x70 f false (load 1 (.ext f.d 8 (MOD.type f.mod == 1))) ∧
    Loads (.ldl16 f) 0x71 f false (load 2 (.ext f.d 16 (MOD.type f.mod == 3))) ∧
    Loads (.ldl32 f) 0x72 f false (load 4 (.opnd f.d)) ∧
    Loads (.ldl64 f) 0x73 f false (load 8 (.opnd f.d)) ∧
    ((∃ k, f.d = .v k) → Loads (.ldl128 f) 0x74 f false (load 16 (.words reg))) ∧
    ((∃ k, f.d = .s k) → Loads (.ldls f) 0x7A f true (fun e =>
      [at_ e e.first (e.addr e.first f).toNat (4 * cntOf f.mod) (.scalars reg)])) ∧
    ((∃ k, f.d = .v k) → Accesses (.ldlm f) 0x7C f strided rows ∧ LoadHits (.ldlm f) 0x7C f true strided rows ∧
      LoadMisses (.ldlm f) 0x7C f true strided rows ∧ LoadRejected (.ldlm f) 0x7C f true strided rows)) ∧
  (∀ f : Form,
    let at_ (l : LaneAt) (a : Nat) (bs : List Byte) : Access :=
      { (default : Access) with r := l.2, kind := 1, addr := a, size := bs.length, data := bs }
    let store (data : Env → LaneAt → List Byte) (e : Env) : List Access := e.act.map fun l => at_ l (e.addr l f).toNat (data e l)
    let word (n : Nat) (e : Env) (l : LaneAt) : List Byte := leBytes n (e.src l f.b .int).toNat
    let words (ws : List W32) : List Byte := ws.flatMap fun w => leBytes 4 w.toNat
    let reg : Nat := match f.d with | .v k => k.toNat | _ => 0
    let any (_ : Env) : Prop := True
    let rows (e : Env) : List Access := e.act.flatMap fun l => (List.range (cntOf f.mod)).map fun r =>
      at_ l (fragAddr e f l r) (leBytes 4 (readV e.s e.core l.2 (reg + r)).toNat)
    let strided (e : Env) : Prop := ∀ l ∈ e.act, (e.src l f.b .int).toNat % 4 = 0
    Stores (.stl8 f) 0x75 f false any (store (word 1)) ∧
    Stores (.stl16 f) 0x76 f false any (store (word 2)) ∧
    Stores (.stl32 f) 0x77 f false any (store (word 4)) ∧
    Stores (.stl64 f) 0x78 f false any (store fun e l => leBytes 8 (e.src64 l f.b .int).toNat) ∧
    Stores (.stl128 f) 0x79 f false any (store fun e l => words (e.vregs l f.b 4)) ∧
    Stores (.stls f) 0x7B f true (fun e => (e.sregs e.first f.b (cntOf f.mod)).length = cntOf f.mod) (fun e =>
      [{ at_ e.first (e.addr e.first f).toNat (words (e.sregs e.first f.b (cntOf f.mod))) with size := 4 * cntOf f.mod }]) ∧
    ((∃ k, f.d = .v k) → Accesses (.stlm f) 0x7D f strided rows ∧ StoreHits (.stlm f) 0x7D f true strided rows ∧
      StoreAllocates (.stlm f) 0x7D f true strided rows)) ∧
  (∀ f : Form,
    let fails (kind : Nat) (e : Env) (l : LaneAt) : List (Nat × Nat) :=
      ((List.range (cntOf f.mod)).filterMap fun r =>
        (failedTest e.pkt (e.s.team e.team) kind true (fragAddr e f l r) 4).map (·, fragAddr e f l r)) ++
        if (e.src l f.b .int).toNat % 4 = 0 then [] else [(4, fragAddr e f l 0)]
    let first (kind : Nat) (e : Env) : List (LaneRef × Nat × Nat) := e.act.filterMap fun l =>
      ([1, 3, 4].findSome? fun k => (fails kind e l).find? fun x => x.1 == k).map (l.2, ·)
    LocalTraps (.ldlm f) 0x7C f (first 0) ∧ LocalTraps (.stlm f) 0x7D f (first 1))

/-- Local atomics on the scratchpad (R199): each lane in turn replaces the value and gets the old one; an address in no region,
in a window or in private space, or misaligned traps (R193). The new values of the local atomics (R199); 256 times the TYPE
stands beside the opcode. The model's own choices in it are those of
notes/assumptions/34. -/
def Obligations.LocalAtomics : Prop :=
  (∀ f : Form,
    let at_ (opc n : Nat) (addr : Env → LaneAt → W32) (b c : Env → LaneAt → Nat) (e : Env) : List Access := e.act.map fun l =>
      { (default : Access) with
        r := l.2, kind := 2, addr := (addr e l).toNat, size := n, data := leBytes n (b e l), cmp := leBytes n (c e l)
        op := opc + 256 * MOD.type f.mod, shape := .opnd f.d, writer := l.2 == e.first.2 }
    let plain (e : Env) (l : LaneAt) : W32 := e.addr l f
    let whole (e : Env) (l : LaneAt) : W32 := e.src l f.a .int
    let b (e : Env) (l : LaneAt) := (e.src l f.b .int).toNat
    let fb (e : Env) (l : LaneAt) := (e.src l f.b (.fp fp32)).toNat
    let b64 (e : Env) (l : LaneAt) := (e.src64 l f.b .int).toNat
    let no (_ : Env) (_ : LaneAt) : Nat := 0
    let both (i : Instr) (opc : Nat) (as : Env → List Access) : Prop :=
      Accesses i opc f (fun _ => True) as ∧ AccessTraps i opc f false as
    both (.atladd f) 0x80 (at_ 0x80 4 plain b no) ∧
    both (.atlmin f) 0x81 (at_ 0x81 4 plain b no) ∧
    both (.atlmax f) 0x82 (at_ 0x82 4 plain b no) ∧
    both (.atland f) 0x83 (at_ 0x83 4 plain b no) ∧
    both (.atlor f) 0x84 (at_ 0x84 4 plain b no) ∧
    both (.atlxor f) 0x85 (at_ 0x85 4 plain b no) ∧
    both (.atlxch f) 0x86 (at_ 0x86 4 plain b no) ∧
    both (.atlcas f) 0x87 (at_ 0x87 4 whole b fun e l => (e.src l f.c.opnd .int).toNat) ∧
    both (.atlfadd f) 0x88 (at_ 0x88 4 plain fb no) ∧
    both (.atlinc f) 0x89 (at_ 0x89 4 plain b no) ∧
    both (.atldec f) 0x8A (at_ 0x8A 4 plain b no) ∧
    both (.atlladd f) 0x8B (at_ 0x8B 8 plain b64 no) ∧
    both (.atllcas f) 0x8C (at_ 0x8C 8 whole b64 fun e l => (e.src64 l f.c.opnd .int).toNat) ∧
    both (.atllxch f) 0x8D (at_ 0x8D 8 plain b64 no) ∧
    both (.atlfmin f) 0x8E (at_ 0x8E 4 plain fb no) ∧
    both (.atlfmax f) 0x8F (at_ 0x8F 4 plain fb no)) ∧
  (∀ (ty : Nat) (x y z : W32) (a b c : W64),
    let v (opc : Nat) : Nat := atomicNew (opc + 256 * ty) x.toNat y.toNat z.toNat
    let w (opc : Nat) : Nat := atomicNew (opc + 256 * ty) a.toNat b.toNat c.toNat
    let F (u : W32) : Val := fp32.decode u.toNat
    v 0x80 = (x + y).toNat ∧
    v 0x81 = (if ty = 6 then min x.toNat y.toNat else if x.toInt ≤ y.toInt then x.toNat else y.toNat) ∧
    v 0x82 = (if ty = 6 then max x.toNat y.toNat else if y.toInt ≤ x.toInt then x.toNat else y.toNat) ∧
    v 0x83 = (x &&& y).toNat ∧ v 0x84 = (x ||| y).toNat ∧ v 0x85 = (x ^^^ y).toNat ∧
    v 0x86 = y.toNat ∧
    v 0x87 = (if x = y then z.toNat else x.toNat) ∧
    v 0x89 = (if y.toNat ≤ x.toNat then 0 else x.toNat + 1) ∧
    v 0x8A = (if x = 0 ∨ y.toNat < x.toNat then y.toNat else x.toNat - 1) ∧
    w 0x8B = (a + b).toNat ∧ w 0x8C = (if a = b then c.toNat else a.toNat) ∧ w 0x8D = b.toNat ∧
    v 0x88 = fres fp32 0 false 0 (sumExact false [F x, F y]) ∧
    ((F y).isNan = true → v 0x8E = x.toNat ∧ v 0x8F = x.toNat) ∧
    ((F y).isNan = false → (F x).isNan = true → v 0x8E = y.toNat ∧ v 0x8F = y.toNat) ∧
    ((F x).isNan = false → (F y).isNan = false →
      v 0x8E = (if (F x).lt (F y) = true ∨ ((F y).lt (F x) = false ∧ x.getLsbD 31 = true) then x.toNat else y.toNat) ∧
      v 0x8F = (if (F y).lt (F x) = true ∨ ((F x).lt (F y) = false ∧ x.getLsbD 31 = false) then x.toNat else y.toNat)))

/-- What the accesses of a word leave of the scratchpad (R193, R195): a byte that none stores to reads as before, and a store
alone puts its bytes in place, lowest first. -/
def Obligations.ScratchpadFrame : Prop :=
  (∀ (m : Mem) (as : List Access) (x : Nat), Memory.wf m = true → (∀ a ∈ as, a.kind = 1 → a.data.length = a.size) →
    (∀ a ∈ as, ¬ storesAt a x) → memRead (scratchRun m as).1 x = memRead m x) ∧
  (∀ (m : Mem) (a : Access), Memory.wf m = true → a.kind = 1 → a.data.length = a.size →
    memReads (scratchRun m [a]).1 a.addr a.size = a.data ∧ Memory.wf (scratchRun m [a]).1 = true)

/-- LDF and STF (R198): loads and stores of the team's folios, where no claim holds them; an address that names no row of a
folio of the team, or is misaligned, traps (R193). -/
def Obligations.FolioAccesses : Prop := ∀ f : Form,
  let n := 4 * 2 ^ f.mod.toNat
  let at_ (e : Env) (l : LaneAt) : Nat := (e.addr l f).toNat
  let reach (e : Env) : Prop := e.s.live e.team = true ∧ (e.s.core e.core).claims = [] ∧
    ∀ l ∈ e.act, at_ e l / 2 ^ 20 = 0 ∧ at_ e l % 16384 + n ≤ 13312 ∧ at_ e l % n = 0 ∧ at_ e l / 16384 % 64 ∈ (e.s.team e.team).folios
  let data (e : Env) (l : LaneAt) : List Byte :=
    if f.mod = 2 then (e.vregs l f.b 4).flatMap fun w => leBytes 4 w.toNat
    else if f.mod = 1 then leBytes 8 (e.src64 l f.b .int).toNat else leBytes 4 (e.src l f.b .int).toNat
  (∀ s g e, Issues s g 0x7E f e → f.mod.toNat ≤ 2 → reach e →
    (∀ l ∈ e.act, ∀ k ∈ linesOf (at_ e l) n, k ∉ (e.s.core e.core).folioPoison) →
    ∃ t, exec (.ldf f) s = .next t ∧
      (∃ p ∈ (t.core g.core).pends, p.lanes = mine e ∧ p.loads = [] ∧ p.held = 0 ∧
        p.dests = (e.act.flatMap fun l => loadDests l.2 (l.2 == e.first.2) (if f.mod = 2 then .words (quadReg f.d) else .opnd f.d)
          (memReads (e.s.core e.core).folio (at_ e l) n)) ++ e.dests fun _ => []) ∧
      OnlyWrites g.core e.s t [] ∧ (t.core g.core).folio = (e.s.core g.core).folio ∧ Onward e.s t g) ∧
  (∀ s g e, Issues s g 0x7F f e → reach e → (∀ l ∈ e.act, (data e l).length = n) → f.isLong 0x7F = false →
    ∃ t, exec (.stf f) s = .next t ∧
      (t.core g.core).folio = e.act.foldl (fun m l => memWrites m (at_ e l) (data e l)) (e.s.core g.core).folio ∧
      OnlyWrites g.core e.s t [] ∧ Onward e.s t g) ∧
  (let fails (size : Env → LaneAt → Nat) (e : Env) : List (LaneRef × Nat × Nat) := e.act.filterMap fun l =>
     (failedFolio (e.s.team e.team) (at_ e l) (size e l)).map fun k => (l.2, k, at_ e l)
   LocalTraps (.ldf f) 0x7E f (fails fun _ _ => n) ∧ LocalTraps (.stf f) 0x7F f (fails fun e l => (data e l).length))

/-- The completion of an outstanding word (R20, R23, R95): once its loads are there its results are written but for the lanes
that have exited, each flag that it marks loses it, once for each mark, and it is outstanding no more; a WAIT mask is clear once
no flag of it counts more than that, and a lane that waited for it at its header goes on (R20, R22). The model's own choices in it are those of
notes/assumptions/90. -/
def Obligations.LongLatencyCompletion : Prop := ∀ (s : State) (core : Nat) (p : Pend),
  ((s.core core).pends.find? fun q => q.id == p.id) = some p → p.samples = [] → p.loads = [] → p.held = 0 →
  let lands (d : Dest) : Prop := match d with
    | .v r _ _ => (s.lane core r).exited = false
    | .s _ _ _ => True
    | .p r k _ => (s.lane core r).exited = false ∧ k < 8
  ∃ t, exec (.longLatencyComplete core p.id false) s = .next t ∧
    (∀ pre d post, p.dests = pre ++ d :: post → lands d → (∀ x ∈ post, destKey x ≠ destKey d) → holds t core d) ∧
    OnlyWrites core s t p.dests ∧
    (∀ r, (s.lane core r).exited = true → ∀ k, vreg t core r k = vreg s core r k ∧ preg t core r k = preg s core r k) ∧
    (t.core core).pends = (s.core core).pends.filter (fun q => q.id != p.id) ∧
    (∀ r k, (t.lane core r).flagCount k = (s.lane core r).flagCount k - p.marks.count (r, k)) ∧
    (∀ r w, (t.lane core r).flagsClear w = true ↔ ∀ k < 12, w.getLsbD k = true → (s.lane core r).flagCount k ≤ p.marks.count (r, k)) ∧
    (∀ r w, r ∈ p.marks.map (·.1) → (s.lane core r).block = .flags w →
      (t.lane core r).block = if (t.lane core r).flagsClear w then .none else .flags w) ∧
    { t with cores := [] } = { s with cores := [] } ∧ (∀ c, c ≠ core → t.core c = s.core c)

/-- Fills, replays and claim waits (R173, R179, R194). The model's own choices in it are those of notes/assumptions/35, 36. -/
def Obligations.LocalEvents : Prop :=
  (∀ (s : State) core m, ((s.core core).mses.find? fun x => x.id == m.id) = some m →
    let die := dieOf core
    let asked := translateFor s (s.wave core m.slot).team die m.asid (m.line * 128) false
    awaitsWriteBack (s.core core) m = false →
    (∀ pa x, asked.1 = .hbm pa x →
      let got := readLine asked.2 die x pa
      exec (.windowFillComplete core m.id) s = .next (releaseMse (deliverLine got.2.2 core m.asid m.line got.1 got.2.1) core m.id)) ∧
    (asked.1 = .absent → exec (.windowFillComplete core m.id) s =
      .next (dropEmpty (parkWaiters (releaseMse asked.2 core m.id) core m) core m.asid m.line))) ∧
  (∀ (s : State) core slot bid w accs asid line, (s.core core).findWait bid = some w → w.kind = .parked accs asid line none → w.slot = slot →
    let die := dieOf core
    let asked := translateFor s (s.wave core w.slot).team die asid (line * 128) false
    ∀ pa x, asked.1 = .hbm pa x →
      let got := readLine asked.2 die x pa
      exec (.parkedReplay core slot bid) s = .next (dropWait (deliverLine got.2.2 core asid line got.1 got.2.1) core w.bid)) ∧
  (∀ (s : State) core slot bid w accs u, (s.core core).findWait bid = some w → w.kind = .claim accs → w.slot = slot →
    let t := (s.wave core w.slot).team
    let go := accs.filter fun a => unclaimed s core t w.bid accs a.r
    go ≠ [] → performLane s core t (teamAsid s t) go = .ok u → u.live t = true →
    let v := forEach go u fun s a => onPend s core a.pend fun p => { p with held := p.held - 1 }
    exec (.claimWaitEnd core slot bid) s = .next (leaveClaim u core w go (accs.filter fun a => !go.contains a)) ∧
      ((∀ a ∈ accs, unclaimed s core t w.bid accs a.r = true) →
        exec (.claimWaitEnd core slot bid) s = .next (finishWait v core w))) ∧
  (∀ (s : State) core t bid accs r, (∀ k ∈ (s.core core).claims, k.team ≠ t) → unclaimed s core t bid accs r = true) ∧
  (∀ (s : State) core slot bid w a n, (s.core core).findWait bid = some w → w.kind = .record a n → w.slot = slot →
    recordClaimed s core (s.wave core slot).team a n = false →
    exec (.claimWaitEnd core slot bid) s = .next (wakeWait s core w))

/-! ## Windows and monitors -/

/-- FENCE, PREFW, WINMAP and the retry of a held write-back (R180, R200, R201, R203): once the loads before it have their values
(with none in flight, at once) a fence with no dirty line acts, one with dirty lines waits until they are written back, and acts
then; while a load waits for a page the fence has not issued. WBW, INVW and DISW (R202): a range that
no cached line meets leaves everything as it is; one that meets a single line writes it back, and INVW drops it; a range
beyond the mapped bytes of its window traps. The model's own choices in it are those of notes/assumptions/33, 96. -/
def Obligations.WindowWords : Prop :=
  ((∀ (f : Form) (fixed : Env → State),
      let scope := (f.mod.extractLsb' 0 4).toNat
      let acq := f.mod.getLsbD 4
      let rel := f.mod.getLsbD 5
      let got (e : Env) (s : State) : State := if acq then fenceAcquire s e.core e.team scope else s
      let ready (e : Env) : Prop := if 3 ≤ scope then e.settled 0x66 f = .ok (fixed e) else fixed e = e.s
      let dirty (e : Env) : List CLine := dirtyLines (fixed e) e.core (teamAsid (fixed e) e.team)
      let fetched (e : Env) : State := forEach e.act e.s fun s l =>
        if !s.live e.team then s
        else match localPlace e.pkt (s.team e.team) (e.addr l f).toNat 1 with
          | .window va _ => prefetchLine s e.core l.2 e.team (teamAsid e.s e.team) (va / 128) false
          | .priv o => prefetchLine s e.core l.2 e.team (teamAsid e.s e.team)
              (privByte (s.wave e.core l.2.slot).privBase l.2.lane o / 128) true
          | _ => s
      let k := (f.mod.extractLsb' 0 3).toNat
      let base (e : Env) := (e.src64 e.first f.a .int).toNat
      let len (e : Env) := (e.b e.first f .int).toNat
      (scope < 4 → Does (.fence f) 0x66 f ready fixed (fun _ => [])) ∧
      (4 ≤ scope → rel = false → Does (.fence f) 0x66 f ready (fun e => got e (fixed e)) (fun _ => [])) ∧
      (4 ≤ scope → rel = true → Does (.fence f) 0x66 f (fun e => ready e ∧ dirty e = [])
        (fun e => got e (fenceRelease (fixed e) e.core e.team scope)) (fun _ => [])) ∧
      (4 ≤ scope → rel = true → Does (.fence f) 0x66 f (fun e => ready e ∧ dirty e ≠ [])
        (fun e => blockWord (stageLines (fixed e) e.core (dirty e)) e.core (mine e) (.fence ((dirty e).map (·.line)) scope acq) .nul .nul)
        mine) ∧
      (∀ s g e u, Issues s g 0x66 f e → 3 ≤ scope → e.settled 0x66 f = .error u → exec (.fence f) s = .next u) ∧
      Does (.prefw f) 0x67 f (fun e => (fetched e).live e.team = true) fetched (fun _ => []) ∧
      Does (.winmap f) 0x6B f (fun e => k < e.pkt.windows ∧ len e ≤ 2 ^ 27 ∧ base e + len e ≤ 2 ^ 56 ∧ base e % 128 = 0 ∧ len e % 128 = 0)
        (fun e => e.s.onTeam e.team fun t => t.mapWindow k { base := base e, len := len e, wr := f.mod.getLsbD 3 }) (fun _ => []) ∧
      Traps (.winmap f) 0x6B f (fun e => e.pkt.windows ≤ k ∨ 2 ^ 27 < len e ∨ 2 ^ 56 < base e + len e) 0x03 (fun e => [e.first.2]) (fun _ _ => 0) ∧
      Traps (.winmap f) 0x6B f (fun e => k < e.pkt.windows ∧ len e ≤ 2 ^ 27 ∧ base e + len e ≤ 2 ^ 56 ∧
        ¬ (base e % 128 = 0 ∧ len e % 128 = 0)) 0x04 (fun e => [e.first.2]) (fun _ _ => 0)) ∧
    (∀ (e : Env) opc f, LoadsHome e.s e.core → e.s.live e.team = true → e.settled opc f = .ok e.s) ∧
    (∀ (s : State) core line l u, ((s.core core).lines.find? fun x => x.line == line && x.held == some resumed) = some l →
      writeBack s core { l with held := none } = (.done, u) →
      exec (.writebackRetry core line) s = .next (settleFences u core)) ∧
    (∀ (s : State) core w lines scope acq, w.kind = .fence lines scope acq → scope < 16 →
      let t := (s.wave core w.slot).team
      let left := heldAmong s core (teamAsid s t) lines
      s.live t = true →
      (left = [] → settleFence s core w = finishWait
        (if acq then fenceAcquire (fenceRelease s core t scope) core t scope else fenceRelease s core t scope) core w) ∧
      (left ≠ [] → settleFence s core w = setWait s core w.bid (.fence left scope acq))) ∧
    (∀ (t : Team) k w j, tget t.newWindows k = none →
      tget (t.mapWindow k w).newWindows k = some w ∧ (t.mapWindow k w).windows = t.windows ∧
      (t.newWindows = [] → tget ((t.mapWindow k w).commitWindows).windows j = if j = k then some w else tget t.windows j))) ∧
  (∀ f : Form,
    let n (e : Env) (l : LaneAt) := (e.src l f.b .int).toNat
    let ranges (e : Env) := (e.act.filter fun l => decide (n e l ≠ 0)).map fun l => (l.2, (e.addr l f).toNat, n e l)
    let inside (e : Env) : Prop := ∀ x ∈ ranges e, (windowRange e.pkt (e.s.team e.team) x.2.1 x.2.2).isSome = true
    let spans (e : Env) := (ranges e).map fun x => (x.1, (windowRange e.pkt (e.s.team e.team) x.2.1 x.2.2).getD 0, x.2.2)
    let run (kind : Nat) (e : Env) := (spans e).foldl (maintainLane kind e.core e.team) (e.s, [])
    let ok (kind : Nat) (e : Env) : Prop := inside e ∧ (run kind e).1.live e.team = true
    let out (e : Env) := (ranges e).filter fun x => (windowRange e.pkt (e.s.team e.team) x.2.1 x.2.2).isNone
    let trap (i : Instr) (opc : Nat) := Traps i opc f (fun e => ¬ inside e) 0x03 (fun e => (out e).map (·.1)) (fun e r =>
      BitVec.ofNat 32 (match (out e).find? fun x => x.1 == r with | some x => x.2.1 | none => ((out e).headD default).2.1))
    Does (.wbw f) 0x68 f (ok 0) (fun e => (run 0 e).1) (fun e => (run 0 e).2) ∧
    Does (.invw f) 0x69 f (ok 1) (fun e => (run 1 e).1) (fun e => (run 1 e).2) ∧
    Does (.disw f) 0x6A f (ok 2) (fun e => (run 2 e).1) (fun e => (run 2 e).2) ∧
    trap (.wbw f) 0x68 ∧ trap (.invw f) 0x69 ∧ trap (.disw f) 0x6A ∧
    (∀ kind (s : State) core t r va len, s.live t = true → linesIn (s.core core) (teamAsid s t) va len = [] →
      maintainLane kind core t (s, []) (r, va, len) = (s, [])) ∧
    (∀ (s : State) core asid va len line l u, findMse (s.core core) asid line = none → findLine (s.core core) asid line = some l →
      writeBack s core l = (.done, u) →
      maintainLine s core asid 0 va len line = (false, u) ∧ maintainLine s core asid 1 va len line = (false, dropLine u core asid line) ∧
      (va ≤ line * 128 → line * 128 + 128 ≤ va + len → maintainLine s core asid 2 va len line = (false, dropLine s core asid line))))

/-- The local monitor (R204, R205): LMON arms a lane's monitor on a line or finds its condition, and traps as an atomic does
(R193); LMWAIT waits while it is armed,
a write to the line or the limit ends the wait, and the monitor is off after it. -/
def Obligations.LocalMonitor : Prop :=
  (∀ f : Form,
    let addr (e : Env) (l : LaneAt) := (e.addr l f).toNat
    let old (e : Env) (l : LaneAt) : W32 := BitVec.ofNat 32 (leNat (memReads (e.s.team e.team).scratch (addr e l) 4))
    let found (e : Env) (l : LaneAt) : Bool :=
      let w := old e l
      let b := e.src l f.b .int
      match f.mod.toNat with
      | 0 => w = b | 1 => w ≠ b | 2 => w.toInt < b.toInt | 3 => b.toInt ≤ w.toInt | 4 => w.toNat < b.toNat | _ => b.toNat ≤ w.toNat
    (∀ s g e l, Issues s g 0x6C f e → e.act = [l] → e.s.live e.team = true → (∀ k ∈ (e.s.core e.core).claims, k.team ≠ e.team) →
      addr e l + 4 ≤ e.pkt.scratch → addr e l % 4 = 0 → (∀ k ∈ linesOf (addr e l) 4, k ∉ (e.s.team e.team).scratchPoison) →
      f.isLong 0x6C = false →
      ∃ t, exec (.lmon f) s = .next t ∧
        (t.lane g.core l.2).lmon = (if found e l then .off else .armed (addr e l / 128)) ∧
        (∀ k, f.d = .p k → holds t g.core (.p l.2 k.toNat (found e l))) ∧ Onward e.s t g ∧
        { t with cores := [], teams := [] } = { e.s with cores := [], teams := [] }) ∧
    AccessTraps (.lmon f) 0x6C f false (fun e => e.act.map fun l =>
      { (default : Access) with r := l.2, kind := 3, addr := addr e l, size := 4 }) ∧
    (let armed (e : Env) (r : LaneRef) : Bool := match (e.s.lane e.core r).lmon with | .armed _ => true | _ => false
    Does (.lmwait f) 0x6D f (fun _ => True)
      (fun e => forEach e.act e.s fun s l =>
        if armed e l.2 then setBlock s e.core l.2 (.lmwait f.d s.now (e.src l f.a .int).toNat)
        else endLmwait s e.core l.2 f.d true)
      (fun e => (mine e).filter (armed e)))) ∧
  (∀ (s : State) core slot lane d since limit, (s.lane core ⟨slot, lane⟩).block = .lmwait d since limit →
    ((s.lane core ⟨slot, lane⟩).lmon = .fired →
      exec (.lmwaitWake core slot lane) s = .next ((endLmwait s core ⟨slot, lane⟩ d true).onLane core ⟨slot, lane⟩ Lane.next)) ∧
    (∀ k, (s.lane core ⟨slot, lane⟩).lmon = .armed k → limit ≠ 0 → since + 2 * limit ≤ s.now →
      exec (.lmwaitTimeout core slot lane) s = .next ((endLmwait s core ⟨slot, lane⟩ d false).onLane core ⟨slot, lane⟩ Lane.next))) ∧
  (∀ (s : State) core r d b, ((endLmwait s core r d b).lane core r).lmon = .off) ∧
  (∀ (s : State) t a bs slot lane n, (s.wave (s.team t).core slot).team = t → (s.lane (s.team t).core ⟨slot, lane⟩).lmon = .armed n →
    n ∈ linesOf a bs.length → ((scratchWrite s t a bs).lane (s.team t).core ⟨slot, lane⟩).lmon = .fired)

/-! ## Slips, rings, queues -/

/-- The words that wait on slips (R264): SWAITANY, SWAITALL, STRY and SFIND with their condition at hand acquire, clear the
slips under .clr and give their result; without it they fail at once, or wait. What the waits on slips find (R264). SCLR and
SREAD (R264). The model's own choices in it are those of notes/assumptions/12, 41. -/
def Obligations.Slips : Prop :=
  ((∀ f : Form,
      let mask (e : Env) : W64 := e.src64 e.first f.a .int
      let after (e : Env) (clr : Bool) (ks : List Nat) : State :=
        let s := acquireSlips e.s e.core e.team ks
        if clr then ks.foldl (fun s k => setSlip s e.team k .clear) s else s
      let word (i : Instr) (opc : Nat) (all clr : Bool) (yes : W32 → List Wr) (no : List Wr) : Prop :=
        Does i opc f (fun e => ∃ ks v, testSlips e.s e.team (mask e) all = .holds ks v)
          (fun e => match testSlips e.s e.team (mask e) all with
            | .holds ks v => e.results opc f (after e clr ks) fun _ => yes v
            | _ => e.s) (fun _ => []) ∧
        Does i opc f (fun e => testSlips e.s e.team (mask e) all = .fails) (fun e => e.results opc f e.s fun _ => no) (fun _ => [])
      let waits (i : Instr) (opc : Nat) (all clr bounded : Bool) : Prop :=
        Does i opc f (fun e => testSlips e.s e.team (mask e) all = .waits ∧ e.nb = none)
          (fun e => blockWord e.s e.core (mine e) (.slips (mask e) all clr bounded) f.d .nul) mine
      let clr := f.mod.getLsbD 0
      word (.swaitany f) 0xB4 false clr (fun v => [.w32 f.d v]) [.w32 f.d 0xFFFFFFFF] ∧
      word (.swaitall f) 0xB5 true clr (fun _ => [.pr f.d true]) [.pr f.d false] ∧
      word (.stry f) 0xB7 clr false (fun _ => [.pr f.d true]) [.pr f.d false] ∧
      word (.sfind f) 0xB6 false clr (fun v => [.w32 f.d v]) [.w32 f.d 0xFFFFFFFF] ∧
      waits (.swaitany f) 0xB4 false clr false ∧ waits (.swaitall f) 0xB5 true clr false ∧ waits (.stry f) 0xB7 clr false true ∧
      Does (.sfind f) 0xB6 f (fun e => testSlips e.s e.team (mask e) false = .waits)
        (fun e => e.results 0xB6 f e.s fun _ => [.w32 f.d 0xFFFFFFFF]) (fun _ => [])) ∧
    (∀ (s : State) core slot bid w mask all clr bounded ks v, (s.core core).findWait bid = some w →
      w.kind = .slips mask all clr bounded → s.now % 2 = 0 → testSlips s (w.team s core) mask all = .holds ks v →
      exec (.slipWaitReturn core slot bid) s = .next
        (let u := acquireSlips s core (w.team s core) ks
        returnWait (if clr then clearSlips u (w.team s core) ks else u) core w (slipResult w.d all bounded true v))) ∧
    (∀ (s : State) core slot bid w mask all clr, (s.core core).findWait bid = some w → w.kind = .slips mask all clr true →
      w.since + 2048 ≤ s.now → (∀ ks v, testSlips s (w.team s core) mask all ≠ .holds ks v) →
      exec (.stryTimeout core slot bid) s = .next (returnWait s core w (.pr w.d false)))) ∧
  (∀ (s : State) t mask,
    let ks := maskSlips s t mask
    (∀ k v, testSlips s t mask false = .holds [k] v ↔
      v = BitVec.ofNat 32 k ∧ k ∈ ks ∧ teamSlip s t k = .set ∧ ∀ j ∈ ks, j < k → teamSlip s t j ≠ .set) ∧
    (testSlips s t mask false = .waits ↔ (∀ k ∈ ks, teamSlip s t k ≠ .set) ∧ ∃ k ∈ ks, teamSlip s t k = .pending) ∧
    (testSlips s t mask false = .fails ↔ ∀ k ∈ ks, teamSlip s t k = .clear) ∧
    ((∃ js v, testSlips s t mask true = .holds js v) ↔ ∀ k ∈ ks, teamSlip s t k = .set) ∧
    (testSlips s t mask true = .fails ↔ ∃ k ∈ ks, teamSlip s t k = .clear) ∧
    (testSlips s t mask true = .waits ↔ (∀ k ∈ ks, teamSlip s t k ≠ .clear) ∧ ∃ k ∈ ks, teamSlip s t k = .pending) ∧
    (∀ k, k ∈ ks ↔ k < (teamPkt s t).slips ∧ mask.getLsbD k = true)) ∧
  ((∀ f : Form,
      let sum (e : Env) (x : Slip) : Nat := ((List.range e.pkt.slips).map fun k => if teamSlip e.s e.team k = x then 2 ^ k else 0).sum
      Does (.sread f) 0xB9 f (fun _ => True) (fun e => e.results 0xB9 f e.s fun _ =>
        let m := sum e (if f.mod.getLsbD 1 then .pending else .set)
        [.w32 f.d (BitVec.ofNat 32 (if f.mod.getLsbD 0 then m / 2 ^ 32 else m))]) (fun _ => []) ∧
      Does (.sclr f) 0xB8 f (fun _ => True)
        (fun e => clearSlips e.s e.team
          ((maskSlips e.s e.team (e.src64 e.first f.a .int)).filter fun k => decide (teamSlip e.s e.team k = .set))) (fun _ => [])) ∧
    (∀ (s : State) t ks k, teamSlip (clearSlips s t ks) t k = if k ∈ ks then .clear else teamSlip s t k))

/-- Completion rings (R265, R267): RINGWAIT answers the place of the oldest unconsumed entry, which it acquires, 0xFFFFFFFF for
a ring of SIZE 0, or waits; RINGACK consumes entries; RINGACK.init sets the ring, empty, where no byte of it is beyond the
scratchpad; a wait ends with an entry or, past its limit, with 0xFFFFFFFF. The model's own choices in it are those of notes/assumptions/12. -/
def Obligations.Rings : Prop :=
  (∀ f : Form,
    let i := (f.mod.extractLsb' 0 3).toNat
    let ring (e : Env) := tgetD (e.s.team e.team).crings i default
    let used (e : Env) := ((ring e).head - (ring e).tail).toNat
    let put (e : Env) (s : State) (x : W32) : State :=
      forEach ({ e with nb := none }.dests fun _ => [.w32 f.d x]) s fun s d => d.write s e.core
    let set (e : Env) (r : CRing) : State := e.s.onTeam e.team fun x => { x with crings := tset x.crings i r }
    let base (e : Env) := (e.src e.first f.a .int).toNat
    let size (e : Env) := (e.b e.first f .int).toNat
    let good (n : Nat) : Prop := n = 0 ∨ ∃ k, 1 ≤ k ∧ k ≤ 10 ∧ n = 2 ^ k
    let inside (e : Env) : Prop := size e = 0 ∨ base e + 64 * size e ≤ e.pkt.scratch
    Does (.ringwait f) 0xBA f (fun e => (ring e).size ≠ 0 ∧ (ring e).head ≠ (ring e).tail)
      (fun e => put e (acquireEntry e.s e.core e.team i) (BitVec.ofNat 32 ((ring e).base + 64 * ((ring e).tail.toNat % (ring e).size))))
      (fun _ => []) ∧
    Does (.ringwait f) 0xBA f (fun e => (ring e).size = 0) (fun e => put e e.s 0xFFFFFFFF) (fun _ => []) ∧
    Does (.ringwait f) 0xBA f (fun e => (ring e).size ≠ 0 ∧ (ring e).head = (ring e).tail)
      (fun e => blockWord e.s e.core (mine e) (.ring i (e.src e.first f.a .int).toNat) f.d .nul) mine ∧
    Does (.ringack f) 0xBB f (fun _ => True)
      (fun e => let n := min (e.src e.first f.a .int).toNat (used e)
        set e { ring e with tail := (ring e).tail + BitVec.ofNat 32 n, scopes := (ring e).scopes.drop n }) (fun _ => []) ∧
    Does (.ringackInit f) 0xBB f (fun e => good (size e) ∧ inside e ∧ base e % 64 = 0)
      (fun e => set e { base := base e, size := size e, head := 0, tail := 0, scopes := [] }) (fun _ => []) ∧
    Traps (.ringackInit f) 0xBB f (fun e => ¬ (good (size e) ∧ inside e)) 0x03 (fun e => [e.first.2])
      (fun e _ => BitVec.ofNat 32 (base e)) ∧
    Traps (.ringackInit f) 0xBB f (fun e => good (size e) ∧ inside e ∧ base e % 64 ≠ 0) 0x04
      (fun e => [e.first.2]) (fun e _ => BitVec.ofNat 32 (base e))) ∧
  (∀ (s : State) core slot bid w i limit, (s.core core).findWait bid = some w → w.kind = .ring i limit →
    let r := tgetD (s.team (w.team s core)).crings i default
    (s.now % 2 = 0 → r.size ≠ 0 → r.head ≠ r.tail →
      exec (.slipWaitReturn core slot bid) s = .next (returnWait (acquireEntry s core (w.team s core) i) core w
        (.w32 w.d (BitVec.ofNat 32 (r.base + 64 * (r.tail.toNat % r.size)))))) ∧
    (limit ≠ 0 → w.since + 2 * limit ≤ s.now → r.size = 0 ∨ r.head = r.tail →
      exec (.ringwaitTimeout core slot bid) s = .next (returnWait s core w (.w32 w.d 0xFFFFFFFF))))

/-- Queue registers (R268, R269, R320): a pop of an entry removes it and hands each lane below 16 its word, a peek leaves it,
a push to a mailbox with room appends the stamped action, a push to an ended episode is discarded. Mailboxes (R269, R321): a
push with room appends the action with its number and policy, and a blocked access goes on once the mailbox lets it. The
model's own choices in it are those of notes/assumptions/42, 86, 87. -/
def Obligations.QueueRegisters : Prop :=
  (∀ (f : Form) (fixed : Env → State),
    let ready (e : Env) : Prop := e.settled 0xBC f = .ok (fixed e)
    let n (o : Opnd) : Nat := match o with | .q n _ _ => n.toNat | _ => 0
    let nb (o : Opnd) : Bool := match o with | .q _ nb _ => nb | _ => false
    let flag (o : Opnd) : BitVec 3 := match o with | .q _ _ p => p | _ => 0
    let bound (e : Env) (o : Opnd) (b : QBind) : Prop := tget (e.s.wave e.core e.first.2.slot).q (n o) = some b
    let entry (e : Env) : List Byte := (List.range 16).flatMap fun i =>
      leBytes 4 (readHeld e.s e.core ⟨e.first.2.slot, i⟩ (quadReg f.a)).toNat
    let given (e : Env) (x : List Byte) : List Dest := popDests e.s e.core e.first.2.slot (quadReg f.d) x ++
      if nb f.a then e.act.map fun l => .p l.2 (flag f.a).toNat true else []
    (∀ b x, b.push = false → Does (.qpop f) 0xBD f (fun e => bound e f.a b ∧ observe (e.s.carrel b.die b.carrel) = some x)
      (fun e => (addPend (popObs e.s e.core b.die b.carrel false) e.core f (mine e) (given e x) [] [] 0).2) (fun _ => [])) ∧
    (∀ b x, b.push = false → Does (.qpeek f) 0xBE f (fun e => bound e f.a b ∧ observe (e.s.carrel b.die b.carrel) = some x)
      (fun e => forEach (given e x) (popObs e.s e.core b.die b.carrel true) fun s d => d.write s e.core) (fun _ => [])) ∧
    (∀ b, b.push = false → Does (.qpop f) 0xBD f (fun e => bound e f.a b ∧ observe (e.s.carrel b.die b.carrel) = none ∧ nb f.a = false)
      (fun e => blockWord e.s e.core (mine e) (.queuePop b.die b.carrel (quadReg f.d) false) .nul .nul) mine) ∧
    (∀ b, b.push = false → Does (.qpeek f) 0xBE f (fun e => bound e f.a b ∧ observe (e.s.carrel b.die b.carrel) = none ∧ nb f.a = false)
      (fun e => blockWord e.s e.core (mine e) (.queuePop b.die b.carrel (quadReg f.d) true) .nul .nul) mine) ∧
    (∀ b u, b.push = true → Does (.qpush f) 0xBC f
      (fun e => bound e f.d b ∧ ready e ∧ pushAction (fixed e) e.core e.team b.die b.carrel (entry e) = .done true (u e) ∧ nb f.d = false)
      u (fun _ => [])) ∧
    (∀ b, b.push = true →
      let k (e : Env) : Carrel := (fixed e).carrel b.die b.carrel
      Does (.qpush f) 0xBC f
        (fun e => bound e f.d b ∧ ready e ∧ (k e).state = .running ∧ (k e).actions.length < 8 ∧ nb f.d = false ∧ (fixed e).live e.team = true ∧
          ∀ l ∈ dirtyLines (fixed e) e.core (k e).asid, lineIn (k e).arena (k e).arenaLen l.line = false)
        (fun e =>
          let u := releasePkg (fixed e) (ctxOf (fixed e) (k e).rcb) (dieOf e.core) e.core (some ((k e).arena, (k e).arenaLen))
          u.onCarrel b.die b.carrel fun x => { x with
            actions := x.actions ++ [stampAction u (k e) (entry e)], nextAction := x.nextAction + 1 }.retime u.now)
        (fun _ => [])) ∧
    (∀ b, b.push = true → Does (.qpush f) 0xBC f
      (fun e => bound e f.d b ∧ ready e ∧ ((fixed e).carrel b.die b.carrel).state ≠ .running ∧ nb f.d = false) fixed (fun _ => [])) ∧
    (∀ b, b.push = true → Does (.qpush f) 0xBC f
      (fun e => bound e f.d b ∧ ready e ∧ ((fixed e).carrel b.die b.carrel).state = .running ∧
        8 ≤ ((fixed e).carrel b.die b.carrel).actions.length ∧ nb f.d = false)
      (fun e => blockWord (fixed e) e.core (mine e) (.queuePush b.die b.carrel (entry e)) .nul .nul) mine) ∧
    Traps (.qpop f) 0xBD f (fun e => tget (e.s.wave e.core e.first.2.slot).q (n f.a) = none) 0x01 mine (fun _ _ => 0) ∧
    Traps (.qpush f) 0xBC f (fun e => tget (e.s.wave e.core e.first.2.slot).q (n f.d) = none) 0x01 mine (fun _ _ => 0)) ∧
  ((∀ (s : State) core t die c x u, pushAction s core t die c x = .done true u →
      (s.carrel die c).state = .running ∧ (s.carrel die c).actions.length < 8) ∧
    (∀ (s : State) core slot bid w die c x taken u, (s.core core).findWait bid = some w → w.kind = .queuePush die c x →
      pushAction s core (w.team s core) die c x = .done taken u →
      exec (.queueAccessResume core slot bid) s = .next (finishWait u core w)) ∧
    (∀ (s : State) core slot bid w die c reg peek x, (s.core core).findWait bid = some w → w.kind = .queuePop die c reg peek →
      observe (s.carrel die c) = some x →
      exec (.queueAccessResume core slot bid) s = .next (finishWait (forEach (popDests (popObs s core die c peek) core w.slot reg x)
        (popObs s core die c peek) fun s d => d.write s core) core w)) ∧
    (∀ (s : State) core slot bid w die c x, (s.core core).findWait bid = some w → w.kind = .queueSrc die c →
      observe (s.carrel die c) = some x →
      exec (.queueAccessResume core slot bid) s = .next (forEach w.lanes (setWait (popObs s core die c false) core w.bid (.granted x))
        fun s r => setBlock s core r .none)) ∧
    (∀ (k : Carrel) x rest, k.obs = x :: rest → observe k = some x) ∧
    (∀ k : Carrel, k.obs = [] → k.state = .ended → k.heldObs = none → observe k = some k.endedEntry) ∧
    (∀ k : Carrel, k.obs = [] → k.state ≠ .ended → observe k = none))

/-! ## Commands from the cores -/

/-- CPOST and CFENCE (R257, R258, R259, R261): a well-formed record with room joins its queue under the next ticket, a
malformed one takes its ticket and completes; without room the lanes wait, and append later. The append of a command (R257):
it stands last in its queue, QUEUED, and its slip is PENDING. The model's own choices in it are those of notes/assumptions/18,
27, 30. -/
def Obligations.Posts : Prop :=
  ((∀ (f : Form) (fixed : Env → State),
      let ready (e : Env) : Prop := e.settled 0xB0 f = .ok (fixed e)
      let addr (e : Env) := (e.addr e.first f).toNat
      let cls := (f.mod.extractLsb' 0 2).toNat
      let read (e : Env) : List W64 := (List.range 32).map fun i => memDw (e.s.team e.team).scratch (addr e + 8 * i)
      let sel (e : Env) := slipSelect (e.src e.first f.b .int) (ccrOf (read e)).slip (ccrOf (read e)).slipEn
      let dws (e : Env) : List W64 := withSlip ((read e).headD 0) (sel e).1 (sel e).2 :: (read e).drop 1
      let r (e : Env) : Ccr := ccrOf (dws e)
      let named (e : Env) : Bool := (sel e).2 && (sel e).1 < e.pkt.slips
      let seq (e : Env) : Nat := tgetD ((fixed e).core e.core).seq cls 0
      let base (e : Env) : State := (nextSeq (fixed e) e.core cls).2
      let cmd (e : Env) : Cmd := { (default : Cmd) with
        kind := (r e).kind, dws := dws e, ccrAddr := addr e, team := e.team, core := e.core, cls := cls, seq := seq e
        tslot := ((base e).team e.team).tslot, slip := if named e then some (sel e).1 else none, state := .blocked
        mon := ((base e).lane e.core e.first.2).mon }
      let stepped (e : Env) : State := if (r e).steps then (base e).onLane e.core e.first.2 fun x => { x with g := stepG x.g } else base e
      let gen (e : Env) : W32 := ((stepped e).lane e.core e.first.2).g
      let posted (e : Env) : Nat × State := addCmd (appendLower (stepped e) e.core cls)
        { cmd e with gen := gen e, postGen := gen e }
      let reach (e : Env) : Prop := addr e + 256 ≤ e.pkt.scratch ∧ addr e % 256 = 0 ∧ recordClaimed e.s e.core e.team (addr e) 256 = false ∧
        scratchBad e.s e.team (addr e) 256 = false ∧ ¬ (named e = true ∧ teamSlip e.s e.team (sel e).1 = .pending)
      let room (e : Env) : Prop := blockedFor (posted e).2 e.core cls = [] ∧ roomFor (posted e).2 e.core cls (posted e).1 = true
      let tick (e : Env) : W32 := BitVec.ofNat 32 (seq e % 65536 + cls * 2 ^ 16 + ((base e).team e.team).tslot * 2 ^ 18)
      Does (.cpost f) 0xB0 f (fun e => reach e ∧ ready e ∧ (r e).check e.pkt ((base e).team e.team) = none ∧ room e)
        (fun e => e.results 0xB0 f (appendCmd (posted e).2 (posted e).1) fun _ => [.w32 f.d (tick e)]) (fun _ => []) ∧
      Does (.cpost f) 0xB0 f (fun e => reach e ∧ ready e ∧ (r e).check e.pkt ((base e).team e.team) = none ∧ ¬ room e)
        (fun e => blockWord (keepOutcome e 0xB0 f (posted e).2) e.core (mine e) (.post (posted e).1 cls) f.d .nul) mine ∧
      (∀ code, Does (.cpost f) 0xB0 f (fun e => reach e ∧ ready e ∧ (r e).check e.pkt ((base e).team e.team) = some code)
        (fun e =>
          let u := (addCmd (base e) { cmd e with state := .malformed, status := 1, fault := code, armedAt := (base e).now }).2
          e.results 0xB0 f (if named e then setSlip u e.team (sel e).1 .pending else u) fun _ => [.w32 f.d (tick e)]) (fun _ => [])) ∧
      Traps (.cpost f) 0xB0 f (fun e => e.pkt.scratch < addr e + 256) 0x03 (fun e => [e.first.2]) (fun e _ => BitVec.ofNat 32 (addr e)) ∧
      Traps (.cpost f) 0xB0 f (fun e => addr e + 256 ≤ e.pkt.scratch ∧ addr e % 256 ≠ 0) 0x04 (fun e => [e.first.2])
        (fun e _ => BitVec.ofNat 32 (addr e)) ∧
      Traps (.cpost f) 0xB0 f (fun e => addr e + 256 ≤ e.pkt.scratch ∧ addr e % 256 = 0 ∧
        recordClaimed e.s e.core e.team (addr e) 256 = false ∧ scratchBad e.s e.team (addr e) 256 = false ∧
        named e = true ∧ teamSlip e.s e.team (sel e).1 = .pending) 0x08 (fun e => [e.first.2]) (fun _ _ => 0) ∧
      (let ready (e : Env) : Prop := e.settled 0xB1 f = .ok (fixed e)
      let cls := (f.mod.extractLsb' 4 2).toNat
      let b (e : Env) := e.src e.first f.a .int
      let slip (e : Env) := (b e).toNat % 64
      let named (e : Env) : Bool := (b e).getLsbD 7 && slip e < e.pkt.slips
      let base (e : Env) : State := (nextSeq (fixed e) e.core cls).2
      let posted (e : Env) : Nat × State := addCmd (base e) { (default : Cmd) with
        kind := cfenceKind, dws := [BitVec.ofNat 64 (11 + 2 * 2 ^ 24 + (f.mod.extractLsb' 0 4).toNat * 2 ^ 26)], team := e.team
        core := e.core, cls := cls, seq := tgetD ((fixed e).core e.core).seq cls 0, tslot := ((base e).team e.team).tslot
        slip := if named e then some (slip e) else none, state := .blocked, mon := ((base e).lane e.core e.first.2).mon }
      let free (e : Env) : Prop := ¬ (named e = true ∧ teamSlip e.s e.team (slip e) = .pending)
      let room (e : Env) : Prop := blockedFor (posted e).2 e.core cls = [] ∧ roomFor (posted e).2 e.core cls (posted e).1 = true
      Does (.cfence f) 0xB1 f (fun e => free e ∧ ready e ∧ room e) (fun e => appendCmd (posted e).2 (posted e).1) (fun _ => []) ∧
      Does (.cfence f) 0xB1 f (fun e => free e ∧ ready e ∧ ¬ room e)
        (fun e => blockWord (posted e).2 e.core (mine e) (.post (posted e).1 cls) .nul .nul) mine ∧
      Traps (.cfence f) 0xB1 f (fun e => ¬ free e) 0x08 (fun e => [e.first.2]) (fun _ _ => 0))) ∧
    (∀ (s : State) core cls w rest k c, blockedFor s core cls = w :: rest → w.kind = .post k c → roomFor s core cls k = true →
      (∀ j < cls, canAppend s core j = false) → s.now % 2 = 0 →
      exec (.cpostAppend core cls) s = .next (appendBlocked s core w k))) ∧
  (∀ (s : State) k,
    let c := s.cmd k
    let t := appendCmd s k
    (t.cmd k).state = .queued ∧ queueOf t c.core c.cls = queueOf s c.core c.cls ++ [k] ∧
    (∀ n, c.slip = some n → teamSlip t c.team n = .pending) ∧
    (∀ r j, vreg t c.core r j = vreg s c.core r j))

/-- CSTAT, CCANCEL and the dispatch of commands (R167, R262, R263). The model's own choices in it are those of
notes/assumptions/123. -/
def Obligations.CommandWords : Prop :=
  (∀ f : Form,
    Gives (.cstat f) 0xB2 f (word f fun e l => match ticketCmd e.s e.core e.team (e.src l f.a .int) with
      | none => 0
      | some k =>
        let c := e.s.cmd k
        BitVec.ofNat 32 (c.stat + 2 ^ 8 * if c.state = .queued then ((queueOf e.s e.core c.cls).takeWhile (· != k)).length else 0)) ∧
    Does (.ccancel f) 0xB3 f (fun _ => True)
      (fun e => match ticketCmd e.s e.core e.team (e.src e.first f.a .int) with
        | none => e.results 0xB3 f e.s fun _ => [.pr f.d false]
        | some k => e.results 0xB3 f (cancelCmd e.s k).2 fun _ => [.pr f.d (cancelCmd e.s k).1]) (fun _ => [])) ∧
  (∀ (s : State) k, (s.cmd k).state = .queued → ¬ ((s.cmd k).kind = 10 ∧ (s.cmd k).collSeq.isSome) → (cancelCmd s k).1 = true ∧
    ((cancelCmd s k).2.cmd k).status = 5 ∧ ((cancelCmd s k).2.cmd k).state = .following ∧
    ((cancelCmd s k).2.cmd k).els = 0 ∧ (∀ now, ((cancelCmd s k).2.cmd k).cyclesAt now = 0) ∧
    k ∉ queueOf (cancelCmd s k).2 (s.cmd k).core (s.cmd k).cls) ∧
  (∀ (s : State) k, (s.cmd k).state = .following ∨ (s.cmd k).state = .recording ∨
    ((s.cmd k).kind = 10 ∧ (s.cmd k).collSeq.isSome ∧ (s.cmd k).state ≠ .armed) → cancelCmd s k = (false, s)) ∧
  (∀ (s : State) die cls k e, pickStart s die = some (cls, k) → freeEngine s die = some e →
    exec (.commandDispatch die) s = .next (placeCmd (s.onDie die fun d => { d with rr := tset d.rr cls ((s.cmd k).core % 80) }) k e)) ∧
  (∀ (s : State) die, (freeEngine s die = none ↔ ∀ x < 128, contextTaken s die x = true) ∧
    (∀ x, freeEngine s die = some x ↔ x < 128 ∧ contextTaken s die x = false ∧ ∀ y < x, contextTaken s die y = true))

/-! ## The matrix array -/

/-- Claims and releases of folios and tiles (R271, R272, R346): a claim takes the lowest free ones, all or none, and a release
makes its lanes wait until they are zeroed. The end of a release (R272): the folio or tile reads zero, and no plane holds it.
The model's own choices in it are those of notes/assumptions/50, 51. -/
def Obligations.MatrixResources : Prop :=
  (∀ f : Form,
    let n (e : Env) := (e.src e.first f.a .int).toNat
    let x (e : Env) := e.s.team e.team
    let bits_ (ks : List Nat) : Nat := ks.foldl (fun m k => m ||| 2 ^ k) 0
    let folios (e : Env) := (List.range 64).filter (folioFree e.s e.core)
    let tiles (e : Env) := tileOrder e.s e.core
    let fits (held limit : Nat) (free : List Nat) (n : Nat) : Prop := n ≠ 0 ∧ held + n ≤ limit ∧ n ≤ free.length
    let fok (e : Env) : Prop := fits (x e).folios.length e.pkt.folios (folios e) (n e)
    let aok (e : Env) : Prop := fits (x e).tiles.length e.pkt.accums (tiles e) (n e)
    let fset (e : Env) := (List.range 64).filter fun k => (e.src64 e.first f.a .int).getLsbD k && decide (k ∈ (x e).folios)
    let aset (e : Env) := (List.range 4).filter fun k => (e.src e.first f.a .int).getLsbD k && decide (k ∈ (x e).tiles)
    let freed (e : Env) : State := (e.s.onTeam e.team fun y => { y with folios := y.folios.filter fun k => !(fset e).contains k }).onCore
      e.core fun c => { c with folioZero := c.folioZero ++ fset e }
    let waiting (e : Env) : State := blockWord (freed e) e.core (mine e) (.release (fset e) []) .nul .nul
    Does (.fclaim f) 0xC0 f fok
      (fun e => let ks := (folios e).take (n e)
        e.results 0xC0 f (e.s.onTeam e.team fun y => { y with folios := y.folios ++ ks }) fun _ =>
          [.w64 f.d (BitVec.ofNat 64 (bits_ ks)), .pr f.c.opnd true]) (fun _ => []) ∧
    Does (.fclaim f) 0xC0 f (fun e => ¬ fok e) (fun e => e.results 0xC0 f e.s fun _ => [.w64 f.d 0, .pr f.c.opnd false]) (fun _ => []) ∧
    Does (.aclaim f) 0xC2 f aok
      (fun e => let ks := (tiles e).take (n e)
        e.results 0xC2 f ((forEach ks e.s fun s k => spillTile s e.core k).onTeam e.team fun y => { y with tiles := y.tiles ++ ks })
          fun _ => [.w32 f.d (BitVec.ofNat 32 (bits_ ks)), .pr f.c.opnd true]) (fun _ => []) ∧
    Does (.aclaim f) 0xC2 f (fun e => ¬ aok e) (fun e => e.results 0xC2 f e.s fun _ => [.w32 f.d 0, .pr f.c.opnd false]) (fun _ => []) ∧
    Does (.frel f) 0xC1 f (fun e => fset e = []) (fun e => e.s) (fun _ => []) ∧
    Does (.frel f) 0xC1 f (fun e => fset e ≠ [])
      (fun e => if (e.s.core e.core).mat.any fun m => m.team == e.team then waiting e
        else emptyPlanes (waiting e) e.core e.team (fset e)) mine ∧
    Does (.arel f) 0xC3 f (fun e => aset e = []) (fun e => e.s) (fun _ => []) ∧
    Does (.arel f) 0xC3 f (fun e => aset e ≠ [])
      (fun e => blockWord ((e.s.onTeam e.team fun y => { y with tiles := y.tiles.filter fun k => !(aset e).contains k }).onCore
          e.core fun c => { c with tileZero := c.tileZero ++ aset e }) e.core (mine e) (.release [] (aset e)) .nul .nul) mine) ∧
  ((∀ (s : State) core (tile : Bool) idx w fs ts rest, (s.core core).waits = w :: rest → w.kind = .release fs ts →
      (if tile then ts else fs).contains idx = true → releasable s core (s.wave core w.slot).team w.bid tile idx = true →
      ∃ t, exec (.resourceZero core tile idx) s = .next t ∧
        (tile = false → (∀ o < 13312, folioByte (t.core core) idx o = 0) ∧
          (t.team (s.wave core w.slot).team).front.has idx = false ∧ (t.team (s.wave core w.slot).team).back.has idx = false) ∧
        (tile = true → ∀ k, accAt (t.core core) idx k = 0)) ∧
    (∀ (s : State) core team op rest, (s.core core).mat = op :: rest → op.team = team → (s.core core).planeTeam ≠ some team →
      exec (.planeReload core team) s = .next (s.onCore core fun c => { c with planeTeam := some team })))

/-- The matrix instructions append one operation each (R278, R284): built from operands or read as a record, checked, its
generator stepped under RS, its slip PENDING. The model's own choices in it are those of notes/assumptions/49, 52. -/
def Obligations.MatrixWords : Prop := ∀ f : Form,
  let addr (e : Env) := (e.addr e.first f).toNat
  let rec_ (d : Env → W64 × W64 × W64 × W64) (e : Env) : Mcmd := mcmdOf (d e).1 (d e).2.1 (d e).2.2.1 (d e).2.2.2
  let ready (good : Env → Prop) (d : Env → W64 × W64 × W64 × W64) (e : Env) : Prop :=
    good e ∧ (rec_ d e).cause e.pkt (e.s.team e.team) = none
  let pend (d : Env → W64 × W64 × W64 × W64) (e : Env) : Prop :=
    (rec_ d e).slipEn = true ∧ teamSlip e.s e.team (rec_ d e).slip = .pending
  let post (i : Instr) (opc : Nat) (good : Env → Prop) (d : Env → W64 × W64 × W64 × W64) : Prop :=
    let m := rec_ d
    let s1 (e : Env) : State :=
      if (m e).op = 3 ∧ (m e).round = 2 then e.s.onLane e.core e.first.2 fun x => { x with g := stepG x.g } else e.s
    let op (e : Env) : MatOp := { (default : MatOp) with
      team := e.team, dw0 := (d e).1, dw1 := (d e).2.1, op := (m e).op, slip := if (m e).slipEn then some (m e).slip else none
      gen := ((s1 e).lane e.core e.first.2).g }
    let room (e : Env) : Prop := (e.s.core e.core).mat.length < 32 ∧ matrixWaits e.s e.core = []
    Does i opc f (fun e => ready good d e ∧ ¬ pend d e ∧ room e) (fun e => (appendOp (s1 e) e.core (op e)).2) (fun _ => []) ∧
    Does i opc f (fun e => ready good d e ∧ ¬ pend d e ∧ ¬ room e)
      (fun e => blockWord (s1 e) e.core (mine e) (.matrix (op e) false) .nul .nul) mine
  let a (e : Env) : W64 := e.src64 e.first f.a .int
  let b (e : Env) : W32 := e.b e.first f .int
  let head (k : Nat) : W64 := BitVec.ofNat 64 (k + (f.mod.extractLsb' 0 4).toNat * 2 ^ 4 + (f.mod.extractLsb' 4 5).toNat * 2 ^ 8)
  let low (e : Env) : Prop := (a e).extractLsb' 0 16 = 0
  let w (e : Env) (i : Nat) : W64 := memDw (e.s.team e.team).scratch (addr e + 8 * i)
  let reach (e : Env) : Prop := addr e + 32 ≤ e.pkt.scratch ∧ addr e % 32 = 0 ∧
    recordClaimed e.s e.core e.team (addr e) 32 = false ∧ scratchBad e.s e.team (addr e) 32 = false
  let dws (e : Env) : W64 × W64 × W64 × W64 := (w e 0, w e 1, w e 2, w e 3)
  post (.mlatch f) 0xC4 (fun _ => True) (fun e => (head 1, BitVec.ofNat 64 (b e).toNat, 0, 0)) ∧
  post (.mstream f) 0xC5 low (fun e => (a e ||| head 2, BitVec.ofNat 64 (b e).toNat, 0, 0)) ∧
  post (.mdrain f) 0xC6 (fun e => low e ∧ (e.c e.first f .int).extractLsb' 20 12 = 0)
    (fun e => (a e ||| head 3, BitVec.ofNat 64 ((e.src e.first f.b .int).toNat + (e.c e.first f .int).toNat * 2 ^ 32), 0, 0)) ∧
  post (.mzero f) 0xC7 low (fun e => (a e ||| head 4, 0, 0, 0)) ∧
  post (.mcmd f) 0xCF reach dws ∧ Traps (.mcmd f) 0xCF f (fun e => ready reach dws e ∧ pend dws e) 0x08 (fun e => [e.first.2]) (fun _ _ => 0) ∧
  Traps (.mstream f) 0xC5 f (fun e => ¬ low e) 0x01 (fun e => [e.first.2]) (fun _ _ => 0)

/-- The matrix queue (R278, R280 to R283): a word that waits for room appends, and the operation at the head is performed
whole and leaves the queue. The elements that STREAM and ZERO leave in a tile (R49, R281, R283). The model's own choices in it
are those of notes/assumptions/50, 52, 127. -/
def Obligations.MatrixOperations : Prop :=
  ((∀ (s : State) core slot bid w rest op stay, matrixWaits s core = w :: rest → w.kind = .matrix op stay → w.bid = bid → w.slot = slot →
      (s.core core).mat.length < 32 → s.now % 2 = 0 →
      exec (.matrixAppend core slot bid) s = .next (
        let x := appendOp s core op
        runSaves 32 (if stay then setWait x.2 core bid (.matDone x.1) else finishWait x.2 core w) core)) ∧
    (∀ (s : State) core op rest u,
      let v := wakeMatrix s core
      (v.core core).mat = op :: rest → v.live op.team = true → heldBefore v core op = false → op.slip = none ∨ v.now % 2 = 1 →
      performOp v core op = .ok u →
      (op.op = 1 → exec (.latch core op.id) s = .next (runSaves 32 (finishOp u core op) core)) ∧
      (op.op = 2 → exec (.stream core op.id) s = .next (runSaves 32 (finishOp u core op) core)) ∧
      (op.op = 3 → exec (.drain core op.id) s = .next (runSaves 32 (finishOp u core op) core)) ∧
      (op.op = 4 → exec (.zero core op.id) s = .next (runSaves 32 (finishOp u core op) core))) ∧
    (∀ (s : State) core op rest fault status,
      let v := wakeMatrix s core
      (v.core core).mat = op :: rest → v.live op.team = true → heldBefore v core op = false → op.slip = none ∨ v.now % 2 = 1 → op.op = 2 →
      performOp v core op = .bad fault status → (endByOp v op fault status |>.core core).mat = [] →
      exec (.stream core op.id) s = .next (endByOp v op fault status)) ∧
    (∀ (s : State) core, (s.core core).waits = [] → wakeMatrix s core = s ∧ ∀ op, heldBefore s core op = false) ∧
    (∀ (s : State) core t m, m.flag 1 = false → streamPair m.fmt (s.team t).front = false → performStream s core t m = .bad 0x000E 1)) ∧
  ((∀ (s u : State) core t m, performStream s core t m = .ok u → m.flag 1 = false → ∀ i j, i < 128 → j < 512 →
      accAt (u.core core) m.tile (512 * i + j) =
        if m.row0 ≤ i ∧ i < m.row0 + m.nrows then
          chunkSum (s.core core) m (s.team t).front i j (if m.flag 2 then 0 else accAt (s.core core) m.tile (512 * i + j))
        else accAt (s.core core) m.tile (512 * i + j)) ∧
    (∀ (s u : State) core m, performZero s core m = .ok u →
      (∀ x ∈ m.region, accAt (u.core core) m.tile x.2.2 = 0) ∧
      (∀ k, (∀ x ∈ m.region, x.2.2 ≠ k) → accAt (u.core core) m.tile k = accAt (s.core core) m.tile k)) ∧
    (∀ c tile k x j, accAt (setAcc c tile k x) tile j = if j = k then x else accAt c tile j))

/-- MFENCE, the delayed-scaling words, accumulator accesses and FZERO (R286, R287, R289, R290). The model's own choices in it
are those of notes/assumptions/49, 127. -/
def Obligations.MatrixData : Prop := ∀ f : Form,
  let n := cntOf f.mod
  let a (e : Env) (l : LaneAt) : W32 := e.src l f.a .int
  let ids (e : Env) := ((e.s.core e.core).mat.filter fun m => m.team == e.team).map (·.id)
  let every (e : Env) := (e.s.core e.core).mat.map (·.id)
  let ring (e : Env) := (a e e.first).toNat % 64
  let good (e : Env) : Prop := ∀ l ∈ e.act, accTest (e.s.team e.team) (a e l) n = none
  let acc (store : Bool) (id : Nat) (e : Env) : List Access := e.act.map fun l => { (default : Access) with
    r := l.2, kind := if store then 1 else 0, space := 3, addr := accPlace (a e l), size := 4 * n
    data := if store then (e.vregs l f.d n).flatMap fun w => leBytes 4 w.toNat else []
    shape := .words (quadReg f.d), pend := id }
  let opened (e : Env) := addPend e.s e.core f (mine e) (e.dests fun _ => []) [] [] 1
  let later (e : Env) (s : State) (as : List Access) : State := s.onCore e.core fun c => { c with
    nextId := c.nextId + 1
    waits := c.waits ++ [{ bid := c.nextId, kind := .accum (every e) as, d := .nul, pc := .nul, lanes := mine e, since := s.now }] }
  Does (.mfence f) 0xC9 f (fun e => ids e = []) (fun e => e.s) (fun _ => []) ∧
  Does (.mfence f) 0xC9 f (fun e => ids e ≠ []) (fun e => blockWord e.s e.core (mine e) (.mfence (ids e)) .nul .nul) mine ∧
  Does (.scalerd f) 0xCA f (fun _ => True) (fun e => e.results 0xCA f (e.s.inOrder (ringOrder e.team (ring e)) ringRead) fun _ =>
    let r := teamRing e.s e.team (ring e)
    [.w32 f.d (if f.mod.getLsbD 4 then r.max else derivedScale (f.mod.extractLsb' 0 4).toNat r.max)]) (fun _ => []) ∧
  Does (.amaxp f) 0xCB f (fun _ => True)
    (fun e => pushRing (e.s.inOrder (ringOrder e.team (ring e)) wordPush) e.team (ring e)
      (e.act.foldl (fun m l => maxW m (recordMax (f32 (e.b l f (.fp fp32))).abs)) 0)) (fun _ => []) ∧
  Does (.accrd f) 0xCC f (fun e => good e ∧ every e = [] ∧
      (performAccs (opened e).2 e.core e.team (acc false (opened e).1 e)).live e.team = true)
    (fun e => performAccs (opened e).2 e.core e.team (acc false (opened e).1 e)) (fun _ => []) ∧
  Does (.accrd f) 0xCC f (fun e => good e ∧ every e ≠ []) (fun e => later e (opened e).2 (acc false (opened e).1 e)) (fun _ => []) ∧
  Does (.accwr f) 0xCD f (fun e => good e ∧ every e = [] ∧ (performAccs e.s e.core e.team (acc true 0 e)).live e.team = true)
    (fun e => performAccs e.s e.core e.team (acc true 0 e)) (fun _ => []) ∧
  Does (.accwr f) 0xCD f (fun e => good e ∧ every e ≠ []) (fun e => later e e.s (acc true 0 e)) (fun _ => []) ∧
  (∀ s g e, Issues s g 0xCE f e → (a e e.first).toNat < 64 → (a e e.first).toNat ∈ (e.s.team e.team).folios →
    e.s.live e.team = true → (e.s.core e.core).claims = [] → Memory.wf (e.s.core e.core).folio = true → e.nb = none →
    ∃ t, exec (.fzero f) s = .next t ∧ Onward e.s t g ∧ OnlyWrites g.core e.s t [] ∧
      ∀ x, memRead (t.core g.core).folio x =
        if (a e e.first).toNat * 16384 ≤ x ∧ x < (a e e.first).toNat * 16384 + 13312 then 0 else memRead (e.s.core g.core).folio x) ∧
  Traps (.fzero f) 0xCE f (fun e => ¬ ((a e e.first).toNat < 64 ∧ (a e e.first).toNat ∈ (e.s.team e.team).folios)) 0x03
    (fun e => [e.first.2]) (fun e _ => a e e.first)

/-! ## Monitors, the docket, the reading room -/

/-- Monitor registers, event counters, killing, saved tiles and leases (R331, R332, R347, R351, R355, R356). The model's own
choices in it are those of notes/assumptions/45, 50, 55. -/
def Obligations.MonitorWords : Prop :=
  (∀ f : Form,
    let i (e : Env) (l : LaneAt) := (e.src l f.a .int).toNat
    let m (e : Env) (l : LaneAt) := (e.s.lane e.core l.2).mregs
    let reg (e : Env) (l : LaneAt) : W32 := match i e l with
      | 0 => BitVec.ofNat 32 ((e.s.lane e.core l.2).mon.toNat + 2 * (m e l).origin.toNat)
      | 1 => (m e l).cause | 2 => (m e l).mepc | 3 => (m e l).mhdr | 4 => (m e l).mtag
      | 5 => BitVec.ofNat 32 (m e l).word.toNat | 6 => BitVec.ofNat 32 ((m e l).word.toNat / 2 ^ 32)
      | 7 => BitVec.ofNat 32 ((m e l).word.toNat / 2 ^ 64) | 8 => (m e l).mcd | 9 => (m e l).group
      | k => tgetD (m e l).scr (k - 10) 0
    let named (e : Env) (l : LaneAt) : Prop := i e l ≤ 13
    let writable (e : Env) (l : LaneAt) : Prop := i e l = 2 ∨ i e l = 8 ∨ (10 ≤ i e l ∧ i e l ≤ 13)
    let count (e : Env) (l : LaneAt) : Counter := counterOf e.s e.team (i e l % 8)
    let b (e : Env) : W32 := e.b e.first f .int
    let event (e : Env) := (b e).toNat % 256
    let fine (e : Env) : Prop := (b e).toNat < 1024 ∧ event e ≤ 9
    let til (e : Env) : W64 := e.s.cycles + 42000
    let leased (e : Env) : State := e.results 0xDB f e.s fun _ => [.w64 f.d (til e)]
    let sb (e : Env) := (e.b64 e.first f .int).toNat
    let lo (e : Env) := saveBase e.s (teamCtx e.s e.team)
    let room (e : Env) : Prop := i e e.first < 4 ∧ i e e.first ∈ (e.s.team e.team).tiles ∧
      lo e ≤ sb e ∧ sb e + 262144 ≤ lo e + saveLen e.s (teamCtx e.s e.team) ∧ sb e % 4096 = 0
    let op (k : Nat) (e : Env) : MatOp := { (default : MatOp) with
      dw0 := BitVec.ofNat 64 ((e.src e.first f.a .int).toNat * 2 ^ 22), op := k, addr := sb e, team := e.team }
    let full (e : Env) : Prop := 32 ≤ (e.s.core e.core).mat.length
    let appended (k : Nat) (e : Env) := appendOp e.s e.core (op k e)
    let saved (k : Nat) (e : Env) : State :=
      runSaves 32 (blockWord (appended k e).2 e.core (mine e) (.matDone (appended k e).1) .nul .nul) e.core
    let save (i : Instr) (opc k : Nat) : Prop :=
      Does i opc f (fun e => room e ∧ (e.s.core e.core).mat.length < 32 ∧ matrixWaits e.s e.core = [] ∧ (saved k e).live e.team = true)
        (saved k) (fun e => if ((saved k e).core e.core).mat.any fun m => m.id == (appended k e).1 then mine e else []) ∧
      Does i opc f (fun e => room e ∧ full e) (fun e => blockWord e.s e.core (mine e) (.matrix (op k e) true) .nul .nul) mine
    Does (.srrd f) 0xD3 f (fun e => ∀ l ∈ e.act, named e l) (fun e => e.results 0xD3 f e.s fun l => [.w32 f.d (reg e l)]) (fun _ => []) ∧
    Does (.srwr f) 0xD4 f (fun e => ∀ l ∈ e.act, writable e l)
      (fun e => eachLane e e.s fun l x =>
        let m := x.mregs
        let y := e.b l f .int
        { x with mregs := (if i e l = 2 then { m with mepc := y } else if i e l = 8 then { m with mcd := y }
            else { m with scr := tset m.scr (i e l - 10) y }) }) (fun _ => []) ∧
    Traps (.srrd f) 0xD3 f (fun e => ∃ l ∈ e.act, ¬ named e l) 0x01 (fun e => mine { e with act := e.act.filter fun l => decide (13 < i e l) })
      (fun _ _ => 0) ∧
    Does (.perfrd f) 0xDC f (fun e => ∀ l ∈ e.act, (e.s.lane e.core l.2).mon = true ∨ (count e l).user = true)
      (fun e => e.results 0xDC f e.s fun l => [.w64 f.d (count e l).value]) (fun _ => []) ∧
    Traps (.perfrd f) 0xDC f (fun e => ∃ l ∈ e.act, (e.s.lane e.core l.2).mon = false ∧ (count e l).user = false) 0x0C
      (fun e => mine { e with act := e.act.filter fun l => !(e.s.lane e.core l.2).mon && !(count e l).user }) (fun _ _ => 0) ∧
    Does (.perfctl f) 0xDD f fine
      (fun e =>
        let c : Counter := { value := 0, event := event e, en := (b e).getLsbD 8, user := (b e).getLsbD 9 }
        e.s.onTeam e.team fun t => { t with counters := tset t.counters (i e e.first % 8) c }) (fun _ => []) ∧
    Traps (.perfctl f) 0xDD f (fun e => ¬ fine e) 0x01 (fun e => [e.first.2]) (fun _ _ => 0) ∧
    Does (.teamkill f) 0xD9 f (fun e => killTarget e.s e.team (i e e.first) (b e).toNat = none)
      (fun e => e.results 0xD9 f e.s fun _ => [.pr f.d false]) (fun _ => []) ∧
    (∀ k, Does (.teamkill f) 0xD9 f (fun e => killTarget e.s e.team (i e e.first) (b e).toNat = some k ∧
        (terminate e.s k { teamEntry e.s k with source := 5, fault := 0x0208, status := 7 } (some 0)).live e.team = true)
      (fun e => e.results 0xD9 f (terminate e.s k { teamEntry e.s k with source := 5, fault := 0x0208, status := 7 } (some 0))
        fun _ => [.pr f.d true]) (fun _ => [])) ∧
    save (.accsave f) 0xD7 5 ∧ save (.accload f) 0xD8 6 ∧
    (f.mod.getLsbD 0 = false → Does (.leaseq f) 0xDB f (fun _ => True) leased (fun _ => [])) ∧
    (f.mod.getLsbD 0 = true → Does (.leaseq f) 0xDB f (fun _ => True)
      (fun e => blockWord (leased e) e.core (mine e) (.lease (til e)) .nul .nul) mine)) ∧
  (∀ (s : State) core slot bid w til, (s.core core).findWait bid = some w → w.kind = .lease til → w.slot = slot →
    til.toNat ≤ s.cycles.toNat → exec (.leaseqWaitEnd core slot bid) s = .next (finishWait s core w))

/-- The docket's words and events (R339, R342 to R344). The model's own choices in it are those of notes/assumptions/55, 56,
58, 127, 131. -/
def Obligations.DocketWords : Prop :=
  (∀ f : Form,
    let a (e : Env) := (e.addr e.first f).toNat
    let ctx (e : Env) := teamCtx e.s e.team
    let placed (e : Env) (n : Nat) : Prop := a e + n ≤ e.pkt.scratch ∧ a e % 64 = 0
    let cls := (f.mod.extractLsb' 1 2).toNat
    let named (e : Env) := (ticketCmd e.s e.core e.team (e.src e.first f.b .int)).filter fun k => (e.s.cmd k).state == .suspended
    let r (e : Env) : Ccr := ccrOf (readDws e.s e.team (a e) 32)
    let st (e : Env) := (memRead (e.s.team e.team).scratch (a e + 276)).toNat
    let reach (e : Env) : Prop := placed e 320 ∧ recordClaimed e.s e.core e.team (a e) 320 = false ∧
      scratchBad e.s e.team (a e) 320 = false
    let good (e : Env) : Prop := (r e).check e.pkt (e.s.team e.team) = none ∧ (st e = 1 ∨ st e = 2)
    let seq (e : Env) := nextSeq e.s e.core cls
    let posted (e : Env) : Nat × State :=
      let c := recordCmd (seq e).2 e.team e.core (a e) cls (seq e).1 ((seq e).2.lane e.core e.first.2).mon
      let ticket := leNat (memReads ((seq e).2.team e.team).scratch (a e + 256) 4)
      addCmd (takeColl (takeHold (seq e).2 e.team ticket) e.team ticket) c
    let slipBusy (e : Env) : Prop := (r e).slipEn = true ∧ teamSlip e.s e.team (r e).slip ≠ .pending
    let room (e : Env) : Prop := blockedFor (posted e).2 e.core cls = [] ∧ roomFor (posted e).2 e.core cls (posted e).1 = true
    Does (.dockpop f) 0xDA f (fun e => placed e 64 ∧ dockReady e.s (ctx e) = true)
      (fun e => e.results 0xDA f (scratchWrite (takeEntry e.s (ctx e)).2 e.team (a e) (takeEntry e.s (ctx e)).1) fun _ => [.pr f.d true])
      (fun _ => []) ∧
    Does (.dockpop f) 0xDA f (fun e => placed e 64 ∧ dockReady e.s (ctx e) = false ∧ f.mod.getLsbD 0 = false)
      (fun e => e.results 0xDA f e.s fun _ => [.pr f.d false]) (fun _ => []) ∧
    Does (.dockpop f) 0xDA f (fun e => placed e 64 ∧ dockReady e.s (ctx e) = false ∧ f.mod.getLsbD 0 = true ∧ e.nb = none)
      (fun e => blockWord e.s e.core (mine e) (.dock (a e)) f.d .nul) mine ∧
    Does (.cresumeDock f) 0xD5 f (fun _ => True)
      (fun e => e.results 0xD5 f (resumeEntry e.s (ctx e) (e.src e.first f.a .int).toNat).2 fun _ =>
        [.pr f.d (resumeEntry e.s (ctx e) (e.src e.first f.a .int).toNat).1]) (fun _ => []) ∧
    Does (.cresumeRec f) 0xD5 f (fun e => reach e ∧ ¬ good e) (fun e => e.results 0xD5 f e.s fun _ => [.pr f.d false]) (fun _ => []) ∧
    Does (.cresumeRec f) 0xD5 f (fun e => reach e ∧ good e ∧ ¬ slipBusy e ∧ room e)
      (fun e => e.results 0xD5 f (appendCmd (posted e).2 (posted e).1) fun _ => [.pr f.d true]) (fun _ => []) ∧
    Traps (.cresumeRec f) 0xD5 f (fun e => reach e ∧ good e ∧ slipBusy e) 0x08 (fun e => [e.first.2]) (fun _ _ => 0) ∧
    (∀ k, Does (.csave f) 0xD6 f (fun e => placed e 320 ∧ named e = some k)
      (fun e => e.results 0xD6 f (saveCmd e.s k (a e)) fun _ => [.pr f.d true]) (fun _ => [])) ∧
    Does (.csave f) 0xD6 f (fun e => placed e 320 ∧ named e = none) (fun e => e.results 0xD6 f e.s fun _ => [.pr f.d false]) (fun _ => [])) ∧
  (∀ (s : State) core slot bid w a, (s.core core).findWait bid = some w → w.kind = .dock a → w.slot = slot →
    dockReady s (teamCtx s (s.wave core slot).team) = true →
    exec (.dockpopWake core slot bid) s = .next (returnWait (popDocket s (s.wave core slot).team a) core w (.pr w.d true))) ∧
  (∀ (s : State) ctx team x rest, (s.ctx ctx).held = (team, x) :: rest → dockCount s ctx < dockSize s ctx → (x.getD 0 0).toNat ≠ 2 →
    exec (.heldFaultWrite ctx) s = .next (countEv (dockPut (s.onCtx ctx fun c => { c with held := rest }) ctx x) team 9 1)) ∧
  (∀ (s : State) ctx id, unwritten s ctx id = true → resumeEntry s ctx id = (false, s)) ∧
  (∀ (s : State) ctx, dockReady s ctx = true → (takeEntry s ctx).1 =
    memReads s.hbm (dockBase s ctx + 64 * (dockTail s ctx % dockSize s ctx)) 64)

/-- EPOPEN, EPCLOSE, POLSET, MBXBIND and MBXREL (R314, R316 to R318, R322, R327). An open (R314, R317): a record that breaks a
rule or a busy carrel gives its code and changes nothing; else the carrel runs from its entry point with the next generation,
and the handle names it. The model's own choices in it are those of notes/assumptions/42, 61, 83, 127. -/
def Obligations.Episodes : Prop :=
  ((∀ (f : Form) (fixed : Env → State),
      let a (e : Env) := (e.addr e.first f).toNat
      let reach (e : Env) : Prop := a e + 64 ≤ e.pkt.scratch ∧ a e % 64 = 0 ∧ recordClaimed e.s e.core e.team (a e) 64 = false ∧
        scratchBad e.s e.team (a e) 64 = false ∧ e.settled 0xE0 f = .ok (fixed e)
      let opened (e : Env) :=
        openEpisode ((fixed e).inOrder episodeOrder e.core) e.team e.die (readDws (fixed e) e.team (a e) 8)
      let h (e : Env) (o : Opnd) := episodeAt e.s (e.s.team e.team).launch (e.src e.first o .int)
      let slot (e : Env) := e.first.2.slot
      let q := (queueDesc f.a).1
      let push := !f.mod.getLsbD 0
      let freed (e : Env) : State := freeQueue e.s e.core (slot e) q
      let rcb (e : Env) := teamRcb e.s e.team
      let ver (e : Env) : W16 :=
        if f.mod.getLsbD 0 then BitVec.ofNat 16 (effPolver e.s (rcb e)) + 1 else BitVec.ofNat 16 (e.src e.first f.a .int).toNat
      Does (.epopen f) 0xE0 f reach (fun e => e.results 0xE0 f (opened e).2 fun _ => [.w32 f.d (opened e).1]) (fun _ => []) ∧
      Traps (.epopen f) 0xE0 f (fun e => e.pkt.scratch < a e + 64) 0x03 (fun e => [e.first.2]) (fun e _ => BitVec.ofNat 32 (a e)) ∧
      Does (.epclose f) 0xE1 f (fun e => h e f.a = none) (fun e => e.results 0xE1 f e.s fun _ => [.pr f.d false]) (fun _ => []) ∧
      (∀ die c, Does (.epclose f) 0xE1 f (fun e => h e f.a = some (die, c) ∧ (closeEpisode e.s die c).1 = true)
        (fun e => e.results 0xE1 f (closeEpisode e.s die c).2 fun _ => [.pr f.d true]) (fun _ => [])) ∧
      (∀ die c, Does (.epclose f) 0xE1 f (fun e => h e f.a = some (die, c) ∧ (closeEpisode e.s die c).1 = false ∧ e.nb = none)
        (fun e => blockWord (closeEpisode e.s die c).2 e.core (mine e) (.close die c) f.d .nul) mine) ∧
      Does (.polset f) 0xE3 f (fun _ => True)
        (fun e => e.results 0xE3 f (homeWrite e.s (groupNode e.s 8 (rcb e) + 34) (leBytes 2 (ver e).toNat)) fun _ =>
          [.w32 f.d ((ver e).zeroExtend 32)]) (fun _ => []) ∧
      (∀ die c, Does (.mbxbind f) 0xE4 f
        (fun e => episodeAt (freed e) e.launch (e.b e.first f .int) = some (die, c) ∧ mailboxBound (freed e) die c push = false)
        (fun e => e.results 0xE4 f ((freed e).onWave e.core (slot e) fun w => { w with
          q := tset w.q q ⟨die, c, ((freed e).carrel die c).gen.toNat, push⟩ })
          fun _ => [.pr f.d true]) (fun _ => [])) ∧
      Does (.mbxbind f) 0xE4 f (fun e => episodeAt (freed e) e.launch (e.b e.first f .int) = none)
        (fun e => e.results 0xE4 f (freed e) fun _ => [.pr f.d false]) (fun _ => []) ∧
      Does (.mbxrel f) 0xE5 f (fun _ => True) freed (fun _ => [])) ∧
    (∀ (s : State) core slot n, tget ((freeQueue s core slot n).wave core slot).q n = none)) ∧
  (∀ (s : State) t die d,
    let r := openEpisode s t die d
    (episodeOk d = false → r = (0x80000003, s)) ∧
    (episodeOk d = true → keySlotOk s t (bits (d.getD 1 0) 32 8) = false → r = (0x80000004, s)) ∧
    (episodeOk d = true → keySlotOk s t (bits (d.getD 1 0) 32 8) = true → bits (d.getD 6 0) 10 1 = 1 →
      (∀ c < 128, (s.carrel die c).state ≠ .free) → r = (0x80000001, s)) ∧
    (r.1.getLsbD 31 = false → ∃ dd c, c < 128 ∧ (s.carrel dd c).state = .free ∧
      (r.2.carrel dd c).state = .running ∧ (r.2.carrel dd c).gen = (s.carrel dd c).gen + 1 ∧
      (r.2.carrel dd c).pc = BitVec.ofNat 64 (0x40000000 + bits (d.getD 3 0) 32 32) ∧
      (r.2.carrel dd c).actions = [] ∧ (r.2.carrel dd c).sram = [] ∧
      (∀ dd' c', (dd', c') ≠ (dd, c) → r.2.carrel dd' c' = s.carrel dd' c') ∧
      { r.2 with dies := [], frameKeys := [] } = { s with dies := [], frameKeys := [] }))

/-! ## Carrels -/

/-- The carrel words (R323, R324, R327): what MBX_POP, MBX_PEEK, MBX_PUSH, STEP_DONE and ARENA_SYNC do with a buffer in the
SRAM quarter, when they wait, and what they raise. The model's own choices in it are those of notes/assumptions/43, 64. -/
def Obligations.CarrelWords : Prop := ∀ (s : State) die c (rd r1 r2 : BitVec 5), s.curCarrel = some (die, c) →
  let k := s.carrel die c
  let a := (k.xget r1.toNat).toNat
  let flag := (k.xget r2.toNat).toNat
  let mode := (k.xget r1.toNat).toNat
  let ext (n : Nat) (d b x : BitVec 5) : W64 :=
    BitVec.ofNat 64 (n * 2 ^ 25 + b.toNat * 2 ^ 20 + x.toNat * 2 ^ 15 + d.toNat * 2 ^ 7 + 0x0B)
  let buf : Prop := a % 64 = 0 ∧ a + 64 ≤ 0x40000
  let nothing (i : Instr) : Prop := exec i s = .next (s.onCarrel die c fun k => (k.xset rd.toNat (BitVec.allOnes 64)).retire 4)
  let taken (i : Instr) (x : List Byte) (rest : List (List Byte)) : Prop := ∃ t, exec i s = .next t ∧
    (t.carrel die c).actions = rest ∧ (t.carrel die c).pc = k.pc + 4 ∧ memReads (t.carrel die c).sram a 64 = x ∧
    (rd ≠ 0 → (t.carrel die c).xget rd.toNat = (entryStep x).zeroExtend 64) ∧
    (∀ j : BitVec 5, j ≠ rd → (t.carrel die c).xget j.toNat = k.xget j.toNat) ∧
    (∀ o, o < a ∨ a + 64 ≤ o → memRead (t.carrel die c).sram o = memRead k.sram o)
  let posts (i : Instr) (u : State) : Prop := ∀ n, k.active = some n → buf → k.obs.length < 8 →
    entryStatus (memReads k.sram a 64) ≤ 1 → entryFlags (memReads k.sram a 64) / 2 % 4 = 0 →
    exec i s = .next (u.onCarrel die c fun k =>
      postObservation u.now (effPolver u k.rcb) (effStale u k.rcb) (effCont u k.rcb) k n (memReads (s.carrel die c).sram a 64))
  (∀ x rest, buf → k.actions = x :: rest → x.length = 64 → Memory.wf k.sram = true →
    (flag ≤ 1 → k.active = none → taken (.mbxPop rd r1 r2) x rest) ∧ taken (.mbxPeek rd r1) x (x :: rest)) ∧
  (buf → k.actions = [] → k.active = none → flag = 1 → nothing (.mbxPop rd r1 r2)) ∧
  (buf → k.actions = [] → nothing (.mbxPeek rd r1)) ∧
  (buf → k.actions = [] → k.active = none → flag = 0 →
    exec (.mbxPop rd r1 r2) s = .next (s.onCarrel die c fun k => { k with waiting := true }.retime s.now)) ∧
  (k.active ≠ none → exec (.mbxPop rd r1 r2) s = .next (raiseCarrel s die c 2 (ext 1 rd r2 r1))) ∧
  (a % 64 ≠ 0 → exec (.mbxPeek rd r1) s = .next (raiseCarrel s die c 2 (ext 2 rd 0 r1))) ∧
  posts (.mbxPush r1) s ∧ posts (.stepDone r1) (arenaRelease s die c) ∧
  (k.active = none → exec (.mbxPush r1) s = .next (raiseCarrel s die c 2 (ext 0 0 0 r1)) ∧
    exec (.stepDone r1) s = .next (raiseCarrel s die c 2 (ext 3 0 0 r1))) ∧
  (k.active ≠ none → buf → 8 ≤ k.obs.length →
    exec (.mbxPush r1) s = .next (s.onCarrel die c fun k => { k with waiting := true }.retime s.now)) ∧
  (mode ≤ 2 → exec (.arenaSync r1) s = .next (
      let u := if mode ≠ 1 then arenaRelease s die c else s
      let u := if mode ≠ 0 then arenaAcquire u die c else u
      u.onCarrel die c fun k => k.retire 4)) ∧
  (2 < mode → exec (.arenaSync r1) s = .next (raiseCarrel s die c 2 (ext 4 0 0 r1)))

/-- The events of a carrel (R313, R315, R324, R326). The end of an episode by a fault or a timeout (R315, R320, R326): the
thread stops, what waits is discarded, and the observation of the step owed stands in the mailbox or is held. What an
observation makes of its episode (R320, R321, R327, R328). The model's own choices in it are those of notes/assumptions/57,
64. -/
def Obligations.CarrelEvents : Prop :=
  (∀ (s : State) die c,
    let k := s.carrel die c
    (k.state = .running → k.waiting = true → (k.active ≠ none ∧ k.obs.length < 8) ∨ (k.active = none ∧ k.actions ≠ []) →
      exec (.carrelWaitResume die c) s = .next (s.onCarrel die c fun k => { k with waiting := false }.retime s.now)) ∧
    (k.runs = true → ∀ w z u, hartFetch s die c = .word w z u → carrelOk w = false →
      exec (.carrelException die c) s = .next (u.onCarrel die c fun k => k.faulted u.now 2 (w.zeroExtend 64) k.pc)) ∧
    (k.runs = true → ∀ a u, hartFetch s die c = .fault a u →
      exec (.carrelException die c) s = .next (u.onCarrel die c fun x => x.faulted u.now 1 (BitVec.ofNat 64 a) x.pc)) ∧
    (k.runs = true → ∀ va u, hartFetch s die c = .absent va u →
      exec (.carrelPageFault die c) s = .next (suspendCarrel u die c va false)) ∧
    (k.state = .running → k.deadline * 2100 < k.elapsed s.now → k.waiting = true ∨ k.deadline * 2100 + 1 < k.elapsed s.now →
      s.now + k.deadline * 2100 < k.openedAt + k.budget * 1000 * 2100 + k.elapsed s.now →
      exec (.deadlineTimeout die c) s = .next (s.onCarrel die c fun k => k.timedOut s.now false)) ∧
    (k.state = .running → k.openedAt + k.budget * 1000 * 2100 < s.now →
      k.elapsed s.now ≤ k.deadline * 2100 ∨ k.openedAt + k.budget * 1000 * 2100 + k.elapsed s.now ≤ s.now + k.deadline * 2100 →
      exec (.budgetTimeout die c) s = .next (s.onCarrel die c fun k => k.timedOut s.now true)) ∧
    (∀ e, k.heldObs = some e → k.obs.length < 8 →
      exec (.heldObservationPost die c) s = .next (s.onCarrel die c fun k => { k with obs := k.obs ++ [e], heldObs := none }))) ∧
  (∀ now (k : Carrel) (mcause mtval pc : W64) (budget : Bool),
    let step := k.active.getD (match k.actions with | x :: _ => entryStep x | [] => k.lastStep)
    let pol := if k.active.isSome then k.activePol else match k.actions with | x :: _ => entryPol x | [] => k.lastPol
    let posted (t : Carrel) (e : List Byte) : Prop :=
      t.state = .ended ∧ t.actions = [] ∧ t.waiting = false ∧ t.susp = none ∧
      (k.obs.length < 8 → t.obs = k.obs ++ [e]) ∧ (8 ≤ k.obs.length → t.obs = k.obs ∧ t.heldObs = some e)
    let f := k.faulted now mcause mtval pc
    let o := k.timedOut now budget
    f.cause = 5 ∧ posted f (mbxEntry step pol 4 0 (leBytes 8 mcause.toNat ++ leBytes 8 mtval.toNat ++ leBytes 8 pc.toNat)) ∧
    o.cause = (if budget then 3 else 2) ∧ posted o (mbxEntry step pol 2 (if budget then 4 else 0) [])) ∧
  (∀ now pol stale cont (k : Carrel) n e, k.state = .running → k.susp = none →
    let lag := decide ((BitVec.ofNat 16 pol - k.startVer).toNat > stale)
    let status := if lag && !cont then 3 else entryStatus e
    let t := postObservation now pol stale cont k n e
    t.obs = k.obs ++ [leBytes 4 n.toNat ++ leBytes 2 k.activePol.toNat ++ leBytes 1 status ++
      leBytes 1 (entryFlags e + if lag && cont then 2 else 0) ++ ((e.drop 8) ++ List.replicate 56 0).take 56] ∧
    t.active = none ∧ t.lastStep = n ∧ t.lastPol = k.activePol ∧ t.timer = 0 ∧
    (status = 3 → t.state = .ended ∧ t.cause = 4 ∧ t.actions = []) ∧
    (status = 1 → t.state = .ended ∧ t.cause = 1 ∧ t.actions = []) ∧
    (status ≠ 3 → status ≠ 1 → t.state = .running ∧ t.actions = k.actions ∧
      (k.stateless = false → t.pc = k.pc + 4 ∧ t.x = k.x ∧ t.sram = k.sram) ∧
      (k.stateless = true → t.pc = BitVec.ofNat 64 (0x40000000 + k.entry) ∧ t.sram = [])))

/-- Some instructions of the base architecture (R312, R313): arithmetic, jumps, branches, loads and stores of the SRAM
quarter; a word that is none raises an illegal-instruction exception. A reward checker's store to its arena, and a carrel's
store to its image, raise an access fault; an SRAM store reaches no byte of another carrel (R313). The model's own choices in
it are those of notes/assumptions/60, 63. -/
def Obligations.BaseInstructions : Prop :=
  (∀ (s : State) die c (rd r1 r2 : BitVec 5) (i12 : BitVec 12) (i20 : BitVec 20),
    s.curCarrel = some (die, c) →
    let k := s.carrel die c
    let x (r : BitVec 5) := k.xget r.toNat
    let run (w : W32) : Host.Outcome State Fault Refusal := exec (.riscvLoadsAndStores w false) s
    let sets (w : W32) (v : W64) : Prop := run w = .next (s.onCarrel die c fun k => (k.xset rd.toNat v).retire 4)
    let R (f7 : BitVec 7) (f3 : BitVec 3) : W32 := f7 ++ r2 ++ r1 ++ f3 ++ rd ++ (0x33 : BitVec 7)
    let I (f3 : BitVec 3) (op : BitVec 7) : W32 := i12 ++ r1 ++ f3 ++ rd ++ op
    let S (f3 : BitVec 3) : W32 := i12.extractLsb' 5 7 ++ r2 ++ r1 ++ f3 ++ i12.extractLsb' 0 5 ++ (0x23 : BitVec 7)
    let B (f3 : BitVec 3) : W32 := i12.extractLsb' 11 1 ++ i12.extractLsb' 4 6 ++ r2 ++ r1 ++ f3 ++ i12.extractLsb' 0 4 ++
      i12.extractLsb' 10 1 ++ (0x63 : BitVec 7)
    let at_ := (x r1 + i12.signExtend 64).toNat
    let jumped (f : Carrel → Carrel) (pc : W64) : State := s.onCarrel die c fun k => { f k with pc := pc, instret := k.instret + 1 }
    sets (R 0 0) (x r1 + x r2) ∧ sets (R 0x20 0) (x r1 - x r2) ∧ sets (R 0 7) (x r1 &&& x r2) ∧ sets (R 0 6) (x r1 ||| x r2) ∧
    sets (R 0 4) (x r1 ^^^ x r2) ∧ sets (R 0 3) (if x r1 < x r2 then 1 else 0) ∧
    sets (I 0 0x13) (x r1 + i12.signExtend 64) ∧ sets (I 7 0x13) (x r1 &&& i12.signExtend 64) ∧
    sets (i20 ++ rd ++ (0x37 : BitVec 7)) ((i20 ++ (0 : BitVec 12)).signExtend 64) ∧
    run (I 0 0x67) = .next (jumped (fun k => k.xset rd.toNat (k.pc + 4)) ((x r1 + i12.signExtend 64) &&& ~~~1)) ∧
    run (B 0) = .next (if x r1 = x r2 then jumped id (k.pc + (i12.signExtend 64 <<< 1)) else s.onCarrel die c fun k => k.retire 4) ∧
    (at_ + 8 ≤ 0x40000 → sets (I 3 0x03) (BitVec.ofNat 64 (leNat (memReads k.sram at_ 8))) ∧
      run (S 3) = .next (s.onCarrel die c fun k => { k with sram := memWrites k.sram at_ (leBytes 8 (x r2).toNat) }.retire 4)) ∧
    run 0 = .next (s.onCarrel die c fun k => k.faulted s.now 2 0 k.pc) ∧ k.xget 0 = 0) ∧
  (∀ (s : State) die c a bs, bs ≠ [] →
    let k := s.carrel die c
    (hartPlace k a bs.length = .none → hartWrite s die c a bs = .fault (firstOutside k a bs.length) s) ∧
    ((∃ o, hartPlace k a bs.length = .image o) → hartWrite s die c a bs = .fault a s) ∧
    ((∃ o, hartPlace k a bs.length = .arena o) → k.stateless = true → hartWrite s die c a bs = .fault a s) ∧
    (a + bs.length ≤ 0x40000 → ∃ t, hartWrite s die c a bs = .ok [] t ∧ (t.carrel die c).sram = memWrites k.sram a bs ∧
      (∀ d b, (d, b) ≠ (die, c) → t.carrel d b = s.carrel d b) ∧ t.hbm = s.hbm))

/-- A carrel's instruction reaches nothing of the cores (R313, R327): whatever it executes, no core, team, launch, address
space, key slot or communicator changes, and of another carrel nothing but a reservation that its store may end. The model's own choices in it are those of notes/assumptions/6.
-/
def Obligations.CarrelIsolation : Prop := ∀ (s t : State) die c dt rest,
  s.agenda = { dt := dt, act := .carrel die c } :: rest → step s = .next t →
  let now := elapse { s with agenda := rest, misordered := false } dt
  t.cores = now.cores ∧ t.teams = now.teams ∧ t.launches = now.launches ∧ t.roots = now.roots ∧ t.keys = now.keys ∧
  t.comms = now.comms ∧ ∀ d k, (d, k) ≠ (die, c) →
    t.carrel d k = now.carrel d k ∨ t.carrel d k = { now.carrel d k with reservation := none, resPa := none }

/-! ## Commands -/

/-- The element events of copies, fills, atoms and CACHE (R167, R225, R233, R235 to R243, R246): the next element of a running
command that is ready, in its turn on its engine, is performed. WATCH, RECON and TSWAP (R219, R244, R245, R248, R307, R309,
R383). The model's own choices in it are those of notes/assumptions/23, 48, 126, 127. -/
def Obligations.Elements : Prop :=
  (∀ (s u : State) k,
    let c := s.cmd k
    let n := (u.cmd k).els
    (tget s.cmds k).isSome → c.state = .running → s.live c.team = true → (s.team c.team).stopping = false → sharesTurn s k = true → engineTurn s c.ccr = true →
    makeReady s k = .ok u → n < c.ccr.total → (u.cmd k).state = .running → n < (u.cmd k).ccr.total → (u.cmd k).limit = none →
    let r := (u.cmd k).ccr
    (c.kind = 1 → exec (.tcopy k n) s = .next (served u k (moveElement u k n))) ∧
    (c.kind = 2 → exec (.gather k n) s =
      .next (served u k (if r.sibling then gatherRow u k (n / r.boxTotal) else moveElement u k n))) ∧
    (c.kind = 3 → exec (.scatter k n) s =
      .next (served u k (if r.sibling then scatterRow u k (n / r.boxTotal) else moveElement u k n))) ∧
    (c.kind = 4 → exec (.conv k n) s = .next (served u k (moveElement u k n))) ∧
    (c.kind = 5 → exec (.fill k n) s = .next (served u k (moveElement u k n))) ∧
    (c.kind = 6 → exec (.atom k n) s = .next (served u k (atomElement u k n))) ∧
    (c.kind = 9 → c.els = n → exec (.cache k n) s = .next (served u k (cacheElement u k n)))) ∧
  (∀ (s : State) k, sharers s k = [] → sharesTurn s k = true) ∧
  (∀ (s : State) r, engineTurn s r = true ↔ (r.srcSp = 0 ∧ r.dstSp = 0) ∨ s.now % 2 = 1) ∧
  (∀ (s u : State) k,
    let c := s.cmd k
    let done (status els : Nat) : State := s.onCmd k fun c => { c with state := .following, status := status, els := els }
    (c.kind = 7 → c.state = .running → s.live c.team = true → armWatch s k = .ok u → exec (.watch k) s = .next u) ∧
    (c.kind = 7 → c.state = .armed → c.limit ≠ none → exec (.watchSatisfied k) s = .next (done 0 1)) ∧
    (c.kind = 7 → c.state = .armed → c.limit = none → c.ccr.count ≠ 0 → c.armedAt + c.ccr.count * 2100 ≤ s.now →
      exec (.watchTimeout k) s = .next (done 6 0)) ∧
    (c.kind = 8 → c.state = .running → c.ccr.subop ≠ 1 → c.els < c.ccr.total → c.limit = none → sharesTurn s k = true →
      exec (.recon k c.els) s = .next (served s k (reconElement s k c.els))) ∧
    (c.kind = 8 → c.state = .running → c.ccr.subop = 1 → ∀ pa e, translateCmd s k (c.ccr.dst % 2 ^ 56) false = (.hbm pa e, u) →
      pteSibling e = true → exec (.reconEpochAdvance k) s = .next (
        let x := advanceEpoch u (tableOf u (c.asid u) e)
        settleCmd (x.2.onCmd k fun c => { c with els := 1, value := x.1.zeroExtend 64 }) k)) ∧
    (c.kind = 13 → c.state = .running → c.limit = none → exec (.tswap k) s = .next (afterPerf k (swapTable s k)))) ∧
  (∀ (s : State) k n d,
    let c := s.cmd k
    let r := c.ccr
    let e := r.elem n { ok := true, base := 0, off := 0 }
    let w := fmtBytes r.dstFmt
    let m (t : State) : Mem := (t.team c.team).scratch
    let puts (m m' : Mem) (a : Nat) (bs : List Byte) : Prop :=
      memReads m' a w = bs ∧ ∀ x, x < a ∨ a + w ≤ x → memRead m' x = memRead m x
    let local_ (bs : List Byte) : Prop := ∃ t, moveElement s k n = .ok t ∧ puts (m s) (m t) (localOf d) bs ∧
      t.hbm = s.hbm ∧ t.host = s.host ∧ ∀ j, j ≠ c.team → t.team j = s.team j
    let code (x : Nat) : List Byte := leBytes w (x % 2 ^ fmtBits r.dstFmt)
    e.dst = some d → r.rows = false → r.redop = 0 → r.mxSrc = false → r.mxDst = false → r.dstFmt ≠ 3 → tget c.taken n = none →
    (r.dstSp = 1 → Memory.wf (m s) = true →
      (r.kind ≠ 5 → ∀ a, e.src = some a → r.srcSp = 1 → r.srcFmt = r.dstFmt → r.scaleMode = 0 →
        scratchBad s c.team (localOf a) w = false → local_ (memReads (m s) (localOf a) w)) ∧
      (r.kind ≠ 5 → e.src = none → local_ (code r.pad)) ∧
      (r.kind = 5 → e.src = none → local_ (code r.src))) ∧
    (r.dstSp = 0 → r.kind = 5 → e.src = none → Memory.wf s.hbm = true →
      ∀ pa x, translateCmd s k (vaOf d) true = (.hbm pa x, s) → pteSibling x = false → homeDie x pa = c.die →
      ∃ t, moveElement s k n = .ok t ∧ puts s.hbm t.hbm pa (code r.src) ∧ t.host = s.host ∧
        ∀ j, (t.team j).scratch = (s.team j).scratch)) ∧
  (∀ (r : Ccr) n ra, r.kind ≠ 4 → r.rows = false →
    let i (d : Nat) : Int := (n / ((List.range d).map r.boxAt).prod % r.boxAt d : Nat)
    let c (d : Nat) : Int := r.startAt d + i d
    let j (d : Nat) : Int := if r.transpose then (if d = 0 then i 1 else if d = 1 then i 0 else i d) else i d
    let at_ (base : Int) (fmt : Nat) (x stride : Nat → Int) : Int :=
      2 * (base + ((List.range 5).map fun d => x d * stride d).sum) + if fmt = 3 then x 0 else 0
    (r.elem n ra).dst = some (at_ (Ccr.base r.dstSp r.dst) r.dstFmt j r.dsAt) ∧
    (r.elem n ra).src = if r.kind = 5 ∨ ∃ d ∈ List.range 5, c d < 0 ∨ (r.extAt d : Int) ≤ c d then none
      else some (at_ (Ccr.base r.srcSp r.src) r.srcFmt c r.ssAt))

/-- The completion of commands (R231, R251, R252, R266, R285). What the completion of a command leaves (R252, R253): its
record in the scratchpad or the next slot of its ring, and its slip SET; and it is gone. FENCE commands and queue fences
complete once every earlier command of their queue has, and LAUNCH offers its packet (R166, R217, R248, R261). The model's own
choices in it are those of notes/assumptions/12, 40, 127. -/
def Obligations.CommandCompletion : Prop :=
  (∀ (s : State) k, (tget s.cmds k).isSome → s.live (s.cmd k).team = true →
    let c := s.cmd k
    let ends (i : Instr) : Prop := exec i s = .next (completeCmd s k)
    (c.state = .following → s.now % 2 = 1 → followDone s c = true → ends (.commandComplete k)) ∧
    (c.state = .recording → s.now % 2 = 1 → ends (.ringRecordResume k)) ∧
    (c.state = .malformed → s.now % 2 = 1 → c.armedAt / 2 < s.now / 2 → ends (.malformedComplete k)) ∧
    (c.state = .following → c.status = 0 → c.ccr.follow = true → c.follow = none → (s.core c.core).mat.length < 32 →
      matrixWaits s c.core = [] → s.now % 2 = 1 → ∃ t op, exec (.followOnHandover k) s = .next t ∧ (t.core c.core).mat = (s.core c.core).mat ++ [op] ∧
        op.team = c.team ∧ op.dw0 = c.dws.getD 28 0 ∧ op.dw1 = c.dws.getD 29 0 ∧ op.gen = c.postGen ∧ (t.cmd k).follow = some op.id ∧ (t.cmd k).state = .following)) ∧
  ((∀ (s u : State) k, writeRecord s k = some u → (finishCmd u k).cmds = tdel (finishCmd u k).cmds k ∧
      completeCmd s k = finishCmd u k ∧
      (∀ n, (u.cmd k).slip = some n → teamSlip (finishCmd u k) (u.cmd k).team n = .set)) ∧
    (∀ (s : State) k, writeRecord s k = none → completeCmd s k = s.onCmd k fun c => { c with state := .recording }) ∧
    (∀ (s : State) k, let c := s.cmd k
      recordAsked s c = true → c.ccr.recAddr % 2 = 0 → writeRecord s k = some (scratchWrite s c.team c.ccr.recAddr (c.record s.now))) ∧
    (∀ (c : Cmd) now, (c.record now).length = 32 ∧ (c.record now).take 4 = leBytes 2 c.status ++ leBytes 2 c.fault)) ∧
  (∀ (s : State) k,
    let c := s.cmd k
    let scope := c.ccr.scope
    let back := if scope ≥ 4 then writeBackAll s c.core (dirtyLines s c.core (c.asid s)) else ([], [], s)
    let free : Prop := earlier s k = [] ∧ ackWait s c.team scope = false ∧ releaseHeld s c.core c.team scope = false ∧
      back.1 = [] ∧ back.2.1 = [] ∧ (tget back.2.2.cmds k).isSome
    let rel := fenceRelease back.2.2 c.core c.team scope
    (c.kind = 11 → c.state = .running → free →
      exec (.fenceCommand k) s = .next (rel.onCmd k fun c => { c with state := .following, status := 0 })) ∧
    (c.kind = cfenceKind → c.state = .queued → (queueOf s c.core c.cls).head? = some k → s.live c.team = true → s.now % 2 = 1 → free →
      exec (.fenceCommand k) s = .next (
        let u := completeSlip (unqueue rel k) c.team c.slip scope
        { u with cmds := tdel u.cmds k })) ∧
    ((tget s.cmds k).isSome → c.kind = 12 → c.state = .running → c.limit = none → engineTurn s c.ccr = true → ∀ dws u,
      readPacket k (List.range 16) s [] = (none, dws, u) → exec (.launchCommand k) s = .next (offerPacket u k dws)) ∧
    (∀ dws, refusal s dws ≠ none → offerPacket s k dws = s.onCmd k fun c => { c with state := .following, status := 1 }) ∧
    (∀ dws, refusal s dws = none → ctxOf s (packetOf dws).rcb ≠ teamCtx s c.team → offerPacket s k dws = refuseCmd s k 0x0102) ∧
    (∀ dws, refusal s dws = none → ctxOf s (packetOf dws).rcb = teamCtx s c.team →
      ∃ l, tget (offerPacket s k dws).launches s.nextLaunch = some l ∧ l.pkt = packetOf dws ∧ l.id = s.nextLaunch ∧
        (offerPacket s k dws).nextLaunch = s.nextLaunch + 1 ∧ ((offerPacket s k dws).cmd k).els = (packetOf dws).teams))

/-- COLL elements, digests, timeouts, closings, aborts and chunks (R370, R371, R373, R376, R378). A closing (R371): the
sequence number is closed, its digests are dropped, and a command that has written nothing ends TIMEOUT. The model's own
choices in it are those of notes/assumptions/23, 44. -/
def Obligations.Collectives : Prop :=
  ((∀ (s u : State) k slot rank bs pa e,
      let c := s.cmd k
      let r := c.ccr
      let g := (s.comm slot).group r.repl rank
      let two := r.srcFmt == 3
      c.kind = 10 → c.state = .running → c.collGo = true → collDone s k = false → collSlot s c = some slot → rankOf s slot c.die = some rank →
      c.els < r.dstBlocks g.length ((indexFrom rank 0 g).getD 0) * r.count → collValue s k slot rank c.els = some bs →
      (r.src = r.dst → r.collOp = 0 → ∀ q ∈ g, chunkKey q (c.els * fmtBytes r.srcFmt / (s.comm slot).chunk) ∈ c.given) →
      translateCmd s k (r.dst + if two then c.els / 2 else c.els * bs.length) true = (.hbm pa e, u) → pteSibling e = false →
      exec (.coll k) s = .next (collSettle ((l2Write u c.die (homeDie e pa) pa bs).onCmd k fun c =>
        { c with els := c.els + (if two then 2 else 1), bytes := c.bytes + 2 * bs.length }) k)) ∧
    (∀ (s : State) die slot dg, (tget s.comms slot).isSome → (rankOf s slot die).isSome →
      exec (.digestReceive die slot dg) s = .next (compareDigests
        (s.onCommDie die slot fun x => { x with digests := x.digests ++ [(dg.rank, dg)] }) slot die dg.seq)) ∧
    (∀ (s : State) die slot seq, (tget s.comms slot).isSome → (rankOf s slot die).isSome →
      exec (.sequenceClosing die slot seq) s = .next (closeAt s die slot seq)) ∧
    (∀ (s : State) k slot seq, let c := s.cmd k
      collSlot s c = some slot → c.collSeq = some seq → c.kind = 10 → c.state = .running → c.collGo = false →
      (s.comm slot).timeout ≠ 0 → c.started + (s.comm slot).timeout ≤ s.now + 1 →
      exec (.collTimeout k) s = .next (forEach (s.comm slot).members s fun s e =>
        if e.1 == s.pkgNum then closeAt s e.2 slot seq else s.send (firstPort s slot) 3 (.closing e.1 e.2 slot seq))) ∧
    (∀ (s : State) die slot seq k, (tget s.cmds k).isSome → isColl s slot die seq (k, s.cmd k) = true →
      ((s.cmd k).state = .running ∨ (s.cmd k).state = .suspended ∨ (s.cmd k).state = .queued) →
      ∃ t, exec (.collectiveAbort die slot seq) s = .next t ∧ (t.cmd k).state = .following ∧ (t.cmd k).status = 6 ∧
        ∀ j, isColl s slot die seq (j, s.cmd j) = false → t.cmd j = s.cmd j) ∧
    (∀ (s : State) port, (s.port port).frozen = false → s.sequencersHeld = false →
      (∀ k r, waitingRead s port = some (k, r) → exec (.chunkSelect port) s = .next (serveWaiting s port k r)) ∧
      (∀ x, waitingRead s port = none → moving? s (s.port port) = some x → exec (.chunkSelect port) s =
        .next (if nextGiver s x = none then s else moveChunk s port x))) ∧
    (∀ (s : State) port x xs, (s.port port).frozen = false → s.sequencersHeld = false → waitingRead s port = none →
      moving? s (s.port port) = none → s.cmds.filterMap (chunkOf s port) = x :: xs →
      let best := xs.foldl (fun m y => if chunkBefore (s.port port).lastSlot y m then y else m) x
      exec (.chunkSelect port) s = .next (moveChunk (s.onPort port fun p => { p with lastSlot := best.slot }) port best))) ∧
  (∀ (s : State) die slot seq,
    let t := closeAt s die slot seq
    let x := s.commDie die slot
    let lower : Prop := x.anyClosed = true ∧ 2 ^ 31 ≤ (seq - x.closed).toNat
    (lower → (t.commDie die slot).closed = x.closed) ∧ (¬ lower → (t.commDie die slot).closed = seq) ∧ (t.commDie die slot).anyClosed = true ∧
    (∀ x ∈ (t.commDie die slot).digests, x.2.seq ≠ seq) ∧
    (∀ k, collCmd s slot die seq = some k → (s.cmd k).collGo = false → (t.cmd k).status = 6 ∧ (t.cmd k).state = .following))

/-! ## Placement -/

/-- The start of a team (R29, R40, R126, R127, R161, R163): its threads stand at the entry point with fresh registers, p0 to p6
false, its scalar registers hold the argument block and read 0 beyond it, its masks are empty, its queue registers unbound, and no
other core changes. The model's own choices in it are those of
notes/assumptions/5, 66. -/
def Obligations.TeamStart : Prop := ∀ (s : State) launch ord core,
  let l := s.launch launch
  let p := l.pkt
  let slots := (lowestFree 64 ((s.core core).waves.map (·.1))).take p.waves
  let t := startTeam s launch ord core
  slots.length = p.waves →
  (t.team s.nextTeam).status = .resident ∧ (t.team s.nextTeam).launch = launch ∧ (t.team s.nextTeam).ordinal = ord ∧
  (t.team s.nextTeam).core = core ∧ t.nextTeam = s.nextTeam + 1 ∧
  (∀ k i, k < p.waves → i < 32 → 32 * k + i < p.threads →
    let r : LaneRef := ⟨slots.getD k 0, i⟩
    (t.lane core r).pc = BitVec.ofNat 56 (p.codeBase + p.entry) ∧ (t.lane core r).clause = none ∧ (t.lane core r).mon = false ∧
    (t.lane core r).g = seedG (32 * k + i) ∧ (t.lane core r).flags = [] ∧ (∀ n, vreg t core r n = 0) ∧
    (∀ n < 7, preg t core r n = false)) ∧
  (∀ k n, k < p.waves → n < p.sregs → n < l.args.length → sreg t core (slots.getD k 0) n = l.args.getD n 0) ∧
  (∀ k n, k < p.waves → l.args.length ≤ n → sreg t core (slots.getD k 0) n = 0) ∧
  (∀ k, k < p.waves → let w := t.wave core (slots.getD k 0)
    (∀ m, tgetD w.masks m 0 = 0) ∧ (∀ n, tget w.q n = none) ∧ w.team = s.nextTeam ∧ w.number = k) ∧
  (∀ c, c ≠ core → t.core c = s.core c) ∧ t.hbm = s.hbm

/-- Admission, team queues, stealing and the carve (R163, R164, R182, R183). The LFSR of a core steps through x^16 + x^14 +
x^13 + x^11 + 1, never to zero from a seed that is not, and a victim in STEAL mode 1 is another core of the die (R164). The
model's own choices in it are those of notes/assumptions/12, 68, 69, 124, 138, 141. -/
def Obligations.Scheduling : Prop :=
  ((∀ (s : State) die, die < 8 → s.now % 2 = 0 → exec (.teamAdmit die) s = .next (admitNext s die)) ∧
    (∀ (s : State) die k l rest ord core, (s.die die).lastAdmit ≠ s.now / 2 + 1 → candidates s die = (k, l) :: rest →
      nextFor l die = some ord → coreFor s die l.pkt = some core →
      admitNext s die = (pastTeam (startTeam s k ord core) k die ord).onDie die fun d => { d with lastAdmit := s.now / 2 + 1 }) ∧
    (∀ (s : State) core k ord, queueStarts s core = some (k, ord) → s.now % 2 = 0 →
      exec (.teamQueueStart core) s = .next (startTeam (s.onCore core fun c => { c with teamQueue := c.teamQueue.filter (· != (k, ord)) }) k ord core)) ∧
    (∀ (s : State) core v, core < 640 → stealable s core ≠ [] → (s.core core).stealSent = none → (s.core core).stealUntil = 0 →
      idleCore s core = true →
      let p := ((stealable s core).getD (s.pick 7300 (stealable s core).length) default).2.pkt
      victimOf p core (lfsrStep (s.core core).lfsr) = some v →
      exec (.stealRequest core) s = .next (s.onCore core fun c =>
        { c with lfsr := lfsrStep (s.core core).lfsr, stealSent := some ⟨v, p.steal, freeFootprint s core⟩ })) ∧
    (∀ (s : State) core (r : StealReq), (s.core core).stealSent = some r → s.now % 2 = 0 →
      (∀ e ∈ s.cores, e.1 < core → e.2.stealSent.map (·.victim) ≠ some r.victim) →
      let u := s.onCore core fun c => { c with stealSent := none }
      (∀ k ord, stolen u core r = some (k, ord) →
        (u.launch k).pkt.fitsIn r.free = true ∧ (u.launch k).pkt.steal = r.mode ∧ (k, ord) ∈ (u.core r.victim).teamQueue ∧
        (fits u core (u.launch k).pkt = true → exec (.stealAnswer core) s =
          .next (startTeam (u.onCore r.victim fun c => { c with teamQueue := c.teamQueue.filter (· != (k, ord)) }) k ord core))) ∧
      (stolen u core r = none → exec (.stealAnswer core) s = .next (u.onCore core fun c => { c with stealUntil := s.now / 2 + 64 }))) ∧
    (∀ (s : State) core, (s.core core).stealUntil ≠ 0 → (s.core core).stealUntil ≤ s.now / 2 →
      exec (.stealBackoffEnd core) s = .next (s.onCore core fun c => { c with stealUntil := 0 })) ∧
    (∀ (s : State) die core ws, die < 8 → (∀ c ∈ coresOf die, (s.core c).carve = none) → growChoice s die = some (core, ws) →
      exec (.poolGrow die) s = .next (vacate (s.onCore core fun c => { c with carve := some ws }) core ws)) ∧
    (∀ (s : State) core ws, (s.core core).carve = some ws → (∀ l ∈ (s.core core).lines, ws.contains l.way = false) → s.now % 2 = 1 →
      exec (.carveComplete core) s = .next (s.onCore core fun c => { c with
        carve := none, poolWays := (List.range 16).filter fun w => c.poolWays.contains w || ws.contains w })) ∧
    (∀ (s : State) core way, 8 ≤ way → (s.core core).poolWays.contains way = true → (∀ b ∈ (s.core core).blocks, b / 8 ≠ way) →
      (s.core core).carve = none → (s.core core).teamQueue = [] → (∀ e ∈ s.launches, nextFor e.2 (dieOf core) = none) →
      exec (.wayReturn core way) s = .next (s.onCore core fun c => { c with poolWays := c.poolWays.filter (· != way) }))) ∧
  ((∀ l : W16, l ≠ 0 → lfsrStep l ≠ 0) ∧
    (∀ (p : Packet) core l v, p.steal = 1 → victimOf p core l = some v → dieOf v = dieOf core ∧ v ≠ core))

/-- Retirement, pre-emption and restoring (R144, R345, R346), with what a save keeps and what a restore gives back: the registers,
predicates, flags, generators, places and monitor registers of every lane, the scalar registers, masks and queue bindings of
every wave, and the scratchpad as the save area holds it. The model's own choices in it are those of notes/assumptions/12, 71,
72. -/
def Obligations.Retirement : Prop :=
  (∀ (s : State) core slot w, tget (s.core core).waves slot = some w → s.live w.team = true →
    (∀ e ∈ w.lanes, e.2.exited = true) → (∀ p ∈ (s.core core).pends, ∀ r ∈ p.lanes, r.slot ≠ slot) →
    (∀ x ∈ (s.core core).waits, ∀ r ∈ x.lanes, r.slot ≠ slot) → s.now % 2 = 1 →
    ∃ t, exec (.waveRetire core slot) s = .next t ∧ tget (t.core core).waves slot = none ∧
      (t.team w.team).retiredWaves = (s.team w.team).retiredWaves ++ [w.number] ∧ slot ∉ (t.team w.team).slots) ∧
  (∀ (s u : State) team, (tget s.teams team).isSome → s.live team = true → teamOver s team = true → s.now % 2 = 1 →
    writeBackAll s (s.team team).core (teamDirty s team) = ([], [], u) →
    exec (.teamRetire team) s = .next (teamDone (freeTeam u team .retired) team)) ∧
  (∀ (s : State) team, s.live team = true → (s.team team).stopping = false → isVictim s team = true →
    exec (.preemptTeam team) s = .next (endSleeps (s.onTeam team fun x => { x with stopping := true }) team)) ∧
  (∀ (s u : State) team held, s.live team = true → (s.team team).stopping = true →
    let e := endSleeps s team
    e.now % 2 = 1 → atRest e team = true → saveRoom e team = true →
    writeBackAll e (e.team team).core (teamDirty e team) = (held, [], u) →
    exec (.preemptTeam team) s = .next (saveTeam u team)) ∧
  (∀ (s : State) team, s.now % 2 = 1 → restorable s team = true → privDenied s team = none → exec (.teamRestore team) s = .next (restoreTeam s team)) ∧
  (∀ (s : State) team,
    let x := s.team team
    let t := saveTeam s team
    ((slotsOf s team).map fun k => (s.wave x.core k).number).Nodup →
    (t.team team).status = .saved ∧ (t.team team).slots = [] ∧ (t.team team).scratch = [] ∧
    ∀ k ∈ slotsOf s team, tget (t.team team).savedWaves (s.wave x.core k).number = some (s.wave x.core k) ∧
      tget (t.core x.core).waves k = none) ∧
  (∀ (s : State) team,
    let x := s.team team
    let t := restoreTeam s team
    let p := teamPkt s team
    (∀ e ∈ s.cmds, e.2.team ≠ team) → x.savedWaits = [] → (s.core x.core).waits = [] → x.tiles = [] →
    ((newSlots s team).map (·.2)).Nodup → (∀ e ∈ x.savedWaves, ∀ l ∈ e.2.lanes, l.2.block ≠ .filed ∧ l.2.block ≠ .reform) →
    (t.team team).status = (if x.freeze.isSome then .frozen else .resident) ∧
    (t.team team).slots = (newSlots s team).map (·.2) ∧
    (∀ e ∈ newSlots s team,
      let w := tgetD x.savedWaves e.1 default
      let w' := t.wave x.core e.2
      w'.s = w.s ∧ w'.masks = w.masks ∧ w'.q = w.q ∧ w'.number = w.number ∧
      ∀ i, let l := tgetD w.lanes i default
        let l' := t.lane x.core ⟨e.2, i⟩
        l'.v = l.v ∧ l'.p = l.p ∧ l'.g = l.g ∧ l'.pc = l.pc ∧ l'.clause = l.clause ∧ l'.flags = l.flags ∧ l'.mon = l.mon ∧
          l'.mregs = l.mregs ∧ l'.cd = l.cd ∧ l'.exited = l.exited) ∧
    (p.priv = 0 → (t.team team).scratch =
      memWrites [] 0 (saveGet s team (saveVa s team (x.saveAt + savedScratchOff p)) p.scratch)))

/-! ## The package and its host -/

/-- Peers, walks and the link (R348 to R350, R353, R361 to R363, R366): a read is answered with the home's bytes; the bytes of
a write notice are read from the requester, applied when they come, and acknowledged; walks are issued in batches of at most 8
while fewer than 64 are in flight, and one that ends leases its page. The channels of a link (R365, R366): what waits on
channels 3, 0 and 2 goes first, in that order. The model's own choices in it are those of notes/assumptions/74, 75, 105, 106.
-/
def Obligations.Fabric : Prop :=
  ((∀ (s u : State) (r : PeerRead) pa e, s.linksUp = true → r.len ≠ 0 → r.kind = .memory ∨ r.kind = .sibling →
      servePeer s r.asid r.va.toNat false = .ok pa e u →
      let port := r.va.toNat / 128 % 18
      let vc := if r.cls = 0 then 2 else 1
      (∀ bs, peerBytes u r pa e = .ok bs → exec (.peerReadRequest r) s = .next (u.send port vc (.peerData r.pkg r.tag bs))) ∧
      (∀ x, peerBytes u r pa e = .error x → exec (.peerReadRequest r) s = .next (u.send port vc (.peerFault r.pkg r.tag x)))) ∧
    (∀ (s : State) (r : PeerRead), s.linksUp = true →
      (r.len = 0 → (∀ d n q k on, r.kind ≠ .halt d n q k on) → exec (.peerReadRequest r) s = .next (freezePort s (r.va.toNat / 128 % 18))) ∧
      (r.len ≠ 0 → ∀ cmd elem, r.kind = .notice cmd elem →
        (∀ o, (s.peerOut.find? fun o => o.cmd == cmd && o.elem == elem && o.write.isSome) = some o →
          exec (.peerReadRequest r) s = .next (s.send o.port (if o.cls = 0 then 2 else 1) (.peerData r.pkg r.tag o.data))) ∧
        ((∀ o ∈ s.peerOut, o.cmd = cmd → o.elem = elem → o.write = none) →
          exec (.peerReadRequest r) s = .next (freezePort s (r.va.toNat / 128 % 18))))) ∧
    (∀ (s : State) (w : PeerWrite), s.linksUp = true →
      let port := w.va.toNat / 128 % 18
      let vc := if w.cls = 0 then 2 else 1
      (w.len = 0 ∨ 4096 < w.len → exec (.peerWriteNotice w) s = .next (freezePort s port)) ∧
      (w.len ≠ 0 → w.len ≤ 4096 → exec (.peerWriteNotice w) s =
        .next ({ s with notices := tset s.notices (pullKey s) w }.send port 0 (.pull w.pkg w.tag (pullKey s)))) ∧
      (∀ id elem data, tget s.notices id = some w → data.length = w.len →
        let v : State := { s with notices := tdel s.notices id }
        (∀ pa e u ack t, servePeer v w.asid w.va.toNat true = .ok pa e u → applyPeer u w data pa e = .ok ack t →
          exec (.peerReadResponse id elem data none) s = .next (t.send port vc (.peerAck w.pkg w.tag ack))) ∧
        (∀ x u, servePeer v w.asid w.va.toNat true = .no x u →
          exec (.peerReadResponse id elem data none) s = .next (u.send port vc (.peerFault w.pkg w.tag x))))) ∧
    (∀ (s : State) (w : PeerWrite) data pa e, pteSibling e = false →
      (w.kind = .plain → applyPeer s w data pa e = .ok [] (homeWrite s pa data)) ∧
      (∀ fmt op, w.kind = .reduce fmt op → fmt ≠ 3 → (∀ l ∈ linesOf pa data.length, l ∉ s.hbmPoison) →
        applyPeer s w data pa e = .ok (memReads s.hbm pa data.length)
          (reduceRun op fmt (fmtBytes fmt) (data.length / fmtBytes fmt) s pa data))) ∧
    (∀ (s : State) cmd elem data o, s.linksUp = true → cmd < 2 ^ 47 → (tget s.cmds cmd).isSome → asked s cmd elem true = some o →
      exec (.peerAck cmd elem data none) s = .next ((dropAsked s cmd elem).onCmd cmd fun c =>
        { c with peerData := tset c.peerData elem data, unacked := [] })) ∧
    (∀ (s : State) cmd elem data o, s.linksUp = true → cmd < 2 ^ 47 → tget s.notices cmd = none → (tget s.cmds cmd).isSome → (s.cmd cmd).kind ≠ 10 → asked s cmd elem false = some o →
      exec (.peerReadResponse cmd elem data none) s = .next ((dropAsked s cmd elem).onCmd cmd fun c =>
        { c with peerData := tset c.peerData elem data, unacked := [] })) ∧
    (∀ (s : State) port, port < 18 → s.linksUp = true →
      exec (.flitReplay port) s = .next (s.onPort port fun p => { p with replays := p.replays + 1 })) ∧
    (∀ (s : State) port v m rest, port < 18 → s.linksUp = true →
      ((vcOrder (s.port port).lastVc).find? fun v => !(tgetD (s.port port).vcs v []).isEmpty) = some v →
      tgetD (s.port port).vcs v [] = m :: rest →
      let sent := tgetD (s.port port).flits v 0 + 1
      ∃ t, exec (.flitBoundary port) s = .next t ∧ (∀ w, w ≠ v → tgetD (t.port port).vcs w [] = tgetD (s.port port).vcs w []) ∧
        (sent < m.flits → t.out = s.out ∧ tgetD (t.port port).vcs v [] = m :: rest ∧ tgetD (t.port port).flits v 0 = sent) ∧
        (m.flits ≤ sent → t.out = s.out ++ [m] ∧ tgetD (t.port port).vcs v [] = rest ∧ tgetD (t.port port).flits v 0 = 0)) ∧
    (∀ (s : State) die, (s.die die).walking = [] →
      let r := issueWalks 64 { s.die die with walkq := pendingWalks s die }
      exec (.pageWalk die) s = .next (forEach r.2 (s.onDie die fun _ => r.1) fun s w => match w.team with
        | some t => countEv s t 7 1
        | none => s)) ∧
    (∀ n (d : Die), d.walking.length ≤ 64 →
      (issueWalks n d).1.walking = d.walking ++ (issueWalks n d).2 ∧ (issueWalks n d).1.walking.length ≤ 64) ∧
    (∀ (d : Die) r, nextWalker d = some r → ∀ w ∈ d.walkq,
      (d.walking.filter fun x => x.who == r).length ≤ (d.walking.filter fun x => x.who == w.who).length) ∧
    (∀ (s : State) die asid page e level, walk s asid (page * 65536) = some (some (e, level)) →
      ∃ l ∈ (leasePage s die asid page).leases, l.die = die ∧ l.asid = asid ∧ l.vpage = page ∧ l.leaf = e ∧ l.level = level ∧ l.at_ = s.now)) ∧
  (∀ last v, (v ∈ vcOrder last ↔ v < 16) ∧
    (vcOrder last).take 3 = [3, 0, 2] ∧ (vcOrder last).Nodup)

/-- Sessions (R386, R390): HELLO opens a handshake under the lowest free number and answers with a report, KEYX ends it, and
timeouts close. Datagrams (R386): an authentic one that is next in order is executed in its place and what waited behind it
follows; one that does not authenticate, was executed or is too early is dropped. Operations of a session (R345, R353, R387,
R391, R392): each answers its status; while the package is stopped only management reads and the reset act. The model's own
choices in it are those of notes/assumptions/16, 76, 77, 81, 104. -/
def Obligations.Host : Prop :=
  ((∀ (s : State) (h : Dgram) nonce n, n ∈ List.range' 1 64 → tget s.sessions n = none →
      (∀ m ∈ List.range' 1 64, m < n → (tget s.sessions m).isSome) → dgramTaken h = true → dgramSound h 48 = true → h.session = 0 → h.seq = 0 →
      nonce.length = 48 → s.reports < 2 ^ 20 → s.bootCount < 2 ^ 20 →
      ∃ t bytes, exec (.hello { toDgram := h, nonce := nonce }) s = .next t ∧ t.out = s.out ++ [.host n 0 0x02 (nonce ++ bytes)] ∧
        nonce ++ bytes = reportBytes s.bootCount s.reports nonce ∧ t.reports = s.reports + 1 ∧
        (t.session n).opened = false ∧ (t.session n).startedAt = s.now ∧ (∀ m, m ≠ n → tget t.sessions m = tget s.sessions m)) ∧
    (∀ (s : State) (h : Dgram) x key, tget s.sessions h.session = some x → x.opened = false → key.length = 96 → dgramTaken h = true →
      dgramSound h 96 = true → h.seq = 0 →
      exec (.keyx h key) s = .next (s.onSession h.session fun x => { x with opened := true, lastAt := s.now, hostKey := key })) ∧
    (∀ (s : State) (h : Dgram) nonce key, dgramTaken h = false → exec (.hello { toDgram := h, nonce := nonce }) s = .next s ∧ exec (.keyx h key) s = .next s) ∧
    (∀ (s : State) n x, tget s.sessions n = some x → x.opened = false → x.startedAt + 2100000000 ≤ s.now →
      exec (.handshakeTimeout n) s = .next { s with sessions := tdel s.sessions n }) ∧
    (∀ (s : State) n x, tget s.sessions n = some x → x.opened = true → x.lastAt + 60 * 2100000000 ≤ s.now →
      exec (.sessionIdleTimeout n) s = .next (closeSession s n)) ∧
    (∀ (s : State) n, tget (closeSession s n).sessions n = none)) ∧
  (∀ (s : State) (h : Dgram) x, tget s.sessions h.session = some x → x.opened = true → x.pending = none →
    let does (i : Instr) (op : HostOp) : Prop :=
      (dgramTaken h = true → h.authentic = true → h.seq = x.highest + 1 → x.held = [] → exec i s = .next (drainOps 64
        (runOp (s.onSession h.session fun x => { x with lastAt := s.now, highest := h.seq, held := [] }) h.session h.seq
          (if dgramSound h op.payload then op else .illegal)) h.session)) ∧
      (dgramTaken h = false ∨ h.authentic = false ∨ h.seq ≤ x.highest ∨ x.highest + 64 < h.seq → exec i s = .next s)
    (∀ asid va data, does (.hostWrite h asid va data) (.write asid va data)) ∧
    (∀ asid va len, does (.hostRead h asid va len) (.read asid va len)) ∧
    (∀ dws, dws.length = 16 → does (.hostLaunch h dws) (.launch dws)) ∧
    (∀ dws, dws.length ≠ 16 → does (.hostLaunch h dws) .illegal) ∧
    (∀ r, (∀ a dws, r = .rcb a dws → dws.length = 16) → (∀ c k dws, r = .sibtab c k dws → dws.length = 8) →
      does (.register h r) (.register r)) ∧
    (∀ a dws, dws.length ≠ 16 → does (.register h (.rcb a dws)) .illegal) ∧
    (∀ ctx, does (.controlPreempt h ctx) (.preempt ctx)) ∧ (∀ ctx, does (.controlResume h ctx) (.resume ctx)) ∧
    (∀ m, does (.controlUnfreeze h m) (.unfreeze m)) ∧ (∀ ctx i, does (.controlEpochAdvance h ctx i) (.epoch ctx i)) ∧
    (∀ ctx, does (.controlClearOvf h ctx) (.clearOvf ctx)) ∧ does (.controlReset h) .reset ∧ does (.close h) .close ∧
    does (.protocolIllegal h) .illegal) ∧
  (∀ (s : State) n seq,
    let answered (op : HostOp) (status : Nat) (u : State) (data : List Byte) : Prop :=
      runOp s n seq op = u.tell n 0x20 (leBytes 8 seq ++ leBytes 1 status ++ data)
    let up : Prop := s.power = .up ∧ (s.session n).frozen = false
    (∀ ctx, up → ownsCtx s n ctx = true → answered (.preempt ctx) 0 (s.onCtx ctx fun c => { c with preempted := true }) []) ∧
    (∀ ctx, up → ownsCtx s n ctx = true → (s.ctx ctx).preempted = true →
      answered (.resume ctx) 0 (s.onCtx ctx fun c => { c with preempted := false }) []) ∧
    (∀ ctx, up → ownsCtx s n ctx = false → answered (.preempt ctx) 1 s [] ∧ answered (.resume ctx) 1 s [] ∧ answered (.clearOvf ctx) 1 s []) ∧
    (∀ asid va data, up → ownsAsid s n asid = false → answered (.write asid va data) 1 s []) ∧
    (∀ dws k, up → refusal s dws = some k → answered (.launch dws) 1 s (leBytes 1 k)) ∧
    (∀ dws, up → refusal s dws = none → ownsCtx s n (ctxOf s (packetOf dws).rcb) = true → ownsAsid s n (packetOf dws).asid = true →
      answered (.launch dws) 0 (acceptLaunch (launchAcquire s (packetOf dws)) (packetOf dws) (some n)) (leBytes 4 s.nextLaunch)) ∧
    (∀ ctx slot, up → ownsCtx s n ctx = true → 1 ≤ slot → slot < 256 → slot ∉ s.keysUsed →
      answered (.register (.key ctx slot)) 0 { s with keys := tset s.keys slot n, keysUsed := slot :: s.keysUsed } []) ∧
    (up → answered .reset 1 s []) ∧
    (∀ d, s.power = .stopped d →
      (∀ asid va data, answered (.write asid va data) 1 s []) ∧ (∀ dws, answered (.launch dws) 1 s []) ∧ answered .close 1 s [] ∧
      ((s.session n).frozen = false → runOp s n seq .reset =
        bootPackage (s.tell n 0x20 (leBytes 8 seq ++ leBytes 1 0)))))

/-- A package reset (R389, R391): all work, every session and every key slot are gone and the clocks start at 0; the package
is up with HBM zero, or boot has stopped at a refused image. Power, temperature and uncorrectable errors (R192, R392). The
model's own choices in it are those of notes/assumptions/4, 15, 16, 83. -/
def Obligations.PackageReset : Prop :=
  (∀ (i : Instr) (s : State), i = .powerOn ∨ i = .resetInput →
    ∃ t, exec i s = .next t ∧ ((t.power = .up ∧ t.hbm = [] ∧ t.hbmPoison = []) ∨ t.power = .off) ∧ t.now = 0 ∧ t.cores = [] ∧ t.dies = [] ∧ t.teams = [] ∧
      t.launches = [] ∧ t.cmds = [] ∧ t.leases = [] ∧ t.roots = [] ∧ t.ctxs = [] ∧ t.comms = [] ∧ t.sessions = [] ∧ t.keys = [] ∧
      t.keysUsed = [] ∧ t.bootCount = s.bootCount + 1 ∧ t.host = s.host) ∧
  ((∀ s : State, exec .powerLimit s = .next (if 7500 < (Config.sensor 0 s.now).toNat then { s with skipping := true } else s)) ∧
    (∀ s : State, exec .powerFallsBelowLimit s =
      .next (if (Config.sensor 0 s.now).toNat < 7500 then { s with skipping := false } else s)) ∧
    (∀ (s : State) die, die < 10 → s.power = .up → (∀ e ∈ s.sessions, e.2.pending = none) → ∃ t, exec (.thermalStop die) s = .next t ∧
      t.power = (if 840 ≤ (Config.sensor (1 + die) s.now).toNat then .stopped die else .up) ∧ t.cores = s.cores ∧ t.hbm = s.hbm) ∧
    (∀ (s : State) line, ∃ t, exec (.uncorrectableError (.hbm line)) s = .next t ∧ line ∈ t.hbmPoison ∧
      t.eccUncorrectable = s.eccUncorrectable + 1 ∧ t.hbm = s.hbm) ∧
    (∀ (s : State) team line, s.live team = true → line < (teamPkt s team).scratch / 128 →
      ∃ t, exec (.uncorrectableError (.scratch team line)) s = .next t ∧ line ∈ (t.team team).scratchPoison))

/-- What the state after reset holds (R14, R164, R181, R391): no team, context or session, HBM all zero, every core with ways
0 to 7 in its pool and its LFSR seeded with its number plus one. The model's own choices in it are those of
notes/assumptions/1, 2, 4. -/
def Obligations.ResetState : Prop :=
  State.reset.now = 0 ∧ State.reset.hbm = [] ∧ State.reset.teams = [] ∧ State.reset.launches = [] ∧ State.reset.sessions = [] ∧
  State.reset.keys = [] ∧ (∀ a, memRead State.reset.hbm a = 0) ∧ Memory.wf State.reset.hbm = true ∧ Memory.wf State.reset.host = true ∧
  ∀ c < 640, (State.reset.core c).poolWays = List.range 8 ∧ (State.reset.core c).lfsr = BitVec.ofNat 16 (c + 1) ∧
    (State.reset.core c).waves = [] ∧ (State.reset.core c).lfsr ≠ 0

/-! ## The whole machine -/

/-- A step runs the word that the issuing group stands at (R15, R16, R165): when the quadrant of a core picks an entry whose
word decodes to `i`, the step is `i` for that entry's group, with the entry's credit charged after it. The word of a group
(R15, R16): the instruction that the decoder reads at its PC inside a clause, a header outside one. A step runs the word at a
carrel's pc (R312, R323). A step performs the event that stands next, while what acts is not stopped (R391, R392), and a store
of the host (R207). What would come out of the order that one cycle has waits (R317, R341). The model's own choices in it are
those of notes/assumptions/6, 7, 106, 111, 127. -/
def Obligations.StepRunsWord : Prop :=
  let begun (s : State) (rest : List Sched) (dt : Nat) : State :=
    { elapse { s with agenda := rest, misordered := false } dt with misordered := false }
  let inPlace (now t : State) : State := if t.misordered then now else t
  (∀ (s : State) core q dt rest, s.agenda = { dt := dt, act := .quad core q } :: rest →
    let now := begun s rest dt
    core < 640 → q < 4 → now.power = .up → (∀ k < 4, q ≤ k → tgetD (now.core core).issued k 0 ≠ now.now / 2 + 1) → now.now % 2 = 0 → now.skipping = false →
    ∀ ent v i w, pickEntry (settled now core q) core q = (some ent, v) →
    let others := (entriesOf v core q).filter fun x => x.ready && x.key != ent.key
    let g := curOf v core ent
    let t := setGroup v g g.refs
    wordAt t g = some (.ok i, w) →
    step s = (match exec i { t with cur := some { g with word := w } } with
      | .next t => .next (inPlace now (charge i t core q ent others))
      | .fault r => .fault r
      | .refused r => .refused r)) ∧
  (∀ (s : State) (g : Cur) w,
    let t := g.team s
    let l := s.lane g.core (g.refs.headD ⟨g.slot, 0⟩)
    let base := (codeRange s t l.mon).1
    let len := (codeRange s t l.mon).2
    base ≤ l.pc.toNat → l.pc.toNat + 12 ≤ base + len → codeWord s (dieOf g.core) (teamAsid s t) l.pc.toNat = some w →
    (l.clause = none → ∀ h, decodeHeader w = .ok h → wordAt s g = some (.ok (.clause h), w)) ∧
    (l.clause = none → ∀ e, decodeHeader w = .error e →
      wordAt s g = some (.error (if l.atEntry = true ∧ w.extractLsb' 0 8 ≠ 0 then 2 else 1), w)) ∧
    (l.clause ≠ none → ∀ i, decodeWord w = .ok i → wordAt s g = some (.ok i, w)) ∧
    (l.clause ≠ none → ∀ e, decodeWord w = .error e → wordAt s g = some (.error 1, w))) ∧
  (∀ (s u : State) die c dt rest w z i,
    s.agenda = { dt := dt, act := .carrel die c } :: rest →
    let now := begun s rest dt
    now.power = .up → (now.carrel die c).runs = true → hartFetch now die c = .word w z u → decodeCarrel w = .ok i →
    step s = (match exec i { u with curCarrel := some (die, c) } with
      | .next t => .next (inPlace now { t with curCarrel := none })
      | .fault r => .fault r
      | .refused r => .refused r)) ∧
  (∀ (s : State) i dt rest,
    s.agenda = { dt := dt, act := .event i } :: rest → encode i = none →
    let now := begun s rest dt
    (actsIn now.power i = true → step s = (match exec i now with
      | .next t => .next (inPlace now t)
      | .fault r => .fault r
      | .refused r => .refused r)) ∧
    (actsIn now.power i = false → step s = .next now)) ∧
  (∀ (s : State) addr bs dt rest, s.agenda = { dt := dt, act := .hostStore addr bs } :: rest →
    let now := begun s rest dt
    step s = .next { now with host := memWrites now.host addr bs })

/-- Some words and the instructions that they are: the encodings that the spec writes out (R54, R57 to R60, R68, R323). -/
def Obligations.DecodedWords : Prop :=
  let form (d a b : Opnd) (c : COp) (mod : BitVec 9) : Form :=
    { guard := 7, d := d, a := a, b := b, c := c, mod := mod, fset := 0, pace := 0, defer := false }
  let none_ : COp := .reg .nul 0
  decodeHeader 0x0000000000000002F2001000 = .ok { wait := 1, flagA := 2, flagB := 15, len := 2 } ∧
  decodeWord 0x040100000040E00202004772 = .ok (.ldl32 { form (.v 4) (.s 2) .nul (.imm 0x40) 0 with fset := 1 }) ∧
  decodeWord 0x000000000E00C01004005710 = .ok (.iadd (form (.v 5) (.v 4) (.imm 1) none_ 0)) ∧
  decodeWord 0x0001000186A0E00005006910 = .ok (.iadd { form (.v 6) (.v 5) .nul (.imm 100000) 0 with guard := 9 }) ∧
  decodeWord 0x000100000090E00E00E00704 = .ok (.call (form .nul .nul .nul (.imm 0x90) 0)) ∧
  decodeWord 0x001200000003002001004793 = .ok (.ffma (form (.v 4) (.v 1) (.v 2) (.reg (.v 3) 0) 9)) ∧
  decodeWord 0x000400000601C01002003751 = .ok (.shflx (form (.v 3) (.v 2) (.imm 1) (.reg (.p 1) 0) 2)) ∧
  decodeWord 0x040000000004003001005787 = .ok (.atlcas { form (.v 5) (.v 1) (.v 3) (.reg (.v 4) 0) 0 with fset := 1 }) ∧
  decodeWord 0x000300000000C80E0020B7B0 = .ok (.cpost (form (.s 11) .nul (.imm 0x80) (.imm 0) 1)) ∧
  decodeWord 0x004200000E00C00206E007C5 = .ok (.mstream (form .nul (.s 6) (.imm 0) none_ 0x21)) ∧
  decodeWord 0x004C00000E00E00E00E00766 = .ok (.fence (form .nul .nul .nul none_ 0x26)) ∧
  decodeWord 0x000000000E000100082047D0 = .ok (.vvcmp (form (.s 4) (.v 8) (.v 16) none_ 0)) ∧
  decodeWord 0x000200000E00205A026017E4 = .ok (.mbxbind (form (.p 1) (.q 2 false 0) (.s 5) none_ 1)) ∧
  decodeWord 0x000000000E00E00E00E0070E = .ok (.eret (form .nul .nul .nul none_ 0)) ∧
  decodeWord 0x040000000E00E00A070077BD = .ok (.qpop { form (.v 7) (.q 7 false 0) .nul none_ 0 with fset := 1 }) ∧
  decodeWord 0x000400000E00E00C022037E6 = .ok (.grprd (form (.s 3) (.imm 2) .nul none_ 2)) ∧
  decodeCarrel 0x0205850B = .ok (.mbxPop 10 11 0) ∧ decodeCarrel 0x0605800B = .ok (.stepDone 11)

/-- Decoding and encoding agree (R54 to R57, R68, R323): every well-formed instruction that has a word is what the decoder reads
from it. -/
def Obligations.DecodeOfEncode : Prop :=
  (∀ h : Header, h.ok = true → decodeHeader (encodeHeader h) = .ok h) ∧
  (∀ (i : Instr) opc f, i.wellFormed = true → (∀ h, i ≠ .clause h) → i.word? = some (opc, f) → decodeWord (encodeForm opc f) = .ok i) ∧
  (∀ (i : Instr) w, i.wellFormed = true → i.word? = none → (∀ h, i ≠ .clause h) → encode i = some w →
    decodeCarrel (w.extractLsb' 0 32) = .ok i)

/-- A machine that answers (R23): a step answers a next state, or stops because a group's code does not translate. The model's
own choices in it are those of notes/assumptions/6, 9, 10. -/
def Obligations.Progress : Prop := ∀ s : State, (∃ t, step s = .next t) ∨ step s = .fault .codeNotPinned

/-- Every step keeps HBM and host memory in canonical form: addresses rise, and no byte listed is zero. The model's own
choices in it are those of notes/assumptions/3. -/
def Obligations.MemoriesCanonical : Prop :=
  let good (s : State) : Prop := Memory.wf s.hbm = true ∧ Memory.wf s.host = true
  ∀ s t, good s → step s = .next t → good t
end

