-- ==== Sys2Proof/Laws/State.lean ====
section
/-! SUPPORT. One lemma per field per update of the state: an update of a part leaves every other field as it was. -/

namespace Sys2Proof.Laws

open Sys2Proof.Machine

/-! ## onCore -/

@[simp] theorem onCore_power (s : State) (c : Nat) (f : Core → Core) : (s.onCore c f).power = s.power := rfl
@[simp] theorem onCore_now (s : State) (c : Nat) (f : Core → Core) : (s.onCore c f).now = s.now := rfl
@[simp] theorem onCore_tick (s : State) (c : Nat) (f : Core → Core) : (s.onCore c f).tick = s.tick := rfl
@[simp] theorem onCore_agenda (s : State) (c : Nat) (f : Core → Core) : (s.onCore c f).agenda = s.agenda := rfl
@[simp] theorem onCore_order (s : State) (c : Nat) (f : Core → Core) : (s.onCore c f).order = s.order := rfl
@[simp] theorem onCore_misordered (s : State) (c : Nat) (f : Core → Core) : (s.onCore c f).misordered = s.misordered := rfl
@[simp] theorem onCore_cur (s : State) (c : Nat) (f : Core → Core) : (s.onCore c f).cur = s.cur := rfl
@[simp] theorem onCore_curCarrel (s : State) (c : Nat) (f : Core → Core) : (s.onCore c f).curCarrel = s.curCarrel := rfl
@[simp] theorem onCore_pkgNum (s : State) (c : Nat) (f : Core → Core) : (s.onCore c f).pkgNum = s.pkgNum := rfl
@[simp] theorem onCore_linksUp (s : State) (c : Nat) (f : Core → Core) : (s.onCore c f).linksUp = s.linksUp := rfl
@[simp] theorem onCore_carrelsHeld (s : State) (c : Nat) (f : Core → Core) : (s.onCore c f).carrelsHeld = s.carrelsHeld := rfl
@[simp] theorem onCore_sequencersHeld (s : State) (c : Nat) (f : Core → Core) : (s.onCore c f).sequencersHeld = s.sequencersHeld := rfl
@[simp] theorem onCore_hbm (s : State) (c : Nat) (f : Core → Core) : (s.onCore c f).hbm = s.hbm := rfl
@[simp] theorem onCore_hbmPoison (s : State) (c : Nat) (f : Core → Core) : (s.onCore c f).hbmPoison = s.hbmPoison := rfl
@[simp] theorem onCore_l2Dirty (s : State) (c : Nat) (f : Core → Core) : (s.onCore c f).l2Dirty = s.l2Dirty := rfl
@[simp] theorem onCore_host (s : State) (c : Nat) (f : Core → Core) : (s.onCore c f).host = s.host := rfl
@[simp] theorem onCore_dies (s : State) (c : Nat) (f : Core → Core) : (s.onCore c f).dies = s.dies := rfl
@[simp] theorem onCore_launches (s : State) (c : Nat) (f : Core → Core) : (s.onCore c f).launches = s.launches := rfl
@[simp] theorem onCore_nextLaunch (s : State) (c : Nat) (f : Core → Core) : (s.onCore c f).nextLaunch = s.nextLaunch := rfl
@[simp] theorem onCore_teams (s : State) (c : Nat) (f : Core → Core) : (s.onCore c f).teams = s.teams := rfl
@[simp] theorem onCore_nextTeam (s : State) (c : Nat) (f : Core → Core) : (s.onCore c f).nextTeam = s.nextTeam := rfl
@[simp] theorem onCore_admitSeq (s : State) (c : Nat) (f : Core → Core) : (s.onCore c f).admitSeq = s.admitSeq := rfl
@[simp] theorem onCore_cmds (s : State) (c : Nat) (f : Core → Core) : (s.onCore c f).cmds = s.cmds := rfl
@[simp] theorem onCore_nextCmd (s : State) (c : Nat) (f : Core → Core) : (s.onCore c f).nextCmd = s.nextCmd := rfl
@[simp] theorem onCore_savedHolds (s : State) (c : Nat) (f : Core → Core) : (s.onCore c f).savedHolds = s.savedHolds := rfl
@[simp] theorem onCore_savedColls (s : State) (c : Nat) (f : Core → Core) : (s.onCore c f).savedColls = s.savedColls := rfl
@[simp] theorem onCore_leases (s : State) (c : Nat) (f : Core → Core) : (s.onCore c f).leases = s.leases := rfl
@[simp] theorem onCore_roots (s : State) (c : Nat) (f : Core → Core) : (s.onCore c f).roots = s.roots := rfl
@[simp] theorem onCore_ctxs (s : State) (c : Nat) (f : Core → Core) : (s.onCore c f).ctxs = s.ctxs := rfl
@[simp] theorem onCore_buckets (s : State) (c : Nat) (f : Core → Core) : (s.onCore c f).buckets = s.buckets := rfl
@[simp] theorem onCore_keys (s : State) (c : Nat) (f : Core → Core) : (s.onCore c f).keys = s.keys := rfl
@[simp] theorem onCore_keysUsed (s : State) (c : Nat) (f : Core → Core) : (s.onCore c f).keysUsed = s.keysUsed := rfl
@[simp] theorem onCore_frameKeys (s : State) (c : Nat) (f : Core → Core) : (s.onCore c f).frameKeys = s.frameKeys := rfl
@[simp] theorem onCore_nodes (s : State) (c : Nat) (f : Core → Core) : (s.onCore c f).nodes = s.nodes := rfl
@[simp] theorem onCore_comms (s : State) (c : Nat) (f : Core → Core) : (s.onCore c f).comms = s.comms := rfl
@[simp] theorem onCore_ports (s : State) (c : Nat) (f : Core → Core) : (s.onCore c f).ports = s.ports := rfl
@[simp] theorem onCore_peerOut (s : State) (c : Nat) (f : Core → Core) : (s.onCore c f).peerOut = s.peerOut := rfl
@[simp] theorem onCore_notices (s : State) (c : Nat) (f : Core → Core) : (s.onCore c f).notices = s.notices := rfl
@[simp] theorem onCore_peerVecs (s : State) (c : Nat) (f : Core → Core) : (s.onCore c f).peerVecs = s.peerVecs := rfl
@[simp] theorem onCore_out (s : State) (c : Nat) (f : Core → Core) : (s.onCore c f).out = s.out := rfl
@[simp] theorem onCore_sessions (s : State) (c : Nat) (f : Core → Core) : (s.onCore c f).sessions = s.sessions := rfl
@[simp] theorem onCore_bootCount (s : State) (c : Nat) (f : Core → Core) : (s.onCore c f).bootCount = s.bootCount := rfl
@[simp] theorem onCore_reports (s : State) (c : Nat) (f : Core → Core) : (s.onCore c f).reports = s.reports := rfl
@[simp] theorem onCore_eccUncorrectable (s : State) (c : Nat) (f : Core → Core) : (s.onCore c f).eccUncorrectable = s.eccUncorrectable := rfl
@[simp] theorem onCore_eccCorrected (s : State) (c : Nat) (f : Core → Core) : (s.onCore c f).eccCorrected = s.eccCorrected := rfl
@[simp] theorem onCore_skipped (s : State) (c : Nat) (f : Core → Core) : (s.onCore c f).skipped = s.skipped := rfl
@[simp] theorem onCore_skipping (s : State) (c : Nat) (f : Core → Core) : (s.onCore c f).skipping = s.skipping := rfl

/-! ## setCore -/

@[simp] theorem setCore_power (s : State) (c : Nat) (x : Core) : (s.setCore c x).power = s.power := rfl
@[simp] theorem setCore_now (s : State) (c : Nat) (x : Core) : (s.setCore c x).now = s.now := rfl
@[simp] theorem setCore_tick (s : State) (c : Nat) (x : Core) : (s.setCore c x).tick = s.tick := rfl
@[simp] theorem setCore_agenda (s : State) (c : Nat) (x : Core) : (s.setCore c x).agenda = s.agenda := rfl
@[simp] theorem setCore_order (s : State) (c : Nat) (x : Core) : (s.setCore c x).order = s.order := rfl
@[simp] theorem setCore_misordered (s : State) (c : Nat) (x : Core) : (s.setCore c x).misordered = s.misordered := rfl
@[simp] theorem setCore_cur (s : State) (c : Nat) (x : Core) : (s.setCore c x).cur = s.cur := rfl
@[simp] theorem setCore_curCarrel (s : State) (c : Nat) (x : Core) : (s.setCore c x).curCarrel = s.curCarrel := rfl
@[simp] theorem setCore_pkgNum (s : State) (c : Nat) (x : Core) : (s.setCore c x).pkgNum = s.pkgNum := rfl
@[simp] theorem setCore_linksUp (s : State) (c : Nat) (x : Core) : (s.setCore c x).linksUp = s.linksUp := rfl
@[simp] theorem setCore_carrelsHeld (s : State) (c : Nat) (x : Core) : (s.setCore c x).carrelsHeld = s.carrelsHeld := rfl
@[simp] theorem setCore_sequencersHeld (s : State) (c : Nat) (x : Core) : (s.setCore c x).sequencersHeld = s.sequencersHeld := rfl
@[simp] theorem setCore_hbm (s : State) (c : Nat) (x : Core) : (s.setCore c x).hbm = s.hbm := rfl
@[simp] theorem setCore_hbmPoison (s : State) (c : Nat) (x : Core) : (s.setCore c x).hbmPoison = s.hbmPoison := rfl
@[simp] theorem setCore_l2Dirty (s : State) (c : Nat) (x : Core) : (s.setCore c x).l2Dirty = s.l2Dirty := rfl
@[simp] theorem setCore_host (s : State) (c : Nat) (x : Core) : (s.setCore c x).host = s.host := rfl
@[simp] theorem setCore_dies (s : State) (c : Nat) (x : Core) : (s.setCore c x).dies = s.dies := rfl
@[simp] theorem setCore_launches (s : State) (c : Nat) (x : Core) : (s.setCore c x).launches = s.launches := rfl
@[simp] theorem setCore_nextLaunch (s : State) (c : Nat) (x : Core) : (s.setCore c x).nextLaunch = s.nextLaunch := rfl
@[simp] theorem setCore_teams (s : State) (c : Nat) (x : Core) : (s.setCore c x).teams = s.teams := rfl
@[simp] theorem setCore_nextTeam (s : State) (c : Nat) (x : Core) : (s.setCore c x).nextTeam = s.nextTeam := rfl
@[simp] theorem setCore_admitSeq (s : State) (c : Nat) (x : Core) : (s.setCore c x).admitSeq = s.admitSeq := rfl
@[simp] theorem setCore_cmds (s : State) (c : Nat) (x : Core) : (s.setCore c x).cmds = s.cmds := rfl
@[simp] theorem setCore_nextCmd (s : State) (c : Nat) (x : Core) : (s.setCore c x).nextCmd = s.nextCmd := rfl
@[simp] theorem setCore_savedHolds (s : State) (c : Nat) (x : Core) : (s.setCore c x).savedHolds = s.savedHolds := rfl
@[simp] theorem setCore_savedColls (s : State) (c : Nat) (x : Core) : (s.setCore c x).savedColls = s.savedColls := rfl
@[simp] theorem setCore_leases (s : State) (c : Nat) (x : Core) : (s.setCore c x).leases = s.leases := rfl
@[simp] theorem setCore_roots (s : State) (c : Nat) (x : Core) : (s.setCore c x).roots = s.roots := rfl
@[simp] theorem setCore_ctxs (s : State) (c : Nat) (x : Core) : (s.setCore c x).ctxs = s.ctxs := rfl
@[simp] theorem setCore_buckets (s : State) (c : Nat) (x : Core) : (s.setCore c x).buckets = s.buckets := rfl
@[simp] theorem setCore_keys (s : State) (c : Nat) (x : Core) : (s.setCore c x).keys = s.keys := rfl
@[simp] theorem setCore_keysUsed (s : State) (c : Nat) (x : Core) : (s.setCore c x).keysUsed = s.keysUsed := rfl
@[simp] theorem setCore_frameKeys (s : State) (c : Nat) (x : Core) : (s.setCore c x).frameKeys = s.frameKeys := rfl
@[simp] theorem setCore_nodes (s : State) (c : Nat) (x : Core) : (s.setCore c x).nodes = s.nodes := rfl
@[simp] theorem setCore_comms (s : State) (c : Nat) (x : Core) : (s.setCore c x).comms = s.comms := rfl
@[simp] theorem setCore_ports (s : State) (c : Nat) (x : Core) : (s.setCore c x).ports = s.ports := rfl
@[simp] theorem setCore_peerOut (s : State) (c : Nat) (x : Core) : (s.setCore c x).peerOut = s.peerOut := rfl
@[simp] theorem setCore_notices (s : State) (c : Nat) (x : Core) : (s.setCore c x).notices = s.notices := rfl
@[simp] theorem setCore_peerVecs (s : State) (c : Nat) (x : Core) : (s.setCore c x).peerVecs = s.peerVecs := rfl
@[simp] theorem setCore_out (s : State) (c : Nat) (x : Core) : (s.setCore c x).out = s.out := rfl
@[simp] theorem setCore_sessions (s : State) (c : Nat) (x : Core) : (s.setCore c x).sessions = s.sessions := rfl
@[simp] theorem setCore_bootCount (s : State) (c : Nat) (x : Core) : (s.setCore c x).bootCount = s.bootCount := rfl
@[simp] theorem setCore_reports (s : State) (c : Nat) (x : Core) : (s.setCore c x).reports = s.reports := rfl
@[simp] theorem setCore_eccUncorrectable (s : State) (c : Nat) (x : Core) : (s.setCore c x).eccUncorrectable = s.eccUncorrectable := rfl
@[simp] theorem setCore_eccCorrected (s : State) (c : Nat) (x : Core) : (s.setCore c x).eccCorrected = s.eccCorrected := rfl
@[simp] theorem setCore_skipped (s : State) (c : Nat) (x : Core) : (s.setCore c x).skipped = s.skipped := rfl
@[simp] theorem setCore_skipping (s : State) (c : Nat) (x : Core) : (s.setCore c x).skipping = s.skipping := rfl

/-! ## onWave -/

@[simp] theorem onWave_power (s : State) (c k : Nat) (f : Wave → Wave) : (s.onWave c k f).power = s.power := rfl
@[simp] theorem onWave_now (s : State) (c k : Nat) (f : Wave → Wave) : (s.onWave c k f).now = s.now := rfl
@[simp] theorem onWave_tick (s : State) (c k : Nat) (f : Wave → Wave) : (s.onWave c k f).tick = s.tick := rfl
@[simp] theorem onWave_agenda (s : State) (c k : Nat) (f : Wave → Wave) : (s.onWave c k f).agenda = s.agenda := rfl
@[simp] theorem onWave_order (s : State) (c k : Nat) (f : Wave → Wave) : (s.onWave c k f).order = s.order := rfl
@[simp] theorem onWave_misordered (s : State) (c k : Nat) (f : Wave → Wave) : (s.onWave c k f).misordered = s.misordered := rfl
@[simp] theorem onWave_cur (s : State) (c k : Nat) (f : Wave → Wave) : (s.onWave c k f).cur = s.cur := rfl
@[simp] theorem onWave_curCarrel (s : State) (c k : Nat) (f : Wave → Wave) : (s.onWave c k f).curCarrel = s.curCarrel := rfl
@[simp] theorem onWave_pkgNum (s : State) (c k : Nat) (f : Wave → Wave) : (s.onWave c k f).pkgNum = s.pkgNum := rfl
@[simp] theorem onWave_linksUp (s : State) (c k : Nat) (f : Wave → Wave) : (s.onWave c k f).linksUp = s.linksUp := rfl
@[simp] theorem onWave_carrelsHeld (s : State) (c k : Nat) (f : Wave → Wave) : (s.onWave c k f).carrelsHeld = s.carrelsHeld := rfl
@[simp] theorem onWave_sequencersHeld (s : State) (c k : Nat) (f : Wave → Wave) : (s.onWave c k f).sequencersHeld = s.sequencersHeld := rfl
@[simp] theorem onWave_hbm (s : State) (c k : Nat) (f : Wave → Wave) : (s.onWave c k f).hbm = s.hbm := rfl
@[simp] theorem onWave_hbmPoison (s : State) (c k : Nat) (f : Wave → Wave) : (s.onWave c k f).hbmPoison = s.hbmPoison := rfl
@[simp] theorem onWave_l2Dirty (s : State) (c k : Nat) (f : Wave → Wave) : (s.onWave c k f).l2Dirty = s.l2Dirty := rfl
@[simp] theorem onWave_host (s : State) (c k : Nat) (f : Wave → Wave) : (s.onWave c k f).host = s.host := rfl
@[simp] theorem onWave_dies (s : State) (c k : Nat) (f : Wave → Wave) : (s.onWave c k f).dies = s.dies := rfl
@[simp] theorem onWave_launches (s : State) (c k : Nat) (f : Wave → Wave) : (s.onWave c k f).launches = s.launches := rfl
@[simp] theorem onWave_nextLaunch (s : State) (c k : Nat) (f : Wave → Wave) : (s.onWave c k f).nextLaunch = s.nextLaunch := rfl
@[simp] theorem onWave_teams (s : State) (c k : Nat) (f : Wave → Wave) : (s.onWave c k f).teams = s.teams := rfl
@[simp] theorem onWave_nextTeam (s : State) (c k : Nat) (f : Wave → Wave) : (s.onWave c k f).nextTeam = s.nextTeam := rfl
@[simp] theorem onWave_admitSeq (s : State) (c k : Nat) (f : Wave → Wave) : (s.onWave c k f).admitSeq = s.admitSeq := rfl
@[simp] theorem onWave_cmds (s : State) (c k : Nat) (f : Wave → Wave) : (s.onWave c k f).cmds = s.cmds := rfl
@[simp] theorem onWave_nextCmd (s : State) (c k : Nat) (f : Wave → Wave) : (s.onWave c k f).nextCmd = s.nextCmd := rfl
@[simp] theorem onWave_savedHolds (s : State) (c k : Nat) (f : Wave → Wave) : (s.onWave c k f).savedHolds = s.savedHolds := rfl
@[simp] theorem onWave_savedColls (s : State) (c k : Nat) (f : Wave → Wave) : (s.onWave c k f).savedColls = s.savedColls := rfl
@[simp] theorem onWave_leases (s : State) (c k : Nat) (f : Wave → Wave) : (s.onWave c k f).leases = s.leases := rfl
@[simp] theorem onWave_roots (s : State) (c k : Nat) (f : Wave → Wave) : (s.onWave c k f).roots = s.roots := rfl
@[simp] theorem onWave_ctxs (s : State) (c k : Nat) (f : Wave → Wave) : (s.onWave c k f).ctxs = s.ctxs := rfl
@[simp] theorem onWave_buckets (s : State) (c k : Nat) (f : Wave → Wave) : (s.onWave c k f).buckets = s.buckets := rfl
@[simp] theorem onWave_keys (s : State) (c k : Nat) (f : Wave → Wave) : (s.onWave c k f).keys = s.keys := rfl
@[simp] theorem onWave_keysUsed (s : State) (c k : Nat) (f : Wave → Wave) : (s.onWave c k f).keysUsed = s.keysUsed := rfl
@[simp] theorem onWave_frameKeys (s : State) (c k : Nat) (f : Wave → Wave) : (s.onWave c k f).frameKeys = s.frameKeys := rfl
@[simp] theorem onWave_nodes (s : State) (c k : Nat) (f : Wave → Wave) : (s.onWave c k f).nodes = s.nodes := rfl
@[simp] theorem onWave_comms (s : State) (c k : Nat) (f : Wave → Wave) : (s.onWave c k f).comms = s.comms := rfl
@[simp] theorem onWave_ports (s : State) (c k : Nat) (f : Wave → Wave) : (s.onWave c k f).ports = s.ports := rfl
@[simp] theorem onWave_peerOut (s : State) (c k : Nat) (f : Wave → Wave) : (s.onWave c k f).peerOut = s.peerOut := rfl
@[simp] theorem onWave_notices (s : State) (c k : Nat) (f : Wave → Wave) : (s.onWave c k f).notices = s.notices := rfl
@[simp] theorem onWave_peerVecs (s : State) (c k : Nat) (f : Wave → Wave) : (s.onWave c k f).peerVecs = s.peerVecs := rfl
@[simp] theorem onWave_out (s : State) (c k : Nat) (f : Wave → Wave) : (s.onWave c k f).out = s.out := rfl
@[simp] theorem onWave_sessions (s : State) (c k : Nat) (f : Wave → Wave) : (s.onWave c k f).sessions = s.sessions := rfl
@[simp] theorem onWave_bootCount (s : State) (c k : Nat) (f : Wave → Wave) : (s.onWave c k f).bootCount = s.bootCount := rfl
@[simp] theorem onWave_reports (s : State) (c k : Nat) (f : Wave → Wave) : (s.onWave c k f).reports = s.reports := rfl
@[simp] theorem onWave_eccUncorrectable (s : State) (c k : Nat) (f : Wave → Wave) : (s.onWave c k f).eccUncorrectable = s.eccUncorrectable := rfl
@[simp] theorem onWave_eccCorrected (s : State) (c k : Nat) (f : Wave → Wave) : (s.onWave c k f).eccCorrected = s.eccCorrected := rfl
@[simp] theorem onWave_skipped (s : State) (c k : Nat) (f : Wave → Wave) : (s.onWave c k f).skipped = s.skipped := rfl
@[simp] theorem onWave_skipping (s : State) (c k : Nat) (f : Wave → Wave) : (s.onWave c k f).skipping = s.skipping := rfl

/-! ## onLane -/

@[simp] theorem onLane_power (s : State) (c : Nat) (r : LaneRef) (f : Lane → Lane) : (s.onLane c r f).power = s.power := rfl
@[simp] theorem onLane_now (s : State) (c : Nat) (r : LaneRef) (f : Lane → Lane) : (s.onLane c r f).now = s.now := rfl
@[simp] theorem onLane_tick (s : State) (c : Nat) (r : LaneRef) (f : Lane → Lane) : (s.onLane c r f).tick = s.tick := rfl
@[simp] theorem onLane_agenda (s : State) (c : Nat) (r : LaneRef) (f : Lane → Lane) : (s.onLane c r f).agenda = s.agenda := rfl
@[simp] theorem onLane_order (s : State) (c : Nat) (r : LaneRef) (f : Lane → Lane) : (s.onLane c r f).order = s.order := rfl
@[simp] theorem onLane_misordered (s : State) (c : Nat) (r : LaneRef) (f : Lane → Lane) : (s.onLane c r f).misordered = s.misordered := rfl
@[simp] theorem onLane_cur (s : State) (c : Nat) (r : LaneRef) (f : Lane → Lane) : (s.onLane c r f).cur = s.cur := rfl
@[simp] theorem onLane_curCarrel (s : State) (c : Nat) (r : LaneRef) (f : Lane → Lane) : (s.onLane c r f).curCarrel = s.curCarrel := rfl
@[simp] theorem onLane_pkgNum (s : State) (c : Nat) (r : LaneRef) (f : Lane → Lane) : (s.onLane c r f).pkgNum = s.pkgNum := rfl
@[simp] theorem onLane_linksUp (s : State) (c : Nat) (r : LaneRef) (f : Lane → Lane) : (s.onLane c r f).linksUp = s.linksUp := rfl
@[simp] theorem onLane_carrelsHeld (s : State) (c : Nat) (r : LaneRef) (f : Lane → Lane) : (s.onLane c r f).carrelsHeld = s.carrelsHeld := rfl
@[simp] theorem onLane_sequencersHeld (s : State) (c : Nat) (r : LaneRef) (f : Lane → Lane) : (s.onLane c r f).sequencersHeld = s.sequencersHeld := rfl
@[simp] theorem onLane_hbm (s : State) (c : Nat) (r : LaneRef) (f : Lane → Lane) : (s.onLane c r f).hbm = s.hbm := rfl
@[simp] theorem onLane_hbmPoison (s : State) (c : Nat) (r : LaneRef) (f : Lane → Lane) : (s.onLane c r f).hbmPoison = s.hbmPoison := rfl
@[simp] theorem onLane_l2Dirty (s : State) (c : Nat) (r : LaneRef) (f : Lane → Lane) : (s.onLane c r f).l2Dirty = s.l2Dirty := rfl
@[simp] theorem onLane_host (s : State) (c : Nat) (r : LaneRef) (f : Lane → Lane) : (s.onLane c r f).host = s.host := rfl
@[simp] theorem onLane_dies (s : State) (c : Nat) (r : LaneRef) (f : Lane → Lane) : (s.onLane c r f).dies = s.dies := rfl
@[simp] theorem onLane_launches (s : State) (c : Nat) (r : LaneRef) (f : Lane → Lane) : (s.onLane c r f).launches = s.launches := rfl
@[simp] theorem onLane_nextLaunch (s : State) (c : Nat) (r : LaneRef) (f : Lane → Lane) : (s.onLane c r f).nextLaunch = s.nextLaunch := rfl
@[simp] theorem onLane_teams (s : State) (c : Nat) (r : LaneRef) (f : Lane → Lane) : (s.onLane c r f).teams = s.teams := rfl
@[simp] theorem onLane_nextTeam (s : State) (c : Nat) (r : LaneRef) (f : Lane → Lane) : (s.onLane c r f).nextTeam = s.nextTeam := rfl
@[simp] theorem onLane_admitSeq (s : State) (c : Nat) (r : LaneRef) (f : Lane → Lane) : (s.onLane c r f).admitSeq = s.admitSeq := rfl
@[simp] theorem onLane_cmds (s : State) (c : Nat) (r : LaneRef) (f : Lane → Lane) : (s.onLane c r f).cmds = s.cmds := rfl
@[simp] theorem onLane_nextCmd (s : State) (c : Nat) (r : LaneRef) (f : Lane → Lane) : (s.onLane c r f).nextCmd = s.nextCmd := rfl
@[simp] theorem onLane_savedHolds (s : State) (c : Nat) (r : LaneRef) (f : Lane → Lane) : (s.onLane c r f).savedHolds = s.savedHolds := rfl
@[simp] theorem onLane_savedColls (s : State) (c : Nat) (r : LaneRef) (f : Lane → Lane) : (s.onLane c r f).savedColls = s.savedColls := rfl
@[simp] theorem onLane_leases (s : State) (c : Nat) (r : LaneRef) (f : Lane → Lane) : (s.onLane c r f).leases = s.leases := rfl
@[simp] theorem onLane_roots (s : State) (c : Nat) (r : LaneRef) (f : Lane → Lane) : (s.onLane c r f).roots = s.roots := rfl
@[simp] theorem onLane_ctxs (s : State) (c : Nat) (r : LaneRef) (f : Lane → Lane) : (s.onLane c r f).ctxs = s.ctxs := rfl
@[simp] theorem onLane_buckets (s : State) (c : Nat) (r : LaneRef) (f : Lane → Lane) : (s.onLane c r f).buckets = s.buckets := rfl
@[simp] theorem onLane_keys (s : State) (c : Nat) (r : LaneRef) (f : Lane → Lane) : (s.onLane c r f).keys = s.keys := rfl
@[simp] theorem onLane_keysUsed (s : State) (c : Nat) (r : LaneRef) (f : Lane → Lane) : (s.onLane c r f).keysUsed = s.keysUsed := rfl
@[simp] theorem onLane_frameKeys (s : State) (c : Nat) (r : LaneRef) (f : Lane → Lane) : (s.onLane c r f).frameKeys = s.frameKeys := rfl
@[simp] theorem onLane_nodes (s : State) (c : Nat) (r : LaneRef) (f : Lane → Lane) : (s.onLane c r f).nodes = s.nodes := rfl
@[simp] theorem onLane_comms (s : State) (c : Nat) (r : LaneRef) (f : Lane → Lane) : (s.onLane c r f).comms = s.comms := rfl
@[simp] theorem onLane_ports (s : State) (c : Nat) (r : LaneRef) (f : Lane → Lane) : (s.onLane c r f).ports = s.ports := rfl
@[simp] theorem onLane_peerOut (s : State) (c : Nat) (r : LaneRef) (f : Lane → Lane) : (s.onLane c r f).peerOut = s.peerOut := rfl
@[simp] theorem onLane_notices (s : State) (c : Nat) (r : LaneRef) (f : Lane → Lane) : (s.onLane c r f).notices = s.notices := rfl
@[simp] theorem onLane_peerVecs (s : State) (c : Nat) (r : LaneRef) (f : Lane → Lane) : (s.onLane c r f).peerVecs = s.peerVecs := rfl
@[simp] theorem onLane_out (s : State) (c : Nat) (r : LaneRef) (f : Lane → Lane) : (s.onLane c r f).out = s.out := rfl
@[simp] theorem onLane_sessions (s : State) (c : Nat) (r : LaneRef) (f : Lane → Lane) : (s.onLane c r f).sessions = s.sessions := rfl
@[simp] theorem onLane_bootCount (s : State) (c : Nat) (r : LaneRef) (f : Lane → Lane) : (s.onLane c r f).bootCount = s.bootCount := rfl
@[simp] theorem onLane_reports (s : State) (c : Nat) (r : LaneRef) (f : Lane → Lane) : (s.onLane c r f).reports = s.reports := rfl
@[simp] theorem onLane_eccUncorrectable (s : State) (c : Nat) (r : LaneRef) (f : Lane → Lane) : (s.onLane c r f).eccUncorrectable = s.eccUncorrectable := rfl
@[simp] theorem onLane_eccCorrected (s : State) (c : Nat) (r : LaneRef) (f : Lane → Lane) : (s.onLane c r f).eccCorrected = s.eccCorrected := rfl
@[simp] theorem onLane_skipped (s : State) (c : Nat) (r : LaneRef) (f : Lane → Lane) : (s.onLane c r f).skipped = s.skipped := rfl
@[simp] theorem onLane_skipping (s : State) (c : Nat) (r : LaneRef) (f : Lane → Lane) : (s.onLane c r f).skipping = s.skipping := rfl

/-! ## onDie -/

@[simp] theorem onDie_power (s : State) (d : Nat) (f : Die → Die) : (s.onDie d f).power = s.power := rfl
@[simp] theorem onDie_now (s : State) (d : Nat) (f : Die → Die) : (s.onDie d f).now = s.now := rfl
@[simp] theorem onDie_tick (s : State) (d : Nat) (f : Die → Die) : (s.onDie d f).tick = s.tick := rfl
@[simp] theorem onDie_agenda (s : State) (d : Nat) (f : Die → Die) : (s.onDie d f).agenda = s.agenda := rfl
@[simp] theorem onDie_order (s : State) (d : Nat) (f : Die → Die) : (s.onDie d f).order = s.order := rfl
@[simp] theorem onDie_misordered (s : State) (d : Nat) (f : Die → Die) : (s.onDie d f).misordered = s.misordered := rfl
@[simp] theorem onDie_cur (s : State) (d : Nat) (f : Die → Die) : (s.onDie d f).cur = s.cur := rfl
@[simp] theorem onDie_curCarrel (s : State) (d : Nat) (f : Die → Die) : (s.onDie d f).curCarrel = s.curCarrel := rfl
@[simp] theorem onDie_pkgNum (s : State) (d : Nat) (f : Die → Die) : (s.onDie d f).pkgNum = s.pkgNum := rfl
@[simp] theorem onDie_linksUp (s : State) (d : Nat) (f : Die → Die) : (s.onDie d f).linksUp = s.linksUp := rfl
@[simp] theorem onDie_carrelsHeld (s : State) (d : Nat) (f : Die → Die) : (s.onDie d f).carrelsHeld = s.carrelsHeld := rfl
@[simp] theorem onDie_sequencersHeld (s : State) (d : Nat) (f : Die → Die) : (s.onDie d f).sequencersHeld = s.sequencersHeld := rfl
@[simp] theorem onDie_hbm (s : State) (d : Nat) (f : Die → Die) : (s.onDie d f).hbm = s.hbm := rfl
@[simp] theorem onDie_hbmPoison (s : State) (d : Nat) (f : Die → Die) : (s.onDie d f).hbmPoison = s.hbmPoison := rfl
@[simp] theorem onDie_l2Dirty (s : State) (d : Nat) (f : Die → Die) : (s.onDie d f).l2Dirty = s.l2Dirty := rfl
@[simp] theorem onDie_host (s : State) (d : Nat) (f : Die → Die) : (s.onDie d f).host = s.host := rfl
@[simp] theorem onDie_cores (s : State) (d : Nat) (f : Die → Die) : (s.onDie d f).cores = s.cores := rfl
@[simp] theorem onDie_launches (s : State) (d : Nat) (f : Die → Die) : (s.onDie d f).launches = s.launches := rfl
@[simp] theorem onDie_nextLaunch (s : State) (d : Nat) (f : Die → Die) : (s.onDie d f).nextLaunch = s.nextLaunch := rfl
@[simp] theorem onDie_teams (s : State) (d : Nat) (f : Die → Die) : (s.onDie d f).teams = s.teams := rfl
@[simp] theorem onDie_nextTeam (s : State) (d : Nat) (f : Die → Die) : (s.onDie d f).nextTeam = s.nextTeam := rfl
@[simp] theorem onDie_admitSeq (s : State) (d : Nat) (f : Die → Die) : (s.onDie d f).admitSeq = s.admitSeq := rfl
@[simp] theorem onDie_cmds (s : State) (d : Nat) (f : Die → Die) : (s.onDie d f).cmds = s.cmds := rfl
@[simp] theorem onDie_nextCmd (s : State) (d : Nat) (f : Die → Die) : (s.onDie d f).nextCmd = s.nextCmd := rfl
@[simp] theorem onDie_savedHolds (s : State) (d : Nat) (f : Die → Die) : (s.onDie d f).savedHolds = s.savedHolds := rfl
@[simp] theorem onDie_savedColls (s : State) (d : Nat) (f : Die → Die) : (s.onDie d f).savedColls = s.savedColls := rfl
@[simp] theorem onDie_leases (s : State) (d : Nat) (f : Die → Die) : (s.onDie d f).leases = s.leases := rfl
@[simp] theorem onDie_roots (s : State) (d : Nat) (f : Die → Die) : (s.onDie d f).roots = s.roots := rfl
@[simp] theorem onDie_ctxs (s : State) (d : Nat) (f : Die → Die) : (s.onDie d f).ctxs = s.ctxs := rfl
@[simp] theorem onDie_buckets (s : State) (d : Nat) (f : Die → Die) : (s.onDie d f).buckets = s.buckets := rfl
@[simp] theorem onDie_keys (s : State) (d : Nat) (f : Die → Die) : (s.onDie d f).keys = s.keys := rfl
@[simp] theorem onDie_keysUsed (s : State) (d : Nat) (f : Die → Die) : (s.onDie d f).keysUsed = s.keysUsed := rfl
@[simp] theorem onDie_frameKeys (s : State) (d : Nat) (f : Die → Die) : (s.onDie d f).frameKeys = s.frameKeys := rfl
@[simp] theorem onDie_nodes (s : State) (d : Nat) (f : Die → Die) : (s.onDie d f).nodes = s.nodes := rfl
@[simp] theorem onDie_comms (s : State) (d : Nat) (f : Die → Die) : (s.onDie d f).comms = s.comms := rfl
@[simp] theorem onDie_ports (s : State) (d : Nat) (f : Die → Die) : (s.onDie d f).ports = s.ports := rfl
@[simp] theorem onDie_peerOut (s : State) (d : Nat) (f : Die → Die) : (s.onDie d f).peerOut = s.peerOut := rfl
@[simp] theorem onDie_notices (s : State) (d : Nat) (f : Die → Die) : (s.onDie d f).notices = s.notices := rfl
@[simp] theorem onDie_peerVecs (s : State) (d : Nat) (f : Die → Die) : (s.onDie d f).peerVecs = s.peerVecs := rfl
@[simp] theorem onDie_out (s : State) (d : Nat) (f : Die → Die) : (s.onDie d f).out = s.out := rfl
@[simp] theorem onDie_sessions (s : State) (d : Nat) (f : Die → Die) : (s.onDie d f).sessions = s.sessions := rfl
@[simp] theorem onDie_bootCount (s : State) (d : Nat) (f : Die → Die) : (s.onDie d f).bootCount = s.bootCount := rfl
@[simp] theorem onDie_reports (s : State) (d : Nat) (f : Die → Die) : (s.onDie d f).reports = s.reports := rfl
@[simp] theorem onDie_eccUncorrectable (s : State) (d : Nat) (f : Die → Die) : (s.onDie d f).eccUncorrectable = s.eccUncorrectable := rfl
@[simp] theorem onDie_eccCorrected (s : State) (d : Nat) (f : Die → Die) : (s.onDie d f).eccCorrected = s.eccCorrected := rfl
@[simp] theorem onDie_skipped (s : State) (d : Nat) (f : Die → Die) : (s.onDie d f).skipped = s.skipped := rfl
@[simp] theorem onDie_skipping (s : State) (d : Nat) (f : Die → Die) : (s.onDie d f).skipping = s.skipping := rfl

/-! ## onCarrel -/

@[simp] theorem onCarrel_power (s : State) (d c : Nat) (f : Carrel → Carrel) : (s.onCarrel d c f).power = s.power := rfl
@[simp] theorem onCarrel_now (s : State) (d c : Nat) (f : Carrel → Carrel) : (s.onCarrel d c f).now = s.now := rfl
@[simp] theorem onCarrel_tick (s : State) (d c : Nat) (f : Carrel → Carrel) : (s.onCarrel d c f).tick = s.tick := rfl
@[simp] theorem onCarrel_agenda (s : State) (d c : Nat) (f : Carrel → Carrel) : (s.onCarrel d c f).agenda = s.agenda := rfl
@[simp] theorem onCarrel_order (s : State) (d c : Nat) (f : Carrel → Carrel) : (s.onCarrel d c f).order = s.order := rfl
@[simp] theorem onCarrel_misordered (s : State) (d c : Nat) (f : Carrel → Carrel) : (s.onCarrel d c f).misordered = s.misordered := rfl
@[simp] theorem onCarrel_cur (s : State) (d c : Nat) (f : Carrel → Carrel) : (s.onCarrel d c f).cur = s.cur := rfl
@[simp] theorem onCarrel_curCarrel (s : State) (d c : Nat) (f : Carrel → Carrel) : (s.onCarrel d c f).curCarrel = s.curCarrel := rfl
@[simp] theorem onCarrel_pkgNum (s : State) (d c : Nat) (f : Carrel → Carrel) : (s.onCarrel d c f).pkgNum = s.pkgNum := rfl
@[simp] theorem onCarrel_linksUp (s : State) (d c : Nat) (f : Carrel → Carrel) : (s.onCarrel d c f).linksUp = s.linksUp := rfl
@[simp] theorem onCarrel_carrelsHeld (s : State) (d c : Nat) (f : Carrel → Carrel) : (s.onCarrel d c f).carrelsHeld = s.carrelsHeld := rfl
@[simp] theorem onCarrel_sequencersHeld (s : State) (d c : Nat) (f : Carrel → Carrel) : (s.onCarrel d c f).sequencersHeld = s.sequencersHeld := rfl
@[simp] theorem onCarrel_hbm (s : State) (d c : Nat) (f : Carrel → Carrel) : (s.onCarrel d c f).hbm = s.hbm := rfl
@[simp] theorem onCarrel_hbmPoison (s : State) (d c : Nat) (f : Carrel → Carrel) : (s.onCarrel d c f).hbmPoison = s.hbmPoison := rfl
@[simp] theorem onCarrel_l2Dirty (s : State) (d c : Nat) (f : Carrel → Carrel) : (s.onCarrel d c f).l2Dirty = s.l2Dirty := rfl
@[simp] theorem onCarrel_host (s : State) (d c : Nat) (f : Carrel → Carrel) : (s.onCarrel d c f).host = s.host := rfl
@[simp] theorem onCarrel_cores (s : State) (d c : Nat) (f : Carrel → Carrel) : (s.onCarrel d c f).cores = s.cores := rfl
@[simp] theorem onCarrel_launches (s : State) (d c : Nat) (f : Carrel → Carrel) : (s.onCarrel d c f).launches = s.launches := rfl
@[simp] theorem onCarrel_nextLaunch (s : State) (d c : Nat) (f : Carrel → Carrel) : (s.onCarrel d c f).nextLaunch = s.nextLaunch := rfl
@[simp] theorem onCarrel_teams (s : State) (d c : Nat) (f : Carrel → Carrel) : (s.onCarrel d c f).teams = s.teams := rfl
@[simp] theorem onCarrel_nextTeam (s : State) (d c : Nat) (f : Carrel → Carrel) : (s.onCarrel d c f).nextTeam = s.nextTeam := rfl
@[simp] theorem onCarrel_admitSeq (s : State) (d c : Nat) (f : Carrel → Carrel) : (s.onCarrel d c f).admitSeq = s.admitSeq := rfl
@[simp] theorem onCarrel_cmds (s : State) (d c : Nat) (f : Carrel → Carrel) : (s.onCarrel d c f).cmds = s.cmds := rfl
@[simp] theorem onCarrel_nextCmd (s : State) (d c : Nat) (f : Carrel → Carrel) : (s.onCarrel d c f).nextCmd = s.nextCmd := rfl
@[simp] theorem onCarrel_savedHolds (s : State) (d c : Nat) (f : Carrel → Carrel) : (s.onCarrel d c f).savedHolds = s.savedHolds := rfl
@[simp] theorem onCarrel_savedColls (s : State) (d c : Nat) (f : Carrel → Carrel) : (s.onCarrel d c f).savedColls = s.savedColls := rfl
@[simp] theorem onCarrel_leases (s : State) (d c : Nat) (f : Carrel → Carrel) : (s.onCarrel d c f).leases = s.leases := rfl
@[simp] theorem onCarrel_roots (s : State) (d c : Nat) (f : Carrel → Carrel) : (s.onCarrel d c f).roots = s.roots := rfl
@[simp] theorem onCarrel_ctxs (s : State) (d c : Nat) (f : Carrel → Carrel) : (s.onCarrel d c f).ctxs = s.ctxs := rfl
@[simp] theorem onCarrel_buckets (s : State) (d c : Nat) (f : Carrel → Carrel) : (s.onCarrel d c f).buckets = s.buckets := rfl
@[simp] theorem onCarrel_keys (s : State) (d c : Nat) (f : Carrel → Carrel) : (s.onCarrel d c f).keys = s.keys := rfl
@[simp] theorem onCarrel_keysUsed (s : State) (d c : Nat) (f : Carrel → Carrel) : (s.onCarrel d c f).keysUsed = s.keysUsed := rfl
@[simp] theorem onCarrel_frameKeys (s : State) (d c : Nat) (f : Carrel → Carrel) : (s.onCarrel d c f).frameKeys = s.frameKeys := rfl
@[simp] theorem onCarrel_nodes (s : State) (d c : Nat) (f : Carrel → Carrel) : (s.onCarrel d c f).nodes = s.nodes := rfl
@[simp] theorem onCarrel_comms (s : State) (d c : Nat) (f : Carrel → Carrel) : (s.onCarrel d c f).comms = s.comms := rfl
@[simp] theorem onCarrel_ports (s : State) (d c : Nat) (f : Carrel → Carrel) : (s.onCarrel d c f).ports = s.ports := rfl
@[simp] theorem onCarrel_peerOut (s : State) (d c : Nat) (f : Carrel → Carrel) : (s.onCarrel d c f).peerOut = s.peerOut := rfl
@[simp] theorem onCarrel_notices (s : State) (d c : Nat) (f : Carrel → Carrel) : (s.onCarrel d c f).notices = s.notices := rfl
@[simp] theorem onCarrel_peerVecs (s : State) (d c : Nat) (f : Carrel → Carrel) : (s.onCarrel d c f).peerVecs = s.peerVecs := rfl
@[simp] theorem onCarrel_out (s : State) (d c : Nat) (f : Carrel → Carrel) : (s.onCarrel d c f).out = s.out := rfl
@[simp] theorem onCarrel_sessions (s : State) (d c : Nat) (f : Carrel → Carrel) : (s.onCarrel d c f).sessions = s.sessions := rfl
@[simp] theorem onCarrel_bootCount (s : State) (d c : Nat) (f : Carrel → Carrel) : (s.onCarrel d c f).bootCount = s.bootCount := rfl
@[simp] theorem onCarrel_reports (s : State) (d c : Nat) (f : Carrel → Carrel) : (s.onCarrel d c f).reports = s.reports := rfl
@[simp] theorem onCarrel_eccUncorrectable (s : State) (d c : Nat) (f : Carrel → Carrel) : (s.onCarrel d c f).eccUncorrectable = s.eccUncorrectable := rfl
@[simp] theorem onCarrel_eccCorrected (s : State) (d c : Nat) (f : Carrel → Carrel) : (s.onCarrel d c f).eccCorrected = s.eccCorrected := rfl
@[simp] theorem onCarrel_skipped (s : State) (d c : Nat) (f : Carrel → Carrel) : (s.onCarrel d c f).skipped = s.skipped := rfl
@[simp] theorem onCarrel_skipping (s : State) (d c : Nat) (f : Carrel → Carrel) : (s.onCarrel d c f).skipping = s.skipping := rfl

/-! ## onTeam -/

@[simp] theorem onTeam_power (s : State) (k : Nat) (f : Team → Team) : (s.onTeam k f).power = s.power := rfl
@[simp] theorem onTeam_now (s : State) (k : Nat) (f : Team → Team) : (s.onTeam k f).now = s.now := rfl
@[simp] theorem onTeam_tick (s : State) (k : Nat) (f : Team → Team) : (s.onTeam k f).tick = s.tick := rfl
@[simp] theorem onTeam_agenda (s : State) (k : Nat) (f : Team → Team) : (s.onTeam k f).agenda = s.agenda := rfl
@[simp] theorem onTeam_order (s : State) (k : Nat) (f : Team → Team) : (s.onTeam k f).order = s.order := rfl
@[simp] theorem onTeam_misordered (s : State) (k : Nat) (f : Team → Team) : (s.onTeam k f).misordered = s.misordered := rfl
@[simp] theorem onTeam_cur (s : State) (k : Nat) (f : Team → Team) : (s.onTeam k f).cur = s.cur := rfl
@[simp] theorem onTeam_curCarrel (s : State) (k : Nat) (f : Team → Team) : (s.onTeam k f).curCarrel = s.curCarrel := rfl
@[simp] theorem onTeam_pkgNum (s : State) (k : Nat) (f : Team → Team) : (s.onTeam k f).pkgNum = s.pkgNum := rfl
@[simp] theorem onTeam_linksUp (s : State) (k : Nat) (f : Team → Team) : (s.onTeam k f).linksUp = s.linksUp := rfl
@[simp] theorem onTeam_carrelsHeld (s : State) (k : Nat) (f : Team → Team) : (s.onTeam k f).carrelsHeld = s.carrelsHeld := rfl
@[simp] theorem onTeam_sequencersHeld (s : State) (k : Nat) (f : Team → Team) : (s.onTeam k f).sequencersHeld = s.sequencersHeld := rfl
@[simp] theorem onTeam_hbm (s : State) (k : Nat) (f : Team → Team) : (s.onTeam k f).hbm = s.hbm := rfl
@[simp] theorem onTeam_hbmPoison (s : State) (k : Nat) (f : Team → Team) : (s.onTeam k f).hbmPoison = s.hbmPoison := rfl
@[simp] theorem onTeam_l2Dirty (s : State) (k : Nat) (f : Team → Team) : (s.onTeam k f).l2Dirty = s.l2Dirty := rfl
@[simp] theorem onTeam_host (s : State) (k : Nat) (f : Team → Team) : (s.onTeam k f).host = s.host := rfl
@[simp] theorem onTeam_cores (s : State) (k : Nat) (f : Team → Team) : (s.onTeam k f).cores = s.cores := rfl
@[simp] theorem onTeam_dies (s : State) (k : Nat) (f : Team → Team) : (s.onTeam k f).dies = s.dies := rfl
@[simp] theorem onTeam_launches (s : State) (k : Nat) (f : Team → Team) : (s.onTeam k f).launches = s.launches := rfl
@[simp] theorem onTeam_nextLaunch (s : State) (k : Nat) (f : Team → Team) : (s.onTeam k f).nextLaunch = s.nextLaunch := rfl
@[simp] theorem onTeam_nextTeam (s : State) (k : Nat) (f : Team → Team) : (s.onTeam k f).nextTeam = s.nextTeam := rfl
@[simp] theorem onTeam_admitSeq (s : State) (k : Nat) (f : Team → Team) : (s.onTeam k f).admitSeq = s.admitSeq := rfl
@[simp] theorem onTeam_cmds (s : State) (k : Nat) (f : Team → Team) : (s.onTeam k f).cmds = s.cmds := rfl
@[simp] theorem onTeam_nextCmd (s : State) (k : Nat) (f : Team → Team) : (s.onTeam k f).nextCmd = s.nextCmd := rfl
@[simp] theorem onTeam_savedHolds (s : State) (k : Nat) (f : Team → Team) : (s.onTeam k f).savedHolds = s.savedHolds := rfl
@[simp] theorem onTeam_savedColls (s : State) (k : Nat) (f : Team → Team) : (s.onTeam k f).savedColls = s.savedColls := rfl
@[simp] theorem onTeam_leases (s : State) (k : Nat) (f : Team → Team) : (s.onTeam k f).leases = s.leases := rfl
@[simp] theorem onTeam_roots (s : State) (k : Nat) (f : Team → Team) : (s.onTeam k f).roots = s.roots := rfl
@[simp] theorem onTeam_ctxs (s : State) (k : Nat) (f : Team → Team) : (s.onTeam k f).ctxs = s.ctxs := rfl
@[simp] theorem onTeam_buckets (s : State) (k : Nat) (f : Team → Team) : (s.onTeam k f).buckets = s.buckets := rfl
@[simp] theorem onTeam_keys (s : State) (k : Nat) (f : Team → Team) : (s.onTeam k f).keys = s.keys := rfl
@[simp] theorem onTeam_keysUsed (s : State) (k : Nat) (f : Team → Team) : (s.onTeam k f).keysUsed = s.keysUsed := rfl
@[simp] theorem onTeam_frameKeys (s : State) (k : Nat) (f : Team → Team) : (s.onTeam k f).frameKeys = s.frameKeys := rfl
@[simp] theorem onTeam_nodes (s : State) (k : Nat) (f : Team → Team) : (s.onTeam k f).nodes = s.nodes := rfl
@[simp] theorem onTeam_comms (s : State) (k : Nat) (f : Team → Team) : (s.onTeam k f).comms = s.comms := rfl
@[simp] theorem onTeam_ports (s : State) (k : Nat) (f : Team → Team) : (s.onTeam k f).ports = s.ports := rfl
@[simp] theorem onTeam_peerOut (s : State) (k : Nat) (f : Team → Team) : (s.onTeam k f).peerOut = s.peerOut := rfl
@[simp] theorem onTeam_notices (s : State) (k : Nat) (f : Team → Team) : (s.onTeam k f).notices = s.notices := rfl
@[simp] theorem onTeam_peerVecs (s : State) (k : Nat) (f : Team → Team) : (s.onTeam k f).peerVecs = s.peerVecs := rfl
@[simp] theorem onTeam_out (s : State) (k : Nat) (f : Team → Team) : (s.onTeam k f).out = s.out := rfl
@[simp] theorem onTeam_sessions (s : State) (k : Nat) (f : Team → Team) : (s.onTeam k f).sessions = s.sessions := rfl
@[simp] theorem onTeam_bootCount (s : State) (k : Nat) (f : Team → Team) : (s.onTeam k f).bootCount = s.bootCount := rfl
@[simp] theorem onTeam_reports (s : State) (k : Nat) (f : Team → Team) : (s.onTeam k f).reports = s.reports := rfl
@[simp] theorem onTeam_eccUncorrectable (s : State) (k : Nat) (f : Team → Team) : (s.onTeam k f).eccUncorrectable = s.eccUncorrectable := rfl
@[simp] theorem onTeam_eccCorrected (s : State) (k : Nat) (f : Team → Team) : (s.onTeam k f).eccCorrected = s.eccCorrected := rfl
@[simp] theorem onTeam_skipped (s : State) (k : Nat) (f : Team → Team) : (s.onTeam k f).skipped = s.skipped := rfl
@[simp] theorem onTeam_skipping (s : State) (k : Nat) (f : Team → Team) : (s.onTeam k f).skipping = s.skipping := rfl

/-! ## onLaunch -/

@[simp] theorem onLaunch_power (s : State) (k : Nat) (f : Launch → Launch) : (s.onLaunch k f).power = s.power := rfl
@[simp] theorem onLaunch_now (s : State) (k : Nat) (f : Launch → Launch) : (s.onLaunch k f).now = s.now := rfl
@[simp] theorem onLaunch_tick (s : State) (k : Nat) (f : Launch → Launch) : (s.onLaunch k f).tick = s.tick := rfl
@[simp] theorem onLaunch_agenda (s : State) (k : Nat) (f : Launch → Launch) : (s.onLaunch k f).agenda = s.agenda := rfl
@[simp] theorem onLaunch_order (s : State) (k : Nat) (f : Launch → Launch) : (s.onLaunch k f).order = s.order := rfl
@[simp] theorem onLaunch_misordered (s : State) (k : Nat) (f : Launch → Launch) : (s.onLaunch k f).misordered = s.misordered := rfl
@[simp] theorem onLaunch_cur (s : State) (k : Nat) (f : Launch → Launch) : (s.onLaunch k f).cur = s.cur := rfl
@[simp] theorem onLaunch_curCarrel (s : State) (k : Nat) (f : Launch → Launch) : (s.onLaunch k f).curCarrel = s.curCarrel := rfl
@[simp] theorem onLaunch_pkgNum (s : State) (k : Nat) (f : Launch → Launch) : (s.onLaunch k f).pkgNum = s.pkgNum := rfl
@[simp] theorem onLaunch_linksUp (s : State) (k : Nat) (f : Launch → Launch) : (s.onLaunch k f).linksUp = s.linksUp := rfl
@[simp] theorem onLaunch_carrelsHeld (s : State) (k : Nat) (f : Launch → Launch) : (s.onLaunch k f).carrelsHeld = s.carrelsHeld := rfl
@[simp] theorem onLaunch_sequencersHeld (s : State) (k : Nat) (f : Launch → Launch) : (s.onLaunch k f).sequencersHeld = s.sequencersHeld := rfl
@[simp] theorem onLaunch_hbm (s : State) (k : Nat) (f : Launch → Launch) : (s.onLaunch k f).hbm = s.hbm := rfl
@[simp] theorem onLaunch_hbmPoison (s : State) (k : Nat) (f : Launch → Launch) : (s.onLaunch k f).hbmPoison = s.hbmPoison := rfl
@[simp] theorem onLaunch_l2Dirty (s : State) (k : Nat) (f : Launch → Launch) : (s.onLaunch k f).l2Dirty = s.l2Dirty := rfl
@[simp] theorem onLaunch_host (s : State) (k : Nat) (f : Launch → Launch) : (s.onLaunch k f).host = s.host := rfl
@[simp] theorem onLaunch_cores (s : State) (k : Nat) (f : Launch → Launch) : (s.onLaunch k f).cores = s.cores := rfl
@[simp] theorem onLaunch_dies (s : State) (k : Nat) (f : Launch → Launch) : (s.onLaunch k f).dies = s.dies := rfl
@[simp] theorem onLaunch_nextLaunch (s : State) (k : Nat) (f : Launch → Launch) : (s.onLaunch k f).nextLaunch = s.nextLaunch := rfl
@[simp] theorem onLaunch_teams (s : State) (k : Nat) (f : Launch → Launch) : (s.onLaunch k f).teams = s.teams := rfl
@[simp] theorem onLaunch_nextTeam (s : State) (k : Nat) (f : Launch → Launch) : (s.onLaunch k f).nextTeam = s.nextTeam := rfl
@[simp] theorem onLaunch_admitSeq (s : State) (k : Nat) (f : Launch → Launch) : (s.onLaunch k f).admitSeq = s.admitSeq := rfl
@[simp] theorem onLaunch_cmds (s : State) (k : Nat) (f : Launch → Launch) : (s.onLaunch k f).cmds = s.cmds := rfl
@[simp] theorem onLaunch_nextCmd (s : State) (k : Nat) (f : Launch → Launch) : (s.onLaunch k f).nextCmd = s.nextCmd := rfl
@[simp] theorem onLaunch_savedHolds (s : State) (k : Nat) (f : Launch → Launch) : (s.onLaunch k f).savedHolds = s.savedHolds := rfl
@[simp] theorem onLaunch_savedColls (s : State) (k : Nat) (f : Launch → Launch) : (s.onLaunch k f).savedColls = s.savedColls := rfl
@[simp] theorem onLaunch_leases (s : State) (k : Nat) (f : Launch → Launch) : (s.onLaunch k f).leases = s.leases := rfl
@[simp] theorem onLaunch_roots (s : State) (k : Nat) (f : Launch → Launch) : (s.onLaunch k f).roots = s.roots := rfl
@[simp] theorem onLaunch_ctxs (s : State) (k : Nat) (f : Launch → Launch) : (s.onLaunch k f).ctxs = s.ctxs := rfl
@[simp] theorem onLaunch_buckets (s : State) (k : Nat) (f : Launch → Launch) : (s.onLaunch k f).buckets = s.buckets := rfl
@[simp] theorem onLaunch_keys (s : State) (k : Nat) (f : Launch → Launch) : (s.onLaunch k f).keys = s.keys := rfl
@[simp] theorem onLaunch_keysUsed (s : State) (k : Nat) (f : Launch → Launch) : (s.onLaunch k f).keysUsed = s.keysUsed := rfl
@[simp] theorem onLaunch_frameKeys (s : State) (k : Nat) (f : Launch → Launch) : (s.onLaunch k f).frameKeys = s.frameKeys := rfl
@[simp] theorem onLaunch_nodes (s : State) (k : Nat) (f : Launch → Launch) : (s.onLaunch k f).nodes = s.nodes := rfl
@[simp] theorem onLaunch_comms (s : State) (k : Nat) (f : Launch → Launch) : (s.onLaunch k f).comms = s.comms := rfl
@[simp] theorem onLaunch_ports (s : State) (k : Nat) (f : Launch → Launch) : (s.onLaunch k f).ports = s.ports := rfl
@[simp] theorem onLaunch_peerOut (s : State) (k : Nat) (f : Launch → Launch) : (s.onLaunch k f).peerOut = s.peerOut := rfl
@[simp] theorem onLaunch_notices (s : State) (k : Nat) (f : Launch → Launch) : (s.onLaunch k f).notices = s.notices := rfl
@[simp] theorem onLaunch_peerVecs (s : State) (k : Nat) (f : Launch → Launch) : (s.onLaunch k f).peerVecs = s.peerVecs := rfl
@[simp] theorem onLaunch_out (s : State) (k : Nat) (f : Launch → Launch) : (s.onLaunch k f).out = s.out := rfl
@[simp] theorem onLaunch_sessions (s : State) (k : Nat) (f : Launch → Launch) : (s.onLaunch k f).sessions = s.sessions := rfl
@[simp] theorem onLaunch_bootCount (s : State) (k : Nat) (f : Launch → Launch) : (s.onLaunch k f).bootCount = s.bootCount := rfl
@[simp] theorem onLaunch_reports (s : State) (k : Nat) (f : Launch → Launch) : (s.onLaunch k f).reports = s.reports := rfl
@[simp] theorem onLaunch_eccUncorrectable (s : State) (k : Nat) (f : Launch → Launch) : (s.onLaunch k f).eccUncorrectable = s.eccUncorrectable := rfl
@[simp] theorem onLaunch_eccCorrected (s : State) (k : Nat) (f : Launch → Launch) : (s.onLaunch k f).eccCorrected = s.eccCorrected := rfl
@[simp] theorem onLaunch_skipped (s : State) (k : Nat) (f : Launch → Launch) : (s.onLaunch k f).skipped = s.skipped := rfl
@[simp] theorem onLaunch_skipping (s : State) (k : Nat) (f : Launch → Launch) : (s.onLaunch k f).skipping = s.skipping := rfl

/-! ## onCmd -/

@[simp] theorem onCmd_power (s : State) (k : Nat) (f : Cmd → Cmd) : (s.onCmd k f).power = s.power := rfl
@[simp] theorem onCmd_now (s : State) (k : Nat) (f : Cmd → Cmd) : (s.onCmd k f).now = s.now := rfl
@[simp] theorem onCmd_tick (s : State) (k : Nat) (f : Cmd → Cmd) : (s.onCmd k f).tick = s.tick := rfl
@[simp] theorem onCmd_agenda (s : State) (k : Nat) (f : Cmd → Cmd) : (s.onCmd k f).agenda = s.agenda := rfl
@[simp] theorem onCmd_order (s : State) (k : Nat) (f : Cmd → Cmd) : (s.onCmd k f).order = s.order := rfl
@[simp] theorem onCmd_misordered (s : State) (k : Nat) (f : Cmd → Cmd) : (s.onCmd k f).misordered = s.misordered := rfl
@[simp] theorem onCmd_cur (s : State) (k : Nat) (f : Cmd → Cmd) : (s.onCmd k f).cur = s.cur := rfl
@[simp] theorem onCmd_curCarrel (s : State) (k : Nat) (f : Cmd → Cmd) : (s.onCmd k f).curCarrel = s.curCarrel := rfl
@[simp] theorem onCmd_pkgNum (s : State) (k : Nat) (f : Cmd → Cmd) : (s.onCmd k f).pkgNum = s.pkgNum := rfl
@[simp] theorem onCmd_linksUp (s : State) (k : Nat) (f : Cmd → Cmd) : (s.onCmd k f).linksUp = s.linksUp := rfl
@[simp] theorem onCmd_carrelsHeld (s : State) (k : Nat) (f : Cmd → Cmd) : (s.onCmd k f).carrelsHeld = s.carrelsHeld := rfl
@[simp] theorem onCmd_sequencersHeld (s : State) (k : Nat) (f : Cmd → Cmd) : (s.onCmd k f).sequencersHeld = s.sequencersHeld := rfl
@[simp] theorem onCmd_hbm (s : State) (k : Nat) (f : Cmd → Cmd) : (s.onCmd k f).hbm = s.hbm := rfl
@[simp] theorem onCmd_hbmPoison (s : State) (k : Nat) (f : Cmd → Cmd) : (s.onCmd k f).hbmPoison = s.hbmPoison := rfl
@[simp] theorem onCmd_l2Dirty (s : State) (k : Nat) (f : Cmd → Cmd) : (s.onCmd k f).l2Dirty = s.l2Dirty := rfl
@[simp] theorem onCmd_host (s : State) (k : Nat) (f : Cmd → Cmd) : (s.onCmd k f).host = s.host := rfl
@[simp] theorem onCmd_cores (s : State) (k : Nat) (f : Cmd → Cmd) : (s.onCmd k f).cores = s.cores := rfl
@[simp] theorem onCmd_dies (s : State) (k : Nat) (f : Cmd → Cmd) : (s.onCmd k f).dies = s.dies := rfl
@[simp] theorem onCmd_launches (s : State) (k : Nat) (f : Cmd → Cmd) : (s.onCmd k f).launches = s.launches := rfl
@[simp] theorem onCmd_nextLaunch (s : State) (k : Nat) (f : Cmd → Cmd) : (s.onCmd k f).nextLaunch = s.nextLaunch := rfl
@[simp] theorem onCmd_teams (s : State) (k : Nat) (f : Cmd → Cmd) : (s.onCmd k f).teams = s.teams := rfl
@[simp] theorem onCmd_nextTeam (s : State) (k : Nat) (f : Cmd → Cmd) : (s.onCmd k f).nextTeam = s.nextTeam := rfl
@[simp] theorem onCmd_admitSeq (s : State) (k : Nat) (f : Cmd → Cmd) : (s.onCmd k f).admitSeq = s.admitSeq := rfl
@[simp] theorem onCmd_nextCmd (s : State) (k : Nat) (f : Cmd → Cmd) : (s.onCmd k f).nextCmd = s.nextCmd := rfl
@[simp] theorem onCmd_savedHolds (s : State) (k : Nat) (f : Cmd → Cmd) : (s.onCmd k f).savedHolds = s.savedHolds := rfl
@[simp] theorem onCmd_savedColls (s : State) (k : Nat) (f : Cmd → Cmd) : (s.onCmd k f).savedColls = s.savedColls := rfl
@[simp] theorem onCmd_leases (s : State) (k : Nat) (f : Cmd → Cmd) : (s.onCmd k f).leases = s.leases := rfl
@[simp] theorem onCmd_roots (s : State) (k : Nat) (f : Cmd → Cmd) : (s.onCmd k f).roots = s.roots := rfl
@[simp] theorem onCmd_ctxs (s : State) (k : Nat) (f : Cmd → Cmd) : (s.onCmd k f).ctxs = s.ctxs := rfl
@[simp] theorem onCmd_buckets (s : State) (k : Nat) (f : Cmd → Cmd) : (s.onCmd k f).buckets = s.buckets := rfl
@[simp] theorem onCmd_keys (s : State) (k : Nat) (f : Cmd → Cmd) : (s.onCmd k f).keys = s.keys := rfl
@[simp] theorem onCmd_keysUsed (s : State) (k : Nat) (f : Cmd → Cmd) : (s.onCmd k f).keysUsed = s.keysUsed := rfl
@[simp] theorem onCmd_frameKeys (s : State) (k : Nat) (f : Cmd → Cmd) : (s.onCmd k f).frameKeys = s.frameKeys := rfl
@[simp] theorem onCmd_nodes (s : State) (k : Nat) (f : Cmd → Cmd) : (s.onCmd k f).nodes = s.nodes := rfl
@[simp] theorem onCmd_comms (s : State) (k : Nat) (f : Cmd → Cmd) : (s.onCmd k f).comms = s.comms := rfl
@[simp] theorem onCmd_ports (s : State) (k : Nat) (f : Cmd → Cmd) : (s.onCmd k f).ports = s.ports := rfl
@[simp] theorem onCmd_peerOut (s : State) (k : Nat) (f : Cmd → Cmd) : (s.onCmd k f).peerOut = s.peerOut := rfl
@[simp] theorem onCmd_notices (s : State) (k : Nat) (f : Cmd → Cmd) : (s.onCmd k f).notices = s.notices := rfl
@[simp] theorem onCmd_peerVecs (s : State) (k : Nat) (f : Cmd → Cmd) : (s.onCmd k f).peerVecs = s.peerVecs := rfl
@[simp] theorem onCmd_out (s : State) (k : Nat) (f : Cmd → Cmd) : (s.onCmd k f).out = s.out := rfl
@[simp] theorem onCmd_sessions (s : State) (k : Nat) (f : Cmd → Cmd) : (s.onCmd k f).sessions = s.sessions := rfl
@[simp] theorem onCmd_bootCount (s : State) (k : Nat) (f : Cmd → Cmd) : (s.onCmd k f).bootCount = s.bootCount := rfl
@[simp] theorem onCmd_reports (s : State) (k : Nat) (f : Cmd → Cmd) : (s.onCmd k f).reports = s.reports := rfl
@[simp] theorem onCmd_eccUncorrectable (s : State) (k : Nat) (f : Cmd → Cmd) : (s.onCmd k f).eccUncorrectable = s.eccUncorrectable := rfl
@[simp] theorem onCmd_eccCorrected (s : State) (k : Nat) (f : Cmd → Cmd) : (s.onCmd k f).eccCorrected = s.eccCorrected := rfl
@[simp] theorem onCmd_skipped (s : State) (k : Nat) (f : Cmd → Cmd) : (s.onCmd k f).skipped = s.skipped := rfl
@[simp] theorem onCmd_skipping (s : State) (k : Nat) (f : Cmd → Cmd) : (s.onCmd k f).skipping = s.skipping := rfl

/-! ## onCtx -/

@[simp] theorem onCtx_power (s : State) (k : Nat) (f : Ctx → Ctx) : (s.onCtx k f).power = s.power := rfl
@[simp] theorem onCtx_now (s : State) (k : Nat) (f : Ctx → Ctx) : (s.onCtx k f).now = s.now := rfl
@[simp] theorem onCtx_tick (s : State) (k : Nat) (f : Ctx → Ctx) : (s.onCtx k f).tick = s.tick := rfl
@[simp] theorem onCtx_agenda (s : State) (k : Nat) (f : Ctx → Ctx) : (s.onCtx k f).agenda = s.agenda := rfl
@[simp] theorem onCtx_order (s : State) (k : Nat) (f : Ctx → Ctx) : (s.onCtx k f).order = s.order := rfl
@[simp] theorem onCtx_misordered (s : State) (k : Nat) (f : Ctx → Ctx) : (s.onCtx k f).misordered = s.misordered := rfl
@[simp] theorem onCtx_cur (s : State) (k : Nat) (f : Ctx → Ctx) : (s.onCtx k f).cur = s.cur := rfl
@[simp] theorem onCtx_curCarrel (s : State) (k : Nat) (f : Ctx → Ctx) : (s.onCtx k f).curCarrel = s.curCarrel := rfl
@[simp] theorem onCtx_pkgNum (s : State) (k : Nat) (f : Ctx → Ctx) : (s.onCtx k f).pkgNum = s.pkgNum := rfl
@[simp] theorem onCtx_linksUp (s : State) (k : Nat) (f : Ctx → Ctx) : (s.onCtx k f).linksUp = s.linksUp := rfl
@[simp] theorem onCtx_carrelsHeld (s : State) (k : Nat) (f : Ctx → Ctx) : (s.onCtx k f).carrelsHeld = s.carrelsHeld := rfl
@[simp] theorem onCtx_sequencersHeld (s : State) (k : Nat) (f : Ctx → Ctx) : (s.onCtx k f).sequencersHeld = s.sequencersHeld := rfl
@[simp] theorem onCtx_hbm (s : State) (k : Nat) (f : Ctx → Ctx) : (s.onCtx k f).hbm = s.hbm := rfl
@[simp] theorem onCtx_hbmPoison (s : State) (k : Nat) (f : Ctx → Ctx) : (s.onCtx k f).hbmPoison = s.hbmPoison := rfl
@[simp] theorem onCtx_l2Dirty (s : State) (k : Nat) (f : Ctx → Ctx) : (s.onCtx k f).l2Dirty = s.l2Dirty := rfl
@[simp] theorem onCtx_host (s : State) (k : Nat) (f : Ctx → Ctx) : (s.onCtx k f).host = s.host := rfl
@[simp] theorem onCtx_cores (s : State) (k : Nat) (f : Ctx → Ctx) : (s.onCtx k f).cores = s.cores := rfl
@[simp] theorem onCtx_dies (s : State) (k : Nat) (f : Ctx → Ctx) : (s.onCtx k f).dies = s.dies := rfl
@[simp] theorem onCtx_launches (s : State) (k : Nat) (f : Ctx → Ctx) : (s.onCtx k f).launches = s.launches := rfl
@[simp] theorem onCtx_nextLaunch (s : State) (k : Nat) (f : Ctx → Ctx) : (s.onCtx k f).nextLaunch = s.nextLaunch := rfl
@[simp] theorem onCtx_teams (s : State) (k : Nat) (f : Ctx → Ctx) : (s.onCtx k f).teams = s.teams := rfl
@[simp] theorem onCtx_nextTeam (s : State) (k : Nat) (f : Ctx → Ctx) : (s.onCtx k f).nextTeam = s.nextTeam := rfl
@[simp] theorem onCtx_admitSeq (s : State) (k : Nat) (f : Ctx → Ctx) : (s.onCtx k f).admitSeq = s.admitSeq := rfl
@[simp] theorem onCtx_cmds (s : State) (k : Nat) (f : Ctx → Ctx) : (s.onCtx k f).cmds = s.cmds := rfl
@[simp] theorem onCtx_nextCmd (s : State) (k : Nat) (f : Ctx → Ctx) : (s.onCtx k f).nextCmd = s.nextCmd := rfl
@[simp] theorem onCtx_savedHolds (s : State) (k : Nat) (f : Ctx → Ctx) : (s.onCtx k f).savedHolds = s.savedHolds := rfl
@[simp] theorem onCtx_savedColls (s : State) (k : Nat) (f : Ctx → Ctx) : (s.onCtx k f).savedColls = s.savedColls := rfl
@[simp] theorem onCtx_leases (s : State) (k : Nat) (f : Ctx → Ctx) : (s.onCtx k f).leases = s.leases := rfl
@[simp] theorem onCtx_roots (s : State) (k : Nat) (f : Ctx → Ctx) : (s.onCtx k f).roots = s.roots := rfl
@[simp] theorem onCtx_buckets (s : State) (k : Nat) (f : Ctx → Ctx) : (s.onCtx k f).buckets = s.buckets := rfl
@[simp] theorem onCtx_keys (s : State) (k : Nat) (f : Ctx → Ctx) : (s.onCtx k f).keys = s.keys := rfl
@[simp] theorem onCtx_keysUsed (s : State) (k : Nat) (f : Ctx → Ctx) : (s.onCtx k f).keysUsed = s.keysUsed := rfl
@[simp] theorem onCtx_frameKeys (s : State) (k : Nat) (f : Ctx → Ctx) : (s.onCtx k f).frameKeys = s.frameKeys := rfl
@[simp] theorem onCtx_nodes (s : State) (k : Nat) (f : Ctx → Ctx) : (s.onCtx k f).nodes = s.nodes := rfl
@[simp] theorem onCtx_comms (s : State) (k : Nat) (f : Ctx → Ctx) : (s.onCtx k f).comms = s.comms := rfl
@[simp] theorem onCtx_ports (s : State) (k : Nat) (f : Ctx → Ctx) : (s.onCtx k f).ports = s.ports := rfl
@[simp] theorem onCtx_peerOut (s : State) (k : Nat) (f : Ctx → Ctx) : (s.onCtx k f).peerOut = s.peerOut := rfl
@[simp] theorem onCtx_notices (s : State) (k : Nat) (f : Ctx → Ctx) : (s.onCtx k f).notices = s.notices := rfl
@[simp] theorem onCtx_peerVecs (s : State) (k : Nat) (f : Ctx → Ctx) : (s.onCtx k f).peerVecs = s.peerVecs := rfl
@[simp] theorem onCtx_out (s : State) (k : Nat) (f : Ctx → Ctx) : (s.onCtx k f).out = s.out := rfl
@[simp] theorem onCtx_sessions (s : State) (k : Nat) (f : Ctx → Ctx) : (s.onCtx k f).sessions = s.sessions := rfl
@[simp] theorem onCtx_bootCount (s : State) (k : Nat) (f : Ctx → Ctx) : (s.onCtx k f).bootCount = s.bootCount := rfl
@[simp] theorem onCtx_reports (s : State) (k : Nat) (f : Ctx → Ctx) : (s.onCtx k f).reports = s.reports := rfl
@[simp] theorem onCtx_eccUncorrectable (s : State) (k : Nat) (f : Ctx → Ctx) : (s.onCtx k f).eccUncorrectable = s.eccUncorrectable := rfl
@[simp] theorem onCtx_eccCorrected (s : State) (k : Nat) (f : Ctx → Ctx) : (s.onCtx k f).eccCorrected = s.eccCorrected := rfl
@[simp] theorem onCtx_skipped (s : State) (k : Nat) (f : Ctx → Ctx) : (s.onCtx k f).skipped = s.skipped := rfl
@[simp] theorem onCtx_skipping (s : State) (k : Nat) (f : Ctx → Ctx) : (s.onCtx k f).skipping = s.skipping := rfl

/-! ## onSession -/

@[simp] theorem onSession_power (s : State) (n : Nat) (f : Session → Session) : (s.onSession n f).power = s.power := rfl
@[simp] theorem onSession_now (s : State) (n : Nat) (f : Session → Session) : (s.onSession n f).now = s.now := rfl
@[simp] theorem onSession_tick (s : State) (n : Nat) (f : Session → Session) : (s.onSession n f).tick = s.tick := rfl
@[simp] theorem onSession_agenda (s : State) (n : Nat) (f : Session → Session) : (s.onSession n f).agenda = s.agenda := rfl
@[simp] theorem onSession_order (s : State) (n : Nat) (f : Session → Session) : (s.onSession n f).order = s.order := rfl
@[simp] theorem onSession_misordered (s : State) (n : Nat) (f : Session → Session) : (s.onSession n f).misordered = s.misordered := rfl
@[simp] theorem onSession_cur (s : State) (n : Nat) (f : Session → Session) : (s.onSession n f).cur = s.cur := rfl
@[simp] theorem onSession_curCarrel (s : State) (n : Nat) (f : Session → Session) : (s.onSession n f).curCarrel = s.curCarrel := rfl
@[simp] theorem onSession_pkgNum (s : State) (n : Nat) (f : Session → Session) : (s.onSession n f).pkgNum = s.pkgNum := rfl
@[simp] theorem onSession_linksUp (s : State) (n : Nat) (f : Session → Session) : (s.onSession n f).linksUp = s.linksUp := rfl
@[simp] theorem onSession_carrelsHeld (s : State) (n : Nat) (f : Session → Session) : (s.onSession n f).carrelsHeld = s.carrelsHeld := rfl
@[simp] theorem onSession_sequencersHeld (s : State) (n : Nat) (f : Session → Session) : (s.onSession n f).sequencersHeld = s.sequencersHeld := rfl
@[simp] theorem onSession_hbm (s : State) (n : Nat) (f : Session → Session) : (s.onSession n f).hbm = s.hbm := rfl
@[simp] theorem onSession_hbmPoison (s : State) (n : Nat) (f : Session → Session) : (s.onSession n f).hbmPoison = s.hbmPoison := rfl
@[simp] theorem onSession_l2Dirty (s : State) (n : Nat) (f : Session → Session) : (s.onSession n f).l2Dirty = s.l2Dirty := rfl
@[simp] theorem onSession_host (s : State) (n : Nat) (f : Session → Session) : (s.onSession n f).host = s.host := rfl
@[simp] theorem onSession_cores (s : State) (n : Nat) (f : Session → Session) : (s.onSession n f).cores = s.cores := rfl
@[simp] theorem onSession_dies (s : State) (n : Nat) (f : Session → Session) : (s.onSession n f).dies = s.dies := rfl
@[simp] theorem onSession_launches (s : State) (n : Nat) (f : Session → Session) : (s.onSession n f).launches = s.launches := rfl
@[simp] theorem onSession_nextLaunch (s : State) (n : Nat) (f : Session → Session) : (s.onSession n f).nextLaunch = s.nextLaunch := rfl
@[simp] theorem onSession_teams (s : State) (n : Nat) (f : Session → Session) : (s.onSession n f).teams = s.teams := rfl
@[simp] theorem onSession_nextTeam (s : State) (n : Nat) (f : Session → Session) : (s.onSession n f).nextTeam = s.nextTeam := rfl
@[simp] theorem onSession_admitSeq (s : State) (n : Nat) (f : Session → Session) : (s.onSession n f).admitSeq = s.admitSeq := rfl
@[simp] theorem onSession_cmds (s : State) (n : Nat) (f : Session → Session) : (s.onSession n f).cmds = s.cmds := rfl
@[simp] theorem onSession_nextCmd (s : State) (n : Nat) (f : Session → Session) : (s.onSession n f).nextCmd = s.nextCmd := rfl
@[simp] theorem onSession_savedHolds (s : State) (n : Nat) (f : Session → Session) : (s.onSession n f).savedHolds = s.savedHolds := rfl
@[simp] theorem onSession_savedColls (s : State) (n : Nat) (f : Session → Session) : (s.onSession n f).savedColls = s.savedColls := rfl
@[simp] theorem onSession_leases (s : State) (n : Nat) (f : Session → Session) : (s.onSession n f).leases = s.leases := rfl
@[simp] theorem onSession_roots (s : State) (n : Nat) (f : Session → Session) : (s.onSession n f).roots = s.roots := rfl
@[simp] theorem onSession_ctxs (s : State) (n : Nat) (f : Session → Session) : (s.onSession n f).ctxs = s.ctxs := rfl
@[simp] theorem onSession_buckets (s : State) (n : Nat) (f : Session → Session) : (s.onSession n f).buckets = s.buckets := rfl
@[simp] theorem onSession_keys (s : State) (n : Nat) (f : Session → Session) : (s.onSession n f).keys = s.keys := rfl
@[simp] theorem onSession_keysUsed (s : State) (n : Nat) (f : Session → Session) : (s.onSession n f).keysUsed = s.keysUsed := rfl
@[simp] theorem onSession_frameKeys (s : State) (n : Nat) (f : Session → Session) : (s.onSession n f).frameKeys = s.frameKeys := rfl
@[simp] theorem onSession_nodes (s : State) (n : Nat) (f : Session → Session) : (s.onSession n f).nodes = s.nodes := rfl
@[simp] theorem onSession_comms (s : State) (n : Nat) (f : Session → Session) : (s.onSession n f).comms = s.comms := rfl
@[simp] theorem onSession_ports (s : State) (n : Nat) (f : Session → Session) : (s.onSession n f).ports = s.ports := rfl
@[simp] theorem onSession_peerOut (s : State) (n : Nat) (f : Session → Session) : (s.onSession n f).peerOut = s.peerOut := rfl
@[simp] theorem onSession_notices (s : State) (n : Nat) (f : Session → Session) : (s.onSession n f).notices = s.notices := rfl
@[simp] theorem onSession_peerVecs (s : State) (n : Nat) (f : Session → Session) : (s.onSession n f).peerVecs = s.peerVecs := rfl
@[simp] theorem onSession_out (s : State) (n : Nat) (f : Session → Session) : (s.onSession n f).out = s.out := rfl
@[simp] theorem onSession_bootCount (s : State) (n : Nat) (f : Session → Session) : (s.onSession n f).bootCount = s.bootCount := rfl
@[simp] theorem onSession_reports (s : State) (n : Nat) (f : Session → Session) : (s.onSession n f).reports = s.reports := rfl
@[simp] theorem onSession_eccUncorrectable (s : State) (n : Nat) (f : Session → Session) : (s.onSession n f).eccUncorrectable = s.eccUncorrectable := rfl
@[simp] theorem onSession_eccCorrected (s : State) (n : Nat) (f : Session → Session) : (s.onSession n f).eccCorrected = s.eccCorrected := rfl
@[simp] theorem onSession_skipped (s : State) (n : Nat) (f : Session → Session) : (s.onSession n f).skipped = s.skipped := rfl
@[simp] theorem onSession_skipping (s : State) (n : Nat) (f : Session → Session) : (s.onSession n f).skipping = s.skipping := rfl

/-! ## onPort -/

@[simp] theorem onPort_power (s : State) (p : Nat) (f : Port → Port) : (s.onPort p f).power = s.power := rfl
@[simp] theorem onPort_now (s : State) (p : Nat) (f : Port → Port) : (s.onPort p f).now = s.now := rfl
@[simp] theorem onPort_tick (s : State) (p : Nat) (f : Port → Port) : (s.onPort p f).tick = s.tick := rfl
@[simp] theorem onPort_agenda (s : State) (p : Nat) (f : Port → Port) : (s.onPort p f).agenda = s.agenda := rfl
@[simp] theorem onPort_order (s : State) (p : Nat) (f : Port → Port) : (s.onPort p f).order = s.order := rfl
@[simp] theorem onPort_misordered (s : State) (p : Nat) (f : Port → Port) : (s.onPort p f).misordered = s.misordered := rfl
@[simp] theorem onPort_cur (s : State) (p : Nat) (f : Port → Port) : (s.onPort p f).cur = s.cur := rfl
@[simp] theorem onPort_curCarrel (s : State) (p : Nat) (f : Port → Port) : (s.onPort p f).curCarrel = s.curCarrel := rfl
@[simp] theorem onPort_pkgNum (s : State) (p : Nat) (f : Port → Port) : (s.onPort p f).pkgNum = s.pkgNum := rfl
@[simp] theorem onPort_linksUp (s : State) (p : Nat) (f : Port → Port) : (s.onPort p f).linksUp = s.linksUp := rfl
@[simp] theorem onPort_carrelsHeld (s : State) (p : Nat) (f : Port → Port) : (s.onPort p f).carrelsHeld = s.carrelsHeld := rfl
@[simp] theorem onPort_sequencersHeld (s : State) (p : Nat) (f : Port → Port) : (s.onPort p f).sequencersHeld = s.sequencersHeld := rfl
@[simp] theorem onPort_hbm (s : State) (p : Nat) (f : Port → Port) : (s.onPort p f).hbm = s.hbm := rfl
@[simp] theorem onPort_hbmPoison (s : State) (p : Nat) (f : Port → Port) : (s.onPort p f).hbmPoison = s.hbmPoison := rfl
@[simp] theorem onPort_l2Dirty (s : State) (p : Nat) (f : Port → Port) : (s.onPort p f).l2Dirty = s.l2Dirty := rfl
@[simp] theorem onPort_host (s : State) (p : Nat) (f : Port → Port) : (s.onPort p f).host = s.host := rfl
@[simp] theorem onPort_cores (s : State) (p : Nat) (f : Port → Port) : (s.onPort p f).cores = s.cores := rfl
@[simp] theorem onPort_dies (s : State) (p : Nat) (f : Port → Port) : (s.onPort p f).dies = s.dies := rfl
@[simp] theorem onPort_launches (s : State) (p : Nat) (f : Port → Port) : (s.onPort p f).launches = s.launches := rfl
@[simp] theorem onPort_nextLaunch (s : State) (p : Nat) (f : Port → Port) : (s.onPort p f).nextLaunch = s.nextLaunch := rfl
@[simp] theorem onPort_teams (s : State) (p : Nat) (f : Port → Port) : (s.onPort p f).teams = s.teams := rfl
@[simp] theorem onPort_nextTeam (s : State) (p : Nat) (f : Port → Port) : (s.onPort p f).nextTeam = s.nextTeam := rfl
@[simp] theorem onPort_admitSeq (s : State) (p : Nat) (f : Port → Port) : (s.onPort p f).admitSeq = s.admitSeq := rfl
@[simp] theorem onPort_cmds (s : State) (p : Nat) (f : Port → Port) : (s.onPort p f).cmds = s.cmds := rfl
@[simp] theorem onPort_nextCmd (s : State) (p : Nat) (f : Port → Port) : (s.onPort p f).nextCmd = s.nextCmd := rfl
@[simp] theorem onPort_savedHolds (s : State) (p : Nat) (f : Port → Port) : (s.onPort p f).savedHolds = s.savedHolds := rfl
@[simp] theorem onPort_savedColls (s : State) (p : Nat) (f : Port → Port) : (s.onPort p f).savedColls = s.savedColls := rfl
@[simp] theorem onPort_leases (s : State) (p : Nat) (f : Port → Port) : (s.onPort p f).leases = s.leases := rfl
@[simp] theorem onPort_roots (s : State) (p : Nat) (f : Port → Port) : (s.onPort p f).roots = s.roots := rfl
@[simp] theorem onPort_ctxs (s : State) (p : Nat) (f : Port → Port) : (s.onPort p f).ctxs = s.ctxs := rfl
@[simp] theorem onPort_buckets (s : State) (p : Nat) (f : Port → Port) : (s.onPort p f).buckets = s.buckets := rfl
@[simp] theorem onPort_keys (s : State) (p : Nat) (f : Port → Port) : (s.onPort p f).keys = s.keys := rfl
@[simp] theorem onPort_keysUsed (s : State) (p : Nat) (f : Port → Port) : (s.onPort p f).keysUsed = s.keysUsed := rfl
@[simp] theorem onPort_frameKeys (s : State) (p : Nat) (f : Port → Port) : (s.onPort p f).frameKeys = s.frameKeys := rfl
@[simp] theorem onPort_nodes (s : State) (p : Nat) (f : Port → Port) : (s.onPort p f).nodes = s.nodes := rfl
@[simp] theorem onPort_comms (s : State) (p : Nat) (f : Port → Port) : (s.onPort p f).comms = s.comms := rfl
@[simp] theorem onPort_peerOut (s : State) (p : Nat) (f : Port → Port) : (s.onPort p f).peerOut = s.peerOut := rfl
@[simp] theorem onPort_notices (s : State) (p : Nat) (f : Port → Port) : (s.onPort p f).notices = s.notices := rfl
@[simp] theorem onPort_peerVecs (s : State) (p : Nat) (f : Port → Port) : (s.onPort p f).peerVecs = s.peerVecs := rfl
@[simp] theorem onPort_out (s : State) (p : Nat) (f : Port → Port) : (s.onPort p f).out = s.out := rfl
@[simp] theorem onPort_sessions (s : State) (p : Nat) (f : Port → Port) : (s.onPort p f).sessions = s.sessions := rfl
@[simp] theorem onPort_bootCount (s : State) (p : Nat) (f : Port → Port) : (s.onPort p f).bootCount = s.bootCount := rfl
@[simp] theorem onPort_reports (s : State) (p : Nat) (f : Port → Port) : (s.onPort p f).reports = s.reports := rfl
@[simp] theorem onPort_eccUncorrectable (s : State) (p : Nat) (f : Port → Port) : (s.onPort p f).eccUncorrectable = s.eccUncorrectable := rfl
@[simp] theorem onPort_eccCorrected (s : State) (p : Nat) (f : Port → Port) : (s.onPort p f).eccCorrected = s.eccCorrected := rfl
@[simp] theorem onPort_skipped (s : State) (p : Nat) (f : Port → Port) : (s.onPort p f).skipped = s.skipped := rfl
@[simp] theorem onPort_skipping (s : State) (p : Nat) (f : Port → Port) : (s.onPort p f).skipping = s.skipping := rfl

end Sys2Proof.Laws
end

