-- ==== Sys2Proof/Laws/Table.lean ====
section
/-! SUPPORT. Tables read back what was set, memories read back what was written and keep their canonical form, and the parts of the
state by name. -/

namespace Sys2Proof.Laws

open Sys2Proof.Machine

/-! ## Tables -/

@[simp] theorem tget_tset_same {α : Type} (t : Tbl α) (k : Nat) (x : α) : tget (tset t k x) k = some x := by
  induction t with
  | nil => simp [tset, tget]
  | cons e t ih =>
    obtain ⟨i, y⟩ := e
    simp only [tset]
    split
    · simp [tget]
    · split
      · simp [tget]
      · rename_i h; simp [tget, h, ih]

@[simp] theorem tget_tset_other {α : Type} (t : Tbl α) {k j : Nat} (x : α) (h : j ≠ k) : tget (tset t k x) j = tget t j := by
  induction t with
  | nil => simp [tset, tget, h.symm]
  | cons e t ih =>
    obtain ⟨i, y⟩ := e
    simp only [tset]
    split
    · simp [tget, h.symm]
    · split
      · rename_i h1; have : i = k := by simpa using h1
        subst this; simp [tget, h.symm]
      · simp only [tget, ih]

@[simp] theorem tgetD_tset_same {α : Type} (t : Tbl α) (k : Nat) (x d : α) : tgetD (tset t k x) k d = x := by
  simp [tgetD]

@[simp] theorem tgetD_tset_other {α : Type} (t : Tbl α) {k j : Nat} (x d : α) (h : j ≠ k) :
    tgetD (tset t k x) j d = tgetD t j d := by
  simp [tgetD, h]

/-! ## Memory -/

theorem memWf_weaken {n k : Nat} {m : Mem} (h : memWfFrom n m = true) (le : k ≤ n) : memWfFrom k m = true := by
  cases m with
  | nil => rfl
  | cons e m => obtain ⟨a, b⟩ := e; simp only [memWfFrom, Bool.and_eq_true, decide_eq_true_eq] at h ⊢; exact ⟨⟨by omega, h.1.2⟩, h.2⟩

theorem memCons_wf {n a : Nat} {b : Byte} {m : Mem} (h : memWfFrom (a + 1) m = true) (le : n ≤ a) :
    memWfFrom n (memCons a b m) = true := by
  unfold memCons
  split
  · exact memWf_weaken h (by omega)
  · rename_i hb; simp only [memWfFrom, Bool.and_eq_true, decide_eq_true_eq]
    exact ⟨⟨le, by simpa using hb⟩, h⟩

/-- A byte written keeps the canonical form. -/
theorem memWrite_wfFrom {n k : Nat} (m : Mem) (x : Byte) (h : memWfFrom n m = true) (le : n ≤ k) :
    memWfFrom n (memWrite m k x) = true := by
  induction m generalizing n with
  | nil => exact memCons_wf rfl le
  | cons e m ih =>
    obtain ⟨a, b⟩ := e
    have h' := h
    simp only [memWfFrom, Bool.and_eq_true, decide_eq_true_eq] at h
    simp only [memWrite]
    split
    · refine memCons_wf ?_ le
      simp only [memWfFrom, Bool.and_eq_true, decide_eq_true_eq]
      exact ⟨⟨by omega, h.1.2⟩, h.2⟩
    · split
      · rename_i h2; have : a = k := by simpa using h2
        subst this; exact memCons_wf h.2 le
      · rename_i h1 h2
        have : a ≠ k := by simpa using h2
        simp only [memWfFrom, Bool.and_eq_true, decide_eq_true_eq]
        exact ⟨h.1, ih h.2 (by omega)⟩

theorem memWrite_wf {m : Mem} (k : Nat) (x : Byte) (h : Memory.wf m = true) : Memory.wf (memWrite m k x) = true :=
  memWrite_wfFrom m x h (Nat.zero_le k)

theorem memWrites_wf {m : Mem} (k : Nat) (bs : List Byte) (h : Memory.wf m = true) : Memory.wf (memWrites m k bs) = true := by
  induction bs generalizing m k with
  | nil => exact h
  | cons b bs ih => exact ih (k + 1) (memWrite_wf k b h)

@[simp] theorem memRead_memCons_same (a : Nat) (b : Byte) (m : Mem) (h : memWfFrom (a + 1) m = true) :
    memRead (memCons a b m) a = b := by
  unfold memCons
  split
  · rename_i hb
    have : b = 0 := by simpa using hb
    subst this
    cases m with
    | nil => rfl
    | cons e m =>
      obtain ⟨i, y⟩ := e
      simp only [memWfFrom, Bool.and_eq_true, decide_eq_true_eq] at h
      simp only [memRead]
      have h1 : (i == a) = false := by simp; omega
      have h2 : a < i := by omega
      simp [h1, h2]
  · simp [memRead]

/-- Below the first cell every byte reads zero. -/
theorem memRead_below {m : Mem} {n k : Nat} (h : memWfFrom n m = true) (lt : k < n) : memRead m k = 0 := by
  cases m with
  | nil => rfl
  | cons e m =>
    obtain ⟨a, b⟩ := e
    simp only [memWfFrom, Bool.and_eq_true, decide_eq_true_eq] at h
    have h1 : (a == k) = false := by simp; omega
    have h2 : k < a := by omega
    simp [memRead, h1, h2]

theorem memRead_memCons_other {a k : Nat} (b : Byte) (m : Mem) (h : memWfFrom (a + 1) m = true) (ne : k ≠ a) :
    memRead (memCons a b m) k = memRead m k := by
  unfold memCons
  split
  · rfl
  · have h1 : (a == k) = false := by simp; omega
    simp only [memRead, h1, Bool.false_eq_true, if_false]
    split
    · rename_i lt; exact (memRead_below h (Nat.lt_succ_of_lt lt)).symm
    · rfl

/-- The byte written is the byte read. -/
theorem memRead_memWrite_same {n k : Nat} (m : Mem) (x : Byte) (h : memWfFrom n m = true) : memRead (memWrite m k x) k = x := by
  induction m generalizing n with
  | nil => exact memRead_memCons_same k x [] rfl
  | cons e m ih =>
    obtain ⟨a, b⟩ := e
    have hh := h
    simp only [memWfFrom, Bool.and_eq_true, decide_eq_true_eq] at h
    simp only [memWrite]
    split
    · refine memRead_memCons_same k x _ ?_
      simp only [memWfFrom, Bool.and_eq_true, decide_eq_true_eq]
      exact ⟨⟨by omega, h.1.2⟩, h.2⟩
    · split
      · rename_i h2; have : a = k := by simpa using h2
        subst this; exact memRead_memCons_same _ _ _ h.2
      · rename_i h1 h2
        have h2 : (a == k) = false := by simpa using h2
        simp only [memRead, h2, if_neg h1]
        exact ih h.2

/-- Every other byte reads as before. -/
theorem memRead_memWrite_other {n k j : Nat} (m : Mem) (x : Byte) (h : memWfFrom n m = true) (ne : j ≠ k) :
    memRead (memWrite m k x) j = memRead m j := by
  induction m generalizing n with
  | nil => exact memRead_memCons_other x [] rfl ne
  | cons e m ih =>
    obtain ⟨a, b⟩ := e
    simp only [memWfFrom, Bool.and_eq_true, decide_eq_true_eq] at h
    simp only [memWrite]
    split
    · refine memRead_memCons_other x _ ?_ ne
      simp only [memWfFrom, Bool.and_eq_true, decide_eq_true_eq]
      exact ⟨⟨by omega, h.1.2⟩, h.2⟩
    · split
      · rename_i h1 h2; have : a = k := by simpa using h2
        subst this
        rw [memRead_memCons_other x _ h.2 ne]
        have h3 : (a == j) = false := by simp; omega
        simp only [memRead, h3, Bool.false_eq_true, if_false]
        split
        · exact memRead_below h.2 (by omega)
        · rfl
      · simp only [memRead, ih h.2]

/-! ## Parts of the state -/

@[simp] theorem core_onCore_same (s : State) (c : Nat) (f : Core → Core) : (s.onCore c f).core c = f (s.core c) := by
  simp [State.onCore, State.setCore, State.core]
@[simp] theorem core_onCore_other (s : State) {c d : Nat} (f : Core → Core) (h : d ≠ c) : (s.onCore c f).core d = s.core d := by
  simp [State.onCore, State.setCore, State.core, h]
@[simp] theorem die_onDie_same (s : State) (d : Nat) (f : Die → Die) : (s.onDie d f).die d = f (s.die d) := by
  simp [State.onDie, State.die]
@[simp] theorem die_onDie_other (s : State) {d e : Nat} (f : Die → Die) (h : e ≠ d) : (s.onDie d f).die e = s.die e := by
  simp [State.onDie, State.die, h]
@[simp] theorem team_onTeam_same (s : State) (t : Nat) (f : Team → Team) : (s.onTeam t f).team t = f (s.team t) := by
  simp [State.onTeam, State.team]
@[simp] theorem team_onTeam_other (s : State) {t u : Nat} (f : Team → Team) (h : u ≠ t) : (s.onTeam t f).team u = s.team u := by
  simp [State.onTeam, State.team, h]
@[simp] theorem cmd_onCmd_same (s : State) (k : Nat) (f : Cmd → Cmd) : (s.onCmd k f).cmd k = f (s.cmd k) := by
  simp [State.onCmd, State.cmd]
@[simp] theorem cmd_onCmd_other (s : State) {k j : Nat} (f : Cmd → Cmd) (h : j ≠ k) : (s.onCmd k f).cmd j = s.cmd j := by
  simp [State.onCmd, State.cmd, h]
@[simp] theorem launch_onLaunch_same (s : State) (k : Nat) (f : Launch → Launch) : (s.onLaunch k f).launch k = f (s.launch k) := by
  simp [State.onLaunch, State.launch]
@[simp] theorem ctx_onCtx_same (s : State) (k : Nat) (f : Ctx → Ctx) : (s.onCtx k f).ctx k = f (s.ctx k) := by
  simp [State.onCtx, State.ctx]
@[simp] theorem session_onSession_same (s : State) (n : Nat) (f : Session → Session) : (s.onSession n f).session n = f (s.session n) := by
  simp [State.onSession, State.session]
@[simp] theorem port_onPort_same (s : State) (p : Nat) (f : Port → Port) : (s.onPort p f).port p = f (s.port p) := by
  simp [State.onPort, State.port]
@[simp] theorem wave_onWave_same (s : State) (c k : Nat) (f : Wave → Wave) : (s.onWave c k f).wave c k = f (s.wave c k) := by
  simp [State.onWave, State.wave, Core.onWave, Core.wave]
@[simp] theorem lane_onLane_same (s : State) (c : Nat) (r : LaneRef) (f : Lane → Lane) : (s.onLane c r f).lane c r = f (s.lane c r) := by
  simp [State.onLane, State.lane, Wave.onLane, Wave.lane]
@[simp] theorem carrel_onCarrel_same (s : State) (d c : Nat) (f : Carrel → Carrel) : (s.onCarrel d c f).carrel d c = f (s.carrel d c) := by
  simp only [State.onCarrel, State.carrel, die_onDie_same, tgetD_tset_same]
theorem carrel_onCarrel_other (s : State) {d c e b : Nat} (f : Carrel → Carrel) (h : (e, b) ≠ (d, c)) :
    (s.onCarrel d c f).carrel e b = s.carrel e b := by
  by_cases hd : e = d
  · subst hd
    have : b ≠ c := fun hb => h (by simp [hb])
    simp [State.onCarrel, State.carrel, this]
  · simp [State.onCarrel, State.carrel, hd]
theorem lane_onLane_other (s : State) {c d : Nat} {r q : LaneRef} (f : Lane → Lane) (h : (d, q) ≠ (c, r)) :
    (s.onLane c r f).lane d q = s.lane d q := by
  by_cases hc : d = c
  · subst hc
    by_cases hs : q.slot = r.slot
    · have hl : q.lane ≠ r.lane := by
        intro hl; apply h
        obtain ⟨qs, ql⟩ := q; obtain ⟨rs, rl⟩ := r
        simp_all
      simp [State.onLane, State.lane, State.onWave, State.wave, Core.onWave, Core.wave, Wave.onLane, Wave.lane, hs, hl]
    · simp [State.onLane, State.lane, State.onWave, State.wave, Core.onWave, Core.wave, hs]
  · simp [State.onLane, State.lane, State.onWave, State.wave, hc]

/-- A fold over a list of updates that each keep a property keeps it. -/
theorem forEach_keeps {α : Type} (P : State → Prop) (l : List α) (f : State → α → State) (s : State) (h : P s)
    (step : ∀ s a, a ∈ l → P s → P (f s a)) : P (forEach l s f) := by
  induction l generalizing s with
  | nil => exact h
  | cons a l ih =>
    exact ih (f s a) (step s a (List.mem_cons_self ..) h) fun s b hb hs => step s b (List.mem_cons_of_mem _ hb) hs

@[simp] theorem forEach_nil {α : Type} (s : State) (f : State → α → State) : forEach [] s f = s := rfl
@[simp] theorem forEach_cons {α : Type} (a : α) (l : List α) (s : State) (f : State → α → State) :
    forEach (a :: l) s f = forEach l (f s a) f := rfl

end Sys2Proof.Laws
end

