-- ==== Sys2Proof/Laws/Words.lean ====
section
/-! SUPPORT. What the operations that every Dolmin word shares can do: the writes of a word, its way to the next word, and the whole
of a word that acts lane by lane. -/

namespace Sys2Proof.Safety

open Sys2Proof.Machine

theorem Beside.refl (core : Nat) (s : State) : Beside core s s := ⟨rfl, fun _ _ => rfl, (by intro; rfl), rfl, (by intro; rfl), (by intro; rfl)⟩

theorem Beside.trans {core : Nat} {s t u : State} (a : Beside core s t) (b : Beside core t u) : Beside core s u :=
  ⟨b.state.trans a.state, fun c h => (b.others c h).trans (a.others c h), fun k => (b.teams k).trans (a.teams k),
    b.itself.trans a.itself, fun k => (b.waves k).trans (a.waves k), fun r => (b.lanes r).trans (a.lanes r)⟩

end Sys2Proof.Safety

namespace Sys2Proof.Laws

open Sys2Proof.Machine Sys2Proof.Safety

/-! ## What stays the same -/

theorem wave_onLane (s : State) (c : Nat) (r : LaneRef) (f : Lane → Lane) (slot : Nat) :
    (s.onLane c r f).wave c slot = if slot = r.slot then (s.wave c slot).onLane r.lane f else s.wave c slot := by
  by_cases h : slot = r.slot
  · subst h; simp [State.onLane, State.onWave, State.wave, Core.onWave, Core.wave]
  · simp [State.onLane, State.onWave, State.wave, Core.onWave, Core.wave, h]

theorem lane_onLane (s : State) (c : Nat) (r q : LaneRef) (f : Lane → Lane) :
    (s.onLane c r f).lane c q = if q = r then f (s.lane c q) else s.lane c q := by
  by_cases h : q = r
  · subst h; simp
  · rw [if_neg h]; exact lane_onLane_other s f (by simp [h])

theorem beside_onLane (s : State) (c : Nat) (r : LaneRef) (f : Lane → Lane) (h : ∀ l, laneRest (f l) = laneRest l) :
    Beside c s (s.onLane c r f) := by
  refine ⟨rfl, fun d hd => ?_, (by intro; rfl), ?_, fun slot => ?_, fun q => ?_⟩
  · simp [State.onLane, State.onWave, hd]
  · simp [State.onLane, State.onWave, Core.onWave, coreRest]
  · rw [wave_onLane]; split <;> simp [waveRest, Wave.onLane]
  · rw [lane_onLane]; split <;> simp [h]

theorem lane_onWave (s : State) (c slot : Nat) (f : Wave → Wave) (h : ∀ w, (f w).lanes = w.lanes) (r : LaneRef) :
    (s.onWave c slot f).lane c r = s.lane c r := by
  by_cases e : r.slot = slot
  · simp [State.lane, State.onWave, State.wave, Core.onWave, Core.wave, Wave.lane, e, h]
  · simp [State.lane, State.onWave, State.wave, Core.onWave, Core.wave, e]

theorem wave_onWave (s : State) (c slot k : Nat) (f : Wave → Wave) :
    (s.onWave c slot f).wave c k = if k = slot then f (s.wave c k) else s.wave c k := by
  by_cases e : k = slot
  · subst e; simp
  · simp [State.onWave, State.wave, Core.onWave, Core.wave, e]

theorem beside_onWave (s : State) (c slot : Nat) (f : Wave → Wave) (h : ∀ w, waveRest (f w) = waveRest w)
    (hl : ∀ w, (f w).lanes = w.lanes) : Beside c s (s.onWave c slot f) := by
  refine ⟨rfl, fun d hd => ?_, (by intro; rfl), ?_, fun k => ?_, fun q => ?_⟩
  · simp [State.onWave, hd]
  · simp [State.onWave, Core.onWave, coreRest]
  · rw [wave_onWave]; split <;> simp [h]
  · rw [lane_onWave s c slot f hl]

theorem wave_onCore (s : State) (c : Nat) (f : Core → Core) (h : ∀ k, (f k).waves = k.waves) (slot : Nat) :
    (s.onCore c f).wave c slot = s.wave c slot := by
  simp [State.wave, Core.wave, h]

theorem lane_onCore (s : State) (c : Nat) (f : Core → Core) (h : ∀ k, (f k).waves = k.waves) (r : LaneRef) :
    (s.onCore c f).lane c r = s.lane c r := by
  simp [State.lane, wave_onCore s c f h]

theorem beside_onCore (s : State) (c : Nat) (f : Core → Core) (h : ∀ k, coreRest (f k) = coreRest k)
    (hw : ∀ k, (f k).waves = k.waves) : Beside c s (s.onCore c f) := by
  refine ⟨rfl, fun d hd => ?_, (by intro; rfl), ?_, fun k => ?_, fun q => ?_⟩
  · simp [hd]
  · simp [h]
  · rw [wave_onCore s c f hw]
  · rw [lane_onCore s c f hw]

theorem countEv_cores (s : State) (t ev n : Nat) : (countEv s t ev n).cores = s.cores := by
  unfold countEv; split <;> rfl

theorem core_of_cores {s t : State} (h : t.cores = s.cores) (c : Nat) : t.core c = s.core c := by simp [State.core, h]

theorem lane_countEv (s : State) (t ev n c : Nat) (r : LaneRef) : (countEv s t ev n).lane c r = s.lane c r := by
  simp [State.lane, State.wave, core_of_cores (countEv_cores s t ev n)]

theorem wave_countEv (s : State) (t ev n c k : Nat) : (countEv s t ev n).wave c k = s.wave c k := by
  simp [State.wave, core_of_cores (countEv_cores s t ev n)]

theorem beside_countEv (core : Nat) (s : State) (t ev n : Nat) : Beside core s (countEv s t ev n) := by
  have hc := core_of_cores (countEv_cores s t ev n)
  refine ⟨?_, fun c _ => hc c, fun k => ?_, by rw [hc], fun k => by rw [wave_countEv], fun r => by rw [lane_countEv]⟩
  · unfold countEv; split <;> rfl
  · unfold countEv
    split
    · by_cases h : k = t
      · subst h; simp [teamRest]
      · simp [h]
    · rfl

theorem beside_forEach {α : Type} (core : Nat) (l : List α) (f : State → α → State) (s : State)
    (h : ∀ u a, Beside core u (f u a)) : Beside core s (forEach l s f) := by
  induction l generalizing s with
  | nil => exact Beside.refl core s
  | cons a l ih => exact (h s a).trans (ih (f s a))

/-! ## Writes -/

theorem dropPending_core (s : State) (core salt : Nat) (p : Dest → Bool) :
    Beside core s (dropPending s core salt p) := by
  unfold dropPending
  split
  · exact beside_onCore _ _ _ (by intro; rfl) (by intro; rfl)
  · exact Beside.refl core s

theorem lane_dropPending (s : State) (core salt : Nat) (p : Dest → Bool) (r : LaneRef) :
    (dropPending s core salt p).lane core r = s.lane core r := by
  unfold dropPending
  split
  · exact lane_onCore s core _ (by intro; rfl) r
  · rfl

theorem wave_dropPending (s : State) (core salt : Nat) (p : Dest → Bool) (k : Nat) :
    (dropPending s core salt p).wave core k = s.wave core k := by
  unfold dropPending
  split
  · exact wave_onCore s core _ (by intro; rfl) k
  · rfl

theorem beside_write (s : State) (core : Nat) (d : Dest) : Beside core s (d.write s core) := by
  cases d with
  | v r k x => exact (beside_onLane s core r _ (by intro; rfl)).trans (dropPending_core ..)
  | s slot k x => exact (beside_onWave s core slot _ (by intro; rfl) (by intro; rfl)).trans (dropPending_core ..)
  | p r k b =>
    simp only [Dest.write, writeP]
    split
    · exact Beside.refl core s
    · rename_i h
      refine Beside.trans ?_ (dropPending_core ..)
      simp only [putP, h]
      exact beside_onLane s core r _ (by intro; rfl)

/-- A write counts no rejection. -/
theorem rejects_write (s : State) (core : Nat) (d : Dest) (k : Nat) :
    ((d.write s core).wave core k).rejects = (s.wave core k).rejects := by
  cases d with
  | v q j x => simp only [Dest.write, writeV, wave_dropPending, putV, wave_onLane]; split <;> simp [Wave.onLane]
  | s sl j x => simp only [Dest.write, writeS, wave_dropPending, putS, wave_onWave]; split <;> rfl
  | p q j b =>
    simp only [Dest.write, writeP]
    split
    · rfl
    · rename_i h
      simp only [wave_dropPending, putP, h, if_false, Bool.false_eq_true, wave_onLane]; split <;> simp [Wave.onLane]

/-- A lane's place in the code is no register: a write leaves it. -/
theorem place_write (s : State) (core : Nat) (d : Dest) (r : LaneRef) :
    ((d.write s core).lane core r).pc = (s.lane core r).pc ∧ ((d.write s core).lane core r).clause = (s.lane core r).clause ∧
      ((d.write s core).lane core r).g = (s.lane core r).g := by
  cases d with
  | v q k x =>
    simp only [Dest.write, writeV, lane_dropPending, putV, lane_onLane]; split <;> simp
  | s slot k x =>
    simp only [Dest.write, writeS, lane_dropPending, putS]
    rw [lane_onWave]
    · simp
    · intro; rfl
  | p q k b =>
    simp only [Dest.write, writeP]
    split
    · simp
    · rename_i h
      simp only [lane_dropPending, putP, h, if_false, Bool.false_eq_true, lane_onLane]; split <;> simp

theorem vreg_write (s : State) (core : Nat) (d : Dest) (r : LaneRef) (k : Nat) (h : destKey d ≠ (0, r, k)) :
    vreg (d.write s core) core r k = vreg s core r k := by
  cases d with
  | v q j x =>
    simp only [vreg, Dest.write, writeV, lane_dropPending, putV, lane_onLane]
    split
    · rename_i e; subst e
      have : k ≠ j := fun e => h (by simp [destKey, e])
      simp [this]
    · rfl
  | s slot j x =>
    simp only [vreg, Dest.write, writeS, lane_dropPending, putS]
    rw [lane_onWave]
    intro; rfl
  | p q j b =>
    simp only [vreg, Dest.write, writeP]
    split
    · rfl
    · rename_i h'
      simp only [lane_dropPending, putP, h', if_false, Bool.false_eq_true, lane_onLane]; split <;> rfl

theorem sreg_write (s : State) (core : Nat) (d : Dest) (slot k : Nat) (h : destKey d ≠ (1, ⟨slot, 0⟩, k)) :
    sreg (d.write s core) core slot k = sreg s core slot k := by
  cases d with
  | v q j x =>
    simp only [sreg, Dest.write, writeV, wave_dropPending, putV, wave_onLane]
    split <;> simp [Wave.onLane]
  | s sl j x =>
    simp only [sreg, Dest.write, writeS, wave_dropPending, putS, wave_onWave]
    split
    · rename_i e; subst e
      have : k ≠ j := fun e => h (by simp [destKey, e])
      simp [this]
    · rfl
  | p q j b =>
    simp only [sreg, Dest.write, writeP]
    split
    · rfl
    · rename_i h'
      simp only [wave_dropPending, putP, h', if_false, Bool.false_eq_true, wave_onLane]; split <;> simp [Wave.onLane]

theorem bit_cleared (p : BitVec 8) (j k : Nat) (b : Bool) (h : k ≠ j) :
    ((p &&& ~~~ (1#8 <<< j)) ||| (if b then 1#8 <<< j else 0)).getLsbD k = p.getLsbD k := by
  by_cases hk : k < 8
  · have hs : (1#8 <<< j).getLsbD k = false := by
      simp only [BitVec.getLsbD_shiftLeft, hk]
      by_cases hj : k < j
      · simp [hj]
      · have : k - j ≠ 0 := by omega
        simp [this]
    have hm : (1#8 <<< j)[k] = false := by simpa only [BitVec.getLsbD_eq_getElem hk] using hs
    generalize 1#8 <<< j = m at hm
    cases b <;> simp [hm, hk]
  · have h8 : 8 ≤ k := by omega
    rw [BitVec.getLsbD_of_ge _ _ h8, BitVec.getLsbD_of_ge _ _ h8]

theorem preg_write (s : State) (core : Nat) (d : Dest) (r : LaneRef) (k : Nat) (h : destKey d ≠ (2, r, k)) :
    preg (d.write s core) core r k = preg s core r k := by
  cases d with
  | v q j x =>
    simp only [preg, Dest.write, writeV, lane_dropPending, putV, lane_onLane]; split <;> simp
  | s slot j x =>
    simp only [preg, Dest.write, writeS, lane_dropPending, putS]
    rw [lane_onWave]
    intro; rfl
  | p q j b =>
    simp only [preg, Dest.write, writeP]
    split
    · rfl
    · rename_i h'
      simp only [lane_dropPending, putP, h', if_false, Bool.false_eq_true, lane_onLane]
      split
      · rename_i e; subst e
        have : k ≠ j := fun e => h (by simp [destKey, e])
        exact bit_cleared _ j k b this
      · rfl

theorem bit_set (p : BitVec 8) (j : Nat) (b : Bool) (h : j < 8) :
    ((p &&& ~~~ (1#8 <<< j)) ||| (if b then 1#8 <<< j else 0)).getLsbD j = b := by
  cases b <;> simp [BitVec.getLsbD_or, BitVec.getLsbD_and, BitVec.getLsbD_not, BitVec.getLsbD_shiftLeft, h]

/-- Every predicate destination names p0 to p7. -/
def destOk : Dest → Prop
  | .p _ k _ => k < 8
  | _ => True

theorem holds_write (s : State) (core : Nat) (d : Dest) (h : destOk d) : holds (d.write s core) core d := by
  cases d with
  | v r k x => simp [holds, vreg, Dest.write, writeV, lane_dropPending, putV]
  | s slot k x => simp [holds, sreg, Dest.write, writeS, wave_dropPending, putS]
  | p r k b =>
    by_cases h7 : k = 7
    · exact Or.inl h7
    · right
      have h7' : ¬ (k == 7) = true := by simpa using h7
      simp only [preg, Dest.write, writeP, h7', if_false, Bool.false_eq_true, lane_dropPending, putP, lane_onLane_same]
      exact bit_set _ k b h

theorem holds_other (s : State) (core : Nat) (d e : Dest) (h : destKey e ≠ destKey d) (hd : holds s core d) :
    holds (e.write s core) core d := by
  cases d with
  | v r k x => exact (vreg_write s core e r k h).trans hd
  | s slot k x => exact (sreg_write s core e slot k h).trans hd
  | p r k b =>
    rcases hd with h7 | hb
    · exact Or.inl h7
    · exact Or.inr ((preg_write s core e r k h).trans hb)

/-- The writes of a word one after another. -/
abbrev writeAll (s : State) (core : Nat) (ds : List Dest) : State := forEach ds s fun s d => d.write s core

theorem holds_later (s : State) (core : Nat) (d : Dest) (post : List Dest) (h : ∀ x ∈ post, destKey x ≠ destKey d)
    (hd : holds s core d) : holds (writeAll s core post) core d := by
  induction post generalizing s with
  | nil => exact hd
  | cons e post ih =>
    exact ih (e.write s core) (fun x hx => h x (List.mem_cons_of_mem _ hx)) (holds_other s core d e (h e (List.mem_cons_self ..)) hd)

theorem holds_writeAll (s : State) (core : Nat) (ds : List Dest) (ok : ∀ d ∈ ds, destOk d) (pre : List Dest) (d : Dest)
    (post : List Dest) (e : ds = pre ++ d :: post) (last : ∀ x ∈ post, destKey x ≠ destKey d) :
    holds (writeAll s core ds) core d := by
  subst e
  have : writeAll s core (pre ++ d :: post) = writeAll (d.write (writeAll s core pre) core) core post := by
    simp [writeAll, forEach, List.foldl_append]
  rw [this]
  exact holds_later _ core d post last (holds_write _ core d (ok d (by simp)))

theorem onlyWrites_writeAll (s : State) (core : Nat) (ds : List Dest) : OnlyWrites core s (writeAll s core ds) ds := by
  induction ds generalizing s with
  | nil => exact ⟨fun _ _ _ => rfl, fun _ _ _ => rfl, fun _ _ _ => rfl⟩
  | cons d ds ih =>
    have k := ih (d.write s core)
    refine ⟨fun r i h => ?_, fun r i h => ?_, fun r i h => ?_⟩
    · exact (k.v r i fun x hx => h x (List.mem_cons_of_mem _ hx)).trans (vreg_write s core d r i (h d (List.mem_cons_self ..)))
    · exact (k.s r i fun x hx => h x (List.mem_cons_of_mem _ hx)).trans (sreg_write s core d r i (h d (List.mem_cons_self ..)))
    · exact (k.p r i fun x hx => h x (List.mem_cons_of_mem _ hx)).trans (preg_write s core d r i (h d (List.mem_cons_self ..)))

theorem beside_writeAll (s : State) (core : Nat) (ds : List Dest) : Beside core s (writeAll s core ds) :=
  beside_forEach core ds _ s fun u d => beside_write u core d

theorem place_writeAll (s : State) (core : Nat) (ds : List Dest) (r : LaneRef) :
    ((writeAll s core ds).lane core r).pc = (s.lane core r).pc ∧ ((writeAll s core ds).lane core r).clause = (s.lane core r).clause ∧
      ((writeAll s core ds).lane core r).g = (s.lane core r).g := by
  induction ds generalizing s with
  | nil => simp
  | cons d ds ih =>
    have a := ih (d.write s core)
    have b := place_write s core d r
    exact ⟨a.1.trans b.1, a.2.1.trans b.2.1, a.2.2.trans b.2.2⟩

/-! ## Generators, outstanding results, the way on -/

/-- An update of each lane of a list: the lanes of the list are updated once each, the others not. -/
theorem lane_forEach (c : Nat) (rs : List LaneRef) (F : LaneRef → Lane → Lane) (s : State) (nd : rs.Nodup) (q : LaneRef) :
    (forEach rs s fun s r => s.onLane c r (F r)).lane c q = if q ∈ rs then F q (s.lane c q) else s.lane c q := by
  induction rs generalizing s with
  | nil => simp
  | cons r rs ih =>
    have hr : r ∉ rs := (List.nodup_cons.mp nd).1
    rw [forEach_cons, ih _ (List.nodup_cons.mp nd).2, lane_onLane]
    by_cases hq : q = r
    · subst hq; simp [hr]
    · simp [hq]

theorem beside_setGens (e : Env) (ws : LaneAt → List Wr) (s : State) : Beside e.core s (setGens e ws s) := by
  unfold setGens
  refine beside_forEach e.core e.act _ s fun u l => ?_
  split
  · exact beside_onLane u e.core l.2 _ (by intro; rfl)
  · exact Beside.refl _ _

/-- A property of a lane that the updates of the list keep. -/
theorem lane_keeps {α β : Type} (c : Nat) (l : List α) (f : State → α → State) (s : State) (q : LaneRef) (get : Lane → β)
    (h : ∀ u a, get ((f u a).lane c q) = get (u.lane c q)) : get ((forEach l s f).lane c q) = get (s.lane c q) := by
  induction l generalizing s with
  | nil => rfl
  | cons a l ih => exact (ih (f s a)).trans (h s a)

theorem wave_keeps {α β : Type} (c : Nat) (l : List α) (f : State → α → State) (s : State) (k : Nat) (get : Wave → β)
    (h : ∀ u a, get ((f u a).wave c k) = get (u.wave c k)) : get ((forEach l s f).wave c k) = get (s.wave c k) := by
  induction l generalizing s with
  | nil => rfl
  | cons a l ih => exact (ih (f s a)).trans (h s a)

theorem lane_setGens {β : Type} (e : Env) (ws : LaneAt → List Wr) (s : State) (q : LaneRef) (get : Lane → β)
    (h : ∀ (l : Lane) (x : W32), get { l with g := x } = get l) : get ((setGens e ws s).lane e.core q) = get (s.lane e.core q) := by
  refine lane_keeps e.core e.act _ s q get fun u l => ?_
  split
  · rw [lane_onLane]; split <;> simp [h]
  · rfl

theorem sreg_setGens (e : Env) (ws : LaneAt → List Wr) (s : State) (slot k : Nat) :
    sreg (setGens e ws s) e.core slot k = sreg s e.core slot k := by
  refine wave_keeps e.core e.act _ s slot (fun w => tgetD w.s k 0) fun u l => ?_
  split
  · rw [wave_onLane]; split <;> simp [Wave.onLane]
  · rfl

/-- The generators that the lanes of a list leave (R40). -/
theorem gens_kept (core : Nat) (ws : LaneAt → List Wr) (act : List LaneAt) (s : State) (r : LaneRef)
    (h : ∀ l ∈ act, l.2 = r → (ws l).filterMap Wr.newGen = []) :
    ((forEach act s fun s l => match (ws l).filterMap Wr.newGen with
      | g :: _ => s.onLane core l.2 fun x => { x with g := g }
      | [] => s).lane core r).g = (s.lane core r).g := by
  induction act generalizing s with
  | nil => rfl
  | cons a act ih =>
    rw [forEach_cons, ih _ fun l hl => h l (List.mem_cons_of_mem _ hl)]
    split
    · rename_i x rest hx
      rw [lane_onLane]
      by_cases hr : r = a.2
      · simp [h a (List.mem_cons_self ..) hr.symm] at hx
      · simp [hr]
    · rfl

theorem gens_left (core : Nat) (ws : LaneAt → List Wr) (act : List LaneAt) (s : State) (nd : (act.map (·.2)).Nodup) (l : LaneAt)
    (x : W32) (rest : List W32) (hl : l ∈ act) (hx : (ws l).filterMap Wr.newGen = x :: rest) :
    ((forEach act s fun s l => match (ws l).filterMap Wr.newGen with
      | g :: _ => s.onLane core l.2 fun x => { x with g := g }
      | [] => s).lane core l.2).g = x := by
  induction act generalizing s with
  | nil => simp at hl
  | cons a act ih =>
    obtain ⟨ha, nd'⟩ := List.nodup_cons.mp nd
    rw [forEach_cons]
    rcases List.mem_cons.mp hl with rfl | hm
    · rw [gens_kept core ws act _ l.2 fun b hb e => absurd (by simpa only [e] using List.mem_map_of_mem (f := fun x : LaneAt => x.2) hb) ha]
      simp [hx]
    · exact ih _ nd' hm

theorem gen_setGens (e : Env) (ws : LaneAt → List Wr) (s : State) :
    (∀ r, (∀ l ∈ e.act, l.2 = r → (ws l).filterMap Wr.newGen = []) →
      ((setGens e ws s).lane e.core r).g = (s.lane e.core r).g) ∧
    ((e.act.map (·.2)).Nodup → ∀ l x rest, l ∈ e.act → (ws l).filterMap Wr.newGen = x :: rest →
      ((setGens e ws s).lane e.core l.2).g = x) :=
  ⟨fun r h => gens_kept e.core ws e.act s r h, fun nd l x rest hl hx => gens_left e.core ws e.act s nd l x rest hl hx⟩

theorem beside_addPend (s : State) (core : Nat) (f : Form) (lanes : List LaneRef) (ds : List Dest) (loads : List LoadWait)
    (samples : List RdSample) (held : Nat) : Beside core s (addPend s core f lanes ds loads samples held).2 := by
  simp only [addPend, addPendFrom, State.freshId]
  refine Beside.trans (beside_onCore s core (fun k => { k with nextId := k.nextId + 1 }) (by intro; rfl) (by intro; rfl)) ?_
  refine Beside.trans ?_ (beside_onCore _ core (fun c => { c with pends := c.pends ++ [_] }) (by intro; rfl) (by intro; rfl))
  exact beside_forEach core _ _ _ fun u (m : LaneRef × Nat) =>
    beside_onLane u core m.1 (fun l => l.mark m.2) (by intro; rfl)

theorem lane_addPend {β : Type} (s : State) (core : Nat) (f : Form) (lanes : List LaneRef) (ds : List Dest) (loads : List LoadWait)
    (samples : List RdSample) (held : Nat) (q : LaneRef) (get : Lane → β)
    (h : ∀ (l : Lane) (x : Tbl Nat), get { l with flags := x } = get l) :
    get ((addPend s core f lanes ds loads samples held).2.lane core q) = get (s.lane core q) := by
  unfold addPend addPendFrom State.freshId
  simp only
  rw [lane_onCore _ core (fun c => { c with pends := _ }) (by intro; rfl)]
  refine (lane_keeps core _ _ _ q get fun u m => ?_).trans ?_
  · rw [lane_onLane]; split <;> simp [h, Lane.mark]
  · rw [lane_onCore]
    intro; rfl

theorem sreg_addPend (s : State) (core : Nat) (f : Form) (lanes : List LaneRef) (ds : List Dest) (loads : List LoadWait)
    (samples : List RdSample) (held slot k : Nat) :
    sreg (addPend s core f lanes ds loads samples held).2 core slot k = sreg s core slot k := by
  unfold addPend addPendFrom State.freshId sreg
  simp only
  rw [wave_onCore _ core (fun c => { c with pends := _ }) (by intro; rfl)]
  refine (wave_keeps core _ _ _ slot (fun w => tgetD w.s k 0) fun u m => ?_).trans ?_
  · rw [wave_onLane]; split <;> simp [Wave.onLane]
  · rw [wave_onCore]
    intro; rfl

theorem rejects_setGens (e : Env) (ws : LaneAt → List Wr) (s : State) (slot : Nat) :
    ((setGens e ws s).wave e.core slot).rejects = (s.wave e.core slot).rejects := by
  refine wave_keeps e.core e.act _ s slot (·.rejects) fun u l => ?_
  split
  · rw [wave_onLane]; split <;> simp [Wave.onLane]
  · rfl

theorem rejects_addPend (s : State) (core : Nat) (f : Form) (lanes : List LaneRef) (ds : List Dest) (loads : List LoadWait)
    (samples : List RdSample) (held slot : Nat) :
    ((addPend s core f lanes ds loads samples held).2.wave core slot).rejects = (s.wave core slot).rejects := by
  unfold addPend addPendFrom State.freshId
  simp only
  rw [wave_onCore _ core (fun c => { c with pends := _ }) (by intro; rfl)]
  refine (wave_keeps core _ _ _ slot (·.rejects) fun u m => ?_).trans ?_
  · rw [wave_onLane]; split <;> simp [Wave.onLane]
  · rw [wave_onCore]
    intro; rfl

theorem pends_addPend (s : State) (core : Nat) (f : Form) (lanes : List LaneRef) (ds : List Dest) (loads : List LoadWait)
    (samples : List RdSample) (held : Nat) :
    ∃ p ∈ ((addPend s core f lanes ds loads samples held).2.core core).pends,
      p.dests = ds ∧ p.lanes = lanes ∧ p.loads = loads ∧ p.samples = samples ∧ p.held = held := by
  unfold addPend addPendFrom
  simp only [core_onCore_same]
  exact ⟨_, List.mem_append_right _ (List.mem_singleton.mpr rfl), rfl, rfl, rfl, rfl, rfl⟩

theorem beside_setGroup (s : State) (g : Cur) (lanes : List LaneRef) : Beside g.core s (setGroup s g lanes) := by
  unfold setGroup
  split
  · exact beside_onWave s g.core g.slot _ (by intro; rfl) (by intro; rfl)
  · refine beside_onCore s g.core _ (fun k => ?_) (by intro; rfl)
    simp only [coreRest, List.map_map]
    congr 1
    apply List.map_congr_left
    intro x _
    simp only [Function.comp]
    split <;> rfl

theorem lane_setGroup (s : State) (g : Cur) (lanes : List LaneRef) (r : LaneRef) :
    (setGroup s g lanes).lane g.core r = s.lane g.core r := by
  unfold setGroup
  split
  · exact lane_onWave s g.core g.slot _ (by intro; rfl) r
  · exact lane_onCore s g.core _ (by intro; rfl) r

theorem sreg_setGroup (s : State) (g : Cur) (lanes : List LaneRef) (slot k : Nat) :
    sreg (setGroup s g lanes) g.core slot k = sreg s g.core slot k := by
  unfold setGroup sreg
  split
  · rw [wave_onWave]; split <;> rfl
  · rw [wave_onCore]
    intro; rfl

theorem pends_setGroup (s : State) (g : Cur) (lanes : List LaneRef) :
    ((setGroup s g lanes).core g.core).pends = (s.core g.core).pends := by
  unfold setGroup
  split
  · simp [State.onWave, Core.onWave]
  · simp

theorem beside_wordIssued (s : State) (g : Cur) (stay : List LaneRef) : Beside g.core s (wordIssued s g stay) := by
  unfold wordIssued
  refine Beside.trans (beside_forEach g.core _ _ s fun u r => ?_) (beside_setGroup _ g _)
  refine beside_onLane u g.core r _ fun l => ?_
  split <;> rfl

/-- Where the lanes of a core stand after a word has issued for a group (R129, R130). -/
theorem lane_wordIssued (s : State) (g : Cur) (stay : List LaneRef) (nd : g.refs.Nodup) (q : LaneRef) :
    (wordIssued s g stay).lane g.core q =
      if q ∈ g.refs then
        (if stay.contains q then { s.lane g.core q with age := 0, groupAge := 0 }
        else { (s.lane g.core q).next with age := 0, groupAge := 0 })
      else s.lane g.core q := by
  unfold wordIssued
  simp only [lane_setGroup]
  exact lane_forEach g.core g.refs (fun r l => if stay.contains r then { l with age := 0, groupAge := 0 }
    else { l.next with age := 0, groupAge := 0 }) s nd q

theorem sreg_wordIssued (s : State) (g : Cur) (stay : List LaneRef) (slot k : Nat) :
    sreg (wordIssued s g stay) g.core slot k = sreg s g.core slot k := by
  unfold wordIssued
  rw [sreg_setGroup]
  refine wave_keeps g.core _ _ s slot (fun w => tgetD w.s k 0) fun u r => ?_
  rw [wave_onLane]; split <;> simp [Wave.onLane]

theorem pends_onLane (s : State) (c : Nat) (r : LaneRef) (f : Lane → Lane) :
    ((s.onLane c r f).core c).pends = (s.core c).pends := by simp [State.onLane, State.onWave, Core.onWave]

theorem pends_wordIssued (s : State) (g : Cur) (stay : List LaneRef) :
    ((wordIssued s g stay).core g.core).pends = (s.core g.core).pends := by
  unfold wordIssued
  rw [pends_setGroup]
  generalize g.refs = rs
  induction rs generalizing s with
  | nil => rfl
  | cons r rs ih => rw [forEach_cons, ih, pends_onLane]

theorem rejects_setGroup (s : State) (g : Cur) (lanes : List LaneRef) (slot : Nat) :
    ((setGroup s g lanes).wave g.core slot).rejects = (s.wave g.core slot).rejects := by
  unfold setGroup
  split
  · rw [wave_onWave]; split <;> rfl
  · rw [wave_onCore]
    intro; rfl

theorem rejects_wordIssued (s : State) (g : Cur) (stay : List LaneRef) (slot : Nat) :
    ((wordIssued s g stay).wave g.core slot).rejects = (s.wave g.core slot).rejects := by
  unfold wordIssued
  rw [rejects_setGroup]
  refine wave_keeps g.core _ _ s slot (·.rejects) fun u r => ?_
  rw [wave_onLane]; split <;> simp [Wave.onLane]

/-! ## No rejection -/

theorem countRejects_none (s : State) (c : Nat) (group : List LaneRef) :
    countRejects s c group [] =
      forEach (group.map (·.slot)).eraseDups s fun s slot => s.onWave c slot fun w => { w with rejects := 0 } := by
  simp [countRejects]

theorem rejects_forEach (c : Nat) (ks : List Nat) (s : State) (slot : Nat) :
    ((forEach ks s fun s k => s.onWave c k fun w => { w with rejects := 0 }).wave c slot).rejects =
      if slot ∈ ks then 0 else (s.wave c slot).rejects := by
  induction ks generalizing s with
  | nil => simp
  | cons k ks ih =>
    rw [forEach_cons, ih, wave_onWave]
    by_cases h : slot = k
    · subst h; simp
    · simp [h]

theorem rejects_none (s : State) (c : Nat) (group : List LaneRef) (slot : Nat) :
    ((countRejects s c group []).wave c slot).rejects = if slot ∈ group.map (·.slot) then 0 else (s.wave c slot).rejects := by
  rw [countRejects_none, rejects_forEach]
  simp only [List.mem_eraseDups]

theorem beside_unrejected (s : State) (c : Nat) (group : List LaneRef) : Beside c s (countRejects s c group []) := by
  rw [countRejects_none]
  exact beside_forEach c _ _ s fun u k => beside_onWave u c k _ (by intro; rfl) (by intro; rfl)

theorem lane_unrejected (s : State) (c : Nat) (group : List LaneRef) (q : LaneRef) :
    (countRejects s c group []).lane c q = s.lane c q := by
  rw [countRejects_none]
  exact lane_keeps c _ _ s q id fun u k => lane_onWave u c k _ (by intro; rfl) q

theorem sreg_unrejected (s : State) (c : Nat) (group : List LaneRef) (slot k : Nat) :
    sreg (countRejects s c group []) c slot k = sreg s c slot k := by
  rw [countRejects_none]
  refine wave_keeps c _ _ s slot (fun w => tgetD w.s k 0) fun u j => ?_
  rw [wave_onWave]; split <;> rfl

theorem pends_onWave (s : State) (c k : Nat) (f : Wave → Wave) : ((s.onWave c k f).core c).pends = (s.core c).pends := by
  simp [State.onWave, Core.onWave]

theorem pends_unrejected (s : State) (c : Nat) (group : List LaneRef) :
    ((countRejects s c group []).core c).pends = (s.core c).pends := by
  rw [countRejects_none]
  generalize (group.map (·.slot)).eraseDups = ks
  induction ks generalizing s with
  | nil => rfl
  | cons k ks ih => rw [forEach_cons, ih, pends_onWave]

theorem issued_plain (s : State) (g : Cur) (stay : List LaneRef) {opc : Nat} (h : mayReject opc = false) :
    issued opc s g stay = wordIssued (countRejects s g.core g.refs []) g stay := by simp [issued, h]

theorem issued_access (s : State) (g : Cur) (stay : List LaneRef) {opc : Nat} (h : mayReject opc = true) :
    issued opc s g stay = wordIssued s g stay := by simp [issued, h]

/-! ## Words -/

/-- A word that issues does what its body says (R18, R20, R128, R131, R270). -/
theorem issueWord_body {s : State} {g : Cur} {opc : Nat} {f : Form} {e : Env} (h : Issues s g opc f e) (body : Env → Res) :
    issueWord opc f s g body = match body e with
      | .done s2 stay => wordDone opc s g (putOutcome e opc f s2) stay
      | .trap c origin tag => takeTrap s g c origin tag
      | .stop s2 => s2 := by
  have hfull : (contributing s g f.guard).filter (fun l => (s.lane g.core l.2).flagFull f.fset) = [] := by
    simpa using fun a b ha => h.room (a, b) ha
  have hclean : ((contributing s g f.guard).any fun l => readsPoison s g.core opc f l.2) = false := by
    simpa using fun a b ha => h.clean (a, b) ha
  have hne : (contributing s g f.guard).isEmpty = false := by
    simpa using h.lanes
  have hgl : g.lanes.isEmpty = false := by
    cases hl : g.lanes with
    | nil => exact absurd (by simp [contributing, hl]) h.lanes
    | cons => rfl
  have hall (ls : List LaneAt) : (ls.filter fun l => !([] : List LaneRef).contains l.2) = ls := by simp
  have hlater : (if f.popsSource (opSpec opc f.mod) = true then otherGrants s g (contributing s g f.guard) else []) = [] := by
    split
    · exact h.alike ‹_›
    · rfl
  have hop := h.operand
  rw [h.act] at hop
  have he : ({ s := e.s, g := g, act := contributing s g f.guard, pop := e.pop, nb := e.nb } : Env) = e := by
    rw [← h.act, ← h.group]
  unfold issueWord
  simp only [h.checks, hfull, List.map_nil, forEach_nil, hall, hlater, hgl, hclean, hne, if_false, Bool.false_eq_true]
  rw [hop]
  simp only [he, wordDone]
  all_goals rfl

/-- A word that issues and whose body completes. -/
theorem runWord_done {s : State} {g : Cur} {opc : Nat} {f : Form} {e : Env} (h : Issues s g opc f e) (body : Env → Res)
    {s2 : State} {stay : List LaneRef} (hb : body e = .done s2 stay) :
    runWord opc f s body = .next (wordDone opc s g (putOutcome e opc f s2) stay) := by
  simp [runWord, h.cur, issueWord_body h, hb]

/-- A word that issues and whose body traps (R27). -/
theorem runWord_trap {s : State} {g : Cur} {opc : Nat} {f : Form} {e : Env} (h : Issues s g opc f e) (body : Env → Res)
    {c : Nat} {origin : List LaneRef} {tag : LaneRef → W32} (hb : body e = .trap c origin tag) :
    runWord opc f s body = .next (takeTrap s g c origin tag) := by
  simp [runWord, h.cur, issueWord_body h, hb]

/-- A word whose body completes wherever `ok` holds. -/
theorem does_of_runWord {i : Instr} {opc : Nat} {f : Form} {ok : Env → Prop} {after : Env → State} {stay : Env → List LaneRef}
    (body : Env → Res) (hi : ∀ s, exec i s = runWord opc f s body) (hb : ∀ e, ok e → body e = .done (after e) (stay e)) :
    Does i opc f ok after stay := fun s _ e h hok => (hi s).trans (runWord_done h body (hb e hok))

/-- A word whose body traps wherever `bad` holds. -/
theorem traps_of_runWord {i : Instr} {opc : Nat} {f : Form} {bad : Env → Prop} {cause : Nat} {origin : Env → List LaneRef}
    {tag : Env → LaneRef → W32} (body : Env → Res) (hi : ∀ s, exec i s = runWord opc f s body)
    (hb : ∀ e, bad e → body e = .trap cause (origin e) (tag e)) : Traps i opc f bad cause origin tag :=
  fun s _ e h hbad => (hi s).trans (runWord_trap h body (hb e hbad))

/-- A word that names a destination, SEED, and VTOP have its outcome predicate written with its results. -/
theorem putOutcome_written {e : Env} {opc : Nat} {f : Form} {s : State}
    (hd : (opSpec opc f.mod).d ≠ .none ∨ opc = 0xDE ∨ opc = 0x4B) (hl : writesLater opc = false) : putOutcome e opc f s = s := by
  unfold putOutcome
  rcases hd with hd | hd | hd
  · simp [hd, hl]
  · simp [hd, show writesLater 0xDE = false from rfl]
  · simp [hd, show writesLater 0x4B = false from rfl]

theorem dests_ok (r : LaneRef) (b : Bool) (w : Wr) : ∀ d ∈ w.dests r b, destOk d := by
  intro d hd
  have many : ∀ (o : Opnd) (xs : List W32), d ∈ (match o with
      | .v n => (numbered n.toNat xs).map fun (e : Nat × W32) => Dest.v r e.1 e.2
      | .s n => if b then (numbered n.toNat xs).map fun (e : Nat × W32) => Dest.s r.slot e.1 e.2 else []
      | _ => []) → destOk d := by
    intro o xs h
    cases o with
    | v n => simp only [List.mem_map] at h; obtain ⟨a, _, rfl⟩ := h; trivial
    | s n =>
      simp only at h
      split at h
      · simp only [List.mem_map] at h; obtain ⟨a, _, rfl⟩ := h; trivial
      · simp at h
    | _ => simp at h
  cases w with
  | w32 o x => exact many o _ hd
  | w64 o x => exact many o _ hd
  | group o xs => exact many o _ hd
  | gen g => simp [Wr.dests] at hd
  | pr o x =>
    cases o with
    | p n => simp only [Wr.dests, List.mem_singleton] at hd; subst hd; exact n.isLt
    | _ => simp [Wr.dests] at hd

theorem envDests_ok (e : Env) (ws : LaneAt → List Wr) : ∀ d ∈ e.dests ws, destOk d := by
  intro d hd
  simp only [Env.dests, List.mem_flatMap] at hd
  obtain ⟨l, _, w, _, hw⟩ := hd
  exact dests_ok _ _ w d hw

theorem act_nodup {s : State} {g : Cur} {guard : BitVec 4} (h : g.refs.Nodup) :
    ((contributing s g guard).map (·.2)).Nodup :=
  List.Nodup.sublist (List.Sublist.map _ List.filter_sublist) h

/-- A word that acts lane by lane gives its results, and changes nothing else. -/
theorem gives_of_laneWord {i : Instr} {opc : Nat} {f : Form} {ws : Env → LaneAt → List Wr}
    (hi : ∀ s, exec i s = laneWord opc f s ws) (hd : (opSpec opc f.mod).d ≠ .none ∨ opc = 0xDE ∨ opc = 0x4B) (hl : writesLater opc = false)
    (hr : mayReject opc = false) : Gives i opc f ws := by
  intro s g e h
  have hc : e.core = g.core := by simp [Env.core, h.group]
  have run := runWord_done h (fun e => .done (commit e (f.isLong opc) f (ws e)) []) rfl
  rw [putOutcome_written hd hl] at run
  refine ⟨_, (hi s).trans run, ?_⟩
  have nd := h.distinct
  have gensB : Beside g.core e.s (setGens e (ws e) e.s) := hc ▸ beside_setGens e (ws e) e.s
  have commitB : Beside g.core e.s (commit e (f.isLong opc) f (ws e)) := by
    unfold commit
    split
    · exact gensB.trans (hc ▸ beside_addPend ..)
    · exact gensB.trans (hc ▸ beside_writeAll ..)
  have place : ∀ q, ((commit e (f.isLong opc) f (ws e)).lane g.core q).pc = (e.s.lane g.core q).pc ∧
      ((commit e (f.isLong opc) f (ws e)).lane g.core q).clause = (e.s.lane g.core q).clause ∧
      ((commit e (f.isLong opc) f (ws e)).lane g.core q).g = ((setGens e (ws e) e.s).lane g.core q).g := by
    intro q
    have g1 := lane_setGens e (ws e) e.s q (·.pc) fun _ _ => rfl
    have g2 := lane_setGens e (ws e) e.s q (·.clause) fun _ _ => rfl
    rw [hc] at g1 g2
    unfold commit
    split
    · rw [hc]
      refine ⟨(lane_addPend _ g.core f _ _ _ _ _ q (·.pc) fun _ _ => rfl).trans g1,
        (lane_addPend _ g.core f _ _ _ _ _ q (·.clause) fun _ _ => rfl).trans g2,
        lane_addPend _ g.core f _ _ _ _ _ q (·.g) fun _ _ => rfl⟩
    · rw [hc]
      have p := place_writeAll (setGens e (ws e) e.s) g.core (e.dests (ws e)) q
      exact ⟨p.1.trans g1, p.2.1.trans g2, p.2.2⟩
  have laneDone : ∀ q, (wordDone opc s g (commit e (f.isLong opc) f (ws e)) []).lane g.core q =
      if q ∈ g.refs then { ((commit e (f.isLong opc) f (ws e)).lane g.core q).next with age := 0, groupAge := 0 }
      else (commit e (f.isLong opc) f (ws e)).lane g.core q := by
    intro q
    simp only [wordDone, issued_plain _ g [] hr, lane_countEv, lane_wordIssued _ g [] nd, lane_unrejected]
    simp
  have sDone : ∀ slot k, sreg (wordDone opc s g (commit e (f.isLong opc) f (ws e)) []) g.core slot k =
      sreg (commit e (f.isLong opc) f (ws e)) g.core slot k := by
    intro slot k
    simp only [sreg, wordDone, issued_plain _ g [] hr, wave_countEv]
    exact (sreg_wordIssued _ g [] slot k).trans (sreg_unrejected ..)
  have vDone : ∀ r k, vreg (wordDone opc s g (commit e (f.isLong opc) f (ws e)) []) g.core r k =
      vreg (commit e (f.isLong opc) f (ws e)) g.core r k := by
    intro r k; simp only [vreg, laneDone]; split <;> simp [Lane.next]
  have pDone : ∀ r k, preg (wordDone opc s g (commit e (f.isLong opc) f (ws e)) []) g.core r k =
      preg (commit e (f.isLong opc) f (ws e)) g.core r k := by
    intro r k; simp only [preg, laneDone]; split <;> simp [Lane.next]
  have holdsDone : ∀ d, holds (commit e (f.isLong opc) f (ws e)) g.core d →
      holds (wordDone opc s g (commit e (f.isLong opc) f (ws e)) []) g.core d := by
    intro d hd
    cases d with
    | v r k x => exact (vDone r k).trans hd
    | s slot k x => exact (sDone slot k).trans hd
    | p r k b => exact hd.imp id fun hb => (pDone r k).trans hb
  have rejectsC : ∀ slot, ((commit e (f.isLong opc) f (ws e)).wave g.core slot).rejects = (e.s.wave g.core slot).rejects := by
    intro slot
    have r := rejects_setGens e (ws e) e.s slot
    rw [hc] at r
    unfold commit
    split
    · rw [hc]; exact (rejects_addPend ..).trans r
    · rw [hc]; exact (wave_keeps g.core _ _ _ slot (·.rejects) fun u d => rejects_write u g.core d slot).trans r
  have gens : OnlyWrites g.core e.s (setGens e (ws e) e.s) [] := by
    refine ⟨fun r k _ => ?_, fun slot k _ => ?_, fun r k _ => ?_⟩
    · have := lane_setGens e (ws e) e.s r (fun l => tgetD l.v k 0) fun _ _ => rfl
      rw [hc] at this; exact this
    · have := sreg_setGens e (ws e) e.s slot k
      rw [hc] at this; exact this
    · have := lane_setGens e (ws e) e.s r (fun l => l.p.getLsbD k) fun _ _ => rfl
      rw [hc] at this; exact this
  refine ⟨?_, ?_, ?_, ?_, ?_, ?_⟩
  · -- the results
    unfold Written
    split
    · rename_i long
      have : ((wordDone opc s g (commit e (f.isLong opc) f (ws e)) []).core g.core).pends =
          ((commit e (f.isLong opc) f (ws e)).core g.core).pends := by
        simp only [wordDone, issued_plain _ g [] hr, core_of_cores (countEv_cores ..), pends_wordIssued, pends_unrejected]
      rw [this]
      simp only [commit, long, if_true, hc]
      obtain ⟨p, hp, hds, -⟩ := pends_addPend (setGens e (ws e) e.s) g.core f (e.act.map (·.2)) (e.dests (ws e)) [] [] 0
      exact ⟨p, hp, hds⟩
    · rename_i short
      intro pre d post eq last
      apply holdsDone
      have := holds_writeAll (setGens e (ws e) e.s) g.core (e.dests (ws e)) (envDests_ok e (ws e)) pre d post eq last
      simpa only [commit, short, if_false, Bool.false_eq_true, hc] using this
  · -- no other register
    by_cases long : f.isLong opc = true
    · have c : commit e (f.isLong opc) f (ws e) =
          (addPend (setGens e (ws e) e.s) g.core f (e.act.map (·.2)) (e.dests (ws e)) [] [] 0).2 := by
        simp only [commit, long, if_true, hc]
      refine ⟨fun r k _ => ?_, fun slot k _ => ?_, fun r k _ => ?_⟩
      · rw [vDone, c]
        exact (lane_addPend _ g.core f _ _ _ _ _ r (fun l => tgetD l.v k 0) fun _ _ => rfl).trans (gens.v r k (by simp))
      · rw [sDone, c]
        exact (sreg_addPend ..).trans (gens.s slot k (by simp))
      · rw [pDone, c]
        exact (lane_addPend _ g.core f _ _ _ _ _ r (fun l => l.p.getLsbD k) fun _ _ => rfl).trans (gens.p r k (by simp))
    · have c : commit e (f.isLong opc) f (ws e) = writeAll (setGens e (ws e) e.s) g.core (e.dests (ws e)) := by
        simp only [commit, long, if_false, Bool.false_eq_true, hc]
      have w := onlyWrites_writeAll (setGens e (ws e) e.s) g.core (e.dests (ws e))
      simp only [long, if_false, Bool.false_eq_true]
      simp only [long] at c vDone sDone pDone
      refine ⟨fun r k h => ?_, fun slot k h => ?_, fun r k h => ?_⟩
      · rw [vDone, c]; exact (w.v r k h).trans (gens.v r k (by simp))
      · rw [sDone, c]; exact (w.s slot k h).trans (gens.s slot k (by simp))
      · rw [pDone, c]; exact (w.p r k h).trans (gens.p r k (by simp))
  · simp only [wordDone, issued_plain _ g [] hr]
    exact commitB.trans ((beside_unrejected ..).trans ((beside_wordIssued _ g []).trans ((beside_countEv ..).trans (beside_countEv ..))))
  · refine ⟨fun r hr => ?_, fun r hr => ?_⟩
    · rw [laneDone, if_pos hr]; simp [Lane.next, (place r).1]
    · rw [laneDone, if_neg hr]; exact ⟨(place r).1, (place r).2.1⟩
  · intro slot
    simp only [wordDone, issued_plain _ g [] hr, wave_countEv, rejects_wordIssued, rejects_none]
    split
    · rfl
    · exact rejectsC slot
  · have gs := gen_setGens e (ws e) e.s
    have hgen : ∀ q, ((wordDone opc s g (commit e (f.isLong opc) f (ws e)) []).lane g.core q).g =
        ((setGens e (ws e) e.s).lane g.core q).g := by
      intro q
      rw [laneDone]; split <;> simp [Lane.next, (place q).2.2]
    rw [hc] at gs
    refine ⟨fun r hr => ?_, fun l x rest hl hx => ?_⟩
    · rw [hc, hgen]; exact gs.1 r hr
    · rw [hc, hgen]; exact gs.2 (by rw [h.act]; exact act_nodup nd) l x rest hl hx

end Sys2Proof.Laws
end

