-- ==== Sys2Proof/Laws/Local.lean ====
section
/-! SUPPORT. What accesses of the scratchpad can do (R193, R195, R199, R205), and the words that make them. -/

namespace Sys2Proof.Laws

open Sys2Proof.Machine Sys2Proof.Safety

/-! ## Parts -/

theorem tget_map {α : Type} (t : Tbl α) (g : Nat × α → Nat × α) (hk : ∀ e, (g e).1 = e.1) (k : Nat) :
    tget (t.map g) k = (tget t k).map fun x => (g (k, x)).2 := by
  induction t with
  | nil => rfl
  | cons e t ih =>
    obtain ⟨i, x⟩ := e
    have hg : g (i, x) = (i, (g (i, x)).2) := Prod.ext (hk _) rfl
    rw [List.map_cons, hg]
    simp only [tget]
    by_cases h : i = k
    · subst h; simp
    · simp [h, ih]

theorem tgetD_map {α : Type} (t : Tbl α) (g : Nat × α → Nat × α) (hk : ∀ e, (g e).1 = e.1) (k : Nat) (d : α)
    (hd : (g (k, d)).2 = d) : tgetD (t.map g) k d = (g (k, tgetD t k d)).2 := by
  unfold tgetD
  rw [tget_map t g hk]
  cases tget t k <;> simp [hd]

theorem beside_local_refl (core T : Nat) (s : State) : BesideLocal core T s s :=
  ⟨rfl, fun _ _ => rfl, fun _ _ => rfl, rfl, rfl, fun _ => rfl, fun _ => rfl⟩

theorem beside_local_trans {core T : Nat} {s t u : State} (a : BesideLocal core T s t) (b : BesideLocal core T t u) :
    BesideLocal core T s u :=
  ⟨b.state.trans a.state, fun c h => (b.others c h).trans (a.others c h), fun k h => (b.teams k h).trans (a.teams k h),
    b.team.trans a.team, b.itself.trans a.itself, fun k => (b.waves k).trans (a.waves k), fun r => (b.lanes r).trans (a.lanes r)⟩

theorem beside_local_of {core T : Nat} {s t : State} (h : Beside core s t) : BesideLocal core T s t :=
  ⟨h.state, h.others, fun k _ => h.teams k, by rw [h.teams T], h.itself, fun k => by rw [h.waves k], fun r => by rw [h.lanes r]⟩

/-! ## Monitors -/

/-- A lane whose monitor may have fired. -/
def firedLane (lines : List Nat) (l : Lane) : Lane :=
  match l.lmon with
  | .armed n => if lines.contains n then { l with lmon := .fired } else l
  | _ => l

theorem firedLane_rest (lines : List Nat) (l : Lane) : firedLane lines l = { l with lmon := (firedLane lines l).lmon } := by
  unfold firedLane; split
  · split <;> rfl
  · rfl

theorem wave_fireMonitors (s : State) (core t : Nat) (lines : List Nat) (slot : Nat) :
    (fireMonitors s core t lines).wave core slot =
      if (s.wave core slot).team = t then
        { s.wave core slot with lanes := (s.wave core slot).lanes.map fun l => (l.1, firedLane lines l.2) }
      else s.wave core slot := by
  have key : ∀ l : Nat × Lane, (match l.2.lmon with
      | .armed n => if lines.contains n then (l.1, { l.2 with lmon := .fired }) else l
      | _ => l) = (l.1, firedLane lines l.2) := by
    intro l
    unfold firedLane
    split
    · split <;> rfl
    · rfl
  unfold fireMonitors
  simp only [State.wave, core_onCore_same, Core.wave]
  rw [tgetD_map _ _ (by intro e; split <;> rfl)]
  · by_cases h : (tgetD (s.core core).waves slot default).team = t
    · simp only [h, bne_self_eq_false, Bool.false_eq_true, if_false, if_true]
      congr 1
      exact List.map_congr_left fun l _ => key l
    · simp [h]
  · split <;> rfl

theorem lane_fireMonitors (s : State) (core t : Nat) (lines : List Nat) (r : LaneRef) :
    (fireMonitors s core t lines).lane core r =
      { s.lane core r with lmon := ((fireMonitors s core t lines).lane core r).lmon } := by
  have : (fireMonitors s core t lines).lane core r = s.lane core r ∨
      (fireMonitors s core t lines).lane core r = firedLane lines (s.lane core r) := by
    simp only [State.lane, wave_fireMonitors]
    split
    · right
      simp only [Wave.lane]
      rw [tgetD_map _ _ (by intro e; rfl)]
      rfl
    · left; rfl
  rcases this with h | h
  · rw [h]
  · rw [h]; exact firedLane_rest lines _

theorem fireMonitors_core (s : State) (core t : Nat) (lines : List Nat) :
    ∃ ws, (fireMonitors s core t lines) = s.onCore core fun c => { c with waves := ws } := ⟨_, rfl⟩

/-! ## Accesses -/

/-- What accesses have made of a state: nothing but the scratchpad, the monitors on it and the destinations of the
outstanding word they belong to. -/
structure Made (core T id : Nat) (u t : State) (ds : List Dest) : Prop where
  beside : BesideLocal core T u t
  lanes : ∀ r, t.lane core r = { u.lane core r with lmon := (t.lane core r).lmon }
  sregs : ∀ slot, (t.wave core slot).s = (u.wave core slot).s
  pends : (t.core core).pends = (u.core core).pends.map fun p => if p.id = id then { p with dests := p.dests ++ ds } else p
  poison : ∀ n ∈ (t.team T).scratchPoison, n ∈ (u.team T).scratchPoison

theorem Made.refl (core T id : Nat) (u : State) : Made core T id u u [] :=
  ⟨beside_local_refl _ _ _, fun _ => rfl, fun _ => rfl, by simp, fun _ h => h⟩

theorem Made.trans {core T id : Nat} {u t v : State} {a b : List Dest} (h : Made core T id u t a) (k : Made core T id t v b) :
    Made core T id u v (a ++ b) := by
  refine ⟨beside_local_trans h.beside k.beside, fun r => ?_, fun slot => (k.sregs slot).trans (h.sregs slot), ?_,
    fun n hn => h.poison n (k.poison n hn)⟩
  · rw [k.lanes r, h.lanes r]
  · rw [k.pends, h.pends, List.map_map]
    apply List.map_congr_left
    intro p _
    simp only [Function.comp]
    by_cases e : p.id = id <;> simp [e]

theorem made_onPend (core T id : Nat) (s : State) (ds : List Dest) :
    Made core T id s (onPend s core id fun p => { p with dests := p.dests ++ ds }) ds := by
  unfold onPend
  refine ⟨beside_local_of (beside_onCore _ _ _ (by intro; rfl) (by intro; rfl)), fun r => ?_, fun slot => ?_, ?_, fun n h => h⟩
  · rw [lane_onCore s core (fun c => { c with pends := _ }) (by intro; rfl)]
  · rw [wave_onCore s core (fun c => { c with pends := _ }) (by intro; rfl)]
  · simp

theorem made_scratchWrite (core T id : Nat) (s : State) (home : (s.team T).core = core) (a : Nat) (bs : List Byte) :
    Made core T id s (scratchWrite s T a bs) [] ∧ ((scratchWrite s T a bs).team T).scratch = memWrites (s.team T).scratch a bs := by
  unfold scratchWrite
  simp only [home]
  generalize hu : (s.onTeam T fun x => { x with
    scratch := memWrites x.scratch a bs
    scratchPoison := unpoison x.scratchPoison a bs.length }) = u
  have hcore : ∀ c, u.core c = s.core c := fun c => by subst hu; rfl
  have hlane : ∀ c r, u.lane c r = s.lane c r := fun c r => by subst hu; rfl
  have hwave : ∀ c r, u.wave c r = s.wave c r := fun c r => by subst hu; rfl
  have hfw : ∀ slot, waveRest ((fireMonitors u core T (linesOf a bs.length)).wave core slot) = waveRest (u.wave core slot) := by
    intro slot; rw [wave_fireMonitors]; split <;> simp [waveRest]
  have hteam : ∀ k, (fireMonitors u core T (linesOf a bs.length)).team k = u.team k := fun _ => rfl
  refine ⟨⟨⟨?_, ?_, ?_, ?_, ?_, ?_, ?_⟩, ?_, ?_, ?_, ?_⟩, ?_⟩
  · subst hu; rfl
  · intro c hc; rw [← hcore c]; exact core_onCore_other u _ hc
  · intro k hk; rw [hteam]; subst hu; rw [team_onTeam_other _ _ hk]
  · rw [hteam]; subst hu; rw [team_onTeam_same]; rfl
  · rw [← hcore core]; simp [fireMonitors, coreRest]
  · intro slot; rw [hfw, hwave]
  · intro r; rw [lane_fireMonitors, hlane]; rfl
  · intro r; rw [lane_fireMonitors, hlane]
  · intro slot; rw [wave_fireMonitors, hwave]; split <;> rfl
  · rw [← hcore core]; simp [fireMonitors]
  · intro n hn
    rw [hteam] at hn; subst hu; rw [team_onTeam_same] at hn
    exact (List.mem_filter.mp hn).1
  · rw [hteam]; subst hu; rw [team_onTeam_same]

theorem landLoad_full (s : State) (core asid : Nat) (a : Access) (bs : List Byte) :
    landLoad s core asid a (bs.map some) =
      onPend s core a.pend fun p => { p with dests := p.dests ++ loadDests a.r a.writer a.shape bs } := by
  have h1 : (bs.map some).all Option.isSome = true := by simp
  have h2 : (bs.map some).filterMap (id : Option Byte → Option Byte) = bs := by simp
  simp only [landLoad, h1, if_true, h2]

/-- The part of an access that a step of the scratchpad gives the destinations. -/
def givenBy (m : Mem) (a : Access) : List Dest :=
  if a.kind = 1 then [] else loadDests a.r a.writer a.shape (memReads m a.addr a.size)

theorem scratchStep_snd (x : Mem × List Dest) (a : Access) : (scratchStep x a).2 = x.2 ++ givenBy x.1 a := by
  unfold scratchStep givenBy
  by_cases h0 : a.kind = 0
  · simp [h0]
  · by_cases h1 : a.kind = 1 <;> simp [h0, h1]

theorem scratchStep_fst (m : Mem) (d d' : List Dest) (a : Access) : (scratchStep (m, d) a).1 = (scratchStep (m, d') a).1 := by
  unfold scratchStep; simp only; split
  · rfl
  · split <;> rfl

/-- One access of the scratchpad: a load, a store or an atomic. -/
theorem performLocal_scratch (s : State) (core T asid : Nat) (a : Access) (sp : a.space = 0) (k : a.kind ≤ 2)
    (home : (s.team T).core = core)
    (clean : a.kind ≠ 1 → ∀ n ∈ linesOf a.addr a.size, n ∉ (s.team T).scratchPoison) :
    ∃ t, performLocal s core T asid a = .ok t ∧ Made core T a.pend s t (givenBy (s.team T).scratch a) ∧
      (t.team T).scratch = (scratchStep ((s.team T).scratch, []) a).1 := by
  have hk : a.kind = 0 ∨ a.kind = 1 ∨ a.kind = 2 := by omega
  have hp : a.kind ≠ 1 → (linesOf a.addr a.size).any (s.team T).scratchPoison.contains = false := by
    intro h1
    rw [List.any_eq_false]
    intro n hn
    simpa using clean h1 n hn
  rcases hk with h | h | h
  · have h1 : a.kind ≠ 1 := by omega
    refine ⟨onPend s core a.pend fun p => { p with dests := p.dests ++ givenBy (s.team T).scratch a }, ?_, ?_, ?_⟩
    · simp [performLocal, sp, h, hp h1, landLoad_full, givenBy]
    · exact made_onPend core T a.pend s _
    · simp [scratchStep, h]; rfl
  · have w := made_scratchWrite core T a.pend s home a.addr a.data
    refine ⟨scratchWrite s T a.addr a.data, ?_, ?_, ?_⟩
    · simp [performLocal, sp, h]
    · simpa [givenBy, h] using w.1
    · simpa [scratchStep, h] using w.2
  · have h1 : a.kind ≠ 1 := by omega
    have w := made_scratchWrite core T a.pend s home a.addr
      (leBytes a.size (atomicNew a.op (leNat (memReads (s.team T).scratch a.addr a.size)) (leNat a.data) (leNat a.cmp)))
    refine ⟨_, ?_, Made.trans w.1 (made_onPend core T a.pend _ (givenBy (s.team T).scratch a)), ?_⟩
    · simp [performLocal, sp, h, hp h1, landLoad_full, givenBy]
    · have : ∀ (u : State) (id : Nat) (g : Pend → Pend), ((onPend u core id g).team T).scratch = (u.team T).scratch := fun _ _ _ => rfl
      rw [this, w.2]; simp [scratchStep, h]

/-- The accesses of a lane one after another. -/
theorem performLocals_scratch (as : List Access) (s : State) (core T asid id : Nat) (home : (s.team T).core = core)
    (hs : ∀ a ∈ as, a.space = 0 ∧ a.kind ≤ 2 ∧ a.pend = id)
    (clean : ∀ a ∈ as, a.kind ≠ 1 → ∀ n ∈ linesOf a.addr a.size, n ∉ (s.team T).scratchPoison) :
    ∃ t, performLocals as s core T asid = .ok t ∧
      Made core T id s t (as.foldl scratchStep ((s.team T).scratch, [])).2 ∧
      (t.team T).scratch = (as.foldl scratchStep ((s.team T).scratch, [])).1 := by
  induction as generalizing s with
  | nil => exact ⟨s, rfl, Made.refl _ _ _ _, rfl⟩
  | cons a as ih =>
    obtain ⟨sp, k, hid⟩ := hs a (List.mem_cons_self ..)
    obtain ⟨t1, h1, m1, c1⟩ := performLocal_scratch s core T asid a sp k home (clean a (List.mem_cons_self ..))
    have home1 : (t1.team T).core = core := by
      have := congrArg Team.core m1.beside.team
      exact (show (t1.team T).core = (s.team T).core from this).trans home
    obtain ⟨t, h, m, c⟩ := ih t1 home1 (fun b hb => hs b (List.mem_cons_of_mem _ hb))
      (fun b hb hk n hn hp => clean b (List.mem_cons_of_mem _ hb) hk n hn (m1.poison n hp))
    have fold : ∀ (l : List Access) (mm : Mem) (d : List Dest),
        (l.foldl scratchStep (mm, d)).1 = (l.foldl scratchStep (mm, [])).1 ∧
        (l.foldl scratchStep (mm, d)).2 = d ++ (l.foldl scratchStep (mm, [])).2 := by
      intro l
      induction l with
      | nil => intro mm d; simp
      | cons b l ihl =>
        intro mm d
        have e : ∀ d', scratchStep (mm, d') b = ((scratchStep (mm, []) b).1, d' ++ givenBy mm b) := fun d' =>
          Prod.ext (scratchStep_fst mm d' [] b) (scratchStep_snd (mm, d') b)
        rw [List.foldl_cons, List.foldl_cons, e d, e []]
        have p := ihl (scratchStep (mm, []) b).1 (d ++ givenBy mm b)
        have q := ihl (scratchStep (mm, []) b).1 ([] ++ givenBy mm b)
        rw [p.1, p.2, q.1, q.2]
        simp [List.append_assoc]
    have e : scratchStep ((s.team T).scratch, []) a = ((scratchStep ((s.team T).scratch, []) a).1, givenBy (s.team T).scratch a) :=
      Prod.ext rfl (by rw [scratchStep_snd]; rfl)
    have g := fold as (scratchStep ((s.team T).scratch, []) a).1 (givenBy (s.team T).scratch a)
    refine ⟨t, ?_, ?_, ?_⟩
    · simp only [performLocals, h1, h]
    · rw [List.foldl_cons, e, g.2, ← c1]
      exact Made.trans (hid ▸ m1) m
    · rw [List.foldl_cons, e, g.1, ← c1]; exact c

theorem live_of_made {core T id : Nat} {u t : State} {ds : List Dest} (h : Made core T id u t ds) : t.live T = u.live T := by
  have h2 := congrArg Team.status h.beside.team
  have : (t.team T).status = (u.team T).status := h2
  simp [State.live, this]

theorem home_of_made {core T id : Nat} {u t : State} {ds : List Dest} (h : Made core T id u t ds) :
    (t.team T).core = (u.team T).core := by
  have h2 := congrArg Team.core h.beside.team
  exact h2

/-- The accesses of one lane. -/
theorem performLane_scratch (as : List Access) (s : State) (core T asid id : Nat) (live : s.live T = true)
    (home : (s.team T).core = core) (hs : ∀ a ∈ as, a.space = 0 ∧ a.kind ≤ 2 ∧ a.pend = id)
    (clean : ∀ a ∈ as, a.kind ≠ 1 → ∀ n ∈ linesOf a.addr a.size, n ∉ (s.team T).scratchPoison) :
    ∃ t, performLane s core T asid as = .ok t ∧
      Made core T id s t (as.foldl scratchStep ((s.team T).scratch, [])).2 ∧
      (t.team T).scratch = (as.foldl scratchStep ((s.team T).scratch, [])).1 := by
  have h1 : as.filter (·.space == 1) = [] := by
    rw [List.filter_eq_nil_iff]; intro a ha; simp [(hs a ha).1]
  have h2 : as.filter (·.space != 1) = as := by
    rw [List.filter_eq_self]; intro a ha; simp [(hs a ha).1]
  obtain ⟨t, h, m, c⟩ := performLocals_scratch as s core T asid id home hs clean
  refine ⟨t, ?_, m, c⟩
  simp only [performLane, h1, h2, windowPhase, if_true, live, Bool.not_true, Bool.false_eq_true, if_false, forEach_nil, h]

theorem scratchRun_append (m : Mem) (as bs : List Access) :
    ((as ++ bs).foldl scratchStep (m, [])).1 = (bs.foldl scratchStep ((as.foldl scratchStep (m, [])).1, [])).1 ∧
    ((as ++ bs).foldl scratchStep (m, [])).2 =
      (as.foldl scratchStep (m, [])).2 ++ (bs.foldl scratchStep ((as.foldl scratchStep (m, [])).1, [])).2 := by
  have fold : ∀ (l : List Access) (mm : Mem) (d : List Dest),
      (l.foldl scratchStep (mm, d)).1 = (l.foldl scratchStep (mm, [])).1 ∧
      (l.foldl scratchStep (mm, d)).2 = d ++ (l.foldl scratchStep (mm, [])).2 := by
    intro l
    induction l with
    | nil => intro mm d; simp
    | cons b l ihl =>
      intro mm d
      have e : ∀ d', scratchStep (mm, d') b = ((scratchStep (mm, []) b).1, d' ++ givenBy mm b) := fun d' =>
        Prod.ext (scratchStep_fst mm d' [] b) (scratchStep_snd (mm, d') b)
      rw [List.foldl_cons, List.foldl_cons, e d, e []]
      have p := ihl (scratchStep (mm, []) b).1 (d ++ givenBy mm b)
      have q := ihl (scratchStep (mm, []) b).1 ([] ++ givenBy mm b)
      rw [p.1, p.2, q.1, q.2]
      simp [List.append_assoc]
  rw [List.foldl_append]
  exact fold bs _ (as.foldl scratchStep (m, [])).2

/-- The accesses of every lane, in order. -/
theorem performLanes_scratch (xs : List LaneAcc) (s : State) (core T asid id : Nat) (live : s.live T = true)
    (home : (s.team T).core = core) (hs : ∀ x ∈ xs, ∀ a ∈ x.accs, a.space = 0 ∧ a.kind ≤ 2 ∧ a.pend = id)
    (clean : ∀ x ∈ xs, ∀ a ∈ x.accs, a.kind ≠ 1 → ∀ n ∈ linesOf a.addr a.size, n ∉ (s.team T).scratchPoison) (rej : List LaneRef) :
    ∃ t, performLanes core T asid xs s rej = (.ok t, rej) ∧
      Made core T id s t (scratchRun (s.team T).scratch (xs.flatMap (·.accs))).2 ∧
      (t.team T).scratch = (scratchRun (s.team T).scratch (xs.flatMap (·.accs))).1 := by
  induction xs generalizing s with
  | nil => exact ⟨s, rfl, Made.refl _ _ _ _, rfl⟩
  | cons x xs ih =>
    obtain ⟨t1, h1, m1, c1⟩ := performLane_scratch x.accs s core T asid id live home (hs x (List.mem_cons_self ..))
      (clean x (List.mem_cons_self ..))
    have live1 : t1.live T = true := (live_of_made m1).trans live
    obtain ⟨t, h, m, c⟩ := ih t1 live1 ((home_of_made m1).trans home) (fun y hy => hs y (List.mem_cons_of_mem _ hy))
      (fun y hy a ha hk n hn hp => clean y (List.mem_cons_of_mem _ hy) a ha hk n hn (m1.poison n hp))
    have ap := scratchRun_append (s.team T).scratch x.accs (xs.flatMap (·.accs))
    refine ⟨t, ?_, ?_, ?_⟩
    · simp only [performLanes, h1, live1, Bool.not_true, Bool.false_eq_true, if_false, h]
    · simp only [scratchRun, List.flatMap_cons]
      rw [ap.2, ← c1]; exact Made.trans m1 m
    · simp only [scratchRun, List.flatMap_cons]
      rw [ap.1, ← c1]; exact c

/-! ## Words -/

/-- Reject counts that a word without rejections sets to zero. -/
theorem made_countRejects (core T id : Nat) (s : State) (refs : List LaneRef) : Made core T id s (countRejects s core refs []) [] := by
  unfold countRejects
  generalize (refs.map (·.slot)).eraseDups = slots
  induction slots generalizing s with
  | nil => exact Made.refl _ _ _ _
  | cons k ks ih =>
    rw [forEach_cons]
    have one : Made core T id s (s.onWave core k fun w => { w with rejects := 0 }) [] := by
      refine ⟨⟨rfl, fun c hc => ?_, fun _ _ => rfl, rfl, ?_, fun slot => ?_, fun r => ?_⟩, fun r => ?_, fun slot => ?_, ?_, fun _ h => h⟩
      · simp [State.onWave, hc]
      · simp [State.onWave, Core.onWave, coreRest]
      · rw [wave_onWave]; split <;> rfl
      · rw [lane_onWave]; intro; rfl
      · rw [lane_onWave]; intro; rfl
      · rw [wave_onWave]; split <;> rfl
      · simp [State.onWave, Core.onWave]
    have := Made.trans one (ih (s.onWave core k fun w => { w with rejects := 0 }))
    simpa using this

theorem countRejects_teams (s : State) (core : Nat) (refs : List LaneRef) : (countRejects s core refs []).teams = s.teams := by
  unfold countRejects
  generalize (refs.map (·.slot)).eraseDups = slots
  induction slots generalizing s with
  | nil => rfl
  | cons k ks ih => rw [forEach_cons, ih]; rfl

/-- The registers and places of the lanes of a core, which an outstanding word does not touch. -/
structure Still (core : Nat) (u t : State) : Prop where
  v : ∀ r, (t.lane core r).v = (u.lane core r).v
  p : ∀ r, (t.lane core r).p = (u.lane core r).p
  pc : ∀ r, (t.lane core r).pc = (u.lane core r).pc
  clause : ∀ r, (t.lane core r).clause = (u.lane core r).clause
  s : ∀ slot, (t.wave core slot).s = (u.wave core slot).s

theorem Still.refl (core : Nat) (u : State) : Still core u u := ⟨fun _ => rfl, fun _ => rfl, fun _ => rfl, fun _ => rfl, fun _ => rfl⟩
theorem Still.trans {core : Nat} {u t w : State} (a : Still core u t) (b : Still core t w) : Still core u w :=
  ⟨fun r => (b.v r).trans (a.v r), fun r => (b.p r).trans (a.p r), fun r => (b.pc r).trans (a.pc r),
    fun r => (b.clause r).trans (a.clause r), fun k => (b.s k).trans (a.s k)⟩

theorem still_of_made {core T id : Nat} {u t : State} {ds : List Dest} (h : Made core T id u t ds) : Still core u t :=
  ⟨fun r => by rw [h.lanes r], fun r => by rw [h.lanes r], fun r => by rw [h.lanes r], fun r => by rw [h.lanes r], h.sregs⟩

theorem still_onCore (core : Nat) (s : State) (f : Core → Core) (h : ∀ k, (f k).waves = k.waves) : Still core s (s.onCore core f) :=
  ⟨fun r => by rw [lane_onCore s core f h], fun r => by rw [lane_onCore s core f h], fun r => by rw [lane_onCore s core f h],
    fun r => by rw [lane_onCore s core f h], fun k => by rw [wave_onCore s core f h]⟩

theorem still_mark (core : Nat) (s : State) (r : LaneRef) (k : Nat) : Still core s (s.onLane core r fun l => l.mark k) := by
  refine ⟨fun q => ?_, fun q => ?_, fun q => ?_, fun q => ?_, fun slot => ?_⟩
  all_goals first
    | (rw [lane_onLane]; split <;> rfl)
    | (rw [wave_onLane]; split <;> rfl)

theorem still_forEach {α : Type} (core : Nat) (l : List α) (f : State → α → State) (s : State) (h : ∀ u a, Still core u (f u a)) :
    Still core s (forEach l s f) := by
  induction l generalizing s with
  | nil => exact Still.refl core s
  | cons a l ih => exact (h s a).trans (ih (f s a))

theorem still_addPend (s : State) (core : Nat) (f : Form) (lanes : List LaneRef) (ds : List Dest) (loads : List LoadWait)
    (samples : List RdSample) (held : Nat) : Still core s (addPend s core f lanes ds loads samples held).2 := by
  simp only [addPend, addPendFrom, State.freshId]
  refine Still.trans (still_onCore core s (fun k => { k with nextId := k.nextId + 1 }) (by intro; rfl)) ?_
  refine Still.trans ?_ (still_onCore core _ (fun c => { c with pends := c.pends ++ [_] }) (by intro; rfl))
  exact still_forEach core _ _ _ fun u (m : LaneRef × Nat) => still_mark core u m.1 m.2

theorem beside_openPend (s : State) (core id : Nat) (f : Form) (lanes : List LaneRef) (held : Nat) :
    Beside core s (openPend s core id f lanes held) ∧ Still core s (openPend s core id f lanes held) := by
  unfold openPend
  split
  · exact ⟨beside_onCore _ _ (fun c => { c with pends := c.pends.filter fun p => p.id != id }) (by intro; rfl) (by intro; rfl),
      still_onCore _ _ (fun c => { c with pends := c.pends.filter fun p => p.id != id }) (by intro; rfl)⟩
  · unfold onPend
    refine ⟨Beside.trans ?_ (beside_onCore _ core (fun c => { c with pends := c.pends.map _ }) (by intro; rfl) (by intro; rfl)),
      Still.trans ?_ (still_onCore core _ (fun c => { c with pends := c.pends.map _ }) (by intro; rfl))⟩
    · exact beside_forEach core _ _ _ fun u (m : LaneRef × Nat) => beside_onLane u core m.1 (fun l => l.mark m.2) (by intro; rfl)
    · exact still_forEach core _ _ _ fun u (m : LaneRef × Nat) => still_mark core u m.1 m.2

theorem pends_marks (core : Nat) (ms : List (LaneRef × Nat)) (s : State) :
    ((forEach ms s fun s m => s.onLane core m.1 fun l => l.mark m.2).core core).pends = (s.core core).pends := by
  induction ms generalizing s with
  | nil => rfl
  | cons m ms ih => rw [forEach_cons, ih, pends_onLane]

theorem pends_openPend (s : State) (core id : Nat) (f : Form) (lanes : List LaneRef) (ne : lanes ≠ []) :
    ∃ ms, ((openPend s core id f lanes 0).core core).pends =
      (s.core core).pends.map fun p => if p.id = id then { p with lanes := lanes, marks := ms, held := 0 } else p := by
  have : lanes.isEmpty = false := by simpa using ne
  unfold openPend
  simp only [this, Bool.false_eq_true, if_false, onPend, core_onCore_same, pends_marks]
  refine ⟨lanes.filterMap fun r => ((s.lane core r).flagOf f.fset).map fun k => (r, k), ?_⟩
  simp only [beq_iff_eq]

/-- No lane of a word waits: it stays one outstanding word. -/
theorem splitWaiting_none (s : State) (core id : Nat) (f : Form) (first : LaneRef) (xs : List LaneAcc)
    (h : (((s.core core).pends.filter fun p => p.id == id).getLast?.map fun p => p.loads.map (·.r)).getD [] = []) :
    splitWaiting s core id f first xs [] = (s, []) := by
  unfold splitWaiting
  simp only [h]
  induction xs with
  | nil => rfl
  | cons x xs ih => simpa using ih

/-- Where an access of the scratchpad falls (R169, R193). -/
theorem localPlace_scratch (p : Packet) (t : Team) (a n : Nat) (h : a + n ≤ p.scratch) : localPlace p t a n = .scratch a := by
  simp [localPlace, h]

theorem localTrap_none (p : Packet) (t : Team) (uniform : Bool) (xs : List LaneAcc)
    (h : ∀ x ∈ xs, x.bad = false ∧ ∀ a ∈ x.accs, a.space = 0 ∧ a.addr + a.size ≤ p.scratch ∧ a.addr % a.size = 0) :
    localTrap p t uniform xs = none := by
  have : xs.filterMap (fun x => (x.fails p t uniform).map fun e => (x.lane.2, e)) = [] := by
    rw [List.filterMap_eq_nil_iff]
    intro x hx
    obtain ⟨bad, ha⟩ := h x hx
    have : x.accs.filterMap (fun a => (if a.space == 2 then testFolio t a.addr a.size
        else testLocal p t a.kind uniform a.addr a.size).map fun k => (k, a.addr)) = [] := by
      rw [List.filterMap_eq_nil_iff]
      intro a hm
      obtain ⟨sp, le, al⟩ := ha a hm
      simp [sp, testLocal, localPlace_scratch p t _ _ le, al]
    simp only [LaneAcc.fails, this, bad, Bool.false_eq_true, if_false, Option.map_none]
  simp [localTrap, this, trapOf]

/-- A word that makes its accesses of the scratchpad, long or short. -/
theorem accessWord_scratch (e : Env) (f : Form) (long : Bool) (xs : List LaneAcc) (sp : InScratch e (xs.flatMap (·.accs)))
    (hs : ∀ x ∈ xs, ∀ a ∈ x.accs, a.space = 0 ∧ a.kind ≤ 2) (hl : xs.flatMap (·.lanes) = mine e) (ne : mine e ≠ []) :
    ∃ t, accessWord e f long xs = .done t [] ∧
      (t.team e.team).scratch = (scratchRun (e.s.team e.team).scratch (xs.flatMap (·.accs))).1 ∧
      (long = true → ∃ p ∈ (t.core e.core).pends,
        p.dests = (scratchRun (e.s.team e.team).scratch (xs.flatMap (·.accs))).2 ++ e.dests (fun _ => []) ∧ p.lanes = mine e ∧
        p.loads = [] ∧ p.samples = [] ∧ p.held = 0) ∧
      BesideLocal e.core e.team e.s t ∧ Still e.core e.s t := by
  -- the word's outstanding record
  obtain ⟨id, s0, hid, b0, st0, hp0⟩ : ∃ id s0, (if long then addPend e.s e.core { f with fset := 0 } [] [] [] [] 0 else (0, e.s)) = (id, s0) ∧
      Beside e.core e.s s0 ∧ Still e.core e.s s0 ∧
      (long = true → ∃ ps p, (s0.core e.core).pends = ps ++ [p] ∧ p.id = id ∧ p.dests = [] ∧ p.loads = [] ∧ p.samples = []) := by
    cases long
    · exact ⟨0, e.s, rfl, Beside.refl _ _, Still.refl _ _, by simp⟩
    · refine ⟨_, _, rfl, beside_addPend .., still_addPend .., fun _ => ?_⟩
      simp only [if_true, addPend, addPendFrom, State.freshId, core_onCore_same]
      exact ⟨_, _, rfl, rfl, rfl, rfl, rfl⟩
  have team0 : teamRest (s0.team e.team) = teamRest (e.s.team e.team) := b0.teams e.team
  have scratch0 : (s0.team e.team).scratch = (e.s.team e.team).scratch := by
    have := congrArg Team.scratch team0; exact this
  have poison0 : (s0.team e.team).scratchPoison = (e.s.team e.team).scratchPoison := by
    have := congrArg Team.scratchPoison team0; exact this
  have live0 : s0.live e.team = true := by
    have h := congrArg Team.status team0
    have : (s0.team e.team).status = (e.s.team e.team).status := h
    have l := sp.live
    simp only [State.live] at l ⊢
    rw [this]; exact l
  have home0 : (s0.team e.team).core = e.core := by
    have h := congrArg Team.core team0
    have : (s0.team e.team).core = (e.s.team e.team).core := h
    rw [this]; exact sp.home
  -- the accesses located
  let ys : List LaneAcc := xs.map fun (x : LaneAcc) => { x with
    accs := x.accs.map fun (a : Access) => { a.locate e.s e.core e.pkt (e.s.team e.team) with pend := id } }
  have loc : ∀ x ∈ xs, ∀ a ∈ x.accs, ({ a.locate e.s e.core e.pkt (e.s.team e.team) with pend := id } : Access) = { a with pend := id } := by
    intro x hx a ha
    have in_ := sp.inside a (List.mem_flatMap.mpr ⟨x, hx, ha⟩)
    have z := (hs x hx a ha).1
    unfold Access.locate
    simp only [z, show ((0 : Nat) == 2) = false from rfl, Bool.false_eq_true, if_false,
      localPlace_scratch e.pkt (e.s.team e.team) _ _ in_.2.1]
  have ysEq : ys = xs.map fun (x : LaneAcc) => { x with accs := x.accs.map fun (a : Access) => { a with pend := id } } := by
    apply List.map_congr_left
    intro x hx
    congr 1
    exact List.map_congr_left fun a ha => loc x hx a ha
  have flat : ys.flatMap (·.accs) = (xs.flatMap (·.accs)).map fun (a : Access) => { a with pend := id } := by
    rw [ysEq]; simp [List.flatMap_map, List.map_flatMap]
  have run : ∀ m, scratchRun m (ys.flatMap (·.accs)) = scratchRun m (xs.flatMap (·.accs)) := by
    intro m; rw [flat]; unfold scratchRun
    rw [List.foldl_map]; rfl
  have mem : ∀ y ∈ ys, ∀ a ∈ y.accs, ∃ x ∈ xs, ∃ b ∈ x.accs, a = ({ b with pend := id } : Access) := by
    intro y hy a ha
    rw [ysEq] at hy
    obtain ⟨x, hx, rfl⟩ := List.mem_map.mp hy
    obtain ⟨b, hb, rfl⟩ := List.mem_map.mp ha
    exact ⟨x, hx, b, hb, rfl⟩
  have free : ∀ x : LaneAcc, x.accs.any (claimed (e.s.core e.core) e.team) = false := by
    intro x
    rw [List.any_eq_false]
    intro a _
    have : (e.s.core e.core).claims.any (fun k => k.holds e.team a) = false := by
      rw [List.any_eq_false]
      intro k hk
      have := sp.free k hk
      simp [Claim.holds, this]
    simp [claimed, this]
  have hys1 : ∀ y ∈ ys, ∀ a ∈ y.accs, a.space = 0 ∧ a.kind ≤ 2 ∧ a.pend = id := by
    intro y hy a ha
    obtain ⟨x, hx, b, hb, rfl⟩ := mem y hy a ha
    exact ⟨(hs x hx b hb).1, (hs x hx b hb).2, rfl⟩
  have hys2 : ∀ y ∈ ys, ∀ a ∈ y.accs, a.kind ≠ 1 → ∀ n ∈ linesOf a.addr a.size, n ∉ (s0.team e.team).scratchPoison := by
    intro y hy a ha hk n hn
    obtain ⟨x, hx, b, hb, rfl⟩ := mem y hy a ha
    rw [poison0]
    exact sp.clean b (List.mem_flatMap.mpr ⟨x, hx, hb⟩) hk n hn
  obtain ⟨t, perf, made, scr⟩ := performLanes_scratch ys s0 e.core e.team (teamAsid e.s e.team) id live0 home0 hys1 hys2 []
  have noWait : ys.filter (fun x => !x.accs.any (claimed (e.s.core e.core) e.team)) = ys := by
    rw [List.filter_eq_self]; intro x _; simp [free]
  have noHeld : ys.filter (fun x => x.accs.any (claimed (e.s.core e.core) e.team)) = [] := by
    rw [List.filter_eq_nil_iff]; intro x _; simp [free]
  have liveT : t.live e.team = true := (live_of_made made).trans live0
  have lanesEq : (ys.flatMap (·.lanes)).filter (fun r => !([] : List LaneRef).contains r) = mine e := by
    rw [ysEq]; simp only [List.flatMap_map]; rw [hl]; simp
  have m2 := made_countRejects e.core e.team id t e.g.refs
  have scratchKept : { teamRest ((countRejects t e.core e.g.refs []).team e.team) with scratchPoison := [] } =
      { teamRest (t.team e.team) with scratchPoison := [] } := by
    have : (countRejects t e.core e.g.refs []).teams = t.teams := countRejects_teams t e.core e.g.refs
    simp [State.team, this]
  refine ⟨onPend (if long then openPend (countRejects t e.core e.g.refs []) e.core id f (mine e) 0 else countRejects t e.core e.g.refs [])
      e.core id fun p => { p with dests := p.dests ++ e.dests (fun _ => []) }, ?_, ?_, ?_, ?_, ?_⟩
  · unfold accessWord
    simp only [hid]
    change (match performLanes e.core e.team (teamAsid e.s e.team) (ys.filter fun x => !x.accs.any (claimed (e.s.core e.core) e.team)) s0 [] with
      | (.poison src a, _) => _ | (.rejected s, _) => _ | (.ok s, rej) => _) = _
    rw [noWait, perf]
    simp only [liveT, Bool.not_true, Bool.false_eq_true, if_false, List.isEmpty_nil, if_true]
    change (let r := (if long then splitWaiting (onPend (if long then openPend (countRejects t e.core e.g.refs []) e.core id f
          ((ys.flatMap (·.lanes)).filter fun r => !([] : List LaneRef).contains r)
          ((ys.filter fun x => x.accs.any (claimed (e.s.core e.core) e.team)).foldl (fun n x => n + x.accs.length) 0)
        else countRejects t e.core e.g.refs []) e.core id fun p => { p with dests := p.dests ++ e.dests (fun _ => []) })
          e.core id f e.first.2 ys (ys.filter fun x => x.accs.any (claimed (e.s.core e.core) e.team))
        else (_, (ys.filter fun x => x.accs.any (claimed (e.s.core e.core) e.team)).flatMap (·.accs)))
      Res.done (if r.2.isEmpty then r.1 else _)
        ((ys.filter fun x => x.accs.any (claimed (e.s.core e.core) e.team)).flatMap (·.lanes) ++ [])) = _
    rw [noHeld, lanesEq]
    cases hlong : long
    · rfl
    · simp only [if_true, List.foldl_nil]
      rw [splitWaiting_none]
      · rfl
      · obtain ⟨ps, p, hp, pid, pd, pl, ps'⟩ := hp0 hlong
        simp only [onPend, core_onCore_same]
        obtain ⟨ms, ho⟩ := pends_openPend (countRejects t e.core e.g.refs []) e.core id f (mine e) ne
        rw [ho, m2.pends, made.pends, hp]
        simp [pid, pl]
  · -- the scratchpad
    have h0 : ∀ (u : State) (g : Pend → Pend), (onPend u e.core id g).team e.team = u.team e.team := fun _ _ => rfl
    have h2 := congrArg Team.scratch scratchKept
    have h3 : ((countRejects t e.core e.g.refs []).team e.team).scratch = (t.team e.team).scratch := h2
    rw [h0]
    cases long
    · simp only [Bool.false_eq_true, if_false]; rw [h3, scr, scratch0, run]
    · simp only [if_true]
      have h4 := congrArg Team.scratch ((beside_openPend (countRejects t e.core e.g.refs []) e.core id f (mine e) 0).1.teams e.team)
      have h5 : ((openPend (countRejects t e.core e.g.refs []) e.core id f (mine e) 0).team e.team).scratch =
        ((countRejects t e.core e.g.refs []).team e.team).scratch := h4
      rw [h5, h3, scr, scratch0, run]
  · intro hlong
    obtain ⟨ps0, p, hps, pid, pd, pl, ps⟩ := hp0 hlong
    have hp : p ∈ (s0.core e.core).pends := by rw [hps]; simp
    simp only [hlong, if_true, onPend, core_onCore_same]
    obtain ⟨ms, ho⟩ := pends_openPend (countRejects t e.core e.g.refs []) e.core id f (mine e) ne
    rw [ho, m2.pends, made.pends]
    simp only [List.map_map]
    refine ⟨_, List.mem_map_of_mem hp, ?_⟩
    simp [pid, pd, pl, ps, scratch0, run]
  · have b1 : BesideLocal e.core e.team e.s (countRejects t e.core e.g.refs []) :=
      beside_local_trans (beside_local_of b0) (beside_local_trans made.beside m2.beside)
    have b2 : ∀ u, BesideLocal e.core e.team e.s u → BesideLocal e.core e.team e.s
        (onPend u e.core id fun p => { p with dests := p.dests ++ e.dests (fun _ => []) }) := fun u h =>
      beside_local_trans h (made_onPend e.core e.team id u _).beside
    apply b2
    cases long
    · exact b1
    · exact beside_local_trans b1 (beside_local_of (beside_openPend _ e.core id f (mine e) 0).1)
  · have s1 : Still e.core e.s (countRejects t e.core e.g.refs []) := st0.trans ((still_of_made made).trans (still_of_made m2))
    have s2 : ∀ u, Still e.core e.s u → Still e.core e.s
        (onPend u e.core id fun p => { p with dests := p.dests ++ e.dests (fun _ => []) }) := fun u h =>
      h.trans (still_of_made (made_onPend e.core e.team id u _))
    apply s2
    cases long
    · exact s1
    · exact s1.trans (beside_openPend _ e.core id f (mine e) 0).2

/-- A word of local memory makes its accesses of the scratchpad (R193, R195 to R197, R199). -/
theorem accesses_of_localWord {i : Instr} {opc : Nat} {f : Form} {uniform : Bool} {ok : Env → Prop} (mk : Env → List LaneAcc)
    (hi : ∀ s, exec i s = localWord opc f s uniform mk) (hw : writesWithAccess opc = true) (hr : mayReject opc = true)
    (hm : ∀ e, ok e → (∀ x ∈ mk e, x.bad = false ∧ ∀ a ∈ x.accs, a.space = 0 ∧ a.kind ≤ 2) ∧ (mk e).flatMap (·.lanes) = mine e) :
    Accesses i opc f ok fun e => (mk e).flatMap (·.accs) := by
  intro s g e h hok sp
  obtain ⟨h1, h2⟩ := hm e hok
  have hc : e.core = g.core := by simp [Env.core, h.group]
  have ne : mine e ≠ [] := by
    unfold mine; rw [h.act]; simpa using h.lanes
  have noTrap : localTrap e.pkt (e.s.team e.team) uniform (mk e) = none := by
    refine localTrap_none _ _ _ _ fun x hx => ⟨(h1 x hx).1, fun a ha => ?_⟩
    have := sp.inside a (List.mem_flatMap.mpr ⟨x, hx, ha⟩)
    exact ⟨((h1 x hx).2 a ha).1, this.2.1, this.2.2⟩
  obtain ⟨t, hd, hs, hp, hb, hst⟩ := accessWord_scratch e f (f.isLong opc) (mk e) sp (fun x hx a ha => (h1 x hx).2 a ha) h2 ne
  have run := runWord_done h (fun e => match localTrap e.pkt (e.s.team e.team) uniform (mk e) with
    | some (cause, origin, tag) => .trap cause origin tag
    | none => accessWord e f (f.isLong opc) (mk e)) (s2 := t) (stay := []) (by simp only [noTrap, hd])
  have pout : putOutcome e opc f t = t := by unfold putOutcome; simp [hw]
  rw [pout] at run
  have nd := h.distinct
  have laneDone : ∀ q, (wordDone opc s g t []).lane g.core q =
      if q ∈ g.refs then { (t.lane g.core q).next with age := 0, groupAge := 0 } else t.lane g.core q := by
    intro q
    simp only [wordDone, issued_access t g [] hr, lane_countEv, lane_wordIssued _ g [] nd]; simp
  have doneB : Beside g.core t (wordDone opc s g t []) := by
    simp only [wordDone, issued_access t g [] hr]
    exact (beside_wordIssued _ g []).trans ((beside_countEv ..).trans (beside_countEv ..))
  rw [hc] at hb hst hp
  refine ⟨_, (hi s).trans run, ?_, ?_, ?_, beside_local_trans hb (beside_local_of doneB), ?_⟩
  · have h2 := congrArg Team.scratch (doneB.teams e.team)
    have h3 : ((wordDone opc s g t []).team e.team).scratch = (t.team e.team).scratch := h2
    rw [h3]; exact hs
  · intro hl
    obtain ⟨p, hp, q⟩ := hp hl
    refine ⟨p, ?_, q⟩
    simp only [wordDone, issued_access t g [] hr, core_of_cores (countEv_cores ..), pends_wordIssued]
    exact hp
  · refine ⟨fun r k _ => ?_, fun slot k _ => ?_, fun r k _ => ?_⟩
    · simp only [vreg, laneDone]
      have := hst.v r
      split <;> simp [Lane.next, this]
    · simp only [sreg, wordDone, issued_access t g [] hr, wave_countEv]
      have a := sreg_wordIssued t g [] slot k
      simp only [sreg] at a
      rw [a, hst.s slot]
    · simp only [preg, laneDone]
      have := hst.p r
      split <;> simp [Lane.next, this]
  · refine ⟨fun r hr => ?_, fun r hr => ?_⟩
    · rw [laneDone, if_pos hr]; simp [Lane.next, hst.pc r]
    · rw [laneDone, if_neg hr]; exact ⟨hst.pc r, hst.clause r⟩

end Sys2Proof.Laws
end

