-- ==== Sys2Proof/Laws/Results.lean ====
section
/-! SUPPORT. The results of words in the terms of the statements: numbers read from bits, numbers fitted into bits, bits one by
one. -/

namespace Sys2Proof.Laws

open Sys2Proof.Machine Sys2Proof.Safety

theorem ofNat_emod (w : Nat) (x : Int) : BitVec.ofNat w (x % (2 ^ w : Nat)).toNat = BitVec.ofInt w x := by
  apply BitVec.eq_of_toNat_eq
  rw [BitVec.toNat_ofInt, BitVec.toNat_ofNat]
  exact Nat.mod_eq_of_lt ((Int.toNat_lt (Int.emod_nonneg _ (by positivity))).mpr (Int.emod_lt_of_pos _ (by positivity)))

/-- Fitting a number into a type (R83). -/
theorem fit_eq (w : Nat) (sg sat : Bool) (x : Int) : BitVec.ofNat w (fit x ⟨w, sg⟩ sat) = fitted w sg sat x := by
  unfold fit fitted
  simp only [ofNat_emod]
  cases sat <;> cases sg <;> simp [minInt, maxInt, min_comm]

theorem fit32_eq (sg sat : Bool) (x : Int) : fit32 x ⟨32, sg⟩ sat = fitted 32 sg sat x := fit_eq 32 sg sat x
theorem fit64_eq (sg sat : Bool) (x : Int) : fit64 x ⟨64, sg⟩ sat = fitted 64 sg sat x := fit_eq 64 sg sat x
theorem fitted_low (w : Nat) (sg : Bool) (x : Int) : fitted w sg false x = BitVec.ofInt w x := rfl

/-- Reading bits as a number (R83). -/
theorem ext_eq {w : Nat} (x : BitVec w) (v : Nat) (sg : Bool) : ext x ⟨v, sg⟩ = num sg x := by cases sg <;> rfl

theorem num_signed {w : Nat} (x : BitVec w) : num true x = x.toInt := rfl
theorem num_plain {w : Nat} (x : BitVec w) : num false x = x.toNat := rfl

/-- The low five bits of a count read as a number of either type. -/
theorem num_low (sg : Bool) (x : W32) : (num sg x % 32).toNat = x.toNat % 32 := by
  cases sg
  · simp [num]; omega
  · simp only [num, if_true, BitVec.toInt_eq_toNat_cond]; split <;> omega

theorem ty32_eq (f : Form) : ty32 f = ⟨32, !(MOD.type f.mod == 6)⟩ := by
  unfold ty32 n32 s32; cases h : (MOD.type f.mod == 6) <;> rfl
theorem ty64_eq (f : Form) : ty64 f = ⟨64, !(MOD.type f.mod == 8)⟩ := by
  unfold ty64 n64 s64; cases h : (MOD.type f.mod == 8) <;> rfl

/-- The bits of a word that a fold sets one by one. -/
theorem foldl_bits (p : Nat → Bool) (n : Nat) (m : W32) (i : Nat) :
    ((List.range n).foldl (fun m i => if p i then m ||| (1#32 <<< i) else m) m).getLsbD i =
      (m.getLsbD i || (decide (i < 32) && decide (i < n) && p i)) := by
  induction n generalizing m with
  | zero => simp
  | succ n ih =>
    rw [List.range_succ, List.foldl_append, List.foldl_cons, List.foldl_nil]
    by_cases h : i = n
    · subst h
      split
      · rename_i hp
        rw [BitVec.getLsbD_or, ih]
        by_cases h32 : i < 32 <;> simp [h32, hp]
      · rename_i hp
        rw [ih]; simp [hp]
    · have e : (decide (i < n + 1)) = decide (i < n) := by simp; omega
      split
      · rw [BitVec.getLsbD_or, ih, e]
        have : (1#32 <<< n).getLsbD i = false := by
          rw [BitVec.getLsbD_shiftLeft]
          by_cases hn : i < n
          · simp [hn]
          · have : i - n ≠ 0 := by omega
            simp [this]
        simp [this]
      · rw [ih, e]

theorem ofBits_bit (p : Nat → Bool) (i : Nat) : (ofBits p).getLsbD i = (decide (i < 32) && p i) := by
  unfold ofBits; rw [foldl_bits]; simp

theorem ofBits_eq (p : Nat → Bool) : ofBits p = BitVec.ofFnLE fun i : Fin 32 => p i := by
  apply BitVec.eq_of_getLsbD_eq
  intro i hi
  rw [ofBits_bit, BitVec.getLsbD_ofFnLE]; simp [hi]

theorem laneSet_bit (l : List Nat) (m : W32) (i : Nat) :
    (l.foldl (fun m i => m ||| (1#32 <<< i)) m).getLsbD i = (m.getLsbD i || (decide (i < 32) && l.contains i)) := by
  induction l generalizing m with
  | nil => simp
  | cons a l ih =>
    rw [List.foldl_cons, ih, BitVec.getLsbD_or, BitVec.getLsbD_shiftLeft]
    by_cases h : i = a
    · subst h; by_cases h32 : i < 32 <;> simp [h32]
    · by_cases hn : i < a
      · simp [hn, h]
      · have : i - a ≠ 0 := by omega
        simp [this, h]

theorem laneSet_eq (l : List Nat) : laneSet l = BitVec.ofFnLE fun i : Fin 32 => l.contains i.val := by
  apply BitVec.eq_of_getLsbD_eq
  intro i hi
  unfold laneSet
  rw [laneSet_bit, BitVec.getLsbD_ofFnLE]; simp [hi]

/-- The highest set bit of a word (R88, R90). -/
theorem topBit_eq (x : W32) : topBit x = if x = 0 then none else some (Nat.log2 x.toNat) := by
  unfold topBit
  split
  · rename_i h; subst h; simp
  · rename_i h
    have hx : x.toNat ≠ 0 := fun e => h (BitVec.eq_of_toNat_eq (by simpa using e))
    have hlt : Nat.log2 x.toNat < 32 := (Nat.log2_lt hx).mpr x.isLt
    rw [List.find?_eq_some_iff_append]
    refine ⟨?_, ?_⟩
    · rw [BitVec.getLsbD]; exact Nat.testBit_log2 hx
    · refine ⟨((List.range (32 - (Nat.log2 x.toNat + 1))).map (· + (Nat.log2 x.toNat + 1))).reverse,
        (List.range (Nat.log2 x.toNat)).reverse, ?_, ?_⟩
      · have : 32 = (Nat.log2 x.toNat + 1) + (32 - (Nat.log2 x.toNat + 1)) := by omega
        conv => lhs; rw [this]
        rw [List.range_add, List.range_succ]
        simp [Nat.add_comm]
      · intro a ha
        simp only [List.mem_reverse, List.mem_map, List.mem_range] at ha
        obtain ⟨k, _, rfl⟩ := ha
        have : x.toNat < 2 ^ (k + (Nat.log2 x.toNat + 1)) :=
          lt_of_lt_of_le (Nat.lt_log2_self) (Nat.pow_le_pow_right (by omega) (by omega))
        simpa [BitVec.getLsbD] using Nat.testBit_lt_two_pow this

end Sys2Proof.Laws
end

