-- ==== Sys2Proof/Tests/Slice0.lean ====
section
/-! SUPPORT. Tests of the model, with words and results taken from the spec's own encodings and examples, and witnesses for
the hypotheses of the statements. -/

namespace Sys2Proof.Tests

open Sys2Proof.Machine Sys2Proof.Safety

set_option maxRecDepth 20000
set_option Elab.async false

/-! ## A small package: core 0 with a team of one thread -/

def packet : Packet :=
  { (default : Packet) with
    codeBase := 0x10000, codeLen := 48, tx := 1, ty := 1, tz := 1, gx := 1, gy := 1, gz := 1, regs := 256, sregs := 128
    scratch := 4096, windows := 1, priv := 64, slips := 4, folios := 4, accums := 4, rcb := 0x8000, dieset := 1 }

def group : Cur := { core := 0, slot := 0, reformed := none, lanes := [(0, ⟨0, 0⟩)], word := 0 }

/-- The thread stands at 0x1000C, the last word of its clause, with flags 0 and 1 named. -/
def thread : Lane :=
  { (default : Lane) with pc := 0x1000C, clause := some { hdr := 0x10000, left := 1, flagA := 0, flagB := 1 }, g := 1 }

/-- Home memory: page tables for the first GiB (R348), a launch's RCB at 0x8000 under the context at 0x8080 and the root at
0x8100 (R157, R339), a header at the start of the code and one at the start of the monitor (R68). -/
def home : Mem :=
  memWrites (memWrites [(0x1000, 0x01), (0x1001, 0x20), (0x2000, 0x1F),
    (0x8002, 0x06), (0x8008, 0x80), (0x8009, 0x80),
    (0x8082, 0x01), (0x8089, 0x81), (0x80BA, 0x04), (0x80C0, 0x40), (0x80DA, 0x40), (0x80E2, 0x10), (0x80EB, 0x01), (0x80F2, 0x06),
    (0x8104, 0xFF), (0x8105, 0x03), (0x8110, 0x80), (0x8111, 0x02), (0x8112, 0x81), (0x8113, 0x04), (0x812A, 0x03), (0x8131, 0x01)]
    0x10000 (leBytes 12 (encodeHeader { wait := 0, flagA := 0, flagB := 1, len := 0 }).toNat))
    0x30000 (leBytes 12 (encodeHeader { wait := 0, flagA := 0, flagB := 1, len := 0 }).toNat)

/-- The package with what the tests choose: the thread, its wave, its team, its core, and home memory. -/
def package (l : Lane) (w : Wave → Wave) (t : Team → Team) (c : Core → Core) (m : Mem) : State :=
  { State.reset with
    cur := some group
    hbm := m
    roots := [(0, (0x1000, 0x8000))]
    launches := [(1, { (default : Launch) with id := 1, pkt := packet })]
    teams := [(1, t { (default : Team) with launch := 1, slots := [0], nwaves := 1 })]
    cores := [(0, c { Core.reset 0 with
      tslots := [(0, 1)]
      waves := [(0, w { (default : Wave) with team := 1, lanes := [(0, l)], group := [0], credit := 1 })] })] }

def demo : State := package thread id id id home
def demoMon : State := package { thread with mon := true } id id id home
def onThread (f : Lane → Lane) : State := package (f thread) id id id home
def onCore (f : Core → Core) : State := package thread id id f home
def onTeam (f : Team → Team) : State := package thread id f id home
def onWave (f : Wave → Wave) : State := package thread f id id home

/-- A word of the thread that waits. -/
def waiting (k : WaitKind) (d : Opnd := .nul) : Wait := { bid := 7, kind := k, d := d, pc := .nul, lanes := [⟨0, 0⟩], since := 0 }
/-- The package with such a word. -/
def blocked (k : WaitKind) (d : Opnd := .nul) : State :=
  package { thread with block := .word 7 } id id (fun c => { c with waits := [waiting k d] }) home

/-! ## Words that issue -/

/-- What a word reads where it issues (Safety.Issues). -/
def issueEnv (s : State) (opc : Nat) (f : Form) : Option Env :=
  let act := contributing s group f.guard
  if s.cur = some group ∧ checkWord s group opc f = none ∧ act ≠ [] ∧
      (act.all fun l => (s.lane 0 l.2).flagFull f.fset == false && readsPoison s 0 opc f l.2 == false) = true ∧
      (f.popsSource (opSpec opc f.mod) = true → otherGrants s group act = []) then
    match (if f.popsSource (opSpec opc f.mod) then popOperand s group act opc f else .got [] none s) with
    | .got pop nb s1 => some { s := s1, g := group, act := act, pop := pop, nb := nb }
    | _ => none
  else none

theorem issues_of_env {s : State} {opc : Nat} {f : Form} {e : Env} (h : issueEnv s opc f = some e) : Issues s group opc f e := by
  simp only [issueEnv] at h
  split at h
  · rename_i hc
    obtain ⟨h1, h2, h3, h4, h5⟩ := hc
    simp only [List.all_eq_true, Bool.and_eq_true, beq_iff_eq] at h4
    split at h
    · rename_i pop nb s1 hp
      cases h
      exact ⟨h1, h2, h3, by decide, fun l hl => (h4 l hl).1, h5, fun l hl => (h4 l hl).2, rfl, rfl, hp⟩
    · cases h
  · cases h

/-- The word issues in the state, and what it reads satisfies a test. -/
def fires (s : State) (opc : Nat) (f : Form) (p : Env → Bool) : Bool :=
  match issueEnv s opc f with | some e => p e | none => false

theorem issues_of_fires {s : State} {opc : Nat} {f : Form} {p : Env → Bool} (h : fires s opc f p = true) :
    ∃ e, Issues s group opc f e ∧ p e = true := by
  unfold fires at h
  split at h
  · exact ⟨_, issues_of_env ‹_›, h⟩
  · cases h

/-- The word issues in the state, and what it reads satisfies a condition. -/
def Fires (s : State) (opc : Nat) (f : Form) (p : Env → Prop) : Prop := ∃ e, Issues s group opc f e ∧ p e

theorem fires_intro {s : State} {opc : Nat} {f : Form} {p : Env → Prop} [DecidablePred p]
    (h : fires s opc f (fun e => decide (p e)) = true) : Fires s opc f p := by
  obtain ⟨e, h1, h2⟩ := issues_of_fires h
  exact ⟨e, h1, of_decide_eq_true h2⟩

/-- A word with its fields. -/
def frm (d a b : Opnd) (c : COp := .reg .nul 0) (m : BitVec 9 := 0) : Form :=
  { guard := 7, d := d, a := a, b := b, c := c, mod := m, fset := 0, pace := 0, defer := false }

/-- An operand that a slot takes. -/
def operandOf : Slot → Opnd
  | .none => .nul
  | .src | .vreg | .src64 => .v 8
  | .dst | .dst64 | .quad | .octet | .vgroup _ => .v 16
  | .psrc | .pdst => .p 1
  | .mask => .m 1
  | .uni | .addr | .addrReg | .addrS => .s 4
  | .sgroup _ => .s 16
  | .queue | .queueB => .q 0 false 0

def cOf : CSlot → COp
  | .none | .forB => .reg .nul 0
  | .src | .srcReg | .srcExt => .reg (.v 24) 0
  | .src64 | .src64Reg => .reg (.v 24) 0
  | .psrc | .pdst => .reg (.p 2) 0
  | .imm | .offset => .imm 0
  | .ext => .reg .nul 0

/-- A form of an opcode: the least MOD of a set that it takes, and operands by its slots. -/
def sample (opc : Nat) : Form :=
  let mods := (List.range 512).map (BitVec.ofNat 9)
  let m := (mods.find? fun m => (frm (operandOf (opSpec opc m).d) (operandOf (opSpec opc m).a) (operandOf (opSpec opc m).b)
    (cOf (opSpec opc m).c) m).ok opc).getD 0
  let sp := opSpec opc m
  frm (operandOf sp.d) (operandOf sp.a) (operandOf sp.b) (cOf sp.c) m

/-- Every sample of a run of opcodes issues. -/
theorem samples_issue {s : State} {l : List Nat} (h : l.all (fun o => fires s o (sample o) fun _ => true) = true) :
    ∀ o ∈ l, ∃ e, Issues s group o (sample o) e := fun o ho => by
  obtain ⟨e, h1, -⟩ := issues_of_fires (List.all_eq_true.mp h o ho)
  exact ⟨e, h1⟩

/-! ## Witnesses: every word of the computing families issues -/

theorem witness_integers : ∀ o ∈ List.range' 0x10 32, ∃ e, Issues demo group o (sample o) e := samples_issue (by decide +kernel)
theorem witness_logic : ∀ o ∈ List.range' 0x30 32, ∃ e, Issues demo group o (sample o) e := samples_issue (by decide +kernel)
theorem witness_lanes : ∀ o ∈ List.range' 0x50 32, ∃ e, Issues demo group o (sample o) e := samples_issue (by decide +kernel)
theorem witness_local : ∀ o ∈ List.range' 0x70 32, ∃ e, Issues demo group o (sample o) e := samples_issue (by decide +kernel)
theorem witness_floats : ∀ o ∈ List.range' 0x90 32, ∃ e, Issues demo group o (sample o) e := samples_issue (by decide +kernel)
theorem witness_engines : ∀ o ∈ List.range' 0xB0 32, ∃ e, Issues demo group o (sample o) e := samples_issue (by decide +kernel)
theorem witness_monitor : ∀ o ∈ List.range' 0xD0 16, ∃ e, Issues demoMon group o (sample o) e := samples_issue (by decide +kernel)
theorem witness_reading : ∀ o ∈ List.range' 0xE0 32, ∃ e, Issues demo group o (sample o) e := samples_issue (by decide +kernel)

/-! ## Witnesses: control, traps, masks, barriers -/

/-- The package with a second wave in slot 1, another quadrant, and a team of 33 threads. -/
def twoWaves : State :=
  let w : Wave := { (default : Wave) with team := 1, number := 1, lanes := [(0, thread)], credit := 1 }
  { onCore (fun c => { c with waves := c.waves ++ [(1, w)] }) with
    launches := [(1, { (default : Launch) with id := 1, pkt := { packet with tx := 33 } })] }

/-- RDLANE from the thread itself, from a wave of another quadrant, and a sample still to be taken (R19, R95). -/
theorem witness_lane_reads :
    Fires demo 0x48 (frm (.v 1) (.v 2) (.imm 0)) (fun e => e.nb = none ∧ ∀ l ∈ e.act, farSource e l (threadOf e.s e.core e.team 0) = false) ∧
    Fires twoWaves 0x48 (frm (.v 1) (.v 2) (.imm 32)) (fun e => e.nb = none ∧ ∀ l ∈ e.act, farSource e l (threadOf e.s e.core e.team 32) = true) ∧
    (let p : Pend := { (default : Pend) with id := 5, samples := [⟨⟨0, 0⟩, .v 1, ⟨0, 0⟩, 2, true⟩] }
     (((onCore fun c => { c with pends := [p] }).core 0).pends.find? fun q => q.id == p.id) = some p) := by
  refine ⟨fires_intro (by decide +kernel), fires_intro (by decide +kernel), by decide +kernel⟩

def offset (k : W32) : Form := frm .nul .nul .nul (.imm k)

theorem witness_Branches :
    Fires demo 0x02 (offset 0) (fun e => ∀ l ∈ e.act, (resolve e.s e.core e.team (e.mon l.2) 0).isSome = true) ∧
    Fires demo 0x02 (offset 2) (fun e => ¬ ∀ l ∈ e.act, (resolve e.s e.core e.team (e.mon l.2) 2).isSome = true) ∧
    Fires demo 0x04 (offset 0) (fun e => (∀ l ∈ e.act, (resolve e.s e.core e.team (e.mon l.2) 0).isSome = true) ∧
      (∀ l ∈ e.act, 4 * ((e.s.lane e.core l.2).cd + 1) ≤ e.pkt.priv) ∧
      (callLane e.team e.core e.pkt (e.s, []) (⟨0, 0⟩, 0x10000)).1.live e.team = true) ∧
    Fires (onThread fun l => { l with cd := 16 }) 0x04 (offset 0) (fun e => ∀ l ∈ e.act, e.pkt.priv < 4 * ((e.s.lane e.core l.2).cd + 1)) ∧
    Fires demo 0x06 (frm .nul .nul .nul) (fun e => ∀ l ∈ e.act, (e.s.lane e.core l.2).cd = 0) := by
  refine ⟨?_, ?_, ?_, ?_, ?_⟩ <;> exact fires_intro (by decide +kernel)

/-- A call stores its frame, and a RET after it finds the frame. -/
def called : State := (callLane 1 0 packet (demo, []) (⟨0, 0⟩, 0x1000C)).1

theorem witness_calls : called.live 1 = true ∧ (called.lane 0 ⟨0, 0⟩).cd = 1 ∧
    (match performLane demo 0 1 (teamAsid demo 1) [frameAccess demo 0 packet (demo.team 1) ⟨0, 0⟩ 0 1 (leBytes 4 24)] with
      | .ok u => u.live 1 | _ => false) = true ∧
    (let s : State := called.onLane 0 ⟨0, 0⟩ fun l => { l with clause := thread.clause }
     Fires s 0x06 (frm .nul .nul .nul) (fun e => (∀ l ∈ e.act, (e.s.lane e.core l.2).cd ≠ 0 ∧
        testLocal e.pkt (e.s.team e.team) 0 false (frameAddr e.pkt ((e.s.lane e.core l.2).cd - 1)) 4 = none) ∧
        (retLoads e.core e.team (e.act.map fun l =>
          (l.2, frameAccess e.s e.core e.pkt (e.s.team e.team) l.2 ((e.s.lane e.core l.2).cd - 1) 0 [])) e.s []).2.all
          (fun x => match x.2 with | .value _ => true | _ => false) = true)) :=
  ⟨by decide +kernel, by decide +kernel, by decide +kernel, fires_intro (by decide +kernel)⟩

/-- Lanes that wait at a header and lanes that do not (R22). -/
theorem witness_ClauseHeader :
    (demo.cur = some group ∧ group.refs.Nodup ∧ ∃ r ∈ group.refs, (demo.lane 0 r).flagsClear 1 = true) ∧
    ∃ r ∈ group.refs, ((onThread fun l => { l with flags := [(0, 1)] }).lane 0 r).flagsClear 1 = false := by decide +kernel

theorem witness_SLEEP_ends :
    let s := onThread fun l => { l with block := .sleep 0 }
    (s.lane 0 ⟨0, 0⟩).block = .sleep 0 ∧ 0 ≤ s.now := by decide +kernel

theorem witness_TrapEntry :
    group.refs.Nodup ∧ (∀ r ∈ group.refs, (demo.lane 0 r).mon = false) ∧ effMonLen demo (teamRcb demo 1) ≠ 0 ∧
    (∀ r ∈ group.refs, outstanding demo 0 r = false) ∧
    (let range := codeRange demo 1 false
     range.1 + range.2 < ((onThread fun l => { l with pc := 0x10030 }).lane 0 ⟨0, 0⟩).pc.toNat + 12 ∧
       ¬ ((demo.lane 0 ⟨0, 0⟩).pc.toNat < range.1 ∨ range.1 + range.2 < (demo.lane 0 ⟨0, 0⟩).pc.toNat + 12)) ∧
    mayReject 0x10 = false ∧ mayReject 0x70 = true := by decide +kernel

theorem witness_TrapWords :
    Fires demo 0x08 (offset 9) (fun _ => True) ∧ Fires demo 0x09 (offset 9) (fun _ => True) ∧ Fires demo 0x0D (offset 9) (fun _ => True) ∧
    Fires demo 0x0C (frm .nul (.p 1) .nul (.imm 9)) (fun e => ∃ l ∈ e.act, e.pred l (.p 1) = false) ∧
    Fires demo 0x0C (frm .nul (.p 7) .nul (.imm 9)) (fun e => ∀ l ∈ e.act, e.pred l (.p 7) = true) ∧
    Fires demoMon 0x0E (frm .nul .nul .nul) (fun e => ∀ l ∈ e.act, (eretTarget e.s e.core e.team (e.s.lane e.core l.2).mregs).isSome = true) ∧
    Fires (onThread fun l => { l with mon := true, mregs := { l.mregs with mepc := 2 } }) 0x0E (frm .nul .nul .nul)
      (fun e => ∃ l ∈ e.act, eretTarget e.s e.core e.team (e.s.lane e.core l.2).mregs = none) := by
  refine ⟨?_, ?_, ?_, ?_, ?_, ?_, ?_⟩ <;> exact fires_intro (by decide +kernel)

theorem witness_monitor_entry :
    let s := blocked (.trap 1 0 1 [])
    (s.core 0).findWait 7 = some (waiting (.trap 1 0 1 [])) ∧ (waiting (.trap 1 0 1 [])).slot = 0 ∧
    ∀ r ∈ (waiting (.trap 1 0 1 [])).lanes, outstanding s 0 r = false := by decide +kernel

theorem witness_MasksAndRegions :
    (let s := package { thread with block := .jwait 2 } (fun w => { w with group := [], masks := [(2, 1)] }) id id home
     (s.wave 0 0).group = [] ∧ (∃ i ∈ arrivedAt (s.wave 0 0) 2, True) ∧
      ∀ i < 32, (tgetD (s.wave 0 0).masks 2 0).getLsbD i = true → i ∈ arrivedAt (s.wave 0 0) 2) ∧
    (let s := onCore fun c => { c with reformWait := [(0, ⟨0, 0⟩)] }
     (s.core 0).reformWait = [(0, ⟨0, 0⟩)] ∧ (binFor (s.core 0) (s.wave 0 0).team (reformKey (s.lane 0 ⟨0, 0⟩)) true).isSome = true ∧
       s.firstHalf = true) ∧
    (let s : State := { (onCore fun c => { c with bins := [(0, { team := 1, key := 0, members := [⟨0, 0⟩], opened := 0 })] }) with now := 1025 }
     (tget (s.core 0).bins 0).isSome = true ∧ s.lateHalf = true ∧ (tgetD (s.core 0).bins 0 default).opened + 512 ≤ s.now / 2) := by decide +kernel

theorem witness_Barriers :
    (let s : State := { (onThread fun l => { l with block := .bart 0 0 (.p 1) 0 }) with now := 2048 }
     (s.lane 0 ⟨0, 0⟩).block = .bart 0 0 (.p 1) 0 ∧ 0 + 2048 ≤ s.now) ∧
    (let x : Barrier := { (default : Barrier) with expect := 1, arrived := 1, arrivedBits := [0] }
     1 ∉ x.arrivedBits ∧ 0 ∈ x.arrivedBits ∧ 1 ≤ x.arrived ∧ x.expect ≤ x.arrived) ∧
    (let x : Barrier := { (default : Barrier) with expect := 1 }
     ¬ (1 ≤ x.arrived ∧ x.expect ≤ x.arrived)) := by decide +kernel

/-! ## Witnesses: local memory, windows, monitors, slips, rings -/

/-- An access of the last bytes of the scratchpad may be made. -/
def lastBytes (n : Nat) (e : Env) : Prop :=
  e.s.live e.team = true ∧ (e.s.team e.team).core = e.core ∧ (∀ k ∈ (e.s.core e.core).claims, k.team ≠ e.team) ∧
  (∀ l ∈ e.act, (e.src l (.s 4) .int).toNat + 4096 ≤ e.pkt.scratch) ∧ 4096 % n = 0 ∧
  ∀ k ∈ linesOf (4096 - n) n, k ∉ (e.s.team e.team).scratchPoison

/-- The sample of an opcode at an offset. -/
def atOffset (o : Nat) (k : W32) : Form := { sample o with c := .imm k }

theorem witness_ScratchpadAccesses :
    Fires demo 0x70 (atOffset 0x70 4095) (fun e => lastBytes 1 e) ∧ Fires demo 0x71 (atOffset 0x71 4094) (fun e => lastBytes 2 e) ∧
    Fires demo 0x72 (atOffset 0x72 4092) (fun e => lastBytes 4 e) ∧ Fires demo 0x73 (atOffset 0x73 4088) (fun e => lastBytes 8 e) ∧
    Fires demo 0x74 (atOffset 0x74 4080) (fun e => lastBytes 16 e) ∧ Fires demo 0x75 (atOffset 0x75 4095) (fun e => lastBytes 1 e) ∧
    Fires demo 0x76 (atOffset 0x76 4094) (fun e => lastBytes 2 e) ∧ Fires demo 0x77 (atOffset 0x77 4092) (fun e => lastBytes 4 e) ∧
    Fires demo 0x78 (atOffset 0x78 4088) (fun e => lastBytes 8 e) ∧ Fires demo 0x79 (atOffset 0x79 4080) (fun e => lastBytes 16 e) ∧
    Fires demo 0x7A (atOffset 0x7A 4092) (fun e => lastBytes 4 e) ∧
    Fires demo 0x7B (atOffset 0x7B 4092) (fun e => lastBytes 4 e ∧ (e.sregs e.first (sample 0x7B).b 1).length = 1) ∧
    Fires demo 0x7C (atOffset 0x7C 4092) (fun e => lastBytes 4 e ∧ ∀ l ∈ e.act, (e.src l (sample 0x7C).b .int).toNat % 4 = 0) ∧
    Fires demo 0x7D (atOffset 0x7D 4092) (fun e => lastBytes 4 e ∧ ∀ l ∈ e.act, (e.src l (sample 0x7D).b .int).toNat % 4 = 0) := by
  simp only [lastBytes]
  refine ⟨?_, ?_, ?_, ?_, ?_, ?_, ?_, ?_, ?_, ?_, ?_, ?_, ?_, ?_⟩ <;> exact fires_intro (by decide +kernel)

theorem witness_LocalAtomics :
    (∀ o ∈ [0x80, 0x81, 0x82, 0x83, 0x84, 0x85, 0x86, 0x88, 0x89, 0x8A, 0x8E, 0x8F],
      Fires demo o (atOffset o 4092) (fun e => lastBytes 4 e)) ∧
    (∀ o ∈ [0x8B, 0x8D], Fires demo o (atOffset o 4088) (fun e => lastBytes 8 e)) ∧
    Fires demo 0x87 (sample 0x87) (fun e => lastBytes 4 e) ∧ Fires demo 0x8C (sample 0x8C) (fun e => lastBytes 8 e) ∧
    ((fp32.decode 0x7FC00000).isNan = true ∧ (fp32.decode 0).isNan = false) := by
  simp only [lastBytes, List.forall_mem_cons, List.not_mem_nil, false_implies, implies_true, and_true]
  refine ⟨⟨?_, ?_, ?_, ?_, ?_, ?_, ?_, ?_, ?_, ?_, ?_, ?_⟩, ⟨?_, ?_⟩, ?_, ?_, by decide +kernel⟩ <;>
    exact fires_intro (by decide +kernel)

theorem witness_ScratchpadFrame :
    let a : Access := { (default : Access) with kind := 1, addr := 8, size := 2, data := [1, 2] }
    Memory.wf [(3, 7)] = true ∧ a.kind = 1 ∧ a.data.length = a.size ∧ ¬ storesAt a 7 ∧ ¬ storesAt a 10 := by
  refine ⟨by decide, by decide, by decide, ?_, ?_⟩ <;> simp [storesAt]

theorem witness_FolioAccesses :
    let s := onTeam fun t => { t with folios := [1] }
    let reach (e : Env) : Prop := e.s.live e.team = true ∧ (e.s.core e.core).claims = [] ∧ (e.s.core e.core).folioPoison = [] ∧
      ∀ l ∈ e.act, (e.src l (.s 4) .int).toNat = 0 ∧ 1 ∈ (e.s.team e.team).folios
    29692 / 2 ^ 20 = 0 ∧ 29692 % 16384 + 4 ≤ 13312 ∧ 29692 % 4 = 0 ∧ 29692 / 16384 % 64 = 1 ∧
    Fires s 0x7E (atOffset 0x7E 29692) reach ∧ Fires s 0x7F (atOffset 0x7F 29692) reach ∧ (sample 0x7F).isLong 0x7F = false := by
  refine ⟨by decide, by decide, by decide, by decide, ?_, ?_, by decide +kernel⟩ <;> exact fires_intro (by decide +kernel)

/-- An outstanding word of the thread. -/
def pending (p : Pend) : State := onCore fun c => { c with pends := [p] }

theorem witness_LongLatencyCompletion :
    let p : Pend := { (default : Pend) with id := 5, lanes := [⟨0, 0⟩], dests := [.v ⟨0, 0⟩ 3 9], marks := [(⟨0, 0⟩, 1)] }
    (((pending p).core 0).pends.find? fun q => q.id == p.id) = some p ∧ p.samples = [] ∧ p.loads = [] ∧ p.held = 0 ∧
    ((pending p).lane 0 ⟨0, 0⟩).exited = false ∧ p.dests = [] ++ Dest.v ⟨0, 0⟩ 3 9 :: [] := by decide +kernel

/-- A miss on the line at 0x100000, and one on a page that is absent. -/
def missing (line : Nat) : State := onCore fun c => { c with
  mses := [{ (default : Mse) with id := 3, line := line }], lines := [{ (default : CLine) with line := line }] }

/-- A store of the thread to its scratchpad that waited for a claim. -/
def heldStore : Access := { (default : Access) with kind := 1, addr := 8, size := 4, data := [1, 2, 3, 4] }

theorem witness_LocalEvents :
    (((missing 0x2000).core 0).mses.find? fun x => x.id == 3).isSome = true ∧
    (match (translateFor (missing 0x2000) 1 0 0 0x100000 false).1 with | .hbm _ _ => true | _ => false) = true ∧
    (translateFor (missing 0x800000) 1 0 0 0x40000000 false).1 = .absent ∧
    (let k := WaitKind.parked [] 0 0x2000 none
     ((blocked k).core 0).findWait 7 = some (waiting k) ∧ (waiting k).slot = 0 ∧
       (match (translateFor (blocked k) 1 0 0 0x100000 false).1 with | .hbm _ _ => true | _ => false) = true) ∧
    (let k := WaitKind.claim [heldStore]
     ((blocked k).core 0).findWait 7 = some (waiting k) ∧ unclaimed (blocked k) 0 1 7 [heldStore] heldStore.r = true ∧
       ([heldStore].filter fun a => unclaimed (blocked k) 0 1 7 [heldStore] a.r) = [heldStore] ∧ ((blocked k).core 0).claims = [] ∧
       (match performLane (blocked k) 0 1 0 [heldStore] with | .ok u => u.live 1 | _ => false) = true) ∧
    (let k := WaitKind.record 64 64
     ((blocked k).core 0).findWait 7 = some (waiting k) ∧ recordClaimed (blocked k) 0 1 64 64 = false) := by decide +kernel

/-- A team with window 0 mapped at 0x100000, and a core with a dirty line of it. -/
def mapped (held : Option Nat) (ls : Bool) : State :=
  package thread id (fun t => { t with windows := [(0, { base := 0x100000, len := 0x1000, wr := true })] })
    (fun c => if ls then { c with lines := [{ (default : CLine) with
      line := 0x2000, way := 8, bytes := [(0, 5)], valid := [0], dirty := [0], writers := [1], lastWriter := 1, held := held }] } else c) home

theorem witness_WindowWords :
    Fires demo 0x66 (frm .nul .nul .nul (.reg .nul 0) 0x21) (fun _ => True) ∧
    Fires demo 0x66 (frm .nul .nul .nul (.reg .nul 0) 0x14) (fun _ => True) ∧
    (∀ d ∈ [true, false], Fires (mapped none d) 0x66 (frm .nul .nul .nul (.reg .nul 0) 0x26) (fun e =>
      decide (dirtyLines (fixTeamLoads e.s e.core e.team) e.core (teamAsid (fixTeamLoads e.s e.core e.team) e.team) ≠ []) = d)) ∧
    Fires (mapped none false) 0x67 (atOffset 0x67 0x40000FFF) (fun e =>
      localPlace e.pkt (e.s.team e.team) (e.addr e.first (atOffset 0x67 0x40000FFF)).toNat 1 = .window 0x100FFF true ∧
      (prefetchLine e.s e.core ⟨0, 0⟩ e.team (teamAsid e.s e.team) 0x201F false).live e.team = true) ∧
    Fires demo 0x6B (frm .nul (.s 4) (.imm 128)) (fun e => 0 < e.pkt.windows ∧ (e.b e.first (frm .nul (.s 4) (.imm 128)) .int).toNat = 128) ∧
    Fires demo 0x6B (frm .nul (.s 4) (.imm 128) (.reg .nul 0) 1) (fun e => e.pkt.windows ≤ 1) ∧
    Fires demo 0x6B (frm .nul (.s 4) .nul (.imm 0x08000080)) (fun e => 2 ^ 27 < (e.b e.first (frm .nul (.s 4) .nul (.imm 0x08000080)) .int).toNat) ∧
    Fires demo 0x6B (frm .nul (.s 4) (.imm 1)) (fun e => ¬ (e.b e.first (frm .nul (.s 4) (.imm 1)) .int).toNat % 128 = 0) := by
  simp only [List.forall_mem_cons, List.not_mem_nil, false_implies, implies_true, and_true]
  refine ⟨?_, ?_, ⟨?_, ?_⟩, ?_, ?_, ?_, ?_, ?_⟩ <;> exact fires_intro (by decide +kernel)

/-- A fence that waits, with a line left and with none. -/
theorem witness_fence_waits :
    (∀ h ∈ [none, some 0], let s := mapped h true
      s.live (s.wave 0 0).team = true ∧ (decide (heldAmong s 0 (teamAsid s 1) [0x2000] = [])) = h.isNone) ∧
    tget (demo.team 1).newWindows 0 = none ∧ (demo.team 1).newWindows = [] := by decide +kernel

/-- WBW, INVW and DISW of the last line of the window, and of a range beyond it. -/
theorem witness_WindowRanges :
    (∀ k ∈ [0, 1, 2], Fires (mapped none true) (0x68 + k) { frm .nul .nul (.imm 128) with c := .imm 0x40000F80 } (fun e =>
      (windowRange e.pkt (e.s.team e.team) 0x40000F80 128).isSome = true ∧
      (maintainLane k e.core e.team (e.s, []) (⟨0, 0⟩, 0x100F80, 128)).1.live e.team = true)) ∧
    Fires (mapped none true) 0x68 { frm .nul .nul (.imm 128) with c := .imm 0x40000F81 } (fun e =>
      (windowRange e.pkt (e.s.team e.team) 0x40000F81 128).isNone = true) ∧
    (((mapped (some resumed) true).core 0).lines.find? fun x => x.line == 0x2000 && x.held == some resumed).isSome = true ∧
    (writeBack (mapped none true) 0 (((mapped none true).core 0).lines.headD default)).1 = .done ∧
    linesIn ((mapped none true).core 0) 0 0x100080 128 = [] ∧ findMse ((mapped none true).core 0) 0 0x2000 = none ∧
    (findLine ((mapped none true).core 0) 0 0x2000).isSome = true := by
  refine ⟨?_, fires_intro (by decide +kernel), by decide +kernel, by decide +kernel, by decide +kernel, by decide +kernel, by decide +kernel⟩
  simp only [List.forall_mem_cons, List.not_mem_nil, false_implies, implies_true, and_true]
  refine ⟨?_, ?_, ?_⟩ <;> exact fires_intro (by decide +kernel)

theorem witness_LocalMonitor :
    Fires demo 0x6C (atOffset 0x6C 4092) (fun e => e.act = [e.first] ∧ lastBytes 4 e) ∧ (sample 0x6C).isLong 0x6C = false ∧
    Fires demo 0x6D (sample 0x6D) (fun _ => True) ∧
    (let s := onThread fun l => { l with block := .lmwait (.p 1) 0 1, lmon := .fired }
     (s.lane 0 ⟨0, 0⟩).block = .lmwait (.p 1) 0 1 ∧ (s.lane 0 ⟨0, 0⟩).lmon = .fired) ∧
    (let s : State := { (onThread fun l => { l with block := .lmwait (.p 1) 0 1, lmon := .armed 3 }) with now := 2 }
     (s.lane 0 ⟨0, 0⟩).lmon = .armed 3 ∧ 0 + 2 * 1 ≤ s.now ∧ (s.wave (s.team 1).core 0).team = 1 ∧ 3 ∈ linesOf 384 4) := by
  simp only [lastBytes]
  exact ⟨fires_intro (by decide +kernel), by decide +kernel, fires_intro (by decide +kernel), by decide +kernel, by decide +kernel⟩

/-- The team with its slips. -/
def slipped (t : Tbl Slip) : State := onTeam fun x => { x with slips := t }

theorem witness_Slips :
    (∀ o ∈ [0xB4, 0xB6, 0xB7], Fires (slipped [(3, .set)]) o { sample o with a := .imm 8 }
      (fun e => testSlips e.s e.team (e.src64 e.first (.imm 8) .int) false = .holds [3] 3)) ∧
    Fires (slipped [(0, .set), (3, .set)]) 0xB5 { sample 0xB5 with a := .imm 9 }
      (fun e => testSlips e.s e.team (e.src64 e.first (.imm 9) .int) true = .holds [0, 3] 0 ∨
        testSlips e.s e.team (e.src64 e.first (.imm 9) .int) true = .holds [0, 3] 1) ∧
    (∀ o ∈ [0xB4, 0xB6, 0xB7], Fires demo o { sample o with a := .imm 8 }
      (fun e => testSlips e.s e.team (e.src64 e.first (.imm 8) .int) false = .fails)) ∧
    (∀ o ∈ [0xB4, 0xB6, 0xB7], Fires (slipped [(3, .pending)]) o { sample o with a := .imm 8 }
      (fun e => testSlips e.s e.team (e.src64 e.first (.imm 8) .int) false = .waits ∧ e.nb = none)) ∧
    Fires (slipped [(3, .pending)]) 0xB5 { sample 0xB5 with a := .imm 8 }
      (fun e => testSlips e.s e.team (e.src64 e.first (.imm 8) .int) true = .waits ∧ e.nb = none) ∧
    Fires demo 0xB5 { sample 0xB5 with a := .imm 8 } (fun e => testSlips e.s e.team (e.src64 e.first (.imm 8) .int) true = .fails) := by
  simp only [List.forall_mem_cons, List.not_mem_nil, false_implies, implies_true, and_true]
  refine ⟨⟨?_, ?_, ?_⟩, ?_, ⟨?_, ?_, ?_⟩, ⟨?_, ?_, ?_⟩, ?_, ?_⟩ <;> exact fires_intro (by decide +kernel)

/-- The package with a waiting word and a team. -/
def blockedIn (f : Team → Team) (k : WaitKind) (d : Opnd) (now : Nat) : State :=
  { package { thread with block := .word 7 } id f (fun c => { c with waits := [waiting k d] }) home with now := now }

theorem witness_SlipWaits :
    (let k := WaitKind.slips 8 false false true
     let s := blockedIn (fun t => { t with slips := [(3, .set)] }) k (.p 1) 0
     (s.core 0).findWait 7 = some (waiting k (.p 1)) ∧ s.now % 2 = 0 ∧ testSlips s ((waiting k (.p 1)).team s 0) 8 false = .holds [3] 3) ∧
    (let k := WaitKind.slips 8 false false true
     let s := blockedIn (fun t => { t with slips := [(3, .pending)] }) k (.p 1) 2048
     (s.core 0).findWait 7 = some (waiting k (.p 1)) ∧ 0 + 2048 ≤ s.now ∧ testSlips s ((waiting k (.p 1)).team s 0) 8 false = .waits) := by
  decide +kernel

/-- The team with completion ring 0. -/
def ringed (r : CRing) : State := onTeam fun x => { x with crings := [(0, r)] }
def ring (h : W32) : CRing := { base := 0, size := 2, head := h, tail := 0, scopes := [4] }

theorem witness_Rings :
    Fires (ringed (ring 1)) 0xBA (sample 0xBA) (fun e => let r := tgetD (e.s.team e.team).crings 0 default; r.size ≠ 0 ∧ r.head ≠ r.tail) ∧
    Fires demo 0xBA (sample 0xBA) (fun e => (tgetD (e.s.team e.team).crings 0 default).size = 0) ∧
    Fires (ringed (ring 0)) 0xBA (sample 0xBA) (fun e => let r := tgetD (e.s.team e.team).crings 0 default; r.size ≠ 0 ∧ r.head = r.tail) ∧
    Fires (ringed (ring 2)) 0xBB (sample 0xBB) (fun _ => True) ∧
    Fires demo 0xBB (frm .nul (.imm 0) (.imm 64) (.reg .nul 0) 8) (fun e => 0 + 64 * 64 ≤ e.pkt.scratch) ∧
    Fires (onWave fun w => { w with s := [(4, 0x2000)] }) 0xBB (frm .nul (.s 4) (.imm 0) (.reg .nul 0) 8) (fun e =>
      e.pkt.scratch < (e.src e.first (.s 4) .int).toNat ∧ (e.src e.first (.s 4) .int).toNat % 64 = 0) ∧
    Fires demo 0xBB (frm .nul (.imm 0) (.imm 3) (.reg .nul 0) 8) (fun _ => True) ∧
    Fires demo 0xBB (frm .nul (.imm 64) (.imm 64) (.reg .nul 0) 8) (fun e => e.pkt.scratch < 64 + 64 * 64) ∧
    Fires demo 0xBB (frm .nul (.imm 4) (.imm 2) (.reg .nul 0) 8) (fun e => 4 + 64 * 2 ≤ e.pkt.scratch ∧ 4 % 64 ≠ 0) := by
  refine ⟨?_, ?_, ?_, ?_, ?_, ?_, ?_, ?_, ?_⟩ <;> exact fires_intro (by decide +kernel)

theorem witness_RingWaits :
    (let k := WaitKind.ring 0 1
     let s := blockedIn (fun t => { t with crings := [(0, ring 1)] }) k (.s 1) 0
     let r := tgetD (s.team ((waiting k (.s 1)).team s 0)).crings 0 default
     (s.core 0).findWait 7 = some (waiting k (.s 1)) ∧ s.now % 2 = 0 ∧ r.size ≠ 0 ∧ r.head ≠ r.tail) ∧
    (let k := WaitKind.ring 0 1
     let s := blockedIn (fun t => { t with crings := [(0, ring 0)] }) k (.s 1) 2
     let r := tgetD (s.team ((waiting k (.s 1)).team s 0)).crings 0 default
     0 + 2 * 1 ≤ s.now ∧ r.head = r.tail) := by decide +kernel

/-! ## Witnesses: queues, posts, commands -/

/-- Queue register 0 of the wave bound to an episode of carrel 3, whose mailboxes hold what the test chooses. -/
def mailbox (push : Bool) (k : Carrel) (block : Block) (ws : List Wait) : State :=
  { package { thread with block := block } (fun w => { w with q := [(0, ⟨0, 3, 1, push⟩)] }) id (fun c => { c with waits := ws }) home with
    dies := [(0, { (default : Die) with carrels := [(3, k)] })] }

/-- A running episode. -/
def episode : Carrel := { (default : Carrel) with state := .running, gen := 1, launch := 1, rcb := 0x8000, active := some 0 }
def entry64 : List Byte := List.replicate 64 1

theorem witness_QueueRegisters :
    Fires (mailbox false { episode with obs := [entry64] } .none []) 0xBD (sample 0xBD) (fun e =>
      tget (e.s.wave e.core e.first.2.slot).q 0 = some ⟨0, 3, 1, false⟩ ∧ observe (e.s.carrel 0 3) = some entry64) ∧
    Fires (mailbox false { episode with obs := [entry64] } .none []) 0xBE (sample 0xBE) (fun e => observe (e.s.carrel 0 3) = some entry64) ∧
    Fires (mailbox false episode .none []) 0xBD (sample 0xBD) (fun e => observe (e.s.carrel 0 3) = none) ∧
    Fires (mailbox false episode .none []) 0xBE (sample 0xBE) (fun e => observe (e.s.carrel 0 3) = none) ∧
    Fires (mailbox true episode .none []) 0xBC (sample 0xBC) (fun e =>
      (match pushAction e.s e.core e.team 0 3 (List.replicate 64 0) with | .done true _ => true | _ => false) = true) ∧
    Fires (mailbox true episode .none []) 0xBC (sample 0xBC) (fun e =>
      let k := e.s.carrel 0 3
      let fixed := fixTeamLoads e.s e.core e.team
      tget (e.s.wave e.core e.first.2.slot).q 0 = some ⟨0, 3, 1, true⟩ ∧ k.state = .running ∧ k.actions.length < 8 ∧
        fixed.live e.team = true ∧ ∀ l ∈ dirtyLines fixed e.core k.asid, lineIn k.arena k.arenaLen l.line = false) ∧
    Fires (mailbox true { episode with state := .ended } .none []) 0xBC (sample 0xBC) (fun e => (e.s.carrel 0 3).state ≠ .running) ∧
    Fires (mailbox true { episode with actions := List.replicate 8 entry64 } .none []) 0xBC (sample 0xBC) (fun e =>
      (e.s.carrel 0 3).state = .running ∧ 8 ≤ (e.s.carrel 0 3).actions.length) ∧
    Fires demo 0xBD (sample 0xBD) (fun e => tget (e.s.wave e.core e.first.2.slot).q 0 = none) ∧
    Fires demo 0xBC (sample 0xBC) (fun e => tget (e.s.wave e.core e.first.2.slot).q 0 = none) := by
  refine ⟨?_, ?_, ?_, ?_, ?_, ?_, ?_, ?_, ?_, ?_⟩ <;> exact fires_intro (by decide +kernel)

theorem witness_mailbox_waits :
    (let k := WaitKind.queuePush 0 3 entry64
     let s := mailbox true episode (.word 7) [waiting k]
     (s.core 0).findWait 7 = some (waiting k) ∧
       (match pushAction s 0 ((waiting k).team s 0) 0 3 entry64 with | .done _ _ => true | _ => false) = true) ∧
    (let k := WaitKind.queuePop 0 3 16 false
     let s := mailbox false { episode with obs := [entry64] } (.word 7) [waiting k]
     (s.core 0).findWait 7 = some (waiting k) ∧ observe (s.carrel 0 3) = some entry64) ∧
    (let k := WaitKind.queueSrc 0 3
     let s := mailbox false { episode with obs := [entry64] } (.word 7) [waiting k]
     (s.core 0).findWait 7 = some (waiting k) ∧ observe (s.carrel 0 3) = some entry64) := by decide +kernel

/-- The scratchpad with doublewords at an address. -/
def record (a : Nat) (dws : List Nat) : Mem := memWrites [] a (dws.flatMap fun d => leBytes 8 d)
def recorded (a : Nat) (dws : List Nat) (slips : Tbl Slip) : State := onTeam fun t => { t with scratch := record a dws, slips := slips }

/-- A FENCE record of scope 6 (R225, R248). -/
def fenceRecord : Nat := 11 + 2 * 2 ^ 24 + 6 * 2 ^ 26

/-- CPOST of the record at the last 256 bytes of the scratchpad. -/
def cpost (k : W32) (slip : Opnd := .nul) : Form := frm (.v 16) .nul slip (.imm k)

def readRecord (a : Nat) (e : Env) : Ccr := ccrOf ((List.range 32).map fun i => memDw (e.s.team e.team).scratch (a + 8 * i))

/-- There is room for a command of class 0 of the word, of a kind and with a record. -/
def roomAt (e : Env) (kind : Nat) (dws : List W64) : Bool :=
  let s := (nextSeq e.s e.core 0).2
  let p := addCmd (if kind == cfenceKind then s else appendLower (fixTeamLoads s e.core e.team) e.core 0)
    { (default : Cmd) with kind := kind, dws := dws, team := e.team, core := e.core, tslot := (e.s.team e.team).tslot, state := .blocked }
  (blockedFor p.2 e.core 0).isEmpty && roomFor p.2 e.core 0 p.1

theorem witness_Posts :
    Fires (recorded 3840 [fenceRecord] []) 0xB0 (cpost 3840) (fun e =>
      3840 + 256 ≤ e.pkt.scratch ∧ recordClaimed e.s e.core e.team 3840 256 = false ∧ scratchBad e.s e.team 3840 256 = false ∧
      (readRecord 3840 e).check e.pkt (e.s.team e.team) = none ∧ roomAt e 11 [BitVec.ofNat 64 fenceRecord] = true) ∧
    Fires (package thread id (fun t => { t with scratch := record 0 [fenceRecord] })
        (fun c => { c with queues := [(0, List.replicate 32 1)] }) home) 0xB0 (cpost 0) (fun e =>
      (readRecord 0 e).check e.pkt (e.s.team e.team) = none ∧ roomAt e 11 [BitVec.ofNat 64 fenceRecord] = false) ∧
    Fires demo 0xB0 (cpost 0) (fun e => (readRecord 0 e).check e.pkt (e.s.team e.team) = some 1 ∧
      recordClaimed e.s e.core e.team 0 256 = false ∧ scratchBad e.s e.team 0 256 = false) ∧
    Fires demo 0xB0 (cpost 3841) (fun e => e.pkt.scratch < 3841 + 256) ∧
    Fires demo 0xB0 (cpost 128) (fun e => 128 + 256 ≤ e.pkt.scratch ∧ 128 % 256 ≠ 0) ∧
    Fires (recorded 0 [fenceRecord] [(3, .pending)]) 0xB0 (cpost 0 (.imm 0x83)) (fun e =>
      slipSelect (e.src e.first (.imm 0x83) .int) 0 false = (3, true) ∧ teamSlip e.s e.team 3 = .pending ∧ 3 < e.pkt.slips) ∧
    Fires demo 0xB1 (sample 0xB1) (fun e => roomAt e cfenceKind [11] = true) ∧
    Fires (onCore fun c => { c with queues := [(0, List.replicate 32 1)] }) 0xB1 (sample 0xB1) (fun e => roomAt e cfenceKind [11] = false) ∧
    Fires (slipped [(3, .pending)]) 0xB1 { sample 0xB1 with a := .imm 0x83 } (fun e =>
      (e.src e.first (.imm 0x83) .int).getLsbD 7 = true ∧ teamSlip e.s e.team 3 = .pending) := by
  refine ⟨?_, ?_, ?_, ?_, ?_, ?_, ?_, ?_, ?_⟩ <;> exact fires_intro (by decide +kernel)

/-- A command of the team. -/
def command (c : Cmd) (f : Core → Core) : State :=
  { onCore f with cmds := [(1, { c with team := 1 })], nextCmd := 2 }

theorem witness_commands :
    (let k := WaitKind.post 1 0
     let s := command { (default : Cmd) with kind := 11, dws := [BitVec.ofNat 64 fenceRecord], state := .blocked }
       fun c => { c with waits := [waiting k] }
     blockedFor s 0 0 = [waiting k] ∧ roomFor s 0 0 1 = true ∧ ∀ j < 0, canAppend s 0 j = false) ∧
    (let s := command { (default : Cmd) with state := .queued } id; (s.cmd 1).state = .queued ∧ ¬ ((s.cmd 1).kind = 10 ∧ (s.cmd 1).collSeq.isSome)) ∧
    ((command { (default : Cmd) with state := .following } id).cmd 1).state = .following ∧
    ((command { (default : Cmd) with state := .recording } id).cmd 1).state = .recording ∧
    (let s := command { (default : Cmd) with kind := 11, dws := [BitVec.ofNat 64 fenceRecord], state := .queued } fun c =>
       { c with queues := [(0, [1])] }
     pickStart s 0 = some (0, 1) ∧ freeEngine s 0 = some 0) := by decide +kernel

/-! ## Witnesses: the matrix array -/

def tiled (x : Team → Team) (c : Core → Core) : State := package thread id x c home

theorem witness_MatrixResources :
    Fires demo 0xC0 { sample 0xC0 with a := .imm 4 } (fun e => (4 ≠ 0 ∧ (e.s.team e.team).folios.length + 4 ≤ e.pkt.folios) ∧
      4 ≤ ((List.range 64).filter (folioFree e.s e.core)).length) ∧
    Fires demo 0xC0 { sample 0xC0 with a := .imm 5 } (fun e => ¬ (e.s.team e.team).folios.length + 5 ≤ e.pkt.folios) ∧
    Fires demo 0xC2 { sample 0xC2 with a := .imm 4 } (fun e => (e.s.team e.team).tiles.length + 4 ≤ e.pkt.accums ∧
      4 ≤ (tileOrder e.s e.core).length) ∧
    Fires demo 0xC2 { sample 0xC2 with a := .imm 0 } (fun _ => True) ∧
    Fires demo 0xC1 { sample 0xC1 with a := .imm 1 } (fun e => (e.s.team e.team).folios = []) ∧
    Fires (tiled (fun t => { t with folios := [0] }) id) 0xC1 { sample 0xC1 with a := .imm 1 } (fun e => 0 ∈ (e.s.team e.team).folios) ∧
    Fires demo 0xC3 { sample 0xC3 with a := .imm 1 } (fun e => (e.s.team e.team).tiles = []) ∧
    Fires (tiled (fun t => { t with tiles := [0] }) id) 0xC3 { sample 0xC3 with a := .imm 1 } (fun e => 0 ∈ (e.s.team e.team).tiles) := by
  refine ⟨?_, ?_, ?_, ?_, ?_, ?_, ?_, ?_⟩ <;> exact fires_intro (by decide +kernel)

theorem witness_resource_zero :
    (let w := waiting (.release [63] [])
     let s := blocked (.release [63] [])
     (s.core 0).waits = [w] ∧ [63].contains 63 = true ∧ releasable s 0 (s.wave 0 w.slot).team w.bid false 63 = true) ∧
    (let w := waiting (.release [] [3])
     let s := blocked (.release [] [3])
     (s.core 0).waits = [w] ∧ [3].contains 3 = true ∧ releasable s 0 (s.wave 0 w.slot).team w.bid true 3 = true) ∧
    (let op : MatOp := { (default : MatOp) with id := 9, team := 1, op := 4 }
     let s := onCore fun c => { c with mat := [op] }
     (s.core 0).mat = [op] ∧ op.team = 1 ∧ (s.core 0).planeTeam ≠ some 1) := by decide +kernel

/-- The operands of a matrix word with the whole of tile 0 as its region: 127 rows from 0, columns 0 to 511 (R276, R284). -/
def cause (e : Env) (d0 d1 : W64) : Option Nat := (mcmdOf d0 d1 0 0).cause e.pkt (e.s.team e.team)

/-- Tile 0 and folio 0 held, s4 and s5 as given, n operations in the queue, and a record in the scratchpad. -/
def loaded (x : W32) (n : Nat) (dws : List Nat) (slips : Tbl Slip) : State :=
  package thread (fun w => { w with s := [(4, x)] })
    (fun t => { t with tiles := [0], folios := [0], scratch := record 4064 dws, slips := slips })
    (fun c => { c with mat := List.replicate n { (default : MatOp) with id := 9, team := 1, op := 4 } }) home

/-- The record of a ZERO of element (0, 0) of tile 0, with slip 3 (R276). -/
def zeroRecord : List Nat := [4, 0, 0x43, 0]

theorem witness_MatrixWords :
    (∀ n ∈ [0, 31],
      Fires (loaded 0 n [] []) 0xC4 (frm .nul .nul (.imm 0) (.reg .nul 0) 7) (fun e => cause e 0x71 0 = none ∧ (e.s.core e.core).mat.length < 32 ∧ matrixWaits e.s e.core = []) ∧
      Fires (loaded 0 n [] []) 0xC5 (frm .nul (.s 4) (.imm 0) (.reg .nul 0) 7) (fun e => (e.src64 e.first (.s 4) .int).extractLsb' 0 16 = 0 ∧ cause e 0x72 0 = none ∧
        (e.s.core e.core).mat.length < 32 ∧ matrixWaits e.s e.core = []) ∧
      Fires (loaded 0 n [] []) 0xC6 (frm .nul (.s 4) (.imm 0) (.imm 0) 11) (fun e => (e.src64 e.first (.s 4) .int).extractLsb' 0 16 = 0 ∧ cause e 0xB3 0 = none ∧
        (e.s.core e.core).mat.length < 32 ∧ matrixWaits e.s e.core = []) ∧
      Fires (loaded 0 n [] []) 0xC7 (frm .nul (.s 4) .nul) (fun e => (e.src64 e.first (.s 4) .int).extractLsb' 0 16 = 0 ∧ cause e 4 0 = none ∧
        (e.s.core e.core).mat.length < 32 ∧ matrixWaits e.s e.core = [])) ∧
    Fires (loaded 0 32 [] []) 0xC4 (frm .nul .nul (.imm 0) (.reg .nul 0) 7) (fun e => cause e 0x71 0 = none ∧ ¬ (e.s.core e.core).mat.length < 32) ∧
    Fires (loaded 0 32 [] []) 0xC5 (frm .nul (.s 4) (.imm 0) (.reg .nul 0) 7) (fun e => cause e 0x72 0 = none ∧ ¬ (e.s.core e.core).mat.length < 32) ∧
    Fires (loaded 0 32 [] []) 0xC6 (frm .nul (.s 4) (.imm 0) (.imm 0) 11) (fun e => cause e 0xB3 0 = none ∧ ¬ (e.s.core e.core).mat.length < 32) ∧
    Fires (loaded 0 32 [] []) 0xC7 (frm .nul (.s 4) .nul) (fun e => cause e 4 0 = none ∧ ¬ (e.s.core e.core).mat.length < 32) ∧
    Fires (loaded 1 0 [] []) 0xC5 (frm .nul (.s 4) (.imm 0) (.reg .nul 0) 7) (fun e => ¬ (e.src64 e.first (.s 4) .int).extractLsb' 0 16 = 0) ∧
    (∀ n ∈ [31, 32], Fires (loaded 0 n zeroRecord []) 0xCF (atOffset 0xCF 4064) (fun e => 4064 + 32 ≤ e.pkt.scratch ∧ 4064 % 32 = 0 ∧
      recordClaimed e.s e.core e.team 4064 32 = false ∧ scratchBad e.s e.team 4064 32 = false ∧
      (mcmdOf 4 0 0x43 0).cause e.pkt (e.s.team e.team) = none ∧ (mcmdOf 4 0 0x43 0).slipEn = true ∧ (mcmdOf 4 0 0x43 0).slip = 3 ∧
      (List.range 4).map (fun i => memDw (e.s.team e.team).scratch (4064 + 8 * i)) = [4, 0, 0x43, 0] ∧ teamSlip e.s e.team 3 ≠ .pending)) ∧
    Fires (loaded 0 0 zeroRecord [(3, .pending)]) 0xCF (atOffset 0xCF 4064) (fun e => teamSlip e.s e.team 3 = .pending) := by
  simp only [List.forall_mem_cons, List.not_mem_nil, false_implies, implies_true, and_true]
  refine ⟨⟨⟨?_, ?_, ?_, ?_⟩, ?_, ?_, ?_, ?_⟩, ?_, ?_, ?_, ?_, ?_, ⟨?_, ?_⟩, ?_⟩ <;> exact fires_intro (by decide +kernel)

theorem witness_MatrixOperations :
    (let op : MatOp := { (default : MatOp) with team := 1, op := 4 }
     let s := blocked (.matrix op false)
     matrixWaits s 0 = [waiting (.matrix op false)] ∧ (s.core 0).mat.length < 32) ∧
    (∀ op ∈ [0x71, 0x472, 0xB3, 4], (
       let m : MatOp := { (default : MatOp) with id := 9, team := 1, dw0 := BitVec.ofNat 64 op, op := op % 16 }
       let s := package thread id (fun t => { t with tiles := [0], folios := [0] }) (fun c => { c with mat := [m] }) home
       let v := wakeMatrix s 0
       (v.core 0).mat = [m] ∧ v.live m.team = true ∧ heldBefore v 0 m = false ∧ (match performOp v 0 m with | .ok _ => true | _ => false) = true)) ∧
    (let m : MatOp := { (default : MatOp) with id := 9, team := 1, dw0 := 0x72, op := 2 }
     let s := package thread id (fun t => { t with tiles := [0], folios := [0], front := { (default : Plane) with fmt := 3 } })
       (fun c => { c with mat := [m] }) home
     let v := wakeMatrix s 0
     (v.core 0).mat = [m] ∧ v.live m.team = true ∧ heldBefore v 0 m = false ∧
       (match performOp v 0 m with | .bad 0x000E 1 => true | _ => false) = true ∧
       m.rec_.flag 1 = false ∧ streamPair m.rec_.fmt (s.team 1).front = false ∧ ((endByOp v m 0x000E 1).core 0).mat = []) ∧
    ((match performStream demo 0 1 (mcmdOf 0x72 0 0 0) with | .ok _ => true | _ => false) = true ∧ (mcmdOf 0x72 0 0 0).flag 1 = false ∧
      (match performZero demo 0 (mcmdOf 4 0 0 0) with | .ok _ => true | _ => false) = true) := by decide +kernel

/-- The element of row 0 and column 0 of tile 0 (R286). -/
def accAccess (o : Nat) (store : Bool) (id : Nat) (e : Env) : List Access := e.act.map fun l => { (default : Access) with
  r := l.2, kind := if store then 1 else 0, space := 3, addr := 0, size := 4
  data := if store then (e.vregs l (sample o).d 1).flatMap fun w => leBytes 4 w.toNat else []
  shape := .words (quadReg (sample o).d), pend := id }

theorem witness_MatrixData :
    Fires (loaded 0 0 [] []) 0xC9 (sample 0xC9) (fun e => ((e.s.core e.core).mat.filter fun m => m.team == e.team) = []) ∧
    Fires (loaded 0 1 [] []) 0xC9 (sample 0xC9) (fun e => ((e.s.core e.core).mat.filter fun m => m.team == e.team) ≠ []) ∧
    (∀ n ∈ [0, 1], ∀ o ∈ [0xCC, 0xCD], Fires (loaded 0 n [] []) o { sample o with a := .imm 0 } (fun e =>
      (∀ l ∈ e.act, accTest (e.s.team e.team) (e.src l (.imm 0) .int) 1 = none) ∧ (e.s.core e.core).mat.length = n ∧
      (performAccs (addPend e.s e.core (sample o) (mine e) (e.dests fun _ => []) [] [] 1).2 e.core e.team
        (accAccess o (o == 0xCD) (addPend e.s e.core (sample o) (mine e) (e.dests fun _ => []) [] [] 1).1 e)).live e.team = true)) ∧
    Fires (loaded 0 0 [] []) 0xCE { sample 0xCE with a := .imm 0 } (fun e => 0 ∈ (e.s.team e.team).folios ∧ e.s.live e.team = true ∧
      (e.s.core e.core).claims = [] ∧ Memory.wf (e.s.core e.core).folio = true ∧ e.nb = none) ∧
    Fires (loaded 0 0 [] []) 0xCE { sample 0xCE with a := .imm 1 } (fun e => 1 ∉ (e.s.team e.team).folios) := by
  simp only [List.forall_mem_cons, List.not_mem_nil, false_implies, implies_true, and_true]
  refine ⟨?_, ?_, ⟨⟨?_, ?_⟩, ?_, ?_⟩, ?_, ?_⟩ <;> exact fires_intro (by decide +kernel)

/-! ## Witnesses: monitors, the docket, the reading room -/

/-- The monitor's thread beside another team of the same context, and with n operations in its queue. -/
def monitor (n : Nat) : State :=
  let s := package { thread with mon := true } (fun w => { w with s := [(4, 0x100000)] }) (fun t => { t with tiles := [0], counters := [(1, { (default : Counter) with user := true })] })
    (fun c => { c with mat := List.replicate n { (default : MatOp) with id := 9, team := 1, op := 4 } }) home
  { s with
    launches := s.launches ++ [(2, { (default : Launch) with id := 2, pkt := packet })]
    teams := s.teams ++ [(2, { (default : Team) with launch := 2, tslot := 1, nwaves := 1, core := 1 })] }

/-- The save area of the context is bytes 0x100000 to 0x110FFFF of its address space. -/
theorem witness_MonitorWords :
    (∀ i ∈ [0, 13], Fires (monitor 0) 0xD3 { sample 0xD3 with a := .imm i } (fun _ => True)) ∧
    Fires (monitor 0) 0xD3 { sample 0xD3 with a := .imm 14 } (fun _ => True) ∧
    (∀ i ∈ [2, 8, 10, 13], Fires (monitor 0) 0xD4 { sample 0xD4 with a := .imm i } (fun _ => True)) ∧
    Fires (monitor 0) 0xDC { sample 0xDC with a := .imm 0 } (fun e => ∀ l ∈ e.act, (e.s.lane e.core l.2).mon = true) ∧
    Fires (onTeam fun t => { t with counters := [(1, { (default : Counter) with user := true })] }) 0xDC { sample 0xDC with a := .imm 1 }
      (fun e => ∀ l ∈ e.act, (e.s.lane e.core l.2).mon = false ∧ (counterOf e.s e.team 1).user = true) ∧
    Fires demo 0xDC { sample 0xDC with a := .imm 0 }
      (fun e => ∀ l ∈ e.act, (e.s.lane e.core l.2).mon = false ∧ (counterOf e.s e.team 0).user = false) ∧
    (∀ b ∈ [0x309, 0x30A, 0x400], Fires (monitor 0) 0xDD { sample 0xDD with b := .nul, c := .imm (BitVec.ofNat 32 b) }
      (fun e => (e.b e.first { sample 0xDD with b := .nul, c := .imm (BitVec.ofNat 32 b) } .int).toNat = b)) ∧
    Fires (monitor 0) 0xD9 { sample 0xD9 with a := .imm 3, b := .imm 0 } (fun e => killTarget e.s e.team 3 0 = none) ∧
    Fires (monitor 0) 0xD9 { sample 0xD9 with a := .imm 2, b := .imm 0 } (fun e => killTarget e.s e.team 2 0 = some 2 ∧
      (terminate e.s 2 { teamEntry e.s 2 with source := 5, fault := 0x0208, status := 7 } (some 0)).live e.team = true) ∧
    (∀ n ∈ [1, 32], ∀ o ∈ [0xD7, 0xD8], Fires (monitor n) o { sample o with a := .imm 0, b := .s 4 } (fun e =>
      0 ∈ (e.s.team e.team).tiles ∧ (e.b64 e.first { sample o with b := .s 4 } .int).toNat = 0x100000 ∧
      saveBase e.s (teamCtx e.s e.team) = 0x100000 ∧ saveLen e.s (teamCtx e.s e.team) = 0x1000000 ∧ (e.s.core e.core).mat.length = n ∧
      matrixWaits e.s e.core = [] ∧
      (runSaves 32 (blockWord (appendOp e.s e.core { (default : MatOp) with op := o - 0xD2, addr := 0x100000, team := e.team }).2 e.core (mine e)
        (.matDone 0) .nul .nul) e.core).live e.team = true)) ∧
    (∀ m ∈ [0, 1], Fires (monitor 0) 0xDB { sample 0xDB with mod := m } (fun _ => True)) := by
  simp only [List.forall_mem_cons, List.not_mem_nil, false_implies, implies_true, and_true]
  refine ⟨⟨?_, ?_⟩, ?_, ⟨?_, ?_, ?_, ?_⟩, ?_, ?_, ?_, ⟨?_, ?_, ?_⟩, ?_, ?_, ⟨⟨?_, ?_⟩, ?_, ?_⟩, ⟨?_, ?_⟩⟩ <;> exact fires_intro (by decide +kernel)

theorem witness_lease_ends :
    let s := blocked (.lease 0)
    (s.core 0).findWait 7 = some (waiting (.lease 0)) ∧ (0 : W64).toNat ≤ s.cycles.toNat := by decide +kernel

/-- A word of an opcode under a MOD. -/
def formOf (opc : Nat) (m : BitVec 9) : Form :=
  let sp := opSpec opc m
  frm (operandOf sp.d) (operandOf sp.a) (operandOf sp.b) (cOf sp.c) m

/-- The monitor with an entry in the docket, or none, and the record of a suspended FENCE at the start of the scratchpad, its
slip 3 as given (R339, R344). -/
def docketed (entry : Bool) (slip : Bool) (x : Slip) : State :=
  let s := package { thread with mon := true } id (fun t => { t with
      scratch := memWrite (record 0 [fenceRecord + (if slip then 2 ^ 8 * 3 + 2 ^ 14 else 0)]) 276 1, slips := [(3, x)] }) id
    (memWrite home 0x80F8 (if entry then 1 else 0))
  { s with cmds := [(1, { (default : Cmd) with team := 1, kind := 11, state := .suspended, seq := 5 })], nextCmd := 2 }

def resumeRecord (e : Env) : Ccr := ccrOf (readDws e.s e.team 0 32)

theorem witness_DocketWords :
    Fires (docketed true false .clear) 0xDA (formOf 0xDA 0) (fun e => dockReady e.s (teamCtx e.s e.team) = true) ∧
    Fires (docketed false false .clear) 0xDA (formOf 0xDA 0) (fun e => dockReady e.s (teamCtx e.s e.team) = false) ∧
    Fires (docketed false false .clear) 0xDA (formOf 0xDA 1) (fun e => dockReady e.s (teamCtx e.s e.team) = false ∧ e.nb = none) ∧
    Fires (docketed false false .clear) 0xD5 (formOf 0xD5 0) (fun _ => True) ∧
    Fires demoMon 0xD5 (formOf 0xD5 1) (fun e => 320 ≤ e.pkt.scratch ∧ (resumeRecord e).check e.pkt (e.s.team e.team) ≠ none) ∧
    Fires (docketed false false .clear) 0xD5 (formOf 0xD5 1) (fun e => recordClaimed e.s e.core e.team 0 320 = false ∧
      scratchBad e.s e.team 0 320 = false ∧ (resumeRecord e).check e.pkt (e.s.team e.team) = none ∧
      (memRead (e.s.team e.team).scratch 276).toNat = 1 ∧ (resumeRecord e).slipEn = false ∧
      (let seq := nextSeq e.s e.core 0
       let ticket := leNat (memReads (seq.2.team e.team).scratch 256 4)
       let p := addCmd (takeColl (takeHold seq.2 e.team ticket) e.team ticket)
         (recordCmd seq.2 e.team e.core 0 0 seq.1 (seq.2.lane e.core e.first.2).mon)
       blockedFor p.2 e.core 0 = [] ∧ roomFor p.2 e.core 0 p.1 = true)) ∧
    Fires (docketed false true .pending) 0xD5 (formOf 0xD5 1) (fun e => (resumeRecord e).check e.pkt (e.s.team e.team) = none ∧
      (resumeRecord e).slipEn = true ∧ (resumeRecord e).slip = 3) ∧
    Fires (docketed false true .set) 0xD5 (formOf 0xD5 1) (fun e => (resumeRecord e).check e.pkt (e.s.team e.team) = none ∧
      (resumeRecord e).slipEn = true ∧ teamSlip e.s e.team (resumeRecord e).slip ≠ .pending) ∧
    Fires (docketed false false .clear) 0xD6 { formOf 0xD6 0 with b := .imm 5 } (fun e =>
      ((ticketCmd e.s e.core e.team 5).filter fun k => (e.s.cmd k).state == .suspended) = some 1) := by
  refine ⟨?_, ?_, ?_, ?_, ?_, ?_, ?_, ?_, ?_⟩ <;> exact fires_intro (by decide +kernel)

theorem witness_docket_events :
    (let s := package { thread with mon := true, block := .word 7 } id id (fun c => { c with waits := [waiting (.dock 0) (.p 1)] })
       (memWrite home 0x80F8 1)
     (s.core 0).findWait 7 = some (waiting (.dock 0) (.p 1)) ∧ dockReady s (teamCtx s (s.wave 0 0).team) = true) ∧
    (let s : State := { demo with ctxs := [(0x8080, { (default : Ctx) with held := [(1, [1])] })] }
     (s.ctx 0x8080).held = [(1, [1])] ∧ dockCount s 0x8080 < dockSize s 0x8080 ∧ ((1 : Byte).toNat ≠ 2) ∧
       unwritten s 0x8080 (dockHead s 0x8080) = true) := by decide +kernel

/-- A record of R314 that breaks no rule: an image of 4,096 bytes, one microsecond for a step, one millisecond in all, the
carrel of the given DW6. -/
def openRecord (d6 : Nat) : List Nat := [0, 0, 0, 4096, 1 + 2 ^ 32, 0, d6, 0]

def carrels (all : Bool) (d6 : Nat) : State :=
  { recorded 4032 (openRecord d6) [] with
    dies := [(0, { (default : Die) with carrels := if all then (List.range 128).map fun c => (c, { episode with active := none }) else
      [(3, { episode with active := none })] })] }

/-- The handle of carrel 3's first episode in s4, and that episode or none (R316). -/
def handled (k : Option Carrel) : State :=
  { onWave (fun w => { w with s := [(4, 0x10003)] }) with
    dies := match k with | some k => [(0, { (default : Die) with carrels := [(3, k)] })] | none => [] }

theorem witness_Episodes :
    Fires (carrels false 1024) 0xE0 (atOffset 0xE0 4032) (fun e => 4032 + 64 ≤ e.pkt.scratch ∧ recordClaimed e.s e.core e.team 4032 64 = false ∧
      scratchBad e.s e.team 4032 64 = false) ∧
    Fires demo 0xE0 (atOffset 0xE0 4033) (fun e => e.pkt.scratch < 4033 + 64) ∧
    Fires (handled none) 0xE1 { sample 0xE1 with a := .s 4 } (fun e =>
      episodeAt e.s (e.s.team e.team).launch (e.src e.first (.s 4) .int) = none) ∧
    Fires (handled (some episode)) 0xE1 { sample 0xE1 with a := .s 4 } (fun e =>
      episodeAt e.s (e.s.team e.team).launch (e.src e.first (.s 4) .int) = some (0, 3) ∧ (closeEpisode e.s 0 3).1 = true) ∧
    Fires (handled (some { episode with arena := 0x40000000, arenaLen := 65536 })) 0xE1 { sample 0xE1 with a := .s 4 } (fun e =>
      episodeAt e.s (e.s.team e.team).launch (e.src e.first (.s 4) .int) = some (0, 3) ∧ (closeEpisode e.s 0 3).1 = false ∧ e.nb = none) ∧
    (∀ m ∈ [0, 1], Fires demo 0xE3 (formOf 0xE3 m) (fun _ => True) ∧
      Fires (handled (some episode)) 0xE4 { formOf 0xE4 m with b := .s 4 } (fun e =>
        episodeAt (freeQueue e.s e.core 0 0) e.launch (e.src e.first (.s 4) .int) = some (0, 3) ∧
          mailboxBound (freeQueue e.s e.core 0 0) 0 3 (m == 0) = false) ∧
      Fires (handled none) 0xE4 { formOf 0xE4 m with b := .s 4 } (fun e =>
        episodeAt (freeQueue e.s e.core 0 0) e.launch (e.src e.first (.s 4) .int) = none)) ∧
    Fires demo 0xE5 (sample 0xE5) (fun _ => True) := by
  simp only [List.forall_mem_cons, List.not_mem_nil, false_implies, implies_true, and_true]
  refine ⟨?_, ?_, ?_, ?_, ?_, ⟨⟨?_, ?_, ?_⟩, ?_, ?_, ?_⟩, ?_⟩ <;> exact fires_intro (by decide +kernel)

theorem witness_opens :
    (let d (r : List Nat) : List W64 := r.map (BitVec.ofNat 64)
     episodeOk (d (openRecord 0)) = true ∧ episodeOk (d (openRecord 0xFFF)) = false ∧
     keySlotOk demo 1 0 = true ∧ keySlotOk demo 1 200 = false ∧ episodeOk (d (openRecord 0 |>.set 1 (200 * 2 ^ 32))) = true ∧
     bits (BitVec.ofNat 64 1024) 10 1 = 1 ∧ (∀ c < 128, ((carrels true 1024).carrel 0 c).state ≠ .free) ∧
     (openEpisode (carrels false 1024) 1 0 (d (openRecord 1024))).1.getLsbD 31 = false) := by decide +kernel

/-! ## Witnesses: carrels -/

/-- Carrel 3 of die 0 executes. -/
def hart (k : Carrel) : State :=
  { demo with curCarrel := some (0, 3), dies := [(0, { (default : Die) with carrels := [(3, k)] })] }

/-- An episode whose registers x11 and x12 hold the given values. -/
def regs (a b : W64) : Carrel := { episode with x := [(11, a), (12, b)], deadline := 1, budget := 1 }

theorem hart_carrel (k : Carrel) : (hart k).curCarrel = some (0, 3) ∧ (hart k).carrel 0 3 = k := ⟨rfl, rfl⟩

/-- The buffers at both ends of the SRAM quarter, and each condition of a carrel word (R323, R324). -/
theorem witness_CarrelWords :
    (((regs 0x3FFC0 1).xget 11).toNat % 64 = 0 ∧ ((regs 0x3FFC0 1).xget 11).toNat + 64 ≤ 0x40000 ∧ ((regs 0x3FFC0 1).xget 12).toNat ≤ 1 ∧
      ((regs 0x3FFC0 0).xget 12).toNat ≤ 1) ∧
    (entry64.length = 64 ∧ Memory.wf ([] : Mem) = true) ∧
    (((regs 1 0).xget 11).toNat % 64 ≠ 0 ∧ ((regs 2 0).xget 11).toNat ≤ 2 ∧ 2 < ((regs 3 0).xget 11).toNat) ∧
    (entryStatus (memReads [(6, 1)] 0 64) ≤ 1 ∧ entryFlags (memReads [(6, 1)] 0 64) / 2 % 4 = 0) ∧
    ((regs 0 0).active = some 0 ∧ (regs 0 0).actions = [] ∧ (regs 0 0).obs.length < 8) := by decide +kernel

/-- A carrel at the first word of an image at a global address. -/
def imaged (va : Nat) (pc : W64) : Carrel := { episode with image := va, imageLen := 4096, pc := pc, deadline := 1, budget := 1 }

theorem witness_CarrelEvents :
    (let k : Carrel := { episode with waiting := true, obs := List.replicate 7 entry64 }
     k.state = .running ∧ k.waiting = true ∧ k.active ≠ none ∧ k.obs.length < 8) ∧
    (let k : Carrel := { episode with waiting := true, active := none, actions := [entry64] }
     k.state = .running ∧ k.waiting = true ∧ k.active = none ∧ k.actions ≠ []) ∧
    (episode.runs = true ∧ (match hartFetch (hart { episode with sram := memWrites [] 0 (leBytes 4 0x0A00000B) }) 0 3 with
      | .word w _ _ => carrelOk w == false | _ => false) = true) ∧
    (match hartFetch (hart (imaged 0x10000 0x40001000)) 0 3 with | .fault 0x40001000 _ => true | _ => false) = true ∧
    (match hartFetch (hart (imaged 0x40000000 0x40000000)) 0 3 with | .absent 0x40000000 _ => true | _ => false) = true ∧
    (let k : Carrel := { episode with deadline := 1, budget := 1, timer := 2102 }
     k.deadline * 2100 + 1 < k.elapsed 0 ∧ 0 + k.deadline * 2100 < k.openedAt + k.budget * 1000 * 2100 + k.elapsed 0) ∧
    (let k : Carrel := { episode with deadline := 1, budget := 1 }
     k.state = .running ∧ k.openedAt + k.budget * 1000 * 2100 < 2100001 ∧
       k.openedAt + k.budget * 1000 * 2100 + k.elapsed 2100001 ≤ 2100001 + k.deadline * 2100) ∧
    (let k : Carrel := { episode with deadline := 1, budget := 1, active := none }
     k.elapsed 2100001 ≤ k.deadline * 2100) ∧
    (let k : Carrel := { episode with state := .ended, heldObs := some entry64, obs := List.replicate 7 entry64 }
     k.heldObs = some entry64 ∧ k.obs.length < 8) ∧
    (episode.state = .running ∧ episode.susp = none) := by decide +kernel

theorem witness_BaseInstructions :
    (hart (regs 0x3FFF8 0)).curCarrel = some (0, 3) ∧ (((hart (regs 0x3FFF8 0)).carrel 0 3).xget 11 + (0 : BitVec 12).signExtend 64).toNat + 8 ≤ 0x40000 ∧
    hartPlace (regs 0 0) 0x40000 1 = .none ∧ hartPlace (imaged 0x10000 0) 0x40000FFF 1 = .image 0xFFF ∧
    (let k : Carrel := { episode with arenaLen := 65536, stateless := true }; hartPlace k 0x8000FFFF 1 = .arena 0xFFFF ∧ k.stateless = true) ∧
    0x3FFFF + [(1 : Byte)].length ≤ 0x40000 := by decide +kernel

/-- A carrel executes ADDI x11, x11, 1 from its SRAM quarter. -/
def acting : State :=
  { hart { episode with sram := memWrites [] 0 (leBytes 4 0x00158593), deadline := 1, budget := 1 } with
    curCarrel := none, agenda := [{ dt := 2, act := .carrel 0 3 }] }

theorem witness_CarrelIsolation :
    acting.agenda = [{ dt := 2, act := .carrel 0 3 }] ∧
    (match step acting with | .next t => (t.carrel 0 3).xget 11 == 1 | _ => false) = true := by decide +kernel

/-! ## Witnesses: commands -/

/-- A command of the team with a record of one element: one dimension of BOX 1, COUNT 1, and the given DW0, SRC, DST and AUX
(R225, R228). -/
def element (kind src dst aux : Nat) (st : CmdState) : Cmd :=
  { (default : Cmd) with
    kind := kind, state := st, ready := true
    dws := [BitVec.ofNat 64 (kind + 2 ^ 34), BitVec.ofNat 64 src, BitVec.ofNat 64 dst, BitVec.ofNat 64 aux, 0, 1, 1, BitVec.ofNat 64 (2 ^ 48)] }

theorem witness_Elements :
    (∀ kind ∈ [1, 2, 3, 4, 5, 6, 9],
      let s := command (element kind 0 0 0 .running) id
      (tget s.cmds 1).isSome ∧ (s.cmd 1).state = .running ∧ (s.cmd 1).kind = kind ∧ s.live (s.cmd 1).team = true ∧
        (s.team (s.cmd 1).team).stopping = false ∧ (match makeReady s 1 with
          | .ok u => decide ((u.cmd 1).els < (s.cmd 1).ccr.total ∧ (u.cmd 1).state = .running ∧ (u.cmd 1).els < (u.cmd 1).ccr.total ∧
              (u.cmd 1).limit = none)
          | _ => false) = true ∧ sharers s 1 = [] ∧ sharesTurn s 1 = true ∧ engineTurn s (s.cmd 1).ccr = true) ∧
    (∀ aux ∈ [0, 1],
      (match armWatch (command (element 7 0 0 aux .running) id) 1 with | .ok _ => true | _ => false) = true) ∧
    (let s := command { element 7 0 0 1 .armed with limit := some 1 } id
     (s.cmd 1).kind = 7 ∧ (s.cmd 1).state = .armed ∧ (s.cmd 1).limit ≠ none) ∧
    (let s := command (element 7 0 0 1 .armed) id
     (s.cmd 1).limit = none ∧ (s.cmd 1).ccr.count ≠ 0 ∧ (s.cmd 1).armedAt + (s.cmd 1).ccr.count * 2100 ≤ 2100) ∧
    (let s := command (element 8 0 0 0 .running) id
     (s.cmd 1).ccr.subop ≠ 1 ∧ (s.cmd 1).els < (s.cmd 1).ccr.total ∧ (s.cmd 1).limit = none ∧ sharesTurn s 1 = true) ∧
    (let c : Cmd := { element 8 0 0x40000000 0 .running with dws := [BitVec.ofNat 64 (8 + 2 ^ 58), 0, 0x40000000] }
     let s : State := { command c id with hbm := memWrites home 0x2008 [0x1F, 0, 0, 0, 0, 0, 0, 0x20] }
     (s.cmd 1).ccr.subop = 1 ∧
       (match translateCmd s 1 ((s.cmd 1).ccr.dst % 2 ^ 56) false with | (.hbm _ e, _) => pteSibling e | _ => false) = true) ∧
    (let s := command (element 13 0 0 0 .running) id
     (s.cmd 1).kind = 13 ∧ (s.cmd 1).state = .running ∧ (s.cmd 1).limit = none) := by decide +kernel

/-- The command in the second half of a cycle. -/
def late (c : Cmd) (f : Core → Core) : State := { command c f with now := 3 }

/-- A record with a follow-on (FOLLOW is bit 54 of DW0), and one that asks for a completion record at an address of the
scratchpad (REC is bit 15). -/
def asks (bit : Nat) (rec_ : Nat) (st : CmdState) : Cmd :=
  { (default : Cmd) with kind := 1, state := st, dws := [BitVec.ofNat 64 (1 + 2 ^ bit), 0, 0, 0, 0, BitVec.ofNat 64 (rec_ * 2 ^ 32)] }

theorem witness_CommandCompletion :
    (let s := late (asks 34 0 .following) id
     (tget s.cmds 1).isSome ∧ s.live (s.cmd 1).team = true ∧ (s.cmd 1).state = .following ∧ s.now % 2 = 1 ∧ followDone s (s.cmd 1) = true) ∧
    (let s := late (asks 34 0 .malformed) id
     (s.cmd 1).state = .malformed ∧ (s.cmd 1).armedAt / 2 < s.now / 2) ∧
    (let s := late (asks 54 0 .following) fun c => { c with mat := List.replicate 31 { (default : MatOp) with id := 9, team := 1, op := 4 } }
     (s.cmd 1).status = 0 ∧ (s.cmd 1).ccr.follow = true ∧ (s.cmd 1).follow = none ∧ (s.core (s.cmd 1).core).mat.length < 32 ∧
       matrixWaits s 0 = [] ∧ s.now % 2 = 1) ∧
    (let s := late (asks 15 4064 .recording) id
     (s.cmd 1).state = .recording ∧ (writeRecord s 1).isSome = true ∧ recordAsked s (s.cmd 1) = true ∧ (s.cmd 1).ccr.recAddr % 2 = 0) ∧
    (let s : State := { late (asks 15 1 .recording) id with teams := [(1, { (default : Team) with launch := 1, slots := [0], nwaves := 1, crings := [(0, ring 2)] })] }
     (writeRecord s 1).isNone = true) := by decide +kernel

theorem witness_fences :
    (let s := command { (default : Cmd) with kind := 11, dws := [BitVec.ofNat 64 fenceRecord], state := .running } id
     (s.cmd 1).kind = 11 ∧ (s.cmd 1).ccr.scope = 6 ∧ earlier s 1 = [] ∧ ackWait s 1 6 = false ∧ releaseHeld s 0 1 6 = false ∧
       (writeBackAll s 0 (dirtyLines s 0 0)).1 = [] ∧ (writeBackAll s 0 (dirtyLines s 0 0)).2.1 = [] ∧
       (tget (writeBackAll s 0 (dirtyLines s 0 0)).2.2.cmds 1).isSome = true) ∧
    (let s := late { (default : Cmd) with kind := cfenceKind, dws := [11], state := .queued } fun c => { c with queues := [(0, [1])] }
     (s.cmd 1).ccr.scope = 0 ∧ s.now % 2 = 1 ∧ (tget s.cmds 1).isSome = true ∧ (queueOf s 0 0).head? = some 1 ∧ s.live 1 = true ∧ earlier s 1 = [] ∧ ackWait s 1 0 = false ∧ releaseHeld s 0 1 0 = false) ∧
    (let s := late { (default : Cmd) with kind := 12, dws := [12 + 2 ^ 30], state := .running } id
     (s.cmd 1).kind = 12 ∧ (s.cmd 1).limit = none ∧ engineTurn s (s.cmd 1).ccr = true ∧ (match readPacket 1 (List.range 16) s [] with | (none, dws, _) => dws.length == 16 | _ => false) = true) ∧
    refusal demo (List.replicate 16 0) ≠ none := by decide +kernel

/-- A communicator of this die alone, of one port, in slot 2, with a TIMEOUT of 1 ms (R367, R371). -/
def comm : Comm :=
  { ctx := 0x8080, asid := 0, va := 0, desc := [BitVec.ofNat 64 (2 ^ 8 + 2 ^ 32), BitVec.ofNat 64 (1 + 2 ^ 10 + 2 ^ 20 + 2 ^ 32), 32],
    members := [(0, 0)] }

/-- A read request of another package. -/
def readOf (kind : PeerReadKind) (n : Nat) : PeerRead := { pkg := 1, tag := 0, asid := 0, va := 0x10000, len := n, kind := kind, cls := 0 }

/-- A COLL of one FP32 element (R369). -/
def collective (go : Bool) : State :=
  let c : Cmd := { (default : Cmd) with
    kind := 10, state := .running, collSeq := some 5, collGo := go, peerData := [(0, [0, 0, 0x80, 0x3F])], given := if go then [chunkKey 0 0] else []
    dws := [BitVec.ofNat 64 (10 + 11 * 2 ^ 16 + 11 * 2 ^ 20), 0, 0, 0, 0, 1] }
  { command c id with comms := [(2, comm)] }

theorem witness_Collectives :
    (let s := collective true
     let c := s.cmd 1
     c.kind = 10 ∧ c.state = .running ∧ c.collGo = true ∧ collDone s 1 = false ∧ collSlot s c = some 2 ∧ rankOf s 2 c.die = some 0 ∧
       c.els < c.ccr.dstBlocks ((s.comm 2).group c.ccr.repl 0).length ((indexFrom 0 0 ((s.comm 2).group c.ccr.repl 0)).getD 0) * c.ccr.count ∧
       (collValue s 1 2 0 c.els).isSome ∧
       (∀ q ∈ (s.comm 2).group c.ccr.repl 0, chunkKey q (c.els * fmtBytes c.ccr.srcFmt / (s.comm 2).chunk) ∈ c.given) ∧
       (match translateCmd s 1 c.ccr.dst true with | (.hbm _ e, _) => !pteSibling e | _ => false) = true) ∧
    (let s := collective false
     (tget s.comms 2).isSome ∧ (rankOf s 2 0).isSome ∧ (s.cmd 1).collSeq = some 5 ∧ (s.cmd 1).collGo = false ∧ (s.comm 2).timeout ≠ 0 ∧
       (s.cmd 1).started + (s.comm 2).timeout ≤ 2100000 + 1 ∧ collCmd s 2 0 5 = some 1) ∧
    (let s := collective true
     (s.port 0).frozen = false ∧ s.sequencersHeld = false ∧ waitingRead s 0 = none ∧ moving? s (s.port 0) = none ∧
       s.cmds.filterMap (chunkOf s 0) ≠ []) ∧
    (let s := (collective true).onCmd 1 fun c => { c with chunkReads := [readOf (.chunk 0 2 5 0 0) 4] }
     (waitingRead s 0).isSome = true) ∧
    (∀ asked ∈ [true, false],
      let s : State := { ((collective true).onPort 0 fun p => { p with moving := some (1, 0) }).onCmd 1 fun c => { c with peerData := [] } with
        peerOut := if asked then [{ (default : PeerOut) with cmd := 1, elem := 0 }] else [] }
      waitingRead s 0 = none ∧ ((moving? s (s.port 0)).map fun x => (nextGiver s x).isNone) = some asked) ∧
    (let s := collective false
     (tget s.cmds 1).isSome ∧ isColl s 2 0 5 (1, s.cmd 1) = true ∧ isColl s 2 0 6 (1, s.cmd 1) = false) ∧
    (let lower (c : W32) : State := (collective false).onCommDie 0 2 fun x => { x with anyClosed := true, closed := c }
     2 ^ 31 ≤ ((5 : W32) - ((lower 9).commDie 0 2).closed).toNat ∧ ¬ 2 ^ 31 ≤ ((5 : W32) - ((lower 4).commDie 0 2).closed).toNat) := by decide +kernel

/-! ## Witnesses: placement -/

/-- The launch's one team is not placed yet. -/
def unplaced (steal blocks : Nat) (f : Core → Core) (now : Nat) : State :=
  { State.reset with
    now := now, hbm := home, roots := [(0, (0x1000, 0x8000))]
    launches := [(1, { (default : Launch) with id := 1, pkt := { packet with steal := steal, scratch := 4096 * blocks } })]
    cores := [(0, f (Core.reset 0))] }

theorem witness_TeamStart :
    ((lowestFree 64 (((unplaced 0 1 id 0).core 0).waves.map (·.1))).take ((unplaced 0 1 id 0).launch 1).pkt.waves).length =
      ((unplaced 0 1 id 0).launch 1).pkt.waves := by decide +kernel

/-- The request of core 0, all of it free, to core 7. -/
def asking : StealReq := ⟨7, 1, freeFootprint (unplaced 1 1 id 0) 0⟩

theorem witness_admission :
    (let s := unplaced 0 1 id 0
     0 < 8 ∧ s.now % 2 = 0 ∧ (s.die 0).lastAdmit ≠ s.now / 2 + 1 ∧ (candidates s 0).map (·.1) = [1] ∧ nextFor (s.launch 1) 0 = some 0 ∧
       coreFor s 0 (s.launch 1).pkt = some 0) ∧
    (let s := unplaced 1 1 (fun c => { c with teamQueue := [(1, 0)] }) 0
     queueStarts s 0 = some (1, 0)) ∧
    (let s := unplaced 1 100 id 0
     (stealable s 0).map (·.1) = [1] ∧ (s.core 0).stealSent = none ∧ (s.core 0).stealUntil = 0 ∧ idleCore s 0 = true ∧
       (victimOf ((stealable s 0).getD 0 default).2.pkt 0 (lfsrStep (s.core 0).lfsr)).isSome = true) ∧
    (let s := unplaced 1 100 (fun c => { c with stealSent := some asking }) 0
     (s.core 0).stealSent = some asking ∧ stolen (s.onCore 0 fun c => { c with stealSent := none }) 0 asking = none) ∧
    (let s := unplaced 1 1 (fun c => { c with stealSent := some asking }) 0
     let s := s.onCore 7 fun c => { c with teamQueue := [(1, 0), (1, 0)], tslots := [(0, 1)] }
     let s : State := { s with teams := [(1, { (default : Team) with launch := 1, core := 7 })] }
     let u := s.onCore 0 fun c => { c with stealSent := none }
     stolen u 0 asking = some (1, 0) ∧ fits u 0 (u.launch 1).pkt = true) ∧
    (let s := unplaced 1 1 (fun c => { c with stealUntil := 64 }) 128
     (s.core 0).stealUntil ≠ 0 ∧ (s.core 0).stealUntil ≤ s.now / 2) ∧
    (let s := unplaced 0 65 id 0
     (∀ c ∈ coresOf 0, (s.core c).carve = none) ∧ (growChoice s 0).isSome = true) ∧
    (let s := unplaced 0 65 (fun c => { c with carve := some [8] }) 1
     (s.core 0).carve = some [8] ∧ (s.core 0).lines = [] ∧ s.now % 2 = 1) ∧
    (let s : State := { unplaced 0 1 (fun c => { c with poolWays := List.range 9 }) 0 with launches := [] }
     (s.core 0).poolWays.contains 8 = true ∧ (s.core 0).blocks = [] ∧ (s.core 0).carve = none ∧ (s.core 0).teamQueue = []) ∧
    (let p : Packet := { packet with steal := 1 }
     (victimOf p 0 0).isSome = true) := by decide +kernel

/-- A steal request serves the one launch that a core may steal for, whatever the device picks. -/
theorem witness_steal (s : State) (n : Nat) : s.pick n 1 = 0 := by simp [State.pick, Nat.mod_one]

theorem witness_Retirement :
    (let s : State := { onThread (fun l => { l with exited := true }) with now := 1 }
     ∃ w, tget (s.core 0).waves 0 = some w ∧ s.live w.team = true ∧ (∀ e ∈ w.lanes, e.2.exited = true) ∧ (s.core 0).pends = [] ∧
       (s.core 0).waits = [] ∧ s.now % 2 = 1) ∧
    (let s : State := { onTeam (fun t => { t with retiredWaves := [0], slots := [] }) with now := 1 }
     (tget s.teams 1).isSome ∧ teamOver s 1 = true ∧
       (match writeBackAll s 0 (teamDirty s 1) with | ([], [], _) => true | _ => false) = true) ∧
    (let s : State := { demo with ctxs := [(0x8080, { (default : Ctx) with preempted := true })] }
     s.live 1 = true ∧ (s.team 1).stopping = false ∧ isVictim s 1 = true) ∧
    (let s : State := { package thread (fun w => { w with group := [] }) (fun t => { t with stopping := true }) id home with now := 1 }
     (endSleeps s 1).now % 2 = 1 ∧ atRest (endSleeps s 1) 1 = true ∧ saveRoom (endSleeps s 1) 1 = true ∧
       (match writeBackAll (endSleeps s 1) 0 (teamDirty (endSleeps s 1) 1) with | (_, [], _) => true | _ => false) = true) ∧
    (let s : State := { demo with
       now := 1, cores := [], teams := [(1, { (default : Team) with launch := 1, status := .saved, nwaves := 1 })] }
     restorable s 1 = true) := by
  refine ⟨⟨_, rfl, ?_⟩, ?_, ?_, ?_, ?_⟩ <;> decide +kernel

/-! ## Witnesses: the fabric and the host -/

/-- The package with its links up and a command of the team that has asked a peer. -/
def linked (w : Option PeerWriteKind) : State :=
  { command (element 1 0 0 0 .running) id with
    linksUp := true, peerOut := [{ (default : PeerOut) with cmd := 1, elem := 0, write := w }] }

def writeOf (kind : PeerWriteKind) (n : Nat) : PeerWrite := { pkg := 1, tag := 0, asid := 0, va := 0x10000, len := n, kind := kind, cls := 0 }

theorem witness_Fabric :
    (∀ bad ∈ [[], [0x200]], (match servePeer { linked none with hbmPoison := bad } 0 0x10000 false with
      | .ok pa e u => (match peerBytes u (readOf .memory 4) pa e with | .ok _ => bad.isEmpty | .error _ => !bad.isEmpty) | _ => false) = true) ∧
    ((readOf .memory 0).len = 0 ∧ (readOf (.notice 1 0) 4).len ≠ 0 ∧ (linked none).linksUp = true ∧
      (((linked (some .plain)).peerOut.find? fun o => o.cmd == 1 && o.elem == 0 && o.write.isSome).isSome = true) ∧
      ∀ o ∈ (linked none).peerOut, o.cmd = 1 → o.elem = 0 → o.write = none) ∧
    (∀ kind ∈ [.plain, .reduce 11 1], let w := writeOf kind 4
      let s : State := { linked none with notices := [(5, w)] }
      tget s.notices 5 = some w ∧ w.len ≠ 0 ∧ w.len ≤ 4096 ∧
      (match servePeer { s with notices := tdel s.notices 5 } 0 0x10000 true with
        | .ok pa e u => pteSibling e == false && (linesOf pa 4).all (fun l => !u.hbmPoison.contains l) &&
            (match applyPeer u w [0, 0, 0x80, 0x3F] pa e with | .ok _ _ => true | _ => false)
        | _ => false) = true) ∧
    ((match servePeer (linked none) 7 0x10000 true with | .no _ _ => true | _ => false) = true ∧ 4096 < (writeOf .plain 4097).len ∧
      (writeOf .plain 0).len = 0) ∧
    ((tget (linked none).cmds 1).isSome ∧ (asked (linked (some .plain)) 1 0 true).isSome ∧ (asked (linked none) 1 0 false).isSome ∧
      ((linked none).cmd 1).kind ≠ 10 ∧ tget (linked none).notices 1 = none) ∧
    (let s := (linked none).onPort 17 fun p => { p with vcs := [(3, [.peerAck 1 0 []]), (15, [.peerAck 1 1 []])] }
     ((vcOrder (s.port 17).lastVc).find? fun v => !(tgetD (s.port 17).vcs v []).isEmpty) = some 3 ∧
       tgetD (s.port 17).vcs 3 [] = [.peerAck 1 0 []]) ∧
    (let s := (linked none).onPort 17 fun p => { p with vcs := [(15, [.peerAck 1 1 []])] }
     ((vcOrder (s.port 17).lastVc).find? fun v => !(tgetD (s.port 17).vcs v []).isEmpty) = some 15) ∧
    (let big : Out := .peerData 1 0 (List.replicate 300 0)
     let s := (linked none).onPort 17 fun p => { p with vcs := [(2, [big])] }
     tgetD (s.port 17).flits 2 0 + 1 < big.flits ∧ (Out.peerAck 1 0 []).flits ≤ tgetD (s.port 17).flits 3 0 + 1) ∧
    (let asks : Walk := { team := some 1, who := (0, 0), asid := 0, page := 1 }
     let d : Die := { (default : Die) with walkq := [asks] }
     d.walking.length ≤ 64 ∧ (nextWalker d).isSome = true ∧ (issueWalks 64 d).2 = [asks]) ∧
    (((demo.die 0).walking = []) ∧ (match walk demo 0 (1 * 65536) with | some (some _) => true | _ => false) = true) := by
  simp only [List.forall_mem_cons, List.not_mem_nil, false_implies, implies_true, and_true]
  decide +kernel

/-- A session of the package: number 1, in a state, owner of the context. -/
def hosted (x : Session) (now : Nat) : State :=
  { demo with now := now, sessions := [(1, x)], ctxs := [(0x8080, { (default : Ctx) with session := some 1 })] }

/-- A packet that breaks no rule: the code of the tests, one thread, one team (R159, R160). -/
def offered : List W64 :=
  [0x10000, 24, 0, 0, 0, BitVec.ofNat 64 (1 + 2 ^ 11 + 2 ^ 22), BitVec.ofNat 64 (1 + 2 ^ 32), 1, BitVec.ofNat 64 (8 + 2 ^ 9 * 8), 0, 0x8000, 1, 0, 0, 0, 0]

/-- A packet of the team's context, and one of another context. -/
theorem witness_packets :
    refusal demo offered = none ∧ ctxOf demo (packetOf offered).rcb = teamCtx demo 1 ∧
    (let s : State := { demo with launches := [(1, { (default : Launch) with id := 1, pkt := { packet with rcb := 0 } })] }
     refusal s offered = none ∧ ctxOf s (packetOf offered).rcb ≠ teamCtx s 1) := by decide +kernel

theorem witness_Host :
    (tget demo.sessions 1 = none ∧ (List.replicate 48 (0 : Byte)).length = 48 ∧ demo.reports < 2 ^ 20 ∧ demo.bootCount < 2 ^ 20) ∧
    (let s : State := { demo with sessions := (List.range' 1 63).map fun n => (n, default) }
     64 ∈ List.range' 1 64 ∧ tget s.sessions 64 = none ∧ ∀ m ∈ List.range' 1 64, m < 64 → (tget s.sessions m).isSome) ∧
    (let x : Session := { (default : Session) with opened := false }
     tget (hosted x 2100000000).sessions 1 = some x ∧ x.startedAt + 2100000000 ≤ (hosted x 2100000000).now) ∧
    (let x : Session := { (default : Session) with opened := true, lastAt := 0, highest := 9 }
     tget (hosted x 126000000000).sessions 1 = some x ∧ x.lastAt + 60 * 2100000000 ≤ (hosted x 126000000000).now ∧ x.held = [] ∧
       1 ∉ (hosted x 0).keysUsed ∧ (hosted x 0).power = .up ∧ ((hosted x 0).session 1).frozen = false ∧ ownsCtx (hosted x 0) 1 0x8080 = true ∧
       ownsCtx (hosted x 0) 1 0x8081 = false ∧ ownsAsid (hosted x 0) 1 1 = false ∧ refusal (hosted x 0) (List.replicate 16 0) = some 3 ∧
       refusal (hosted x 0) offered = none ∧ ownsCtx (hosted x 0) 1 (ctxOf (hosted x 0) (packetOf offered).rcb) = true ∧ offered.length = 16) ∧
    (let s : State := { hosted (default : Session) 0 with ctxs := [(0x8080, { (default : Ctx) with session := some 1, preempted := true })] }
     (s.ctx 0x8080).preempted = true ∧ ownsCtx s 1 0x8080 = true) ∧
    (let h : Dgram := { session := 0, seq := 0, authentic := true }
     dgramTaken h = true ∧ dgramSound h 48 = true ∧ dgramSound h 96 = true ∧ dgramTaken { h with port := 53 } = false ∧
       dgramSound { h with ver := 2 } 48 = false) ∧
    (let s : State := { hosted (default : Session) 0 with power := .stopped 3 }
     s.power = .stopped 3 ∧ (s.session 1).frozen = false) := by decide +kernel

theorem witness_PackageReset : demo.power = .up ∧ demo.live 1 = true ∧ 31 < (teamPkt demo 1).scratch / 128 ∧ 9 < 10 := by decide +kernel

/-! ## Witnesses: traps, windows, settled loads, bytes of elements -/

/-- The access that a word of the thread makes. -/
def accessAt (kind : Nat) (a : W32) (n : Nat) (bs : List Byte) : Access :=
  { (default : Access) with kind := kind, addr := a.toNat, size := n, data := bs }

/-- Window 0 as `mapped` has it, or one that takes no stores. -/
def viewed (wr : Bool) : State := onTeam fun t => { t with windows := [(0, { base := 0x100000, len := 0x1000, wr := wr })] }

/-- Each test of R193 that an access fails: LDL32 beyond the scratchpad and misaligned, STL32 to a window that takes no stores,
ATLADD and LMON in a window, LDLM at a stride that is no multiple of 4, LDF and STF of a folio that the team does not hold and
misaligned ones. -/
theorem witness_LocalTraps :
    (∀ x ∈ [(0x72, 4093, 0, 1), (0x72, 4090, 0, 4), (0x77, 0x40000000, 1, 3), (0x77, 0x40001000, 1, 1), (0x80, 0x40000000, 2, 2),
        (0x80, 0x80000000, 2, 2), (0x8B, 4084, 2, 4), (0x6C, 0x40000000, 3, 2), (0x6C, 4093, 3, 1)],
      Fires (viewed false) x.1 (atOffset x.1 (BitVec.ofNat 32 x.2.1)) (fun e =>
        failing (fun a => failedTest e.pkt (e.s.team e.team) a.kind false a.addr a.size)
          [accessAt x.2.2.1 (e.addr e.first (atOffset x.1 (BitVec.ofNat 32 x.2.1))) (if x.1 = 0x8B then 8 else 4) []] =
        [(⟨0, 0⟩, x.2.2.2, x.2.1)])) ∧
    Fires (viewed true) 0x7C { atOffset 0x7C 0 with b := .imm 2 } (fun e => (e.src e.first (.imm 2) .int).toNat % 4 ≠ 0) ∧
    (∀ o ∈ [0x7E, 0x7F], Fires demo o (atOffset o 16384) (fun e => failedFolio (e.s.team e.team) (e.addr e.first (atOffset o 16384)).toNat 4 = some 1) ∧
      Fires (onTeam fun t => { t with folios := [1] }) o (atOffset o 16386) (fun e =>
        failedFolio (e.s.team e.team) (e.addr e.first (atOffset o 16386)).toNat 4 = some 4)) := by
  simp only [List.forall_mem_cons, List.not_mem_nil, false_implies, implies_true, and_true]
  refine ⟨⟨?_, ?_, ?_, ?_, ?_, ?_, ?_, ?_, ?_⟩, ?_, ⟨?_, ?_⟩, ?_, ?_⟩ <;> exact fires_intro (by decide +kernel)

/-- IADD of a register beyond the declared ones and of an odd pair, a mark on a clause without its flag, ERET outside monitor
mode, a scalar result in a region, and a word that is none of these (R11, R12, R17, R18, R21, R72, R139, R332); and a word of
which every lane's guard is false (R18). -/
theorem witness_checks :
    (checkWord demo group 0x20 (frm (.v 1) (.v 2) (.v 4)) = some 0x01 ∧
      checkWord { demo with launches := [(1, { (default : Launch) with id := 1, pkt := { packet with regs := 16 } })] } group 0x10
        (frm (.v 16) (.v 2) (.v 3)) = some 0x01 ∧
      checkWord (onThread fun l => { l with clause := some { hdr := 0x10000, left := 1, flagA := 12, flagB := 1 } }) group 0x72
        { sample 0x72 with fset := 1 } = some 0x01 ∧
      checkWord (onThread fun l => { l with clause := some { hdr := 0x10000, left := 2, flagA := 0, flagB := 1 } }) group 0x02 (offset 0) = some 0x01 ∧
      checkWord demo group 0x0E (frm .nul .nul .nul) = some 0x0C ∧
      checkWord (onThread fun l => { l with inRegion := true }) group 0x45 (frm (.s 1) (.v 2) .nul) = some 0x09 ∧
      (Instr.iadd (frm (.v 16) (.v 2) (.v 3))).word?.isSome = true) ∧
    (let f := { frm (.v 1) (.v 2) (.v 3) with guard := 15 }
     (Instr.iadd f).word? = some (0x10, f) ∧ demo.cur = some group ∧ checkWord demo group 0x10 f = none ∧ group.lanes ≠ [] ∧
       ∀ l ∈ group.lanes, readP demo 0 l.2 (f.guard.extractLsb' 0 3).toNat = f.guard.getLsbD 3) := by decide +kernel

/-- The one access of the thread's word of opcode `o` at local address `a`, of `n` bytes. -/
def lone (e : Env) (o : Nat) (a : Nat) (kind n : Nat) : Access :=
  accessAt kind (e.addr e.first (atOffset o (BitVec.ofNat 32 a))) n (List.replicate n 7)

/-- The word passes the tests of R193 outside the scratchpad (Safety.InWindows). -/
def passes (e : Env) (a : Access) : Prop :=
  e.s.live e.team = true ∧ 0 < a.size ∧ e.pkt.scratch < a.addr + a.size ∧ failedTest e.pkt (e.s.team e.team) a.kind false a.addr a.size = none

/-- Its line `n` is not cached and has a way (Safety.Places). -/
def placed (e : Env) (a : Access) (n : Nat) : Prop :=
  (∀ b ∈ globals e a, b / 128 = n) ∧ lineOf e e.s n = none ∧
    ∃ w ∈ windowWays (e.s.core e.core), ∀ l ∈ (e.s.core e.core).lines, l.line % 256 = n % 256 → l.way ≠ w

def crowded (n : Nat) : State :=
  package thread id (fun t => { t with windows := [(0, { base := 0x100000, len := 0x1000, wr := true })] })
    (fun c => { c with mses := (List.range n).map fun i => { (default : Mse) with id := i, line := 0x3000 + i } }) home

theorem witness_WindowAccesses :
    (Fires (mapped none true) 0x70 (atOffset 0x70 0x40000000) (fun e => let a := lone e 0x70 0x40000000 0 1
      passes e a ∧ (∀ b ∈ globals e a, (cached e e.s b).isSome = true ∧ windowPoison (e.s.core e.core) (teamAsid e.s e.team) b = false)
       ∧ ∀ p ∈ (e.s.core e.core).pends, p.id ≠ (e.s.core e.core).nextId)) ∧
    (∀ k ∈ [0, 63], Fires (crowded k) 0x72 (atOffset 0x72 0x40000080) (fun e => let a := lone e 0x72 0x40000080 0 4
      passes e a ∧ placed e a 0x2001 ∧ findMse (e.s.core e.core) (teamAsid e.s e.team) 0x2001 = none ∧ ¬ untouched e a 0x2001 ∧
        takenMses e a = k)) ∧
    Fires (crowded 64) 0x72 (atOffset 0x72 0x40000080) (fun e => let a := lone e 0x72 0x40000080 0 4
      passes e a ∧ (∀ b ∈ globals e a, b / 128 = 0x2001) ∧ (∃ b ∈ globals e a, cached e e.s b = none) ∧
        findMse (e.s.core e.core) (teamAsid e.s e.team) 0x2001 = none ∧ ¬ (untouched e a 0x2001 ∧ lineOf e e.s 0x2001 = none) ∧
        64 ≤ takenMses e a) ∧
    Fires demo 0x72 (atOffset 0x72 0x80000000) (fun e => let a := lone e 0x72 0x80000000 0 4
      passes e a ∧ placed e a 0 ∧ findMse (e.s.core e.core) (teamAsid e.s e.team) 0 = none ∧ untouched e a 0) ∧
    Fires (mapped none true) 0x75 (atOffset 0x75 0x4000007F) (fun e => let a := lone e 0x75 0x4000007F 1 1
      passes e a ∧ (e.s.core e.core).pends = [] ∧ a.data.length = a.size ∧
        (∀ l ∈ (e.s.core e.core).lines, Memory.wf l.bytes = true) ∧ ∀ b ∈ globals e a, (lineOf e e.s (b / 128)).isSome = true) ∧
    (∀ x ∈ [(0x40000080, 0x2001), (0x80000000, 0)], Fires (mapped none true) 0x77 (atOffset 0x77 (BitVec.ofNat 32 x.1)) (fun e =>
      let a := lone e 0x77 x.1 1 4
      passes e a ∧ (e.s.core e.core).pends = [] ∧ a.data.length = a.size ∧ placed e a x.2)) := by
  simp only [List.forall_mem_cons, List.not_mem_nil, false_implies, implies_true, and_true, passes, placed, untouched]
  refine ⟨?_, ⟨?_, ?_⟩, ?_, ?_, ?_, ?_, ?_⟩ <;> exact fires_intro (by decide +kernel)

/-- A lane at a header whose WAIT flag one completion clears, and one that it leaves blocked (R20, R22). -/
theorem witness_flag_waits :
    ∀ n ∈ [1, 2],
      let p : Pend := { (default : Pend) with id := 5, lanes := [⟨0, 0⟩], marks := [(⟨0, 0⟩, 1)] }
      let s := package { thread with flags := [(1, n)], block := .flags 2 } id id (fun c => { c with pends := [p] }) home
      ((s.core 0).pends.find? fun q => q.id == p.id) = some p ∧ p.samples = [] ∧ p.loads = [] ∧ p.held = 0 ∧
        (⟨0, 0⟩ : LaneRef) ∈ p.marks.map (·.1) ∧ (s.lane 0 ⟨0, 0⟩).block = .flags 2 ∧
        decide ((s.lane 0 ⟨0, 0⟩).flagCount 1 ≤ p.marks.count (⟨0, 0⟩, 1)) = (n == 1) := by decide +kernel

/-- A fence and posts whose loads have their values, and a fence with a load in flight on a page that is absent (R26, R212). -/
theorem witness_settled :
    let waits (page : Nat) : State := package thread id id (fun c => { c with
      pends := [{ (default : Pend) with id := 5, lanes := [⟨0, 0⟩], loads := [{ r := ⟨0, 0⟩, shape := .words 1, bytes := [(page, none)], writer := true, asid := 0, poison := false }] }]
      mses := [{ (default : Mse) with id := 3, line := page / 128 }] }) home
    let f := frm .nul .nul .nul (.reg .nul 0) 0x26
    (Fires demo 0x66 f (fun e => (e.s.core e.core).pends = [] ∧ e.s.live e.team = true)) ∧
    (∀ o ∈ [0xB0, 0xB1, 0xBC, 0xE0], Fires demo o (sample o) (fun e => (e.s.core e.core).pends = [] ∧ e.s.live e.team = true)) ∧
    Fires (waits 0x100000) 0x66 f (fun e => (match e.settled 0x66 f with | .ok u => decide (u ≠ e.s) | .error _ => false) = true) ∧
    Fires (waits 0x40000000) 0x66 f (fun e => (match e.settled 0x66 f with | .ok _ => false | .error _ => true) = true) := by
  simp only [List.forall_mem_cons, List.not_mem_nil, false_implies, implies_true, and_true]
  refine ⟨?_, ⟨?_, ?_, ?_, ?_⟩, ?_, ?_⟩ <;> exact fires_intro (by decide +kernel)

/-- A record of one FP32 element between the given spaces, at 0x100 and 0x200 (R225, R228, R229); its one row starts at `start` of
an extent of 1. -/
def spaced (kind srcSp dstSp start : Nat) (src dst : Nat) : Cmd :=
  { (default : Cmd) with
    kind := kind, state := .running, ready := true
    dws := [BitVec.ofNat 64 (kind + 11 * 2 ^ 16 + 11 * 2 ^ 20 + srcSp * 2 ^ 30 + dstSp * 2 ^ 32 + 2 ^ 34), BitVec.ofNat 64 src,
      BitVec.ofNat 64 dst, 0, 0, 1, BitVec.ofNat 64 (1 + start * 2 ^ 32), BitVec.ofNat 64 (4 + 2 ^ 48), 0, 0, 0, 0, 0, 0, 0, 0, 4] }

theorem witness_element_bytes :
    (∀ x ∈ [(1, 0, some 0x200), (1, 1, none), (5, 0, none)],
      let s := command (spaced x.1 1 1 x.2.1 0x100 0x200) id
      let r := (s.cmd 1).ccr
      let e := r.elem 0 { ok := true, base := 0, off := 0 }
      e.dst = some 0x400 ∧ (e.src = x.2.2) ∧ r.rows = false ∧ r.redop = 0 ∧ r.mxSrc = false ∧ r.mxDst = false ∧ r.dstFmt ≠ 3 ∧
        tget (s.cmd 1).taken 0 = none ∧ r.dstSp = 1 ∧ Memory.wf (s.team 1).scratch = true ∧ r.srcSp = 1 ∧ r.srcFmt = r.dstFmt ∧
        r.scaleMode = 0 ∧ scratchBad s 1 0x100 4 = false ∧
        (match moveElement s 1 0 with | .ok _ => true | _ => false) = true) ∧
    (let page : Lease := { die := 0, asid := 0, vpage := 1, leaf := 0x1F, level := 1, at_ := 0 }
     let s := command { spaced 5 0 0 0 0x3F800000 0x10200 with passed := [page] } id
     let r := (s.cmd 1).ccr
     let e := r.elem 0 { ok := true, base := 0, off := 0 }
     e.dst = some 0x20400 ∧ e.src = none ∧ r.kind = 5 ∧ r.dstSp = 0 ∧ Memory.wf s.hbm = true ∧ vaOf 0x20400 = 0x10200 ∧
       (match translateCmd s 1 0x10200 true with
        | (.hbm pa x, _) => !pteSibling x && (homeDie x pa == (s.cmd 1).die) | _ => false) = true ∧
       (translateCmd s 1 0x10200 true).2 = s) := by
  refine ⟨by decide +kernel, by decide +kernel, by decide +kernel, by decide +kernel, by decide +kernel, by decide +kernel,
    by decide +kernel, by decide +kernel, rfl⟩

/-- The team saved, with private areas of the given bytes, and its core empty. -/
def saved (priv : Nat) : State :=
  { package thread id (fun t => { t with
      status := .saved, slots := []
      savedWaves := [(0, { (default : Wave) with team := 1, lanes := [(0, { thread with v := [(3, 7)] })] })] })
      (fun _ => Core.reset 0) home with
    now := 1, launches := [(1, { (default : Launch) with id := 1, pkt := { packet with priv := priv } })] }

/-- A team that a save takes and one that a restore brings back, with private areas and without (R345). -/
theorem witness_save_and_restore :
    ((slotsOf demo 1).map fun k => (demo.wave 0 k).number) = [0] ∧
    (∀ p ∈ [0, 64], let s := saved p
      let x := s.team 1
      restorable s 1 = true ∧ privDenied s 1 = none ∧ s.now % 2 = 1 ∧ s.cmds = [] ∧ x.savedWaits = [] ∧ (s.core x.core).waits = [] ∧
        x.tiles = [] ∧ newSlots s 1 = [(0, 0)] ∧ (∀ e ∈ x.savedWaves, ∀ l ∈ e.2.lanes, l.2.block = .none) ∧ (teamPkt s 1).priv = p) := by
  decide +kernel

/-- A fill of a line that no departing way writes back (R182), and a reading whose queue has an operation last (R288). -/
theorem witness_fills_and_planes :
    (((missing 0x2000).core 0).mses.all fun m => !awaitsWriteBack ((missing 0x2000).core 0) m) = true ∧
    (∀ op ∈ [1, 2, 4], let m : MatOp := { (default : MatOp) with id := 9, team := 1, op := op, dw0 := BitVec.ofNat 64 (if op = 2 then 0x272 else 0x71) }
      let s := onCore fun c => { c with mat := [m] }
      (s.core 0).mat = [] ++ [m] ∧ m.team = 1 ∧ releasedBefore s 0 1 m.id = [] ∧ (op = 2 → m.dw0.getLsbD 9 = true)) := by
  decide +kernel

/-- A carrel that waits past its deadline, and an operation whose session waits for no other package and owns the packet's address
space (R326, R387). -/
theorem witness_ends_and_owners :
    (let k : Carrel := { episode with deadline := 1, budget := 1, timer := 2101, waiting := true }
     k.deadline * 2100 < k.elapsed 0 ∧ k.waiting = true ∧ 0 + k.deadline * 2100 < k.openedAt + k.budget * 1000 * 2100 + k.elapsed 0) ∧
    (let s : State := { hosted { (default : Session) with opened := true } 0 with
       roots := [(0, (0x1000, 0x8080))], ctxs := [(0x8080, { (default : Ctx) with session := some 1 })] }
     ((s.session 1).pending = none) ∧ refusal s offered = none ∧ ownsCtx s 1 (ctxOf s (packetOf offered).rcb) = true ∧
       ownsAsid s 1 (packetOf offered).asid = true ∧ (∀ e ∈ s.sessions, e.2.pending = none)) ∧
    (3 < 2 ^ 47 ∧ ((linked none).cmd 1).unacked = []) := by decide +kernel

/-! ## Witnesses: the whole machine -/

/-- ADD v5 = v4 + 1 of R57, fetched by the next step after reset. -/
def fetching : State := State.reset.withFetchWord 96 0x000000000E00C01004005710

theorem witness_steps :
    fetching.agenda = [{ dt := 0, act := .quad 0 0 }] ∧
    (let now : State := { elapse { fetching with agenda := [], misordered := false } 0 with misordered := false }
     now.power = .up ∧ (∀ k < 4, tgetD (now.core 0).issued k 0 ≠ now.now / 2 + 1) ∧ now.now % 2 = 0 ∧ now.skipping = false ∧
     (match pickEntry (settled now 0 0) 0 0 with
      | (some ent, v) =>
        let g := curOf v 0 ent
        (match wordAt (setGroup v g g.refs) g with | some (.ok i, _) => i == (.iadd (frm (.v 5) (.v 4) (.imm 1))) | _ => false)
      | _ => false) = true) ∧
    (let s : State := { demo with agenda := [{ dt := 1, act := .hostStore 64 [7] }] }
     (match step s with | .next t => memRead t.host 64 == 7 | _ => false) = true) := by decide +kernel

theorem witness_words :
    ((codeRange demo 1 false).1 ≤ (demo.lane 0 ⟨0, 0⟩).pc.toNat ∧
      (demo.lane 0 ⟨0, 0⟩).pc.toNat + 12 ≤ (codeRange demo 1 false).1 + (codeRange demo 1 false).2 ∧
      (match codeWord demo 0 0 0x10000 with | some w => (match decodeHeader w with | .ok _ => true | _ => false) | none => false) = true ∧
      (match codeWord demo 0 0 0x1000C with | some w => (match decodeWord w with | .error _ => true | _ => false) | none => false) = true) ∧
    (match codeWord fetching 0 0 0x1000C with | some w => (match decodeHeader w with | .error _ => true | _ => false) | none => false) = true ∧
    (match codeWord fetching 0 0 0x1000C with | some w => (match decodeWord w with | .ok _ => true | _ => false) | none => false) = true ∧
    (let now := elapse { acting with agenda := [] } 2
     now.power = .up ∧ (now.carrel 0 3).runs = true ∧ (match hartFetch now 0 3 with
      | .word w _ _ => (match decodeCarrel w with | .ok _ => true | _ => false) | _ => false) = true) ∧
    (encode (.powerLimit) = none ∧ actsIn .up .powerLimit = true ∧ encode (.poolGrow 0) = none ∧ actsIn (.stopped 0) (.poolGrow 0) = false) := by
  decide +kernel

theorem witness_DecodeOfEncode :
    ({ wait := 0xFFF, flagA := 11, flagB := 15, len := 15 } : Header).ok = true ∧
    (let f := frm (.v 255) (.v 255) (.imm 0)
     (Instr.iadd f).wellFormed = true ∧ (Instr.iadd f).word? = some (0x10, f)) ∧
    ((Instr.mbxPop 31 31 31).wellFormed = true ∧ (Instr.mbxPop 31 31 31).word? = none ∧ (encode (.mbxPop 31 31 31)).isSome = true) := by
  decide +kernel

theorem witness_MemoriesCanonical :
    (Memory.wf acting.hbm = true ∧ Memory.wf acting.host = true) ∧ (match step acting with | .next _ => true | _ => false) = true := by
  decide +kernel

/-! ## Decoding: one word of every opcode, written from the fields of R54 and the descriptors of R56, by the opcode map (R70) -/

noncomputable def reads (w : W96) (i : Instr) : Bool := match decodeWord w with | .ok j => j == i | .error _ => false

theorem decode_row_0 : ([
    (0x000000000E00E00E00E00701, .nop (frm .nul .nul .nul)),
    (0x000112345678E00E00E00702, .bra (frm .nul .nul .nul (.imm 0x12345678))),
    (0x000000000E00E00008E00703, .brx (frm .nul (.v 8) .nul)),
    (0x000112345678E00E00E00704, .call (frm .nul .nul .nul (.imm 0x12345678))),
    (0x000000000E00E00008E00705, .callx (frm .nul (.v 8) .nul)),
    (0x000000000E00E00E00E00706, .ret (frm .nul .nul .nul)),
    (0x000000000E00E00E00E00707, .exit (frm .nul .nul .nul)),
    (0x000112345678E00E00E00708, .trap (frm .nul .nul .nul (.imm 0x12345678))),
    (0x000112345678E00E00E00709, .brk (frm .nul .nul .nul (.imm 0x12345678))),
    (0x000000000E00E00E00E0070A, .yield (frm .nul .nul .nul)),
    (0x000000000E00E00008E0070B, .sleep (frm .nul (.v 8) .nul)),
    (0x000112345678E00601E0070C, .assert (frm .nul (.p 1) .nul (.imm 0x12345678))),
    (0x000112345678E00E00E0070D, .svc (frm .nul .nul .nul (.imm 0x12345678))),
    (0x000000000E00E00E00E0070E, .eret (frm .nul .nul .nul))] : List (W96 × Instr)).all (fun x => reads x.1 x.2) = true := by decide +kernel

theorem decode_row_1 : ([
    (0x000000000E00018008010710, .iadd (frm (.v 16) (.v 8) (.v 24))),
    (0x000000000E00018008010711, .isub (frm (.v 16) (.v 8) (.v 24))),
    (0x000000000E00018008010712, .imul (frm (.v 16) (.v 8) (.v 24))),
    (0x000000000E00018008010713, .imulh (frm (.v 16) (.v 8) (.v 24))),
    (0x000000000020018008010714, .imad (frm (.v 16) (.v 8) (.v 24) (.reg (.v 32) 0))),
    (0x000000000020018008010715, .imadw (frm (.v 16) (.v 8) (.v 24) (.reg (.v 32) 0))),
    (0x000000000E00018008010716, .idiv (frm (.v 16) (.v 8) (.v 24))),
    (0x000000000E00018008010717, .irem (frm (.v 16) (.v 8) (.v 24))),
    (0x000000000E00018008010718, .imin (frm (.v 16) (.v 8) (.v 24))),
    (0x000000000E00018008010719, .imax (frm (.v 16) (.v 8) (.v 24))),
    (0x000000000E00E0000801071A, .iabs (frm (.v 16) (.v 8) .nul)),
    (0x000000000E00E0000801071B, .ineg (frm (.v 16) (.v 8) .nul)),
    (0x00000000060401800801071C, .iaddc (frm (.v 16) (.v 8) (.v 24) (.reg (.p 4) 0))),
    (0x00000000060401800801071D, .isubb (frm (.v 16) (.v 8) (.v 24) (.reg (.p 4) 0))),
    (0x00000000002001800801071E, .isad (frm (.v 16) (.v 8) (.v 24) (.reg (.v 32) 0))),
    (0x00000000002001800801071F, .idot4 (frm (.v 16) (.v 8) (.v 24) (.reg (.v 32) 0)))] : List (W96 × Instr)).all (fun x => reads x.1 x.2) = true := by decide +kernel

theorem decode_row_2 : ([
    (0x000000000E00018008010720, .ladd (frm (.v 16) (.v 8) (.v 24))),
    (0x000000000E00018008010721, .lsub (frm (.v 16) (.v 8) (.v 24))),
    (0x000000000E00018008010722, .lmul (frm (.v 16) (.v 8) (.v 24))),
    (0x000000000020018008010723, .lmad (frm (.v 16) (.v 8) (.v 24) (.reg (.v 32) 0))),
    (0x000000000E00018008010724, .lshl (frm (.v 16) (.v 8) (.v 24))),
    (0x000000000E00018008010725, .lshr (frm (.v 16) (.v 8) (.v 24))),
    (0x000000000E00018008010726, .lsar (frm (.v 16) (.v 8) (.v 24))),
    (0x000000000E00018008010727, .lmin (frm (.v 16) (.v 8) (.v 24))),
    (0x000000000E00018008010728, .lmax (frm (.v 16) (.v 8) (.v 24))),
    (0x000000000E00018008010729, .land (frm (.v 16) (.v 8) (.v 24))),
    (0x000000000E0001800801072A, .lor (frm (.v 16) (.v 8) (.v 24))),
    (0x000000000E0001800801072B, .lxor (frm (.v 16) (.v 8) (.v 24))),
    (0x00000000002001800801072C, .lea (frm (.v 16) (.v 8) (.v 24) (.reg (.v 32) 0))),
    (0x000000000E00E0000801072D, .lneg (frm (.v 16) (.v 8) .nul)),
    (0x000000000E0001800801072E, .ldiv (frm (.v 16) (.v 8) (.v 24))),
    (0x000000000E0001800801072F, .lrem (frm (.v 16) (.v 8) (.v 24)))] : List (W96 × Instr)).all (fun x => reads x.1 x.2) = true := by decide +kernel

theorem decode_row_3 : ([
    (0x000000000E00018008010730, .and (frm (.v 16) (.v 8) (.v 24))),
    (0x000000000E00018008010731, .or (frm (.v 16) (.v 8) (.v 24))),
    (0x000000000E00018008010732, .xor (frm (.v 16) (.v 8) (.v 24))),
    (0x000000000E00E00008010733, .not (frm (.v 16) (.v 8) .nul)),
    (0x000000000E00018008010734, .andn (frm (.v 16) (.v 8) (.v 24))),
    (0x000000000020018008010735, .lop3 (frm (.v 16) (.v 8) (.v 24) (.reg (.v 32) 0))),
    (0x000000000E00018008010736, .shl (frm (.v 16) (.v 8) (.v 24))),
    (0x000000000E00018008010737, .shr (frm (.v 16) (.v 8) (.v 24))),
    (0x000000000E00018008010738, .sar (frm (.v 16) (.v 8) (.v 24))),
    (0x000000000E00018008010739, .rotl (frm (.v 16) (.v 8) (.v 24))),
    (0x00000000002001800801073A, .funsh (frm (.v 16) (.v 8) (.v 24) (.reg (.v 32) 0))),
    (0x000000000E00E0000801073B, .popc (frm (.v 16) (.v 8) .nul)),
    (0x000000000E00E0000801073C, .clz (frm (.v 16) (.v 8) .nul)),
    (0x000000000E00E0000801073D, .brev (frm (.v 16) (.v 8) .nul)),
    (0x000000000E0001800801073E, .bfe (frm (.v 16) (.v 8) (.v 24))),
    (0x00000000002001800801073F, .bfi (frm (.v 16) (.v 8) (.v 24) (.reg (.v 32) 0)))] : List (W96 × Instr)).all (fun x => reads x.1 x.2) = true := by decide +kernel

theorem decode_row_4 : ([
    (0x000000000E00018008602740, .isetp (frm (.p 2) (.v 8) (.v 24))),
    (0x000000000E00018008602741, .lsetp (frm (.p 2) (.v 8) (.v 24))),
    (0x000000000E00018008602742, .fsetp (frm (.p 2) (.v 8) (.v 24))),
    (0x000000000604603601602743, .psetp (frm (.p 2) (.p 1) (.p 3) (.reg (.p 4) 0))),
    (0x000000000604018008010744, .sel (frm (.v 16) (.v 8) (.v 24) (.reg (.p 4) 0))),
    (0x000000000E00E00008010745, .mov (frm (.v 16) (.v 8) .nul)),
    (0x000112345678E00E00010746, .movi (frm (.v 16) .nul .nul (.imm 0x12345678))),
    (0x000000000E00E00008010747, .movs (frm (.v 16) (.v 8) .nul)),
    (0x000000000E00018008010748, .rdlane (frm (.v 16) (.v 8) (.v 24))),
    (0x000000000E00218008010749, .bcast (frm (.v 16) (.v 8) (.s 24))),
    (0x000000000E00E00E0001074A, .ptov (frm (.v 16) .nul .nul)),
    (0x000000000E00018008E0074B, .vtop (frm .nul (.v 8) (.v 24))),
    (0x00000000002001800801074C, .clamp (frm (.v 16) (.v 8) (.v 24) (.reg (.v 32) 0))),
    (0x000000000E00E00E0001074D, .clock (frm (.v 16) .nul .nul)),
    (0x00000000002001800801074E, .prmt (frm (.v 16) (.v 8) (.v 24) (.reg (.v 32) 0))),
    (0x000000000020E0000801074F, .movhi (frm (.v 16) (.v 8) .nul (.reg (.v 32) 0)))] : List (W96 × Instr)).all (fun x => reads x.1 x.2) = true := by decide +kernel

theorem decode_row_5 : ([
    (0x000000000604018008010750, .shfl (frm (.v 16) (.v 8) (.v 24) (.reg (.p 4) 0))),
    (0x000000000604018008010751, .shflx (frm (.v 16) (.v 8) (.v 24) (.reg (.p 4) 0))),
    (0x000000000604018008010752, .shflu (frm (.v 16) (.v 8) (.v 24) (.reg (.p 4) 0))),
    (0x000000000604018008010753, .shfld (frm (.v 16) (.v 8) (.v 24) (.reg (.p 4) 0))),
    (0x000000000E00E00601602754, .voteany (frm (.p 2) (.p 1) .nul)),
    (0x000000000E00E00601602755, .voteall (frm (.p 2) (.p 1) .nul)),
    (0x000000000E00E00601010756, .ballot (frm (.v 16) (.p 1) .nul)),
    (0x000000000604E00008010757, .matchEq (frm (.v 16) (.v 8) .nul (.reg (.p 4) 0))),
    (0x000000000E00E00008010758, .redux (frm (.v 16) (.v 8) .nul)),
    (0x000000000E00E00801E00759, .join (frm .nul (.m 1) .nul)),
    (0x000000000E00E00801E0075A, .leave (frm .nul (.m 1) .nul)),
    (0x000000000E00E00801E0075B, .jwait (frm .nul (.m 1) .nul)),
    (0x000000000E00E0060180275C, .jset (frm (.m 2) (.p 1) .nul)),
    (0x000000000E00E0080101075D, .jget (frm (.v 16) (.m 1) .nul)),
    (0x000000000E00E00E00E0075E, .reform (frm .nul .nul .nul)),
    (0x000000000E00E00E00E0075F, .rejoin (frm .nul .nul .nul))] : List (W96 × Instr)).all (fun x => reads x.1 x.2) = true := by decide +kernel

theorem decode_row_6 : ([
    (0x000000000E00E00E00010760, .bara (frm (.v 16) .nul .nul)),
    (0x000000000E00E00008E00761, .barw (frm .nul (.v 8) .nul)),
    (0x000000000E00E00E00010762, .baraw (frm (.v 16) .nul .nul)),
    (0x000000000E00E00E00010763, .bard (frm (.v 16) .nul .nul)),
    (0x000000000E00E00008602764, .bart (frm (.p 2) (.v 8) .nul)),
    (0x000000000E00E00008E00765, .barinit (frm .nul (.v 8) .nul)),
    (0x000000000E00E00E00E00766, .fence (frm .nul .nul .nul)),
    (0x000112345678E00208E00767, .prefw (frm .nul (.s 8) .nul (.imm 0x12345678))),
    (0x000112345678018208E00768, .wbw (frm .nul (.s 8) (.v 24) (.imm 0x12345678))),
    (0x000112345678018208E00769, .invw (frm .nul (.s 8) (.v 24) (.imm 0x12345678))),
    (0x000112345678018208E0076A, .disw (frm .nul (.s 8) (.v 24) (.imm 0x12345678))),
    (0x000000000E00018008E0076B, .winmap (frm .nul (.v 8) (.v 24))),
    (0x00011234567801820860276C, .lmon (frm (.p 2) (.s 8) (.v 24) (.imm 0x12345678))),
    (0x000000000E00E0000860276D, .lmwait (frm (.p 2) (.v 8) .nul)),
    (0x000000000E00E00E0060276E, .elect (frm (.p 2) .nul .nul)),
    (0x000000000E00E00E0001076F, .active (frm (.v 16) .nul .nul))] : List (W96 × Instr)).all (fun x => reads x.1 x.2) = true := by decide +kernel

theorem decode_row_7 : ([
    (0x000112345678E00208010770, .ldl8 (frm (.v 16) (.s 8) .nul (.imm 0x12345678))),
    (0x000112345678E00208010771, .ldl16 (frm (.v 16) (.s 8) .nul (.imm 0x12345678))),
    (0x000112345678E00208010772, .ldl32 (frm (.v 16) (.s 8) .nul (.imm 0x12345678))),
    (0x000112345678E00208010773, .ldl64 (frm (.v 16) (.s 8) .nul (.imm 0x12345678))),
    (0x000112345678E00208010774, .ldl128 (frm (.v 16) (.s 8) .nul (.imm 0x12345678))),
    (0x000112345678018208E00775, .stl8 (frm .nul (.s 8) (.v 24) (.imm 0x12345678))),
    (0x000112345678018208E00776, .stl16 (frm .nul (.s 8) (.v 24) (.imm 0x12345678))),
    (0x000112345678018208E00777, .stl32 (frm .nul (.s 8) (.v 24) (.imm 0x12345678))),
    (0x000112345678018208E00778, .stl64 (frm .nul (.s 8) (.v 24) (.imm 0x12345678))),
    (0x000112345678018208E00779, .stl128 (frm .nul (.s 8) (.v 24) (.imm 0x12345678))),
    (0x000112345678E0020821077A, .ldls (frm (.s 16) (.s 8) .nul (.imm 0x12345678))),
    (0x000112345678218208E0077B, .stls (frm .nul (.s 8) (.s 24) (.imm 0x12345678))),
    (0x00011234567801820801077C, .ldlm (frm (.v 16) (.s 8) (.v 24) (.imm 0x12345678))),
    (0x00011234567801820801077D, .stlm (frm (.v 16) (.s 8) (.v 24) (.imm 0x12345678))),
    (0x000112345678E0020801077E, .ldf (frm (.v 16) (.s 8) .nul (.imm 0x12345678))),
    (0x000112345678018208E0077F, .stf (frm .nul (.s 8) (.v 24) (.imm 0x12345678)))] : List (W96 × Instr)).all (fun x => reads x.1 x.2) = true := by decide +kernel

theorem decode_row_8 : ([
    (0x000112345678018208010780, .atladd (frm (.v 16) (.s 8) (.v 24) (.imm 0x12345678))),
    (0x000112345678018208010781, .atlmin (frm (.v 16) (.s 8) (.v 24) (.imm 0x12345678))),
    (0x000112345678018208010782, .atlmax (frm (.v 16) (.s 8) (.v 24) (.imm 0x12345678))),
    (0x000112345678018208010783, .atland (frm (.v 16) (.s 8) (.v 24) (.imm 0x12345678))),
    (0x000112345678018208010784, .atlor (frm (.v 16) (.s 8) (.v 24) (.imm 0x12345678))),
    (0x000112345678018208010785, .atlxor (frm (.v 16) (.s 8) (.v 24) (.imm 0x12345678))),
    (0x000112345678018208010786, .atlxch (frm (.v 16) (.s 8) (.v 24) (.imm 0x12345678))),
    (0x000000000020018208010787, .atlcas (frm (.v 16) (.s 8) (.v 24) (.reg (.v 32) 0))),
    (0x000112345678018208010788, .atlfadd (frm (.v 16) (.s 8) (.v 24) (.imm 0x12345678))),
    (0x000112345678018208010789, .atlinc (frm (.v 16) (.s 8) (.v 24) (.imm 0x12345678))),
    (0x00011234567801820801078A, .atldec (frm (.v 16) (.s 8) (.v 24) (.imm 0x12345678))),
    (0x00011234567801820801078B, .atlladd (frm (.v 16) (.s 8) (.v 24) (.imm 0x12345678))),
    (0x00000000002001820801078C, .atllcas (frm (.v 16) (.s 8) (.v 24) (.reg (.v 32) 0))),
    (0x00011234567801820801078D, .atllxch (frm (.v 16) (.s 8) (.v 24) (.imm 0x12345678))),
    (0x00011234567801820801078E, .atlfmin (frm (.v 16) (.s 8) (.v 24) (.imm 0x12345678))),
    (0x00011234567801820801078F, .atlfmax (frm (.v 16) (.s 8) (.v 24) (.imm 0x12345678)))] : List (W96 × Instr)).all (fun x => reads x.1 x.2) = true := by decide +kernel

theorem decode_row_9 : ([
    (0x000000000E00018008010790, .fadd (frm (.v 16) (.v 8) (.v 24))),
    (0x000000000E00018008010791, .fsub (frm (.v 16) (.v 8) (.v 24))),
    (0x000000000E00018008010792, .fmul (frm (.v 16) (.v 8) (.v 24))),
    (0x000000000020018008010793, .ffma (frm (.v 16) (.v 8) (.v 24) (.reg (.v 32) 0))),
    (0x000000000E00018008010794, .fmin (frm (.v 16) (.v 8) (.v 24))),
    (0x000000000E00018008010795, .fmax (frm (.v 16) (.v 8) (.v 24))),
    (0x000000000E00E00008010796, .frcp (frm (.v 16) (.v 8) .nul)),
    (0x000000000E00E00008010797, .frsq (frm (.v 16) (.v 8) .nul)),
    (0x000000000E00E00008010798, .fsqrt (frm (.v 16) (.v 8) .nul)),
    (0x000000000E00018008010799, .fdiv (frm (.v 16) (.v 8) (.v 24))),
    (0x000000000E00E0000801079A, .fsin (frm (.v 16) (.v 8) .nul)),
    (0x000000000E00E0000801079B, .fcos (frm (.v 16) (.v 8) .nul)),
    (0x000000000E00E0000801079C, .fexp2 (frm (.v 16) (.v 8) .nul)),
    (0x000000000E00E0000801079D, .flog2 (frm (.v 16) (.v 8) .nul)),
    (0x000000000E00E0000801079E, .ftanh (frm (.v 16) (.v 8) .nul)),
    (0x000000000E00E0000801079F, .fclass (frm (.v 16) (.v 8) .nul))] : List (W96 × Instr)).all (fun x => reads x.1 x.2) = true := by decide +kernel

theorem decode_row_A : ([
    (0x000000000E000180080107A0, .hadd2 (frm (.v 16) (.v 8) (.v 24))),
    (0x000000000E000180080107A1, .hsub2 (frm (.v 16) (.v 8) (.v 24))),
    (0x000000000E000180080107A2, .hmul2 (frm (.v 16) (.v 8) (.v 24))),
    (0x0000000000200180080107A3, .hfma2 (frm (.v 16) (.v 8) (.v 24) (.reg (.v 32) 0))),
    (0x000000000E000180080107A4, .hmin2 (frm (.v 16) (.v 8) (.v 24))),
    (0x000000000E000180080107A5, .hmax2 (frm (.v 16) (.v 8) (.v 24))),
    (0x0000000000200180080107A6, .fdot2 (frm (.v 16) (.v 8) (.v 24) (.reg (.v 32) 0))),
    (0x0000000000200180080107A7, .fdot4 (frm (.v 16) (.v 8) (.v 24) (.reg (.v 32) 0))),
    (0x000000000E00E000080107A8, .cvtf (frm (.v 16) (.v 8) .nul)),
    (0x000000000E00E000080107A9, .cvtfi (frm (.v 16) (.v 8) .nul)),
    (0x000000000E00E000080107AA, .cvtif (frm (.v 16) (.v 8) .nul)),
    (0x0000000000200180080107AB, .cvtpk (frm (.v 16) (.v 8) (.v 24) (.reg (.v 32) 0))),
    (0x000000000E00E000080107AC, .cvtupk (frm (.v 16) (.v 8) .nul)),
    (0x000000000E000180080107AD, .fscale (frm (.v 16) (.v 8) (.v 24))),
    (0x000000000E00E000080107AE, .fround (frm (.v 16) (.v 8) .nul)),
    (0x000000000E000180080107AF, .fcopysign (frm (.v 16) (.v 8) (.v 24)))] : List (W96 × Instr)).all (fun x => reads x.1 x.2) = true := by decide +kernel

theorem decode_row_B : ([
    (0x0001123456780182080107B0, .cpost (frm (.v 16) (.s 8) (.v 24) (.imm 0x12345678))),
    (0x000000000E00E00008E007B1, .cfence (frm .nul (.v 8) .nul)),
    (0x000000000E00E000080107B2, .cstat (frm (.v 16) (.v 8) .nul)),
    (0x000000000E00E000086027B3, .ccancel (frm (.p 2) (.v 8) .nul)),
    (0x000000000E00E000080107B4, .swaitany (frm (.v 16) (.v 8) .nul)),
    (0x000000000E00E000086027B5, .swaitall (frm (.p 2) (.v 8) .nul)),
    (0x000000000E00E000080107B6, .sfind (frm (.v 16) (.v 8) .nul)),
    (0x000000000E00E000086027B7, .stry (frm (.p 2) (.v 8) .nul)),
    (0x000000000E00E00008E007B8, .sclr (frm .nul (.v 8) .nul)),
    (0x000000000E00E00E000107B9, .sread (frm (.v 16) .nul .nul)),
    (0x000000000E00E000080107BA, .ringwait (frm (.v 16) (.v 8) .nul)),
    (0x000000000E00E00008E007BB, .ringack (frm .nul (.v 8) .nul)),
    (0x000000000E00E00008A027BC, .qpush (frm (.q 2 false 0) (.v 8) .nul)),
    (0x000000000E00E00A010107BD, .qpop (frm (.v 16) (.q 1 false 0) .nul)),
    (0x000000000E00E00A010107BE, .qpeek (frm (.v 16) (.q 1 false 0) .nul)),
    (0x000000000E00E00A010107BF, .qstat (frm (.v 16) (.q 1 false 0) .nul))] : List (W96 × Instr)).all (fun x => reads x.1 x.2) = true := by decide +kernel

theorem decode_row_C : ([
    (0x000000000604E000080107C0, .fclaim (frm (.v 16) (.v 8) .nul (.reg (.p 4) 0))),
    (0x000000000E00E00008E007C1, .frel (frm .nul (.v 8) .nul)),
    (0x000000000604E000080107C2, .aclaim (frm (.v 16) (.v 8) .nul (.reg (.p 4) 0))),
    (0x000000000E00E00008E007C3, .arel (frm .nul (.v 8) .nul)),
    (0x000200000E00018E00E007C4, .mlatch (frm .nul .nul (.v 24) (.reg .nul 0) 1)),
    (0x000200000E00018008E007C5, .mstream (frm .nul (.v 8) (.v 24) (.reg .nul 0) 1)),
    (0x000200000020018008E007C6, .mdrain (frm .nul (.v 8) (.v 24) (.reg (.v 32) 0) 1)),
    (0x000000000E00E00008E007C7, .mzero (frm .nul (.v 8) .nul)),
    (0x000000000E00E00E000107C8, .mstat (frm (.v 16) .nul .nul)),
    (0x000000000E00E00E00E007C9, .mfence (frm .nul .nul .nul)),
    (0x000200000E00E000080107CA, .scalerd (frm (.v 16) (.v 8) .nul (.reg .nul 0) 1)),
    (0x000000000E00018008E007CB, .amaxp (frm .nul (.v 8) (.v 24))),
    (0x000000000E00E000080107CC, .accrd (frm (.v 16) (.v 8) .nul)),
    (0x000000000E00E000080107CD, .accwr (frm (.v 16) (.v 8) .nul)),
    (0x000000000E00E00008E007CE, .fzero (frm .nul (.v 8) .nul)),
    (0x000112345678E00208E007CF, .mcmd (frm .nul (.s 8) .nul (.imm 0x12345678)))] : List (W96 × Instr)).all (fun x => reads x.1 x.2) = true := by decide +kernel

theorem decode_row_D : ([
    (0x000000000E000180080107D0, .vvcmp (frm (.v 16) (.v 8) (.v 24))),
    (0x000000000E000180080107D1, .vvmax (frm (.v 16) (.v 8) (.v 24))),
    (0x000000000E000180080107D2, .vvinc (frm (.v 16) (.v 8) (.v 24))),
    (0x000000000E00E000080107D3, .srrd (frm (.v 16) (.v 8) .nul)),
    (0x000000000E00018008E007D4, .srwr (frm .nul (.v 8) (.v 24))),
    (0x000000000E00E000086027D5, .cresumeDock (frm (.p 2) (.v 8) .nul)),
    (0x0001123456780182086027D6, .csave (frm (.p 2) (.s 8) (.v 24) (.imm 0x12345678))),
    (0x000000000E00018008E007D7, .accsave (frm .nul (.v 8) (.v 24))),
    (0x000000000E00018008E007D8, .accload (frm .nul (.v 8) (.v 24))),
    (0x000000000E000180086027D9, .teamkill (frm (.p 2) (.v 8) (.v 24))),
    (0x000112345678E002086027DA, .dockpop (frm (.p 2) (.s 8) .nul (.imm 0x12345678))),
    (0x000000000E00E00E000107DB, .leaseq (frm (.v 16) .nul .nul)),
    (0x000000000E00E000080107DC, .perfrd (frm (.v 16) (.v 8) .nul)),
    (0x000000000E00018008E007DD, .perfctl (frm .nul (.v 8) (.v 24))),
    (0x000000000E00E00008E007DE, .seed (frm .nul (.v 8) .nul)),
    (0x000000000E00E00E000107DF, .rand (frm (.v 16) .nul .nul))] : List (W96 × Instr)).all (fun x => reads x.1 x.2) = true := by decide +kernel

theorem decode_row_E : ([
    (0x000112345678E002080107E0, .epopen (frm (.v 16) (.s 8) .nul (.imm 0x12345678))),
    (0x000000000E00E000086027E1, .epclose (frm (.p 2) (.v 8) .nul)),
    (0x000000000E00E000080107E2, .epstat (frm (.v 16) (.v 8) .nul)),
    (0x000000000E00E000080107E3, .polset (frm (.v 16) (.v 8) .nul)),
    (0x000000000E00018A016027E4, .mbxbind (frm (.p 2) (.q 1 false 0) (.v 24))),
    (0x000000000E00E00A01E007E5, .mbxrel (frm .nul (.q 1 false 0) .nul)),
    (0x000000000E00E000080107E6, .grprd (frm (.v 16) (.v 8) .nul)),
    (0x000000000E00E000080107E7, .homeof (frm (.v 16) (.v 8) .nul)),
    (0x0000000000200180080107E8, .iadd3 (frm (.v 16) (.v 8) (.v 24) (.reg (.v 32) 0))),
    (0x0000000000200180080107E9, .iscadd (frm (.v 16) (.v 8) (.v 24) (.reg (.v 32) 0))),
    (0x000000000E000180080107EA, .bmsk (frm (.v 16) (.v 8) (.v 24))),
    (0x000000000E00E000080107EB, .bfind (frm (.v 16) (.v 8) .nul)),
    (0x0000000000200180080107EC, .flerp (frm (.v 16) (.v 8) (.v 24) (.reg (.v 32) 0))),
    (0x000000000E00E000080107ED, .fsat (frm (.v 16) (.v 8) .nul)),
    (0x000000000E00E000080107EE, .fexp (frm (.v 16) (.v 8) .nul)),
    (0x000000000E00E000080107EF, .fract (frm (.v 16) (.v 8) .nul))] : List (W96 × Instr)).all (fun x => reads x.1 x.2) = true := by decide +kernel

theorem decode_row_F : ([
    (0x000000000E000180080107F0, .dadd (frm (.v 16) (.v 8) (.v 24))),
    (0x000000000E000180080107F1, .dsub (frm (.v 16) (.v 8) (.v 24))),
    (0x000000000E000180080107F2, .dmul (frm (.v 16) (.v 8) (.v 24))),
    (0x0000000000200180080107F3, .dfma (frm (.v 16) (.v 8) (.v 24) (.reg (.v 32) 0))),
    (0x000000000E000180080107F4, .dmin (frm (.v 16) (.v 8) (.v 24))),
    (0x000000000E000180080107F5, .dmax (frm (.v 16) (.v 8) (.v 24))),
    (0x000000000E000180080107F6, .ddiv (frm (.v 16) (.v 8) (.v 24))),
    (0x000000000E00E000080107F7, .dsqrt (frm (.v 16) (.v 8) .nul)),
    (0x000000000E00E000080107F8, .drcp (frm (.v 16) (.v 8) .nul)),
    (0x000000000E000180086027F9, .dsetp (frm (.p 2) (.v 8) (.v 24))),
    (0x000000000E00E000080107FA, .cvtd (frm (.v 16) (.v 8) .nul)),
    (0x000000000E00E000080107FB, .cvtdi (frm (.v 16) (.v 8) .nul)),
    (0x000000000E00E000080107FC, .cvtid (frm (.v 16) (.v 8) .nul)),
    (0x000000000E00E000080107FD, .dround (frm (.v 16) (.v 8) .nul)),
    (0x000000000E00E000080107FE, .dclass (frm (.v 16) (.v 8) .nul)),
    (0x000000000E000180080107FF, .dscale (frm (.v 16) (.v 8) (.v 24)))] : List (W96 × Instr)).all (fun x => reads x.1 x.2) = true := by decide +kernel

/-- UDF reads whatever its fields hold (R71), CRESUME.rec takes MOD[0] (R343), and the carrel extension's words (R323) with a word
of the base architecture. -/
theorem decode_others :
    reads 0xFFFFFFFFFFFFFFFFFFFFFF0F (.udf { frm .nul .nul .nul (.imm 0xFFFFFFFF) with guard := 15 }) = true ∧
    (match decodeCarrel 0x0005800B with | .ok i => i == .mbxPush 11 | _ => false) = true ∧
    (match decodeCarrel 0x0205850B with | .ok i => i == .mbxPop 10 11 0 | _ => false) = true ∧
    (match decodeCarrel 0x0405850B with | .ok i => i == .mbxPeek 10 11 | _ => false) = true ∧
    (match decodeCarrel 0x0605800B with | .ok i => i == .stepDone 11 | _ => false) = true ∧
    (match decodeCarrel 0x0805800B with | .ok i => i == .arenaSync 11 | _ => false) = true ∧
    (match decodeCarrel 0x00158593 with | .ok i => i == .riscvLoadsAndStores 0x00158593 false | _ => false) = true := by decide +kernel

/-! ## Well-formedness: what each check refuses -/

/-- A MOD value without a meaning (R64), a special beyond 39, a mask beyond 11 and a reserved queue bit (R56), operands of a class
that the slot does not take, odd pairs and broken groups (R57, R61, R195), an immediate beside a b operand (R59), a C that
the entry does not use (R58), a mark on a word that is not long-latency and FSET 3 (R21), two queue operands (R268), and a
header's flag number (R68). -/
theorem smoke_WellFormed :
    (Instr.iadd (frm (.v 1) (.v 2) (.v 3))).wellFormed = true ∧
    (Instr.iadd (frm (.v 1) (.v 2) (.v 3) (.reg .nul 0) 1)).wellFormed = false ∧
    (Instr.iadd (frm (.v 1) (.sp 40) (.v 3))).wellFormed = false ∧
    (Instr.join (frm .nul (.m 12) .nul)).wellFormed = false ∧
    (Instr.qpop { frm (.v 1) (.q 0 false 1) .nul with fset := 1 }).wellFormed = false ∧
    (Instr.iadd (frm (.p 1) (.v 2) (.v 3))).wellFormed = false ∧
    (Instr.iadd (frm (.v 1) (.p 2) (.v 3))).wellFormed = false ∧
    (Instr.ladd (frm (.v 1) (.v 2) (.v 4))).wellFormed = false ∧
    (Instr.ldl128 (frm (.v 2) (.s 4) .nul (.imm 0))).wellFormed = false ∧
    (Instr.vvmax (frm (.v 4) (.v 8) (.v 16))).wellFormed = false ∧
    (Instr.iadd (frm (.v 1) (.v 2) (.v 3) (.imm 5))).wellFormed = false ∧
    (Instr.iadd (frm (.v 1) (.v 2) (.v 3) (.reg (.v 4) 0))).wellFormed = false ∧
    (Instr.iadd (frm (.v 1) (.v 2) (.v 3) (.reg .nul 1))).wellFormed = false ∧
    (Instr.iadd { frm (.v 1) (.v 2) (.v 3) with fset := 1 }).wellFormed = false ∧
    (Instr.ldl32 { frm (.v 1) (.s 2) .nul (.imm 0) with fset := 3 }).wellFormed = false ∧
    (Instr.iadd { frm (.v 1) (.q 0 false 0) (.q 1 false 0) with fset := 1 }).wellFormed = false ∧
    (Instr.clause { wait := 0, flagA := 12, flagB := 15, len := 0 }).wellFormed = false ∧
    (match decodeWord 0x00020000000000003002001710 with | .ok _ => false | .error _ => true) = true := by decide +kernel

/-! ## One step -/

/-- A register of the thread after an instruction, its v1, v2, v3 as given. -/
noncomputable def after (i : Instr) (a b c : W32) (k : Nat) : Option W32 :=
  match exec i (onThread fun l => { l with v := [(1, a), (2, b), (3, c)] }) with
  | .next t => some (vreg t 0 ⟨0, 0⟩ k)
  | _ => none

def two (m : BitVec 9 := 0) : Form := frm (.v 8) (.v 1) (.v 2) (.reg .nul 0) m
def three (m : BitVec 9 := 0) : Form := frm (.v 8) (.v 1) (.v 2) (.reg (.v 3) 0) m

/-- By R83: two's-complement sums wrap, or are clamped to the type under SAT; by R84 and R88 products and shifts. -/
theorem test_integers :
    after (.iadd (two)) 0x7FFFFFFF 1 0 8 = some 0x80000000 ∧ after (.iadd (two 8)) 0x7FFFFFFF 1 0 8 = some 0x7FFFFFFF ∧
    after (.isub (two 0x68)) 0 1 0 8 = some 0 ∧ after (.imulh (two)) 0x80000000 0x80000000 0 8 = some 0x40000000 ∧
    after (.shl (two)) 1 32 0 8 = some 0 ∧ after (.shl (two 1)) 1 32 0 8 = some 1 ∧ after (.sar (two)) 0x80000000 40 0 8 = some 0xFFFFFFFF ∧
    after (.ladd (frm (.v 8) (.v 2) (.v 2))) 0 0xFFFFFFFF 0 9 = some 1 := by decide +kernel

/-- By R90 and R94: a signed field of four ones, and the bytes of b and a in turn. -/
theorem test_fields :
    after (.bfe (two 0x50)) 0xF0 0x0404 0 8 = some 0xFFFFFFFF ∧ after (.bmsk (two)) 4 8 0 8 = some 0xFF0 ∧
    after (.prmt (three)) 0x44332211 0x88776655 0x04000703 8 = some 0x55118844 := by decide +kernel

/-- By R105 to R108 and R111: one rounding to nearest even, the canonical NaN, a NaN that loses to a number, two halves. -/
theorem test_floats :
    after (.fadd (two)) 0x3F800000 0x33000000 0 8 = some 0x3F800000 ∧ after (.fadd (two)) 0x3F800000 0x34400000 0 8 = some 0x3F800002 ∧
    after (.fadd (two)) 0x7F800000 0xFF800000 0 8 = some 0x7FC00000 ∧ after (.fmin (two)) 0x7FC00000 0x3F800000 0 8 = some 0x3F800000 ∧
    after (.hadd2 (frm (.v 8) (.v 1) (.v 2))) 0x3C003C00 0x3C004000 0 8 = some 0x40004200 := by decide +kernel

/-- A compare writes its predicate and p7 takes none (R10, R91); a store reaches the scratchpad lowest byte first (R195); SVC enters
the monitor with its cause (R102, R329). -/
theorem test_effects :
    (match exec (.isetp (frm (.p 3) (.v 1) (.imm 1) (.reg .nul 0) 2)) demo with
      | .next t => preg t 0 ⟨0, 0⟩ 3 && !preg t 0 ⟨0, 0⟩ 2 | _ => false) = true ∧
    (match exec (.stl32 (frm .nul .nul (.v 1) (.imm 8))) (onThread fun l => { l with v := [(1, 0x04030201)] }) with
      | .next t => memReads (t.team 1).scratch 7 6 == [0, 1, 2, 3, 4, 0] | _ => false) = true ∧
    (match exec (.svc (offset 9)) demo with
      | .next t => (t.lane 0 ⟨0, 0⟩).mon && (t.lane 0 ⟨0, 0⟩).mregs.cause == 0x0B && (t.lane 0 ⟨0, 0⟩).mregs.mtag == 9 &&
          (t.lane 0 ⟨0, 0⟩).pc == 0x30000 && (t.lane 0 ⟨0, 0⟩).mregs.mepc == 0x18 | _ => false) = true := by decide +kernel

/-- A step after reset runs the word that is fetched and goes to the next (R15, R16). -/
theorem test_step :
    (match step fetching with
      | .next t => vreg t 0 ⟨0, 0⟩ 5 == 1 && (t.lane 0 ⟨0, 0⟩).pc == 0x10018 | _ => false) = true := by decide +kernel

/-- A write-back of bytes 1 and 2 tests a WATCH (not equal) once, on the word 0x00050400: not on 0x400 between them (R208, R219). -/
theorem test_watch_whole_line :
    (let c : Cmd := { (default : Cmd) with kind := 7, state := .armed, bytes := 0, dws := [1 <<< 44, 0, 0, 0x00050400] }
     let c2 : Cmd := { c with dws := [1 <<< 44, 0, 0, 0] }
     let s := homePut { State.reset with cmds := [(1, c), (2, c2)] } 0 [(1, 4), (2, 5)]
     s.cmds.map fun e => (e.2.value.toNat, e.2.limit)) = [(0x00050400, none), (0x00050400, some 1)] := by decide +kernel

end Sys2Proof.Tests
end

/-! PROOFS. The matrix queue and the elements of a tile (R278, R280 to R283): when an event of the queue performs the operation at
its head, and what a sequence of element writes leaves in a tile. -/

namespace Sys2Proof.MatrixQueue

open Sys2Proof.Machine Sys2Proof.Laws

/-! ## The events of the queue -/

theorem exec_matrixAppend (core slot bid : Nat) (s : State) :
    exec (.matrixAppend core slot bid) s = execMatrixAppend core slot bid s := by rfl
theorem exec_latch (core op : Nat) (s : State) : exec (.latch core op) s = matrixEvent s core op 1 := by rfl
theorem exec_stream (core op : Nat) (s : State) : exec (.stream core op) s = matrixEvent s core op 2 := by rfl
theorem exec_drain (core op : Nat) (s : State) : exec (.drain core op) s = matrixEvent s core op 3 := by rfl
theorem exec_zero (core op : Nat) (s : State) : exec (.zero core op) s = matrixEvent s core op 4 := by rfl

/-- The operation at the head of a core's queue may be performed: its team is live, no held store meets what it reads (R279), and
one that sets a slip stands in the second half of a cycle (R256). -/
structure HeadReady (s : State) (core : Nat) (op : MatOp) : Prop where
  head : (s.core core).mat.head? = some op
  live : s.live op.team = true
  unheld : heldBefore s core op = false
  turn : op.slip = none ∨ s.now % 2 = 1

/-- The half of the cycle lets a ready head finish, as `runHead` tests it. -/
theorem HeadReady.inTurn {s : State} {core : Nat} {op : MatOp} (h : HeadReady s core op) :
    (op.slip.isNone || s.lateHalf) = true := by
  simpa [State.lateHalf] using h.turn

section Head

variable {s u : State} {core : Nat} {op : MatOp} {kind : Nat → Bool}

theorem runHead_of_ok (h : HeadReady (wakeMatrix s core) core op) (hk : kind op.op = true)
    (hp : performOp (wakeMatrix s core) core op = .ok u) : runHead s core op.id kind = finishOp u core op := by
  obtain ⟨rest, hmat⟩ := List.head?_eq_some_iff.mp h.head
  simp only [runHead, hmat, hk, hp, h.live, h.unheld, h.inTurn, beq_self_eq_true, Bool.not_false, Bool.and_self, if_true]

theorem runHead_of_bad {fault status : Nat} (h : HeadReady (wakeMatrix s core) core op) (hk : kind op.op = true)
    (hp : performOp (wakeMatrix s core) core op = .bad fault status) :
    runHead s core op.id kind = endByOp (wakeMatrix s core) op fault status := by
  obtain ⟨rest, hmat⟩ := List.head?_eq_some_iff.mp h.head
  simp only [runHead, hmat, hk, hp, h.live, h.unheld, h.inTurn, beq_self_eq_true, Bool.not_false, Bool.and_self, if_true]

theorem matrixEvent_of_ok (h : HeadReady (wakeMatrix s core) core op)
    (hp : performOp (wakeMatrix s core) core op = .ok u) :
    matrixEvent s core op.id op.op = .next (runSaves 32 (finishOp u core op) core) := by
  rw [matrixEvent, runHead_of_ok h (by simp) hp]

theorem runSaves_of_empty (n : Nat) (h : (s.core core).mat = []) : runSaves n s core = s := by
  cases n <;> simp [runSaves, h]

theorem matrixEvent_of_bad {fault status : Nat} (h : HeadReady (wakeMatrix s core) core op)
    (hp : performOp (wakeMatrix s core) core op = .bad fault status)
    (he : ((endByOp (wakeMatrix s core) op fault status).core core).mat = []) :
    matrixEvent s core op.id op.op = .next (endByOp (wakeMatrix s core) op fault status) := by
  rw [matrixEvent, runHead_of_bad h (by simp) hp, runSaves_of_empty 32 he]

/-- Where no word waits, there is no access for a completion to make (R286), and none is held (R279). -/
theorem wakeMatrix_of_no_waits (h : (s.core core).waits = []) : wakeMatrix s core = s := by
  simp [wakeMatrix, h]

theorem heldBefore_of_no_waits (h : (s.core core).waits = []) (op : MatOp) : heldBefore s core op = false := by
  simp [heldBefore, h]

end Head

/-! ## The elements of a tile -/

theorem tget_tdel_same {α : Type} (t : Tbl α) (k : Nat) : tget (tdel t k) k = none := by
  induction t with
  | nil => rfl
  | cons e t ih =>
    obtain ⟨i, y⟩ := e
    by_cases h : i = k
    · simpa [tdel, h] using ih
    · simpa [tdel, tget, h] using ih

theorem tget_tdel_other {α : Type} (t : Tbl α) {k j : Nat} (h : j ≠ k) : tget (tdel t k) j = tget t j := by
  induction t with
  | nil => rfl
  | cons e t ih =>
    obtain ⟨i, y⟩ := e
    by_cases hi : i = k
    · have hj : k ≠ j := h.symm
      simpa [tdel, tget, hi, hj] using ih
    · by_cases hj : i = j
      · simp [tdel, tget, hj, h]
      · simpa [tdel, tget, hi, hj] using ih

/-- An element reads what was written to it last; a zero is kept by listing nothing (R272). -/
theorem accAt_setAcc (c : Core) (tile k : Nat) (x : W32) (j : Nat) :
    accAt (setAcc c tile k x) tile j = if j = k then x else accAt c tile j := by
  by_cases hx : x = 0#32 <;> by_cases hj : j = k
  · simp [accAt, setAcc, hx, hj, tgetD, tget_tdel_same]
  · simp [accAt, setAcc, hx, hj, tgetD, tget_tdel_other]
  · simp [accAt, setAcc, hx, hj]
  · simp [accAt, setAcc, hx, hj]

/-- Writes of a value of each index: the indices of the list hold it, every other element is as it was. -/
theorem accAt_foldl_setAcc (f : Nat → W32) (tile : Nat) (ks : List Nat) (c : Core) (j : Nat) :
    accAt (ks.foldl (fun c k => setAcc c tile k (f k)) c) tile j = if j ∈ ks then f j else accAt c tile j := by
  induction ks generalizing c with
  | nil => simp
  | cons k ks ih =>
    rw [List.foldl_cons, ih, accAt_setAcc]
    by_cases hk : j = k
    · simp [hk]
    · simp [hk]

/-- An operation that writes whole lines may clear their poison (R192); the elements do not show it. -/
theorem accAt_of_poison_cleared {p : Prop} [Decidable p] (c : Core) (ls : List Nat) (tile k : Nat) :
    accAt (if p then { c with tilePoison := ls } else c) tile k = accAt c tile k := by
  split <;> rfl

theorem countEv_core (s : State) (t ev n c : Nat) : (countEv s t ev n).core c = s.core c :=
  core_of_cores (countEv_cores s t ev n) c

/-! ## STREAM and ZERO -/

/-- The tile's elements in the rows of a STREAM (R281). -/
def streamElems (m : Mcmd) : List Nat :=
  ((List.range m.nrows).map (m.row0 + ·)).flatMap fun i => (List.range 512).map (i * 512 + ·)

theorem mem_streamElems (m : Mcmd) (i : Nat) {j : Nat} (hj : j < 512) :
    512 * i + j ∈ streamElems m ↔ m.row0 ≤ i ∧ i < m.row0 + m.nrows := by
  simp only [streamElems, List.mem_flatMap, List.mem_map, List.mem_range]
  constructor
  · rintro ⟨_, ⟨r, hr, rfl⟩, q, hq, e⟩
    omega
  · rintro ⟨lo, hi⟩
    exact ⟨i, ⟨i - m.row0, by omega, by omega⟩, j, hj, by omega⟩

/-- A pairing of formats outside R275 ends the operation. -/
theorem performStream_of_bad_pair {s : State} {core t : Nat} {m : Mcmd} (hf : m.flag 1 = false)
    (hp : streamPair m.fmt (s.team t).front = false) : performStream s core t m = .bad 0x000E 1 := by
  simp [performStream, hf, hp]

/-- An operation that went well passed its test. -/
theorem ok_of_ite {p : Prop} [Decidable p] {fault status : Nat} {x : OpEnd} {u : State}
    (h : (if p then .bad fault status else x) = OpEnd.ok u) : x = .ok u := by
  split at h
  · cases h
  · exact h

/-- The value that a STREAM which keeps its planes leaves at an index of its rows (R49, R281). -/
def streamSum (s : State) (core t : Nat) (m : Mcmd) (k : Nat) : W32 :=
  chunkSum (s.core core) m (s.team t).front (k / 512) (k % 512) (if m.flag 2 then 0 else accAt (s.core core) m.tile k)

/-- What the tile holds at an index after a STREAM that keeps its planes (R49, R281). -/
theorem accAt_performStream {s u : State} {core t : Nat} {m : Mcmd} (hp : performStream s core t m = .ok u)
    (hf : m.flag 1 = false) (k : Nat) :
    accAt (u.core core) m.tile k =
      if k ∈ streamElems m then streamSum s core t m k else accAt (s.core core) m.tile k := by
  simp only [performStream, hf, Bool.false_eq_true, if_false] at hp
  injection ok_of_ite (ok_of_ite hp) with e
  rw [← e, countEv_core, core_onCore_same, accAt_of_poison_cleared, List.foldl_map]
  exact accAt_foldl_setAcc (streamSum s core t m) m.tile (streamElems m) (s.core core) k

theorem accAt_performZero {s u : State} {core : Nat} {m : Mcmd} (hp : performZero s core m = .ok u) (k : Nat) :
    accAt (u.core core) m.tile k =
      if k ∈ m.region.map (fun x => x.2.2) then 0 else accAt (s.core core) m.tile k := by
  cases hp
  rw [core_onCore_same]
  exact accAt_foldl_setAcc (fun _ => 0) m.tile _ (s.core core) k

/-! ## The words that wait for room -/

/-- The first word that waits for room appends its operation in the first half of a cycle (R256, R278). -/
theorem execMatrixAppend_of_first {s : State} {core : Nat} {w : Wait} {rest : List Wait} {op : MatOp} {stay : Bool}
    (hw : matrixWaits s core = w :: rest) (hk : w.kind = .matrix op stay) (room : (s.core core).mat.length < 32)
    (half : s.now % 2 = 0) :
    execMatrixAppend core w.slot w.bid s = .next (runSaves 32 (
      if stay then setWait (appendOp s core op).2 core w.bid (.matDone (appendOp s core op).1)
      else finishWait (appendOp s core op).2 core w) core) := by
  simp [execMatrixAppend, hw, hk, room, State.firstHalf, half]

/-! ## The statement -/

/-- Settles O37: an event of the queue is what its ready head comes to, and the elements that STREAM and ZERO write are those of
their rows and region. -/
theorem matrixOperations : Obligations.MatrixOperations := by
  unfold Obligations.MatrixOperations
  refine ⟨⟨?append, ?performed, ?bad, fun s core h => ⟨wakeMatrix_of_no_waits h, heldBefore_of_no_waits h⟩,
    fun s core t m => performStream_of_bad_pair⟩, ?stream, ?zero, accAt_setAcc⟩
  case append =>
    rintro s core slot bid w rest op stay hw hk rfl rfl room half
    rw [exec_matrixAppend, execMatrixAppend_of_first hw hk room half]
  case performed =>
    intro s core op rest u v hmat hlive hheld hturn hp
    have event := matrixEvent_of_ok ⟨by rw [hmat]; rfl, hlive, hheld, hturn⟩ hp
    refine ⟨fun e => ?_, fun e => ?_, fun e => ?_, fun e => ?_⟩
    · rw [exec_latch, ← event, e]
    · rw [exec_stream, ← event, e]
    · rw [exec_drain, ← event, e]
    · rw [exec_zero, ← event, e]
  case bad =>
    intro s core op rest fault status v hmat hlive hheld hturn e hp hend
    rw [exec_stream, ← matrixEvent_of_bad ⟨by rw [hmat]; rfl, hlive, hheld, hturn⟩ hp hend, e]
  case stream =>
    intro s u core t m hp hf i j _ hj
    have row : (512 * i + j) / 512 = i := by omega
    have column : (512 * i + j) % 512 = j := by omega
    rw [accAt_performStream hp hf, streamSum, row, column]
    simp only [mem_streamElems m i hj]
  case zero =>
    intro s u core m hp
    refine ⟨fun x hx => ?_, fun k hk => ?_⟩
    · rw [accAt_performZero hp, if_pos (List.mem_map_of_mem hx)]
    · rw [accAt_performZero hp, if_neg fun h => by
        obtain ⟨x, hx, e⟩ := List.mem_map.mp h
        exact hk x hx e]

end Sys2Proof.MatrixQueue

/-! PROOFS. The decoder reads back what the encoder writes (R54 to R57, R68, R323): the fields of an encoded word and of an encoded
descriptor, then Dolmin words, headers and the carrel extension; last, the words that the spec writes out. -/

namespace Sys2Proof.Codec

open BitVec

/-! ## Descriptors (R56) -/

/-- An operand that exists is read from its descriptor: class and index stand where the decoder looks, the other bits are zero. -/
theorem decodeOpnd_encodeOpnd {o : Opnd} (ho : o.exists_ = true) : decodeOpnd (encodeOpnd o) = some o := by
  cases o with
  | v n =>
    have cls : (encodeOpnd (.v n)).extractLsb' 9 3 = 0 := by rw [encodeOpnd, extractLsb'_append_eq_of_le (by decide)]; rfl
    have idx : (encodeOpnd (.v n)).extractLsb' 0 8 = n := extractLsb'_append_eq_right
    have zero : (encodeOpnd (.v n)).getLsbD 8 = false := by rw [encodeOpnd, getLsbD_append]; rfl
    simp only [decodeOpnd, cls, idx, zero]
    simp [ho]
  | s n =>
    have cls : (encodeOpnd (.s n)).extractLsb' 9 3 = 1 := by rw [encodeOpnd, extractLsb'_append_eq_of_le (by decide)]; rfl
    have idx : (encodeOpnd (.s n)).extractLsb' 0 7 = n := extractLsb'_append_eq_right
    have zero : (encodeOpnd (.s n)).extractLsb' 7 2 = 0 := by rw [encodeOpnd, extractLsb'_append_eq_of_le (by decide)]; rfl
    simp [decodeOpnd, cls, idx, zero, ho]
  | sp n =>
    have cls : (encodeOpnd (.sp n)).extractLsb' 9 3 = 2 := extractLsb'_append_eq_left
    have idx : (encodeOpnd (.sp n)).extractLsb' 0 9 = n := extractLsb'_append_eq_right
    simp [decodeOpnd, cls, idx, ho]
  | p n =>
    have cls : (encodeOpnd (.p n)).extractLsb' 9 3 = 3 := by rw [encodeOpnd, extractLsb'_append_eq_of_le (by decide)]; rfl
    have idx : (encodeOpnd (.p n)).extractLsb' 0 3 = n := extractLsb'_append_eq_right
    have zero : (encodeOpnd (.p n)).extractLsb' 3 6 = 0 := by rw [encodeOpnd, extractLsb'_append_eq_of_le (by decide)]; rfl
    simp [decodeOpnd, cls, idx, zero, ho]
  | m n =>
    have cls : (encodeOpnd (.m n)).extractLsb' 9 3 = 4 := by rw [encodeOpnd, extractLsb'_append_eq_of_le (by decide)]; rfl
    have idx : (encodeOpnd (.m n)).extractLsb' 0 4 = n := extractLsb'_append_eq_right
    have zero : (encodeOpnd (.m n)).extractLsb' 4 5 = 0 := by rw [encodeOpnd, extractLsb'_append_eq_of_le (by decide)]; rfl
    simp [decodeOpnd, cls, idx, zero, ho]
  | q n nb pr =>
    have cls : (encodeOpnd (.q n nb pr)).extractLsb' 9 3 = 5 := by
      rw [encodeOpnd]; iterate 3 rw [extractLsb'_append_eq_of_le (by decide)]
      rfl
    have zero : (encodeOpnd (.q n nb pr)).getLsbD 8 = false := by
      rw [encodeOpnd]; iterate 3 rw [getLsbD_append, if_neg (by decide)]
      rfl
    have prio : (encodeOpnd (.q n nb pr)).extractLsb' 5 3 = pr := by
      rw [encodeOpnd]; iterate 2 rw [extractLsb'_append_eq_of_le (by decide)]
      exact extractLsb'_append_eq_right
    have block : (encodeOpnd (.q n nb pr)).getLsbD 4 = nb := by
      rw [encodeOpnd, getLsbD_append, if_neg (by decide), getLsbD_append, if_pos (by decide)]
      simp
    have idx : (encodeOpnd (.q n nb pr)).extractLsb' 0 4 = n := extractLsb'_append_eq_right
    simp only [decodeOpnd, cls, idx, zero, prio, block]
    simp [ho]
  | imm k =>
    have cls : (encodeOpnd (.imm k)).extractLsb' 9 3 = 6 := extractLsb'_append_eq_left
    have idx : (encodeOpnd (.imm k)).extractLsb' 0 9 = k := extractLsb'_append_eq_right
    simp [decodeOpnd, cls, idx]
  | nul => rfl

/-! ## The fields of a word (R54) -/

section
variable (opc : BitVec 8) (f : Form)

@[simp] theorem field_opc_encodeForm : field (encodeForm opc f) 0 8 = opc := extractLsb'_append_eq_right

@[simp] theorem field_guard_encodeForm : field (encodeForm opc f) 8 4 = f.guard := by
  rw [field, encodeForm, extractLsb'_append_eq_of_le (by decide)]
  exact extractLsb'_append_eq_right

@[simp] theorem field_d_encodeForm : field (encodeForm opc f) 12 12 = encodeOpnd f.d := by
  rw [field, encodeForm]
  iterate 2 rw [extractLsb'_append_eq_of_le (by decide)]
  exact extractLsb'_append_eq_right

@[simp] theorem field_a_encodeForm : field (encodeForm opc f) 24 12 = encodeOpnd f.a := by
  rw [field, encodeForm]
  iterate 3 rw [extractLsb'_append_eq_of_le (by decide)]
  exact extractLsb'_append_eq_right

@[simp] theorem field_b_encodeForm : field (encodeForm opc f) 36 12 = encodeOpnd f.b := by
  rw [field, encodeForm]
  iterate 4 rw [extractLsb'_append_eq_of_le (by decide)]
  exact extractLsb'_append_eq_right

@[simp] theorem field_mod_encodeForm : field (encodeForm opc f) 81 9 = f.mod := by
  rw [field, encodeForm]
  iterate 6 rw [extractLsb'_append_eq_of_le (by decide)]
  exact extractLsb'_append_eq_right

@[simp] theorem field_fset_encodeForm : field (encodeForm opc f) 90 2 = f.fset := by
  rw [field, encodeForm]
  iterate 7 rw [extractLsb'_append_eq_of_le (by decide)]
  exact extractLsb'_append_eq_right

@[simp] theorem field_pace_encodeForm : field (encodeForm opc f) 92 3 = f.pace := by
  rw [field, encodeForm]
  iterate 8 rw [extractLsb'_append_eq_of_le (by decide)]
  exact extractLsb'_append_eq_right

@[simp] theorem defer_encodeForm : (encodeForm opc f)[95] = f.defer := by
  rw [← getLsbD_eq_getElem, encodeForm]
  iterate 9 rw [getLsbD_append, if_neg (by decide)]
  simp

end

/-! ## The C field (R54, R58): bits 48 to 80, the immediate or the descriptor and its extra modifier bits below IMMC -/

section
variable {opc : BitVec 8} {f : Form}

/-- A part of the C field, IMMC included, is that part of the encoded operand. -/
theorem field_c_encodeForm {i n : Nat} (h : i + n ≤ 33) :
    field (encodeForm opc f) (48 + i) n = (encodeC f.c).extractLsb' i n := by
  rw [field, encodeForm]
  iterate 5 rw [extractLsb'_append_eq_of_le (by omega)]
  rw [extractLsb'_append_eq_of_add_le (by omega)]
  congr 1; omega

theorem immc_encodeForm : (encodeForm opc f)[80] = (encodeC f.c).getLsbD 32 := by
  rw [← getLsbD_eq_getElem, encodeForm]
  iterate 5 rw [getLsbD_append, if_neg (by decide)]
  rw [getLsbD_append, if_pos (by decide)]

theorem immc_of_imm {c : W32} (h : f.c = .imm c) : (encodeForm opc f)[80] = true := by
  rw [immc_encodeForm, h, encodeC, getLsbD_append, if_neg (by decide)]; rfl

theorem field_value_of_imm {c : W32} (h : f.c = .imm c) : field (encodeForm opc f) 48 32 = c := by
  rw [field_c_encodeForm (i := 0) (by decide), h]
  exact extractLsb'_append_eq_right

theorem immc_of_reg {o : Opnd} {x : BitVec 20} (h : f.c = .reg o x) : (encodeForm opc f)[80] = false := by
  rw [immc_encodeForm, h, encodeC, getLsbD_append, if_neg (by decide)]; rfl

theorem field_opnd_of_reg {o : Opnd} {x : BitVec 20} (h : f.c = .reg o x) :
    field (encodeForm opc f) 48 12 = encodeOpnd o := by
  rw [field_c_encodeForm (i := 0) (by decide), h, encodeC, extractLsb'_append_eq_of_add_le (by decide)]
  exact extractLsb'_append_eq_right

theorem field_ext_of_reg {o : Opnd} {x : BitVec 20} (h : f.c = .reg o x) : field (encodeForm opc f) 60 20 = x := by
  rw [field_c_encodeForm (i := 12) (by decide), h, encodeC, extractLsb'_append_eq_of_add_le (by decide)]
  exact extractLsb'_append_eq_left

end

/-! ## Dolmin words (R54, R70 to R72) -/

/-- The fields of an encoded word are those encoded, where every descriptor names an operand. -/
theorem decodeForm_encodeForm (opc : BitVec 8) {f : Form} (hd : f.d.exists_ = true) (ha : f.a.exists_ = true)
    (hb : f.b.exists_ = true) (hc : f.c.opnd.exists_ = true) : decodeForm (encodeForm opc f) = some f := by
  cases e : f.c with
  | imm c =>
    simp [decodeForm, decodeOpnd_encodeOpnd, hd, ha, hb, immc_of_imm e, field_value_of_imm e, ← e]
  | reg o x =>
    have ho : o.exists_ = true := by simpa [e, COp.opnd] using hc
    simp [decodeForm, decodeOpnd_encodeOpnd, hd, ha, hb, ho, immc_of_reg e, field_opnd_of_reg e, field_ext_of_reg e, ← e]

/-- What an entry accepts has a defined MOD value (R64), and its descriptors name operands that exist (R56). -/
theorem modOk_and_exists_of_ok {opc : Nat} {f : Form} (h : f.ok opc = true) : (opSpec opc f.mod).modOk = true ∧
    f.d.exists_ = true ∧ f.a.exists_ = true ∧ f.b.exists_ = true ∧ f.c.opnd.exists_ = true := by
  simp only [Form.ok, Bool.and_eq_true] at h
  obtain ⟨⟨⟨⟨⟨⟨⟨⟨⟨⟨hmod, hd⟩, ha⟩, hb⟩, hc⟩, -⟩, -⟩, -⟩, -⟩, -⟩, -⟩ := h
  exact ⟨hmod, hd, ha, hb, hc⟩

/-- Positions 0x00 and 0x0F of the map are no entry with fields: the header (R69) and UDF (R71). -/
theorem opc_ne_of_ok {opc : Nat} {f : Form} (h : f.ok opc = true) : opc ≠ 0 ∧ opc ≠ 0x0F := by
  obtain ⟨hmod, -⟩ := modOk_and_exists_of_ok h
  constructor
  · rintro rfl
    simp [opSpec] at hmod
  · rintro rfl
    simp [opSpec] at hmod

/-- A word whose fields its entry accepts is the instruction of its opcode. -/
theorem decodeWord_encodeForm {opc : BitVec 8} {f : Form} (h : f.ok opc.toNat = true) :
    decodeWord (encodeForm opc f) = .ok (instrOf opc.toNat f) := by
  obtain ⟨-, hd, ha, hb, hc⟩ := modOk_and_exists_of_ok h
  obtain ⟨notHeader, notUdf⟩ := opc_ne_of_ok h
  simp [decodeWord, notHeader, notUdf, decodeForm_encodeForm opc hd ha hb hc, h]

/-- UDF keeps its guard and its immediate, whatever else its word holds (R71). -/
theorem decodeWord_udf (g : BitVec 4) (c : W32) :
    let f : Form := { udfForm 0 with guard := g, c := .imm c }
    decodeWord (encodeForm 0x0F f) = .ok (.udf f) := by
  intro f
  have value : field (encodeForm 0x0F f) 48 32 = c := field_value_of_imm rfl
  simp only [decodeWord, udfForm, field_opc_encodeForm, field_guard_encodeForm, value]
  rfl

/-! ## Well-formed instructions -/

/-- UDF is well formed when its fields are those that its word keeps. -/
theorem wellFormed_udf {f : Form} (h : (Instr.udf f).wellFormed = true) :
    ∃ g c, f = { udfForm 0 with guard := g, c := .imm c } :=
  ⟨_, _, eq_of_beq h⟩

/-- An instruction with a 96-bit word, UDF apart, is well formed when its entry accepts its fields and its opcode and MOD name it. -/
theorem wellFormed_of_word {i : Instr} {opc : BitVec 8} {f : Form} (hw : i.word? = some (opc, f)) (hu : ∀ g, i ≠ .udf g)
    (h : i.wellFormed = true) : f.ok opc.toNat = true ∧ instrOf opc.toNat f = i := by
  unfold Instr.wellFormed at h
  split at h
  case h_1 => cases hw
  case h_2 => exact absurd rfl (hu _)
  case h_3 => cases hw
  case h_4 => simpa [hw] using h

/-- Every well-formed instruction with a 96-bit word is what the decoder reads from it. -/
theorem decodeWord_of_wellFormed {i : Instr} {opc : BitVec 8} {f : Form} (hi : i.wellFormed = true)
    (hw : i.word? = some (opc, f)) : decodeWord (encodeForm opc f) = .ok i := by
  by_cases hu : ∃ g, i = .udf g
  · obtain ⟨g, rfl⟩ := hu
    cases hw
    obtain ⟨guard, c, rfl⟩ := wellFormed_udf hi
    exact decodeWord_udf guard c
  · obtain ⟨hok, hinstr⟩ := wellFormed_of_word hw (fun g e => hu ⟨g, e⟩) hi
    rw [decodeWord_encodeForm hok, hinstr]

/-! ## Headers (R16, R68) -/

section
variable (h : Header)

theorem field_low_encodeHeader {i n : Nat} (hi : i + n ≤ 12) : field (encodeHeader h) i n = 0 := by
  rw [field, encodeHeader, extractLsb'_append_eq_of_add_le hi]
  exact extractLsb'_zero

@[simp] theorem field_wait_encodeHeader : field (encodeHeader h) 12 12 = h.wait := by
  rw [field, encodeHeader, extractLsb'_append_eq_of_le (by decide)]
  exact extractLsb'_append_eq_right

@[simp] theorem field_flagA_encodeHeader : field (encodeHeader h) 24 4 = h.flagA := by
  rw [field, encodeHeader]
  iterate 2 rw [extractLsb'_append_eq_of_le (by decide)]
  exact extractLsb'_append_eq_right

@[simp] theorem field_flagB_encodeHeader : field (encodeHeader h) 28 4 = h.flagB := by
  rw [field, encodeHeader]
  iterate 3 rw [extractLsb'_append_eq_of_le (by decide)]
  exact extractLsb'_append_eq_right

@[simp] theorem field_len_encodeHeader : field (encodeHeader h) 32 3 = h.len := by
  rw [field, encodeHeader]
  iterate 4 rw [extractLsb'_append_eq_of_le (by decide)]
  exact extractLsb'_append_eq_right

@[simp] theorem field_high_encodeHeader : field (encodeHeader h) 35 61 = 0 := by
  rw [field, encodeHeader]
  iterate 4 rw [extractLsb'_append_eq_of_le (by decide)]
  exact extractLsb'_append_eq_left

end

/-- A header whose flag fields name a flag or none is read from its word. -/
theorem decodeHeader_encodeHeader {h : Header} (hok : h.ok = true) : decodeHeader (encodeHeader h) = .ok h := by
  have opc : field (encodeHeader h) 0 8 = 0 := field_low_encodeHeader h (by decide)
  have guard : field (encodeHeader h) 8 4 = 0 := field_low_encodeHeader h (by decide)
  simp [decodeHeader, opc, guard, hok]

/-! ## The carrel extension (R323) -/

section
variable (f7 : BitVec 7) (rs2 rs1 rd : BitVec 5)

@[simp] theorem opcode_encodeCustom : (encodeCustom f7 rs2 rs1 rd).extractLsb' 0 7 = 0x0B := extractLsb'_append_eq_right

@[simp] theorem rd_encodeCustom : (encodeCustom f7 rs2 rs1 rd).extractLsb' 7 5 = rd := by
  rw [encodeCustom, extractLsb'_append_eq_of_le (by decide)]
  exact extractLsb'_append_eq_right

@[simp] theorem funct3_encodeCustom : (encodeCustom f7 rs2 rs1 rd).extractLsb' 12 3 = 0 := by
  rw [encodeCustom]
  iterate 2 rw [extractLsb'_append_eq_of_le (by decide)]
  exact extractLsb'_append_eq_right

@[simp] theorem rs1_encodeCustom : (encodeCustom f7 rs2 rs1 rd).extractLsb' 15 5 = rs1 := by
  rw [encodeCustom]
  iterate 3 rw [extractLsb'_append_eq_of_le (by decide)]
  exact extractLsb'_append_eq_right

@[simp] theorem rs2_encodeCustom : (encodeCustom f7 rs2 rs1 rd).extractLsb' 20 5 = rs2 := by
  rw [encodeCustom]
  iterate 4 rw [extractLsb'_append_eq_of_le (by decide)]
  exact extractLsb'_append_eq_right

@[simp] theorem funct7_encodeCustom : (encodeCustom f7 rs2 rs1 rd).extractLsb' 25 7 = f7 := by
  rw [encodeCustom]
  iterate 4 rw [extractLsb'_append_eq_of_le (by decide)]
  exact extractLsb'_append_eq_left

end

section
variable (rd rs1 rs2 : BitVec 5)

theorem decodeCarrel_mbxPush : decodeCarrel (encodeCustom 0 0 rs1 0) = .ok (.mbxPush rs1) := by simp [decodeCarrel]
theorem decodeCarrel_mbxPop : decodeCarrel (encodeCustom 1 rs2 rs1 rd) = .ok (.mbxPop rd rs1 rs2) := by simp [decodeCarrel]
theorem decodeCarrel_mbxPeek : decodeCarrel (encodeCustom 2 0 rs1 rd) = .ok (.mbxPeek rd rs1) := by simp [decodeCarrel]
theorem decodeCarrel_stepDone : decodeCarrel (encodeCustom 3 0 rs1 0) = .ok (.stepDone rs1) := by simp [decodeCarrel]
theorem decodeCarrel_arenaSync : decodeCarrel (encodeCustom 4 0 rs1 0) = .ok (.arenaSync rs1) := by simp [decodeCarrel]

end

/-- A word of another major opcode belongs to the base architecture, its length by its lowest two bits. -/
theorem decodeCarrel_base {w : W32} {c : Bool} (h : (Instr.riscvLoadsAndStores w c).wellFormed = true) :
    decodeCarrel w = .ok (.riscvLoadsAndStores w c) := by
  obtain ⟨major, rfl⟩ : w.extractLsb' 0 7 ≠ 0x0B ∧ c = (w.extractLsb' 0 2 != 3) := by
    simpa [Instr.wellFormed] using h
  exact if_pos (bne_iff_ne.mpr major)

/-- The low 32 bits of a word zero-extended to 96. -/
theorem low_setWidth (w : W32) : (w.setWidth 96).extractLsb' 0 32 = w := by
  rw [extractLsb'_setWidth_of_le (by decide), extractLsb'_eq_self]

/-- Every well-formed carrel instruction with a 32-bit word is what the decoder reads from it. -/
theorem decodeCarrel_of_wellFormed {i : Instr} {w : W96} (hi : i.wellFormed = true) (hw : i.word? = none)
    (hh : ∀ h, i ≠ .clause h) (he : encode i = some w) : decodeCarrel (w.extractLsb' 0 32) = .ok i := by
  unfold encode at he
  split at he
  case h_1 h => exact absurd rfl (hh h)
  case h_8 => simp [hw] at he
  all_goals
    cases he
    rw [low_setWidth]
  case h_2 rs1 => exact decodeCarrel_mbxPush rs1
  case h_3 rd rs1 rs2 => exact decodeCarrel_mbxPop rd rs1 rs2
  case h_4 rd rs1 => exact decodeCarrel_mbxPeek rd rs1
  case h_5 rs1 => exact decodeCarrel_stepDone rs1
  case h_6 rs1 => exact decodeCarrel_arenaSync rs1
  case h_7 => exact decodeCarrel_base hi

/-! ## The statements -/

/-- Settles O58: every field stands where the decoder looks for it, and a well-formed instruction's opcode and MOD name it. -/
theorem decodeOfEncode : Obligations.DecodeOfEncode := by
  unfold Obligations.DecodeOfEncode
  exact ⟨fun _ => decodeHeader_encodeHeader, fun _ _ _ hi _ hw => decodeWord_of_wellFormed hi hw,
    fun _ _ => decodeCarrel_of_wellFormed⟩

/-- The word of a well-formed instruction decodes to it. -/
theorem decodeWord_of_encodes {i : Instr} {opc : BitVec 8} {f : Form} {w : W96} (hw : i.word? = some (opc, f))
    (he : encodeForm opc f = w) (hi : i.wellFormed = true) : decodeWord w = .ok i :=
  he ▸ decodeWord_of_wellFormed hi hw

/-- Settles O57: each word is the encoding of the fields of its instruction, so that it decodes to it. -/
theorem decodedWords : Obligations.DecodedWords := by
  unfold Obligations.DecodedWords
  dsimp only
  refine ⟨decodeHeader_encodeHeader (h := ⟨1, 2, 15, 2⟩) rfl, ?_⟩
  iterate 15 refine ⟨decodeWord_of_encodes rfl (by decide) (by decide), ?_⟩
  exact ⟨decodeCarrel_mbxPop 10 11 0, decodeCarrel_stepDone 11⟩

end Sys2Proof.Codec

/-! PROOFS. The words of the integer, logic, compare and move families act lane by lane (R83 to R96): each gives its lanes the
results that the spec names, once the model's arithmetic is written as the statements write it. -/

namespace Sys2Proof.LaneResults

open Sys2Proof.Machine Sys2Proof.Safety Sys2Proof.Laws

/-! ## Words that compute -/

/-- The opcodes of integers, logic, compares and moves (R70): rows 1 to 4, IADD3, ISCADD, BMSK, BFIND and DSETP. -/
def computing (opc : Nat) : Bool :=
  decide (0x10 ≤ opc ∧ opc < 0x50) || decide (0xE8 ≤ opc ∧ opc < 0xEC) || opc == 0xF9

theorem computing_iff {opc : Nat} : computing opc = true ↔ (0x10 ≤ opc ∧ opc < 0x50) ∨ (0xE8 ≤ opc ∧ opc < 0xEC) ∨ opc = 0xF9 := by
  simp [computing, or_assoc]

/-- Each of them names a destination, but VTOP, whose results are predicates. -/
theorem computing_names_dest {opc : Nat} (h : computing opc = true) (m : BitVec 9) :
    (opSpec opc m).d ≠ .none ∨ opc = 0xDE ∨ opc = 0x4B := by
  obtain h | h | rfl := computing_iff.mp h
  · by_cases v : opc = 0x4B
    · exact .inr (.inr v)
    · left
      have row : opc / 16 = 1 ∨ opc / 16 = 2 ∨ opc / 16 = 3 ∨ opc / 16 = 4 := by omega
      have col : opc / 16 = 4 → opc % 16 ≠ 11 := by omega
      obtain r | r | r | r := row
      · simp only [opSpec, r]; split <;> simp
      · simp only [opSpec, r]; split <;> simp
      · simp only [opSpec, r]; split <;> simp
      · have := col r
        -- SEL, MOV and MOVI choose the width of their destination by TYPE
        simp only [opSpec, r]; split <;> simp_all <;> split <;> simp
  · left
    have : opc / 16 = 14 ∧ (opc % 16 = 8 ∨ opc % 16 = 9 ∨ opc % 16 = 10 ∨ opc % 16 = 11) := by omega
    obtain ⟨r, c⟩ := this
    unfold opSpec
    obtain c | c | c | c := c <;> simp [r, c]
  · exact .inl (by simp [opSpec])

theorem computing_no_access {opc : Nat} (h : computing opc = true) : mayReject opc = false := by
  have range := computing_iff.mp h
  simp only [mayReject, List.contains_cons, List.contains_nil, Bool.or_eq_false_iff, beq_eq_false_iff_ne,
    Bool.and_eq_false_iff, decide_eq_false_iff_not, and_true]
  omega

theorem computing_writes_now {opc : Nat} (h : computing opc = true) : writesLater opc = false := by
  have range := computing_iff.mp h
  simp only [writesLater, List.contains_cons, List.contains_nil, Bool.or_eq_false_iff, beq_eq_false_iff_ne, and_true]
  omega

/-- A computing word gives any results that are the model's, written in another way. -/
theorem gives_of_results {i : Instr} {opc : Nat} {f : Form} {ws vs : Env → LaneAt → List Wr}
    (hi : ∀ s, exec i s = laneWord opc f s ws) (hc : computing opc = true) (h : ∀ e l, ws e l = vs e l) : Gives i opc f vs := by
  obtain rfl : ws = vs := funext fun e => funext (h e)
  exact gives_of_laneWord hi (computing_names_dest hc f.mod) (computing_writes_now hc) (computing_no_access hc)

/-- A computing word of one 32-bit result. -/
theorem gives_word {i : Instr} {opc : Nat} {f : Form} {x y : Env → LaneAt → W32}
    (hi : ∀ s, exec i s = laneWord opc f s (word f x)) (hc : computing opc = true) (h : ∀ e l, x e l = y e l) :
    Gives i opc f (word f y) :=
  gives_of_results hi hc fun e l => by simp only [h, word]

/-- A computing word of one 64-bit result. -/
theorem gives_long {i : Instr} {opc : Nat} {f : Form} {x y : Env → LaneAt → W64}
    (hi : ∀ s, exec i s = laneWord opc f s (long f x)) (hc : computing opc = true) (h : ∀ e l, x e l = y e l) :
    Gives i opc f (long f y) :=
  gives_of_results hi hc fun e l => by simp only [h, long]

/-- A computing word of one predicate. -/
theorem gives_pred {i : Instr} {opc : Nat} {f : Form} {x y : Env → LaneAt → Bool}
    (hi : ∀ s, exec i s = laneWord opc f s (pred f x)) (hc : computing opc = true) (h : ∀ e l, x e l = y e l) :
    Gives i opc f (pred f y) :=
  gives_of_results hi hc fun e l => by simp only [h, pred]

/-! ## 32-bit arithmetic (R84) -/

/-- The 32-bit type of a word is signed, unless TYPE says otherwise. -/
def signedWord (f : Form) : Bool := !(MOD.type f.mod == 6)

theorem ty32_signed (f : Form) : ty32 f = ⟨32, signedWord f⟩ := ty32_eq f

theorem gives_intTwo {i : Instr} {opc : Nat} {f : Form} {op : Int → Int → Int} (hi : ∀ s, exec i s = intTwo opc f s op)
    (hc : computing opc = true) : Gives i opc f (word f fun e l => fitted 32 (signedWord f) (MOD.sat f.mod)
      (op (num (signedWord f) (e.src l f.a .int)) (num (signedWord f) (e.b l f .int)))) :=
  gives_word hi hc fun e l => by simp only [ty32_signed, fit32_eq, ext_eq]

theorem gives_intThree {i : Instr} {opc : Nat} {f : Form} {op : Int → Int → Int → Int}
    (hi : ∀ s, exec i s = intThree opc f s op) (hc : computing opc = true) :
    Gives i opc f (word f fun e l => fitted 32 (signedWord f) (MOD.sat f.mod)
      (op (num (signedWord f) (e.src l f.a .int)) (num (signedWord f) (e.src l f.b .int))
        (num (signedWord f) (e.c l f .int)))) :=
  gives_word hi hc fun e l => by simp only [ty32_signed, fit32_eq, ext_eq]

theorem gives_intOne {i : Instr} {opc : Nat} {f : Form} {op : Int → Int} (hi : ∀ s, exec i s = intOne opc f s op)
    (hc : computing opc = true) :
    Gives i opc f (word f fun e l => fitted 32 true (MOD.sat f.mod) (op (e.src l f.a .int).toInt)) :=
  gives_word hi hc fun e l => by simp only [s32, fit32_eq, ext_eq, num_signed]

/-- IMULH (R84). -/
theorem gives_imulh (f : Form) : Gives (.imulh f) 0x13 f (word f fun e l =>
    fitted 32 (signedWord f) (MOD.sat f.mod)
      (num (signedWord f) (e.src l f.a .int) * num (signedWord f) (e.b l f .int) / 2 ^ 32)) := by
  have := gives_intTwo (i := .imulh f) (f := f) (op := mulHigh) (fun _ => rfl) rfl
  simpa only [mulHigh, Nat.cast_pow, Nat.cast_ofNat] using this

/-- IMADW (R84): the addend and the result have 64 bits. -/
theorem gives_imadw (f : Form) : Gives (.imadw f) 0x15 f (long f fun e l =>
    fitted 64 (signedWord f) (MOD.sat f.mod)
      (num (signedWord f) (e.src l f.a .int) * num (signedWord f) (e.src l f.b .int) +
        num (signedWord f) (e.c64 l f (if MOD.type f.mod == 6 then .n64 else .int)))) :=
  gives_of_results (fun _ => rfl) rfl fun e l => by
    have addend : (if (signedWord f) = true then ImmT.int else .n64) = if MOD.type f.mod == 6 then .n64 else .int := by
      unfold signedWord
      cases MOD.type f.mod == 6 <;> rfl
    simp only [ty32_signed, fit64_eq, ext_eq, long, addend]

/-- ISCADD (R84): the shift is the low five bits of c, of either type. -/
theorem gives_iscadd (f : Form) : Gives (.iscadd f) 0xE9 f (word f fun e l =>
    fitted 32 (signedWord f) (MOD.sat f.mod)
      (num (signedWord f) (e.src l f.a .int) * 2 ^ ((e.c l f .int).toNat % 32) +
        num (signedWord f) (e.src l f.b .int))) := by
  have := gives_intThree (i := .iscadd f) (f := f) (op := fun a b c => a * (2 ^ (c % 32).toNat : Nat) + b) (fun _ => rfl) rfl
  simpa only [num_low, Nat.cast_pow, Nat.cast_ofNat] using this

/-- IDOT4 (R84): the bytes of a and b are numbers of the type. -/
theorem gives_idot4 (f : Form) : Gives (.idot4 f) 0x1F f (word f fun e l =>
    let sg := MOD.type f.mod == 0
    let p (k : Nat) := num sg ((e.src l f.a .bytes).extractLsb' (8 * k) 8) * num sg ((e.src l f.b .bytes).extractLsb' (8 * k) 8)
    fitted 32 sg (MOD.sat f.mod) (num sg (e.c l f .int) + (p 0 + p 1 + p 2 + p 3))) :=
  gives_word (fun _ => rfl) rfl fun e l => by simp only [byteAs, fit32_eq, ext_eq]

/-- Settles O1: the words with two, three and one operand, and the four whose operands are of their own kinds. -/
theorem integerArithmetic : Obligations.IntegerArithmetic := by
  unfold Obligations.IntegerArithmetic
  intro f
  exact ⟨gives_intTwo (op := (· + ·)) (fun _ => rfl) rfl, gives_intTwo (op := (· - ·)) (fun _ => rfl) rfl,
    gives_intTwo (op := (· * ·)) (fun _ => rfl) rfl, gives_imulh f,
    gives_intThree (op := fun a b c => a * b + c) (fun _ => rfl) rfl, gives_imadw f,
    gives_intTwo (op := min) (fun _ => rfl) rfl, gives_intTwo (op := max) (fun _ => rfl) rfl,
    gives_intOne (op := fun a => |a|) (fun _ => rfl) rfl, gives_intOne (op := fun a => -a) (fun _ => rfl) rfl,
    gives_intThree (op := fun a b c => |a - b| + c) (fun _ => rfl) rfl,
    gives_intThree (op := fun a b c => a + b + c) (fun _ => rfl) rfl, gives_iscadd f, gives_idot4 f⟩

/-! ## Division (R85) -/

/-- Reading bits as a number and taking the low bits of it gives them back. -/
theorem ofInt_num {w : Nat} (sg : Bool) (x : BitVec w) : BitVec.ofInt w (num sg x) = x := by
  cases sg
  · rw [num_plain, BitVec.ofInt_natCast, BitVec.ofNat_toNat, BitVec.setWidth_eq]
  · rw [num_signed, BitVec.ofInt_toInt]

theorem divide_eq (w : Nat) (sg sat : Bool) (a b : Int) :
    BitVec.ofNat w (divide a b ⟨w, sg⟩ sat) = if b = 0 then -1 else fitted w sg sat (a.tdiv b) := by
  unfold divide
  by_cases h : b = 0
  · have ones : (-1 : BitVec w) = BitVec.allOnes w := BitVec.neg_one_eq_allOnes
    rw [h, if_pos rfl, if_pos (beq_self_eq_true _), ones]
    apply BitVec.eq_of_toNat_eq
    rw [BitVec.toNat_ofNat, BitVec.toNat_allOnes, Nat.mod_eq_of_lt (Nat.sub_lt (Nat.two_pow_pos w) Nat.one_pos)]
  · simp [h, fit_eq]

theorem remainder_eq {w : Nat} (sg : Bool) (x : BitVec w) (b : Int) :
    BitVec.ofNat w (remainder (num sg x) b ⟨w, sg⟩) =
      if b = 0 then x else BitVec.ofInt w (num sg x - b * (num sg x).tdiv b) := by
  unfold remainder
  by_cases h : b = 0
  · simp [h, fit_eq, fitted_low, ofInt_num]
  · simp [h, fit_eq, fitted_low]

theorem imm64_eq (f : Form) : imm64 f = if MOD.type f.mod == 8 then .n64 else .int := rfl

/-- Settles O2: the model's quotient and remainder are those of the statement at both widths. -/
theorem division : Obligations.Division := by
  unfold Obligations.Division
  intro f
  refine ⟨gives_word (fun _ => rfl) rfl fun e l => ?_, gives_word (fun _ => rfl) rfl fun e l => ?_,
    gives_long (fun _ => rfl) rfl fun e l => ?_, gives_long (fun _ => rfl) rfl fun e l => ?_⟩
  · simp only [ty32_eq, ext_eq, divide_eq]
  · simp only [ty32_eq, ext_eq, remainder_eq]
  · simp only [ty64_eq, ext_eq, divide_eq, imm64_eq]
  · simp only [ty64_eq, ext_eq, remainder_eq, imm64_eq]

/-! ## Carries (R86) -/

theorem addCarry_eq (a b : W32) (c : Bool) :
    addCarry a b c = (BitVec.ofInt 32 (a.toNat + b.toNat + c.toNat), decide ((2 : Int) ^ 32 ≤ a.toNat + b.toNat + c.toNat)) := by
  have sum : (a.toNat + b.toNat + c.toNat : Int) = (a.toNat + b.toNat + c.toNat : Nat) := by push_cast; rfl
  rw [sum, BitVec.ofInt_natCast]
  unfold addCarry
  norm_cast

/-- The MOD values that IADDC and ISUBB take: the carry destination needs CO, and the bits above it are reserved. -/
theorem carry_mod_of_ok {opc : Nat} {f : Form} (ho : opc = 0x1C ∨ opc = 0x1D) (h : f.ok opc = true) :
    (f.mod.getLsbD 3 = false → f.mod.extractLsb' 0 3 = 0) ∧ f.mod.extractLsb' 4 5 = 0 := by
  have hm : MOD.below 4 f.mod = true ∧ (f.mod.getLsbD 3 = true ∨ f.mod = 0) := by
    obtain rfl | rfl := ho <;> simp_all [Form.ok, opSpec]
  obtain ⟨low, co⟩ := hm
  refine ⟨fun no => ?_, ?_⟩
  · obtain co | co := co
    · rw [no] at co; contradiction
    · rw [co]; rfl
  · have : f.mod.toNat < 16 := by simpa [ MOD.below] using low
    apply BitVec.eq_of_toNat_eq
    rw [BitVec.extractLsb'_toNat, Nat.shiftRight_eq_div_pow, Nat.div_eq_of_lt this]; rfl

/-- Settles O3: sums and carries as integers, and the check of MOD in well-formed words. -/
theorem carryAndBorrow : Obligations.CarryAndBorrow := by
  unfold Obligations.CarryAndBorrow
  intro f
  refine ⟨gives_of_results (fun _ => rfl) rfl fun e l => by simp only [addCarry_eq, carryOut],
    gives_of_results (fun _ => rfl) rfl fun e l => by simp only [subBorrow, carryOut], fun i hi hw => ?_, fun e l h => by rw [h]; rfl⟩
  obtain rfl | rfl : i = .iaddc f ∨ i = .isubb f := by simpa using hi
  · have word : (Instr.iaddc f).word? = some (0x1C, f) := rfl
    exact carry_mod_of_ok (.inl rfl) (Codec.wellFormed_of_word word (by simp) hw).1
  · have word : (Instr.isubb f).word? = some (0x1D, f) := rfl
    exact carry_mod_of_ok (.inr rfl) (Codec.wellFormed_of_word word (by simp) hw).1

/-! ## 64-bit arithmetic (R87) -/

/-- The 64-bit type of a word is signed, unless TYPE says otherwise. -/
def signedLong (f : Form) : Bool := !(MOD.type f.mod == 8)

theorem ty64_signed (f : Form) : ty64 f = ⟨64, signedLong f⟩ := ty64_eq f

theorem gives_longTwo {i : Instr} {opc : Nat} {f : Form} {op : Int → Int → Int} (hi : ∀ s, exec i s = longTwo opc f s op)
    (hc : computing opc = true) : Gives i opc f (long f fun e l => fitted 64 (signedLong f) (MOD.sat f.mod)
      (op (num (signedLong f) (e.src64 l f.a (imm64 f))) (num (signedLong f) (e.b64 l f (imm64 f))))) :=
  gives_long hi hc fun e l => by simp only [ty64_signed, fit64_eq, ext_eq]

theorem gives_longBits {i : Instr} {opc : Nat} {f : Form} {op : W64 → W64 → W64} (hi : ∀ s, exec i s = longBits opc f s op)
    (hc : computing opc = true) : Gives i opc f (long f fun e l => op (e.src64 l f.a .int) (e.b64 l f .int)) :=
  gives_long hi hc fun _ _ => rfl

/-- LMAD (R87). -/
theorem gives_lmad (f : Form) : Gives (.lmad f) 0x23 f (long f fun e l => fitted 64 (signedLong f) (MOD.sat f.mod)
    (num (signedLong f) (e.src64 l f.a (imm64 f)) * num (signedLong f) (e.src64 l f.b (imm64 f)) +
      num (signedLong f) (e.c64 l f (imm64 f)))) :=
  gives_long (fun _ => rfl) rfl fun e l => by simp only [ty64_signed, fit64_eq, ext_eq]

/-- LEA (R87): b is a number of the 32-bit type. -/
theorem gives_lea (f : Form) : Gives (.lea f) 0x2C f (long f fun e l => BitVec.ofInt 64
    ((e.src64 l f.a .int).toNat + num (MOD.type f.mod != 6) (e.src l f.b .int) * 2 ^ ((e.c l f .int).toNat % 64))) :=
  gives_long (fun _ => rfl) rfl fun e l => by simp only [ty32_eq, ext_eq, Nat.cast_pow, Nat.cast_ofNat, bne]

/-! ## Shifts (R88) -/

theorem shiftLeft_eq {w : Nat} (x : BitVec w) (n : Nat) : x <<< n = BitVec.ofNat w (x.toNat * 2 ^ n) := by
  apply BitVec.eq_of_toNat_eq
  rw [BitVec.toNat_shiftLeft, BitVec.toNat_ofNat, Nat.shiftLeft_eq]

theorem shiftRight_eq {w : Nat} (x : BitVec w) (n : Nat) : x >>> n = BitVec.ofNat w (x.toNat / 2 ^ n) := by
  apply BitVec.eq_of_toNat_eq
  rw [BitVec.toNat_ushiftRight, BitVec.toNat_ofNat, Nat.shiftRight_eq_div_pow,
    Nat.mod_eq_of_lt ((Nat.div_le_self ..).trans_lt x.isLt)]

/-- An arithmetic shift by all the bits and more leaves the sign. -/
theorem sshiftRight_min {w : Nat} (x : BitVec (w + 1)) (n : Nat) :
    x.sshiftRight (min w n) =
      if n ≥ w + 1 then (if x.getLsbD w then -1 else 0) else BitVec.ofInt (w + 1) (x.toInt / 2 ^ n) := by
  split
  · rename_i h
    rw [Nat.min_eq_left (by omega)]
    apply BitVec.eq_of_getLsbD_eq
    intro i hi
    have sign : (x.sshiftRight w).getLsbD i = x.getLsbD w := by
      rw [BitVec.getLsbD_sshiftRight, decide_eq_false (by omega)]
      split
      · obtain rfl : i = 0 := by omega
        simp
      · simp [BitVec.msb_eq_getLsbD_last]
    rw [sign]
    cases x.getLsbD w <;> simp [BitVec.neg_one_eq_allOnes, hi]
  · rename_i h
    rw [Nat.min_eq_right (by omega), BitVec.sshiftRight, Int.shiftRight_eq_div_pow, Nat.cast_pow, Nat.cast_ofNat]

/-- Settles O4: the words of two numbers and of two bit patterns, LMAD, LEA, LNEG, and the shifts. -/
theorem longArithmetic : Obligations.LongArithmetic := by
  unfold Obligations.LongArithmetic
  intro f
  refine ⟨gives_longTwo (op := (· + ·)) (fun _ => rfl) rfl, gives_longTwo (op := (· - ·)) (fun _ => rfl) rfl,
    gives_longTwo (op := (· * ·)) (fun _ => rfl) rfl, gives_lmad f, ?lshl, ?lshr, ?lsar,
    gives_longTwo (op := min) (fun _ => rfl) rfl, gives_longTwo (op := max) (fun _ => rfl) rfl,
    gives_longBits (op := (· &&& ·)) (fun _ => rfl) rfl, gives_longBits (op := (· ||| ·)) (fun _ => rfl) rfl,
    gives_longBits (op := (· ^^^ ·)) (fun _ => rfl) rfl, gives_lea f, ?lneg⟩
  case lshl => exact gives_long (fun _ => rfl) rfl fun e l => by simp only [shiftCount, shiftLeft_eq]
  case lshr => exact gives_long (fun _ => rfl) rfl fun e l => by simp only [shiftCount, shiftRight_eq]
  case lsar => exact gives_long (fun _ => rfl) rfl fun e l => by simp only [shiftCount, sshiftRight_min (w := 63)]
  case lneg => exact gives_long (fun _ => rfl) rfl fun e l => by simp only [s64, fit64_eq, ext_eq, num_signed]

end Sys2Proof.LaneResults

/-! PROOFS. Logic, shifts, counts and bit fields (R88 to R90). -/

namespace Sys2Proof.LaneResults

open Sys2Proof.Machine Sys2Proof.Safety Sys2Proof.Laws

/-! ## Logic (R88, R89) -/

/-- Two words side by side, as a number. -/
theorem toNat_append_eq {n m : Nat} (x : BitVec n) (y : BitVec m) : (x ++ y).toNat = x.toNat * 2 ^ m + y.toNat := by
  rw [BitVec.toNat_append, ← Nat.shiftLeft_add_eq_or_of_lt y.isLt, Nat.shiftLeft_eq]

/-- A run of bits of a word, as a number. -/
theorem extractLsb'_eq {w : Nat} (x : BitVec w) (i n : Nat) : x.extractLsb' i n = BitVec.ofNat n (x.toNat / 2 ^ i) := by
  apply BitVec.eq_of_toNat_eq
  rw [BitVec.extractLsb'_toNat, BitVec.toNat_ofNat, Nat.shiftRight_eq_div_pow]

/-- LOP3 (R89): a bit of the table for the three bits at each place. -/
theorem lop3_eq (f : Form) (a b c : W32) : (ofBits fun i => lutBit f (a.getLsbD i) (b.getLsbD i) (c.getLsbD i)) =
    BitVec.ofFnLE fun i : Fin 32 =>
      f.mod.getLsbD ((a.getLsbD i).toNat + 2 * (b.getLsbD i).toNat + 4 * (c.getLsbD i).toNat) := ofBits_eq _

/-- FUNSH (R88): the high word of the pair shifted to the left, or the low word of the pair shifted to the right. -/
theorem funsh_eq (a b c : W32) (left : Bool) :
    (if left then ((b ++ a : W64) <<< (c.toNat % 32)).extractLsb' 32 32 else ((b ++ a : W64) >>> (c.toNat % 32)).extractLsb' 0 32) =
      BitVec.ofNat 32 (if left then (b.toNat * 2 ^ 32 + a.toNat) * 2 ^ (c.toNat % 32) / 2 ^ 32
        else (b.toNat * 2 ^ 32 + a.toNat) / 2 ^ (c.toNat % 32)) := by
  cases left
  · simp only [Bool.false_eq_true, if_false]
    rw [extractLsb'_eq, BitVec.toNat_ushiftRight, toNat_append_eq, Nat.shiftRight_eq_div_pow, pow_zero, Nat.div_one]
  · simp only [if_true]
    apply BitVec.eq_of_toNat_eq
    rw [extractLsb'_eq, BitVec.toNat_shiftLeft, toNat_append_eq, Nat.shiftLeft_eq, BitVec.toNat_ofNat, BitVec.toNat_ofNat,
      show (2 : Nat) ^ (32 + 32) = 2 ^ 32 * 2 ^ 32 from rfl, Nat.mod_mul_right_div_self, Nat.mod_mod]

theorem countBits_eq (x : W32) : countBits x = (List.range 32).countP x.getLsbD := List.countP_eq_length_filter.symm

theorem clz_eq (x : W32) : (match topBit x with | some i => BitVec.ofNat 32 (31 - i) | none => 32) =
    if x = 0 then 32 else BitVec.ofNat 32 (31 - Nat.log2 x.toNat) := by
  rw [topBit_eq]
  by_cases h : x = 0
  · rw [if_pos h, if_pos h]
  · rw [if_neg h, if_neg h]

theorem brev_eq (x : W32) : ofBits (fun i => x.getLsbD (31 - i)) = x.reverse := by
  apply BitVec.eq_of_getLsbD_eq
  intro i hi
  rw [ofBits_bit, BitVec.getLsbD_reverse, BitVec.getMsbD]

/-! ## Bit fields (R90) -/

theorem field_bit (a : W32) (pos w i : Nat) :
    (BitVec.ofNat w (a.toNat / 2 ^ pos)).getLsbD i = (decide (i < w) && a.getLsbD (pos + i)) := by
  rw [BitVec.getLsbD_ofNat, Nat.testBit_div_two_pow, BitVec.getLsbD, Nat.add_comm]

/-- The bits of a field, extended by its sign or by zeros. -/
theorem field_extended (a : W32) (signed : Bool) {pos top : Nat} (h : pos < top) :
    ofBits (fun i => if pos + i < top then a.getLsbD (pos + i) else signed && a.getLsbD (top - 1)) =
      if signed then (BitVec.ofNat (top - pos) (a.toNat / 2 ^ pos)).signExtend 32
      else (BitVec.ofNat (top - pos) (a.toNat / 2 ^ pos)).zeroExtend 32 := by
  apply BitVec.eq_of_getLsbD_eq
  intro i hi
  have inside : pos + i < top ↔ i < top - pos := by omega
  rw [ofBits_bit]
  cases signed
  · simp only [Bool.false_eq_true, if_false, Bool.false_and, BitVec.zeroExtend, BitVec.getLsbD_setWidth, field_bit, inside]
    by_cases hi' : i < top - pos <;> simp [hi']
  · have last : pos + (top - pos - 1) = top - 1 := by omega
    have lt : top - pos - 1 < top - pos := by omega
    simp only [if_true, Bool.true_and, BitVec.getLsbD_signExtend, BitVec.msb_eq_getLsbD_last, field_bit, inside, last, lt, decide_true]
    by_cases hi' : i < top - pos <;> simp [hi']

theorem bfe_eq (f : Form) (a b : W32) :
    (let pos := b.toNat % 256
     let top := min (pos + b.toNat / 256 % 256) 32
     if top ≤ pos then 0
     else
       let signed := MOD.type f.mod == 5
       ofBits fun i => if pos + i < top then a.getLsbD (pos + i) else signed && a.getLsbD (top - 1)) =
    (let pos := b.toNat % 256
     let w := min (b.toNat % 256 + b.toNat / 256 % 256) 32 - pos
     let field := BitVec.ofNat w (a.toNat / 2 ^ pos)
     if w = 0 then 0 else if MOD.type f.mod = 5 then field.signExtend 32 else field.zeroExtend 32) := by
  dsimp only
  split
  · rename_i h
    rw [if_pos (Nat.sub_eq_zero_of_le h)]
  · rename_i h
    rw [if_neg fun e => h (Nat.sub_eq_zero_iff_le.mp e), field_extended a _ (Nat.lt_of_not_le h)]
    simp only [beq_iff_eq]

theorem bfi_eq (a b c : W32) :
    (let pos := c.toNat % 256
     let top := min (pos + c.toNat / 256 % 256) 32
     ofBits fun i => if pos ≤ i && i < top then a.getLsbD (i - pos) else b.getLsbD i) =
    BitVec.ofFnLE fun i : Fin 32 => if c.toNat % 256 ≤ i.val ∧ i.val < min (c.toNat % 256 + c.toNat / 256 % 256) 32 then
      a.toNat.testBit (i - c.toNat % 256) else b.getLsbD i := by
  simp only [ofBits_eq, Bool.and_eq_true, decide_eq_true_eq, BitVec.getLsbD]

theorem bmsk_eq (a b : W32) : (ofBits fun i => decide (a.toNat % 256 ≤ i) && decide (i < a.toNat % 256 + b.toNat % 256)) =
    BitVec.ofFnLE fun i : Fin 32 => decide (a.toNat % 256 ≤ i.val ∧ i.val < a.toNat % 256 + b.toNat % 256) := by
  simp only [ofBits_eq, Bool.decide_and]

theorem bfind_eq (f : Form) (x : W32) :
    (match topBit (if MOD.type f.mod == 5 && x.getLsbD 31 then ~~~x else x) with
      | some i => BitVec.ofNat 32 i
      | none => 0xFFFFFFFF) =
    (let y := if MOD.type f.mod = 5 ∧ x.getLsbD 31 then ~~~x else x
     if y = 0 then 0xFFFFFFFF else BitVec.ofNat 32 (Nat.log2 y.toNat)) := by
  simp only [Bool.and_eq_true, beq_iff_eq]
  generalize (if MOD.type f.mod = 5 ∧ x.getLsbD 31 = true then ~~~x else x) = y
  rw [topBit_eq]
  by_cases h : y = 0
  · rw [if_pos h, if_pos h]
  · rw [if_neg h, if_neg h]

/-! ## The statement -/

/-- SHL, SHR and SAR (R88): the count under .wrap, and counts of 32 and more. -/
theorem gives_shl (f : Form) : Gives (.shl f) 0x36 f (word f fun e l =>
    let k := if f.mod.getLsbD 0 then (e.b l f .int).toNat % 32 else (e.b l f .int).toNat
    if k ≥ 32 then 0 else BitVec.ofNat 32 ((e.src l f.a .int).toNat * 2 ^ k)) :=
  gives_word (fun _ => rfl) rfl fun e l => by simp only [shiftCount, shiftLeft_eq]

theorem gives_shr (f : Form) : Gives (.shr f) 0x37 f (word f fun e l =>
    let k := if f.mod.getLsbD 0 then (e.b l f .int).toNat % 32 else (e.b l f .int).toNat
    if k ≥ 32 then 0 else BitVec.ofNat 32 ((e.src l f.a .int).toNat / 2 ^ k)) :=
  gives_word (fun _ => rfl) rfl fun e l => by simp only [shiftCount, shiftRight_eq]

theorem gives_sar (f : Form) : Gives (.sar f) 0x38 f (word f fun e l =>
    let k := if f.mod.getLsbD 0 then (e.b l f .int).toNat % 32 else (e.b l f .int).toNat
    if k ≥ 32 then (if (e.src l f.a .int).getLsbD 31 then -1 else 0)
    else BitVec.ofInt 32 ((e.src l f.a .int).toInt / 2 ^ k)) :=
  gives_word (fun _ => rfl) rfl fun e l => by simp only [shiftCount, sshiftRight_min (w := 31)]

/-- Settles O5: the words of one, two and three operands, each by what it makes of the operands' bits. -/
theorem logic : Obligations.Logic := by
  unfold Obligations.Logic
  refine ⟨fun f => ?_, fun f => ?_⟩
  · exact ⟨gives_word (fun _ => rfl) rfl fun _ _ => rfl, gives_word (fun _ => rfl) rfl fun _ _ => rfl,
      gives_word (fun _ => rfl) rfl fun _ _ => rfl, gives_word (fun _ => rfl) rfl fun _ _ => rfl,
      gives_word (fun _ => rfl) rfl fun _ _ => rfl, gives_word (fun _ => rfl) rfl fun _ _ => lop3_eq f ..,
      gives_shl f, gives_shr f, gives_sar f, gives_word (fun _ => rfl) rfl fun _ _ => rfl,
      gives_word (fun _ => rfl) rfl fun _ _ => funsh_eq .., gives_word (fun _ => rfl) rfl fun _ _ => congrArg _ (countBits_eq _),
      gives_word (fun _ => rfl) rfl fun _ _ => clz_eq _, gives_word (fun _ => rfl) rfl fun _ _ => brev_eq _⟩
  · exact ⟨gives_word (fun _ => rfl) rfl fun _ _ => bfe_eq f .., gives_word (fun _ => rfl) rfl fun _ _ => bfi_eq ..,
      gives_word (fun _ => rfl) rfl fun _ _ => bmsk_eq .., gives_word (fun _ => rfl) rfl fun _ _ => bfind_eq f _⟩

end Sys2Proof.LaneResults

/-! PROOFS. The compares and the predicate function (R89, R91, R92, R114). -/

namespace Sys2Proof.LaneResults

open Sys2Proof.Machine Sys2Proof.Safety Sys2Proof.Laws

/-! ## Compares -/

/-- How an outcome joins with c (R91). -/
theorem combine_eq (bop : Nat) (r c : Bool) :
    combine bop r c = if bop = 0 then r else if bop = 1 then r && c else if bop = 2 then r || c else r ^^ c := by
  unfold combine
  split
  · rfl
  · rfl
  · rfl
  · rename_i h0 h1 h2
    rw [if_neg h0, if_neg h1, if_neg h2]

/-- The six relations of integers (R91). -/
theorem cmpInt_eq (k : Nat) (x y : Int) : cmpInt k x y = match k with
    | 0 => decide (x = y) | 1 => decide (x ≠ y) | 2 => decide (x < y) | 3 => decide (x ≤ y) | 4 => decide (x > y)
    | _ => decide (x ≥ y) :=
  match k with
  | 1 => (decide_not (p := x = y)).symm
  | 0 | 2 | 3 | 4 | _ + 5 => rfl

/-- The fourteen relations of floats (R92): a NaN is unordered. -/
theorem cmpFloat_eq (k : Nat) (x y : Val) : cmpFloat k x y =
    let un := x.isNan || y.isNan
    match k with
    | 0 => !un && x.eq y | 1 => !un && !x.eq y | 2 => !un && x.lt y | 3 => !un && (x.lt y || x.eq y)
    | 4 => !un && y.lt x | 5 => !un && (y.lt x || x.eq y) | 6 => !un | 7 => un
    | 8 => un || x.eq y | 9 => un || !x.eq y | 10 => un || x.lt y | 11 => un || x.lt y || x.eq y
    | 12 => un || y.lt x | _ => un || y.lt x || x.eq y := by
  unfold cmpFloat
  dsimp only
  generalize (x.isNan || y.isNan) = un
  generalize x.lt y = lt
  generalize y.lt x = gt
  generalize x.eq y = eq
  split <;> cases un <;> simp

/-- Settles O6: the relation of the operands, and how it joins with c. -/
theorem compares : Obligations.Compares := by
  unfold Obligations.Compares
  intro f
  refine ⟨gives_pred (fun _ => rfl) rfl fun e l => ?_, gives_pred (fun _ => rfl) rfl fun e l => ?_,
    gives_pred (fun _ => rfl) rfl fun e l => ?_, gives_pred (fun _ => rfl) rfl fun e l => ?_,
    gives_pred (fun _ => rfl) rfl fun _ _ => rfl⟩
  · rw [combine_eq, cmpInt_eq, ext_eq, ext_eq]; rfl
  · rw [combine_eq, cmpInt_eq, ext_eq, ext_eq]; rfl
  · rw [combine_eq, cmpFloat_eq]; rfl
  · rw [combine_eq, cmpFloat_eq]; rfl

end Sys2Proof.LaneResults

/-! PROOFS. Moves and selects (R93), predicates as words (R94), BCAST (R95) and the clock (R96). -/

namespace Sys2Proof.LaneResults

open Sys2Proof.Machine Sys2Proof.Safety Sys2Proof.Laws

/-! ## Moves by type (R93) -/

/-- The 64-bit types of a move. -/
theorem wide_iff (f : Form) : wide f = true ↔ MOD.type f.mod = 10 ∨ MOD.type f.mod = 8 := by simp [wide]

/-- MOVI: an immediate of a 64-bit type is extended by it. -/
theorem gives_movi (f : Form) : Gives (.movi f) 0x46 f (fun e l =>
    if MOD.type f.mod = 8 then [.w64 f.d (e.c64 l f .n64)]
    else if MOD.type f.mod = 10 then [.w64 f.d (e.c64 l f .int)] else [.w32 f.d (e.c l f .int)]) :=
  gives_of_results (fun _ => rfl) rfl fun e l => by
    by_cases n : MOD.type f.mod = 8
    · simp [wide_iff, n]
    · by_cases w : MOD.type f.mod = 10
      · simp [wide_iff, w]
      · simp [wide_iff, n, w]

/-- MOVS: the low byte or half word, extended by the type. -/
theorem movs_eq (t : Nat) (a : W32) :
    (match t with
      | 2 => (a.extractLsb' 0 8).zeroExtend 32
      | 3 => (a.extractLsb' 0 16).signExtend 32
      | 4 => (a.extractLsb' 0 16).zeroExtend 32
      | _ => (a.extractLsb' 0 8).signExtend 32) =
    (let k := if t = 3 ∨ t = 4 then 16 else 8
     let x := BitVec.ofNat k a.toNat
     if t = 2 ∨ t = 4 then x.zeroExtend 32 else x.signExtend 32) := by
  simp only [extractLsb'_eq, pow_zero, Nat.div_one]
  split
  · rfl
  · rfl
  · rfl
  · rename_i h2 h3 h4
    rw [if_neg (fun h => h.elim h2 h4), if_neg (fun h => h.elim h3 h4)]

/-- CLAMP: floats by their minimum and maximum, integers by those of their type. -/
theorem gives_clamp (f : Form) : Gives (.clamp f) 0x4C f (word f fun e l =>
    if MOD.type f.mod = 13 then
      let v (x : W32) := fp32.decode x.toNat
      BitVec.ofNat 32 (roundRne fp32 (((v (e.src l f.a (.fp fp32))).maxNum (v (e.src l f.b (.fp fp32)))).minNum (v (e.c l f (.fp fp32)))))
    else
      let sg := MOD.type f.mod != 6
      BitVec.ofInt 32 (min (max (num sg (e.src l f.a .int)) (num sg (e.src l f.b .int))) (num sg (e.c l f .int)))) :=
  gives_of_results (fun _ => rfl) rfl fun e l => by
    by_cases fl : MOD.type f.mod = 13
    · simp only [fl, beq_self_eq_true, if_true, word]; rfl
    · simp only [fl, beq_iff_eq, if_false, word, ty32_eq, ext_eq, fit32_eq, fitted_low]; rfl

/-! ## PRMT (R93) -/

/-- A bit of a byte of a word. -/
theorem byte_bit (c : W32) (k : Nat) {j : Nat} (h : j < 8) :
    (c.extractLsb' (8 * k) 8).getLsbD j = (c.toNat / 2 ^ (8 * k)).testBit j := by
  rw [extractLsb'_eq, BitVec.getLsbD_ofNat, decide_eq_true h, Bool.true_and]

/-- The number of the byte that a selector picks. -/
theorem selector_low (c : W32) (k : Nat) : ((c.extractLsb' (8 * k) 8).extractLsb' 0 3).toNat = c.toNat / 2 ^ (8 * k) % 8 := by
  rw [extractLsb'_eq, extractLsb'_eq, BitVec.toNat_ofNat, BitVec.toNat_ofNat]
  omega

theorem prmtByte_eq (x : W64) (c : W32) (k : Nat) : prmtByte x (c.extractLsb' (8 * k) 8) =
    (let s := c.toNat / 2 ^ (8 * k)
     let y : Byte := BitVec.ofNat 8 (x.toNat / 2 ^ (8 * (s % 8)))
     let y := if s.testBit 3 then y.reverse else y
     let y : Byte := if s.testBit 4 then (if y.getLsbD 7 then 0xFF else 0) else y
     if s.testBit 5 then ~~~y else y) := by
  unfold prmtByte
  simp only [selector_low, extractLsb'_eq x, byte_bit c k (show 3 < 8 by decide), byte_bit c k (show 4 < 8 by decide),
    byte_bit c k (show 5 < 8 by decide)]

/-- Four bytes, highest first, as a word. -/
theorem bytes_eq (p q r s : Byte) : (p ++ q ++ r ++ s : W32) =
    BitVec.ofNat 32 (s.toNat + 2 ^ 8 * r.toNat + 2 ^ 16 * q.toNat + 2 ^ 24 * p.toNat) := by
  apply BitVec.eq_of_toNat_eq
  have bound : s.toNat + 2 ^ 8 * r.toNat + 2 ^ 16 * q.toNat + 2 ^ 24 * p.toNat < 2 ^ 32 := by
    have := p.isLt; have := q.isLt; have := r.isLt; have := s.isLt
    omega
  rw [toNat_append_eq, toNat_append_eq, toNat_append_eq, BitVec.toNat_ofNat, Nat.mod_eq_of_lt bound]
  ring

theorem prmt_eq (a b c : W32) :
    (let x : W64 := b ++ a
     let y (k : Nat) : Byte := prmtByte x (c.extractLsb' (8 * k) 8)
     (y 3 ++ y 2 ++ y 1 ++ y 0 : W32)) =
    (let x := b.toNat * 2 ^ 32 + a.toNat
     let y (k : Nat) : Byte :=
       let s := c.toNat / 2 ^ (8 * k)
       let y : Byte := BitVec.ofNat 8 (x / 2 ^ (8 * (s % 8)))
       let y := if s.testBit 3 then y.reverse else y
       let y : Byte := if s.testBit 4 then (if y.getLsbD 7 then 0xFF else 0) else y
       if s.testBit 5 then ~~~y else y
     BitVec.ofNat 32 ((y 0).toNat + 2 ^ 8 * (y 1).toNat + 2 ^ 16 * (y 2).toNat + 2 ^ 24 * (y 3).toNat)) := by
  simp only [bytes_eq, prmtByte_eq, toNat_append_eq]

/-- MOVHI: c above a. -/
theorem movhi_eq (a c : W32) : (c ++ a : W64) = BitVec.ofNat 64 (c.toNat * 2 ^ 32 + a.toNat) := by
  rw [← toNat_append_eq, BitVec.ofNat_toNat, BitVec.setWidth_eq]

/-! ## Predicates as a word (R94) -/

theorem ptov_eq (p : Nat → Bool) : (List.range 8).foldl (fun m i => if p i then m ||| (1#32 <<< i) else m) 0 =
    BitVec.ofFnLE fun i : Fin 32 => decide (i.val < 8) && p i := by
  apply BitVec.eq_of_getLsbD_eq
  intro i hi
  rw [foldl_bits, BitVec.getLsbD_ofFnLE]
  simp [hi]

/-- Settles O7: each word by what it makes of its operands. -/
theorem moves : Obligations.Moves := by
  unfold Obligations.Moves
  intro f
  refine ⟨?sel, ?mov, gives_movi f, gives_word (fun _ => rfl) rfl fun _ _ => movs_eq .., gives_clamp f,
    gives_word (fun _ => rfl) rfl fun _ _ => prmt_eq .., gives_long (fun _ => rfl) rfl fun _ _ => movhi_eq ..,
    gives_word (fun _ => rfl) rfl fun _ _ => ptov_eq _, gives_of_results (fun _ => rfl) rfl fun _ _ => rfl,
    gives_long (fun _ => rfl) rfl fun _ _ => rfl, gives_word (fun _ => rfl) rfl fun _ _ => rfl⟩
  case sel => exact gives_of_results (fun _ => rfl) rfl fun e l => by simp only [wide_iff]
  case mov => exact gives_of_results (fun _ => rfl) rfl fun e l => by simp only [wide_iff]

end Sys2Proof.LaneResults

/-! PROOFS. Words that change nothing but where their lanes stand, the ends of threads, and sleeps (R101, R103). -/

namespace Sys2Proof.Control

open Sys2Proof.Machine Sys2Proof.Safety Sys2Proof.Laws

/-! ## Blocking (R103) -/

theorem forEach_now {α : Type} (l : List α) (s : State) (f : State → α → State) (h : ∀ u a, (f u a).now = u.now) :
    (forEach l s f).now = s.now := by
  induction l generalizing s with
  | nil => rfl
  | cons a l ih => exact (ih (f s a)).trans (h s a)

/-- Updates that agree at the time of a state agree along a list of them that does not move it. -/
theorem forEach_congr_now {α : Type} (l : List α) (s : State) (f g : State → α → State) (hf : ∀ u a, (f u a).now = u.now)
    (h : ∀ u a, u.now = s.now → f u a = g u a) : forEach l s f = forEach l s g := by
  induction l generalizing s with
  | nil => rfl
  | cons a l ih =>
    rw [forEach_cons, forEach_cons, ← h s a rfl]
    exact ih (f s a) fun u b hu => h u b (hu.trans (hf s a))

/-- The lanes of SLEEP block from the time of its issue. -/
theorem sleeps_eq (e : Env) (n : LaneAt → Nat) :
    (forEach e.act e.s fun s l => setBlock s e.core l.2 (.sleep (s.now + n l))) =
      eachBlocks e e.s fun l => .sleep (e.s.now + n l) :=
  forEach_congr_now _ _ _ _ (fun _ _ => rfl) fun u l h => by rw [h]; rfl

/-- The end of a sleep moves the lane on. -/
theorem exec_sleepEnd {s : State} {core slot lane til : Nat} (h : (s.lane core ⟨slot, lane⟩).block = .sleep til)
    (due : til ≤ s.now) : exec (.sleepEnd core slot lane) s = .next (s.onLane core ⟨slot, lane⟩ Lane.next) := by
  have arm : exec (.sleepEnd core slot lane) s = execSleepEnd core slot lane s := rfl
  rw [arm]
  simp only [execSleepEnd, h, due, if_true]

/-! ## The end of a thread (R101) -/

/-- A lane without its wait for the fill of a miss-status entry. -/
def unfilled (id : Nat) (l : Lane) : Lane := if l.block == .fill id then { l with block := .none } else l

theorem unfilled_keeps {β : Type} (id : Nat) (l : Lane) (get : Lane → β)
    (h : ∀ (l : Lane) (b : Block), get { l with block := b } = get l) : get (unfilled id l) = get l := by
  unfold unfilled
  split
  · exact h l .none
  · rfl

/-- The release of a miss-status entry lets its waiting lanes go, and touches no other part of a lane (R177, R178). -/
theorem lane_releaseMse (s : State) (core id : Nat) (r : LaneRef) :
    (releaseMse s core id).lane core r = unfilled id (s.lane core r) := by
  have released : (s.onCore core fun c => { c with
      mses := c.mses.filter fun m => m.id != id
      waves := c.waves.map fun w => (w.1, { w.2 with lanes := w.2.lanes.map fun l =>
        (l.1, if l.2.block == .fill id then { l.2 with block := .none } else l.2) }) }).lane core r =
      unfilled id (s.lane core r) := by
    simp only [State.lane, State.wave, core_onCore_same, Core.wave]
    rw [tgetD_map _ _ (by intro; rfl) _ _ rfl]
    simp only [Wave.lane]
    rw [tgetD_map _ _ (by intro; rfl) _ _ rfl]
    rfl
  unfold releaseMse
  dsimp only
  split
  · exact released
  · rw [lane_onWave _ core _ _ (by intro; rfl), lane_onCore _ core _ (by intro; rfl)]
    exact released

/-- Dropping the lines of a wave's own space leaves a lane as it was, but that it may wait for a fill no longer (R176). -/
theorem lane_dropPrivate {β : Type} (s : State) (core slot : Nat) (r : LaneRef) (get : Lane → β)
    (h : ∀ (l : Lane) (b : Block), get { l with block := b } = get l) :
    get ((dropPrivate s core slot).lane core r) = get (s.lane core r) := by
  unfold dropPrivate
  dsimp only
  rw [lane_keeps core _ _ _ r get fun u m => by rw [lane_releaseMse]; exact unfilled_keeps m.id _ get h,
    lane_onCore _ core _ (by intro; rfl)]

/-- A thread that ends has exited and stands in no clause. -/
theorem lane_exitThread (s : State) (core t : Nat) (r : LaneRef) :
    ((exitThread s core t r).lane core r).exited = true ∧ ((exitThread s core t r).lane core r).clause = none := by
  unfold exitThread
  dsimp only
  have team (u : State) (f : Team → Team) : (u.onTeam t f).lane core r = u.lane core r := rfl
  split
  · constructor
    · rw [lane_dropPrivate _ core _ r (·.exited) fun _ _ => rfl, team, lane_onLane_same]
    · rw [lane_dropPrivate _ core _ r (·.clause) fun _ _ => rfl, team, lane_onLane_same]
  · rw [team, lane_onLane_same]
    exact ⟨rfl, rfl⟩

/-- YIELD (R103, R165): the wave, or the reformed group, is not offered in the next cycle. -/
theorem does_yield (f : Form) : Does (.yield f) 0x0A f (fun _ => True) (fun e => match e.g.reformed with
      | none => e.s.onWave e.core e.g.slot fun w => { w with yielded := e.s.now / 2 + 2 }
      | some id => e.s.onCore e.core fun c => { c with groups := c.groups.map fun x =>
          if x.id = id then { x with yielded := e.s.now / 2 + 2 } else x }) (fun _ => []) :=
  does_of_runWord _ (fun _ => rfl) fun e _ => by
    cases e.g.reformed with
    | none => rfl
    | some id => simp only [beq_iff_eq]

/-- Settles O17: the four words by their bodies, the end of a sleep, and what a thread that ends is. -/
theorem threadControl : Obligations.ThreadControl := by
  unfold Obligations.ThreadControl
  refine ⟨fun f => ⟨does_of_runWord _ (fun _ => rfl) fun _ _ => rfl, does_yield f, ?sleep,
    does_of_runWord _ (fun _ => rfl) fun _ _ => rfl⟩, fun s core slot lane til => exec_sleepEnd, lane_exitThread⟩
  case sleep => exact does_of_runWord _ (fun _ => rfl) fun e _ => congrArg (Res.done · (mine e)) (sleeps_eq e _)

end Sys2Proof.Control

/-! PROOFS. Branches, calls and returns (R97 to R100): targets that resolve, the frames of calls, and the ways of RET. -/

namespace Sys2Proof.Control

open Sys2Proof.Machine Sys2Proof.Safety Sys2Proof.Laws

/-! ## Targets (R97) -/

theorem resolve_iff (s : State) (core t : Nat) (mon : Bool) (off : Nat) (pc : VA) : resolve s core t mon off = some pc ↔
    off % 4 = 0 ∧ off + 12 ≤ (codeRange s t mon).2 ∧ pc = BitVec.ofNat 56 ((codeRange s t mon).1 + off) ∧
    ∃ w, codeWord s (dieOf core) (teamAsid s t) ((codeRange s t mon).1 + off) = some w ∧ w.extractLsb' 0 8 = 0 := by
  unfold resolve
  obtain ⟨base, len⟩ := codeRange s t mon
  dsimp only
  by_cases inside : off % 4 = 0 ∧ off + 12 ≤ len
  · obtain ⟨aligned, fits⟩ := inside
    have stays : (off % 4 != 0 || decide (off + 12 > len)) = false := by simp [aligned, fits]
    rw [if_neg (by rw [stays]; simp)]
    cases codeWord s (dieOf core) (teamAsid s t) (base + off) with
    | none => simp
    | some w =>
      dsimp only
      split
      · rename_i header
        exact ⟨fun h => ⟨aligned, fits, (Option.some.inj h).symm, w, rfl, eq_of_beq header⟩, fun ⟨_, _, h, _⟩ => by rw [h]⟩
      · rename_i other
        exact ⟨nofun, fun ⟨_, _, _, v, hv, h⟩ => absurd (beq_iff_eq.mpr (Option.some.inj hv ▸ h)) other⟩
  · have leaves : (off % 4 != 0 || decide (off + 12 > len)) = true := by simp; omega
    rw [if_pos leaves]
    exact ⟨nofun, fun ⟨aligned, fits, _⟩ => absurd ⟨aligned, fits⟩ inside⟩

/-- Where a lane's word sends it. -/
def targetOf (e : Env) (off : Env → LaneAt → W32) (l : LaneAt) : Option VA :=
  resolve e.s e.core e.team (e.mon l.2) (off e l).toNat

/-- Every contributing lane has a target. -/
def allResolve (off : Env → LaneAt → W32) (e : Env) : Prop := ∀ l ∈ e.act, (targetOf e off l).isSome = true

/-- The contributing lanes without a target. -/
def lostLanes (off : Env → LaneAt → W32) (e : Env) : List LaneRef :=
  mine { e with act := e.act.filter fun l => (targetOf e off l).isNone }

theorem lostLanes_eq (off : Env → LaneAt → W32) (e : Env) :
    (((e.act.map fun l => (l.2, targetOf e off l)).filter fun t => t.2.isNone).map (·.1)) = lostLanes off e := by
  rw [List.filter_map, List.map_map]; rfl

theorem lostLanes_isEmpty_iff (off : Env → LaneAt → W32) (e : Env) : (lostLanes off e).isEmpty = true ↔ allResolve off e := by
  simp [lostLanes, mine, allResolve, List.filter_eq_nil_iff, Option.isSome_iff_ne_none]

/-! ## Branches (R98) -/

theorem does_branch {i : Instr} {opc : Nat} {f : Form} (off : Env → LaneAt → W32) (hi : ∀ s, exec i s = branchWord opc f s off) :
    Does i opc f (allResolve off) (fun e => forEach e.act e.s fun s l => match targetOf e off l with
      | some pc => s.onLane e.core l.2 fun x => { x with pc := pc, clause := none, block := .none }
      | none => s) mine :=
  does_of_runWord _ hi fun e all => by
    have none_lost := (lostLanes_isEmpty_iff off e).mpr all
    rw [← lostLanes_eq] at none_lost
    exact (if_pos none_lost).trans (by rw [forEach, List.foldl_map]; rfl)

theorem branch_traps {i : Instr} {opc : Nat} {f : Form} (off : Env → LaneAt → W32) (hi : ∀ s, exec i s = branchWord opc f s off) :
    Traps i opc f (fun e => ¬ allResolve off e) 0x02 (lostLanes off) (fun _ _ => 0) :=
  traps_of_runWord _ hi fun e bad => by
    have lost : ¬ (lostLanes off e).isEmpty = true := fun h => bad ((lostLanes_isEmpty_iff off e).mp h)
    rw [← lostLanes_eq] at lost
    exact (if_neg lost).trans (by rw [← lostLanes_eq]; rfl)

/-! ## Calls (R99, R100) -/

/-- What the calls of the contributing lanes leave, and the lanes whose frame found no way. -/
def called (off : Env → LaneAt → W32) (e : Env) : State × List LaneRef :=
  (e.act.filterMap fun l => (targetOf e off l).map fun pc => (l.2, pc)).foldl (callLane e.team e.core e.pkt) (e.s, [])

theorem does_call {i : Instr} {opc : Nat} {f : Form} (off : Env → LaneAt → W32) (hi : ∀ s, exec i s = callWord opc f s off) :
    Does i opc f (fun e => allResolve off e ∧ (∀ l ∈ e.act, 4 * ((e.s.lane e.core l.2).cd + 1) ≤ e.pkt.priv) ∧
        (called off e).1.live e.team = true)
      (fun e => countRejects (called off e).1 e.core e.g.refs (called off e).2) mine :=
  does_of_runWord _ hi fun e ⟨all, room, live⟩ => by
    have no_fails : ((e.act.map fun l => (l.2, resolve e.s e.core e.team (e.mon l.2) (off e l).toNat)).filterMap fun t =>
        if t.2.isNone then some (t.1, 0x02, 0)
        else if 4 * ((e.s.lane e.core t.1).cd + 1) > e.pkt.priv then some (t.1, 0x03, frameTag e.pkt (e.s.lane e.core t.1).cd)
        else none) = [] := by
      rw [List.filterMap_map, List.filterMap_eq_nil_iff]
      intro l hl
      have target : ¬ (targetOf e off l).isNone = true := by simpa [Option.isSome_iff_ne_none] using all l hl
      exact (if_neg target).trans (if_neg (Nat.not_lt.mpr (room l hl)))
    have go : (e.act.map fun l => (l.2, resolve e.s e.core e.team (e.mon l.2) (off e l).toNat)).filterMap
        (fun t => t.2.map fun pc => (t.1, pc)) = e.act.filterMap fun l => (targetOf e off l).map fun pc => (l.2, pc) :=
      List.filterMap_map
    dsimp only
    rw [no_fails, go]
    dsimp only [trapFirst]
    exact if_neg (by rw [called] at live; simp [live])

/-- A call stores its frame, and the lane stands at its target one frame deeper. -/
theorem callLane_of_ok {s u : State} {t core : Nat} {p : Packet} {r : LaneRef} {pc : VA} (live : s.live t = true)
    (stored : performLane s core t (teamAsid s t) [frameAccess s core p (s.team t) r (s.lane core r).cd 1
      (leBytes 4 (codeOffset s t (s.lane core r).mon ((s.lane core r).pc + 12)).toNat)] = .ok u) (live' : u.live t = true) :
    callLane t core p (s, []) (r, pc) = (u.onLane core r fun l => { l.goto pc with cd := l.cd + 1 }, []) := by
  simp only [callLane, live, stored, live', Bool.not_true, Bool.false_eq_true, if_false]

/-! ## Returns (R100) -/

theorem forEach_fixed {α : Type} (l : List α) (s : State) (f : State → α → State) (h : ∀ a ∈ l, f s a = s) : forEach l s f = s := by
  induction l with
  | nil => rfl
  | cons a l ih =>
    rw [forEach_cons, h a (List.mem_cons_self ..)]
    exact ih fun b hb => h b (List.mem_cons_of_mem _ hb)

/-- A lane whose frame is still to be filled waits for it. -/
def waitFill (core : Nat) (s : State) (x : LaneRef × RetLoad) : State := match x.2 with
  | .fill id => setBlock s core x.1 (.fill id)
  | _ => s

/-- The target that a frame's bytes give. -/
def frameTarget (e : Env) (u : State) (x : LaneRef × RetLoad) : Option (LaneRef × Option VA) := match x.2 with
  | .value v => some (x.1, resolve u e.core e.team (e.mon x.1) v.toNat)
  | _ => none

/-- A lane with a target goes to it, one frame shallower. -/
def leaveFrame (core : Nat) (s : State) (x : LaneRef × Option VA) : State := match x.2 with
  | some pc => s.onLane core x.1 fun l => { l.goto pc with cd := l.cd - 1 }
  | none => s

/-- A lane takes the target that its frame holds, one frame shallower. -/
def returnLane (e : Env) (u : State) (s : State) (x : LaneRef × RetLoad) : State := match x.2 with
  | .value v => match resolve u e.core e.team (e.mon x.1) v.toNat with
    | some pc => s.onLane e.core x.1 fun l => { l with pc := pc, clause := none, block := .none, cd := l.cd - 1 }
    | none => s
  | _ => s

theorem returnLane_eq (e : Env) (u s : State) (x : LaneRef × RetLoad) :
    returnLane e u s x = match frameTarget e u x with | some y => leaveFrame e.core s y | none => s := by
  unfold returnLane frameTarget leaveFrame
  cases x.2 <;> rfl

theorem forEach_returnLane (e : Env) (u s : State) (got : List (LaneRef × RetLoad)) :
    forEach (got.filterMap (frameTarget e u)) s (leaveFrame e.core) = forEach got s (returnLane e u) := by
  rw [forEach, List.foldl_filterMap, forEach]
  congr 1
  funext s x
  rw [returnLane_eq]
  cases frameTarget e u x <;> rfl

/-- A RET of which no target fails. -/
theorem retGo_of_targets {e : Env} {s u : State} {got : List (LaneRef × RetLoad)}
    (hu : countRejects (forEach got s (waitFill e.core)) e.core e.g.refs ((got.filter fun x => x.2 == .rejected).map (·.1)) = u)
    (h : ((got.filterMap (frameTarget e u)).filter fun x => x.2.isNone) = []) :
    retGo e s got = .done (forEach got u (returnLane e u)) (got.map (·.1)) := by
  have none_lost : (((got.filterMap (frameTarget e u)).filter fun x => x.2.isNone).map (·.1)).isEmpty = true := by rw [h]; rfl
  have all_leave := congrArg (Res.done · (got.map Prod.fst)) (forEach_returnLane e u u got)
  subst hu
  exact (if_pos none_lost).trans all_leave

/-- Where every frame's bytes are at hand and every target resolves, the lanes go to their targets. -/
theorem retGo_of_values {e : Env} {s : State} {got : List (LaneRef × RetLoad)}
    (h : ∀ x ∈ got, ∃ v, x.2 = .value v ∧
      (resolve (countRejects s e.core e.g.refs []) e.core e.team (e.mon x.1) v.toNat).isSome = true) :
    retGo e s got = .done (forEach got (countRejects s e.core e.g.refs []) (returnLane e (countRejects s e.core e.g.refs [])))
      (got.map (·.1)) := by
  have no_fills : forEach got s (waitFill e.core) = s := forEach_fixed got s _ fun x hx => by
    obtain ⟨v, hv, -⟩ := h x hx
    rw [waitFill, hv]
  have no_rejects : (got.filter fun x => x.2 == .rejected) = [] := by
    rw [List.filter_eq_nil_iff]
    intro x hx
    obtain ⟨v, hv, -⟩ := h x hx
    simp [hv]
  refine retGo_of_targets (by rw [no_fills, no_rejects]; rfl) ?_
  rw [List.filter_eq_nil_iff]
  intro y hy
  obtain ⟨x, hx, hxy⟩ := List.mem_filterMap.mp hy
  obtain ⟨v, hv, target⟩ := h x hx
  simp only [frameTarget, hv, Option.some.injEq] at hxy
  rw [← hxy]
  simpa [Option.isSome_iff_ne_none] using target

/-- The lanes of a RET that trap: those without a frame, and those whose frame lies out of reach (R100, R193). -/
def retFails (e : Env) : List (LaneRef × Nat × Nat) := e.act.filterMap fun l =>
  let cd := (e.s.lane e.core l.2).cd
  if cd == 0 then some (l.2, 0x02, 0)
  else if 4 * cd > e.pkt.priv then some (l.2, 0x03, frameTag e.pkt (cd - 1))
  else (testLocal e.pkt (e.s.team e.team) 0 false (frameAddr e.pkt (cd - 1)) 4).map fun k =>
    (l.2, testCause k, frameAddr e.pkt (cd - 1))

theorem retFails_of_frames {e : Env} (h : ∀ l ∈ e.act, (e.s.lane e.core l.2).cd ≠ 0 ∧ 4 * (e.s.lane e.core l.2).cd ≤ e.pkt.priv ∧
    testLocal e.pkt (e.s.team e.team) 0 false (frameAddr e.pkt ((e.s.lane e.core l.2).cd - 1)) 4 = none) : retFails e = [] := by
  rw [retFails, List.filterMap_eq_nil_iff]
  intro l hl
  obtain ⟨frame, room, reach⟩ := h l hl
  dsimp only
  rw [if_neg (by simpa using frame), if_neg (Nat.not_lt.mpr room), reach]; rfl

theorem retFails_of_bare {e : Env} (h : ∀ l ∈ e.act, (e.s.lane e.core l.2).cd = 0) :
    retFails e = e.act.map fun l => (l.2, 0x02, 0) := by
  rw [retFails, ← List.filterMap_eq_map]
  apply List.filterMap_congr
  intro l hl
  exact if_pos (beq_iff_eq.mpr (h l hl))

/-- RET where each contributing lane has a frame, in reach and at hand, with a target that resolves. -/
theorem does_ret (f : Form) :
    let xs (e : Env) := e.act.map fun l => (l.2, frameAccess e.s e.core e.pkt (e.s.team e.team) l.2 ((e.s.lane e.core l.2).cd - 1) 0 [])
    let got (e : Env) := retLoads e.core e.team (xs e) e.s []
    let read (e : Env) : State := countRejects (got e).1 e.core e.g.refs []
    Does (.ret f) 0x06 f
      (fun e => (∀ l ∈ e.act, (e.s.lane e.core l.2).cd ≠ 0 ∧ 4 * (e.s.lane e.core l.2).cd ≤ e.pkt.priv ∧
          testLocal e.pkt (e.s.team e.team) 0 false (frameAddr e.pkt ((e.s.lane e.core l.2).cd - 1)) 4 = none) ∧
        (got e).1.live e.team = true ∧
        ∀ x ∈ (got e).2, ∃ v, x.2 = .value v ∧ (resolve (read e) e.core e.team (e.mon x.1) v.toNat).isSome = true)
      (fun e => forEach (got e).2 (read e) (returnLane e (read e))) (fun e => (got e).2.map (·.1)) := by
  refine does_of_runWord _ (fun _ => rfl) fun e ⟨frames, live, values⟩ => ?_
  have no_fails := retFails_of_frames frames
  dsimp only [retFails] at no_fails ⊢
  rw [no_fails]
  dsimp only [trapFirst]
  rw [if_neg (by simp [live])]
  split
  · rename_i a poisoned
    obtain ⟨x, hx, hp⟩ := List.exists_of_findSome?_eq_some poisoned
    obtain ⟨v, hv, -⟩ := values x hx
    simp [hv] at hp
  · exact retGo_of_values values

/-- RET of lanes without a frame is an illegal target of them all. -/
theorem ret_traps (f : Form) : Traps (.ret f) 0x06 f (fun e => ∀ l ∈ e.act, (e.s.lane e.core l.2).cd = 0) 0x02 mine (fun _ _ => 0) := by
  intro s g e h bare
  have arm : exec (.ret f) s = execRet f s := rfl
  have fails := retFails_of_bare bare
  have first : trapFirst (e.act.map fun l => (l.2, 0x02, 0)) = some (0x02, mine e, fun _ => 0) := by
    have nonempty : e.act ≠ [] := by rw [h.act]; exact h.lanes
    obtain ⟨l, ls, hl⟩ := List.exists_cons_of_ne_nil nonempty
    simp [hl, mine, trapFirst, List.filter_map, Function.comp_def]
  rw [arm, execRet]
  refine runWord_trap h _ ?_
  dsimp only [retFails] at fails ⊢
  rw [fails, first]

/-! ## The statement -/

/-- Settles O14: targets, branches, calls and their frames, and returns. -/
theorem branches : Obligations.Branches := by
  unfold Obligations.Branches
  refine ⟨⟨resolve_iff, fun f => ⟨does_branch _ fun _ => rfl, does_branch _ fun _ => rfl, branch_traps _ fun _ => rfl,
    branch_traps _ fun _ => rfl, does_call _ fun _ => rfl, does_call _ fun _ => rfl⟩⟩, ?frame, fun f => ⟨does_ret f, ret_traps f⟩⟩
  case frame =>
    intro s t core p r pc u live stored live'
    rw [callLane_of_ok live stored live']
    refine ⟨rfl, ?_, ?_, rfl⟩
    · rw [lane_onLane_same]; rfl
    · rw [lane_onLane_same]

end Sys2Proof.Control

/-! PROOFS. The floating-point words act lane by lane (R104 to R123): each gives its lanes the results that the spec names, once
the model's roundings, packings and conversions are written as the statements write them. -/

namespace Sys2Proof.FloatResults

open Sys2Proof.Machine Sys2Proof.Safety Sys2Proof.Laws

/-! ## Words that round and convert -/

/-- The opcodes of floating point (R70): rows 9, 10 and 15, FLERP, FSAT, FEXP and FRACT, SEED and RAND. -/
def floating (opc : Nat) : Bool :=
  decide (0x90 ≤ opc ∧ opc < 0xB0) || decide (0xEC ≤ opc ∧ opc < 0x100) || opc == 0xDE || opc == 0xDF

theorem floating_iff {opc : Nat} :
    floating opc = true ↔ (0x90 ≤ opc ∧ opc < 0xB0) ∨ (0xEC ≤ opc ∧ opc < 0x100) ∨ opc = 0xDE ∨ opc = 0xDF := by
  simp [floating, or_assoc]

/-- Each of them names a destination, but SEED, whose result is the generator. -/
theorem floating_names_dest {opc : Nat} (h : floating opc = true) (m : BitVec 9) :
    (opSpec opc m).d ≠ .none ∨ opc = 0xDE ∨ opc = 0x4B := by
  obtain h | h | rfl | rfl := floating_iff.mp h
  · left
    have row : opc / 16 = 9 ∨ opc / 16 = 10 := by omega
    obtain r | r := row
    · simp only [opSpec, r]; split <;> simp
    · -- FCOPYSIGN chooses the width of its destination by TYPE
      simp only [opSpec, r]; split <;> simp
      split <;> simp
  · left
    have row : (opc / 16 = 14 ∧ 12 ≤ opc % 16) ∨ opc / 16 = 15 := by omega
    obtain ⟨r, c⟩ | r := row
    · have col : opc % 16 = 12 ∨ opc % 16 = 13 ∨ opc % 16 = 14 ∨ opc % 16 = 15 := by omega
      unfold opSpec
      obtain c | c | c | c := col <;> simp [r, c]
    · -- CVTD and CVTDI choose the width of their destination by TYPE
      simp only [opSpec, r]; split <;> simp
      all_goals split <;> simp
  · exact .inr (.inl rfl)
  · exact .inl (by simp [opSpec])

/-- None of them accesses local space, and each writes its results itself. -/
theorem floating_plain {opc : Nat} (h : floating opc = true) : mayReject opc = false ∧ writesLater opc = false := by
  have range := floating_iff.mp h
  simp only [mayReject, writesLater, List.contains_cons, List.contains_nil, Bool.or_eq_false_iff, beq_eq_false_iff_ne,
    Bool.and_eq_false_iff, decide_eq_false_iff_not, and_true]
  omega

/-- A floating-point word gives any results that are the model's, written in another way. -/
theorem gives_of_results {i : Instr} {opc : Nat} {f : Form} {ws vs : Env → LaneAt → List Wr}
    (hi : ∀ s, exec i s = laneWord opc f s ws) (hc : floating opc = true) (h : ∀ e l, ws e l = vs e l) : Gives i opc f vs := by
  obtain rfl : ws = vs := funext fun e => funext (h e)
  exact gives_of_laneWord hi (floating_names_dest hc f.mod) (floating_plain hc).2 (floating_plain hc).1

/-- A floating-point word of one 32-bit result. -/
theorem gives_word {i : Instr} {opc : Nat} {f : Form} {x y : Env → LaneAt → W32}
    (hi : ∀ s, exec i s = laneWord opc f s (word f x)) (hc : floating opc = true) (h : ∀ e l, x e l = y e l) :
    Gives i opc f (word f y) :=
  gives_of_results hi hc fun e l => by simp only [h, word]

/-! ## The rounding generator (R40, R107) -/

theorem rsStep_eq (f : Form) (g : W32) : rsStep f g = if MOD.round f.mod = 4 then stepG g else g := by
  simp only [rsStep, beq_iff_eq]

theorem rsGen_eq (f : Form) (g : W32) : rsGen f g = if MOD.round f.mod = 4 then [.gen g] else [] := by
  simp only [rsGen, beq_iff_eq]

/-- A word of one rounded result steps the generator once under RS, and leaves it stepped. -/
theorem rounded_eq (F : Fmt) (put : Nat → Wr) (f : Form) (x : Env → LaneAt → Val) (e : Env) (l : LaneAt) :
    (put (fres F (MOD.round f.mod) (MOD.sat f.mod) (rsStep f (e.gen l)) (x e l)) :: rsGen f (rsStep f (e.gen l))) =
      rounded F put f x e l := by
  unfold rounded
  rw [rsGen_eq, rsStep_eq]
  by_cases rs : MOD.round f.mod = 4
  · simp only [rs, if_true]; rfl
  · simp only [rs, if_false]; rfl

/-! ## Exact results rounded once (R105, R108, R112, R113) -/

theorem gives_single {i : Instr} {opc : Nat} {f : Form} {x : Env → LaneAt → Val} (hi : ∀ s, exec i s = floatWord opc f s x)
    (hc : floating opc = true) : Gives i opc f (single f x) :=
  gives_of_results hi hc (rounded_eq fp32 (fun c => .w32 f.d (BitVec.ofNat 32 c)) f x)

theorem gives_double {i : Instr} {opc : Nat} {f : Form} {x : Env → LaneAt → Val} (hi : ∀ s, exec i s = doubleWord opc f s x)
    (hc : floating opc = true) : Gives i opc f (double f x) :=
  gives_of_results hi hc (rounded_eq fp64 (fun c => .w64 f.d (BitVec.ofNat 64 c)) f x)

theorem pairFmt_eq (f : Form) : pairFmt f = if MOD.type f.mod = 12 then bf16 else fp16 := by
  simp only [pairFmt, beq_iff_eq]

/-- FDOT2 (R112). -/
theorem gives_fdot2 (f : Form) : Gives (.fdot2 f) 0xA6 f (single f fun e l =>
    let H := if MOD.type f.mod = 12 then bf16 else fp16
    dotExact (isRd f) H 16 2 (e.src l f.a (.pair H)) (e.src l f.b (.pair H)) (e.fc l f)) := by
  rw [← pairFmt_eq]
  exact gives_single (fun _ => rfl) rfl

/-- FDOT4 (R112). -/
theorem gives_fdot4 (f : Form) : Gives (.fdot4 f) 0xA7 f (single f fun e l =>
    let Q := if MOD.type f.mod = 16 then e5m2 else e4m3
    dotExact (isRd f) Q 8 4 (e.src l f.a .bytes) (e.src l f.b .bytes) (e.fc l f)) := by
  have quarter : (if MOD.type f.mod == 16 then e5m2 else e4m3) = if MOD.type f.mod = 16 then e5m2 else e4m3 := by
    simp only [beq_iff_eq]
  rw [← quarter]
  exact gives_single (fun _ => rfl) rfl

/-! ## Rounding to an integral value (R119) -/

/-- DROUND (R113). -/
theorem gives_dround (f : Form) : Gives (.dround f) 0xFD f (fun e l =>
    let g := (e.s.lane e.core l.2).g
    let g' := if MOD.round f.mod = 4 then stepG g else g
    .w64 f.d (BitVec.ofNat 64 (roundOwn fp64 (MOD.round f.mod) g' (fp64.decode (e.src64 l f.a (.fp fp64)).toNat))) ::
      (if MOD.round f.mod = 4 then [.gen g'] else [])) :=
  gives_of_results (fun _ => rfl) rfl fun e l => by simp only [rsStep_eq, rsGen_eq]; rfl

/-- Settles O9: the model forms each exact result as the statement does, and rounds it once; the two dot products, which choose
their format by TYPE, and DROUND stand by themselves. -/
theorem floatArithmetic : Obligations.FloatArithmetic := by
  unfold Obligations.FloatArithmetic
  refine ⟨fun f => ?fp32, fun f => ?fp64⟩
  case fp32 =>
    iterate 10 refine ⟨gives_single (fun _ => rfl) rfl, ?_⟩
    exact ⟨gives_fdot2 f, gives_fdot4 f⟩
  case fp64 =>
    iterate 9 refine ⟨gives_double (fun _ => rfl) rfl, ?_⟩
    exact gives_dround f

end Sys2Proof.FloatResults

/-! PROOFS. Packed arithmetic (R107, R111), classes, signs, fractions and the rounding generator (R108, R109, R115, R123). -/

namespace Sys2Proof.FloatResults

open Sys2Proof.Machine Sys2Proof.Safety Sys2Proof.Laws

/-! ## The two elements of a word -/

theorem lo16_eq (x : W32) : lo16 x = x.toNat % 65536 := by
  rw [lo16, BitVec.extractLsb'_toNat, Nat.shiftRight_zero]

theorem hi16_eq (x : W32) : hi16 x = x.toNat / 65536 := by
  have := x.isLt
  rw [hi16, BitVec.extractLsb'_toNat, Nat.shiftRight_eq_div_pow]
  omega

/-- A function of elements, applied to both. -/
def halves (h : Nat → Nat → Nat) (x y : W32) : W32 :=
  BitVec.ofNat 32 (h (x.toNat % 65536) (y.toNat % 65536) + 65536 * h (x.toNat / 65536) (y.toNat / 65536))

theorem pack16_elements (h : Nat → Nat → Nat) (x y : W32) :
    pack16 (h (lo16 x) (lo16 y)) (h (hi16 x) (hi16 y)) = halves h x y := by
  simp only [lo16_eq, hi16_eq, pack16, halves]

/-! ## Packed arithmetic (R111) -/

/-- What a packed word with the operands a, `y` and `z` gives a lane: element 0 takes the first step of the generator. -/
def packed (f : Form) (F : Fmt) (y z : Env → LaneAt → W32) (op : Val → Val → Val → Val) (e : Env) (l : LaneAt) : List Wr :=
  let g1 := rsStep f (e.gen l)
  let g2 := rsStep f g1
  let x := e.src l f.a (.pair F)
  let r (g : W32) (v : Val) := fres F (MOD.round f.mod) (MOD.sat f.mod) g v
  let lo (x : W32) := F.decode (x.toNat % 65536)
  let hi (x : W32) := F.decode (x.toNat / 65536)
  .w32 f.d (BitVec.ofNat 32 (r g1 (op (lo x) (lo (y e l)) (lo (z e l))) + 65536 * r g2 (op (hi x) (hi (y e l)) (hi (z e l))))) ::
    rsGen f g2

theorem gives_packedTwo {i : Instr} {opc : Nat} {f : Form} {op : Val → Val → Val → Val}
    (hi : ∀ s, exec i s = packedWord opc f s false op) (hc : floating opc = true) :
    Gives i opc f (packed f (pairFmt f) (fun e l => e.b l f (.pair (pairFmt f))) (fun _ _ => 0) op) :=
  gives_of_results hi hc fun e l => by simp only [lo16_eq, hi16_eq, pack16, packed]; rfl

theorem gives_packedThree {i : Instr} {opc : Nat} {f : Form} {op : Val → Val → Val → Val}
    (hi : ∀ s, exec i s = packedWord opc f s true op) (hc : floating opc = true) :
    Gives i opc f (packed f (pairFmt f) (fun e l => e.src l f.b (.pair (pairFmt f)))
      (fun e l => e.c l f (.pair (pairFmt f))) op) :=
  gives_of_results hi hc fun e l => by simp only [lo16_eq, hi16_eq, pack16, packed]; rfl

/-! ## Saturation, signs, fractions and classes -/

/-- min(max(x, +0), 1) of a code; 1 has the bias in its exponent field (R30, R108). -/
def unitClamp (F : Fmt) (a _ : Nat) : Nat :=
  let x := F.decode a
  if x.isNan ∨ x.isNeg then 0 else if Val.lt (.fin false 1 0) x then F.bias * 2 ^ F.fb else a

theorem saturate01_eq {F : Fmt} (one : roundRne F (.fin false 1 0) = F.bias * 2 ^ F.fb) {a : Nat}
    (h : a < 2 ^ (1 + F.eb + F.fb)) (b : Nat) : saturate01 F a = unitClamp F a b := by
  simp only [saturate01, unitClamp, one, Nat.mod_eq_of_lt h, Bool.or_eq_true]

/-- FSAT of an element of either packed format. -/
theorem saturate01_packed (f : Form) {a : Nat} (h : a < 65536) (b : Nat) :
    saturate01 (pairFmt f) a = unitClamp (pairFmt f) a b := by
  have either : pairFmt f = bf16 ∨ pairFmt f = fp16 := by
    rw [pairFmt_eq]
    exact ite_eq_or_eq ..
  obtain F | F := either
  · rw [F]; exact saturate01_eq rfl h b
  · rw [F]; exact saturate01_eq rfl h b

/-- FSAT (R108). -/
theorem gives_fsat (f : Form) : Gives (.fsat f) 0xED f (word f fun e l =>
    if MOD.type f.mod = 0 then BitVec.ofNat 32 (unitClamp fp32 (e.src l f.a (.fp fp32)).toNat 0)
    else halves (unitClamp (pairFmt f)) (e.src l f.a (.pair (pairFmt f))) 0) := by
  refine gives_of_results (fun _ => rfl) rfl fun e l => ?_
  by_cases single : MOD.type f.mod = 0
  · have fits (x : W32) : x.toNat < 2 ^ (1 + fp32.eb + fp32.fb) := x.isLt
    rw [word, if_pos single, if_pos (beq_iff_eq.mpr single), saturate01_eq rfl (fits _) 0]
  · have lo (x : W32) : lo16 x < 65536 := BitVec.isLt _
    have hi (x : W32) : hi16 x < 65536 := BitVec.isLt _
    rw [word, if_neg single, if_neg (beq_iff_eq.not.mpr single), ← pack16_elements]
    dsimp only
    rw [saturate01_packed f (lo _) (lo16 0), saturate01_packed f (hi _) (hi16 0)]

/-- One element of FCOPYSIGN: the sign of b is a bit of its code. -/
theorem copysign_eq (F : Fmt) (a b : Nat) : copysign F a b =
    (let m := 2 ^ (F.eb + F.fb)
     if (F.decode a).isNan then F.nan else a % m + (if (F.decode b).isNan then 0 else b / m % 2 * m)) := by
  unfold copysign
  dsimp only
  generalize 2 ^ (F.eb + F.fb) = m
  split
  · rfl
  · split
    · rfl
    · -- the sign bit of b is 0 or 1
      obtain s | s := Nat.mod_two_eq_zero_or_one (b / m) <;> simp [s]

/-- FCOPYSIGN (R109). -/
theorem gives_fcopysign (f : Form) :
    Gives (.fcopysign f) 0xAF f (fun e l =>
      if MOD.type f.mod = 0 then [.w32 f.d (BitVec.ofNat 32 (copysign fp32 (e.src l f.a (.fp fp32)).toNat (e.b l f (.fp fp32)).toNat))]
      else if MOD.type f.mod = 14 then
        [.w64 f.d (BitVec.ofNat 64 (copysign fp64 (e.src64 l f.a (.fp fp64)).toNat (e.b64 l f (.fp fp64)).toNat))]
      else [.w32 f.d (halves (copysign (pairFmt f)) (e.src l f.a (.pair (pairFmt f))) (e.b l f (.pair (pairFmt f))))]) := by
  refine gives_of_results (fun _ => rfl) rfl fun e l => ?_
  split
  · rename_i single; rw [if_pos single]
  · rename_i double; rw [double]; rfl
  · rename_i single double
    rw [if_neg single, if_neg double, ← pack16_elements]

/-- FRACT (R109): of a negative value the part below 1 counts from the next lower integer. -/
theorem fract_eq (v : Val) : BitVec.ofNat 32 (fract v) = match v with
    | .fin n m x => if x ≥ 0 then (0 : W32) else
        let k := (-x).toNat
        let r := if n ∧ m % 2 ^ k ≠ 0 then 2 ^ k - m % 2 ^ k else m % 2 ^ k
        BitVec.ofNat 32 (min (fres fp32 3 false 0 (.fin false r x)) 0x3F7FFFFF)
    | _ => 0x7FC00000 := by
  cases v with
  | nan => rfl
  | inf n => rfl
  | fin n m x =>
    simp only [fract, Bool.and_eq_true, bne_iff_ne, ne_eq]
    split <;> rfl

/-- The class of a value (R115), by its bit. -/
def classOf (F : Fmt) : Val → Nat
  | .inf true => 0
  | .inf false => 7
  | .nan => 8
  | .fin n m e =>
    if m = 0 then (if n then 3 else 4)
    else if (Nat.log2 m : Int) + e < 1 - F.bias then (if n then 2 else 5) else if n then 1 else 6

theorem classBit_eq (F : Fmt) (code : Nat) : classBit F code = classOf F (F.decode code) := by
  unfold classBit
  cases F.decode code with
  | nan => rfl
  | inf n => cases n <;> rfl
  | fin n m e => simp only [classOf, log2Val, beq_iff_eq]; rfl

/-! ## The generator as a value (R123) -/

/-- RAND. -/
theorem gives_rand (f : Form) : Gives (.rand f) 0xDF f (fun e l =>
    let g := stepG (e.gen l)
    [.w32 f.d (if MOD.type f.mod = 13 then BitVec.ofNat 32 (roundRne fp32 (.fin false (g.toNat / 256) (-24))) else g), .gen g]) :=
  gives_of_results (fun _ => rfl) rfl fun e l => by simp only [beq_iff_eq]

/-! ## The statement -/

/-- Settles O10: packed words by their operands and operation, the others each by what it makes of the operands' codes. -/
theorem packedArithmetic : Obligations.PackedArithmetic := by
  unfold Obligations.PackedArithmetic
  refine ⟨fun f => ?packed, fun f => ?single⟩
  case packed =>
    simp only [← pairFmt_eq, ← rsStep_eq, ← rsGen_eq]
    exact ⟨gives_packedTwo (op := fun a b _ => sumExact (isRd f) [a, b]) (fun _ => rfl) rfl,
      gives_packedTwo (op := fun a b _ => sumExact (isRd f) [a, b.neg]) (fun _ => rfl) rfl,
      gives_packedTwo (op := fun a b _ => a.mul b) (fun _ => rfl) rfl,
      gives_packedThree (op := fun a b c => sumExact (isRd f) [a.mul b, c]) (fun _ => rfl) rfl,
      gives_packedTwo (op := fun a b _ => a.minNum b) (fun _ => rfl) rfl,
      gives_packedTwo (op := fun a b _ => a.maxNum b) (fun _ => rfl) rfl⟩
  case single =>
    simp only [← pairFmt_eq, ← copysign_eq]
    exact ⟨gives_word (fun _ => rfl) rfl fun _ _ => congrArg _ (classBit_eq ..),
      gives_word (fun _ => rfl) rfl fun _ _ => congrArg _ (classBit_eq ..), gives_fsat f,
      gives_word (fun _ => rfl) rfl fun _ _ => fract_eq _, gives_fcopysign f,
      gives_of_results (fun _ => rfl) rfl fun _ _ => rfl, gives_rand f⟩

end Sys2Proof.FloatResults

/-! PROOFS. The conversions (R116 to R122). -/

namespace Sys2Proof.FloatResults

open Sys2Proof.Machine Sys2Proof.Safety Sys2Proof.Laws

/-! ## Types -/

theorem cvtInt_eq (t : Nat) : cvtInt t = if t = 0 then .int 32 true else nfOfType t := by
  simp only [cvtInt, beq_iff_eq]

theorem pkType_eq (f : Form) : pkType f = if MOD.type f.mod = 0 then 11 else MOD.type f.mod := by
  simp only [pkType, beq_iff_eq]

theorem cvtLong_eq (f : Form) : cvtLong f =
    if MOD.type f.mod = 8 then (64, false) else if MOD.type f.mod = 5 then (32, true)
    else if MOD.type f.mod = 6 then (32, false) else (64, true) := by
  unfold cvtLong
  split
  case h_1 t => rw [t]; rfl
  case h_2 t => rw [t]; rfl
  case h_3 t => rw [t]; rfl
  case h_4 not8 not5 not6 => rw [if_neg not8, if_neg not5, if_neg not6]

/-! ## Conversions of one 32-bit slot (R117, R118) -/

/-- A result in its register: an integer is extended to it, any other is its code. `cv` is the code in each format. -/
def inRegister (F : NF) (cv : NF → Nat) : W32 :=
  match F with
  | .int w sg => extend32 w sg (cv F)
  | G => BitVec.ofNat 32 (cv G)

theorem gives_cvt {i : Instr} {opc : Nat} {f : Form} {src dst : NF} {imm : ImmT}
    (hi : ∀ s, exec i s = cvtWord opc f s src dst imm) (hc : floating opc = true) : Gives i opc f (fun e l =>
      let g := rsStep f (e.gen l)
      let x := src.decode (e.src l f.a imm).toNat
      .w32 f.d (inRegister dst fun F => convert F (MOD.round f.mod) (MOD.sat f.mod) g x) :: rsGen f g) :=
  gives_of_results hi hc fun _ _ => by cases dst <;> rfl

/-! ## Conversions of 64-bit slots (R122) -/

/-- CVTD. -/
theorem gives_cvtd (f : Form) : Gives (.cvtd f) 0xFA f (fun e l =>
    let g := rsStep f (e.gen l)
    let cv (F : NF) (x : Val) : Nat := convert F (MOD.round f.mod) (MOD.sat f.mod) g x
    if MOD.type f.mod = 0 then .w64 f.d (BitVec.ofNat 64 (cv (.fp fp64) (e.f32 l f.a))) :: rsGen f g
    else .w32 f.d (BitVec.ofNat 32 (cv (nfOfType (MOD.type f.mod)) (e.f64 l f.a))) :: rsGen f g) :=
  gives_of_results (fun _ => rfl) rfl fun e l => by simp only [beq_iff_eq]

/-- CVTDI. -/
theorem gives_cvtdi (f : Form) : Gives (.cvtdi f) 0xFB f (fun e l =>
    let g := rsStep f (e.gen l)
    let x := toInt (cvtLong f).1 (cvtLong f).2 (MOD.round f.mod) (MOD.sat f.mod) g (e.f64 l f.a)
    (if (cvtLong f).1 = 32 then .w32 f.d (BitVec.ofNat 32 x) else .w64 f.d (BitVec.ofNat 64 x)) :: rsGen f g) :=
  gives_of_results (fun _ => rfl) rfl fun e l => by simp only [beq_iff_eq]

/-- CVTID. -/
theorem gives_cvtid (f : Form) : Gives (.cvtid f) 0xFC f (fun e l =>
    let g := rsStep f (e.gen l)
    let sg := (cvtLong f).2
    let x : Int := if (cvtLong f).1 = 32 then num sg (e.src l f.a .int) else num sg (e.src64 l f.a (if sg then .int else .n64))
    .w64 f.d (BitVec.ofNat 64 (fres fp64 (MOD.round f.mod) (MOD.sat f.mod) g (.ofInt x))) :: rsGen f g) :=
  gives_of_results (fun _ => rfl) rfl fun e l => by simp only [beq_iff_eq, ext_eq]

/-! ## The statement -/

/-- Settles O11: the three conversions between 32-bit slots by `gives_cvt`, those of 64-bit slots each by itself, and the packed
ones and FROUND as the model writes them. -/
theorem conversions : Obligations.Conversions := by
  unfold Obligations.Conversions
  intro f
  simp only [← pkType_eq, ← cvtInt_eq, ← cvtLong_eq, ← rsStep_eq, ← rsGen_eq]
  exact ⟨gives_cvt (fun _ => rfl) rfl, gives_cvt (fun _ => rfl) rfl, gives_cvt (fun _ => rfl) rfl,
    gives_of_results (fun _ => rfl) rfl fun _ _ => rfl, gives_of_results (fun _ => rfl) rfl fun _ _ => rfl,
    gives_of_results (fun _ => rfl) rfl fun _ _ => rfl, gives_cvtd f, gives_cvtdi f, gives_cvtid f⟩

end Sys2Proof.FloatResults

/-! PROOFS. The approximate functions (R110, R113): at a listed input each takes its exact branch, so that its value holds for
every choice of `Config.approx`. -/

namespace Sys2Proof.FloatResults

open Sys2Proof.Machine Sys2Proof.Safety Sys2Proof.Laws

/-! ## Listed inputs -/

/-- FRCP of the zeros, the infinities and a power of two. -/
theorem rcp_listed : rcp 0x96 fp32 0 = 0x7F800000 ∧ rcp 0x96 fp32 0x80000000 = 0xFF800000 ∧ rcp 0x96 fp32 0x7F800000 = 0 ∧
    rcp 0x96 fp32 0xFF800000 = 0x80000000 ∧ rcp 0x96 fp32 0x40800000 = 0x3E800000 := by decide +kernel

/-- FRSQ of the zeros, an infinity, an even power of two and a negative value. -/
theorem rsqrt_listed : rsqrt 0 = 0x7F800000 ∧ rsqrt 0x80000000 = 0xFF800000 ∧ rsqrt 0x7F800000 = 0 ∧
    rsqrt 0x40800000 = 0x3F000000 ∧ rsqrt 0xBF800000 = 0x7FC00000 := by decide +kernel

/-- FSIN and FCOS of zeros and infinities. -/
theorem sine_cosine_listed : sine 0 = 0 ∧ sine 0x80000000 = 0x80000000 ∧ sine 0x7F800000 = 0x7FC00000 ∧
    cosine 0 = 0x3F800000 ∧ cosine 0xFF800000 = 0x7FC00000 := by decide +kernel

/-- FEXP2 of an integer, of a value past the format and of an infinity; FEXP of the zeros and an infinity. -/
theorem exponentials_listed : exp2Fn 0x40400000 = 0x41000000 ∧ exp2Fn 0x43000000 = 0x7F800000 ∧ exp2Fn 0xFF800000 = 0 ∧
    expFn 0 = 0x3F800000 ∧ expFn 0x80000000 = 0x3F800000 ∧ expFn 0xFF800000 = 0 := by decide +kernel

/-- FLOG2 of powers of two, zero and a negative value; FTANH where it is 1 or -1 to the format's precision, and of -0. -/
theorem log2_tanh_listed : log2Fn 0x3F800000 = 0 ∧ log2Fn 0x41000000 = 0x40400000 ∧ log2Fn 0 = 0xFF800000 ∧
    log2Fn 0xBF800000 = 0x7FC00000 ∧ tanhFn 0x41200000 = 0x3F800000 ∧ tanhFn 0xC1200000 = 0xBF800000 ∧
    tanhFn 0x80000000 = 0x80000000 := by decide +kernel

/-! ## The statement -/

/-- A word of one FP32 operand gives the function's value at the operand's code. -/
theorem gives_approx {i : Instr} {opc : Nat} {f : Form} {fn : Nat → Nat} (hi : ∀ s, exec i s = approxWord opc f s fn)
    (hc : floating opc = true) : Gives i opc f (word f fun e l => BitVec.ofNat 32 (fn (e.src l f.a (.fp fp32)).toNat)) :=
  gives_word hi hc fun _ _ => rfl

/-- Settles O12: each word by its function, and the values at the listed inputs. -/
theorem approximateFunctions : Obligations.ApproximateFunctions := by
  unfold Obligations.ApproximateFunctions
  refine ⟨fun f => ?words, rcp_listed, rsqrt_listed, sine_cosine_listed, exponentials_listed, log2_tanh_listed⟩
  case words =>
    iterate 8 refine ⟨gives_approx (fun _ => rfl) rfl, ?_⟩
    exact gives_of_results (fun _ => rfl) rfl fun _ _ => rfl

end Sys2Proof.FloatResults

/-! PROOFS. The mask words and the reform regions (R132, R133, R136, R137, R140, R152, R153): each word by its body, each event by
the condition that enables it. -/

namespace Sys2Proof.Regions

open Sys2Proof.Machine Sys2Proof.Safety Sys2Proof.Laws

/-! ## Masks (R132, R152) -/

/-- The contributing lanes of which a property holds, as bits of a mask register. -/
def lanesWhere (e : Env) (p : LaneAt → Bool) : W32 :=
  BitVec.ofFnLE fun i : Fin 32 => e.act.any fun l => l.2.lane == i.val && p l

theorem laneSet_filter (e : Env) (p : LaneAt → Bool) : laneSet ((e.act.filter p).map (·.2.lane)) = lanesWhere e p := by
  rw [laneSet_eq]
  refine congrArg BitVec.ofFnLE (funext fun i => Bool.eq_iff_iff.mpr ?_)
  simp only [List.contains_iff_mem, List.mem_map, List.mem_filter, List.any_eq_true, Bool.and_eq_true, beq_iff_eq]
  exact exists_congr fun l => ⟨fun ⟨⟨hl, hp⟩, hi⟩ => ⟨hl, hi, hp⟩, fun ⟨hl, hi, hp⟩ => ⟨⟨hl, hp⟩, hi⟩⟩

theorem laneMask_eq (e : Env) : e.laneMask = lanesWhere e fun _ => true := by
  rw [← laneSet_filter, List.filter_true]
  rfl

theorem does_join (f : Form) : Does (.join f) 0x59 f (fun _ => True)
    (fun e => e.onMask (maskReg f.a) (· ||| lanesWhere e fun _ => true)) (fun _ => []) :=
  does_of_runWord _ (fun _ => rfl) fun e _ => by rw [← laneMask_eq]

theorem does_leave (f : Form) : Does (.leave f) 0x5A f (fun _ => True)
    (fun e => e.onMask (maskReg f.a) (· &&& ~~~lanesWhere e fun _ => true)) (fun _ => []) :=
  does_of_runWord _ (fun _ => rfl) fun e _ => by rw [← laneMask_eq]

theorem does_jset (f : Form) : Does (.jset f) 0x5C f (fun _ => True)
    (fun e => e.onMask (maskReg f.d) fun _ => lanesWhere e fun l => e.pred l f.a) (fun _ => []) :=
  does_of_runWord _ (fun _ => rfl) fun e _ => by rw [← laneSet_filter]

/-- Lanes that block one after the other, each with what it waits for. -/
theorem blocks_mine (e : Env) (b : Block) :
    (forEach (mine e) e.s fun s r => setBlock s e.core r b) = eachBlocks e e.s fun _ => b := List.foldl_map

theorem does_jwait (f : Form) : Does (.jwait f) 0x5B f (fun _ => True) (fun e => eachBlocks e e.s fun _ => .jwait (maskReg f.a)) mine :=
  does_of_runWord _ (fun _ => rfl) fun e _ => congrArg (Res.done · (mine e)) (blocks_mine e _)

/-! ## JWAIT_COMPLETE (R133) -/

theorem jwaitDone_iff (w : Wave) (m : Nat) : jwaitDone w m = true ↔
    arrivedAt w m ≠ [] ∧ ∀ i < 32, (tgetD w.masks m 0).getLsbD i = true → i ∈ arrivedAt w m := by
  simp [jwaitDone, imp_iff_not_or]

theorem exec_jwaitComplete {s : State} {core slot m : Nat} (boundary : (s.wave core slot).group = [])
    (done : jwaitDone (s.wave core slot) m = true) :
    exec (.jwaitComplete core slot m) s = .next (jwaitRelease s core slot m) := by
  have arm : exec (.jwaitComplete core slot m) s = execJwaitComplete core slot m s := rfl
  rw [arm, execJwaitComplete]
  simp only [boundary, done, List.isEmpty_nil, Bool.and_self, if_true]

/-! ## Bins (R137) -/

/-- The first waiting thread is filed in the bin that takes it, and the others after it. -/
theorem exec_reformWaitFile {s : State} {core n : Nat} {r : LaneRef} {rest : List (Nat × LaneRef)} {b : Nat}
    (waiting : (s.core core).reformWait = (n, r) :: rest)
    (bin : binFor (s.core core) (s.wave core r.slot).team (reformKey (s.lane core r)) true = some b) (half : s.firstHalf = true) :
    exec (.reformWaitFile core) s = .next (fileWaiting rest.length
      (fileThread (s.onCore core fun c => { c with reformWait := rest }) core (s.wave core r.slot).team b r) core) := by
  have arm : exec (.reformWaitFile core) s = execReformWaitFile core s := rfl
  rw [arm, execReformWaitFile, if_pos half, waiting, List.length_cons, fileWaiting]
  simp only [waiting, bin]

theorem exec_binDrawAge {s : State} {core bin : Nat} {b : Bin} (held : tget (s.core core).bins bin = some b)
    (aged : b.opened + 512 ≤ s.now / 2) (half : s.lateHalf = true) :
    exec (.binDrawAge core bin) s = .next (drawBin s core bin) := by
  have arm : exec (.binDrawAge core bin) s = execBinDrawAge core bin s := rfl
  rw [arm, execBinDrawAge]
  simp only [held, half, aged, decide_true, Bool.and_self, if_true]

/-! ## The statement -/

/-- Settles O20: the mask words by what they make of the mask register, the region words by their bodies, and the three events
where they are enabled. -/
theorem masksAndRegions : Obligations.MasksAndRegions := by
  unfold Obligations.MasksAndRegions
  refine ⟨⟨fun f => ⟨does_join f, does_leave f, does_jset f, does_jwait f⟩, ?complete⟩,
    fun f => ⟨does_of_runWord _ (fun _ => rfl) fun _ _ => rfl, does_of_runWord _ (fun _ => rfl) fun _ _ => rfl⟩,
    fun s core n r rest b => exec_reformWaitFile, fun s core bin b => exec_binDrawAge⟩
  case complete =>
    intro s core slot m boundary ⟨i, arrived, _⟩ all
    exact exec_jwaitComplete boundary ((jwaitDone_iff _ m).mpr ⟨List.ne_nil_of_mem arrived, all⟩)

end Sys2Proof.Regions

/-! PROOFS. What memory's operations leave alone: they reach no core and no team, and every command stays its team's. -/

namespace Sys2Proof.TeamLife

open Sys2Proof.Machine Sys2Proof.Safety Sys2Proof.Laws

/-! ## Homes and loan lines (R186 to R189, R211) -/

/-- The cores and the teams are the same, and the commands are the same teams'. -/
structure MemoryOnly (s u : State) : Prop where
  cores : u.cores = s.cores
  teams : u.teams = s.teams
  cmds : u.cmds.map (·.2.team) = s.cmds.map (·.2.team)

theorem MemoryOnly.refl (s : State) : MemoryOnly s s := ⟨rfl, rfl, rfl⟩

theorem MemoryOnly.trans {s t u : State} (a : MemoryOnly s t) (b : MemoryOnly t u) : MemoryOnly s u :=
  ⟨b.cores.trans a.cores, b.teams.trans a.teams, b.cmds.trans a.cmds⟩

theorem memoryOnly_forEach {α : Type} (l : List α) (s : State) (f : State → α → State) (h : ∀ u a, MemoryOnly u (f u a)) :
    MemoryOnly s (forEach l s f) := by
  induction l generalizing s with
  | nil => exact .refl s
  | cons a l ih => exact (h s a).trans (ih (f s a))

theorem testWatch_team (m : Mem) (lo hi : Nat) (c : Cmd) : (testWatch m lo hi c).team = c.team := by
  unfold testWatch
  dsimp only
  split
  · split <;> rfl
  · rfl

theorem memoryOnly_homeWrite (s : State) (pa : Nat) (bs : List Byte) : MemoryOnly s (homeWrite s pa bs) := by
  refine ⟨rfl, rfl, ?_⟩
  simp only [homeWrite, List.map_map]
  exact List.map_congr_left fun e _ => testWatch_team ..

theorem memoryOnly_homePut (s : State) (line : Nat) (es : List (Nat × Byte)) : MemoryOnly s (homePut s line es) := by
  unfold homePut
  split
  · exact .refl s
  · refine ⟨rfl, rfl, ?_⟩
    simp only [List.map_map]
    refine List.map_congr_left fun e _ => ?_
    simp only [Function.comp_apply]
    split
    · exact testWatch_team ..
    · rfl

theorem memoryOnly_onDie (s : State) (die : Nat) (f : Die → Die) : MemoryOnly s (s.onDie die f) := ⟨rfl, rfl, rfl⟩

theorem memoryOnly_setLoan (s : State) (die : Nat) (l : CLine) : MemoryOnly s (setLoan s die l) := memoryOnly_onDie ..

theorem memoryOnly_returnLoan (s : State) (die : Nat) (l : CLine) : MemoryOnly s (returnLoan s die l) := by
  refine (memoryOnly_homePut s l.line l.dirtyBytes).trans ?_
  unfold returnLoan
  dsimp only
  split <;> exact ⟨rfl, rfl, rfl⟩

theorem memoryOnly_dropReturned (s : State) (die : Nat) (l : CLine) : MemoryOnly s (dropLoan (returnLoan s die l) die l.line) :=
  (memoryOnly_returnLoan s die l).trans (memoryOnly_onDie ..)

theorem memoryOnly_makeRoom (s : State) (die line : Nat) : MemoryOnly s (makeRoom s die line) := by
  unfold makeRoom
  dsimp only
  split
  · exact .refl s
  · split
    · exact memoryOnly_dropReturned ..
    · exact ⟨rfl, rfl, rfl⟩

theorem memoryOnly_l2Put (s : State) (die home line : Nat) (es : List (Nat × Byte)) (poison : Bool) :
    MemoryOnly s (l2Put s die home line es poison) := by
  unfold l2Put
  split
  · refine (memoryOnly_homePut s line es).trans ?_
    dsimp only
    split <;> exact ⟨rfl, rfl, rfl⟩
  · exact (memoryOnly_makeRoom s die line).trans ⟨rfl, rfl, rfl⟩

theorem memoryOnly_l2Read (s : State) (die home line : Nat) : MemoryOnly s (l2Read s die home line).2.2 := by
  unfold l2Read
  dsimp only
  split
  · exact .refl s
  · refine MemoryOnly.trans (memoryOnly_forEach _ s _ fun u l => ?_) ((memoryOnly_makeRoom _ die line).trans (memoryOnly_setLoan ..))
    split
    · exact memoryOnly_dropReturned ..
    · exact .refl u

theorem memoryOnly_readLine (s : State) (die : Nat) (e : W64) (pa : Nat) : MemoryOnly s (readLine s die e pa).2.2 := by
  unfold readLine
  split
  · exact .refl s
  · exact memoryOnly_l2Read ..

end Sys2Proof.TeamLife

/-! PROOFS. The ends of teams and launches (R144, R318, R334) keep the record of which waves of a team have retired. -/

namespace Sys2Proof.TeamLife

open Sys2Proof.Machine Sys2Proof.Safety Sys2Proof.Laws

/-! ## The record -/

/-- The waves that each team has retired, by number. -/
def retired (s : State) (k : Nat) : List Nat := (s.team k).retiredWaves

theorem retired_of_teams {s u : State} (h : u.teams = s.teams) : retired u = retired s := by
  funext k
  simp only [retired, State.team, h]

theorem retired_of_map {s u : State} (g : Nat × Team → Nat × Team) (h : u.teams = s.teams.map g) (key : ∀ e, (g e).1 = e.1)
    (same : ∀ e, (g e).2.retiredWaves = e.2.retiredWaves) : retired u = retired s := by
  funext k
  simp only [retired, State.team, h, tgetD, tget_map s.teams g key]
  cases tget s.teams k with
  | none => rfl
  | some x => exact same (k, x)

theorem retired_onTeam (s : State) (t : Nat) (f : Team → Team) (h : ∀ x, (f x).retiredWaves = x.retiredWaves) :
    retired (s.onTeam t f) = retired s := by
  funext k
  by_cases hk : k = t
  · subst hk; simp [retired, h]
  · simp [retired, hk]

/-- A fold that carries a state keeps the record where each of its steps does. -/
theorem retired_foldl {α γ : Type} (get : γ → State) (l : List α) (x : γ) (f : γ → α → γ)
    (h : ∀ y a, retired (get (f y a)) = retired (get y)) : retired (get (l.foldl f x)) = retired (get x) := by
  induction l generalizing x with
  | nil => rfl
  | cons a l ih => exact (ih (f x a)).trans (h x a)

theorem retired_forEach {α : Type} (l : List α) (s : State) (f : State → α → State) (h : ∀ u a, retired (f u a) = retired u) :
    retired (forEach l s f) = retired s := retired_foldl id l s f h

theorem retired_of_memoryOnly {s u : State} (h : MemoryOnly s u) : retired u = retired s := retired_of_teams h.teams

@[simp] theorem retired_onCore (s : State) (c : Nat) (f : Core → Core) : retired (s.onCore c f) = retired s := retired_of_teams rfl
@[simp] theorem retired_onWave (s : State) (c k : Nat) (f : Wave → Wave) : retired (s.onWave c k f) = retired s := retired_of_teams rfl
@[simp] theorem retired_onLane (s : State) (c : Nat) (r : LaneRef) (f : Lane → Lane) : retired (s.onLane c r f) = retired s :=
  retired_of_teams rfl
@[simp] theorem retired_onDie (s : State) (d : Nat) (f : Die → Die) : retired (s.onDie d f) = retired s := retired_of_teams rfl
@[simp] theorem retired_onCarrel (s : State) (d c : Nat) (f : Carrel → Carrel) : retired (s.onCarrel d c f) = retired s :=
  retired_of_teams rfl
@[simp] theorem retired_onCtx (s : State) (k : Nat) (f : Ctx → Ctx) : retired (s.onCtx k f) = retired s := retired_of_teams rfl
@[simp] theorem retired_onCmd (s : State) (k : Nat) (f : Cmd → Cmd) : retired (s.onCmd k f) = retired s := retired_of_teams rfl
@[simp] theorem retired_onLaunch (s : State) (k : Nat) (f : Launch → Launch) : retired (s.onLaunch k f) = retired s :=
  retired_of_teams rfl
@[simp] theorem retired_onSession (s : State) (n : Nat) (f : Session → Session) : retired (s.onSession n f) = retired s :=
  retired_of_teams rfl
@[simp] theorem retired_tell (s : State) (n ty : Nat) (bs : List Byte) : retired (s.tell n ty bs) = retired s := retired_of_teams rfl
@[simp] theorem retired_send (s : State) (p vc : Nat) (m : Out) : retired (s.send p vc m) = retired s := retired_of_teams rfl
@[simp] theorem retired_event (s : State) (n : Nat) (bs : List Byte) : retired (s.event n bs) = retired s := by
  simp [State.event, apply_ite retired]

/-! ## Memory, faults and translations (R180, R341, R350) -/

@[simp] theorem retired_homeWrite (s : State) (pa : Nat) (bs : List Byte) : retired (homeWrite s pa bs) = retired s :=
  retired_of_teams (memoryOnly_homeWrite s pa bs).teams

@[simp] theorem retired_returnLoan (s : State) (die : Nat) (l : CLine) : retired (returnLoan s die l) = retired s :=
  retired_of_teams (memoryOnly_returnLoan s die l).teams

@[simp] theorem retired_l2Put (s : State) (die home line : Nat) (es : List (Nat × Byte)) (poison : Bool) :
    retired (l2Put s die home line es poison) = retired s := retired_of_teams (memoryOnly_l2Put s die home line es poison).teams

@[simp] theorem retired_readLine (s : State) (die : Nat) (e : W64) (pa : Nat) : retired (readLine s die e pa).2.2 = retired s :=
  retired_of_teams (memoryOnly_readLine s die e pa).teams

@[simp] theorem retired_countEv (s : State) (t ev n : Nat) : retired (countEv s t ev n) = retired s := by
  unfold countEv
  split
  · exact retired_onTeam s t _ fun _ => rfl
  · rfl

@[simp] theorem retired_inOrder (s : State) (kind rank : Nat) : retired (s.inOrder kind rank) = retired s := by
  unfold State.inOrder
  split
  · split
    · exact retired_of_teams rfl
    · split <;> exact retired_of_teams rfl
  · exact retired_of_teams rfl

@[simp] theorem retired_dockPut (s : State) (ctx : Nat) (bs : List Byte) : retired (dockPut s ctx bs) = retired s := by
  simp [dockPut, apply_ite retired]

@[simp] theorem retired_dockFault (s : State) (ctx t : Nat) (e : DockEntry) : retired (dockFault s ctx t e).2 = retired s := by
  rw [dockFault, ← retired_inOrder s (faultOrder ctx) (if e.core == 0xFF then 2 ^ 16 + e.die else 256 * e.die + e.core)]
  generalize s.inOrder (faultOrder ctx) _ = u
  simp only [apply_ite Prod.snd]
  split
  · rw [retired_countEv, retired_dockPut]
  · split
    · rw [retired_tell, retired_onCtx, retired_homeWrite]
    · rw [retired_onCtx, retired_homeWrite]

@[simp] theorem retired_tagFrame (s : State) (asid : Nat) (e : W64) (level va : Nat) :
    retired (tagFrame s asid e level va) = retired s := by
  unfold tagFrame
  dsimp only
  split
  · rfl
  · exact retired_of_teams rfl

@[simp] theorem retired_translate (s : State) (die asid va : Nat) (write : Bool) :
    retired (Machine.translate s die asid va write).2 = retired s := by
  have leased (e : W64) (level : Nat) (ls : List Lease) :
      retired { tagFrame s asid e level va with leases := ls } = retired s := (retired_of_teams rfl).trans (retired_tagFrame ..)
  rw [Machine.translate, translateWith]
  cases walk s asid va with
  | none => cases leaseOf s die asid va <;> simp [apply_ite Prod.snd]
  | some x =>
    cases x with
    | none => cases leaseOf s die asid va <;> simp [apply_ite Prod.snd]
    | some x => cases leaseOf s die asid va <;> simp [apply_ite Prod.snd, apply_ite retired, leased]

@[simp] theorem retired_translateFor (s : State) (t die asid va : Nat) (write : Bool) :
    retired (translateFor s t die asid va write).2 = retired s := by
  simp [translateFor, apply_ite retired]

/-! ## Write-backs (R173, R180) -/

@[simp] theorem retired_feedEarlier (s : State) (core asid line : Nat) (e : W64) (pa : Nat) :
    retired (feedEarlier s core asid line e pa) = retired s := by
  simp [feedEarlier, apply_ite retired]

/-- What a call keeps, its answer's state has kept. -/
theorem retired_of_answer {α : Type} {x : α × State} {a : α} {s u : State} (answer : x = (a, u)) (kept : retired x.2 = retired s) :
    retired u = retired s := by
  rw [← kept, answer]

@[simp] theorem retired_writeBack (s : State) (core : Nat) (l : CLine) : retired (writeBack s core l).2 = retired s := by
  have kept {x : Machine.Trans} {u : State}
      (walked : translateFor s l.lastWriter (dieOf core) l.asid (l.line * 128) true = (x, u)) : retired u = retired s :=
    retired_of_answer walked (retired_translateFor ..)
  fun_cases writeBack s core l with
  | case1 => rfl
  | case3 _ _ _ _ _ _ fed put clean marked _ _ walked =>
    rw [retired_onCtx, ← kept walked]
    simp only [marked, clean, put, fed, apply_ite retired, retired_onCore, retired_l2Put, retired_feedEarlier, ite_self]
  | case5 _ _ _ _ _ _ _ faulted walked =>
    rw [retired_onCore, ← kept walked]
    exact retired_of_answer faulted (retired_dockFault ..)
  | case2 _ _ _ _ _ _ walked | case4 _ _ _ _ walked | case6 _ _ _ _ walked | case7 _ _ _ _ _ walked | case8 _ _ _ _ walked =>
    exact kept walked

@[simp] theorem retired_writeBackAll (s : State) (core : Nat) (ls : List CLine) :
    retired (writeBackAll s core ls).2.2 = retired s := by
  refine retired_foldl (fun acc : List Nat × List (CLine × Nat) × State => acc.2.2) ls ([], [], s) _ fun acc l => ?_
  have back := retired_writeBack acc.2.2 core l
  generalize writeBack acc.2.2 core l = x at back ⊢
  obtain ⟨r, u⟩ := x
  cases r <;> exact back

end Sys2Proof.TeamLife

/-! PROOFS. The ends of launches and of teams (R144, R318, R334) keep the record of the waves that have retired. -/

namespace Sys2Proof.TeamLife

open Sys2Proof.Machine Sys2Proof.Safety Sys2Proof.Laws

/-! ## Episodes (R318) -/

@[simp] theorem retired_accAppend (s : State) (ctx start len die core cls src : Nat) :
    retired (accAppend s ctx start len die core cls src) = retired s := by
  simp [accAppend, apply_ite retired]

@[simp] theorem retired_releasePkg (s : State) (ctx die core : Nat) (conf : Option (Nat × Nat)) :
    retired (releasePkg s ctx die core conf) = retired s := by
  simp [releasePkg, apply_ite retired, retired_forEach]

@[simp] theorem retired_dropPending (s : State) (core salt : Nat) (isD : Dest → Bool) :
    retired (dropPending s core salt isD) = retired s := by
  simp [dropPending, apply_ite retired]

@[simp] theorem retired_write (s : State) (core : Nat) (d : Dest) : retired (d.write s core) = retired s := by
  cases d <;> simp [Dest.write, writeV, putV, writeS, putS, writeP, putP, apply_ite retired]

@[simp] theorem retired_writeP (s : State) (core : Nat) (r : LaneRef) (i : Nat) (b : Bool) : retired (writeP s core r i b) = retired s :=
  retired_write s core (.p r i b)

@[simp] theorem retired_finishWait (s : State) (core : Nat) (w : Wait) : retired (finishWait s core w) = retired s := by
  simp [finishWait, dropWait, retired_forEach]

@[simp] theorem retired_deliverPop (s : State) (core : Nat) (w : Wait) (e : List Byte) : retired (deliverPop s core w e) = retired s := by
  unfold deliverPop
  split
  · simp [retired_forEach]
  · simp [setWait, setBlock, retired_forEach]
  · rfl

@[simp] theorem retired_completeAccesses (s : State) (die c : Nat) : retired (completeAccesses s die c) = retired s := by
  unfold completeAccesses
  refine (retired_forEach _ _ _ fun u x => retired_forEach _ u _ fun u w => ?_).trans
    (retired_of_map _ rfl (fun _ => rfl) fun _ => rfl)
  split
  · simp [apply_ite retired]
  · simp [apply_ite retired]
  · simp [apply_ite retired]
  · rfl

@[simp] theorem retired_freeBindings (s : State) (die c : Nat) : retired (freeBindings s die c) = retired s :=
  retired_of_map _ rfl (fun _ => rfl) fun _ => rfl

@[simp] theorem retired_freeCarrel (s : State) (die c : Nat) : retired (freeCarrel s die c) = retired s := by
  unfold freeCarrel
  refine (retired_forEach _ _ _ fun u x => retired_forEach _ u _ fun u w => ?_).trans
    (retired_of_map _ rfl (fun _ => rfl) fun _ => rfl)
  split
  · refine (retired_finishWait ..).trans (retired_forEach _ u _ fun u r => ?_)
    split
    · exact retired_writeP ..
    · rfl
  · rfl

@[simp] theorem retired_zeroHome (s : State) (pa n : Nat) : retired (zeroHome s pa n) = retired s := retired_of_teams rfl

/-- One page of a scrub, before whatever the scrub of the pages behind it does. It speaks of the function that `scrubGo` recurs
through, with `dockFault` held by a name: to check an equation of `scrubGo` the kernel would compute a fault of an unknown state. -/
theorem retired_scrubPage (m : Nat) (f : Nat.below (motive := fun _ => State → Nat → Nat → Nat → Bool × State) m)
    (rest : ∀ n, (h : m = n + 1) → ∀ s die c off, retired ((h ▸ f).1 s die c off).2 = retired s) (s : State) (die c off : Nat) :
    retired (scrubGo._f m f s die c off).2 = retired s := by
  obtain ⟨fault, named⟩ : ∃ fault, dockFault = fault := ⟨_, rfl⟩
  have faulted : ∀ s ctx t e, retired (fault s ctx t e).2 = retired s := named ▸ retired_dockFault
  delta scrubGo._f
  rw [named]
  split
  · rfl
  next n =>
    replace rest : ∀ s die c off, retired (f.1 s die c off).2 = retired s := rest n rfl
    extract_lets k
    split
    · rfl
    · split
      next t u walked =>
      have kept : retired u = retired s := retired_of_answer walked (retired_translate ..)
      split
      · simp only [rest, dropLoansIn, apply_ite retired, retired_onDie, retired_zeroHome, ite_self, kept]
      · exact (retired_onCarrel ..).trans ((faulted ..).trans kept)
      · rw [rest, kept]

@[simp] theorem retired_scrubGo (n : Nat) (s : State) (die c off : Nat) : retired (scrubGo n s die c off).2 = retired s := by
  have pages (n : Nat) (s : State) (die c off : Nat) :
      retired ((Nat.brecOn.go (motive := fun _ => State → Nat → Nat → Nat → Bool × State) n scrubGo._f).1 s die c off).2 =
        retired s := by
    induction n generalizing s die c off with
    | zero => rfl
    | succ n ih => exact retired_scrubPage (n + 1) _ (fun k h => by cases h; exact ih) s die c off
  delta scrubGo
  exact pages n s die c off

@[simp] theorem retired_scrub (s : State) (die c : Nat) : retired (scrub s die c).2 = retired s := by
  simp [scrub, apply_ite Prod.snd, apply_ite retired]

@[simp] theorem retired_closeEpisode (s : State) (die c : Nat) : retired (closeEpisode s die c).2 = retired s := by
  simp [closeEpisode]

/-! ## The end of a launch (R144, R387) -/

@[simp] theorem retired_endLaunch (s : State) (l : Nat) : retired (endLaunch s l) = retired s := by
  have closed : retired (forEach (episodesOf s l) s fun s e =>
      if (s.carrel e.1 e.2).scrub.isNone then (closeEpisode s e.1 e.2).2 else s) = retired s :=
    retired_forEach _ _ _ fun u e => by simp [apply_ite retired]
  unfold endLaunch
  split
  · rfl
  · extract_lets u x ctx v w
    have kept : retired w = retired s :=
      (retired_onLaunch ..).trans ((retired_forEach _ u _ fun a d => retired_releasePkg a ctx d (80 * d) none).trans closed)
    split
    · exact closed
    · split
      · exact (retired_event ..).trans kept
      · exact kept

@[simp] theorem retired_teamDone (s : State) (t : Nat) : retired (teamDone s t) = retired s := by simp [teamDone]

/-! ## What a team holds (R144, R334) -/

@[simp] theorem retired_releaseMse (s : State) (core id : Nat) : retired (releaseMse s core id) = retired s := by
  unfold releaseMse
  dsimp only
  split <;> simp

@[simp] theorem retired_dropPrivate (s : State) (core slot : Nat) : retired (dropPrivate s core slot) = retired s := by
  simp [dropPrivate, retired_forEach]

@[simp] theorem retired_releaseHold (s : State) (k : Nat) : retired (releaseHold s k) = retired s := by
  unfold releaseHold
  split
  · simp [releaseHoldAt]
  · rfl

@[simp] theorem retired_releaseHolds (s : State) (t : Nat) (cmds : List Nat) : retired (releaseHolds s t cmds) = retired s := by
  unfold releaseHolds
  exact (retired_of_teams rfl).trans ((retired_forEach _ _ _ fun u h => retired_homeWrite ..).trans
    (retired_forEach _ s _ retired_releaseHold))

@[simp] theorem retired_stopCmds (s : State) (t : Nat) (claims : Bool) : retired (stopCmds s t claims) = retired s := by
  rw [← retired_releaseHolds s t (cmdsOf s t)]
  unfold stopCmds
  dsimp only
  split <;> exact retired_of_teams rfl

@[simp] theorem retired_freeTeam (s : State) (t : Nat) (st : TeamStatus) : retired (freeTeam s t st) = retired s := by
  unfold freeTeam
  extract_lets team slots u cmds v w
  refine (retired_onTeam w t _ ?_).trans ?_
  · exact fun _ => rfl
  · simp only [w, v, u, retired_onCore, retired_stopCmds, retired_forEach, retired_dropPrivate, implies_true]

/-! ## Collectives (R378) -/

@[simp] theorem retired_endMembers (s : State) (mine : Nat × Cmd → Bool) : retired (endMembers s mine) = retired s :=
  retired_of_teams rfl

@[simp] theorem retired_abortSeq (s : State) (key : Nat) (slot : Option Nat) (seq : Option W32) :
    retired (abortSeq s key slot seq) = retired s := by
  unfold abortSeq
  split
  · simp [retired_forEach]
  · rfl

@[simp] theorem retired_abortColls (s : State) (t : Nat) : retired (abortColls s t) = retired s :=
  retired_forEach _ s _ fun u x => by simp [apply_ite retired]

/-! ## Terminations (R334, R335) -/

@[simp] theorem retired_endTeamLines (s : State) (t : Nat) : retired (endTeamLines s t).2 = retired s := by
  simp [endTeamLines, dropLine, retired_forEach]

@[simp] theorem retired_closeLaunches (s : State) (t fdom : Nat) : retired (closeLaunches s t fdom) = retired s := by
  unfold closeLaunches
  dsimp only
  split
  · rfl
  · exact (retired_of_teams rfl).trans (retired_forEach _ s _ fun u k => retired_onLaunch u k _)

@[simp] theorem retired_writeReport (s : State) (t : Nat) (e : DockEntry) (fdom : Nat) :
    retired (writeReport s t e fdom).2 = retired s := by
  obtain ⟨fault, named⟩ : ∃ fault, dockFault = fault := ⟨_, rfl⟩
  have faulted : ∀ s ctx t e, retired (fault s ctx t e).2 = retired s := named ▸ retired_dockFault
  delta writeReport
  rw [named]
  exact faulted ..

@[simp] theorem retired_holdTeam (s : State) (t : Nat) : retired (holdTeam s t) = retired s := by
  unfold holdTeam
  dsimp only
  rw [retired_stopCmds, retired_onTeam _ t _ fun x => by split <;> rfl, retired_abortColls]

@[simp] theorem retired_terminateOne (s : State) (x : Ending) : retired (terminateOne s x).2 = retired s := by
  obtain ⟨report, named⟩ : ∃ report, writeReport = report := ⟨_, rfl⟩
  have reported : ∀ s t e fdom, retired (report s t e fdom).2 = retired s := named ▸ retired_writeReport
  delta terminateOne
  rw [named]
  extract_lets t dom coreOf ts u fold
  have ended (acc : List (CLine × Nat) × State) (k : Nat) : retired (fold acc k).2 = retired acc.2 := by
    simp only [fold, retired_teamDone, retired_endTeamLines]
  split
  next v before =>
  have kept : retired v = retired s :=
    (retired_of_answer before (retired_foldl Prod.snd _ ([], u) fold ended)).trans (retired_closeLaunches ..)
  split
  next room w written =>
  replace kept : retired w = retired s := (retired_of_answer written (reported ..)).trans kept
  split
  next y after =>
  replace kept : retired y = retired s := by
    refine (retired_of_answer after (retired_foldl Prod.snd _ _ _ fun acc k => ?_)).trans kept
    split
    · exact retired_holdTeam ..
    · exact ended acc k
  refine (retired_forEach _ y _ ?_).trans kept
  exact fun _ _ => retired_endLaunch ..

theorem retired_terminateAll (n : Nat) (s : State) (xs : List Ending) : retired (terminateAll n s xs) = retired s := by
  induction n generalizing s xs with
  | zero => rfl
  | succ n ih =>
    cases xs with
    | nil => rfl
    | cons x xs =>
      rw [terminateAll]
      simp only [ih, apply_ite retired, retired_terminateOne, ite_self]

@[simp] theorem retired_terminateAccess (s : State) (t source code addr : Nat) (write : Bool) :
    retired (terminateAccess s t source code addr write) = retired s := retired_terminateAll ..

@[simp] theorem retired_takeSamples (s : State) (core : Nat) (p : Pend) (which : RdSample → Bool) :
    retired (takeSamples s core p which) = retired s := by
  simp [takeSamples, onPend, apply_ite retired]

@[simp] theorem retired_sampleWave (s : State) (core slot : Nat) : retired (sampleWave s core slot) = retired s :=
  retired_forEach _ s _ fun u p => retired_takeSamples u core p _

end Sys2Proof.TeamLife

/-! PROOFS. Retirement, pre-emption and the save of a team (R144, R345). -/

namespace Sys2Proof.TeamLife

open Sys2Proof.Machine Sys2Proof.Safety Sys2Proof.Laws

/-! ## Tables -/

theorem mem_of_tget {α : Type} {t : Tbl α} {k : Nat} {x : α} (h : tget t k = some x) : (k, x) ∈ t := by
  induction t with
  | nil => simp [tget] at h
  | cons e t ih =>
    obtain ⟨i, y⟩ := e
    by_cases hi : i = k
    · subst hi
      simp only [tget, beq_self_eq_true, if_true, Option.some.injEq] at h
      simp [h]
    · simp only [tget, beq_eq_false_iff_ne.mpr hi, Bool.false_eq_true, if_false] at h
      exact List.mem_cons_of_mem _ (ih h)

/-- A table without the keys of a list has no entry of any of them. -/
theorem tget_filter_not_mem {α : Type} (t : Tbl α) {ks : List Nat} {k : Nat} (h : k ∈ ks) :
    tget (t.filter fun e => !ks.contains e.1) k = none := by
  cases found : tget (t.filter fun e => !ks.contains e.1) k with
  | none => rfl
  | some x => simpa [h] using (List.mem_filter.mp (mem_of_tget found)).2

theorem tget_foldl_tset_other {α β : Type} (key : β → Nat) (val : β → α) (l : List β) (m : Tbl α) {j : Nat}
    (h : ∀ b ∈ l, key b ≠ j) : tget (l.foldl (fun m b => tset m (key b) (val b)) m) j = tget m j := by
  induction l generalizing m with
  | nil => rfl
  | cons b l ih =>
    rw [List.foldl_cons, ih _ fun c hc => h c (List.mem_cons_of_mem _ hc),
      tget_tset_other _ _ (h b (List.mem_cons_self ..)).symm]

/-- Entries set one after the other under distinct keys are all there. -/
theorem tget_foldl_tset {α β : Type} (key : β → Nat) (val : β → α) (l : List β) (m : Tbl α) (distinct : (l.map key).Nodup)
    {b : β} (h : b ∈ l) : tget (l.foldl (fun m b => tset m (key b) (val b)) m) (key b) = some (val b) := by
  induction l generalizing m with
  | nil => simp at h
  | cons c l ih =>
    obtain ⟨hc, hl⟩ := List.nodup_cons.mp distinct
    rw [List.foldl_cons]
    rcases List.mem_cons.mp h with rfl | hb
    · rw [tget_foldl_tset_other key val l _ fun d hd same => hc (by rw [← same]; exact List.mem_map_of_mem hd), tget_tset_same]
    · exact ih _ hl hb

/-! ## Retirement (R144) -/

theorem waveOver_iff (c : Core) (slot : Nat) (w : Wave) : waveOver c slot w = true ↔
    (∀ e ∈ w.lanes, e.2.exited = true) ∧ (∀ p ∈ c.pends, ∀ r ∈ p.lanes, r.slot ≠ slot) ∧
      ∀ x ∈ c.waits, ∀ r ∈ x.lanes, r.slot ≠ slot := by
  simp [waveOver, and_assoc]

/-- A wave that is over leaves its slot, and its number joins those its team has retired, whatever the samples that are taken from
it first may end (R95, R192). -/
theorem exec_waveRetire {s : State} {core slot : Nat} {w : Wave} (held : tget (s.core core).waves slot = some w)
    (live : s.live w.team = true) (ended : waveOver (s.core core) slot w = true) (half : s.now % 2 = 1) :
    ∃ t, exec (.waveRetire core slot) s = .next t ∧ tget (t.core core).waves slot = none ∧
      (t.team w.team).retiredWaves = (s.team w.team).retiredWaves ++ [w.number] ∧ slot ∉ (t.team w.team).slots := by
  have arm : exec (.waveRetire core slot) s = execWaveRetire core slot s := rfl
  have late : s.lateHalf = true := by simp [State.lateHalf, half]
  have kept : retired (dropPrivate (sampleWave s core slot) core slot) w.team = retired s w.team := by simp
  rw [arm, execWaveRetire]
  simp only [held, live, ended, late, Bool.not_true, Bool.or_self, Bool.false_eq_true, if_false]
  generalize dropPrivate (sampleWave s core slot) core slot = u at kept ⊢
  refine ⟨_, rfl, ?_, ?_, ?_⟩
  · rw [core_of_cores (onTeam_cores ..), core_onCore_same]
    exact MatrixQueue.tget_tdel_same ..
  · rw [team_onTeam_same]
    exact congrArg (· ++ [w.number]) kept
  · rw [team_onTeam_same]
    simp

theorem exec_teamRetire {s u : State} {team : Nat} (known : (tget s.teams team).isSome) (live : s.live team = true)
    (ended : teamOver s team = true) (half : s.now % 2 = 1)
    (back : writeBackAll s (s.team team).core (teamDirty s team) = ([], [], u)) :
    exec (.teamRetire team) s = .next (teamDone (freeTeam u team .retired) team) := by
  have arm : exec (.teamRetire team) s = execTeamRetire team s := rfl
  have late : s.lateHalf = true := by simp [State.lateHalf, half]
  have there : (tget s.teams team).isNone = false := by simpa using known
  rw [arm, execTeamRetire]
  simp only [there, live, ended, late, back, Bool.not_true, Bool.or_self, Bool.false_eq_true, List.isEmpty_nil, if_true, if_false]

/-! ## Pre-emption (R345) -/

theorem exec_preemptTeam_stops {s : State} {team : Nat} (live : s.live team = true) (runs : (s.team team).stopping = false)
    (victim : isVictim s team = true) :
    exec (.preemptTeam team) s = .next (endSleeps (s.onTeam team fun x => { x with stopping := true }) team) := by
  have arm : exec (.preemptTeam team) s = execPreemptTeam team s := rfl
  rw [arm, execPreemptTeam]
  simp only [live, runs, victim, Bool.not_true, Bool.not_false, Bool.false_eq_true, if_true, if_false]

theorem exec_preemptTeam_saves {s e u : State} {team : Nat} {held : List Nat} (live : s.live team = true)
    (stops : (s.team team).stopping = true) (awake : endSleeps s team = e) (half : e.now % 2 = 1) (rest : atRest e team = true)
    (room : saveRoom e team = true) (back : writeBackAll e (e.team team).core (teamDirty e team) = (held, [], u)) :
    exec (.preemptTeam team) s = .next (saveTeam u team) := by
  have arm : exec (.preemptTeam team) s = execPreemptTeam team s := rfl
  have late : e.lateHalf = true := by simp [State.lateHalf, half]
  rw [arm, execPreemptTeam]
  simp only [live, stops, awake, late, rest, room, back, Bool.not_true, Bool.or_self, Bool.false_eq_true, List.isEmpty_nil, if_false]

/-! ## The save (R345) -/

theorem dropPrivate_teams (s : State) (core slot : Nat) : (dropPrivate s core slot).teams = s.teams := by
  have released (u : State) (id : Nat) : (releaseMse u core id).teams = u.teams := by
    unfold releaseMse
    dsimp only
    split <;> rfl
  exact forEach_keeps (fun u => u.teams = s.teams) _ _ _ rfl fun u m _ hu => (released u m.id).trans hu

theorem leaveCore_waves (c : Core) (x : Team) (t : Nat) (slots cmds fs ts : List Nat) :
    (leaveCore c x t slots cmds fs ts).waves = c.waves.filter fun e => !slots.contains e.1 := by
  have zeroed : (fs.foldl zeroFolio c).waves = c.waves := by
    induction fs generalizing c with
    | nil => rfl
    | cons k fs ih => exact ih (zeroFolio c k)
  simp only [leaveCore, zeroed]

/-- What a save leaves: the team under its own name with its waves by number, and its core without its slots. -/
theorem saveTeam_eq (s : State) (t : Nat) : ∃ (u : State) (f : Team → Team) (g : Core → Core),
    saveTeam s t = (forEach (slotsOf s t) (u.onTeam t f) fun s' k => dropPrivate s' (s.team t).core k).onCore (s.team t).core g ∧
    (∀ x, (f x).status = .saved ∧ (f x).slots = [] ∧ (f x).scratch = [] ∧ (f x).savedWaves =
      (slotsOf s t).foldl (fun m k => tset m (s.wave (s.team t).core k).number (s.wave (s.team t).core k)) []) ∧
    ∀ c, (g c).waves = c.waves.filter fun e => !(slotsOf s t).contains e.1 :=
  ⟨_, _, _, rfl, fun _ => ⟨rfl, rfl, rfl, rfl⟩, fun c => leaveCore_waves c ..⟩

/-- A save keeps every wave whole under its number, and takes it from the core. -/
theorem saveTeam_keeps (s : State) (t : Nat) (distinct : ((slotsOf s t).map fun k => (s.wave (s.team t).core k).number).Nodup) :
    ((saveTeam s t).team t).status = .saved ∧ ((saveTeam s t).team t).slots = [] ∧ ((saveTeam s t).team t).scratch = [] ∧
    ∀ k ∈ slotsOf s t,
      tget ((saveTeam s t).team t).savedWaves (s.wave (s.team t).core k).number = some (s.wave (s.team t).core k) ∧
      tget ((saveTeam s t).core (s.team t).core).waves k = none := by
  obtain ⟨u, f, g, saved, team, core⟩ := saveTeam_eq s t
  obtain ⟨status, slots, scratch, waves⟩ := team (u.team t)
  have own : (saveTeam s t).team t = f (u.team t) := by
    have same : (forEach (slotsOf s t) (u.onTeam t f) fun s' k => dropPrivate s' (s.team t).core k).teams = (u.onTeam t f).teams :=
      forEach_keeps (fun v => v.teams = (u.onTeam t f).teams) _ _ _ rfl fun v k _ hv => (dropPrivate_teams v _ k).trans hv
    rw [saved, ← team_onTeam_same u t f]
    exact congrArg (fun ts => tgetD ts t default) same
  rw [own]
  refine ⟨status, slots, scratch, fun k hk => ⟨?_, ?_⟩⟩
  · rw [waves]
    exact tget_foldl_tset (fun k => (s.wave (s.team t).core k).number) (fun k => s.wave (s.team t).core k) _ [] distinct hk
  · rw [saved, core_onCore_same, core]
    exact tget_filter_not_mem _ hk

end Sys2Proof.TeamLife

/-! PROOFS. The restore of a team (R345, R346), and the statement. -/

namespace Sys2Proof.TeamLife

open Sys2Proof.Machine Sys2Proof.Safety Sys2Proof.Laws Sys2Proof.Control

/-! ## What a restore leaves alone -/

/-- A restored area of a wave (R345) reaches memory, and nothing else. -/
theorem memoryOnly_restorePriv (s : State) (t core wave slot : Nat) : MemoryOnly s (restorePriv s t core wave slot) := by
  refine memoryOnly_forEach _ s _ fun u i => ?_
  extract_lets va
  split
  · split
    · split
      · exact .refl u
      · exact memoryOnly_l2Put ..
    · exact .refl u
  · exact .refl u

/-- A team whose waves have no areas of their own has no lines of them to restore. -/
theorem restorePriv_of_no_priv (s : State) (t core wave slot : Nat) (h : (teamPkt s t).priv = 0) :
    restorePriv s t core wave slot = s := by
  simp [restorePriv, privLines, h]

section NoWork

variable {s : State} {t core : Nat}

/-- The commands of a restored team go on; a team that has none leaves the state as it is. -/
theorem commands_go_on_of_none (none : ∀ e ∈ s.cmds, e.2.team ≠ t) : deliverDone (retryCmds (requeue s t) t) t = s := by
  have other {e : Nat × Cmd} (he : e ∈ s.cmds) : (e.2.team == t) = false := beq_eq_false_iff_ne.mpr (none e he)
  have queued : requeue s t = s := forEach_fixed _ s _ fun e he => by simp [other he]
  have retried : retryCmds s t = s := forEach_fixed _ s _ fun e he => by simp [other he]
  rw [queued, retried]
  exact forEach_fixed _ s _ fun e he => by simp [other he]

theorem deliverGranted_of_no_waits (h : (s.core core).waits = []) (slots : List Nat) : deliverGranted s core slots = s := by
  simp [deliverGranted, h]

theorem settleFences_of_no_waits (h : (s.core core).waits = []) : settleFences s core = s := by
  simp [settleFences, h]

theorem refile_of_none_filed {slots : List Nat}
    (h : ∀ k ∈ slots, ∀ e ∈ (s.wave core k).lanes, e.2.block ≠ .filed ∧ e.2.block ≠ .reform) : refile s t core slots = s := by
  have unfiled : (slots.flatMap fun k => ((s.wave core k).lanes.filter fun e => e.2.block == .filed || e.2.block == .reform).map
      fun e => (⟨k, e.1⟩ : LaneRef)) = [] := by
    simpa using h
  unfold refile
  rw [unfiled]
  rfl

end NoWork

/-! ## The restored team -/

/-- Memory and tiles as a restore brings them back. -/
def restoredMemory (s : State) (t : Nat) : State :=
  forEach (savedTileNos (s.team t)) (forEach (newSlots s t) s fun u e => restorePriv u t (s.team t).core e.1 e.2)
    fun u k => restoreTile u t (s.team t).core k

/-- The commands, the words and the filed threads of a team that stands in its slots again go on. -/
def goesOnAgain (s : State) (t core : Nat) (slots : List Nat) : State :=
  settleFences (refile (deliverGranted (deliverDone (retryCmds (requeue s t) t) t) core slots) t core slots) core

/-- The waves of a core with those of a restored team in their new slots, their areas at the bases that `base` gives. -/
def placedWaves (s : State) (t : Nat) (base : Nat → VA) (ws : Tbl Wave) : Tbl Wave :=
  (newSlots s t).foldl (fun ws e => tset ws e.2 (placedWave (tgetD (s.team t).savedWaves e.1 default) (base e.2))) ws

/-- A restore brings memory back, places the waves, gives the team its scratchpad, and lets its work go on. -/
theorem restoreTeam_eq (s : State) (t : Nat) : ∃ (f : Core → Core) (g : Team → Team) (base : Nat → VA),
    let u := restoredMemory s t
    let v := u.onCore (s.team t).core f
    restoreTeam s t = goesOnAgain (v.onTeam t g) t (s.team t).core ((newSlots s t).map (·.2)) ∧
    (∀ c, (f c).waves = placedWaves s t base (u.core (s.team t).core).waves) ∧
    (∀ c, (s.team t).savedWaits = [] → (f c).waits = c.waits) ∧
    ∀ x, (g x).status = (if x.freeze.isSome then .frozen else .resident) ∧ (g x).slots = (newSlots s t).map (·.2) ∧
      (g x).scratch = memWrites [] 0
        (saveGet v t (saveVa v t (x.saveAt + savedScratchOff (teamPkt s t))) (teamPkt s t).scratch) := by
  refine ⟨_, _, _, rfl, fun c => rfl, fun c none => ?_, fun x => ⟨rfl, rfl, rfl⟩⟩
  simp [none]

/-! ## Its lanes -/

/-- A monitor that is fired at the restore (R345) is no other part of the lane. -/
theorem firedMonitor_keeps {β : Type} (l : Lane) (get : Lane → β) (h : ∀ (l : Lane) m, get { l with lmon := m } = get l) :
    get (firedMonitor l) = get l := by
  unfold firedMonitor
  split
  · exact h l .fired
  · rfl

theorem lane_placedWave (w : Wave) (base : VA) (i : Nat) : (placedWave w base).lane i = firedMonitor (w.lane i) :=
  tgetD_map w.lanes (fun e => (e.1, firedMonitor e.2)) (fun _ => rfl) i default rfl

theorem wave_placedWaves {s : State} {t : Nat} (base : Nat → VA) (ws : Tbl Wave) (distinct : ((newSlots s t).map (·.2)).Nodup)
    {e : Nat × Nat} (h : e ∈ newSlots s t) :
    tgetD (placedWaves s t base ws) e.2 default = placedWave (tgetD (s.team t).savedWaves e.1 default) (base e.2) := by
  have there : tget (placedWaves s t base ws) e.2 = some (placedWave (tgetD (s.team t).savedWaves e.1 default) (base e.2)) :=
    tget_foldl_tset (fun e : Nat × Nat => e.2) (fun e => placedWave (tgetD (s.team t).savedWaves e.1 default) (base e.2)) _ _ distinct h
  simp [tgetD, there]

/-- The lanes of a placed wave are those of a saved one, but for their monitors. -/
theorem blocks_of_placedWave {saved : Tbl Wave} (none : ∀ e ∈ saved, ∀ l ∈ e.2.lanes, l.2.block ≠ .filed ∧ l.2.block ≠ .reform)
    (n : Nat) (base : VA) : ∀ l ∈ (placedWave (tgetD saved n default) base).lanes, l.2.block ≠ .filed ∧ l.2.block ≠ .reform := by
  intro l hl
  obtain ⟨e, he, rfl⟩ := List.mem_map.mp hl
  rw [firedMonitor_keeps e.2 Lane.block fun _ _ => rfl]
  unfold tgetD at he
  cases found : tget saved n with
  | none =>
    rw [found] at he
    exact absurd he (List.not_mem_nil)
  | some w =>
    rw [found] at he
    exact none (n, w) (mem_of_tget found) e he

/-! ## The restore with no work to go on with -/

section AtRest

variable {s : State} {t : Nat} (noWaits : (s.team t).savedWaits = []) (noTiles : (s.team t).tiles = [])

include noWaits noTiles

theorem savedTileNos_of_none : savedTileNos (s.team t) = [] := by
  simp [savedTileNos, noWaits, noTiles, releasing]

theorem memoryOnly_restoredMemory : MemoryOnly s (restoredMemory s t) := by
  rw [restoredMemory, savedTileNos_of_none noWaits noTiles]
  exact memoryOnly_forEach _ s _ fun u e => memoryOnly_restorePriv ..

theorem restoredMemory_of_no_priv (h : (teamPkt s t).priv = 0) : restoredMemory s t = s := by
  rw [restoredMemory, savedTileNos_of_none noWaits noTiles]
  exact forEach_fixed _ s _ fun e _ => restorePriv_of_no_priv s t _ e.1 e.2 h

end AtRest

theorem no_cmds_of_memoryOnly {s u : State} {t : Nat} (same : MemoryOnly s u) (none : ∀ e ∈ s.cmds, e.2.team ≠ t) :
    ∀ e ∈ u.cmds, e.2.team ≠ t := by
  intro e he
  have there : e.2.team ∈ s.cmds.map (·.2.team) := same.cmds ▸ List.mem_map_of_mem he
  obtain ⟨d, hd, team⟩ := List.mem_map.mp there
  exact team ▸ none d hd

theorem goesOnAgain_of_none {s : State} {t core : Nat} {slots : List Nat} (noCmds : ∀ e ∈ s.cmds, e.2.team ≠ t)
    (noWaits : (s.core core).waits = [])
    (noneFiled : ∀ k ∈ slots, ∀ e ∈ (s.wave core k).lanes, e.2.block ≠ .filed ∧ e.2.block ≠ .reform) :
    goesOnAgain s t core slots = s := by
  rw [goesOnAgain, commands_go_on_of_none noCmds, deliverGranted_of_no_waits noWaits, refile_of_none_filed noneFiled,
    settleFences_of_no_waits noWaits]

/-- The save area is read through the team's context and memory, which no change of a core's own state reaches. -/
theorem saveGet_onCore (s : State) (c : Nat) (f : Core → Core) (t va n : Nat) : saveGet (s.onCore c f) t va n = saveGet s t va n :=
  rfl

theorem saveVa_onCore (s : State) (c : Nat) (f : Core → Core) (t off : Nat) : saveVa (s.onCore c f) t off = saveVa s t off := rfl

/-- A team that had no work under way is restored to the places, the waves and the scratchpad that the save area gives. -/
theorem restoreTeam_places {s : State} {t : Nat} (noCmds : ∀ e ∈ s.cmds, e.2.team ≠ t) (noSaved : (s.team t).savedWaits = [])
    (noWaits : (s.core (s.team t).core).waits = []) (noTiles : (s.team t).tiles = [])
    (distinct : ((newSlots s t).map (·.2)).Nodup)
    (noneFiled : ∀ e ∈ (s.team t).savedWaves, ∀ l ∈ e.2.lanes, l.2.block ≠ .filed ∧ l.2.block ≠ .reform) :
    ((restoreTeam s t).team t).status = (if (s.team t).freeze.isSome then .frozen else .resident) ∧
    ((restoreTeam s t).team t).slots = (newSlots s t).map (·.2) ∧
    (∀ e ∈ newSlots s t, ∃ base, (restoreTeam s t).wave (s.team t).core e.2 =
      placedWave (tgetD (s.team t).savedWaves e.1 default) base) ∧
    ((teamPkt s t).priv = 0 → ((restoreTeam s t).team t).scratch = memWrites [] 0
      (saveGet s t (saveVa s t ((s.team t).saveAt + savedScratchOff (teamPkt s t))) (teamPkt s t).scratch)) := by
  obtain ⟨f, g, base, restored, waves, waits, team⟩ := restoreTeam_eq s t
  have memory : MemoryOnly s (restoredMemory s t) := memoryOnly_restoredMemory noSaved noTiles
  have same : (restoredMemory s t).team t = s.team t := congrArg (fun ts => tgetD ts t default) memory.teams
  have core : (((restoredMemory s t).onCore (s.team t).core f).onTeam t g).core (s.team t).core =
      f ((restoredMemory s t).core (s.team t).core) := by
    rw [core_of_cores (onTeam_cores ..), core_onCore_same]
  have wave : ∀ e ∈ newSlots s t, (((restoredMemory s t).onCore (s.team t).core f).onTeam t g).wave (s.team t).core e.2 =
      placedWave (tgetD (s.team t).savedWaves e.1 default) (base e.2) := by
    intro e he
    rw [State.wave, core, Core.wave, waves, wave_placedWaves base _ distinct he]
  have rests : restoreTeam s t = ((restoredMemory s t).onCore (s.team t).core f).onTeam t g := by
    rw [restored]
    refine goesOnAgain_of_none (fun e he => no_cmds_of_memoryOnly memory noCmds e he) ?_ fun k hk => ?_
    · rw [core, waits _ noSaved, core_of_cores memory.cores, noWaits]
    · obtain ⟨e, he, rfl⟩ := List.mem_map.mp hk
      rw [wave e he]
      exact blocks_of_placedWave noneFiled e.1 (base e.2)
  obtain ⟨status, slots, scratch⟩ := team (s.team t)
  have own : (restoreTeam s t).team t = g (s.team t) := by
    rw [rests, team_onTeam_same]
    exact congrArg g same
  rw [own, status, slots, scratch, rests]
  refine ⟨rfl, rfl, fun e he => ⟨base e.2, wave e he⟩, fun priv => ?_⟩
  rw [restoredMemory_of_no_priv noSaved noTiles priv, saveGet_onCore, saveVa_onCore]

theorem exec_teamRestore {s : State} {team : Nat} (half : s.now % 2 = 1) (ready : restorable s team = true)
    (granted : privDenied s team = none) : exec (.teamRestore team) s = .next (restoreTeam s team) := by
  have arm : exec (.teamRestore team) s = execTeamRestore team s := rfl
  have late : s.lateHalf = true := by simp [State.lateHalf, half]
  rw [arm, execTeamRestore]
  simp only [late, ready, granted, Bool.not_true, Bool.or_self, Bool.false_eq_true, if_false]

/-- Settles O51: the words and events of a team's end, pre-emption and restore, with what a save keeps of every wave and what a
restore gives every wave and lane back. -/
theorem retirement : Obligations.Retirement := by
  unfold Obligations.Retirement
  refine ⟨fun s core slot w held live exited pends waits half =>
      exec_waveRetire held live ((waveOver_iff ..).mpr ⟨exited, pends, waits⟩) half,
    fun s u team known live ended half back => exec_teamRetire known live ended half back,
    fun s team live runs victim => exec_preemptTeam_stops live runs victim,
    fun s u team held live stops half rest room back => exec_preemptTeam_saves live stops rfl half rest room back,
    fun s team half ready granted => exec_teamRestore half ready granted, saveTeam_keeps, ?_⟩
  intro s team x t p noCmds noSaved noWaits noTiles distinct noneFiled
  obtain ⟨status, slots, waves, scratch⟩ := restoreTeam_places noCmds noSaved noWaits noTiles distinct noneFiled
  refine ⟨status, slots, fun e he => ?_, scratch⟩
  obtain ⟨base, wave⟩ := waves e he
  intro w w'
  have placed : w' = placedWave w base := wave
  refine ⟨by rw [placed]; rfl, by rw [placed]; rfl, by rw [placed]; rfl, by rw [placed]; rfl, ?_⟩
  intro i l l'
  have lane : l' = firedMonitor l := by
    rw [← show w.lane i = l from rfl, ← lane_placedWave w base i, ← placed]
    rfl
  have kept {β : Type} (get : Lane → β) (h : ∀ (l : Lane) m, get { l with lmon := m } = get l) : get l' = get l :=
    lane ▸ firedMonitor_keeps l get h
  exact ⟨kept (·.v) fun _ _ => rfl, kept (·.p) fun _ _ => rfl, kept (·.g) fun _ _ => rfl, kept (·.pc) fun _ _ => rfl,
    kept (·.clause) fun _ _ => rfl, kept (·.flags) fun _ _ => rfl, kept (·.mon) fun _ _ => rfl,
    kept (·.mregs) fun _ _ => rfl, kept (·.cd) fun _ _ => rfl, kept (·.exited) fun _ _ => rfl⟩

end Sys2Proof.TeamLife

/-! PROOFS. The words that act on a group as a whole (R146 to R151) and the words that read status (R152, R206, R262, R269, R288,
R299, R311, R319, R379) give each lane its result at issue, RDLANE but for its far sources (R95). -/

namespace Sys2Proof.GroupResults

open Sys2Proof.Machine Sys2Proof.Safety Sys2Proof.Laws

/-! ## Words that collect -/

/-- The opcodes of shuffles, votes, MATCH, REDUX, ELECT and ACTIVE, and of JGET, CSTAT, QSTAT, MSTAT, VVCMP, VVMAX, VVINC, EPSTAT,
GRPRD and HOMEOF (R70). -/
def collecting (opc : Nat) : Bool :=
  [0x50, 0x51, 0x52, 0x53, 0x54, 0x55, 0x56, 0x57, 0x58, 0x6E, 0x6F].contains opc ||
    [0x5D, 0xB2, 0xBF, 0xC8, 0xD0, 0xD1, 0xD2, 0xE2, 0xE6, 0xE7].contains opc

/-- Each of them names a destination; the shuffles choose its width by MOD[3]. -/
theorem collecting_names_dest {opc : Nat} (h : collecting opc = true) (m : BitVec 9) : (opSpec opc m).d ≠ .none := by
  simp only [collecting, List.contains_cons, List.contains_nil, Bool.or_eq_true, Bool.or_false, beq_iff_eq] at h
  rcases h with (rfl | rfl | rfl | rfl | h) | h
  iterate 4 · unfold opSpec; cases m.getLsbD 3 <;> simp
  · rcases h with rfl | rfl | rfl | rfl | rfl | rfl | rfl <;> simp [opSpec]
  · rcases h with rfl | rfl | rfl | rfl | rfl | rfl | rfl | rfl | rfl | rfl <;> simp [opSpec]

/-- None of them accesses local space, and each writes its results itself. -/
theorem collecting_plain {opc : Nat} (h : collecting opc = true) : mayReject opc = false ∧ writesLater opc = false := by
  simp only [collecting, List.contains_cons, List.contains_nil, Bool.or_eq_true, Bool.or_false, beq_iff_eq] at h
  simp only [mayReject, writesLater, List.contains_cons, List.contains_nil, Bool.or_eq_false_iff, beq_eq_false_iff_ne,
    Bool.and_eq_false_iff, decide_eq_false_iff_not, and_true]
  omega

/-- The results of a word count in its contributing lanes alone. -/
theorem gives_congr {i : Instr} {opc : Nat} {f : Form} {ws vs : Env → LaneAt → List Wr}
    (h : ∀ e, ∀ l ∈ e.act, ws e l = vs e l) (given : Gives i opc f ws) : Gives i opc f vs := by
  intro s g e issues
  obtain ⟨t, run, written, only, beside, onward, unrejected, idle, stepped⟩ := given s g e issues
  have dests : e.dests (ws e) = e.dests (vs e) := by
    unfold Env.dests
    exact List.flatMap_congr fun l hl => by rw [h e l hl]
  rw [dests] at written only
  refine ⟨t, run, written, only, beside, onward, unrejected, fun r hr => idle r fun l hl at_ => ?_, fun l x rest hl hx => ?_⟩
  · rw [h e l hl]; exact hr l hl at_
  · exact stepped l x rest hl (by rw [h e l hl]; exact hx)

/-- A collecting word gives any results that are the model's in the contributing lanes, written in another way. -/
theorem gives_of_results {i : Instr} {opc : Nat} {f : Form} {ws vs : Env → LaneAt → List Wr}
    (hi : ∀ s, exec i s = laneWord opc f s ws) (hc : collecting opc = true) (h : ∀ e, ∀ l ∈ e.act, ws e l = vs e l) :
    Gives i opc f vs :=
  gives_congr h (gives_of_laneWord hi (.inl (collecting_names_dest hc f.mod)) (collecting_plain hc).2 (collecting_plain hc).1)

/-- A collecting word of one 32-bit result. -/
theorem gives_word {i : Instr} {opc : Nat} {f : Form} {x y : Env → LaneAt → W32}
    (hi : ∀ s, exec i s = laneWord opc f s (word f x)) (hc : collecting opc = true) (h : ∀ e l, x e l = y e l) :
    Gives i opc f (word f y) :=
  gives_of_results hi hc fun e l _ => by simp only [h, word]

end Sys2Proof.GroupResults

/-! PROOFS. The cross-lane words (R146 to R151), REDUX by its operation (R51, R53, R150), and RDLANE with the sampling of its far
sources (R19, R95). -/

namespace Sys2Proof.GroupResults

open Sys2Proof.Machine Sys2Proof.Safety Sys2Proof.Laws

/-! ## Slots (R146, R148, R149, R151) -/

/-- The contributing slots of which a property holds. -/
theorem slots_eq (e : Env) (p : LaneAt → Bool) :
    e.slots p = BitVec.ofFnLE fun i : Fin 32 => e.act.any fun x => x.1 == i.val && p x := by
  rw [Env.slots, laneSet_eq]
  simp only [List.contains_eq_any_beq, List.any_map, List.any_filter, Function.comp_def, BEq.comm, Bool.and_comm]

/-- Words that agree at 64 bits agree. -/
theorem zeroExtend_beq (x y : W32) : (x.zeroExtend 64 == y.zeroExtend 64) = decide (x = y) := by
  rw [beq_eq_decide]
  exact decide_eq_decide.mpr ⟨fun h => by simpa using congrArg (BitVec.setWidth 32) h, fun h => h ▸ rfl⟩

/-- Two lanes hold the same operand of MATCH, at the width that TYPE gives. -/
def sameOperand (f : Form) (e : Env) (l x : LaneAt) : Bool :=
  if MOD.type f.mod = 10 then e.src64 x f.a .int = e.src64 l f.a .int else e.src x f.a .int = e.src l f.a .int

theorem gives_match (f : Form) : Gives (.matchEq f) 0x57 f (fun e l =>
    [.w32 f.d (BitVec.ofFnLE fun i : Fin 32 => e.act.any fun x => x.1 == i.val && sameOperand f e l x),
      .pr f.c.opnd (e.act.all (sameOperand f e l))]) := by
  refine gives_of_results (fun _ => rfl) rfl fun e l _ => ?_
  have same (x : LaneAt) : ((if MOD.type f.mod == 10 then e.src64 x f.a .int else (e.src x f.a .int).zeroExtend 64) ==
      (if MOD.type f.mod == 10 then e.src64 l f.a .int else (e.src l f.a .int).zeroExtend 64)) = sameOperand f e l x := by
    unfold sameOperand
    by_cases wide : MOD.type f.mod = 10
    · simp only [wide, beq_self_eq_true, if_true, beq_eq_decide]
    · simp only [wide, beq_iff_eq, if_false, zeroExtend_beq]
  simp only [same, slots_eq]

/-- ELECT: the first contributing lane is the elected one. -/
theorem gives_elect (f : Form) : Gives (.elect f) 0x6E f (pred f fun e l => e.act.head? = some l) := by
  refine gives_of_results (fun _ => rfl) rfl fun e l hl => ?_
  obtain ⟨first, rest, act⟩ := List.exists_cons_of_ne_nil (List.ne_nil_of_mem hl)
  have elected : (l == e.first) = decide (e.act.head? = some l) := by
    rw [Env.first, act, List.headD_cons, List.head?_cons, beq_eq_decide]
    exact decide_eq_decide.mpr ⟨fun h => h ▸ rfl, fun h => (Option.some.inj h).symm⟩
  rw [elected]; rfl

/-! ## Reduction (R51, R53, R150) -/

/-- The 32-bit type of a REDUX of integers is signed, unless TYPE says otherwise. -/
def reduxSigned (ty : Nat) : Bool := ty != 6

theorem reduxType_eq (ty : Nat) : (if ty == 6 then n32 else s32) = ⟨32, reduxSigned ty⟩ := by
  unfold reduxSigned n32 s32
  cases h : ty == 6 <;> simp [bne, h]

section Reduce

variable {op ty : Nat} (sat : Bool) {xs : List (Option W32)} {v : W32} {r : List W32}

/-- A float sum goes by the tree. -/
theorem reduceLanes_floatSum (xs : List (Option W32)) :
    reduceLanes 0 13 sat xs = BitVec.ofNat 32 (treeSum fp32 (xs.map fun x => x.map BitVec.toNat)) := rfl

/-- A float minimum or maximum folds the codes of the contributing slots. -/
theorem reduceLanes_floatPick (not0 : op ≠ 0) (values : xs.filterMap id = v :: r) : reduceLanes op 13 sat xs =
    BitVec.ofNat 32 (r.foldl (fun m x => minMaxCode fp32 (op = 2) m x.toNat) (minMaxCode fp32 (op = 2) v.toNat v.toNat)) := by
  simp only [reduceLanes, values, beq_false_of_ne not0, beq_self_eq_true, if_true, if_false, Bool.false_eq_true]
  rfl

/-- An integer sum is exact, and fitted once. -/
theorem reduceLanes_sum (int : ty ≠ 13) (xs : List (Option W32)) :
    reduceLanes 0 ty sat xs = fitted 32 (reduxSigned ty) sat ((xs.filterMap id).map (num (reduxSigned ty))).sum := by
  simp only [reduceLanes, beq_false_of_ne int, if_false, Bool.false_eq_true, reduxType_eq, fit32_eq, ext_eq,
    List.sum_eq_foldl, List.foldl_map]

/-- Over no slot the result of any operation but the sum is 0. -/
theorem reduceLanes_none (not0 : op ≠ 0) (values : xs.filterMap id = []) : reduceLanes op ty sat xs = 0 := by
  simp only [reduceLanes, values, beq_false_of_ne not0, if_false, Bool.false_eq_true]
  split
  · rfl
  · split
    · contradiction
    all_goals rfl

/-- Picking words one after the other by their numbers leaves the word of the number so picked. -/
theorem foldl_pick {sg : Bool} {pick : W32 → W32 → W32} {choose : Int → Int → Int}
    (h : ∀ m x, num sg (pick m x) = choose (num sg m) (num sg x)) (r : List W32) (v : W32) :
    r.foldl pick v = BitVec.ofInt 32 ((r.map (num sg)).foldl choose (num sg v)) := by
  have numbers : (r.map (num sg)).foldl choose (num sg v) = num sg (r.foldl pick v) := by
    rw [List.foldl_map]
    exact List.foldl_hom (num sg) fun m x => (h m x).symm
  rw [numbers, LaneResults.ofInt_num]

theorem reduceLanes_min (int : ty ≠ 13) (values : xs.filterMap id = v :: r) : reduceLanes 1 ty sat xs =
    BitVec.ofInt 32 ((r.map (num (reduxSigned ty))).foldl min (num (reduxSigned ty) v)) := by
  simp only [reduceLanes, beq_false_of_ne int, if_false, Bool.false_eq_true, values, reduxType_eq, ext_eq]
  exact foldl_pick (fun m x => by split <;> omega) r v

theorem reduceLanes_max (int : ty ≠ 13) (values : xs.filterMap id = v :: r) : reduceLanes 2 ty sat xs =
    BitVec.ofInt 32 ((r.map (num (reduxSigned ty))).foldl max (num (reduxSigned ty) v)) := by
  simp only [reduceLanes, beq_false_of_ne int, if_false, Bool.false_eq_true, values, reduxType_eq, ext_eq]
  exact foldl_pick (fun m x => by split <;> omega) r v

theorem reduceLanes_and (int : ty ≠ 13) (values : xs.filterMap id = v :: r) :
    reduceLanes 3 ty sat xs = r.foldl (· &&& ·) v := by
  simp only [reduceLanes, beq_false_of_ne int, if_false, Bool.false_eq_true, values]

theorem reduceLanes_or (int : ty ≠ 13) (values : xs.filterMap id = v :: r) :
    reduceLanes 4 ty sat xs = r.foldl (· ||| ·) v := by
  simp only [reduceLanes, beq_false_of_ne int, if_false, Bool.false_eq_true, values]

theorem reduceLanes_xor (int : ty ≠ 13) (not0 : op ≠ 0) (not1 : op ≠ 1) (not2 : op ≠ 2) (not3 : op ≠ 3) (not4 : op ≠ 4)
    (values : xs.filterMap id = v :: r) : reduceLanes op ty sat xs = r.foldl (· ^^^ ·) v := by
  obtain ⟨k, rfl⟩ := Nat.exists_eq_add_of_le' (show 5 ≤ op by omega)
  simp only [reduceLanes, beq_false_of_ne int, if_false, Bool.false_eq_true, values]

end Reduce

/-- REDUX of any operation and type, over the values of the contributing slots. -/
theorem reduceLanes_eq (op ty : Nat) (sat : Bool) (xs : List (Option W32)) : reduceLanes op ty sat xs =
    match ty, op, xs.filterMap id with
    | 13, 0, _ => BitVec.ofNat 32 (treeSum fp32 (xs.map fun x => x.map BitVec.toNat))
    | _, 0, vs => fitted 32 (reduxSigned ty) sat (vs.map (num (reduxSigned ty))).sum
    | _, _, [] => 0
    | 13, _, v :: r =>
      BitVec.ofNat 32 (r.foldl (fun m x => minMaxCode fp32 (op = 2) m x.toNat) (minMaxCode fp32 (op = 2) v.toNat v.toNat))
    | _, 1, v :: r => BitVec.ofInt 32 ((r.map (num (reduxSigned ty))).foldl min (num (reduxSigned ty) v))
    | _, 2, v :: r => BitVec.ofInt 32 ((r.map (num (reduxSigned ty))).foldl max (num (reduxSigned ty) v))
    | _, 3, v :: r => r.foldl (· &&& ·) v
    | _, 4, v :: r => r.foldl (· ||| ·) v
    | _, _, v :: r => r.foldl (· ^^^ ·) v := by
  split
  case h_1 => rfl
  case h_2 int => exact reduceLanes_sum sat int xs
  case h_3 not0 _ values => exact reduceLanes_none sat not0 values
  case h_4 not0 values => exact reduceLanes_floatPick sat not0 values
  case h_5 int values => exact reduceLanes_min sat int values
  case h_6 int values => exact reduceLanes_max sat int values
  case h_7 int values => exact reduceLanes_and sat int values
  case h_8 int values => exact reduceLanes_or sat int values
  case h_9 int not0 not1 not2 not3 not4 _ values => exact reduceLanes_xor sat int not0 not1 not2 not3 not4 values

/-! ## RDLANE (R19, R95) -/

/-- The source of RDLANE for a lane. -/
def rdSource (f : Form) (e : Env) (l : LaneAt) : Option LaneRef := threadOf e.s e.core e.team (e.b l f .int).toNat

/-- The word pops nothing and has no outcome: it has no queue operand (R63, R270). -/
def PopsNothing (f : Form) (e : Env) : Prop := e.nb = none ∧ f.popsSource (opSpec 0x48 f.mod) = false

/-- The destinations of a word of one result, and of one without results, that has no outcome to write. -/
theorem dests_one {e : Env} (noOutcome : e.nb = none) (w : LaneAt → Wr) :
    e.dests (fun l => [w l]) = e.act.flatMap fun l => (w l).dests l.2 (l.2 == e.first.2) := by
  simp [Env.dests, noOutcome]

theorem dests_none {e : Env} (noOutcome : e.nb = none) : e.dests (fun _ => []) = [] := by
  simp [Env.dests, noOutcome]

/-- A lane reads a near source's register at issue. -/
theorem does_rdlane_near (f : Form) : Does (.rdlane f) 0x48 f
    (fun e => PopsNothing f e ∧ ∀ l ∈ e.act, farSource e l (rdSource f e l) = false ∧
      ∀ r, rdSource f e l = some r → vregOf f.a ∉ (e.s.lane e.core r).poison)
    (fun e => writeAll e.s e.core (e.dests fun l =>
      [.w32 f.d (match rdSource f e l with | some r => readHeld e.s e.core r (vregOf f.a) | none => 0)]))
    (fun _ => []) := by
  refine does_of_runWord _ (fun _ => rfl) fun e ⟨⟨noOutcome, noPop⟩, near⟩ => ?_
  have allNear : e.act.filter (fun l => !farSource e l (rdSource f e l)) = e.act :=
    List.filter_eq_self.mpr fun l hl => by rw [(near l hl).1]; rfl
  have noneFar : e.act.filter (fun l => farSource e l (rdSource f e l)) = [] :=
    List.filter_eq_nil_iff.mpr fun l hl => by rw [(near l hl).1]; exact Bool.false_ne_true
  rw [if_neg]
  case hnc =>
    intro bad
    obtain ⟨l, hl, bad⟩ := List.any_eq_true.mp bad
    have poisoned := (Bool.and_eq_true_iff.mp bad).2
    split at poisoned
    case h_1 r source => exact (near l hl).2 r source (List.contains_iff_mem.mp poisoned)
    case h_2 => contradiction
  unfold rdSource at allNear noneFar
  simp only [noPop, allNear, noneFar, dests_none noOutcome, dests_one noOutcome, List.map_nil, List.isEmpty_nil, List.append_nil,
    Bool.not_false, Bool.and_self, if_true, if_false, Bool.false_eq_true]
  rfl

/-- The samples of far sources stay outstanding: nothing is written at issue. -/
theorem does_rdlane_far (f : Form) : Does (.rdlane f) 0x48 f
    (fun e => PopsNothing f e ∧ ∀ l ∈ e.act, farSource e l (rdSource f e l) = true)
    (fun e => (addPend e.s e.core f (mine e) [] []
      (e.act.map fun l => ⟨l.2, f.d, (rdSource f e l).getD l.2, vregOf f.a, l.2 == e.first.2⟩) 0).2) (fun _ => []) := by
  intro s g e issues ⟨⟨noOutcome, noPop⟩, far⟩
  refine (runWord_done issues _ ?_ : exec (.rdlane f) s = _)
  have noneNear : e.act.filter (fun l => !farSource e l (rdSource f e l)) = [] :=
    List.filter_eq_nil_iff.mpr fun l hl => by rw [far l hl]; exact Bool.false_ne_true
  have allFar : e.act.filter (fun l => farSource e l (rdSource f e l)) = e.act := List.filter_eq_self.mpr far
  have some_ : e.act.isEmpty = false := by
    rw [List.isEmpty_eq_false_iff, issues.act]; exact issues.lanes
  rw [if_neg]
  case hnc =>
    intro bad
    obtain ⟨l, hl, bad⟩ := List.any_eq_true.mp bad
    have near := (Bool.and_eq_true_iff.mp bad).1
    rw [Bool.not_eq_true'] at near
    exact Bool.false_ne_true (near.symm.trans (far l hl))
  unfold rdSource at noneNear allFar
  simp only [noPop, noneNear, allFar, dests_none noOutcome, List.flatMap_nil, List.append_nil, List.isEmpty_map, some_,
    Bool.false_and, if_false, Bool.false_eq_true, List.map_map, forEach_nil]
  rfl

/-- The sampling event reads every source of a word, none of which holds poison (R95, R192). -/
theorem exec_sample {s : State} {core : Nat} {p : Pend}
    (outstanding : ((s.core core).pends.find? fun q => q.id == p.id) = some p)
    (clean : ∀ x ∈ p.samples, x.reg ∉ (s.lane core x.src).poison) :
    exec (.longLatencyComplete core p.id true) s = .next (onPend s core p.id fun q => { q with
      samples := [], dests := q.dests ++ p.samples.flatMap fun x => (Wr.w32 x.d (readHeld s core x.src x.reg)).dests x.r x.writer }) := by
  have arm : exec (.longLatencyComplete core p.id true) s = execLongLatencyComplete core p.id true s := rfl
  have unpoisoned : (p.samples.any fun x => (s.lane core x.src).poison.contains x.reg) = false :=
    List.any_eq_false.mpr fun x hx bad => clean x hx (List.contains_iff_mem.mp bad)
  rw [arm]
  simp only [execLongLatencyComplete, outstanding, takeSamples, List.filter_true, unpoisoned, Bool.not_true, List.filter_false, if_true,
    if_false, Bool.false_eq_true]

/-! ## The statement -/

/-- Settles O8: the words by what they make of the contributing slots, RDLANE by where its sources lie, and the event that samples
the far ones. -/
theorem laneExchange : Obligations.LaneExchange := by
  unfold Obligations.LaneExchange
  refine ⟨fun f => ?words, fun f => ⟨does_rdlane_near f, does_rdlane_far f⟩, fun s core p => exec_sample⟩
  case words =>
    iterate 6 refine ⟨gives_of_results (fun _ => rfl) rfl fun _ _ _ => rfl, ?_⟩
    refine ⟨gives_word (fun _ => rfl) rfl fun _ _ => slots_eq .., gives_elect f,
      gives_word (fun _ => rfl) rfl fun _ _ => slots_eq .., gives_match f, gives_word (fun _ => rfl) rfl fun e l => ?redux⟩
    case redux =>
      simp only [beq_iff_eq]
      exact reduceLanes_eq ..

end Sys2Proof.GroupResults

/-! PROOFS. The words that read status, field by field: vector clocks (R299, R311), masks (R152), queues (R269), commands (R262),
the matrix units (R288), episodes (R319), homes (R206) and groups (R379). -/

namespace Sys2Proof.GroupResults

open Sys2Proof.Machine Sys2Proof.Safety Sys2Proof.Laws

/-! ## Vector clocks (R299, R311) -/

/-- An entry of the version vector in an octet of registers. -/
def entryAt (e : Env) (l : LaneAt) (o : Opnd) (k : Nat) : W16 :=
  BitVec.ofNat 16 (((e.vregs l o 8).getD (k / 2) 0).toNat / 2 ^ (16 * (k % 2)))

theorem vecAt_vecMap (u : Nat → W16) {k : Nat} (h : k < 16) : vecAt (vecMap u) k = u k := by
  simp [vecAt, vecMap, h]

theorem vecAt_octet (e : Env) (l : LaneAt) (o : Opnd) {k : Nat} (h : k < 16) : vecAt (e.octet l o) k = entryAt e l o k := by
  rw [Env.octet, vecOfWords, vecAt_vecMap _ h, LaneResults.extractLsb'_eq, entryAt]

/-- One vector of entries covers another. -/
def coversAll (u v : Nat → W16) : Bool := (List.range 16).all fun k => (u k - v k).toNat < 32768

theorem covers_octet (e : Env) (l : LaneAt) (a b : Opnd) :
    covers (e.octet l a) (e.octet l b) = coversAll (entryAt e l a) (entryAt e l b) := by
  unfold covers coversAll
  rw [Bool.eq_iff_iff, List.all_eq_true, List.all_eq_true]
  refine forall₂_congr fun k hk => ?_
  have h := List.mem_range.mp hk
  rw [vecAt_octet e l a h, vecAt_octet e l b h, atLeast, decide_eq_true_iff, decide_eq_true_iff, Nat.lt_succ_iff]

theorem vecRelation_eq (u v : List W16) : vecRelation u v =
    if covers u v then (if covers v u then 0 else 1) else if covers v u then 2 else 3 := by
  unfold vecRelation
  cases covers u v <;> cases covers v u <;> rfl

/-- The eight words of a vector of entries. -/
def packed (u : Nat → W16) : List W32 := (List.range 8).map fun i => u (2 * i + 1) ++ u (2 * i)

theorem wordsOfVec_vecMap {u v : Nat → W16} (h : ∀ k < 16, u k = v k) : wordsOfVec (vecMap u) = packed v := by
  refine List.map_congr_left fun i hi => ?_
  have lt : i < 8 := List.mem_range.mp hi
  rw [vecAt_vecMap u (by omega), vecAt_vecMap u (by omega), h _ (by omega), h _ (by omega)]

/-- The later of two entries; of two that are opposite, the greater (R299). -/
def later (a b : W16) : W16 :=
  let d := (b - a).toNat
  if d = 32768 then (if a.toNat < b.toNat then b else a) else if 1 ≤ d ∧ d < 32768 then b else a

theorem smax_eq (a b : W16) : smax a b = later a b := by
  simp only [smax, later, after, beq_iff_eq, Bool.and_eq_true, decide_eq_true_eq, Nat.lt_succ_iff]

theorem gives_vvcmp (f : Form) : Gives (.vvcmp f) 0xD0 f (word f fun e l =>
    if coversAll (entryAt e l f.a) (entryAt e l f.b) then (if coversAll (entryAt e l f.b) (entryAt e l f.a) then 0 else 1)
    else if coversAll (entryAt e l f.b) (entryAt e l f.a) then 2 else 3) :=
  gives_word (fun _ => rfl) rfl fun e l => by rw [vecRelation_eq, covers_octet, covers_octet]

theorem gives_vvmax (f : Form) : Gives (.vvmax f) 0xD1 f (fun e l =>
    [.group f.d (packed fun k => later (entryAt e l f.a k) (entryAt e l f.b k))]) :=
  gives_of_results (fun _ => rfl) rfl fun e l _ => by
    refine congrArg (fun ws => [Wr.group f.d ws]) (wordsOfVec_vecMap fun k hk => ?_)
    rw [vecAt_octet e l f.a hk, vecAt_octet e l f.b hk, smax_eq]

theorem gives_vvinc (f : Form) : Gives (.vvinc f) 0xD2 f (fun e l => [.group f.d (packed fun k =>
    if k = (e.src l f.b .int).toNat % 16 then entryAt e l f.a k + 1 else entryAt e l f.a k)]) :=
  gives_of_results (fun _ => rfl) rfl fun e l _ => by
    refine congrArg (fun ws => [Wr.group f.d ws]) (wordsOfVec_vecMap fun k hk => ?_)
    rw [vecAt_octet e l f.a hk]
    simp only [beq_iff_eq]

/-! ## Queues and episodes (R269, R316, R319) -/

theorem queueDesc_number (o : Opnd) : (queueDesc o).1 = match o with | .q n _ _ => n.toNat | _ => 0 := by
  cases o <;> rfl

theorem queueStatus_eq (s : State) (core slot n : Nat) : queueStatus s core slot n =
    match tget (s.wave core slot).q n with
    | none => 0
    | some b =>
      let k := s.carrel b.die b.carrel
      BitVec.ofNat 32 ((if b.push then k.actions.length else k.obs.length) + 2 ^ 4 + (if b.push then 2 ^ 5 else 0) +
        if k.state = .ended then 2 ^ 6 else 0) := by
  unfold queueStatus
  cases tget (s.wave core slot).q n with
  | none => rfl
  | some b => simp only [beq_iff_eq]

/-- The carrel whose number stands in a handle, and whether the handle names its episode for a launch (R316). -/
def handleCarrel (s : State) (h : W32) : Carrel := s.carrel (h.extractLsb' 7 3).toNat (h.extractLsb' 0 7).toNat
def Names (s : State) (launch : Nat) (h : W32) : Prop :=
  let k := handleCarrel s h
  h.getLsbD 31 = false ∧ h.extractLsb' 10 6 = 0 ∧ k.gen = h.extractLsb' 16 15 ∧ k.state ≠ .free ∧ k.scrub.isSome = false ∧
    k.launch = launch

theorem episodeAt_of_names {s : State} {launch : Nat} {h : W32} (named : Names s launch h) :
    episodeAt s launch h = some ((h.extractLsb' 7 3).toNat, (h.extractLsb' 0 7).toNat) := by
  obtain ⟨bit31, reserved, gen, used, unscrubbed, owner⟩ := named
  unfold handleCarrel at gen used unscrubbed owner
  simp only [episodeAt, bit31, reserved, gen, unscrubbed, owner, bne_self_eq_false, beq_false_of_ne used, Bool.or_self,
    Bool.false_eq_true, if_false]

theorem episodeAt_of_not_names {s : State} {launch : Nat} {h : W32} (unnamed : ¬ Names s launch h) :
    episodeAt s launch h = none := by
  unfold episodeAt
  refine if_pos (by_contra fun good => unnamed ?_)
  simp only [Bool.or_eq_true, bne_iff_ne, beq_iff_eq, not_or, not_not, Bool.not_eq_true] at good
  obtain ⟨⟨⟨⟨⟨bit31, reserved⟩, used⟩, unscrubbed⟩, owner⟩, gen⟩ := good
  exact ⟨bit31, reserved, gen, used, unscrubbed, owner⟩

/-- The state of an episode with the cause of its stop, in one field (R319). -/
theorem episodeState_eq (st : EpState) (cause : Nat) :
    ((if st == .running then 1 else 2) + 4 * (if st == .running then 0 else cause)) =
      if st = .running then 1 else 2 + 2 ^ 2 * cause := by
  cases st <;> rfl

theorem episodeStat_of_names {s : State} {launch : Nat} {h : W32} (named : Names s launch h) : episodeStat s launch h =
    let k := handleCarrel s h
    BitVec.ofNat 64 ((if k.state = .running then 1 else 2 + 2 ^ 2 * k.cause) + (if k.active.isSome then 2 ^ 5 else 0) +
      (if k.susp.isSome then 2 ^ 6 else 0) + 2 ^ 16 * k.startVer.toNat + 2 ^ 32 * (k.active.getD k.lastStep).toNat) := by
  unfold episodeStat
  rw [episodeAt_of_names named]
  simp only [episodeState_eq]
  rfl

theorem episodeStat_of_not_names {s : State} {launch : Nat} {h : W32} (unnamed : ¬ Names s launch h) :
    episodeStat s launch h = 0 := by
  unfold episodeStat
  rw [episodeAt_of_not_names unnamed]

/-! ## The matrix units (R288) -/

theorem planesAhead_empty {s : State} {core t : Nat} (none_ : ∀ op ∈ (s.core core).mat, op.team ≠ t) :
    planesAhead s core t = (((s.team t).front.fmt, (s.team t).front.folios), ((s.team t).back.fmt, (s.team t).back.folios)) := by
  have noOps : (s.core core).mat.filter (fun m => m.team == t) = [] :=
    List.filter_eq_nil_iff.mpr fun op h eq => none_ op h (beq_iff_eq.mp eq)
  unfold planesAhead
  rw [noOps, List.foldl_nil]

/-- The format field and the swap bit of a record (R276). -/
theorem fmt_eq (op : MatOp) : op.rec_.fmt = op.dw0.toNat / 2 ^ 4 % 16 := by
  simp only [MatOp.rec_, mcmdOf, bits, Nat.shiftRight_eq_div_pow]; rfl

theorem flag_swap (op : MatOp) : op.rec_.flag 1 = op.dw0.getLsbD 9 := by
  simp only [MatOp.rec_, mcmdOf, Mcmd.flag, bits, BitVec.getLsbD, Nat.testBit_eq_decide_div_mod_eq, Nat.shiftRight_eq_div_pow]
  rw [beq_eq_decide]
  refine decide_eq_decide.mpr ?_
  omega

/-- The two planes of a team, front and back, each with its format and folios. -/
abbrev Planes := (Nat × List (Option Nat)) × (Nat × List (Option Nat))

def planesNow (x : Team) : Planes := ((x.front.fmt, x.front.folios), (x.back.fmt, x.back.folios))

/-- One operation after the releases before it have emptied planes (R274), as `planesAhead` folds it. -/
def planeFold (released : Nat → List Nat) (p : Planes) (op : MatOp) : Planes :=
  let clean (p : Nat × List (Option Nat)) : Nat × List (Option Nat) :=
    if (released op.id).any fun k => p.2.contains (some k) then (0, []) else p
  let p := (clean p.1, clean p.2)
  if op.op == 1 then (p.1, (op.rec_.fmt, (List.range 4).map op.rec_.quarter))
  else if op.op == 2 && op.rec_.flag 1 then (p.2, p.1) else p

theorem planesAhead_eq (s : State) (core t : Nat) : planesAhead s core t =
    ((s.core core).mat.filter fun m => m.team == t).foldl (planeFold (releasedBefore s core t)) (planesNow (s.team t)) := rfl

section PlaneFold

variable {released : Nat → List Nat} {op : MatOp} (kept : released op.id = []) (p : Planes)

include kept

/-- A LATCH leaves its own format and folios in the back plane. -/
theorem planeFold_latch (latch : op.op = 1) :
    planeFold released p op = (p.1, (op.dw0.toNat / 2 ^ 4 % 16, (List.range 4).map op.rec_.quarter)) := by
  simp only [planeFold, kept, latch, List.any_nil, Bool.false_eq_true, if_false, beq_self_eq_true, if_true, fmt_eq]

/-- A STREAM that swaps exchanges the planes. -/
theorem planeFold_swap (stream : op.op = 2) (swap : op.dw0.getLsbD 9 = true) : planeFold released p op = (p.2, p.1) := by
  simp only [planeFold, kept, stream, swap, flag_swap, List.any_nil, Bool.false_eq_true, if_false]
  rfl

/-- Any other operation leaves the planes. -/
theorem planeFold_other (noLatch : op.op ≠ 1) (noSwap : op.op = 2 → op.dw0.getLsbD 9 = false) : planeFold released p op = p := by
  have noSwap : (op.op == 2 && op.dw0.getLsbD 9) = false := by
    rw [Bool.and_eq_false_imp]
    exact fun stream => noSwap (beq_iff_eq.mp stream)
  simp only [planeFold, kept, beq_false_of_ne noLatch, flag_swap, noSwap, List.any_nil, Bool.false_eq_true, if_false]

end PlaneFold

/-- The operation appended last acts on the planes after all the others. -/
theorem planesAhead_append {s : State} {core t : Nat} {ms : List MatOp} {op : MatOp} (mat : (s.core core).mat = ms ++ [op])
    (own : op.team = t) : planesAhead s core t =
      planeFold (releasedBefore s core t) (planesAhead (s.onCore core fun c => { c with mat := ms }) core t) op := by
  have last : (ms ++ [op]).filter (fun m => m.team == t) = ms.filter (fun m => m.team == t) ++ [op] := by
    rw [List.filter_append, List.filter_singleton, beq_iff_eq.mpr own]; rfl
  have released : releasedBefore (s.onCore core fun c => { c with mat := ms }) core t = releasedBefore s core t := by
    funext id
    simp only [releasedBefore, core_onCore_same, wave_onCore s core (fun c => { c with mat := ms }) fun _ => rfl]
  rw [planesAhead_eq, planesAhead_eq, released, core_onCore_same, mat, last, List.foldl_append]
  rfl

theorem matrixStat_eq (s : State) (core t : Nat) : matrixStat s core t =
    BitVec.ofNat 32 (min ((s.core core).mat.filter fun m => m.team == t).length 63 + 2 ^ 8 * (planesAhead s core t).1.1 +
      2 ^ 12 * (planesAhead s core t).2.1 + 2 ^ 16 * (s.team t).tiles.foldl (fun m k => m ||| 2 ^ k) 0) := by
  simp only [matrixStat, bitSet, Nat.mul_comm]

/-! ## Homes (R186, R187, R206, R348) -/

theorem bits_bit (x : W64) (k : Nat) : bits x k 1 = (x.getLsbD k).toNat := by
  rw [bits, BitVec.getLsbD, Nat.testBit_eq_decide_div_mod_eq, Nat.shiftRight_eq_div_pow, pow_one]
  obtain h | h := Nat.mod_two_eq_zero_or_one (x.toNat / 2 ^ k) <;> simp [h]

theorem bits_field (x : W64) (lo n : Nat) : bits x lo n = (x.extractLsb' lo n).toNat := (BitVec.extractLsb'_toNat ..).symm

theorem leafPa_eq (leaf : W64) (level va : Nat) : leafPa leaf level va =
    ((leaf.extractLsb' 8 40).toNat * 256 + va % 2 ^ (if level = 1 then 30 else if level = 2 then 21 else 16)) % 2 ^ 40 := by
  simp only [leafPa, bits_field, pageBits, beq_iff_eq]

theorem homeSlice_eq (pa : Nat) : homeSlice pa =
    (pa / 2 ^ 7 % 32 ^^^ pa / 2 ^ 12 % 32 ^^^ pa / 2 ^ 17 % 32 ^^^ pa / 2 ^ 22 % 32) := by
  simp only [homeSlice, Nat.shiftRight_eq_div_pow]

theorem homeDie_eq (leaf : W64) (pa : Nat) : homeDie leaf pa =
    if leaf.getLsbD 7 then pa / 2 ^ 12 % 8 ^^^ pa / 2 ^ 15 % 8 ^^^ pa / 2 ^ 18 % 8 else (leaf.extractLsb' 56 3).toNat := by
  unfold homeDie
  rw [bits_bit, bits_field]
  simp only [Nat.shiftRight_eq_div_pow]
  cases leaf.getLsbD 7 <;> rfl

/-- The leaf maps a peer or the host (R348). -/
theorem outside_iff (leaf : W64) : (pteTarget leaf == 1 || pteTarget leaf == 2) = true ↔
    leaf.extractLsb' 5 2 = 1 ∨ leaf.extractLsb' 5 2 = 2 := by
  rw [pteTarget, bits_field, Bool.or_eq_true, beq_iff_eq, beq_iff_eq, BitVec.toNat_eq, BitVec.toNat_eq]
  rfl

/-- The leaf gives no read permission (R348). -/
theorem unreadable_iff (leaf : W64) : (bits leaf 2 1 == 0) = true ↔ leaf.getLsbD 2 = false := by
  rw [bits_bit, beq_iff_eq]
  cases leaf.getLsbD 2 <;> decide

theorem homeWord_eq (s : State) (die asid va : Nat) : homeWord s die asid va = match leafFor s die asid va with
    | none => 0xC0000000
    | some none => 0x40000000
    | some (some (leaf, level)) =>
      let pa := ((leaf.extractLsb' 8 40).toNat * 256 + va % 2 ^ (if level = 1 then 30 else if level = 2 then 21 else 16)) % 2 ^ 40
      let part (lo n : Nat) : Nat := pa / 2 ^ lo % n
      let die := if leaf.getLsbD 7 then part 12 8 ^^^ part 15 8 ^^^ part 18 8 else (leaf.extractLsb' 56 3).toNat
      if leaf.getLsbD 2 = false then 0xC0000000
      else if leaf.extractLsb' 5 2 = 1 ∨ leaf.extractLsb' 5 2 = 2 then 0x80000000
      else BitVec.ofNat 32
        ((part 7 32 ^^^ part 12 32 ^^^ part 17 32 ^^^ part 22 32) + 2 ^ 8 * die + 2 ^ 16 * (leaf.getLsbD 7).toNat) := by
  unfold homeWord
  match leafFor s die asid va with
  | none => rfl
  | some none => rfl
  | some (some (leaf, level)) =>
    simp only [unreadable_iff, outside_iff, homeSlice_eq, homeDie_eq, leafPa_eq, bits_bit leaf 7]

/-! ## Groups (R379) -/

theorem groupField_eq (s : State) (die slot fld : Nat) : groupField s die slot fld =
    let m := s.comm slot
    let x := s.commDie die slot
    if slot < 12 ∧ (tget s.comms slot).isSome then match rankOf s slot die with
      | none => 0xFFFFFFFF
      | some rank => match fld with
        | 0 => BitVec.ofNat 32 rank | 1 => BitVec.ofNat 32 m.nmemb | 2 => x.nextSeq | 3 => x.closed | 4 => BitVec.ofNat 32 x.last
        | 5 => BitVec.ofNat 32 (m.dx + 2 ^ 10 * m.dy + 2 ^ 20 * m.dz)
        | _ => BitVec.ofNat 32 (x.anyClosed.toNat + 2 * x.pendingClose.toNat)
    else 0xFFFFFFFF := by
  have flags (a b : Bool) : (if a then 1 else 0) + (if b then 2 else 0) = a.toNat + 2 * b.toNat := by
    cases a <;> cases b <;> rfl
  unfold groupField
  by_cases valid : slot < 12 ∧ (tget s.comms slot).isSome
  · simp only [valid, Bool.and_eq_true, decide_eq_true_eq, and_self, if_true]
    cases rankOf s slot die with
    | none => rfl
    | some rank =>
      match fld with
      | 0 | 1 | 2 | 3 | 4 => rfl
      | 5 => simp only [Nat.mul_comm]
      | _ + 6 => simp only [flags]
  · simp only [valid, Bool.and_eq_true, decide_eq_true_eq, if_false]

/-! ## The statement -/

/-- Settles O13: each word by what its fields are, and the planes of MSTAT operation by operation. -/
theorem statusReads : Obligations.StatusReads := by
  unfold Obligations.StatusReads
  intro f
  refine ⟨gives_vvcmp f, gives_vvmax f, gives_vvinc f, gives_word (fun _ => rfl) rfl fun _ _ => rfl, ?qstat,
    gives_word (fun _ => rfl) rfl fun _ _ => rfl, gives_word (fun _ => rfl) rfl fun _ _ => matrixStat_eq .., ?epstat,
    gives_word (fun _ => rfl) rfl fun _ _ => homeWord_eq .., gives_word (fun _ => rfl) rfl fun _ _ => groupField_eq ..,
    fun s core t => planesAhead_empty, ?planes⟩
  case qstat =>
    exact gives_word (fun _ => rfl) rfl fun e l =>
      (congrArg (queueStatus e.s e.core e.first.2.slot) (queueDesc_number f.a)).trans (queueStatus_eq ..)
  case epstat =>
    refine gives_of_results (fun _ => rfl) rfl fun e l _ => congrArg (fun x => [Wr.w64 f.d x]) ?_
    by_cases named : Names e.s e.launch (e.src l f.a .int)
    · exact (episodeStat_of_names named).trans (if_pos named).symm
    · exact (episodeStat_of_not_names named).trans (if_neg named).symm
  case planes =>
    intro s core t ms op mat own kept
    dsimp only
    rw [planesAhead_append mat own]
    exact ⟨planeFold_latch kept _, planeFold_swap kept _, planeFold_other kept _⟩

end Sys2Proof.GroupResults

/-! PROOFS. Barriers (R142, R154 to R156): the words by what they leave in the batch and in their lanes, the end of a BART that has
waited its limit, and what an arrival and the end of a phase make of an object. -/

namespace Sys2Proof.Barriers

open Sys2Proof.Machine Sys2Proof.Safety Sys2Proof.Laws

/-! ## The words (R154, R155) -/

/-- The token of a wait: the low half of its operand. -/
theorem token_eq (x : W32) : x.extractLsb' 0 16 = BitVec.ofNat 16 x.toNat := by
  rw [LaneResults.extractLsb'_eq, pow_zero, Nat.div_one]

/-- Lanes that block keep the time, so that each records the same. -/
theorem forEach_setBlock_now (core : Nat) (b : LaneAt → Nat → Block) (ls : List LaneAt) (s : State) :
    (forEach ls s fun s l => setBlock s core l.2 (b l s.now)) = forEach ls s fun u l => setBlock u core l.2 (b l s.now) := by
  induction ls generalizing s with
  | nil => rfl
  | cons l ls ih => exact ih (setBlock s core l.2 (b l s.now))

/-- BARW blocks each lane with its own token. -/
theorem does_barw (f : Form) : Does (.barw f) 0x61 f (fun _ => True)
    (fun e => eachBlocks e (onBatch e.s e.team (barOf f) id) fun l =>
      .barrier (barOf f) (BitVec.ofNat 16 (e.src l f.a .int).toNat)) mine :=
  does_of_runWord _ (fun _ => rfl) fun e _ => by
    simp only [token_eq]
    rfl

/-- BART blocks each lane with its own token and the time of the word's issue. -/
theorem does_bart (f : Form) : Does (.bart f) 0x64 f (fun _ => True)
    (fun e => eachBlocks e (onBatch e.s e.team (barOf f) id) fun l =>
      .bart (barOf f) (BitVec.ofNat 16 (e.src l f.a .int).toNat) f.d e.s.now) mine :=
  does_of_runWord _ (fun _ => rfl) fun e _ => by
    simp only [token_eq]
    rw [forEach_setBlock_now e.core fun l now => .bart (barOf f) (BitVec.ofNat 16 (e.src l f.a .int).toNat) f.d now]
    rfl

/-- A BART that has waited 1,024 cycles returns whether the phase has moved (R155). -/
theorem exec_bartTimeout {s : State} {core slot lane b : Nat} {k : W16} {n : BitVec 3} {since : Nat}
    (waits : (s.lane core ⟨slot, lane⟩).block = .bart b k (.p n) since) (limit : since + 2048 ≤ s.now) :
    exec (.bartTimeout core slot lane) s = .next ((writeP s core ⟨slot, lane⟩ n.toNat
      (decide ((barrierOf s (s.wave core slot).team b).phase ≠ k))).onLane core ⟨slot, lane⟩ Lane.next) := by
  have arm : exec (.bartTimeout core slot lane) s = execBartTimeout core slot lane s := rfl
  have moved (p : W16) : (p != k) = decide (p ≠ k) := by rw [bne, beq_eq_decide, decide_not]
  rw [arm, execBartTimeout]
  simp only [waits, limit, if_true, moved]

/-! ## A barrier object (R155, R156) -/

/-- An arrival counts once per thread and phase. -/
theorem applyArrival_new {x : Barrier} {tid : Nat} (new : tid ∉ x.arrivedBits) :
    (applyArrival x tid).arrived = x.arrived + 1 ∧ tid ∈ (applyArrival x tid).arrivedBits := by
  simp [applyArrival, new]

theorem applyArrival_again {x : Barrier} {tid : Nat} (again : tid ∈ x.arrivedBits) : applyArrival x tid = x := by
  simp [applyArrival, again]

/-- A phase is over when a thread has arrived, and as many as are expected. -/
theorem phaseOver_iff (x : Barrier) : (decide (1 ≤ x.arrived) && decide (x.expect ≤ x.arrived)) = true ↔
    1 ≤ x.arrived ∧ x.expect ≤ x.arrived := by
  rw [Bool.and_eq_true, decide_eq_true_iff, decide_eq_true_iff]

theorem completePhase_over {x : Barrier} (some_ : 1 ≤ x.arrived) (all : x.expect ≤ x.arrived) :
    (completePhase x).phase = x.phase + 1 ∧ (completePhase x).arrived = 0 ∧
      (completePhase x).expect = x.expect - x.departed.length ∧ (completePhase x).arrivedBits = [] := by
  rw [completePhase, if_pos ((phaseOver_iff x).mpr ⟨some_, all⟩)]
  exact ⟨rfl, rfl, rfl, rfl⟩

theorem completePhase_open {x : Barrier} (short : ¬ (1 ≤ x.arrived ∧ x.expect ≤ x.arrived)) : completePhase x = x := by
  rw [completePhase, if_neg ((phaseOver_iff x).not.mpr short)]

/-! ## The statement -/

/-- Settles O21: BARA, BARD, BARAW and BARINIT by their bodies, BARW and BART by the blocks of their lanes, the timeout, and the
object by what arrives. -/
theorem barriers : Obligations.Barriers := by
  unfold Obligations.Barriers
  refine ⟨⟨fun f => ?words, fun s core slot lane b k n since => exec_bartTimeout⟩, fun x tid =>
    ⟨applyArrival_new, applyArrival_again, completePhase_over, completePhase_open⟩⟩
  case words =>
    exact ⟨does_of_runWord _ (fun _ => rfl) fun _ _ => rfl, does_of_runWord _ (fun _ => rfl) fun _ _ => rfl, does_barw f,
      does_of_runWord _ (fun _ => rfl) fun _ _ => rfl, does_bart f, does_of_runWord _ (fun _ => rfl) fun _ _ => rfl⟩

end Sys2Proof.Barriers

/-! PROOFS. The words that name an outstanding command (R262, R263), and the dispatch of commands to the engines' contexts (R167). -/

namespace Sys2Proof.CommandWords

open Sys2Proof.Machine Sys2Proof.Safety Sys2Proof.Laws

/-! ## CSTAT (R262) -/

/-- The state of the ticket's command and, while it is queued, its place. -/
theorem statWord_eq (s : State) (core team : Nat) (t : W32) : statWord s core team t = match ticketCmd s core team t with
    | none => 0
    | some k => BitVec.ofNat 32 ((s.cmd k).stat + 2 ^ 8 *
        if (s.cmd k).state = .queued then ((queueOf s core (s.cmd k).cls).takeWhile (· != k)).length else 0) := by
  unfold statWord
  cases ticketCmd s core team t with
  | none => rfl
  | some k => simp [Nat.mul_comm]

/-! ## CCANCEL (R263) -/

/-- CCANCEL answers whether the command of its ticket was cancelled; without one it answers false and changes nothing. -/
theorem does_ccancel (f : Form) : Does (.ccancel f) 0xB3 f (fun _ => True)
    (fun e => match ticketCmd e.s e.core e.team (e.src e.first f.a .int) with
      | none => e.results 0xB3 f e.s fun _ => [.pr f.d false]
      | some k => e.results 0xB3 f (cancelCmd e.s k).2 fun _ => [.pr f.d (cancelCmd e.s k).1]) (fun _ => []) :=
  does_of_runWord _ (fun _ => rfl) fun e _ => by
    cases ticketCmd e.s e.core e.team (e.src e.first f.a .int) <;> rfl

/-- A command that leaves its queue stands in none of its core. -/
theorem not_mem_queueOf_unqueue (s : State) (k cls : Nat) : k ∉ queueOf (unqueue s k) (s.cmd k).core cls := by
  unfold queueOf unqueue
  rw [core_onCore_same, tgetD_map _ (fun q => (q.1, q.2.filter (· != k))) (fun _ => rfl) cls [] rfl]
  simp

/-- A queued command that no digest holds is cancelled: it leaves its queue, and ends with nothing counted. -/
theorem cancelCmd_of_queued {s : State} {k : Nat} (queued : (s.cmd k).state = .queued)
    (free : ¬ ((s.cmd k).kind = 10 ∧ (s.cmd k).collSeq.isSome)) :
    cancelCmd s k = (true, (endEarly (unqueue s k) k 5).onCmd k Cmd.uncounted) := by
  have held : ((s.cmd k).kind == 10 && (s.cmd k).collSeq.isSome) = false := by simpa using free
  simp [cancelCmd, queued, held]

/-- A command that is following or recording, and a collective whose digest is sent, is left as it stands. -/
theorem cancelCmd_of_left {s : State} {k : Nat} (left : (s.cmd k).state = .following ∨ (s.cmd k).state = .recording ∨
    ((s.cmd k).kind = 10 ∧ (s.cmd k).collSeq.isSome ∧ (s.cmd k).state ≠ .armed)) : cancelCmd s k = (false, s) := by
  rcases left with following | recording | ⟨coll, sent, unarmed⟩
  · simp [cancelCmd, following]
  · simp [cancelCmd, recording]
  · have held : ((s.cmd k).kind == 10 && (s.cmd k).collSeq.isSome) = true := by simp [coll, sent]
    simp only [cancelCmd, held, if_true]
    split
    case h_3 armed => exact absurd armed unarmed
    all_goals rfl

/-! ## Dispatch (R167) -/

theorem exec_commandDispatch {s : State} {die cls k e : Nat} (picked : pickStart s die = some (cls, k))
    (room : freeEngine s die = some e) : exec (.commandDispatch die) s =
      .next (placeCmd (s.onDie die fun d => { d with rr := tset d.rr cls ((s.cmd k).core % 80) }) k e) := by
  have arm : exec (.commandDispatch die) s = execCommandDispatch die s := rfl
  rw [arm, execCommandDispatch, picked, room]

/-- The context found is the lowest of the 128 of a die that no command stands in. -/
theorem freeEngine_iff (s : State) (die x : Nat) : freeEngine s die = some x ↔
    x < 128 ∧ contextTaken s die x = false ∧ ∀ y < x, contextTaken s die y = true := by
  simp [freeEngine, List.find?_range_eq_some, and_left_comm]

theorem freeEngine_none_iff (s : State) (die : Nat) : freeEngine s die = none ↔ ∀ x < 128, contextTaken s die x = true := by
  simp [freeEngine]

/-! ## The statement -/

/-- Settles O34: the words by their bodies, a cancel by where the command stands, the dispatch by the choices that it rests on. -/
theorem commandWords : Obligations.CommandWords := by
  unfold Obligations.CommandWords
  refine ⟨fun f => ⟨?cstat, does_ccancel f⟩, ?cancel, fun s k => cancelCmd_of_left, fun s die cls k e => exec_commandDispatch,
    fun s die => ⟨freeEngine_none_iff s die, freeEngine_iff s die⟩⟩
  case cstat => exact GroupResults.gives_word (fun _ => rfl) rfl fun e l => statWord_eq ..
  case cancel =>
    intro s k queued free
    rw [cancelCmd_of_queued queued free, cmd_onCmd_same]
    refine ⟨rfl, ?_, ?_, rfl, fun _ => rfl, not_mem_queueOf_unqueue s k _⟩
    · simp [endEarly, Cmd.uncounted]
    · simp [endEarly, Cmd.uncounted]

end Sys2Proof.CommandWords

/-! PROOFS. The element events of commands (R167, R225, R233 to R246): what an event does when its element is ready and in turn. -/

namespace Sys2Proof.CommandElements

open Sys2Proof.Machine Sys2Proof.Safety Sys2Proof.Laws

/-! ## Turns (R167, R256) -/

/-- A command that shares its engine with none has the turn. -/
theorem sharesTurn_of_alone {s : State} {k : Nat} (alone : sharers s k = []) : sharesTurn s k = true := by
  unfold sharesTurn
  dsimp only
  split
  · rfl
  · simp [alone]

theorem engineTurn_iff (s : State) (r : Ccr) : engineTurn s r = true ↔ (r.srcSp = 0 ∧ r.dstSp = 0) ∨ s.now % 2 = 1 := by
  simp [engineTurn, State.lateHalf]

/-- The team of the command is not being pre-empted. -/
theorem stopsAt_of_going {s : State} {k : Nat} (going : (s.team (s.cmd k).team).stopping = false) (n : Nat) : stopsAt s k n = false := by
  simp [stopsAt, stopping, going]

/-- The number of an element of the record names the element itself. -/
theorem takenElem_of_lt {r : Ccr} {n : Nat} (inside : n < r.total) : takenElem r n = none := by
  have below : decide (r.total ≤ n) = false := decide_eq_false (Nat.not_le.mpr inside)
  simp [takenElem, below]

/-! ## The next element of a command -/

/-- The command runs, has the turn on its engine, and is made ready in `u`, where its next element is to be performed. -/
structure NextReady (s u : State) (k : Nat) : Prop where
  known : (tget s.cmds k).isSome
  running : (s.cmd k).state = .running
  live : s.live (s.cmd k).team = true
  going : (s.team (s.cmd k).team).stopping = false
  turn : sharesTurn s k = true
  half : engineTurn s (s.cmd k).ccr = true
  ready : makeReady s k = .ok u
  named : (u.cmd k).els < (s.cmd k).ccr.total
  runs : (u.cmd k).state = .running
  inside : (u.cmd k).els < (u.cmd k).ccr.total
  unlimited : (u.cmd k).limit = none

section Ready

variable {s u : State} {k kind : Nat}

/-- Its event performs the element. -/
theorem elementEvent_of_ready (h : NextReady s u k) (same : (s.cmd k).kind = kind) (perform : State → Nat → Nat → Perf) :
    elementEvent kind perform k (u.cmd k).els s = .next (served u k (perform u k (u.cmd k).els)) := by
  have known : tget s.cmds k ≠ none := Option.isSome_iff_ne_none.mp h.known
  have inside : ¬ (u.cmd k).ccr.total ≤ (u.cmd k).els := Nat.not_le.mpr h.inside
  simp [elementEvent, known, same, h.running, h.live, stopsAt_of_going h.going, h.turn, h.half, takenElem_of_lt h.named, h.ready,
    h.runs, inside, h.unlimited]

/-- The lines of a CACHE come in order (R246). -/
theorem exec_cache_of_ready (h : NextReady s u k) (same : (s.cmd k).kind = 9) (next : (s.cmd k).els = (u.cmd k).els) :
    exec (.cache k (u.cmd k).els) s = .next (served u k (cacheElement u k (u.cmd k).els)) := by
  have arm : exec (.cache k (u.cmd k).els) s = execCache k (u.cmd k).els s := rfl
  rw [arm, execCache, next, bne_self_eq_false, if_neg Bool.false_ne_true]
  exact elementEvent_of_ready h same cacheElement

/-! ## WATCH (R219, R244) -/

theorem exec_watch_of_armed (watch : (s.cmd k).kind = 7) (running : (s.cmd k).state = .running) (live : s.live (s.cmd k).team = true)
    (armed : armWatch s k = .ok u) : exec (.watch k) s = .next u := by
  have arm : exec (.watch k) s = execWatch k s := rfl
  simp [arm, execWatch, watch, running, live, armed]

theorem exec_watchSatisfied (watch : (s.cmd k).kind = 7) (armed : (s.cmd k).state = .armed) (held : (s.cmd k).limit ≠ none) :
    exec (.watchSatisfied k) s = .next (s.onCmd k fun c => { c with state := .following, status := 0, els := 1 }) := by
  have arm : exec (.watchSatisfied k) s = execWatchSatisfied k s := rfl
  simp [arm, execWatchSatisfied, watch, armed, Option.isSome_iff_ne_none.mpr held]

theorem exec_watchTimeout (watch : (s.cmd k).kind = 7) (armed : (s.cmd k).state = .armed) (open_ : (s.cmd k).limit = none)
    (limited : (s.cmd k).ccr.count ≠ 0) (late : (s.cmd k).armedAt + (s.cmd k).ccr.count * 2100 ≤ s.now) :
    exec (.watchTimeout k) s = .next (s.onCmd k fun c => { c with state := .following, status := 6, els := 0 }) := by
  have arm : exec (.watchTimeout k) s = execWatchTimeout k s := rfl
  have past : (s.cmd k).armedAt + (s.cmd k).ccr.count * ecPerUs ≤ s.now := late
  simp [arm, execWatchTimeout, watch, armed, open_, limited, past]

/-! ## RECON (R245, R307 to R310) and TSWAP (R383) -/

theorem exec_recon (recon : (s.cmd k).kind = 8) (running : (s.cmd k).state = .running) (cells : (s.cmd k).ccr.subop ≠ 1)
    (inside : (s.cmd k).els < (s.cmd k).ccr.total) (unlimited : (s.cmd k).limit = none) (turn : sharesTurn s k = true) :
    exec (.recon k (s.cmd k).els) s = .next (served s k (reconElement s k (s.cmd k).els)) := by
  have arm : exec (.recon k (s.cmd k).els) s = execRecon k (s.cmd k).els s := rfl
  have more : ¬ (s.cmd k).ccr.total ≤ (s.cmd k).els := Nat.not_le.mpr inside
  simp [arm, execRecon, recon, running, cells, more, unlimited, turn]

theorem exec_reconEpochAdvance {pa : Nat} {e : W64} (recon : (s.cmd k).kind = 8) (running : (s.cmd k).state = .running)
    (epoch : (s.cmd k).ccr.subop = 1) (passed : translateCmd s k ((s.cmd k).ccr.dst % 2 ^ 56) false = (.hbm pa e, u))
    (sibling : pteSibling e = true) : exec (.reconEpochAdvance k) s = .next (
      let x := advanceEpoch u (tableOf u ((s.cmd k).asid u) e)
      settleCmd (x.2.onCmd k fun c => { c with els := 1, value := x.1.zeroExtend 64 }) k) := by
  have arm : exec (.reconEpochAdvance k) s = execReconEpochAdvance k s := rfl
  simp only [arm, execReconEpochAdvance, recon, running, epoch, passed, sibling, bne_self_eq_false, Bool.or_self, Bool.false_eq_true,
    if_false, Bool.not_true, afterPerf]

theorem exec_tswap (swap : (s.cmd k).kind = 13) (running : (s.cmd k).state = .running) (unlimited : (s.cmd k).limit = none) :
    exec (.tswap k) s = .next (afterPerf k (swapTable s k)) := by
  have arm : exec (.tswap k) s = execTswap k s := rfl
  simp [arm, execTswap, swap, running, unlimited]

end Ready

end Sys2Proof.CommandElements

/-! PROOFS. The bytes that an element writes (R234, R235, R242): what a run of bytes written reads back as, and what the counts of an
element leave alone. -/

namespace Sys2Proof.CommandElements

open Sys2Proof.Machine Sys2Proof.Safety Sys2Proof.Laws

/-! ## Runs of bytes -/

theorem length_leBytes (n x : Nat) : (leBytes n x).length = n := by
  induction n generalizing x with
  | zero => rfl
  | succ n ih => rw [leBytes, List.length_cons, ih]

theorem length_memReads (m : Mem) (a n : Nat) : (memReads m a n).length = n := by simp [memReads]

/-- Bytes read as a number are that number's bytes. -/
theorem leBytes_leNat (bs : List Byte) : leBytes bs.length (leNat bs) = bs := by
  induction bs with
  | nil => rfl
  | cons b bs ih =>
    have low : BitVec.ofNat 8 (b.toNat + 256 * leNat bs) = b := by
      apply BitVec.eq_of_toNat_eq
      rw [BitVec.toNat_ofNat]
      have := b.isLt
      omega
    have high : (b.toNat + 256 * leNat bs) / 256 = leNat bs := by
      have := b.isLt
      omega
    rw [List.length_cons, leNat, leBytes, low, high, ih]

/-- A run written leaves every other byte as it was. -/
theorem memRead_memWrites_other {m : Mem} (wf : Memory.wf m = true) {a x : Nat} {bs : List Byte} (out : x < a ∨ a + bs.length ≤ x) :
    memRead (memWrites m a bs) x = memRead m x := by
  induction bs generalizing m a with
  | nil => rfl
  | cons b bs ih =>
    rw [List.length_cons] at out
    rw [memWrites, ih (memWrite_wf a b wf) (by omega)]
    exact memRead_memWrite_other m b wf (by omega)

/-- A run written reads back. -/
theorem memReads_memWrites {m : Mem} (wf : Memory.wf m = true) (a : Nat) (bs : List Byte) :
    memReads (memWrites m a bs) a bs.length = bs := by
  induction bs generalizing m a with
  | nil => rfl
  | cons b bs ih =>
    have wf' := memWrite_wf a b wf
    have first : memRead (memWrites (memWrite m a b) (a + 1) bs) a = b := by
      rw [memRead_memWrites_other wf' (.inl (Nat.lt_succ_self a)), memRead_memWrite_same m b wf]
    have rest := ih wf' (a + 1)
    simp only [memReads] at rest
    simp only [memReads, memWrites, List.length_cons, List.range_succ_eq_map, List.map_cons, List.map_map, Nat.add_zero, first]
    refine congrArg (b :: ·) (Eq.trans (List.map_congr_left fun i _ => ?_) rest)
    exact congrArg _ (Nat.add_right_comm a i 1)

/-- The memory after a run is written holds it, and is the same everywhere else. -/
theorem memWrites_puts {m : Mem} (wf : Memory.wf m = true) (a : Nat) {w : Nat} {bs : List Byte} (len : bs.length = w) :
    memReads (memWrites m a bs) a w = bs ∧ ∀ x, x < a ∨ a + w ≤ x → memRead (memWrites m a bs) x = memRead m x := by
  subst len
  exact ⟨memReads_memWrites wf a bs, fun x out => memRead_memWrites_other wf out⟩

/-! ## What an element's counts leave alone (R233, R249, R253) -/

/-- No memory differs, and of the teams at most what one team counts. -/
structure CountsOnly (T : Nat) (s t : State) : Prop where
  hbm : t.hbm = s.hbm
  host : t.host = s.host
  scratch : ∀ j, (t.team j).scratch = (s.team j).scratch
  others : ∀ j, j ≠ T → t.team j = s.team j

theorem CountsOnly.of_teams {T : Nat} {s t : State} (hbm : t.hbm = s.hbm) (host : t.host = s.host) (teams : t.teams = s.teams) :
    CountsOnly T s t :=
  have same (j : Nat) : t.team j = s.team j := by rw [State.team, State.team, teams]
  ⟨hbm, host, fun j => congrArg Team.scratch (same j), fun j _ => same j⟩

theorem CountsOnly.trans {T : Nat} {s t u : State} (a : CountsOnly T s t) (b : CountsOnly T t u) : CountsOnly T s u :=
  ⟨b.hbm.trans a.hbm, b.host.trans a.host, fun j => (b.scratch j).trans (a.scratch j), fun j h => (b.others j h).trans (a.others j h)⟩

theorem countsOnly_countEv (s : State) (T ev n : Nat) : CountsOnly T s (countEv s T ev n) := by
  unfold countEv
  split
  · refine ⟨rfl, rfl, fun j => ?_, fun j other => team_onTeam_other s _ other⟩
    by_cases same : j = T
    · subst same
      rw [team_onTeam_same]
    · rw [team_onTeam_other s _ same]
  · exact .of_teams rfl rfl rfl

theorem countsOnly_landElement (T : Nat) (s : State) (k n : Nat) : CountsOnly T s (landElement s k n) := by
  unfold landElement
  dsimp only
  split <;> exact .of_teams rfl rfl rfl

theorem countsOnly_countElement (s : State) (k n : Nat) (y : Tally) : CountsOnly (s.cmd k).team s (countElement s k n y) := by
  have counted (u : State) (still : Bool) (m : Nat) (same : CountsOnly (s.cmd k).team s u) :
      CountsOnly (s.cmd k).team s (if still then u else countEv u (s.cmd k).team 5 m) := by
    cases still
    · exact same.trans (countsOnly_countEv ..)
    · exact same
  refine counted _ _ _ (CountsOnly.trans ?_ (countsOnly_landElement _ _ k n))
  exact .of_teams rfl rfl rfl

/-! ## One element (R234, R235, R242) -/

/-- The write of an element's code, and its counts. -/
def putElement (s : State) (k n : Nat) (d : Int) (x : Nat) (y : Tally) : Perf :=
  let r := (s.cmd k).ccr
  match writeSide s k n r.dstSp d r.dstFmt r.redop x with
  | .ok t => .ok (countElement t k n y)
  | p => p

/-- The bytes of a code in a format. -/
def codeBytes (fmt x : Nat) : List Byte := leBytes (fmtBytes fmt) x

/-- A code written plain stands as it is, but in the format of half-bytes. -/
theorem newCode_plain {fmt : Nat} (bytes : fmt ≠ 3) (a : Int) (old x : Nat) : newCode fmt 0 a old x = x := by
  simp [newCode, bytes, redCode]

/-- The bytes of a source code, in a format of whole bytes. -/
theorem codeBytes_pickCode {fmt : Nat} (bytes : fmt ≠ 3) (a : Int) (m : Mem) (at_ : Nat) :
    codeBytes fmt (pickCode fmt a (leNat (memReads m at_ (fmtBytes fmt)))) = memReads m at_ (fmtBytes fmt) := by
  have whole : pickCode fmt a (leNat (memReads m at_ (fmtBytes fmt))) = leNat (memReads m at_ (fmtBytes fmt)) := by
    simp [pickCode, bytes]
  have back := leBytes_leNat (memReads m at_ (fmtBytes fmt))
  rw [length_memReads] at back
  rw [whole, codeBytes, back]

section Element

variable {s : State} {k n : Nat} {d : Int}

/-- The element `n` of command `k` is plain: of no row, without a scale beside it, not read before, its code written as it is at
`d`. -/
structure PlainElement (s : State) (k n : Nat) (d : Int) : Prop where
  dst : ((s.cmd k).ccr.elem n { ok := true, base := 0, off := 0 }).dst = some d
  rows : (s.cmd k).ccr.rows = false
  redop : (s.cmd k).ccr.redop = 0
  mxSrc : (s.cmd k).ccr.mxSrc = false
  mxDst : (s.cmd k).ccr.mxDst = false
  bytes : (s.cmd k).ccr.dstFmt ≠ 3
  fresh : tget (s.cmd k).taken n = none

theorem rowAt_plain (h : PlainElement s k n d) (row : Nat) : rowAt s k row = .ok { ok := true, base := 0, off := 0 } s := by
  simp [rowAt, h.rows]

theorem blockScale_plain (h : PlainElement s k n d) (ra : RowAt) (e : Elem) : blockScale s k n ra e = .ok 0 s := by
  simp [blockScale, h.mxDst, h.mxSrc]

/-- An element without a source writes the value of a FILL, or the pad pattern. -/
theorem moveElement_of_no_source (h : PlainElement s k n d) (passes : destPasses s k (s.cmd k).ccr.dstSp d = .ok s)
    (none_ : ((s.cmd k).ccr.elem n { ok := true, base := 0, off := 0 }).src = none) :
    moveElement s k n = if (s.cmd k).ccr.kind = 5 then putElement s k n d ((s.cmd k).ccr.src % 2 ^ fmtBits (s.cmd k).ccr.dstFmt) {}
      else putElement s k n d (s.cmd k).ccr.padCode { padded := true } := by
  unfold moveElement
  simp only [h.rows, Bool.false_eq_true, if_false, rowAt_plain h, h.dst, passes, blockScale_plain h, none_, beq_iff_eq]
  rfl

/-- A transfer that keeps the bits writes the code that it reads in its team's scratchpad. -/
theorem moveElement_of_copy (h : PlainElement s k n d) (passes : destPasses s k (s.cmd k).ccr.dstSp d = .ok s) {a : Int}
    (src : ((s.cmd k).ccr.elem n { ok := true, base := 0, off := 0 }).src = some a) (space : (s.cmd k).ccr.srcSp = 1)
    (alike : (s.cmd k).ccr.identity = true)
    (clean : scratchBad s (s.cmd k).team (localOf a) (fmtBytes (s.cmd k).ccr.srcFmt) = false) :
    ∃ y, moveElement s k n = putElement s k n d (pickCode (s.cmd k).ccr.srcFmt a
      (leNat (memReads (s.team (s.cmd k).team).scratch (localOf a) (fmtBytes (s.cmd k).ccr.srcFmt)))) y := by
  have read : readSide s k n (s.cmd k).ccr.srcSp false a (s.cmd k).ccr.srcFmt = .ok (pickCode (s.cmd k).ccr.srcFmt a
      (leNat (memReads (s.team (s.cmd k).team).scratch (localOf a) (fmtBytes (s.cmd k).ccr.srcFmt)))) s := by
    simp only [readSide, space, clean, Bool.false_eq_true, if_false]
  unfold moveElement
  simp only [h.rows, Bool.false_eq_true, if_false, rowAt_plain h, h.dst, passes, blockScale_plain h, src, takenOr, h.fresh, read,
    Cmd.xfer, alike, if_true]
  exact ⟨_, rfl⟩

/-- A destination outside global memory needs no translation; one that translates passes. -/
theorem destPasses_local (space : (s.cmd k).ccr.dstSp = 1) : destPasses s k (s.cmd k).ccr.dstSp d = .ok s := by
  simp [destPasses, space]

theorem destPasses_home {pa : Nat} {e : W64} (space : (s.cmd k).ccr.dstSp = 0)
    (passed : translateCmd s k (vaOf d) true = (.hbm pa e, s)) : destPasses s k (s.cmd k).ccr.dstSp d = .ok s := by
  simp [destPasses, space, passed]

/-! ## Where it is written (R229) -/

/-- A write to a team's scratchpad changes no other team. -/
theorem team_scratchWrite_other (s : State) (T a : Nat) (bs : List Byte) {j : Nat} (other : j ≠ T) :
    (scratchWrite s T a bs).team j = s.team j := by
  have fired (u : State) (core : Nat) (lines : List Nat) : (fireMonitors u core T lines).team j = u.team j := rfl
  rw [scratchWrite, fired, team_onTeam_other s _ other]

/-- The work on an element is done: `bs` stand at `d` in the scratchpad of the command's team, and nothing else differs. -/
def WritesScratch (s : State) (k : Nat) (d : Int) (bs : List Byte) (p : Perf) : Prop :=
  ∃ t, p = .ok t ∧
    (memReads (t.team (s.cmd k).team).scratch (localOf d) (fmtBytes (s.cmd k).ccr.dstFmt) = bs ∧
      ∀ b, b < localOf d ∨ localOf d + fmtBytes (s.cmd k).ccr.dstFmt ≤ b →
        memRead (t.team (s.cmd k).team).scratch b = memRead (s.team (s.cmd k).team).scratch b) ∧
    t.hbm = s.hbm ∧ t.host = s.host ∧ ∀ j, j ≠ (s.cmd k).team → t.team j = s.team j

/-- The same in HBM at `pa`. -/
def WritesHome (s : State) (k pa : Nat) (bs : List Byte) (p : Perf) : Prop :=
  ∃ t, p = .ok t ∧
    (memReads t.hbm pa (fmtBytes (s.cmd k).ccr.dstFmt) = bs ∧
      ∀ b, b < pa ∨ pa + fmtBytes (s.cmd k).ccr.dstFmt ≤ b → memRead t.hbm b = memRead s.hbm b) ∧
    t.host = s.host ∧ ∀ j, (t.team j).scratch = (s.team j).scratch

theorem putElement_scratch (h : PlainElement s k n d) (space : (s.cmd k).ccr.dstSp = 1)
    (wf : Memory.wf (s.team (s.cmd k).team).scratch = true) (x : Nat) (y : Tally) :
    WritesScratch s k d (codeBytes (s.cmd k).ccr.dstFmt x) (putElement s k n d x y) := by
  let u := scratchWrite s (s.cmd k).team (localOf d) (codeBytes (s.cmd k).ccr.dstFmt x)
  have put : putElement s k n d x y = .ok (countElement u k n y) := by
    simp only [putElement, writeSide, space, h.redop, putScratch, newCode_plain h.bytes, bne_self_eq_false, Bool.false_and,
      Bool.false_eq_true, if_false]
    rfl
  have counts : CountsOnly (s.cmd k).team u (countElement u k n y) := countsOnly_countElement u k n y
  have written := (made_scratchWrite _ 0 s rfl (localOf d) (codeBytes (s.cmd k).ccr.dstFmt x) (T := (s.cmd k).team)).2
  refine ⟨_, put, ?_, counts.hbm, counts.host, fun j other => (counts.others j other).trans (team_scratchWrite_other s _ _ _ other)⟩
  rw [counts.scratch, written]
  exact memWrites_puts wf _ (length_leBytes ..)

/-- A code written to a page whose home is the command's die. -/
theorem putElement_home (h : PlainElement s k n d) (space : (s.cmd k).ccr.dstSp = 0) (wf : Memory.wf s.hbm = true) {pa : Nat} {e : W64}
    (passed : translateCmd s k (vaOf d) true = (.hbm pa e, s)) (plain : pteSibling e = false) (home : homeDie e pa = (s.cmd k).die)
    (x : Nat) (y : Tally) : WritesHome s k pa (codeBytes (s.cmd k).ccr.dstFmt x) (putElement s k n d x y) := by
  let u := homeWrite s pa (codeBytes (s.cmd k).ccr.dstFmt x)
  have put : putElement s k n d x y = .ok (countElement u k n y) := by
    simp only [putElement, writeSide, space, h.redop, passed, plain, newCode_plain h.bytes, home, l2Write, beq_self_eq_true,
      Bool.false_eq_true, if_false, if_true]
    rfl
  have counts := countsOnly_countElement u k n y
  have written : u.hbm = memWrites s.hbm pa (codeBytes (s.cmd k).ccr.dstFmt x) := rfl
  refine ⟨_, put, ?_, counts.host, counts.scratch⟩
  rw [counts.hbm, written]
  exact memWrites_puts wf _ (length_leBytes ..)

/-! ## The bytes of an element -/

/-- A copy between one format in the scratchpad leaves the source's bytes. -/
theorem moveElement_copies (h : PlainElement s k n d) (space : (s.cmd k).ccr.dstSp = 1)
    (wf : Memory.wf (s.team (s.cmd k).team).scratch = true) {a : Int}
    (src : ((s.cmd k).ccr.elem n { ok := true, base := 0, off := 0 }).src = some a) (from_ : (s.cmd k).ccr.srcSp = 1)
    (alike : (s.cmd k).ccr.srcFmt = (s.cmd k).ccr.dstFmt) (unscaled : (s.cmd k).ccr.scaleMode = 0)
    (clean : scratchBad s (s.cmd k).team (localOf a) (fmtBytes (s.cmd k).ccr.dstFmt) = false) :
    WritesScratch s k d (memReads (s.team (s.cmd k).team).scratch (localOf a) (fmtBytes (s.cmd k).ccr.dstFmt)) (moveElement s k n) := by
  have same : (s.cmd k).ccr.identity = true := by simp [Ccr.identity, alike, unscaled]
  obtain ⟨y, moved⟩ := moveElement_of_copy h (destPasses_local space) src from_ same (alike ▸ clean)
  have written := putElement_scratch h space wf (pickCode (s.cmd k).ccr.dstFmt a
    (leNat (memReads (s.team (s.cmd k).team).scratch (localOf a) (fmtBytes (s.cmd k).ccr.dstFmt)))) y
  rw [codeBytes_pickCode h.bytes] at written
  rw [moved, alike]
  exact written

/-- A padded element leaves the pad pattern. -/
theorem moveElement_pads (h : PlainElement s k n d) (space : (s.cmd k).ccr.dstSp = 1)
    (wf : Memory.wf (s.team (s.cmd k).team).scratch = true) (noFill : (s.cmd k).ccr.kind ≠ 5)
    (padded : ((s.cmd k).ccr.elem n { ok := true, base := 0, off := 0 }).src = none) :
    WritesScratch s k d (codeBytes (s.cmd k).ccr.dstFmt (s.cmd k).ccr.padCode) (moveElement s k n) := by
  rw [moveElement_of_no_source h (destPasses_local space) padded, if_neg noFill]
  exact putElement_scratch h space wf _ _

/-- An element of a FILL leaves its value. -/
theorem moveElement_fills (h : PlainElement s k n d) (space : (s.cmd k).ccr.dstSp = 1)
    (wf : Memory.wf (s.team (s.cmd k).team).scratch = true) (fill : (s.cmd k).ccr.kind = 5)
    (noSource : ((s.cmd k).ccr.elem n { ok := true, base := 0, off := 0 }).src = none) :
    WritesScratch s k d (codeBytes (s.cmd k).ccr.dstFmt ((s.cmd k).ccr.src % 2 ^ fmtBits (s.cmd k).ccr.dstFmt)) (moveElement s k n) := by
  rw [moveElement_of_no_source h (destPasses_local space) noSource, if_pos fill]
  exact putElement_scratch h space wf _ _

theorem moveElement_fills_home (h : PlainElement s k n d) (space : (s.cmd k).ccr.dstSp = 0) (fill : (s.cmd k).ccr.kind = 5)
    (noSource : ((s.cmd k).ccr.elem n { ok := true, base := 0, off := 0 }).src = none) (wf : Memory.wf s.hbm = true) {pa : Nat} {e : W64}
    (passed : translateCmd s k (vaOf d) true = (.hbm pa e, s)) (plain : pteSibling e = false) (home : homeDie e pa = (s.cmd k).die) :
    WritesHome s k pa (codeBytes (s.cmd k).ccr.dstFmt ((s.cmd k).ccr.src % 2 ^ fmtBits (s.cmd k).ccr.dstFmt)) (moveElement s k n) := by
  rw [moveElement_of_no_source h (destPasses_home space passed) noSource, if_pos fill]
  exact putElement_home h space wf passed plain home _ _

end Element

end Sys2Proof.CommandElements

/-! PROOFS. Where the elements of a box lie (R229, R233, R235), and the statement about elements. -/

namespace Sys2Proof.CommandElements

open Sys2Proof.Machine Sys2Proof.Safety Sys2Proof.Laws

/-! ## Positions (R229, R233, R235) -/

theorem boxes_of_no_rows {r : Ccr} (rows : r.rows = false) : r.boxes = (List.range 5).map r.boxAt := by
  simp [Ccr.boxes, rows]

/-- The place of element `n` in dim `d` of its box (R233). -/
def boxIndex (r : Ccr) (n d : Nat) : Int := (n / ((List.range d).map r.boxAt).prod % r.boxAt d : Nat)

/-- The same in the destination, whose first two dims TRANSPOSE swaps (R235). -/
def destIndex (r : Ccr) (n d : Nat) : Int :=
  if r.transpose then (if d = 0 then boxIndex r n 1 else if d = 1 then boxIndex r n 0 else boxIndex r n d) else boxIndex r n d

theorem digits_boxes {r : Ccr} (rows : r.rows = false) (n : Nat) :
    (digits r.boxes n).map (fun x : Nat => (x : Int)) = (List.range 5).map (boxIndex r n) := by
  rw [boxes_of_no_rows rows]
  simp [List.range_succ, digits, boxIndex, Nat.div_div_eq_div_mul, mul_assoc]

theorem swapped_boxes (r : Ccr) (n : Nat) :
    (if r.transpose then swap01 ((List.range 5).map (boxIndex r n)) else (List.range 5).map (boxIndex r n)) =
      (List.range 5).map (destIndex r n) := by
  cases h : r.transpose <;> simp [List.range_succ, swap01, destIndex, h]

/-- An address of a side: its base and the sum of the coordinates times the strides, in half-bytes. -/
theorem halfAddr_eq (base : Int) (fmt : Nat) (x stride : Nat → Int) :
    halfAddr base fmt ((List.range 5).map x) ((List.range 5).map stride) =
      2 * (base + ((List.range 5).map fun d => x d * stride d).sum) + if fmt = 3 then x 0 else 0 := by
  simp [halfAddr, List.range_succ, dotInt]

/-- Element `n` of a box: where it is written, and where it is read unless a coordinate falls outside the extent. -/
theorem elem_of_box {r : Ccr} (noConv : r.kind ≠ 4) (rows : r.rows = false) (n : Nat) (ra : RowAt) :
    (r.elem n ra).dst = some (2 * (Ccr.base r.dstSp r.dst + ((List.range 5).map fun d => destIndex r n d * r.dsAt d).sum) +
      if r.dstFmt = 3 then destIndex r n 0 else 0) ∧
    (r.elem n ra).src = if r.kind = 5 ∨ ∃ d ∈ List.range 5, r.startAt d + boxIndex r n d < 0 ∨
        (r.extAt d : Int) ≤ r.startAt d + boxIndex r n d then none
      else some (2 * (Ccr.base r.srcSp r.src + ((List.range 5).map fun d => (r.startAt d + boxIndex r n d) * r.ssAt d).sum) +
        if r.srcFmt = 3 then r.startAt 0 + boxIndex r n 0 else 0) := by
  have box : r.elem n ra = r.boxElem n := by simp [Ccr.elem, noConv, rows]
  have coord : ((List.range 5).map fun d => r.startAt d + ((List.range 5).map (boxIndex r n)).getD d 0) =
      (List.range 5).map fun d => r.startAt d + boxIndex r n d := by
    simp [List.range_succ]
  have padded : ((List.range 5).any fun d => outside (((List.range 5).map fun d => r.startAt d + boxIndex r n d).getD d 0) (r.extAt d)) =
      decide (∃ d ∈ List.range 5, r.startAt d + boxIndex r n d < 0 ∨ (r.extAt d : Int) ≤ r.startAt d + boxIndex r n d) := by
    simp [List.range_succ, outside]
  rw [box, Ccr.boxElem]
  simp only [digits_boxes rows, swapped_boxes, coord, padded, halfAddr_eq, Bool.or_eq_true, beq_iff_eq, decide_eq_true_eq, and_self]

/-! ## The statement -/

/-- Settles O46: each event by the element it performs, each element by the write it comes to, and the positions by the digits of
an element's number in the radix of its box. -/
theorem elements : Obligations.Elements := by
  unfold Obligations.Elements
  refine ⟨fun s u k => ?events, fun s k => sharesTurn_of_alone, engineTurn_iff, fun s u k => ?others, fun s k n d => ?bytes,
    fun r n ra noConv rows => elem_of_box noConv rows n ra⟩
  case events =>
    intro c n known running live going turn half ready named runs inside unlimited r
    have next : NextReady s u k := ⟨known, running, live, going, turn, half, ready, named, runs, inside, unlimited⟩
    exact ⟨fun kind => elementEvent_of_ready next kind _, fun kind => elementEvent_of_ready next kind _,
      fun kind => elementEvent_of_ready next kind _, fun kind => elementEvent_of_ready next kind _,
      fun kind => elementEvent_of_ready next kind _, fun kind => elementEvent_of_ready next kind _, exec_cache_of_ready next⟩
  case others =>
    exact ⟨exec_watch_of_armed, exec_watchSatisfied, exec_watchTimeout, exec_recon,
      fun recon running epoch pa e => exec_reconEpochAdvance recon running epoch, exec_tswap⟩
  case bytes =>
    intro c r e w m puts local_ code dst rows redop mxSrc mxDst bytes fresh
    have plain : PlainElement s k n d := ⟨dst, rows, redop, mxSrc, mxDst, bytes, fresh⟩
    exact ⟨fun space wf => ⟨fun _ a src from_ alike unscaled clean => moveElement_copies plain space wf src from_ alike unscaled clean,
        fun noFill padded => moveElement_pads plain space wf noFill padded,
        fun fill noSource => moveElement_fills plain space wf fill noSource⟩,
      fun space fill noSource wf pa x passed sibling home => moveElement_fills_home plain space fill noSource wf passed sibling home⟩

end Sys2Proof.CommandElements

/-! PROOFS. The completion of commands (R231, R251 to R253, R266, R285), and what a completion leaves: its record, its slip, nothing of
the command. -/

namespace Sys2Proof.CommandCompletion

open Sys2Proof.Machine Sys2Proof.Safety Sys2Proof.Laws

/-! ## The events that complete (R231, R252, R266) -/

section Events

variable {s : State} {k : Nat}

theorem exec_commandComplete (known : (tget s.cmds k).isSome) (live : s.live (s.cmd k).team = true) (landed : (s.cmd k).state = .following)
    (half : s.now % 2 = 1) (followed : followDone s (s.cmd k) = true) : exec (.commandComplete k) s = .next (completeCmd s k) := by
  have arm : exec (.commandComplete k) s = execCommandComplete k s := rfl
  simp [arm, execCommandComplete, known, live, landed, State.lateHalf, half, followed]

theorem exec_ringRecordResume (known : (tget s.cmds k).isSome) (live : s.live (s.cmd k).team = true) (waits : (s.cmd k).state = .recording)
    (half : s.now % 2 = 1) : exec (.ringRecordResume k) s = .next (completeCmd s k) := by
  have arm : exec (.ringRecordResume k) s = execRingRecordResume k s := rfl
  simp [arm, execRingRecordResume, known, live, waits, State.lateHalf, half]

theorem exec_malformedComplete (known : (tget s.cmds k).isSome) (live : s.live (s.cmd k).team = true) (bad : (s.cmd k).state = .malformed)
    (half : s.now % 2 = 1) (later : (s.cmd k).armedAt / 2 < s.now / 2) : exec (.malformedComplete k) s = .next (completeCmd s k) := by
  have arm : exec (.malformedComplete k) s = execMalformedComplete k s := rfl
  simp [arm, execMalformedComplete, known, live, bad, State.lateHalf, half, later]

/-! ## The hand-over of a follow-on (R251, R278, R285) -/

/-- The order of a cycle is no part of a core or of a command. -/
theorem core_inOrder (s : State) (kind rank c : Nat) : (s.inOrder kind rank).core c = s.core c := by
  unfold State.inOrder
  split
  · split
    · rfl
    · split <;> rfl
  · rfl

theorem cmd_inOrder (s : State) (kind rank k : Nat) : (s.inOrder kind rank).cmd k = s.cmd k := by
  unfold State.inOrder
  split
  · split
    · rfl
    · split <;> rfl
  · rfl

theorem core_onCmd (s : State) (k : Nat) (f : Cmd → Cmd) (c : Nat) : (s.onCmd k f).core c = s.core c := rfl

/-- What is handed over: the record's last doublewords, with the generator as it stood at the post. -/
def followOn (c : Cmd) (k id stamp : Nat) : MatOp :=
  { (default : MatOp) with
    id := id, stamp := stamp, team := c.team, dw0 := c.dws.getD 28 0, dw1 := c.dws.getD 29 0, op := c.ccr.mcmd.op, cmd := some k
    gen := c.postGen }

/-- The operation joins the matrix queue of its core, under a fresh identifier that the command keeps. -/
def handOver (s : State) (k id stamp : Nat) : State :=
  (s.onCore (s.cmd k).core fun x => { x with
    mat := x.mat ++ [followOn (s.cmd k) k id stamp]
    claims := x.claims.map fun y => if y.matrix && y.owner == followOwner k then { y with owner := id } else y }).onCmd k
      fun c => { c with follow := some id, engine := none }

theorem exec_followOnHandover (known : (tget s.cmds k).isSome) (live : s.live (s.cmd k).team = true) (landed : (s.cmd k).state = .following)
    (done_ : (s.cmd k).status = 0) (wanted : (s.cmd k).ccr.follow = true) (once : (s.cmd k).follow = none)
    (room : (s.core (s.cmd k).core).mat.length < 32) (first : matrixWaits s (s.cmd k).core = []) (half : s.now % 2 = 1) :
    ∃ u id stamp, exec (.followOnHandover k) s = .next (handOver u k id stamp) ∧ u.cmd k = s.cmd k ∧
      (u.core (s.cmd k).core).mat = (s.core (s.cmd k).core).mat := by
  have arm : exec (.followOnHandover k) s = execFollowOnHandover k s := rfl
  let o := s.inOrder (matrixOrder (s.cmd k).core) ((s.cmd k).engine.getD 0)
  let u := (o.freshId (s.cmd k).core).2
  have same : u.cmd k = s.cmd k := cmd_inOrder s ..
  have queue : (u.core (s.cmd k).core).mat = (s.core (s.cmd k).core).mat := by
    have fresh : u.core (s.cmd k).core = { o.core (s.cmd k).core with nextId := (o.core (s.cmd k).core).nextId + 1 } :=
      core_onCore_same o (s.cmd k).core _
    rw [fresh, core_inOrder]
  refine ⟨u, (o.freshId (s.cmd k).core).1, (followStamp (u.core (s.cmd k).core) k).getD (o.freshId (s.cmd k).core).1, ?_, same, queue⟩
  simp only [arm, execFollowOnHandover, known, live, landed, done_, wanted, once, room, first, State.lateHalf, half, beq_self_eq_true,
    Option.isNone_none, List.isEmpty_nil, decide_true, Bool.and_self, if_true, handOver, same]
  rfl

/-- It stands behind what the queue holds, and the command waits for it. -/
theorem handOver_leaves (u : State) (k id stamp : Nat) :
    ((handOver u k id stamp).core (u.cmd k).core).mat = (u.core (u.cmd k).core).mat ++ [followOn (u.cmd k) k id stamp] ∧
      ((handOver u k id stamp).cmd k).follow = some id ∧ ((handOver u k id stamp).cmd k).state = (u.cmd k).state := by
  unfold handOver
  refine ⟨?_, ?_, ?_⟩
  · rw [core_onCmd, core_onCore_same]
  · rw [cmd_onCmd_same]
  · rw [cmd_onCmd_same]
    rfl

end Events

/-! ## Records, rings and slips (R252, R253, R266) -/

theorem tdel_tdel {α : Type} (t : Tbl α) (k : Nat) : tdel (tdel t k) k = tdel t k := by simp [tdel]

/-- A completion sets its slip. -/
theorem teamSlip_completeSlip (s : State) (t n scope : Nat) : teamSlip (completeSlip s t (some n) scope) t n = .set := by
  simp [completeSlip, teamSlip, setSlip]

/-- The command is gone, and its slip is SET. -/
theorem finishCmd_leaves (u : State) (k : Nat) : (finishCmd u k).cmds = tdel (finishCmd u k).cmds k ∧
    ∀ n, (u.cmd k).slip = some n → teamSlip (finishCmd u k) (u.cmd k).team n = .set := by
  refine ⟨(tdel_tdel ..).symm, fun n slip => ?_⟩
  unfold finishCmd
  simp only [slip]
  exact teamSlip_completeSlip ..

theorem completeCmd_of_written {s u : State} {k : Nat} (written : writeRecord s k = some u) : completeCmd s k = finishCmd u k := by
  rw [completeCmd, written]

theorem completeCmd_of_full {s : State} {k : Nat} (full : writeRecord s k = none) :
    completeCmd s k = s.onCmd k fun c => { c with state := .recording } := by
  rw [completeCmd, full]

/-- A record asked for at an even address goes to the scratchpad. -/
theorem writeRecord_scratch {s : State} {k : Nat} (asked : recordAsked s (s.cmd k) = true) (even : (s.cmd k).ccr.recAddr % 2 = 0) :
    writeRecord s k = some (scratchWrite s (s.cmd k).team (s.cmd k).ccr.recAddr ((s.cmd k).record s.now)) := by
  simp [writeRecord, asked, even]

theorem record_length (c : Cmd) (now : Nat) : (c.record now).length = 32 := by
  simp [Cmd.record, CommandElements.length_leBytes]

/-- A record begins with its status and its fault. -/
theorem record_take (c : Cmd) (now : Nat) : (c.record now).take 4 = leBytes 2 c.status ++ leBytes 2 c.fault := by
  simp [Cmd.record, CommandElements.length_leBytes, List.take_append]

/-! ## Fences (R217, R248, R261) -/

section Fences

variable {s : State} {k : Nat}

/-- The write-backs that a fence needs before it: all dirty lines of its address space, at .package and beyond. -/
def fenceBack (s : State) (k : Nat) : List Nat × List (CLine × Nat) × State :=
  if (s.cmd k).ccr.scope ≥ 4 then writeBackAll s (s.cmd k).core (dirtyLines s (s.cmd k).core ((s.cmd k).asid s)) else ([], [], s)

/-- Nothing holds the fence back: every earlier command of its queue has completed, and its write-backs are done. -/
structure FenceFree (s : State) (k : Nat) : Prop where
  alone : earlier s k = []
  acked : ackWait s (s.cmd k).team (s.cmd k).ccr.scope = false
  open_ : releaseHeld s (s.cmd k).core (s.cmd k).team (s.cmd k).ccr.scope = false
  noneHeld : (fenceBack s k).1 = []
  noneBad : (fenceBack s k).2.1 = []
  known : (tget (fenceBack s k).2.2.cmds k).isSome

/-- The state at the release of the fence. -/
def fenceReleased (s : State) (k : Nat) : State := fenceRelease (fenceBack s k).2.2 (s.cmd k).core (s.cmd k).team (s.cmd k).ccr.scope

theorem FenceFree.back (free : FenceFree s k) : ∃ b, fenceBack s k = ([], [], b) ∧ tget b.cmds k ≠ none :=
  ⟨(fenceBack s k).2.2, Prod.ext free.noneHeld (Prod.ext free.noneBad rfl), Option.isSome_iff_ne_none.mp free.known⟩

/-- A FENCE that runs ends with status 0. -/
theorem exec_fence (free : FenceFree s k) (fence : (s.cmd k).kind = 11) (running : (s.cmd k).state = .running) :
    exec (.fenceCommand k) s = .next ((fenceReleased s k).onCmd k fun c => { c with state := .following, status := 0 }) := by
  have arm : exec (.fenceCommand k) s = execFenceCommand k s := rfl
  obtain ⟨b, back, known⟩ := free.back
  have released : fenceReleased s k = fenceRelease b (s.cmd k).core (s.cmd k).team (s.cmd k).ccr.scope := by rw [fenceReleased, back]
  rw [fenceBack] at back
  simp [arm, execFenceCommand, fence, running, free.alone, free.acked, free.open_, back, resolveBad, known, released, endEarly]

/-- A CFENCE at the head of its queue leaves it, with its slip SET. -/
theorem exec_cfence (free : FenceFree s k) (cfence : (s.cmd k).kind = cfenceKind) (queued : (s.cmd k).state = .queued)
    (head : (queueOf s (s.cmd k).core (s.cmd k).cls).head? = some k) (live : s.live (s.cmd k).team = true) (half : s.now % 2 = 1) :
    exec (.fenceCommand k) s = .next (
      let u := completeSlip (unqueue (fenceReleased s k) k) (s.cmd k).team (s.cmd k).slip (s.cmd k).ccr.scope
      { u with cmds := tdel u.cmds k }) := by
  have arm : exec (.fenceCommand k) s = execFenceCommand k s := rfl
  obtain ⟨b, back, known⟩ := free.back
  have released : fenceReleased s k = fenceRelease b (s.cmd k).core (s.cmd k).team (s.cmd k).ccr.scope := by rw [fenceReleased, back]
  rw [fenceBack] at back
  simp [arm, execFenceCommand, cfence, queued, head, live, State.lateHalf, half, free.alone, free.acked, free.open_, back,
    resolveBad, known, released]

end Fences

/-! ## LAUNCH (R166, R248) -/

section Launch

variable {s u : State} {k : Nat} {dws : List W64}

theorem exec_launchCommand (known : (tget s.cmds k).isSome) (launch : (s.cmd k).kind = 12) (running : (s.cmd k).state = .running)
    (unlimited : (s.cmd k).limit = none) (half : engineTurn s (s.cmd k).ccr = true)
    (packet : readPacket k (List.range 16) s [] = (none, dws, u)) : exec (.launchCommand k) s = .next (offerPacket u k dws) := by
  have arm : exec (.launchCommand k) s = execLaunchCommand k s := rfl
  simp [arm, execLaunchCommand, Option.isSome_iff_ne_none.mp known, launch, running, unlimited, half, packet]

/-- A packet that a condition of R160 refuses ends the command with status 1. -/
theorem offerPacket_of_refused (refused : refusal s dws ≠ none) :
    offerPacket s k dws = s.onCmd k fun c => { c with state := .following, status := 1 } := by
  rw [offerPacket, if_pos (Option.isSome_iff_ne_none.mpr refused)]
  rfl

/-- One whose RCB is of another context ends it with a fault. -/
theorem offerPacket_of_foreign (passes : refusal s dws = none) (foreign : ctxOf s (packetOf dws).rcb ≠ teamCtx s (s.cmd k).team) :
    offerPacket s k dws = refuseCmd s k 0x0102 := by
  simp [offerPacket, passes, foreign]

/-- Any other is accepted, and the command counts its teams. -/
theorem offerPacket_of_accepted (passes : refusal s dws = none) (own : ctxOf s (packetOf dws).rcb = teamCtx s (s.cmd k).team) :
    offerPacket s k dws = (endEarly (acceptLaunch s (packetOf dws) none) k 0).onCmd k fun c => { c with els := (packetOf dws).teams } := by
  simp [offerPacket, passes, own]

/-- An accepted packet stands under the next launch identifier. -/
theorem tget_acceptLaunch (s : State) (p : Packet) (session : Option Nat) :
    ∃ l, tget (acceptLaunch s p session).launches s.nextLaunch = some l ∧ l.pkt = p ∧ l.id = s.nextLaunch := by
  rw [acceptLaunch, tget_tset_same]
  exact ⟨_, rfl, rfl, rfl⟩

/-- The command that offered it ends with the count of its teams. -/
theorem offerPacket_accepts (passes : refusal s dws = none) (own : ctxOf s (packetOf dws).rcb = teamCtx s (s.cmd k).team) :
    ∃ l, tget (offerPacket s k dws).launches s.nextLaunch = some l ∧ l.pkt = packetOf dws ∧ l.id = s.nextLaunch ∧
      (offerPacket s k dws).nextLaunch = s.nextLaunch + 1 ∧ ((offerPacket s k dws).cmd k).els = (packetOf dws).teams := by
  obtain ⟨l, stands, pkt, id⟩ := tget_acceptLaunch s (packetOf dws) none
  rw [offerPacket_of_accepted passes own, cmd_onCmd_same]
  exact ⟨l, stands, pkt, id, rfl, rfl⟩

end Launch

/-! ## The statement -/

/-- Settles O47: each event by what it comes to, a completion by where its record goes, fences by what holds them, and LAUNCH by
what becomes of its packet. -/
theorem commandCompletion : Obligations.CommandCompletion := by
  unfold Obligations.CommandCompletion
  refine ⟨fun s k known live => ⟨?complete, ?resume, ?malformed, ?handover⟩, ⟨?finish, fun s k => completeCmd_of_full,
    fun s k => writeRecord_scratch, fun c now => ⟨record_length c now, record_take c now⟩⟩,
    fun s k => ⟨?fence, ?cfence, ?launch, fun dws => offerPacket_of_refused, fun dws => offerPacket_of_foreign,
      fun dws => offerPacket_accepts⟩⟩
  case complete => exact fun landed half followed => exec_commandComplete known live landed half followed
  case resume => exact fun waits half => exec_ringRecordResume known live waits half
  case malformed => exact fun bad half later => exec_malformedComplete known live bad half later
  case handover =>
    intro landed done_ wanted once room first half
    obtain ⟨u, id, stamp, run, same, queue⟩ := exec_followOnHandover known live landed done_ wanted once room first half
    obtain ⟨behind, waits, stands⟩ := handOver_leaves u k id stamp
    rw [same] at behind stands
    rw [queue] at behind
    exact ⟨_, _, run, behind, rfl, rfl, rfl, rfl, waits, stands.trans landed⟩
  case finish =>
    intro s u k written
    obtain ⟨gone, slip⟩ := finishCmd_leaves u k
    exact ⟨gone, completeCmd_of_written written, slip⟩
  case fence =>
    rintro fence running ⟨alone, acked, open_, noneHeld, noneBad, known⟩
    exact exec_fence ⟨alone, acked, open_, noneHeld, noneBad, known⟩ fence running
  case cfence =>
    rintro cfence queued head live half ⟨alone, acked, open_, noneHeld, noneBad, known⟩
    exact exec_cfence ⟨alone, acked, open_, noneHeld, noneBad, known⟩ cfence queued head live half
  case launch =>
    exact fun known launch running unlimited half dws u packet => exec_launchCommand known launch running unlimited half packet

end Sys2Proof.CommandCompletion

/-! PROOFS. Admission, team queues, stealing and the carve of local SRAM (R163, R164, R182, R183). -/

namespace Sys2Proof.Scheduling

open Sys2Proof.Machine Sys2Proof.Safety Sys2Proof.Laws

/-! ## Admission and team queues (R163) -/

theorem exec_teamAdmit {s : State} {die : Nat} (inside : die < 8) (half : s.now % 2 = 0) :
    exec (.teamAdmit die) s = .next (admitNext s die) := by
  have arm : exec (.teamAdmit die) s = execTeamAdmit die s := rfl
  simp [arm, execTeamAdmit, inside, State.firstHalf, half]

/-- The first candidate, where its next team fits a core, starts on the lowest such core. -/
theorem admitNext_of_fits {s : State} {die k ord core : Nat} {l : Launch} {rest : List (Nat × Launch)}
    (fresh : (s.die die).lastAdmit ≠ s.now / 2 + 1) (first : candidates s die = (k, l) :: rest) (next : nextFor l die = some ord)
    (lowest : coreFor s die l.pkt = some core) : admitNext s die =
      (pastTeam (startTeam s k ord core) k die ord).onDie die fun d => { d with lastAdmit := s.now / 2 + 1 } := by
  have admitted : admitOne s die (k, l) =
      some ((pastTeam (startTeam s k ord core) k die ord).onDie die fun d => { d with lastAdmit := s.now / 2 + 1 }) := by
    simp only [admitOne, next, lowest]
    rfl
  simp [admitNext, fresh, first, admitted]

theorem exec_teamQueueStart {s : State} {core k ord : Nat} (starts : queueStarts s core = some (k, ord)) (half : s.now % 2 = 0) :
    exec (.teamQueueStart core) s =
      .next (startTeam (s.onCore core fun c => { c with teamQueue := c.teamQueue.filter (· != (k, ord)) }) k ord core) := by
  have arm : exec (.teamQueueStart core) s = execTeamQueueStart core s := rfl
  simp [arm, execTeamQueueStart, starts, State.firstHalf, half]

/-! ## The LFSR and the victim (R164) -/

/-- Every bit of the LFSR but the last moves up, and the four taps give the lowest. -/
theorem lfsrStep_bit (l : W16) (i : Nat) : (lfsrStep l).getLsbD i =
    if i = 0 then l.getLsbD 15 ^^ l.getLsbD 13 ^^ l.getLsbD 12 ^^ l.getLsbD 10 else decide (i < 16) && l.getLsbD (i - 1) := by
  simp only [lfsrStep, BitVec.getLsbD_or, BitVec.getLsbD_shiftLeft]
  generalize (l.getLsbD 15 ^^ l.getLsbD 13 ^^ l.getLsbD 12 ^^ l.getLsbD 10) = tap
  cases i with
  | zero => cases tap <;> rfl
  | succ i =>
    have clear : (if tap then 1 else 0 : W16).getLsbD (i + 1) = false := by cases tap <;> simp
    rw [clear]
    simp

/-- A zero comes from zero alone: no bit but the last can be lost, and the last is a tap. -/
theorem lfsrStep_ne_zero {l : W16} (nonzero : l ≠ 0) : lfsrStep l ≠ 0 := by
  intro zero
  have bit (i : Nat) : (lfsrStep l).getLsbD i = false := by rw [zero]; exact BitVec.getLsbD_zero
  have low (i : Nat) (h : i < 15) : l.getLsbD i = false := by
    have := bit (i + 1)
    rwa [lfsrStep_bit, if_neg (Nat.succ_ne_zero i), decide_eq_true (by omega), Bool.true_and, Nat.add_sub_cancel] at this
  have top : l.getLsbD 15 = false := by
    have := bit 0
    rwa [lfsrStep_bit, if_pos rfl, low 13 (by omega), low 12 (by omega), low 10 (by omega), Bool.xor_false, Bool.xor_false,
      Bool.xor_false] at this
  refine nonzero (BitVec.eq_of_getLsbD_eq fun i h => ?_)
  refine Eq.trans ?_ BitVec.getLsbD_zero.symm
  by_cases last : i = 15
  · rw [last, top]
  · exact low i (by omega)

/-- In mode 1 the victim is another core of the die. -/
theorem victimOf_same_die {p : Packet} {core : Nat} {l : W16} {v : Nat} (mode : p.steal = 1) (drawn : victimOf p core l = some v) :
    dieOf v = dieOf core ∧ v ≠ core := by
  simp only [victimOf, mode, beq_self_eq_true, if_true, Option.some.injEq] at drawn
  unfold dieOf at drawn ⊢
  split at drawn
  case isTrue self =>
    have := beq_iff_eq.mp self
    omega
  case isFalse other =>
    have : 80 * (core / 80) + l.toNat % 80 ≠ core := fun same => other (beq_iff_eq.mpr same)
    omega

/-! ## Stealing (R164) -/

theorem exec_stealRequest {s : State} {core v : Nat} (inside : core < 640) (some_ : stealable s core ≠ [])
    (alone : (s.core core).stealSent = none) (open_ : (s.core core).stealUntil = 0) (idle : idleCore s core = true)
    (drawn : victimOf ((stealable s core).getD (s.pick 7300 (stealable s core).length) default).2.pkt core
      (lfsrStep (s.core core).lfsr) = some v) :
    exec (.stealRequest core) s = .next (s.onCore core fun c => { c with
      lfsr := lfsrStep (s.core core).lfsr
      stealSent := some ⟨v, ((stealable s core).getD (s.pick 7300 (stealable s core).length) default).2.pkt.steal,
        freeFootprint s core⟩ }) := by
  have arm : exec (.stealRequest core) s = execStealRequest core s := rfl
  have goes : (decide (core ≥ 640) || (stealable s core).isEmpty || (s.core core).stealSent.isSome || (s.core core).stealUntil != 0 ||
      !idleCore s core) = false := by
    simp [inside, some_, alone, open_, idle]
  simp only [arm, execStealRequest, goes, Bool.false_eq_true, if_false, drawn]

/-- What a fold that keeps one of two picks from a list stands in it. -/
theorem foldl_pick_mem {α : Type} (before : α → α → Bool) (x : α) (xs : List α) :
    xs.foldl (fun m y => if before m y then y else m) x ∈ x :: xs := by
  induction xs generalizing x with
  | nil => exact List.mem_singleton_self x
  | cons y ys ih =>
    rw [List.foldl_cons]
    rcases List.mem_cons.mp (ih (if before x y then y else x)) with picked | later
    · rw [picked]
      split
      · exact List.mem_cons_of_mem _ List.mem_cons_self
      · exact List.mem_cons_self
    · exact List.mem_cons_of_mem _ (List.mem_cons_of_mem _ later)

/-- The team that a victim hands over stands in its queue, is of the request's mode, and fits the request. -/
theorem stolen_fits {s : State} {thief : Nat} {r : StealReq} {e : Nat × Nat} (given : stolen s thief r = some e) :
    (s.launch e.1).pkt.fitsIn r.free = true ∧ (s.launch e.1).pkt.steal = r.mode ∧ e ∈ (s.core r.victim).teamQueue := by
  unfold stolen at given
  dsimp only at given
  split at given
  case h_1 => cases given
  case h_2 x xs ready =>
    cases given
    have picked := foldl_pick_mem queueBefore x xs
    rw [← ready, List.mem_filter] at picked
    obtain ⟨queued, ok⟩ := picked
    simp only [Bool.and_eq_true, beq_iff_eq] at ok
    obtain ⟨⟨⟨⟨⟨-, mode⟩, -⟩, room⟩, -⟩, -⟩ := ok
    exact ⟨room, mode, queued⟩

section Answer

variable {s : State} {core : Nat} {r : StealReq}

/-- The state in which a request is answered: it is outstanding no longer. -/
def answered (s : State) (core : Nat) : State := s.onCore core fun c => { c with stealSent := none }

/-- No request of a lower core to the same victim precedes. -/
theorem in_turn (half : s.now % 2 = 0) (first : ∀ e ∈ s.cores, e.1 < core → e.2.stealSent.map (·.victim) ≠ some r.victim) :
    (!s.firstHalf || s.cores.any fun e => e.1 < core && (e.2.stealSent.map (·.victim)) == some r.victim) = false := by
  simp only [State.firstHalf, half, beq_self_eq_true, Bool.not_true, Bool.false_or, List.any_eq_false, Bool.and_eq_true,
    decide_eq_true_eq, beq_iff_eq, not_and]
  exact first

/-- The team given leaves the victim's queue and starts on the thief. -/
theorem exec_stealAnswer_of_given {k ord : Nat} (sent : (s.core core).stealSent = some r) (half : s.now % 2 = 0)
    (first : ∀ e ∈ s.cores, e.1 < core → e.2.stealSent.map (·.victim) ≠ some r.victim)
    (given : stolen (answered s core) core r = some (k, ord))
    (free : fits (answered s core) core ((answered s core).launch k).pkt = true) :
    exec (.stealAnswer core) s = .next (startTeam ((answered s core).onCore r.victim fun c =>
      { c with teamQueue := c.teamQueue.filter (· != (k, ord)) }) k ord core) := by
  have arm : exec (.stealAnswer core) s = execStealAnswer core s := rfl
  rw [answered] at given free
  simp only [arm, execStealAnswer, sent, in_turn half first, given, free, Bool.not_true, Bool.false_eq_true, if_false, answered]

/-- Where the victim gives none, the thief waits for 64 cycles. -/
theorem exec_stealAnswer_of_none (sent : (s.core core).stealSent = some r) (half : s.now % 2 = 0)
    (first : ∀ e ∈ s.cores, e.1 < core → e.2.stealSent.map (·.victim) ≠ some r.victim)
    (none_ : stolen (answered s core) core r = none) :
    exec (.stealAnswer core) s = .next ((answered s core).onCore core fun c => { c with stealUntil := s.now / 2 + 64 }) := by
  have arm : exec (.stealAnswer core) s = execStealAnswer core s := rfl
  rw [answered] at none_
  simp only [arm, execStealAnswer, sent, in_turn half first, none_, Bool.false_eq_true, if_false, answered]

end Answer

theorem exec_stealBackoffEnd {s : State} {core : Nat} (waits : (s.core core).stealUntil ≠ 0)
    (late : (s.core core).stealUntil ≤ s.now / 2) : exec (.stealBackoffEnd core) s = .next (s.onCore core fun c => { c with stealUntil := 0 }) := by
  have arm : exec (.stealBackoffEnd core) s = execStealBackoffEnd core s := rfl
  simp [arm, execStealBackoffEnd, waits, late]

/-! ## The carve (R182, R183) -/

theorem exec_poolGrow {s : State} {die core : Nat} {ws : List Nat} (inside : die < 8)
    (free : ∀ c ∈ coresOf die, (s.core c).carve = none) (choice : growChoice s die = some (core, ws)) :
    exec (.poolGrow die) s = .next (vacate (s.onCore core fun c => { c with carve := some ws }) core ws) := by
  have arm : exec (.poolGrow die) s = execPoolGrow die s := rfl
  have goes : (decide (die ≥ 8) || (coresOf die).any fun core => (s.core core).carve.isSome) = false := by
    simpa [inside] using free
  rw [arm, execPoolGrow, goes, if_neg Bool.false_ne_true, choice]

/-- Ways without lines have nothing to write back. -/
theorem vacate_of_empty {s : State} {core : Nat} {ws : List Nat} (empty : ∀ l ∈ (s.core core).lines, ws.contains l.way = false) :
    vacate s core ws = s := by
  have none_ : (s.core core).lines.filter (fun l => ws.contains l.way) = [] :=
    List.filter_eq_nil_iff.mpr fun l hl => Bool.eq_false_iff.mp (empty l hl)
  rw [vacate, none_, forEach_nil]

theorem exec_carveComplete {s : State} {core : Nat} {ws : List Nat} (carve : (s.core core).carve = some ws)
    (empty : ∀ l ∈ (s.core core).lines, ws.contains l.way = false) (half : s.now % 2 = 1) :
    exec (.carveComplete core) s = .next (s.onCore core fun c => { c with
      carve := none, poolWays := (List.range 16).filter fun w => c.poolWays.contains w || ws.contains w }) := by
  have arm : exec (.carveComplete core) s = execCarveComplete core s := rfl
  have gone : ((s.core core).lines.any fun l => ws.contains l.way) = false :=
    List.any_eq_false.mpr fun l hl => Bool.eq_false_iff.mp (empty l hl)
  rw [arm, execCarveComplete, carve]
  simp only [vacate_of_empty empty, gone, Bool.false_eq_true, if_false]
  simp [State.firstHalf, half]

theorem exec_wayReturn {s : State} {core way : Nat} (upper : 8 ≤ way) (pooled : (s.core core).poolWays.contains way = true)
    (unused : ∀ b ∈ (s.core core).blocks, b / 8 ≠ way) (settled : (s.core core).carve = none) (noQueue : (s.core core).teamQueue = [])
    (noLaunch : ∀ e ∈ s.launches, nextFor e.2 (dieOf core) = none) :
    exec (.wayReturn core way) s = .next (s.onCore core fun c => { c with poolWays := c.poolWays.filter (· != way) }) := by
  have arm : exec (.wayReturn core way) s = execWayReturn core way s := rfl
  have free : ((s.core core).blocks.any fun b => b / 8 == way) = false := by simpa using unused
  have idle : (s.launches.any fun e => (nextFor e.2 (dieOf core)).isSome) = false := by simpa using noLaunch
  simp only [arm, execWayReturn, upper, decide_true, pooled, free, settled, noQueue, idle, Option.isNone_none, List.isEmpty_nil,
    Bool.not_false, Bool.and_self, if_true]

/-! ## The statement -/

/-- Settles O50: each event by what it comes to, the LFSR bit by bit, and the victim by its place in the die. -/
theorem scheduling : Obligations.Scheduling := by
  unfold Obligations.Scheduling
  refine ⟨⟨fun s die => exec_teamAdmit, fun s die k l rest ord core => admitNext_of_fits, fun s core k ord => exec_teamQueueStart,
    fun s core v => exec_stealRequest, ?answer, fun s core => exec_stealBackoffEnd, fun s die core ws => exec_poolGrow,
    fun s core ws => exec_carveComplete, fun s core way => exec_wayReturn⟩,
    fun l => lfsrStep_ne_zero, fun p core l v => victimOf_same_die⟩
  case answer =>
    intro s core r sent half first u
    refine ⟨fun k ord given => ?_, exec_stealAnswer_of_none sent half first⟩
    obtain ⟨room, mode, queued⟩ := stolen_fits given
    exact ⟨room, mode, queued, exec_stealAnswer_of_given sent half first given⟩

end Sys2Proof.Scheduling

/-! PROOFS. What ends the waits of local accesses (R173, R179, R182, R194): window fills, replays of parked lanes and claim waits. -/

namespace Sys2Proof.LocalCompletion

open Sys2Proof.Machine Sys2Proof.Safety Sys2Proof.Laws

/-! ## Fills (R173, R179, R182) -/

section Fills

variable {s : State} {core : Nat} {m : Mse}

theorem exec_windowFillComplete (entry : ((s.core core).mses.find? fun x => x.id == m.id) = some m) :
    exec (.windowFillComplete core m.id) s = .next (completeFill s core m) := by
  have arm : exec (.windowFillComplete core m.id) s = execWindowFillComplete core m.id s := rfl
  rw [arm, execWindowFillComplete, entry]

/-- A line that translates to HBM is read at its home and delivered, and its entry is free. -/
theorem completeFill_of_hbm {u v : State} {pa : Nat} {e : W64} {bs : List Byte} {bad : Bool}
    (clear : awaitsWriteBack (s.core core) m = false)
    (home : translateFor s (s.wave core m.slot).team (dieOf core) m.asid (m.line * 128) false = (.hbm pa e, u))
    (read : readLine u (dieOf core) e pa = (bs, bad, v)) :
    completeFill s core m = releaseMse (deliverLine v core m.asid m.line bs bad) core m.id := by
  simp only [completeFill, clear, home, read, Bool.false_eq_true, if_false]

/-- An absent page parks the loads that wait for the line. -/
theorem completeFill_of_absent {u : State} (clear : awaitsWriteBack (s.core core) m = false)
    (absent : translateFor s (s.wave core m.slot).team (dieOf core) m.asid (m.line * 128) false = (.absent, u)) :
    completeFill s core m = dropEmpty (parkWaiters (releaseMse u core m.id) core m) core m.asid m.line := by
  simp only [completeFill, clear, absent, Bool.false_eq_true, if_false]

end Fills

/-! ## Replays and claim waits (R179, R194) -/

section Waits

variable {s : State} {core slot bid : Nat} {w : Wait}

theorem exec_parkedReplay {accs : List Access} {asid line : Nat} (found : (s.core core).findWait bid = some w)
    (parked : w.kind = .parked accs asid line none) (here : w.slot = slot) :
    exec (.parkedReplay core slot bid) s = .next (replay s core w) := by
  have arm : exec (.parkedReplay core slot bid) s = execParkedReplay core slot bid s := rfl
  simp only [arm, execParkedReplay, found, parked, here, beq_self_eq_true, if_true]

/-- A page that has come gives the parked lanes their line. -/
theorem replay_of_hbm {u v : State} {accs : List Access} {asid line pa : Nat} {e : W64} {fault : Option Nat}
    {bs : List Byte} {bad : Bool} (parked : w.kind = .parked accs asid line fault)
    (home : translateFor s (s.wave core w.slot).team (dieOf core) asid (line * 128) false = (.hbm pa e, u))
    (read : readLine u (dieOf core) e pa = (bs, bad, v)) :
    replay s core w = dropWait (deliverLine v core asid line bs bad) core w.bid := by
  simp only [replay, parked, home, read, unpark]

theorem exec_claimWaitEnd_claim {accs : List Access} (found : (s.core core).findWait bid = some w) (claim : w.kind = .claim accs)
    (here : w.slot = slot) : exec (.claimWaitEnd core slot bid) s = .next (endClaimWait s core w accs) := by
  have arm : exec (.claimWaitEnd core slot bid) s = execClaimWaitEnd core slot bid s := rfl
  simp only [arm, execClaimWaitEnd, found, claim, here, beq_self_eq_true, if_true]

theorem exec_claimWaitEnd_record {a n : Nat} (found : (s.core core).findWait bid = some w) (record : w.kind = .record a n)
    (here : w.slot = slot) (free : recordClaimed s core (s.wave core slot).team a n = false) :
    exec (.claimWaitEnd core slot bid) s = .next (wakeWait s core w) := by
  have arm : exec (.claimWaitEnd core slot bid) s = execClaimWaitEnd core slot bid s := rfl
  simp only [arm, execClaimWaitEnd, found, record, here, free, beq_self_eq_true, Bool.not_false, Bool.and_self, if_true]

/-- The accesses of a claim wait whose lanes no claim holds. -/
def freed (s : State) (core : Nat) (w : Wait) (accs : List Access) : List Access :=
  accs.filter fun a => unclaimed s core (s.wave core w.slot).team w.bid accs a.r

theorem endClaimWait_of_performed {u : State} {accs : List Access} (some_ : freed s core w accs ≠ [])
    (performed : performLane s core (s.wave core w.slot).team (teamAsid s (s.wave core w.slot).team) (freed s core w accs) = .ok u)
    (live : u.live (s.wave core w.slot).team = true) :
    endClaimWait s core w accs =
      leaveClaim u core w (freed s core w accs) (accs.filter fun a => !(freed s core w accs).contains a) := by
  have goes : (freed s core w accs).isEmpty = false := List.isEmpty_eq_false_iff.mpr some_
  unfold freed at *
  simp only [endClaimWait, goes, performed, live, Bool.not_true, Bool.false_eq_true, if_false]

/-- Where no claim holds any lane, all of the accesses are performed. -/
theorem freed_of_unclaimed {accs : List Access}
    (free : ∀ a ∈ accs, unclaimed s core (s.wave core w.slot).team w.bid accs a.r = true) : freed s core w accs = accs :=
  List.filter_eq_self.mpr free

/-- A wait that no access is left in is over. -/
theorem leaveClaim_all (u : State) (core : Nat) (w : Wait) (accs : List Access) :
    leaveClaim u core w accs (accs.filter fun a => !accs.contains a) =
      finishWait (forEach accs u fun s a => onPend s core a.pend fun p => { p with held := p.held - 1 }) core w := by
  have left : (accs.filter fun a => !accs.contains a) = [] := by simp
  rw [left, leaveClaim, List.isEmpty_nil, if_pos rfl]

/-- A team that nothing on the core holds a claim of has no lane held back. -/
theorem unclaimed_of_no_claims {t : Nat} (none_ : ∀ k ∈ (s.core core).claims, k.team ≠ t) (bid : Nat) (accs : List Access)
    (r : LaneRef) : unclaimed s core t bid accs r = true := by
  have passes : ∀ k ∈ (s.core core).claims, ∀ a : Access, k.holds t a = false := fun k hk a => by
    simp [Claim.holds, none_ k hk]
  simp +contextual [unclaimed, passes]

end Waits

/-! ## The statement -/

/-- Settles O27: each event by what it comes to once its line translates, or once its accesses are performed. -/
theorem localEvents : Obligations.LocalEvents := by
  unfold Obligations.LocalEvents
  refine ⟨?fill, ?replay, ?claim, fun s core t bid accs r none_ => unclaimed_of_no_claims none_ bid accs r,
    fun s core slot bid w a n => exec_claimWaitEnd_record⟩
  case fill =>
    intro s core m entry die asked clear
    rw [exec_windowFillComplete entry]
    exact ⟨fun pa x home => congrArg _ (completeFill_of_hbm clear (Prod.ext home rfl) rfl),
      fun absent => congrArg _ (completeFill_of_absent clear (Prod.ext absent rfl))⟩
  case replay =>
    intro s core slot bid w accs asid line found parked here die asked pa x home
    rw [exec_parkedReplay found parked here]
    exact congrArg _ (replay_of_hbm parked (Prod.ext home rfl) rfl)
  case claim =>
    intro s core slot bid w accs u found claim here t go some_ performed live v
    have ends : exec (.claimWaitEnd core slot bid) s = .next (leaveClaim u core w go (accs.filter fun a => !go.contains a)) := by
      rw [exec_claimWaitEnd_claim found claim (here : w.slot = slot)]
      exact congrArg _ (endClaimWait_of_performed some_ performed live)
    refine ⟨ends, fun free => ?_⟩
    have all : go = accs := freed_of_unclaimed free
    rw [ends]
    simp only [v, all, leaveClaim_all]

end Sys2Proof.LocalCompletion

/-! PROOFS. The package as a whole (R192, R391, R392): what a boot leaves, what a thermal stop leaves alone, and what an uncorrectable
error poisons. -/

namespace Sys2Proof.Package

open Sys2Proof.Machine Sys2Proof.Safety Sys2Proof.Laws

/-! ## Boot (R389, R391) -/

theorem exec_powerOn_or_resetInput {i : Instr} (s : State) (which : i = .powerOn ∨ i = .resetInput) :
    exec i s = .next (bootPackage s) := by
  rcases which with rfl | rfl <;> rfl

/-- No work, session, address space, communicator or key slot of `s` stands in `t`, and the clocks are at 0; the boot is counted, and
host memory is no part of it. -/
structure Booted (s t : State) : Prop where
  now : t.now = 0
  cores : t.cores = []
  dies : t.dies = []
  teams : t.teams = []
  launches : t.launches = []
  cmds : t.cmds = []
  leases : t.leases = []
  roots : t.roots = []
  ctxs : t.ctxs = []
  comms : t.comms = []
  sessions : t.sessions = []
  keys : t.keys = []
  keysUsed : t.keysUsed = []
  counted : t.bootCount = s.bootCount + 1
  host : t.host = s.host

/-- A refused package image stops boot (R389); an image that verifies boots the package with HBM zero. -/
theorem bootPackage_power (s : State) :
    ((bootPackage s).power = .up ∧ (bootPackage s).hbm = [] ∧ (bootPackage s).hbmPoison = []) ∨ (bootPackage s).power = .off := by
  cases image : imageOk (s.bootCount + 1) 0 with
  | true => exact .inl (by simp [bootPackage, image, State.reset])
  | false => exact .inr (by simp [bootPackage, image])

/-- A refused image and one that verifies leave the same blank package. -/
theorem bootPackage_booted (s : State) : Booted s (bootPackage s) := by
  unfold bootPackage
  dsimp only
  split <;> constructor <;> rfl

/-! ## Power (R392) -/

theorem exec_powerLimit (s : State) :
    exec .powerLimit s = .next (if 7500 < (Config.sensor 0 s.now).toNat then { s with skipping := true } else s) := by
  have arm : exec .powerLimit s = execPowerLimit s := rfl
  rw [arm, execPowerLimit, apply_ite Host.Outcome.next]

theorem exec_powerFallsBelowLimit (s : State) :
    exec .powerFallsBelowLimit s = .next (if (Config.sensor 0 s.now).toNat < 7500 then { s with skipping := false } else s) := by
  have arm : exec .powerFallsBelowLimit s = execPowerFallsBelowLimit s := rfl
  rw [arm, execPowerFallsBelowLimit, apply_ite Host.Outcome.next]

/-! ## A thermal stop (R392) -/

/-- A datagram to a host moves no operation of any session. -/
theorem pending_tell (s : State) (n ty : Nat) (bs : List Byte) (k : Nat) :
    ((s.tell n ty bs).session k).pending = (s.session k).pending := by
  by_cases same : k = n
  · subst same
    simp [State.tell, State.onSession, State.session]
  · simp [State.tell, State.onSession, State.session, same]

/-- The package is stopped by the die, with the cores and HBM of `s`, and no operation of a session waits. -/
structure StoppedFrom (s : State) (die : Nat) (t : State) : Prop where
  power : t.power = .stopped die
  cores : t.cores = s.cores
  hbm : t.hbm = s.hbm
  idle : ∀ n, (t.session n).pending = none

theorem StoppedFrom.tell {s t : State} {die : Nat} (h : StoppedFrom s die t) (n ty : Nat) (bs : List Byte) :
    StoppedFrom s die (t.tell n ty bs) :=
  ⟨h.power, h.cores, h.hbm, fun k => (pending_tell t n ty bs k).trans (h.idle k)⟩

theorem session_idle {s : State} (idle : ∀ e ∈ s.sessions, e.2.pending = none) (n : Nat) : (s.session n).pending = none := by
  unfold State.session tgetD
  cases found : tget s.sessions n with
  | none => rfl
  | some x => exact idle (n, x) (TeamLife.mem_of_tget found)

/-- A die below 105 degrees stops nothing. -/
theorem exec_thermalStop_cool {s : State} {die : Nat} (cool : (Config.sensor (1 + die) s.now).toNat < 840) :
    exec (.thermalStop die) s = .next s := by
  have arm : exec (.thermalStop die) s = execThermalStop die s := rfl
  simp [arm, execThermalStop, Nat.not_le.mpr cool]

/-- A die at 105 degrees stops the package, and every open session is told. -/
theorem exec_thermalStop_hot {s : State} {die : Nat} (inside : die < 10) (up : s.power = .up)
    (idle : ∀ e ∈ s.sessions, e.2.pending = none) (hot : 840 ≤ (Config.sensor (1 + die) s.now).toNat) :
    ∃ t, exec (.thermalStop die) s = .next t ∧ StoppedFrom s die t := by
  have arm : exec (.thermalStop die) s = execThermalStop die s := rfl
  simp only [arm, execThermalStop, inside, up, hot, decide_true, beq_self_eq_true, Bool.and_self, if_true]
  refine ⟨_, rfl, forEach_keeps (StoppedFrom s die) _ _ _ ⟨rfl, rfl, rfl, session_idle idle⟩ fun t n _ stopped => ?_⟩
  have told := stopped.tell n 0x21 (freezeExtra 0 4 die 0)
  simp only [told.idle n]
  exact told

/-! ## Uncorrectable errors (R192) -/

theorem exec_uncorrectableError (loc : ErrLoc) (s : State) :
    exec (.uncorrectableError loc) s = .next { poisonAt s loc with eccUncorrectable := s.eccUncorrectable + 1 } := by rfl

theorem poisonAt_scratch {s : State} {team line : Nat} (live : s.live team = true) (inside : line < (teamPkt s team).scratch / 128) :
    poisonAt s (.scratch team line) = s.onTeam team fun t => { t with scratchPoison := line :: t.scratchPoison } := by
  simp [poisonAt, live, inside]

/-! ## The statement -/

/-- Settles O54: a boot by what its image allows, a thermal stop by what telling the sessions leaves alone, an error by what it
poisons. -/
theorem packageReset : Obligations.PackageReset := by
  unfold Obligations.PackageReset
  refine ⟨?boot, exec_powerLimit, exec_powerFallsBelowLimit, ?thermal, ?hbm, ?scratch⟩
  case boot =>
    intro i s which
    have h := bootPackage_booted s
    exact ⟨bootPackage s, exec_powerOn_or_resetInput s which, bootPackage_power s, h.now, h.cores, h.dies, h.teams, h.launches, h.cmds,
      h.leases, h.roots, h.ctxs, h.comms, h.sessions, h.keys, h.keysUsed, h.counted, h.host⟩
  case thermal =>
    intro s die inside up idle
    by_cases hot : 840 ≤ (Config.sensor (1 + die) s.now).toNat
    · obtain ⟨t, runs, stopped⟩ := exec_thermalStop_hot inside up idle hot
      exact ⟨t, runs, stopped.power.trans (if_pos hot).symm, stopped.cores, stopped.hbm⟩
    · exact ⟨s, exec_thermalStop_cool (Nat.not_le.mp hot), up.trans (if_neg hot).symm, rfl, rfl⟩
  case hbm =>
    exact fun s line => ⟨_, exec_uncorrectableError (.hbm line) s, List.mem_cons_self .., rfl, rfl⟩
  case scratch =>
    intro s team line live inside
    refine ⟨_, exec_uncorrectableError (.scratch team line) s, ?_⟩
    rw [poisonAt_scratch live inside]
    have struck : line ∈ ((s.onTeam team fun t => { t with scratchPoison := line :: t.scratchPoison }).team team).scratchPoison := by
      rw [team_onTeam_same]
      exact List.mem_cons_self ..
    exact struck

end Sys2Proof.Package

/-! PROOFS. What the accesses of a word leave of the scratchpad (R193, R195, R199), byte by byte. -/

namespace Sys2Proof.LocalWords

open Sys2Proof.Machine Sys2Proof.Safety Sys2Proof.Laws

/-! ## One access -/

/-- The bytes that an access other than a load puts in place: a store's data, or the new value of an atomic. -/
def putBytes (m : Mem) (a : Access) : List Byte :=
  if a.kind = 1 then a.data
  else leBytes a.size (atomicNew a.op (leNat (memReads m a.addr a.size)) (leNat a.data) (leNat a.cmp))

theorem putBytes_length (m : Mem) {a : Access} (whole : a.kind = 1 → a.data.length = a.size) :
    (putBytes m a).length = a.size := by
  unfold putBytes
  split
  · exact whole ‹_›
  · exact CommandElements.length_leBytes ..

theorem scratchStep_load (x : Mem × List Dest) {a : Access} (load : a.kind = 0) : (scratchStep x a).1 = x.1 := by
  simp [scratchStep, load]

theorem scratchStep_put (x : Mem × List Dest) {a : Access} (puts : a.kind ≠ 0) :
    (scratchStep x a).1 = memWrites x.1 a.addr (putBytes x.1 a) := by
  by_cases store : a.kind = 1 <;> simp [scratchStep, putBytes, puts, store]

theorem scratchStep_wf {x : Mem × List Dest} (wf : Memory.wf x.1 = true) (a : Access) :
    Memory.wf (scratchStep x a).1 = true := by
  by_cases load : a.kind = 0
  · rwa [scratchStep_load x load]
  · rw [scratchStep_put x load]
    exact memWrites_wf _ _ wf

theorem memRead_scratchStep_other {x : Mem × List Dest} (wf : Memory.wf x.1 = true) {a : Access}
    (whole : a.kind = 1 → a.data.length = a.size) {k : Nat} (out : ¬ storesAt a k) :
    memRead (scratchStep x a).1 k = memRead x.1 k := by
  by_cases load : a.kind = 0
  · rw [scratchStep_load x load]
  · rw [scratchStep_put x load]
    refine CommandElements.memRead_memWrites_other wf ?_
    rw [putBytes_length x.1 whole]
    have : ¬ (a.addr ≤ k ∧ k < a.addr + a.size) := fun inside => out ⟨load, inside⟩
    omega

/-! ## The accesses of a word -/

theorem memRead_foldl_scratchStep_other (as : List Access) (x : Mem × List Dest) (k : Nat) (wf : Memory.wf x.1 = true)
    (whole : ∀ a ∈ as, a.kind = 1 → a.data.length = a.size) (out : ∀ a ∈ as, ¬ storesAt a k) :
    memRead (as.foldl scratchStep x).1 k = memRead x.1 k := by
  induction as generalizing x with
  | nil => rfl
  | cons a as ih =>
    rw [List.forall_mem_cons] at whole out
    calc memRead (as.foldl scratchStep (scratchStep x a)).1 k
        = memRead (scratchStep x a).1 k := ih _ (scratchStep_wf wf a) whole.2 out.2
      _ = memRead x.1 k := memRead_scratchStep_other wf whole.1 out.1

/-- A store alone leaves its data in place. -/
theorem scratchRun_store (m : Mem) {a : Access} (store : a.kind = 1) : (scratchRun m [a]).1 = memWrites m a.addr a.data := by
  have puts : a.kind ≠ 0 := by omega
  rw [scratchRun, List.foldl_cons, List.foldl_nil, scratchStep_put _ puts, putBytes, if_pos store]

/-- Settles O24: a byte outside every access keeps its value from one access to the next, and what a store writes reads back. -/
theorem scratchpadFrame : Obligations.ScratchpadFrame := by
  unfold Obligations.ScratchpadFrame
  refine ⟨fun m as k wf => memRead_foldl_scratchStep_other as (m, []) k wf, fun m a wf store whole => ?_⟩
  rw [scratchRun_store m store, ← whole]
  exact ⟨CommandElements.memReads_memWrites wf a.addr a.data, memWrites_wf a.addr a.data wf⟩

end Sys2Proof.LocalWords

/-! PROOFS. The traps of words that access local space (R193), as the statements number the tests, and what a short one of them
leaves alone when it is done. -/

namespace Sys2Proof.LocalWords

open Sys2Proof.Machine Sys2Proof.Safety Sys2Proof.Laws

/-! ## Tests -/

/-- The model's tests by where an address falls are the tests of R193 by its number. -/
theorem testLocal_eq (p : Packet) (t : Team) (kind : Nat) (uniform : Bool) (a n : Nat) :
    testLocal p t kind uniform a n = failedTest p t kind uniform a n := by
  by_cases scratch : a + n ≤ p.scratch
  · simp [testLocal, failedTest, localPlace_scratch p t a n scratch, scratch]
  by_cases low : 0x40000000 ≤ a ∧ a < 0x80000000
  · have notOwn : ¬ 0x80000000 ≤ a := by omega
    by_cases fits : (a - 0x40000000) / 0x08000000 < p.windows ∧
        (a - 0x40000000) % 0x08000000 + n ≤ (tgetD t.windows ((a - 0x40000000) / 0x08000000) default).len
    · simp [testLocal, failedTest, localPlace, scratch, low, notOwn, fits]
    · simp [testLocal, failedTest, localPlace, scratch, low, notOwn, fits]
  have noWindow (fits : Prop) : ¬ (0x40000000 ≤ a ∧ a < 0x80000000 ∧ fits) := fun ⟨above, below, _⟩ => low ⟨above, below⟩
  by_cases own : 0x80000000 ≤ a ∧ a + n ≤ 0x80000000 + p.priv
  · cases uniform <;> simp [testLocal, failedTest, localPlace, scratch, low, noWindow, own]
  · simp [testLocal, failedTest, localPlace, scratch, low, noWindow, own]

/-- The first test that a lane of one access fails, with the address. -/
theorem fails_oneAccess (p : Packet) (t : Team) (uniform : Bool) (l : LaneAt) {a : Access} (space : a.space ≠ 2) :
    (oneAccess l a).fails p t uniform = (failedTest p t a.kind uniform a.addr a.size).map fun k => (k, a.addr) := by
  simp only [LaneAcc.fails, oneAccess, beq_eq_false_iff_ne.mpr space, Bool.false_eq_true, if_false, testLocal_eq,
    List.filterMap_cons, List.filterMap_nil]
  cases failedTest p t a.kind uniform a.addr a.size <;> rfl

/-- A word of one access a lane traps for the lanes that fail. -/
theorem localTrap_oneAccess (p : Packet) (t : Team) (uniform : Bool) (ls : List LaneAt) (acc : LaneAt → Access)
    (own : ∀ l, (acc l).r = l.2) (space : ∀ l, (acc l).space ≠ 2) :
    localTrap p t uniform (ls.map fun l => oneAccess l (acc l)) =
      trapOf (failing (fun a => failedTest p t a.kind uniform a.addr a.size) (ls.map acc)) := by
  unfold localTrap failing
  rw [List.filterMap_map, List.filterMap_map]
  refine congrArg trapOf (List.filterMap_congr fun l _ => ?_)
  simp only [Function.comp, fails_oneAccess p t uniform l (space l), Option.map_map, own l]
  rfl

/-! ## Words -/

section Words

variable {s : State} {g : Cur} {opc : Nat} {f : Form} {e : Env} {uniform : Bool} {mk : Env → List LaneAcc}

/-- A word of local memory that issues and of which no lane fails a test is done as its accesses are. -/
theorem localWord_done (h : Issues s g opc f e) (passes : localTrap e.pkt (e.s.team e.team) uniform (mk e) = none) {t : State}
    {stay : List LaneRef} (made : accessWord e f (f.isLong opc) (mk e) = .done t stay) :
    localWord opc f s uniform mk = .next (wordDone opc s g (putOutcome e opc f t) stay) :=
  runWord_done h _ (by simp only [passes, made])

/-- A word of local memory that issues and of which a lane fails a test traps. -/
theorem localWord_trap (h : Issues s g opc f e) {cause : Nat} {origin : List LaneRef} {tag : LaneRef → W32}
    (fails : localTrap e.pkt (e.s.team e.team) uniform (mk e) = some (cause, origin, tag)) :
    localWord opc f s uniform mk = .next (takeTrap s g cause origin tag) :=
  runWord_trap h _ (by simp only [fails])

end Words

/-- A word of local memory traps as its failing lanes say. -/
theorem localTraps_of_localWord {i : Instr} {opc : Nat} {f : Form} {uniform : Bool} {mk : Env → List LaneAcc}
    {fails : Env → List (LaneRef × Nat × Nat)} (hi : ∀ s, exec i s = localWord opc f s uniform mk)
    (same : ∀ e, localTrap e.pkt (e.s.team e.team) uniform (mk e) = trapOf (fails e)) : LocalTraps i opc f fails := by
  intro s g e r k a rest h failed
  have cause : causeOf = testCause := funext fun n => by simp only [testCause, causeOf, beq_iff_eq]
  refine (hi s).trans (localWord_trap h ((same e).trans ?_))
  rw [failed, cause]
  rfl

/-! ## The write of a predicate -/

theorem dropPending_frame (s : State) (core salt : Nat) (p : Dest → Bool) :
    { dropPending s core salt p with cores := [] } = { s with cores := [] } := by
  unfold dropPending
  split <;> rfl

theorem writeP_frame (s : State) (core : Nat) (r : LaneRef) (i : Nat) (b : Bool) :
    { writeP s core r i b with cores := [] } = { s with cores := [] } := by
  unfold writeP
  split
  · rfl
  · rename_i writable
    rw [dropPending_frame, putP, if_neg writable]
    rfl

theorem lane_writeP (s : State) (core : Nat) (r : LaneRef) (i : Nat) (b : Bool) (q : LaneRef) :
    (writeP s core r i b).lane core q = { s.lane core q with p := ((writeP s core r i b).lane core q).p } := by
  unfold writeP
  split
  · rfl
  · rename_i writable
    simp only [lane_dropPending, putP, writable, Bool.false_eq_true, if_false, lane_onLane]
    split <;> rfl

/-! ## Short words -/

theorem nb_of_short {s : State} {g : Cur} {opc : Nat} {f : Form} {e : Env} (h : Issues s g opc f e)
    (short : f.isLong opc = false) : e.nb = none := by
  have pops : f.popsSource (opSpec opc f.mod) = false := (Bool.or_eq_false_iff.mp short).2
  have operand := h.operand
  rw [pops] at operand
  injection operand with _ noOutcome
  exact noOutcome.symm

theorem putOutcome_of_none {e : Env} (noOutcome : e.nb = none) (opc : Nat) (f : Form) (s : State) : putOutcome e opc f s = s := by
  simp [putOutcome, noOutcome]

/-- Where the lanes stand once a word that may be rejected, and was not, is done. -/
theorem lane_wordDone {s t : State} {g : Cur} {opc : Nat} (rejects : mayReject opc = true) (distinct : g.refs.Nodup) (q : LaneRef) :
    (wordDone opc s g t []).lane g.core q =
      if q ∈ g.refs then { (t.lane g.core q).next with age := 0, groupAge := 0 } else t.lane g.core q := by
  simp only [wordDone, issued_access t g [] rejects, lane_countEv, lane_wordIssued t g [] distinct]
  simp

theorem beside_wordDone {s t : State} {g : Cur} {opc : Nat} (rejects : mayReject opc = true) :
    Beside g.core t (wordDone opc s g t []) := by
  simp only [wordDone, issued_access t g [] rejects]
  exact (beside_wordIssued t g []).trans ((beside_countEv ..).trans (beside_countEv ..))

/-- A short word whose accesses are made: no lane of it is rejected, and no outcome of it stays outstanding. -/
def shortDone (e : Env) (s : State) : State :=
  onPend (countRejects s e.core e.g.refs []) e.core 0 fun p => { p with dests := p.dests ++ e.dests fun _ => [] }

theorem lane_shortDone (e : Env) (s : State) (q : LaneRef) : (shortDone e s).lane e.core q = s.lane e.core q := by
  unfold shortDone onPend
  rw [lane_onCore _ e.core (fun c => { c with pends := _ }) (by intro; rfl), lane_unrejected]

theorem beside_shortDone (e : Env) (s : State) : Beside e.core s (shortDone e s) :=
  (beside_unrejected s e.core e.g.refs).trans
    (beside_onCore _ e.core (fun c => { c with pends := _ }) (by intro; rfl) (by intro; rfl))

theorem locate_scratch {s : State} {core : Nat} {p : Packet} {t : Team} {a : Access} (space : a.space = 0)
    (inside : a.addr + a.size ≤ p.scratch) : a.locate s core p t = a := by
  obtain ⟨r, kind, _, addr, glob, size⟩ := a
  cases space
  simp only [Access.locate, localPlace_scratch p t addr size inside]
  rfl

end Sys2Proof.LocalWords

/-! PROOFS. The local monitor (R204, R205): what LMON finds and arms, and what ends an LMWAIT. -/

namespace Sys2Proof.LocalMonitor

open Sys2Proof.Machine Sys2Proof.Safety Sys2Proof.Laws Sys2Proof.LocalWords

/-! ## The condition (R204) -/

theorem leNat_leBytes (n x : Nat) : leNat (leBytes n x) = x % 256 ^ n := by
  induction n generalizing x with
  | zero => simp [leBytes, leNat, Nat.mod_one]
  | succ n ih =>
    have parts : x % 256 ^ (n + 1) = x % 256 + 256 * (x / 256 % 256 ^ n) := by rw [Nat.pow_succ', Nat.mod_mul]
    rw [leBytes, leNat, ih, BitVec.toNat_ofNat, parts]

theorem word_leBytes (b : W32) : BitVec.ofNat 32 (leNat (leBytes 4 b.toNat)) = b := by
  have fits : b.toNat % 256 ^ 4 = b.toNat := Nat.mod_eq_of_lt b.isLt
  rw [leNat_leBytes, fits, BitVec.ofNat_toNat, BitVec.setWidth_eq]

/-- The condition by its COND code, in the order of the integers that the words stand for. -/
theorem lmonCond_eq (code : Nat) (w b : W32) : lmonCond code w b =
    match code with
    | 0 => decide (w = b) | 1 => decide (w ≠ b) | 2 => decide (w.toInt < b.toInt) | 3 => decide (b.toInt ≤ w.toInt)
    | 4 => decide (w.toNat < b.toNat) | _ => decide (b.toNat ≤ w.toNat) := by
  unfold lmonCond
  split
  · exact Bool.beq_eq_decide_eq w b
  · simp [bne, Bool.beq_eq_decide_eq]
  · rfl
  · simp [BitVec.slt, ← decide_not]
  · rfl
  · simp [BitVec.ult, ← decide_not]

/-! ## The access of LMON -/

/-- A lane has read its line: its monitor is armed on the line, or off where the condition held, and it says which. -/
def senseLine (s : State) (core : Nat) (a : Access) (found : Bool) : State :=
  let s := s.onLane core a.r fun l => { l with lmon := if found then .off else .armed (a.addr / 128) }
  match a.d with
  | .p i => writeP s core a.r i.toNat found
  | _ => s

theorem senseLine_frame (s : State) (core : Nat) (a : Access) (found : Bool) :
    { senseLine s core a found with cores := [] } = { s with cores := [] } := by
  unfold senseLine
  dsimp only
  split
  · rw [writeP_frame]
    rfl
  · rfl

/-- Of the lanes nothing differs but predicates, and the monitor of the lane itself. -/
theorem lane_senseLine (s : State) (core : Nat) (a : Access) (found : Bool) (q : LaneRef) :
    (senseLine s core a found).lane core q = { s.lane core q with
      p := ((senseLine s core a found).lane core q).p
      lmon := if q = a.r then (if found then .off else .armed (a.addr / 128)) else (s.lane core q).lmon } := by
  have armed : (s.onLane core a.r fun l => { l with lmon := if found then .off else .armed (a.addr / 128) }).lane core q =
      { s.lane core q with
        lmon := if q = a.r then (if found then .off else .armed (a.addr / 128)) else (s.lane core q).lmon } := by
    rw [lane_onLane]
    by_cases itself : q = a.r <;> simp only [itself, if_true, if_false]
  unfold senseLine
  dsimp only
  split
  · rw [lane_writeP, armed]
  · rw [armed]

theorem senseLine_holds (s : State) (core : Nat) {a : Access} (found : Bool) {k : BitVec 3} (names : a.d = .p k) :
    holds (senseLine s core a found) core (.p a.r k.toNat found) := by
  unfold senseLine
  rw [names]
  exact holds_write _ core (.p a.r k.toNat found) k.isLt

/-- What LMON reads and compares. -/
def finds (s : State) (t : Nat) (a : Access) : Bool :=
  lmonCond a.op (BitVec.ofNat 32 (leNat (memReads (s.team t).scratch a.addr a.size))) (BitVec.ofNat 32 (leNat a.data))

theorem performLocal_monitor {s : State} {core t asid : Nat} {a : Access} (space : a.space = 0) (kind : a.kind = 3)
    (clean : ∀ n ∈ linesOf a.addr a.size, n ∉ (s.team t).scratchPoison) :
    performLocal s core t asid a = .ok (senseLine s core a (finds s t a)) := by
  have unpoisoned : (linesOf a.addr a.size).any (s.team t).scratchPoison.contains = false := by
    rw [List.any_eq_false]
    intro n within
    simpa using clean n within
  simp only [performLocal, space, kind, unpoisoned, Bool.false_eq_true, if_false]
  rfl

theorem live_senseLine (s : State) (core : Nat) (a : Access) (found : Bool) (t : Nat) :
    (senseLine s core a found).live t = s.live t := by
  have frame := congrArg State.teams (senseLine_frame s core a found)
  have teams : (senseLine s core a found).teams = s.teams := frame
  simp only [State.live, State.team, teams]

theorem performLane_monitor {s : State} {core t asid : Nat} {a : Access} (space : a.space = 0) (kind : a.kind = 3)
    (clean : ∀ n ∈ linesOf a.addr a.size, n ∉ (s.team t).scratchPoison) (live : s.live t = true) :
    performLane s core t asid [a] = .ok (senseLine s core a (finds s t a)) := by
  simp [performLane, space, windowPhase, live, performLocals, performLocal_monitor space kind clean]

/-- The access of a lane that no claim holds back. -/
theorem accessWord_monitor {e : Env} {f : Form} {l : LaneAt} {a : Access} (space : a.space = 0) (kind : a.kind = 3)
    (unowned : a.pend = 0) (live : e.s.live e.team = true) (free : ∀ k ∈ (e.s.core e.core).claims, k.team ≠ e.team)
    (inside : a.addr + a.size ≤ e.pkt.scratch)
    (clean : ∀ n ∈ linesOf a.addr a.size, n ∉ (e.s.team e.team).scratchPoison) :
    accessWord e f false [oneAccess l a] = .done (shortDone e (senseLine e.s e.core a (finds e.s e.team a))) [] := by
  have located : ({ a.locate e.s e.core e.pkt (e.s.team e.team) with pend := 0 } : Access) = a := by
    rw [locate_scratch space inside, ← unowned]
  have unclaimed : claimed (e.s.core e.core) e.team a = false := by
    rw [claimed, List.any_eq_false]
    intro k hk
    simp [Claim.holds, free k hk]
  simp [accessWord, oneAccess, located, unclaimed, performLanes, performLane_monitor space kind clean live, live_senseLine, live,
    shortDone]

/-! ## LMON -/

/-- The access that LMON makes for a lane. -/
def lmonAccess (f : Form) (e : Env) (l : LaneAt) : Access := { (default : Access) with
  r := l.2, kind := 3, addr := (e.addr l f).toNat, size := 4, data := leBytes 4 (e.src l f.b .int).toNat
  op := f.mod.toNat, d := f.d }

theorem exec_lmon (f : Form) (s : State) :
    exec (.lmon f) s = localWord 0x6C f s false fun e => e.act.map fun l => oneAccess l (lmonAccess f e l) := rfl

/-- The group goes on, with the lane's monitor and its predicate by what the lane found; nothing else but counts differs. -/
theorem sensed_wordDone {s t : State} {g : Cur} {e : Env} (group : e.g = g) (distinct : g.refs.Nodup) (a : Access) (found : Bool)
    (done : t = wordDone 0x6C s g (shortDone e (senseLine e.s e.core a found)) []) :
    (t.lane g.core a.r).lmon = (if found then .off else .armed (a.addr / 128)) ∧
    (∀ k, a.d = .p k → holds t g.core (.p a.r k.toNat found)) ∧ Onward e.s t g ∧
    { t with cores := [], teams := [] } = { e.s with cores := [], teams := [] } := by
  have here : e.core = g.core := by rw [Env.core, group]
  have lanes (q : LaneRef) : t.lane g.core q = if q ∈ g.refs then
      { ((senseLine e.s e.core a found).lane g.core q).next with age := 0, groupAge := 0 }
      else (senseLine e.s e.core a found).lane g.core q := by
    rw [done, lane_wordDone rfl distinct, ← here, lane_shortDone]
  have counts : Beside g.core (senseLine e.s e.core a found) t := by
    rw [done]
    exact (here ▸ beside_shortDone e _).trans (beside_wordDone rfl)
  rw [here] at lanes counts
  have sensed := lane_senseLine e.s g.core a found
  refine ⟨?monitor, fun k names => ?result, ⟨fun r member => ?on, fun r other => ?stands⟩, ?frame⟩
  case monitor =>
    rw [lanes, sensed]
    split <;> simp [Lane.next]
  case result =>
    refine (senseLine_holds e.s g.core found names).imp id fun written => ?_
    rw [← written, preg, preg, lanes]
    split <;> rfl
  case on =>
    rw [lanes, if_pos member, sensed]
    rfl
  case stands =>
    rw [lanes, if_neg other, sensed]
    exact ⟨rfl, rfl⟩
  case frame =>
    exact counts.state.trans (congrArg (fun u : State => { u with teams := [] }) (senseLine_frame e.s g.core a found))

/-- LMON of one lane, in the scratchpad and held back by no claim, arms the lane's monitor or finds its condition. -/
theorem lmon_senses {s : State} {g : Cur} {f : Form} {e : Env} {l : LaneAt} (h : Issues s g 0x6C f e) (alone : e.act = [l])
    (live : e.s.live e.team = true) (free : ∀ k ∈ (e.s.core e.core).claims, k.team ≠ e.team)
    (inside : (e.addr l f).toNat + 4 ≤ e.pkt.scratch) (aligned : (e.addr l f).toNat % 4 = 0)
    (clean : ∀ k ∈ linesOf (e.addr l f).toNat 4, k ∉ (e.s.team e.team).scratchPoison) (short : f.isLong 0x6C = false) :
    ∃ t, exec (.lmon f) s = .next t ∧
      (t.lane g.core l.2).lmon = (if finds e.s e.team (lmonAccess f e l) then .off else .armed ((e.addr l f).toNat / 128)) ∧
      (∀ k, f.d = .p k → holds t g.core (.p l.2 k.toNat (finds e.s e.team (lmonAccess f e l)))) ∧ Onward e.s t g ∧
      { t with cores := [], teams := [] } = { e.s with cores := [], teams := [] } := by
  have noTrap : localTrap e.pkt (e.s.team e.team) false [oneAccess l (lmonAccess f e l)] = none := by
    refine localTrap_none _ _ _ _ fun x hx => ?_
    rw [List.mem_singleton.mp hx]
    refine ⟨rfl, fun a ha => ?_⟩
    rw [List.mem_singleton.mp ha]
    exact ⟨rfl, inside, aligned⟩
  have made : accessWord e f (f.isLong 0x6C) [oneAccess l (lmonAccess f e l)] = .done _ [] :=
    short ▸ accessWord_monitor rfl rfl rfl live free inside clean
  have runs := localWord_done h (mk := fun e => e.act.map fun l => oneAccess l (lmonAccess f e l))
    (by rw [alone]; exact noTrap) (by rw [alone]; exact made)
  rw [putOutcome_of_none (nb_of_short h short)] at runs
  exact ⟨_, (exec_lmon f s).trans runs, sensed_wordDone h.group h.distinct (lmonAccess f e l) _ rfl⟩

theorem accessTraps_lmon (f : Form) : AccessTraps (.lmon f) 0x6C f false (fun e => e.act.map fun l =>
    { (default : Access) with r := l.2, kind := 3, addr := (e.addr l f).toNat, size := 4 }) := by
  refine localTraps_of_localWord (exec_lmon f) fun e => ?_
  rw [localTrap_oneAccess _ _ _ _ (lmonAccess f e) (fun _ => rfl) fun _ => (by decide : (0 : Nat) ≠ 2)]
  simp only [failing, List.filterMap_map]
  rfl

/-! ## LMWAIT (R205) -/

/-- The lane's monitor is armed and has not fired. -/
def armed (e : Env) (r : LaneRef) : Bool :=
  match (e.s.lane e.core r).lmon with
  | .armed _ => true
  | _ => false

theorem does_lmwait (f : Form) : Does (.lmwait f) 0x6D f (fun _ => True)
    (fun e => forEach e.act e.s fun s l =>
      if armed e l.2 then setBlock s e.core l.2 (.lmwait f.d s.now (e.src l f.a .int).toNat) else endLmwait s e.core l.2 f.d true)
    (fun e => (mine e).filter (armed e)) := by
  refine does_of_runWord _ (fun _ => rfl) fun e _ => ?_
  rw [mine, List.filter_map]
  rfl

theorem endLmwait_off (s : State) (core : Nat) (r : LaneRef) (d : Opnd) (b : Bool) :
    ((endLmwait s core r d b).lane core r).lmon = .off := by
  simp [endLmwait]

section Ends

variable {s : State} {core slot lane since limit : Nat} {d : Opnd}

theorem exec_lmwaitWake (waits : (s.lane core ⟨slot, lane⟩).block = .lmwait d since limit)
    (fired : (s.lane core ⟨slot, lane⟩).lmon = .fired) :
    exec (.lmwaitWake core slot lane) s = .next ((endLmwait s core ⟨slot, lane⟩ d true).onLane core ⟨slot, lane⟩ Lane.next) := by
  have arm : exec (.lmwaitWake core slot lane) s = execLmwaitWake core slot lane s := rfl
  simp only [arm, execLmwaitWake, waits, fired]

theorem exec_lmwaitTimeout {k : Nat} (waits : (s.lane core ⟨slot, lane⟩).block = .lmwait d since limit)
    (armed : (s.lane core ⟨slot, lane⟩).lmon = .armed k) (limited : limit ≠ 0) (past : since + 2 * limit ≤ s.now) :
    exec (.lmwaitTimeout core slot lane) s = .next ((endLmwait s core ⟨slot, lane⟩ d false).onLane core ⟨slot, lane⟩ Lane.next) := by
  have arm : exec (.lmwaitTimeout core slot lane) s = execLmwaitTimeout core slot lane s := rfl
  simp [arm, execLmwaitTimeout, waits, armed, limited, past]

end Ends

/-! ## What fires a monitor (R205) -/

theorem lane_fireMonitors_team {s : State} {core t : Nat} (lines : List Nat) {r : LaneRef} (own : (s.wave core r.slot).team = t) :
    (fireMonitors s core t lines).lane core r = firedLane lines (s.lane core r) := by
  simp only [State.lane, wave_fireMonitors, own, if_true, Wave.lane]
  rw [tgetD_map _ _ (by intro e; rfl)]
  rfl

theorem scratchWrite_fires {s : State} {t a n : Nat} {bs : List Byte} {r : LaneRef}
    (own : (s.wave (s.team t).core r.slot).team = t) (armed : (s.lane (s.team t).core r).lmon = .armed n)
    (written : n ∈ linesOf a bs.length) : ((scratchWrite s t a bs).lane (s.team t).core r).lmon = .fired := by
  have kept (F : Team → Team) : (s.onTeam t F).lane (s.team t).core r = s.lane (s.team t).core r := rfl
  refine (congrArg Lane.lmon (lane_fireMonitors_team _ ?own)).trans ?_
  case own => exact own
  simp [kept, firedLane, armed, written]

/-! ## The statement -/

/-- Settles O29: LMON by its one access of the scratchpad, LMWAIT by the lanes whose monitors are armed, and its ends. -/
theorem localMonitor : Obligations.LocalMonitor := by
  unfold Obligations.LocalMonitor
  refine ⟨fun f => ⟨?lmon, accessTraps_lmon f, does_lmwait f⟩, ?ends, endLmwait_off,
    fun s t a bs slot lane n own => scratchWrite_fires (r := ⟨slot, lane⟩) own⟩
  case lmon =>
    intro s g e l h alone live free inside aligned clean short
    have compares : finds e.s e.team (lmonAccess f e l) = lmonCond f.mod.toNat
        (BitVec.ofNat 32 (leNat (memReads (e.s.team e.team).scratch (e.addr l f).toNat 4))) (e.src l f.b .int) :=
      congrArg (lmonCond _ _) (word_leBytes _)
    obtain ⟨t, runs, monitor, result, onward, frame⟩ := lmon_senses h alone live free inside aligned clean short
    rw [compares, lmonCond_eq] at monitor result
    exact ⟨t, runs, monitor, result, onward, frame⟩
  case ends =>
    exact fun s core slot lane d since limit waits =>
      ⟨exec_lmwaitWake waits, fun k => exec_lmwaitTimeout waits⟩

end Sys2Proof.LocalMonitor

/-! PROOFS. Slips (R255, R256, R264): what a test of a mask finds, the words that test, and the waits on slips. -/

namespace Sys2Proof.SlipWords

open Sys2Proof.Machine Sys2Proof.Safety Sys2Proof.Laws

/-! ## What a test finds (R264) -/

section Test

variable {s : State} {t : Nat} {mask : W64}

theorem mem_maskSlips {k : Nat} : k ∈ maskSlips s t mask ↔ k < (teamPkt s t).slips ∧ mask.getLsbD k = true := by
  simp [maskSlips]

/-- The first SET slip of a mask is the lowest. -/
theorem find_set_iff {k : Nat} : ((maskSlips s t mask).find? fun k => teamSlip s t k == .set) = some k ↔
    k ∈ maskSlips s t mask ∧ teamSlip s t k = .set ∧ ∀ j ∈ maskSlips s t mask, j < k → teamSlip s t j ≠ .set := by
  simp only [mem_maskSlips]
  rw [maskSlips, List.find?_filter, List.find?_range_eq_some]
  simp only [List.mem_range, beq_iff_eq, Bool.not_eq_true', decide_eq_true_eq, decide_eq_false_iff_not, not_and]
  constructor
  · rintro ⟨⟨named, set⟩, within, lowest⟩
    exact ⟨⟨within, named⟩, set, fun j ⟨_, bit⟩ below => lowest j below bit⟩
  · rintro ⟨⟨within, named⟩, set, lowest⟩
    exact ⟨⟨named, set⟩, within, fun j below bit => lowest j ⟨below.trans within, bit⟩ below⟩

theorem find_set_none_iff : ((maskSlips s t mask).find? fun k => teamSlip s t k == .set) = none ↔
    ∀ k ∈ maskSlips s t mask, teamSlip s t k ≠ .set := by
  simp only [List.find?_eq_none, beq_iff_eq, ne_eq]

/-- A test for any finds the lowest SET slip. -/
theorem testSlips_any_of_set {k : Nat} (found : ((maskSlips s t mask).find? fun k => teamSlip s t k == .set) = some k) :
    testSlips s t mask false = .holds [k] (BitVec.ofNat 32 k) := by
  simp only [testSlips, Bool.false_eq_true, if_false, found]

/-- Without a SET slip it waits for a PENDING one. -/
theorem testSlips_any_of_unset (unset : ((maskSlips s t mask).find? fun k => teamSlip s t k == .set) = none) :
    testSlips s t mask false = if ∃ k ∈ maskSlips s t mask, teamSlip s t k = .pending then .waits else .fails := by
  simp only [testSlips, Bool.false_eq_true, if_false, unset, List.any_eq_true, beq_iff_eq]

/-- A test for all finds every slip SET; otherwise it waits unless one is CLEAR. -/
theorem testSlips_all : testSlips s t mask true =
    if ∀ k ∈ maskSlips s t mask, teamSlip s t k = .set then .holds (maskSlips s t mask) 1
    else if ∃ k ∈ maskSlips s t mask, teamSlip s t k = .clear then .fails
    else .waits := by
  simp only [testSlips, if_true, List.all_eq_true, List.any_eq_true, beq_iff_eq]

theorem testSlips_any_holds_iff {k : Nat} {v : W32} : testSlips s t mask false = .holds [k] v ↔
    v = BitVec.ofNat 32 k ∧ k ∈ maskSlips s t mask ∧ teamSlip s t k = .set ∧
      ∀ j ∈ maskSlips s t mask, j < k → teamSlip s t j ≠ .set := by
  rw [← find_set_iff]
  cases found : (maskSlips s t mask).find? fun k => teamSlip s t k == .set with
  | some j =>
    simp only [testSlips_any_of_set found, SlipTest.holds.injEq, List.cons.injEq, and_true, Option.some.injEq]
    constructor
    · rintro ⟨rfl, rfl⟩
      exact ⟨rfl, rfl⟩
    · rintro ⟨rfl, rfl⟩
      exact ⟨rfl, rfl⟩
  | none =>
    rw [testSlips_any_of_unset found]
    split <;> simp

theorem testSlips_any_waits_iff : testSlips s t mask false = .waits ↔
    (∀ k ∈ maskSlips s t mask, teamSlip s t k ≠ .set) ∧ ∃ k ∈ maskSlips s t mask, teamSlip s t k = .pending := by
  rw [← find_set_none_iff]
  cases found : (maskSlips s t mask).find? fun k => teamSlip s t k == .set with
  | some j => simp [testSlips_any_of_set found]
  | none => simp [testSlips_any_of_unset found]

theorem testSlips_any_fails_iff : testSlips s t mask false = .fails ↔ ∀ k ∈ maskSlips s t mask, teamSlip s t k = .clear := by
  have states (x : Slip) : x = .clear ↔ x ≠ .set ∧ ¬ x = .pending := by cases x <;> simp
  simp only [states, forall₂_and, ← find_set_none_iff]
  cases found : (maskSlips s t mask).find? fun k => teamSlip s t k == .set with
  | some j => simp [testSlips_any_of_set found]
  | none => simp [testSlips_any_of_unset found]

theorem testSlips_all_holds_iff : (∃ js v, testSlips s t mask true = .holds js v) ↔
    ∀ k ∈ maskSlips s t mask, teamSlip s t k = .set := by
  rw [testSlips_all]
  by_cases set : ∀ k ∈ maskSlips s t mask, teamSlip s t k = .set
  · rw [if_pos set]
    exact iff_of_true ⟨_, _, rfl⟩ set
  · rw [if_neg set]
    refine iff_of_false (fun ⟨js, v, holds⟩ => ?_) set
    split at holds <;> cases holds

theorem testSlips_all_fails_iff : testSlips s t mask true = .fails ↔ ∃ k ∈ maskSlips s t mask, teamSlip s t k = .clear := by
  rw [testSlips_all]
  split
  case isTrue set =>
    have none_ : ¬ ∃ k ∈ maskSlips s t mask, teamSlip s t k = .clear := fun ⟨k, named, clear⟩ =>
      absurd (clear.symm.trans (set k named)) (by decide)
    simp [none_]
  case isFalse =>
    split
    case isTrue clear => exact iff_of_true rfl clear
    case isFalse unclear => exact iff_of_false nofun unclear

theorem testSlips_all_waits_iff : testSlips s t mask true = .waits ↔
    (∀ k ∈ maskSlips s t mask, teamSlip s t k ≠ .clear) ∧ ∃ k ∈ maskSlips s t mask, teamSlip s t k = .pending := by
  have states (x : Slip) (unclear : x ≠ .clear) : x = .pending ↔ ¬ x = .set := by cases x <;> simp_all
  by_cases clear : ∃ k ∈ maskSlips s t mask, teamSlip s t k = .clear
  · have fails := testSlips_all_fails_iff.mpr clear
    obtain ⟨k, named, clear⟩ := clear
    exact iff_of_false (by simp [fails]) fun ⟨unclear, _⟩ => unclear k named clear
  · have unclear : ∀ k ∈ maskSlips s t mask, teamSlip s t k ≠ .clear := fun k named c => clear ⟨k, named, c⟩
    have unset : (∃ k ∈ maskSlips s t mask, teamSlip s t k = .pending) ↔
        ¬ ∀ k ∈ maskSlips s t mask, teamSlip s t k = .set := by
      rw [not_forall₂]
      exact ⟨fun ⟨k, named, p⟩ => ⟨k, named, (states _ (unclear k named)).mp p⟩,
        fun ⟨k, named, p⟩ => ⟨k, named, (states _ (unclear k named)).mpr p⟩⟩
    rw [testSlips_all, unset, if_neg clear, and_iff_right unclear]
    split
    case isTrue set => exact iff_of_false nofun (not_not.mpr set)
    case isFalse unset => exact iff_of_true rfl unset

end Test

/-! ## Slips set and read (R264) -/

theorem teamSlip_setSlip_clear (s : State) (t j k : Nat) :
    teamSlip (setSlip s t j .clear) t k = if k = j then .clear else teamSlip s t k := by
  by_cases same : k = j
  · simp [teamSlip, setSlip, tgetD, same, MatrixQueue.tget_tdel_same]
  · simp [teamSlip, setSlip, tgetD, same, MatrixQueue.tget_tdel_other]

theorem teamSlip_clearSlips (s : State) (t : Nat) (ks : List Nat) (k : Nat) :
    teamSlip (clearSlips s t ks) t k = if k ∈ ks then .clear else teamSlip s t k := by
  induction ks generalizing s with
  | nil => rfl
  | cons j ks ih =>
    refine (ih (setSlip s t j .clear)).trans ?_
    rw [teamSlip_setSlip_clear]
    by_cases later : k ∈ ks <;> simp [later]

theorem foldl_bits_eq_sum (p : Nat → Bool) (ks : List Nat) (m : Nat) :
    ks.foldl (fun m k => if p k then m + 2 ^ k else m) m = m + (ks.map fun k => if p k then 2 ^ k else 0).sum := by
  induction ks generalizing m with
  | nil => rfl
  | cons k ks ih =>
    rw [List.foldl_cons, ih]
    cases on : p k <;> simp [on, Nat.add_assoc]

/-- A bit for each declared slip in the state. -/
theorem slipBits_eq (s : State) (t : Nat) (x : Slip) :
    slipBits s t x = ((List.range (teamPkt s t).slips).map fun k => if teamSlip s t k = x then 2 ^ k else 0).sum := by
  refine (foldl_bits_eq_sum (fun k => teamSlip s t k == x) _ 0).trans ?_
  simp only [Nat.zero_add, beq_iff_eq]

/-! ## The words (R264) -/

section Words

variable {i : Instr} {opc : Nat} {f : Form} {all clr bounded : Bool}

/-- The mask of a word on slips. -/
def wordMask (f : Form) (e : Env) : W64 := e.src64 e.first f.a .int

/-- The slips of a condition that holds are acquired, and cleared under .clr. -/
def acquired (e : Env) (clr : Bool) (ks : List Nat) : State :=
  if clr then clearSlips (acquireSlips e.s e.core e.team ks) e.team ks else acquireSlips e.s e.core e.team ks

/-- What a word on slips leaves where its condition holds. -/
def whereHolds (opc : Nat) (f : Form) (all clr : Bool) (yes : W32 → List Wr) (e : Env) : State :=
  match testSlips e.s e.team (wordMask f e) all with
  | .holds ks v => e.results opc f (acquired e clr ks) fun _ => yes v
  | _ => e.s

theorem does_holds (hi : ∀ s, exec i s = slipWord opc f s all clr bounded) {yes : W32 → Wr}
    (result : ∀ v, slipResult f.d all bounded true v = yes v) :
    Does i opc f (fun e => ∃ ks v, testSlips e.s e.team (wordMask f e) all = .holds ks v)
      (whereHolds opc f all clr fun v => [yes v]) (fun _ => []) :=
  does_of_runWord _ hi fun e ⟨ks, v, holds⟩ => by
    rw [wordMask] at holds
    simp only [whereHolds, wordMask, holds, result]
    rfl

theorem does_fails (hi : ∀ s, exec i s = slipWord opc f s all clr bounded) {no : Wr}
    (result : slipResult f.d all bounded false 0 = no) :
    Does i opc f (fun e => testSlips e.s e.team (wordMask f e) all = .fails)
      (fun e => e.results opc f e.s fun _ => [no]) (fun _ => []) :=
  does_of_runWord _ hi fun e fails => by
    rw [wordMask] at fails
    simp only [fails, result]

theorem does_waits (hi : ∀ s, exec i s = slipWord opc f s all clr bounded) :
    Does i opc f (fun e => testSlips e.s e.team (wordMask f e) all = .waits ∧ e.nb = none)
      (fun e => blockWord e.s e.core (mine e) (.slips (wordMask f e) all clr bounded) f.d .nul) mine :=
  does_of_runWord _ hi fun e ⟨waits, noOutcome⟩ => by
    rw [wordMask] at waits
    have kept : keepOutcome e opc f e.s = e.s := by simp [keepOutcome, noOutcome]
    simp only [waits, kept]
    rfl

end Words

section Find

variable (f : Form)

theorem does_sfind_holds : Does (.sfind f) 0xB6 f
    (fun e => ∃ ks v, testSlips e.s e.team (wordMask f e) false = .holds ks v)
    (whereHolds 0xB6 f false (f.mod.getLsbD 0) fun v => [.w32 f.d v]) (fun _ => []) :=
  does_of_runWord _ (fun _ => rfl) fun e ⟨ks, v, holds⟩ => by
    rw [wordMask] at holds
    simp only [whereHolds, wordMask, holds]
    rfl

/-- SFIND never waits. -/
theorem does_sfind_finds_none (test : SlipTest) (unheld : ∀ ks v, test ≠ .holds ks v) : Does (.sfind f) 0xB6 f
    (fun e => testSlips e.s e.team (wordMask f e) false = test)
    (fun e => e.results 0xB6 f e.s fun _ => [.w32 f.d 0xFFFFFFFF]) (fun _ => []) :=
  does_of_runWord _ (fun _ => rfl) fun e found => by
    rw [wordMask] at found
    simp only [found]

theorem does_sread : Does (.sread f) 0xB9 f (fun _ => True) (fun e => e.results 0xB9 f e.s fun _ =>
    let m := ((List.range e.pkt.slips).map fun k =>
      if teamSlip e.s e.team k = (if f.mod.getLsbD 1 then .pending else .set) then 2 ^ k else 0).sum
    [.w32 f.d (BitVec.ofNat 32 (if f.mod.getLsbD 0 then m / 2 ^ 32 else m))]) (fun _ => []) :=
  does_of_runWord _ (fun _ => rfl) fun e _ => by
    simp only [slipBits_eq]
    rfl

theorem does_sclr : Does (.sclr f) 0xB8 f (fun _ => True) (fun e => clearSlips e.s e.team
    ((maskSlips e.s e.team (wordMask f e)).filter fun k => decide (teamSlip e.s e.team k = .set))) (fun _ => []) :=
  does_of_runWord _ (fun _ => rfl) fun e _ => by
    simp only [beq_eq_decide]
    rfl

end Find

/-! ## The ends of waits (R264) -/

section Ends

variable {s : State} {core slot bid : Nat} {w : Wait} {mask : W64} {all clr bounded : Bool}

theorem exec_slipWaitReturn_slips {ks : List Nat} {v : W32} (found : (s.core core).findWait bid = some w)
    (waits : w.kind = .slips mask all clr bounded) (half : s.now % 2 = 0)
    (holds : testSlips s (w.team s core) mask all = .holds ks v) : exec (.slipWaitReturn core slot bid) s =
      .next (returnWait (if clr then clearSlips (acquireSlips s core (w.team s core) ks) (w.team s core) ks
        else acquireSlips s core (w.team s core) ks) core w (slipResult w.d all bounded true v)) := by
  have arm : exec (.slipWaitReturn core slot bid) s = execSlipWaitReturn core slot bid s := rfl
  simp [arm, execSlipWaitReturn, State.lateHalf, half, found, waits, holds]

theorem exec_stryTimeout (found : (s.core core).findWait bid = some w) (waits : w.kind = .slips mask all clr true)
    (past : w.since + 2048 ≤ s.now) (unheld : ∀ ks v, testSlips s (w.team s core) mask all ≠ .holds ks v) :
    exec (.stryTimeout core slot bid) s = .next (returnWait s core w (.pr w.d false)) := by
  have arm : exec (.stryTimeout core slot bid) s = execStryTimeout core slot bid s := rfl
  cases test : testSlips s (w.team s core) mask all with
  | holds ks v => exact absurd test (unheld ks v)
  | fails => simp [arm, execStryTimeout, found, waits, past, test]
  | waits => simp [arm, execStryTimeout, found, waits, past, test]

end Ends

/-! ## The statement -/

/-- Settles O30: the three words that wait by what their test finds, SFIND, SREAD and SCLR by their bodies, the ends of waits, and
the test by the states of the slips. -/
theorem slips : Obligations.Slips := by
  unfold Obligations.Slips
  refine ⟨⟨fun f => ?words, fun s core slot bid w mask all clr bounded ks v => exec_slipWaitReturn_slips,
    fun s core slot bid w mask all clr => exec_stryTimeout⟩, fun s t mask => ?test,
    fun f => ⟨does_sread f, does_sclr f⟩, teamSlip_clearSlips⟩
  case words =>
    have any (s : State) : exec (.swaitany f) s = slipWord 0xB4 f s false (f.mod.getLsbD 0) false := rfl
    have every (s : State) : exec (.swaitall f) s = slipWord 0xB5 f s true (f.mod.getLsbD 0) false := rfl
    have try_ (s : State) : exec (.stry f) s = slipWord 0xB7 f s (f.mod.getLsbD 0) false true := rfl
    have tried (b : Bool) (v : W32) : slipResult f.d (f.mod.getLsbD 0) true b v = .pr f.d b := by simp [slipResult]
    exact ⟨⟨does_holds any fun v => rfl, does_fails any rfl⟩, ⟨does_holds every fun v => rfl, does_fails every rfl⟩,
      ⟨does_holds try_ (tried true), does_fails try_ (tried false 0)⟩,
      ⟨does_sfind_holds f, does_sfind_finds_none f .fails nofun⟩, does_waits any, does_waits every, does_waits try_,
      does_sfind_finds_none f .waits nofun⟩
  case test =>
    exact ⟨fun k v => testSlips_any_holds_iff, testSlips_any_waits_iff, testSlips_any_fails_iff, testSlips_all_holds_iff,
      testSlips_all_fails_iff, testSlips_all_waits_iff, fun k => mem_maskSlips⟩

end Sys2Proof.SlipWords

/-! PROOFS. Completion rings (R265, R267): the words by what the ring holds and by the SIZE and base of its setting, and the ends of
the waits on one. -/

namespace Sys2Proof.RingWords

open Sys2Proof.Machine Sys2Proof.Safety Sys2Proof.Laws

/-! ## The ring (R265) -/

/-- A ring of a team. -/
def ringOf (s : State) (t i : Nat) : CRing := tgetD (s.team t).crings i default

/-- The address of a ring's oldest entry. -/
def oldestEntry (r : CRing) : W32 := BitVec.ofNat 32 (r.base + 64 * (r.tail.toNat % r.size))

section Head

variable {s : State} {t i : Nat}

theorem ringHead_of_entry (sized : (ringOf s t i).size ≠ 0) (filled : (ringOf s t i).head ≠ (ringOf s t i).tail) :
    ringHead s t i = some (oldestEntry (ringOf s t i)) := by
  rw [ringOf] at sized filled
  simp [ringHead, ringOf, oldestEntry, sized, filled]

theorem ringHead_of_none (none_ : (ringOf s t i).size = 0 ∨ (ringOf s t i).head = (ringOf s t i).tail) : ringHead s t i = none := by
  rw [ringOf] at none_
  simp [ringHead, none_]

end Head

/-! ## A setting (R267) -/

/-- A SIZE that a ring can have, and a ring no byte of which is beyond the scratchpad. -/
def goodSize (n : Nat) : Prop := n = 0 ∨ ∃ k, 1 ≤ k ∧ k ≤ 10 ∧ n = 2 ^ k
def inside (e : Env) (base size : Nat) : Prop := size = 0 ∨ base + 64 * size ≤ e.pkt.scratch

theorem ringSizeOk_iff (n : Nat) : ringSizeOk n = true ↔ goodSize n := by
  simp only [goodSize, ringSizeOk, Bool.or_eq_true, beq_iff_eq, Bool.and_eq_true, decide_eq_true_eq]
  refine or_congr_right ⟨fun ⟨⟨low, high⟩, power⟩ => ⟨n.log2, low, high, power⟩, ?_⟩
  rintro ⟨k, low, high, rfl⟩
  rw [Nat.log2_two_pow]
  exact ⟨⟨low, high⟩, rfl⟩

/-- The test of RINGACK.init fails exactly where the setting has no such SIZE or does not fit. -/
theorem refused_iff (e : Env) (base size : Nat) :
    (!ringSizeOk size || (size != 0 && decide (base + 64 * size > e.pkt.scratch))) = true ↔ ¬ (goodSize size ∧ inside e base size) := by
  rw [inside, ← ringSizeOk_iff]
  simp only [Bool.or_eq_true, Bool.not_eq_true', Bool.and_eq_true, bne_iff_ne, decide_eq_true_eq, not_and_or, not_or, not_le,
    Bool.not_eq_true, ne_eq, gt_iff_lt]

/-! ## The words (R267) -/

section Words

variable (f : Form)

/-- The result of RINGWAIT in the contributing lanes. -/
def putWord (f : Form) (e : Env) (s : State) (x : W32) : State :=
  forEach ({ e with nb := none }.dests fun _ => [.w32 f.d x]) s fun s d => d.write s e.core

theorem does_ringwait_entry : Does (.ringwait f) 0xBA f
    (fun e => (ringOf e.s e.team (ringNo f)).size ≠ 0 ∧ (ringOf e.s e.team (ringNo f)).head ≠ (ringOf e.s e.team (ringNo f)).tail)
    (fun e => putWord f e (acquireEntry e.s e.core e.team (ringNo f)) (oldestEntry (ringOf e.s e.team (ringNo f)))) (fun _ => []) :=
  does_of_runWord _ (fun _ => rfl) fun e ⟨sized, filled⟩ => by
    simp only [ringHead_of_entry sized filled]
    rfl

theorem does_ringwait_unconfigured : Does (.ringwait f) 0xBA f (fun e => (ringOf e.s e.team (ringNo f)).size = 0)
    (fun e => putWord f e e.s 0xFFFFFFFF) (fun _ => []) :=
  does_of_runWord _ (fun _ => rfl) fun e unsized => by
    have zero : ((tgetD (e.s.team e.team).crings (ringNo f) default).size == 0) = true := beq_iff_eq.mpr unsized
    simp only [ringHead_of_none (.inl unsized), zero, if_true]
    rfl

theorem does_ringwait_empty : Does (.ringwait f) 0xBA f
    (fun e => (ringOf e.s e.team (ringNo f)).size ≠ 0 ∧ (ringOf e.s e.team (ringNo f)).head = (ringOf e.s e.team (ringNo f)).tail)
    (fun e => blockWord e.s e.core (mine e) (.ring (ringNo f) (e.src e.first f.a .int).toNat) f.d .nul) mine :=
  does_of_runWord _ (fun _ => rfl) fun e ⟨sized, empty⟩ => by
    have nonzero : ((tgetD (e.s.team e.team).crings (ringNo f) default).size == 0) = false := beq_eq_false_iff_ne.mpr sized
    simp only [ringHead_of_none (.inr empty), nonzero, Bool.false_eq_true, if_false]
    rfl

/-- The base and the SIZE that RINGACK.init is given. -/
def initBase (f : Form) (e : Env) : Nat := (e.src e.first f.a .int).toNat
def initSize (f : Form) (e : Env) : Nat := (e.b e.first f .int).toNat

theorem does_ringackInit : Does (.ringackInit f) 0xBB f
    (fun e => goodSize (initSize f e) ∧ inside e (initBase f e) (initSize f e) ∧ initBase f e % 64 = 0)
    (fun e => e.s.onTeam e.team fun x => { x with
      crings := tset x.crings (ringNo f) { base := initBase f e, size := initSize f e, head := 0, tail := 0, scopes := [] } })
    (fun _ => []) :=
  does_of_runWord _ (fun _ => rfl) fun e ⟨good, fits, aligned⟩ => by
    have passes := (refused_iff e (initBase f e) (initSize f e)).not.mpr (not_not.mpr ⟨good, fits⟩)
    exact (if_neg passes).trans (if_neg fun misaligned => bne_iff_ne.mp misaligned aligned)

theorem traps_ringackInit_range : Traps (.ringackInit f) 0xBB f
    (fun e => ¬ (goodSize (initSize f e) ∧ inside e (initBase f e) (initSize f e))) 0x03
    (fun e => [e.first.2]) (fun e _ => BitVec.ofNat 32 (initBase f e)) :=
  traps_of_runWord _ (fun _ => rfl) fun e refused => if_pos ((refused_iff e (initBase f e) (initSize f e)).mpr refused)

theorem traps_ringackInit_misaligned : Traps (.ringackInit f) 0xBB f
    (fun e => goodSize (initSize f e) ∧ inside e (initBase f e) (initSize f e) ∧ initBase f e % 64 ≠ 0) 0x04
    (fun e => [e.first.2]) (fun e _ => BitVec.ofNat 32 (initBase f e)) :=
  traps_of_runWord _ (fun _ => rfl) fun e ⟨good, fits, misaligned⟩ => by
    have passes := (refused_iff e (initBase f e) (initSize f e)).not.mpr (not_not.mpr ⟨good, fits⟩)
    exact (if_neg passes).trans (if_pos (bne_iff_ne.mpr misaligned))

end Words

/-! ## The ends of waits (R267) -/

section Ends

variable {s : State} {core slot bid : Nat} {w : Wait} {i limit : Nat}

theorem exec_slipWaitReturn_ring (found : (s.core core).findWait bid = some w) (waits : w.kind = .ring i limit)
    (half : s.now % 2 = 0) (sized : (ringOf s (w.team s core) i).size ≠ 0)
    (filled : (ringOf s (w.team s core) i).head ≠ (ringOf s (w.team s core) i).tail) :
    exec (.slipWaitReturn core slot bid) s = .next (returnWait (acquireEntry s core (w.team s core) i) core w
      (.w32 w.d (oldestEntry (ringOf s (w.team s core) i)))) := by
  have arm : exec (.slipWaitReturn core slot bid) s = execSlipWaitReturn core slot bid s := rfl
  simp [arm, execSlipWaitReturn, State.lateHalf, half, found, waits, ringHead_of_entry sized filled]

theorem exec_ringwaitTimeout (found : (s.core core).findWait bid = some w) (waits : w.kind = .ring i limit) (limited : limit ≠ 0)
    (past : w.since + 2 * limit ≤ s.now)
    (none_ : (ringOf s (w.team s core) i).size = 0 ∨ (ringOf s (w.team s core) i).head = (ringOf s (w.team s core) i).tail) :
    exec (.ringwaitTimeout core slot bid) s = .next (returnWait s core w (.w32 w.d 0xFFFFFFFF)) := by
  have arm : exec (.ringwaitTimeout core slot bid) s = execRingwaitTimeout core slot bid s := rfl
  simp [arm, execRingwaitTimeout, found, waits, limited, past, ringHead_of_none none_]

end Ends

/-! ## The statement -/

/-- Settles O31: RINGWAIT by what its ring holds, RINGACK by its body, RINGACK.init by the setting that it is given, and the ends of
waits. -/
theorem rings : Obligations.Rings := by
  unfold Obligations.Rings
  exact ⟨fun f => ⟨does_ringwait_entry f, does_ringwait_unconfigured f, does_ringwait_empty f,
    does_of_runWord _ (fun _ => rfl) fun _ _ => rfl, does_ringackInit f, traps_ringackInit_range f, traps_ringackInit_misaligned f⟩,
    fun s core slot bid w i limit found waits => ⟨exec_slipWaitReturn_ring found waits, exec_ringwaitTimeout found waits⟩⟩

end Sys2Proof.RingWords

/-! PROOFS. Queue registers (R268, R269, R320, R321): pops and pushes by what their mailbox shows, and the ends of blocked accesses. -/

namespace Sys2Proof.QueueWords

open Sys2Proof.Machine Sys2Proof.Safety Sys2Proof.Laws

/-! ## Queue operands (R63, R268) -/

/-- The register, the marking and the flag of a queue operand. -/
def queueNo (o : Opnd) : Nat := match o with | .q n _ _ => n.toNat | _ => 0
def queueNb (o : Opnd) : Bool := match o with | .q _ nb _ => nb | _ => false
def queueFlag (o : Opnd) : BitVec 3 := match o with | .q _ _ p => p | _ => 0

theorem queueDesc_eq (o : Opnd) : queueDesc o = (queueNo o, queueNb o, queueFlag o) := by cases o <;> rfl

/-- What the queue register of an operand is bound to, in the wave of the word. -/
def binding (e : Env) (o : Opnd) : Option QBind := tget (e.s.wave e.core e.first.2.slot).q (queueNo o)

/-! ## What a mailbox shows (R269, R320) -/

section Observe

variable {k : Carrel}

theorem observe_of_entry {x : List Byte} {rest : List (List Byte)} (filled : k.obs = x :: rest) : observe k = some x := by
  rw [observe, filled]

theorem observe_of_ended (empty : k.obs = []) (ended : k.state = .ended) (none_ : k.heldObs = none) :
    observe k = some k.endedEntry := by
  simp [observe, empty, ended, none_]

theorem observe_of_not_ended (empty : k.obs = []) (goes : k.state ≠ .ended) : observe k = none := by
  simp [observe, empty, goes]

end Observe

/-! ## What a push comes to (R269, R320) -/

section Push

variable {s : State} {core t die c : Nat} {x : List Byte}

/-- The stamped action stands last, and the next one takes the next number. -/
def appended (s : State) (k : Carrel) (die c : Nat) (x : List Byte) : State :=
  s.onCarrel die c fun y => { y with actions := y.actions ++ [stampAction s k x], nextAction := y.nextAction + 1 }.retime s.now

theorem pushAction_of_ended (ended : (s.carrel die c).state ≠ .running) : pushAction s core t die c x = .done false s := by
  simp [pushAction, ended]

theorem pushAction_of_full (running : (s.carrel die c).state = .running) (full : 8 ≤ (s.carrel die c).actions.length) :
    pushAction s core t die c x = .blocked s := by
  simp [pushAction, mbxSize, running, full]

/-- Without a dirty line of the arena, the release has nothing to write back. -/
theorem pushAction_of_clean (running : (s.carrel die c).state = .running) (room : (s.carrel die c).actions.length < 8)
    (live : s.live t = true)
    (clean : ∀ l ∈ dirtyLines s core (s.carrel die c).asid, lineIn (s.carrel die c).arena (s.carrel die c).arenaLen l.line = false) :
    pushAction s core t die c x = .done true (appended (releasePkg s (ctxOf s (s.carrel die c).rcb) (dieOf core) core
      (some (arenaOf (s.carrel die c)))) (s.carrel die c) die c x) := by
  have none_ : (dirtyLines s core (s.carrel die c).asid).filter
      (fun l => lineIn (s.carrel die c).arena (s.carrel die c).arenaLen l.line) = [] := by
    simpa [List.filter_eq_nil_iff] using clean
  have unmoved : resolveBad s core [] = s := rfl
  simp [pushAction, mbxSize, running, room, none_, writeBackAll, unmoved, live, appended]

/-- Only a running episode whose mailbox has room takes an action. -/
theorem running_of_taken {u : State} (taken : pushAction s core t die c x = .done true u) :
    (s.carrel die c).state = .running ∧ (s.carrel die c).actions.length < 8 := by
  by_cases running : (s.carrel die c).state = .running
  case neg => simp [pushAction_of_ended running] at taken
  by_cases full : 8 ≤ (s.carrel die c).actions.length
  case pos => simp [pushAction_of_full running full] at taken
  exact ⟨running, Nat.lt_of_not_le full⟩

end Push

/-! ## QPOP and QPEEK (R269) -/

section Pop

variable {i : Instr} {opc : Nat} {f : Form} {peek : Bool} {b : QBind}

/-- What an entry gives the destinations of a pop, with the outcome where its operand is marked non-blocking. -/
def popGives (f : Form) (e : Env) (x : List Byte) : List Dest :=
  popDests e.s e.core e.first.2.slot (quadReg f.d) x ++
    if queueNb f.a then e.act.map fun l => .p l.2 (queueFlag f.a).toNat true else []

/-- A pop has its words outstanding; a peek writes them. -/
def popLeaves (f : Form) (peek : Bool) (b : QBind) (x : List Byte) (e : Env) : State :=
  if peek then forEach (popGives f e x) (popObs e.s e.core b.die b.carrel true) fun s d => d.write s e.core
  else (addPend (popObs e.s e.core b.die b.carrel false) e.core f (mine e) (popGives f e x) [] [] 0).2

theorem does_pop_entry (hi : ∀ s, exec i s = popWord opc f s peek) {x : List Byte} (pops : b.push = false) :
    Does i opc f (fun e => binding e f.a = some b ∧ observe (e.s.carrel b.die b.carrel) = some x) (popLeaves f peek b x)
      (fun _ => []) :=
  does_of_runWord _ hi fun e ⟨bound, entry⟩ => by
    rw [binding] at bound
    have outcomes : (e.act.flatMap fun l => (Wr.pr (.p (queueFlag f.a)) true).dests l.2 true) =
        e.act.map fun l => .p l.2 (queueFlag f.a).toNat true := by
      simp [Wr.dests, List.map_eq_flatMap]
    simp only [queueDesc_eq, bound, pops, entry, outcomes, Bool.false_eq_true, if_false]
    cases peek <;> rfl

theorem does_pop_empty (hi : ∀ s, exec i s = popWord opc f s peek) (pops : b.push = false) :
    Does i opc f (fun e => binding e f.a = some b ∧ observe (e.s.carrel b.die b.carrel) = none ∧ queueNb f.a = false)
      (fun e => blockWord e.s e.core (mine e) (.queuePop b.die b.carrel (quadReg f.d) peek) .nul .nul) mine :=
  does_of_runWord _ hi fun e ⟨bound, empty, blocking⟩ => by
    rw [binding] at bound
    simp only [queueDesc_eq, bound, pops, empty, blocking, Bool.false_eq_true, if_false]
    rfl

theorem traps_pop (hi : ∀ s, exec i s = popWord opc f s peek) :
    Traps i opc f (fun e => binding e f.a = none) 0x01 mine (fun _ _ => 0) :=
  traps_of_runWord _ hi fun e unbound => by
    rw [binding] at unbound
    simp only [queueDesc_eq, unbound]
    rfl

end Pop

/-! ## QPUSH (R269, R320) -/

section Pushes

variable {f : Form} {b : QBind} {ok : Env → Prop} {after : Env → State}

/-- The entry that lanes 0 to 15 of the source register hold. -/
def pushed (f : Form) (e : Env) : List Byte := pushEntry e.s e.core e.first.2.slot (quadReg f.a)

/-- A push that completes, once the loads before it have their values. -/
theorem does_qpush_done (pushes : b.push = true) (blocking : ∀ e, ok e → queueNb f.d = false)
    (meets : ∀ e, ok e → binding e f.d = some b ∧ ∃ u taken, e.settled 0xBC f = .ok u ∧
      pushAction u e.core e.team b.die b.carrel (pushed f e) = .done taken (after e)) :
    Does (.qpush f) 0xBC f ok after (fun _ => []) :=
  does_of_runWord _ (fun _ => rfl) fun e h => by
    obtain ⟨bound, u, taken, settled, acts⟩ := meets e h
    rw [binding] at bound
    rw [pushed] at acts
    simp only [queueDesc_eq, bound, pushes, settled, acts, blocking e h, outcome, Bool.not_true, Bool.false_eq_true, if_false]

theorem does_qpush_full (pushes : b.push = true) {fixed : Env → State} :
    Does (.qpush f) 0xBC f (fun e => binding e f.d = some b ∧ e.settled 0xBC f = .ok (fixed e) ∧
        ((fixed e).carrel b.die b.carrel).state = .running ∧ 8 ≤ ((fixed e).carrel b.die b.carrel).actions.length ∧ queueNb f.d = false)
      (fun e => blockWord (fixed e) e.core (mine e) (.queuePush b.die b.carrel (pushed f e)) .nul .nul) mine :=
  does_of_runWord _ (fun _ => rfl) fun e ⟨bound, settled, running, full, blocking⟩ => by
    rw [binding] at bound
    simp only [queueDesc_eq, bound, pushes, settled, pushAction_of_full running full, blocking, Bool.not_true, Bool.false_eq_true,
      if_false]
    rfl

theorem traps_qpush : Traps (.qpush f) 0xBC f (fun e => binding e f.d = none) 0x01 mine (fun _ _ => 0) :=
  traps_of_runWord _ (fun _ => rfl) fun e unbound => by
    rw [binding] at unbound
    simp only [queueDesc_eq, unbound]
    rfl

end Pushes

/-! ## Blocked accesses (R269, R270) -/

section Resumes

variable {s : State} {core slot bid die c : Nat} {w : Wait} {x : List Byte}

theorem exec_queueAccessResume_push {taken : Bool} {u : State} (found : (s.core core).findWait bid = some w)
    (waits : w.kind = .queuePush die c x) (acts : pushAction s core (w.team s core) die c x = .done taken u) :
    exec (.queueAccessResume core slot bid) s = .next (finishWait u core w) := by
  have arm : exec (.queueAccessResume core slot bid) s = execQueueAccessResume core slot bid s := rfl
  simp only [arm, execQueueAccessResume, found, waits, acts]

theorem exec_queueAccessResume_pop {reg : Nat} {peek : Bool} (found : (s.core core).findWait bid = some w)
    (waits : w.kind = .queuePop die c reg peek) (entry : observe (s.carrel die c) = some x) :
    exec (.queueAccessResume core slot bid) s = .next (finishWait (forEach (popDests (popObs s core die c peek) core w.slot reg x)
      (popObs s core die c peek) fun s d => d.write s core) core w) := by
  have arm : exec (.queueAccessResume core slot bid) s = execQueueAccessResume core slot bid s := rfl
  simp only [arm, execQueueAccessResume, found, waits, entry, deliverPop]

theorem exec_queueAccessResume_operand (found : (s.core core).findWait bid = some w) (waits : w.kind = .queueSrc die c)
    (entry : observe (s.carrel die c) = some x) : exec (.queueAccessResume core slot bid) s = .next
      (forEach w.lanes (setWait (popObs s core die c false) core w.bid (.granted x)) fun s r => setBlock s core r .none) := by
  have arm : exec (.queueAccessResume core slot bid) s = execQueueAccessResume core slot bid s := rfl
  simp only [arm, execQueueAccessResume, found, waits, entry, deliverPop]

end Resumes

/-! ## The statement -/

/-- Settles O32: pops by what the mailbox shows, pushes by what they come to, and the ends of blocked accesses. -/
theorem queueRegisters : Obligations.QueueRegisters := by
  unfold Obligations.QueueRegisters
  refine ⟨fun f fixed => ?words, fun s core t die c x u => running_of_taken,
    fun s core slot bid w die c x taken u => exec_queueAccessResume_push,
    fun s core slot bid w die c reg peek x => exec_queueAccessResume_pop,
    fun s core slot bid w die c x => exec_queueAccessResume_operand,
    fun k x rest => observe_of_entry, fun k => observe_of_ended, fun k => observe_of_not_ended⟩
  case words =>
    have pop (s : State) : exec (.qpop f) s = popWord 0xBD f s false := rfl
    have peek (s : State) : exec (.qpeek f) s = popWord 0xBE f s true := rfl
    have entry (e : Env) : pushed f e = (List.range 16).flatMap fun i =>
        leBytes 4 (readHeld e.s e.core ⟨e.first.2.slot, i⟩ (quadReg f.a)).toNat := List.flatMap_map ..
    simp only [← entry]
    refine ⟨fun b x pops => does_pop_entry pop pops, fun b x pops => does_pop_entry peek pops, fun b pops => does_pop_empty pop pops,
      fun b pops => does_pop_empty peek pops, fun b u pushes => ?done, fun b pushes => ?taken, fun b pushes => ?discarded,
      fun b pushes => does_qpush_full pushes, traps_pop pop, traps_qpush⟩
    case done =>
      exact does_qpush_done pushes (fun e ⟨_, _, _, blocking⟩ => blocking)
        fun e ⟨bound, settled, acts, _⟩ => ⟨bound, _, _, settled, acts⟩
    case taken =>
      exact does_qpush_done pushes (fun e ⟨_, _, _, _, blocking, _⟩ => blocking)
        fun e ⟨bound, settled, running, room, _, live, clean⟩ => ⟨bound, _, _, settled, pushAction_of_clean running room live clean⟩
    case discarded =>
      exact does_qpush_done pushes (fun e ⟨_, _, _, blocking⟩ => blocking)
        fun e ⟨bound, settled, ended, _⟩ => ⟨bound, _, _, settled, pushAction_of_ended ended⟩

end Sys2Proof.QueueWords

/-! PROOFS. The append of a command (R257, R352): what it spares, and where the command then stands. -/

namespace Sys2Proof.Posting

open Sys2Proof.Machine Sys2Proof.Safety Sys2Proof.Laws

/-! ## What claims and contracts spare -/

/-- The queues, the vector registers, the slips and the states of the commands are the same. -/
structure Spares (s u : State) : Prop where
  queues : ∀ core cls, queueOf u core cls = queueOf s core cls
  vregs : ∀ core r k, vreg u core r k = vreg s core r k
  slips : ∀ t k, teamSlip u t k = teamSlip s t k
  states : ∀ k, (u.cmd k).state = (s.cmd k).state

theorem Spares.refl (s : State) : Spares s s := ⟨fun _ _ => rfl, fun _ _ _ => rfl, fun _ _ => rfl, fun _ => rfl⟩

theorem Spares.trans {s t u : State} (a : Spares s t) (b : Spares t u) : Spares s u :=
  ⟨fun c j => (b.queues c j).trans (a.queues c j), fun c r k => (b.vregs c r k).trans (a.vregs c r k),
    fun t k => (b.slips t k).trans (a.slips t k), fun k => (b.states k).trans (a.states k)⟩

theorem spares_forEach {α : Type} (l : List α) (s : State) (f : State → α → State) (h : ∀ u a, Spares u (f u a)) :
    Spares s (forEach l s f) := by
  induction l generalizing s with
  | nil => exact .refl s
  | cons a l ih => exact (h s a).trans (ih (f s a))

/-- What leaves the cores, the teams and the commands alone spares them. -/
theorem spares_of_same {s u : State} (cores : u.cores = s.cores) (teams : u.teams = s.teams) (cmds : u.cmds = s.cmds) : Spares s u := by
  refine ⟨fun c j => ?_, fun c r k => ?_, fun t k => ?_, fun k => ?_⟩
  · simp only [queueOf, State.core, cores]
  · simp only [vreg, State.lane, State.wave, State.core, cores]
  · simp only [teamSlip, State.team, teams]
  · simp only [State.cmd, cmds]

theorem spares_onCore (s : State) (core : Nat) (f : Core → Core) (queues : ∀ c, (f c).queues = c.queues)
    (waves : ∀ c, (f c).waves = c.waves) : Spares s (s.onCore core f) := by
  refine ⟨fun c j => ?_, fun c r k => ?_, fun _ _ => rfl, fun _ => rfl⟩
  · by_cases same : c = core
    · simp [queueOf, same, queues]
    · simp [queueOf, same]
  · by_cases same : c = core
    · simp [vreg, State.lane, State.wave, Core.wave, same, waves]
    · simp [vreg, State.lane, State.wave, same]

theorem spares_onWave (s : State) (core slot : Nat) (f : Wave → Wave) (regs : ∀ w i, ((f w).lane i).v = (w.lane i).v) :
    Spares s (s.onWave core slot f) := by
  refine ⟨fun c j => ?_, fun c r k => ?_, fun _ _ => rfl, fun _ => rfl⟩
  · by_cases same : c = core
    · simp [queueOf, State.onWave, Core.onWave, same]
    · simp [queueOf, State.onWave, same]
  · by_cases same : c = core
    · subst same
      simp only [vreg, State.lane, wave_onWave]
      split <;> simp only [regs]
    · simp [vreg, State.lane, State.wave, State.onWave, same]

theorem spares_onTeam (s : State) (t : Nat) (f : Team → Team) (slips : ∀ x, (f x).slips = x.slips) : Spares s (s.onTeam t f) := by
  refine ⟨fun _ _ => rfl, fun _ _ _ => rfl, fun u k => ?_, fun _ => rfl⟩
  by_cases same : u = t
  · simp [teamSlip, same, slips]
  · simp [teamSlip, same]

/-! ## Claims (R249, R285) -/

theorem spares_freshId (s : State) (core : Nat) : Spares s (s.freshId core).2 :=
  spares_onCore s core (fun c => { c with nextId := c.nextId + 1 }) (fun _ => rfl) fun _ => rfl

theorem spares_moreClaims (s : State) (core : Nat) (more : List Claim) :
    Spares s (s.onCore core fun c => { c with claims := c.claims ++ more }) := spares_onCore s core _ (fun _ => rfl) fun _ => rfl

/-- A command takes its claims, and those of its follow-on. -/
theorem spares_takeClaims (s : State) (k : Nat) : Spares s (takeClaims s k) := by
  refine (spares_moreClaims s (s.cmd k).core (claimsOfRuns k (s.cmd k).team (s.cmd k).ownTouches (s.cmd k).runs)).trans ?_
  unfold takeClaims
  dsimp only
  split
  · exact (spares_freshId ..).trans (spares_moreClaims ..)
  · exact .refl _

/-! ## Faults and freezes (R341, R353) -/

theorem testWatch_state (m : Mem) (lo hi : Nat) (c : Cmd) : (testWatch m lo hi c).state = c.state := by
  unfold testWatch
  dsimp only
  split
  · split <;> rfl
  · rfl

theorem spares_homeWrite (s : State) (pa : Nat) (bs : List Byte) : Spares s (homeWrite s pa bs) := by
  refine ⟨fun _ _ => rfl, fun _ _ _ => rfl, fun _ _ => rfl, fun k => ?_⟩
  simp only [State.cmd, homeWrite, tgetD]
  rw [tget_map s.cmds (fun e => (e.1, testWatch (memWrites s.hbm pa bs) pa (pa + bs.length) e.2)) fun _ => rfl]
  cases tget s.cmds k with
  | none => rfl
  | some c => exact testWatch_state ..

theorem spares_inOrder (s : State) (kind rank : Nat) : Spares s (s.inOrder kind rank) := by
  unfold State.inOrder
  split
  · split
    · exact spares_of_same rfl rfl rfl
    · split <;> exact spares_of_same rfl rfl rfl
  · exact spares_of_same rfl rfl rfl

theorem spares_countEv (s : State) (t ev n : Nat) : Spares s (countEv s t ev n) := by
  unfold countEv
  split
  · exact spares_onTeam _ _ _ (by intro; rfl)
  · exact .refl s

theorem spares_tell (s : State) (n ty : Nat) (bs : List Byte) : Spares s (s.tell n ty bs) := spares_of_same rfl rfl rfl

theorem spares_dockPut (s : State) (ctx : Nat) (bs : List Byte) : Spares s (dockPut s ctx bs) := by
  refine Spares.trans ?_ (spares_homeWrite ..)
  split
  · exact .refl s
  · exact spares_homeWrite ..

/-- A fault is written where the docket has room; else it is held, and the owner told. -/
theorem spares_dockFault (s : State) (ctx t : Nat) (e : DockEntry) : Spares s (dockFault s ctx t e).2 := by
  refine (spares_inOrder s (faultOrder ctx) (if e.core == 0xFF then 2 ^ 16 + e.die else 256 * e.die + e.core)).trans ?_
  rw [dockFault]
  generalize s.inOrder (faultOrder ctx) _ = u
  simp only [apply_ite Prod.snd]
  split
  · exact (spares_dockPut ..).trans (spares_countEv ..)
  · have held (v : State) (f : Ctx → Ctx) : Spares v (v.onCtx ctx f) := spares_of_same rfl rfl rfl
    split
    · exact ((spares_homeWrite ..).trans (held ..)).trans (spares_tell ..)
    · exact (spares_homeWrite ..).trans (held ..)

theorem spares_tellFreeze (s : State) (ctx : Nat) (extra : List Byte) : Spares s (tellFreeze s ctx extra) := by
  unfold tellFreeze
  split
  · exact spares_tell ..
  · exact .refl s

/-- The lane that wakes keeps its registers. -/
theorem spares_endSleeps (s : State) (t : Nat) : Spares s (endSleeps s t) := by
  refine spares_forEach _ s _ fun u slot => spares_onWave u _ slot _ fun w i => ?_
  simp only [Wave.lane, tgetD]
  rw [tget_map w.lanes _ fun e => by split <;> rfl]
  cases tget w.lanes i with
  | none => rfl
  | some l =>
    simp only [Option.map_some, Option.getD_some]
    split <;> rfl

/-- `dockFault` is held by a name: to check an equation about it the kernel would compute a fault of an unknown state. -/
theorem spares_freezeTeam (s : State) (t reason : Nat) : Spares s (freezeTeam s t reason) := by
  obtain ⟨fault, named⟩ : ∃ fault, dockFault = fault := ⟨_, rfl⟩
  have faulted : ∀ s ctx t e, Spares s (fault s ctx t e).2 := named ▸ spares_dockFault
  rw [freezeTeam, named]
  split
  · exact .refl s
  · extract_lets x extra
    replace faulted := faulted s (teamCtx s t) t { teamEntry s t with kind := 3, extra := extra }
    generalize fault s (teamCtx s t) t _ = y at faulted ⊢
    have told := spares_tellFreeze y.2 (teamCtx y.2 t) extra
    refine (faulted.trans (told.trans (spares_endSleeps _ t))).trans ?_
    exact spares_onTeam _ t _ fun _ => rfl

/-! ## Contracts (R352) -/

theorem spares_takeBuckets (die n : Nat) (nodes : List Nat) (x : Option Nat × State) :
    Spares x.2 (nodes.foldl (fun (acc : Option Nat × State) a =>
      let (y, s) := takeBucket acc.2 die a n
      (if acc.1.isSome then acc.1 else y, s)) x).2 := by
  induction nodes generalizing x with
  | nil => exact .refl x.2
  | cons a nodes ih =>
    rw [List.foldl_cons]
    refine Spares.trans ?_ (ih _)
    exact spares_of_same rfl rfl rfl

theorem spares_contractPost (s : State) (t n : Nat) : Spares s (contractPost s t n) := by
  have buckets := spares_takeBuckets (dieOf (s.team t).core) n
    ((rcbPath s (teamRcb s t)).filter fun a => rcbOvr s a / 16 % 2 == 1) (none, s)
  unfold contractPost
  dsimp only
  split
  · exact buckets.trans (spares_freezeTeam ..)
  · exact buckets

/-! ## The append (R257) -/

/-- The slip of a command becomes PENDING. -/
def pendSlip (s : State) (c : Cmd) : State := match c.slip with | some n => setSlip s c.team n .pending | none => s

/-- The command joins its queue. -/
def joinQueue (s : State) (c : Cmd) (k : Nat) : State :=
  s.onCore c.core fun x => { x with queues := tset x.queues c.cls (tgetD x.queues c.cls [] ++ [k]) }

/-- Its claims before, and its contract after, spare what the append is about. -/
theorem appendCmd_parts (s : State) (k : Nat) : ∃ u, Spares (s.onCmd k fun c => { c with state := .queued }) u ∧
    Spares (joinQueue (pendSlip u (s.cmd k)) (s.cmd k) k) (appendCmd s k) := by
  refine ⟨if (s.cmd k).kind == cfenceKind then s.onCmd k fun c => { c with state := .queued }
    else takeClaims (s.onCmd k fun c => { c with state := .queued }) k, ?claims, ?contract⟩
  case claims =>
    split
    · exact .refl _
    · exact spares_takeClaims ..
  case contract =>
    unfold appendCmd
    dsimp only
    generalize (if (s.cmd k).kind == cfenceKind then _ else _ : State) = u
    split
    · exact spares_contractPost ..
    · exact .refl _

theorem teamSlip_pendSlip {s : State} {c : Cmd} {n : Nat} (named : c.slip = some n) : teamSlip (pendSlip s c) c.team n = .pending := by
  simp [pendSlip, named, teamSlip, setSlip]

theorem pendSlip_cores (s : State) (c : Cmd) : (pendSlip s c).cores = s.cores := by
  unfold pendSlip
  split <;> rfl

theorem pendSlip_cmds (s : State) (c : Cmd) : (pendSlip s c).cmds = s.cmds := by
  unfold pendSlip
  split <;> rfl

theorem queueOf_joinQueue (s : State) (c : Cmd) (k : Nat) :
    queueOf (joinQueue s c k) c.core c.cls = queueOf s c.core c.cls ++ [k] := by
  simp [queueOf, joinQueue]

theorem vreg_joinQueue (s : State) (c : Cmd) (k core : Nat) (r : LaneRef) (i : Nat) :
    vreg (joinQueue s c k) core r i = vreg s core r i := by
  by_cases same : core = c.core
  · simp [vreg, joinQueue, State.lane, State.wave, Core.wave, same]
  · simp [vreg, joinQueue, State.lane, State.wave, same]

/-- An appended command stands last in its queue, QUEUED, with its slip PENDING; no register has changed. -/
theorem appendCmd_leaves (s : State) (k : Nat) : ((appendCmd s k).cmd k).state = .queued ∧
    queueOf (appendCmd s k) (s.cmd k).core (s.cmd k).cls = queueOf s (s.cmd k).core (s.cmd k).cls ++ [k] ∧
    (∀ n, (s.cmd k).slip = some n → teamSlip (appendCmd s k) (s.cmd k).team n = .pending) ∧
    ∀ r j, vreg (appendCmd s k) (s.cmd k).core r j = vreg s (s.cmd k).core r j := by
  obtain ⟨u, before, after⟩ := appendCmd_parts s k
  refine ⟨?state, ?queue, fun n named => ?slip, fun r j => ?vreg⟩
  case state =>
    have kept : (joinQueue (pendSlip u (s.cmd k)) (s.cmd k) k).cmd k = u.cmd k :=
      congrArg (fun t => tgetD t k default) (pendSlip_cmds u (s.cmd k))
    rw [after.states, kept, before.states, cmd_onCmd_same]
  case queue =>
    have kept : queueOf (pendSlip u (s.cmd k)) (s.cmd k).core (s.cmd k).cls = queueOf u (s.cmd k).core (s.cmd k).cls := by
      simp only [queueOf, State.core, pendSlip_cores]
    rw [after.queues, queueOf_joinQueue, kept, before.queues]
    rfl
  case slip =>
    exact (after.slips ..).trans (teamSlip_pendSlip named)
  case vreg =>
    have kept : vreg (pendSlip u (s.cmd k)) (s.cmd k).core r j = vreg u (s.cmd k).core r j := by
      simp only [vreg, State.lane, State.wave, State.core, pendSlip_cores]
    rw [after.vregs, vreg_joinQueue, kept, before.vregs]
    rfl

end Sys2Proof.Posting

/-! PROOFS. CPOST and CFENCE (R257 to R261): the command that a record or a fence posts, by whether it is well formed and has room. -/

namespace Sys2Proof.Posting

open Sys2Proof.Machine Sys2Proof.Safety Sys2Proof.Laws

/-! ## The record (R257, R258) -/

section Record

variable (f : Form) (e : Env)

def recordAddr : Nat := (e.addr e.first f).toNat
def recordClass (f : Form) : Nat := (f.mod.extractLsb' 0 2).toNat

/-- The record as it stands in the scratchpad, and the slip that it or the selector names. -/
def recordRead : List W64 := (List.range 32).map fun i => memDw (e.s.team e.team).scratch (recordAddr f e + 8 * i)
def recordSlip : Nat × Bool :=
  slipSelect (e.src e.first f.b .int) (ccrOf (recordRead f e)).slip (ccrOf (recordRead f e)).slipEn

/-- The record with its slip written into it. -/
def recordDws : List W64 :=
  withSlip ((recordRead f e).headD 0) (recordSlip f e).1 (recordSlip f e).2 :: (recordRead f e).drop 1
def record : Ccr := ccrOf (recordDws f e)

/-- A declared slip is named. -/
def namesSlip : Bool := (recordSlip f e).2 && (recordSlip f e).1 < e.pkt.slips

/-- The slip that it names is PENDING already. -/
def slipTaken : Prop := namesSlip f e = true ∧ teamSlip e.s e.team (recordSlip f e).1 = .pending

/-- The record lies in the scratchpad, aligned, nothing holds it back, and its slip is free. -/
def reaches : Prop :=
  recordAddr f e + 256 ≤ e.pkt.scratch ∧ recordAddr f e % 256 = 0 ∧ recordClaimed e.s e.core e.team (recordAddr f e) 256 = false ∧
    scratchBad e.s e.team (recordAddr f e) 256 = false ∧ ¬ slipTaken f e

end Record

/-! ## The command (R257, R259) -/

section Command

variable (f : Form) (e : Env) (u : State)

/-- The state in which the command has its number. -/
def numbered : State := (nextSeq u e.core (recordClass f)).2

/-- The command that the record posts. -/
def posted : Cmd := { (default : Cmd) with
  kind := (record f e).kind, dws := recordDws f e, ccrAddr := recordAddr f e, team := e.team, core := e.core, cls := recordClass f
  seq := tgetD (u.core e.core).seq (recordClass f) 0, tslot := ((numbered f e u).team e.team).tslot
  slip := if namesSlip f e then some (recordSlip f e).1 else none, state := .blocked
  mon := ((numbered f e u).lane e.core e.first.2).mon }

/-- The state in which the generator of the lane has stepped where the record rounds under RS, and the generator there. -/
def stepped : State :=
  if (record f e).steps then (numbered f e u).onLane e.core e.first.2 fun x => { x with g := stepG x.g } else numbered f e u
def generator : W32 := ((stepped f e u).lane e.core e.first.2).g

/-- The command as it is added, once the posts of the classes below have appended. -/
def added : Nat × State := addCmd (appendLower (stepped f e u) e.core (recordClass f))
  { posted f e u with gen := generator f e u, postGen := generator f e u }

/-- The command of a malformed record as it is added. -/
def addedMalformed (code : Nat) : State :=
  (addCmd (numbered f e u) { posted f e u with
    state := .malformed, status := 1, fault := code, armedAt := (numbered f e u).now }).2

/-- No word is blocked for a queue, and the queue has room for the command. -/
def hasRoom (x : Nat × State) (core cls : Nat) : Prop := blockedFor x.2 core cls = [] ∧ roomFor x.2 core cls x.1 = true

theorem hasRoom_iff (x : Nat × State) (core cls : Nat) :
    ((blockedFor x.2 core cls).isEmpty && roomFor x.2 core cls x.1) = true ↔ hasRoom x core cls := by
  rw [Bool.and_eq_true, List.isEmpty_iff, hasRoom]

end Command

section Body

variable {f : Form} {e : Env} {u : State}

theorem scratchOperand_of_beyond {p : Packet} {a n k : Nat} (beyond : p.scratch < a + n) : scratchOperand p a n k = some 0x03 := by
  simp [scratchOperand, beyond]

theorem scratchOperand_of_misaligned {p : Packet} {a n k : Nat} (within : a + n ≤ p.scratch) (misaligned : a % k ≠ 0) :
    scratchOperand p a n k = some 0x04 := by
  simp [scratchOperand, Nat.not_lt.mpr within, misaligned]

theorem scratchOperand_of_aligned {p : Packet} {a n k : Nat} (within : a + n ≤ p.scratch) (aligned : a % k = 0) :
    scratchOperand p a n k = none := by
  simp [scratchOperand, Nat.not_lt.mpr within, aligned]

theorem postRecord_of_bad {cause : Nat} (bad : scratchOperand e.pkt (recordAddr f e) 256 256 = some cause) :
    postRecord f e = .trap cause [e.first.2] fun _ => BitVec.ofNat 32 (recordAddr f e) := by
  rw [recordAddr] at bad
  simp only [postRecord, bad]
  rfl

/-- What a post makes of a record once the loads before it have their values, and of a record that it has read. -/
def checkRecord (f : Form) (e : Env) (u : State) : Res :=
  match (record f e).check e.pkt ((numbered f e u).team e.team) with
  | some code => .done (e.results 0xB0 f (if namesSlip f e then setSlip (addedMalformed f e u code) e.team (recordSlip f e).1 .pending
      else addedMalformed f e u code) fun _ => [.w32 f.d (posted f e u).ticket]) []
  | none =>
    if (blockedFor (added f e u).2 e.core (recordClass f)).isEmpty && roomFor (added f e u).2 e.core (recordClass f) (added f e u).1
    then .done (e.results 0xB0 f (appendCmd (added f e u).2 (added f e u).1) fun _ => [.w32 f.d (posted f e u).ticket]) []
    else .done (blockWord (keepOutcome e 0xB0 f (added f e u).2) e.core (mine e) (.post (added f e u).1 (recordClass f)) f.d .nul)
      (mine e)

def readRecord (f : Form) (e : Env) : Res :=
  if namesSlip f e && teamSlip e.s e.team (recordSlip f e).1 == .pending then .trap 0x08 [e.first.2] fun _ => 0
  else match e.settled 0xB0 f with
  | .error s => .stop s
  | .ok u => checkRecord f e u

theorem postRecord_of_read (within : recordAddr f e + 256 ≤ e.pkt.scratch) (aligned : recordAddr f e % 256 = 0)
    (unclaimed : recordClaimed e.s e.core e.team (recordAddr f e) 256 = false)
    (clean : scratchBad e.s e.team (recordAddr f e) 256 = false) : postRecord f e = readRecord f e := by
  have operand := scratchOperand_of_aligned within aligned
  rw [recordAddr] at operand unclaimed clean
  simp only [postRecord, operand, unclaimed, clean, Bool.false_eq_true, if_false]
  rfl

theorem slipTaken_iff (f : Form) (e : Env) :
    (namesSlip f e && teamSlip e.s e.team (recordSlip f e).1 == .pending) = true ↔ slipTaken f e := by
  rw [Bool.and_eq_true, beq_iff_eq, slipTaken]

theorem readRecord_of_taken (taken : slipTaken f e) : readRecord f e = .trap 0x08 [e.first.2] fun _ => 0 :=
  if_pos ((slipTaken_iff f e).mpr taken)

theorem postRecord_of_settled (reach : reaches f e) (settled : e.settled 0xB0 f = .ok u) : postRecord f e = checkRecord f e u := by
  obtain ⟨within, aligned, unclaimed, clean, free⟩ := reach
  rw [postRecord_of_read within aligned unclaimed clean, readRecord, if_neg ((slipTaken_iff f e).not.mpr free)]
  simp only [settled]

end Body

/-! ## CPOST (R257 to R259) -/

section Post

variable (f : Form) (fixed : Env → State)

theorem does_cpost_append : Does (.cpost f) 0xB0 f
    (fun e => reaches f e ∧ e.settled 0xB0 f = .ok (fixed e) ∧ (record f e).check e.pkt ((numbered f e (fixed e)).team e.team) = none ∧
      hasRoom (added f e (fixed e)) e.core (recordClass f))
    (fun e => e.results 0xB0 f (appendCmd (added f e (fixed e)).2 (added f e (fixed e)).1) fun _ =>
      [.w32 f.d (posted f e (fixed e)).ticket]) (fun _ => []) :=
  does_of_runWord _ (fun _ => rfl) fun e ⟨reach, settled, formed, room⟩ => by
    rw [postRecord_of_settled reach settled]
    simp only [checkRecord, formed, (hasRoom_iff ..).mpr room, if_true]

theorem does_cpost_block : Does (.cpost f) 0xB0 f
    (fun e => reaches f e ∧ e.settled 0xB0 f = .ok (fixed e) ∧ (record f e).check e.pkt ((numbered f e (fixed e)).team e.team) = none ∧
      ¬ hasRoom (added f e (fixed e)) e.core (recordClass f))
    (fun e => blockWord (keepOutcome e 0xB0 f (added f e (fixed e)).2) e.core (mine e)
      (.post (added f e (fixed e)).1 (recordClass f)) f.d .nul) mine :=
  does_of_runWord _ (fun _ => rfl) fun e ⟨reach, settled, formed, full⟩ => by
    rw [postRecord_of_settled reach settled]
    simp only [checkRecord, formed]
    exact if_neg ((hasRoom_iff ..).not.mpr full)

theorem does_cpost_malformed (code : Nat) : Does (.cpost f) 0xB0 f
    (fun e => reaches f e ∧ e.settled 0xB0 f = .ok (fixed e) ∧
      (record f e).check e.pkt ((numbered f e (fixed e)).team e.team) = some code)
    (fun e => e.results 0xB0 f (if namesSlip f e then setSlip (addedMalformed f e (fixed e) code) e.team (recordSlip f e).1 .pending
      else addedMalformed f e (fixed e) code) fun _ => [.w32 f.d (posted f e (fixed e)).ticket]) (fun _ => []) :=
  does_of_runWord _ (fun _ => rfl) fun e ⟨reach, settled, malformed⟩ => by
    rw [postRecord_of_settled reach settled]
    simp only [checkRecord, malformed]

theorem traps_cpost_beyond : Traps (.cpost f) 0xB0 f (fun e => e.pkt.scratch < recordAddr f e + 256) 0x03 (fun e => [e.first.2])
    (fun e _ => BitVec.ofNat 32 (recordAddr f e)) :=
  traps_of_runWord _ (fun _ => rfl) fun _ beyond => postRecord_of_bad (scratchOperand_of_beyond beyond)

theorem traps_cpost_misaligned : Traps (.cpost f) 0xB0 f
    (fun e => recordAddr f e + 256 ≤ e.pkt.scratch ∧ recordAddr f e % 256 ≠ 0) 0x04 (fun e => [e.first.2])
    (fun e _ => BitVec.ofNat 32 (recordAddr f e)) :=
  traps_of_runWord _ (fun _ => rfl) fun _ ⟨within, misaligned⟩ => postRecord_of_bad (scratchOperand_of_misaligned within misaligned)

theorem traps_cpost_taken : Traps (.cpost f) 0xB0 f
    (fun e => recordAddr f e + 256 ≤ e.pkt.scratch ∧ recordAddr f e % 256 = 0 ∧
      recordClaimed e.s e.core e.team (recordAddr f e) 256 = false ∧ scratchBad e.s e.team (recordAddr f e) 256 = false ∧ slipTaken f e)
    0x08 (fun e => [e.first.2]) (fun _ _ => 0) :=
  traps_of_runWord _ (fun _ => rfl) fun _ ⟨within, aligned, unclaimed, clean, taken⟩ =>
    (postRecord_of_read within aligned unclaimed clean).trans (readRecord_of_taken taken)

end Post

/-! ## CFENCE (R261) -/

section Fence

def fenceClass (f : Form) : Nat := (f.mod.extractLsb' 4 2).toNat

/-- The slip of a fence, and whether it names a declared one. -/
def fenceSlip (f : Form) (e : Env) : Nat := (e.src e.first f.a .int).toNat % 64
def fenceNames (f : Form) (e : Env) : Bool := (e.src e.first f.a .int).getLsbD 7 && fenceSlip f e < e.pkt.slips
def fenceTaken (f : Form) (e : Env) : Prop := fenceNames f e = true ∧ teamSlip e.s e.team (fenceSlip f e) = .pending

/-- The state in which the fence has its number, and the fence as it is added. -/
def fenceNumbered (f : Form) (e : Env) (u : State) : State := (nextSeq u e.core (fenceClass f)).2
def fenceAdded (f : Form) (e : Env) (u : State) : Nat × State := addCmd (fenceNumbered f e u) { (default : Cmd) with
  kind := cfenceKind, dws := [BitVec.ofNat 64 (11 + 2 * 2 ^ 24 + (f.mod.extractLsb' 0 4).toNat * 2 ^ 26)], team := e.team
  core := e.core, cls := fenceClass f, seq := tgetD (u.core e.core).seq (fenceClass f) 0
  tslot := ((fenceNumbered f e u).team e.team).tslot, slip := if fenceNames f e then some (fenceSlip f e) else none
  state := .blocked, mon := ((fenceNumbered f e u).lane e.core e.first.2).mon }

/-- What a CFENCE comes to. -/
def fenceRes (f : Form) (e : Env) : Res :=
  if fenceNames f e && teamSlip e.s e.team (fenceSlip f e) == .pending then .trap 0x08 [e.first.2] fun _ => 0
  else match e.settled 0xB1 f with
  | .error s => .stop s
  | .ok u =>
    if (blockedFor (fenceAdded f e u).2 e.core (fenceClass f)).isEmpty &&
        roomFor (fenceAdded f e u).2 e.core (fenceClass f) (fenceAdded f e u).1
    then .done (appendCmd (fenceAdded f e u).2 (fenceAdded f e u).1) []
    else .done (blockWord (fenceAdded f e u).2 e.core (mine e) (.post (fenceAdded f e u).1 (fenceClass f)) .nul .nul) (mine e)

theorem low6_toNat (x : W32) : (x.extractLsb' 0 6).toNat = x.toNat % 64 := by simp [BitVec.extractLsb'_toNat]

theorem exec_cfence (f : Form) (s : State) : exec (.cfence f) s = runWord 0xB1 f s (fenceRes f) := by
  have arm : exec (.cfence f) s = execCfence f s := rfl
  simp only [arm, execCfence, low6_toNat]
  rfl

variable (f : Form) (fixed : Env → State)

theorem fenceTaken_iff (e : Env) :
    (fenceNames f e && teamSlip e.s e.team (fenceSlip f e) == .pending) = true ↔ fenceTaken f e := by
  rw [Bool.and_eq_true, beq_iff_eq, fenceTaken]

theorem does_cfence_append : Does (.cfence f) 0xB1 f
    (fun e => ¬ fenceTaken f e ∧ e.settled 0xB1 f = .ok (fixed e) ∧ hasRoom (fenceAdded f e (fixed e)) e.core (fenceClass f))
    (fun e => appendCmd (fenceAdded f e (fixed e)).2 (fenceAdded f e (fixed e)).1) (fun _ => []) :=
  does_of_runWord _ (exec_cfence f) fun e ⟨free, settled, room⟩ => by
    rw [fenceRes, if_neg ((fenceTaken_iff f e).not.mpr free)]
    simp only [settled, (hasRoom_iff ..).mpr room, if_true]

theorem does_cfence_block : Does (.cfence f) 0xB1 f
    (fun e => ¬ fenceTaken f e ∧ e.settled 0xB1 f = .ok (fixed e) ∧ ¬ hasRoom (fenceAdded f e (fixed e)) e.core (fenceClass f))
    (fun e => blockWord (fenceAdded f e (fixed e)).2 e.core (mine e) (.post (fenceAdded f e (fixed e)).1 (fenceClass f)) .nul .nul)
    mine :=
  does_of_runWord _ (exec_cfence f) fun e ⟨free, settled, full⟩ => by
    rw [fenceRes, if_neg ((fenceTaken_iff f e).not.mpr free)]
    simp only [settled]
    exact if_neg ((hasRoom_iff ..).not.mpr full)

theorem traps_cfence : Traps (.cfence f) 0xB1 f (fun e => ¬ ¬ fenceTaken f e) 0x08 (fun e => [e.first.2]) (fun _ _ => 0) :=
  traps_of_runWord _ (exec_cfence f) fun e taken => if_pos ((fenceTaken_iff f e).mpr (not_not.mp taken))

end Fence

/-! ## A blocked post (R257) -/

theorem exec_cpostAppend {s : State} {core cls k c : Nat} {w : Wait} {rest : List Wait} (first : blockedFor s core cls = w :: rest)
    (waits : w.kind = .post k c) (room : roomFor s core cls k = true) (lowest : ∀ j < cls, canAppend s core j = false)
    (half : s.now % 2 = 0) : exec (.cpostAppend core cls) s = .next (appendBlocked s core w k) := by
  have arm : exec (.cpostAppend core cls) s = execCpostAppend core cls s := rfl
  have none_ : (List.range cls).any (canAppend s core) = false := by simpa using lowest
  simp [arm, execCpostAppend, first, waits, State.firstHalf, half, room, none_]

/-! ## The statement -/

/-- Settles O33: a record by what its post reads and checks, a fence by its slip and the room, a blocked post by its place, and the
append by what it leaves. -/
theorem posts : Obligations.Posts := by
  unfold Obligations.Posts
  exact ⟨⟨fun f fixed => ⟨does_cpost_append f fixed, does_cpost_block f fixed, does_cpost_malformed f fixed, traps_cpost_beyond f,
      traps_cpost_misaligned f, traps_cpost_taken f, does_cfence_append f fixed, does_cfence_block f fixed, traps_cfence f⟩,
    fun s core cls w rest k c => exec_cpostAppend⟩, appendCmd_leaves⟩

end Sys2Proof.Posting
